-- ==== Sys2Proof/Word.lean ====
section
/-! DEFINITION. The word types of the Crilos C24: bytes, 32-bit registers, 64-bit pairs and code addresses, 96-bit instructions, 512-bit fetch lines. -/

namespace Sys2Proof

/-- A byte (R2: multi-byte values are little-endian). -/
abbrev Byte := BitVec 8
/-- The contents of one X register (R5). -/
abbrev Word := BitVec 32
/-- A register pair, a virtual address or a code address (R5, R44). -/
abbrev DWord := BitVec 64
/-- An instruction (R59). -/
abbrev Code := BitVec 96
/-- A fetch line: five instructions and the line word (R43). -/
abbrev Line := BitVec 512
/-- The 256 bits of an event vector (R95). -/
abbrev EvMask := BitVec 256

end Sys2Proof
end

