-- ==== Sys2Proof/Config.lean ====
section
/-! DEFINITION. What an implementation fixes (the fused identity, the address map, the constants of the rules) and the free values that the spec leaves open. -/

namespace Sys2Proof.Config

/-- Compute stacks of a module (00, Scope). -/
def dies : Nat := 24
/-- Physical cores of a compute stack: 11 clusters of 16 (R8, Table 1.3). -/
def coresPerDie : Nat := 176
/-- Physical cores of a module. -/
def cores : Nat := 4224
/-- LEASE of the tick rules (R284). -/
def lease : Nat := 16
/-- Bytes of the team scratchpad of a core (Table 13.11). -/
def scratchBytes : Nat := 655360
/-- Lines of an instruction cache, and memory requests that a core may have outstanding (R8, Table 1.2). -/
def icacheLines : Nat := 2048
def maxRequests : Nat := 4096
/-- Units of an accumulator store (R348). -/
def accUnits : Nat := 16384
/-- Cycles of a microsecond at 1.1 GHz (R20's clock). -/
def cyclesPerUs : Nat := 1100
/-- End of HBM, start and end of the far tier (Table 13.6). -/
def hbmEnd : Nat := 0x0C000000000
def farBase : Nat := 0x10000000000
def farEnd : Nat := 0x30000000000
/-- The checkpoint window of a far-tier die: from this offset of its range (R432). -/
def ckptOffset : Nat := 0x4C00000000
/-- LATVER.VER, a fused value that the spec does not give (log 2). DESIGN CHOICE, unsafe. -/
def latver : Nat := 1
/-- The fused minimum security version of R446, which the spec does not give (log 2). DESIGN CHOICE, unsafe. -/
def minSecurityVersion : Nat := 0

/-- RUNGVEC3 and RUNGVEC4: the firmware's own values, which may differ between firmware versions (R386, log 10). -/
opaque rungVec3 : DWord
opaque rungVec4 : DWord
/-- A value that the spec leaves undefined, for the value number given (log 12). -/
opaque freeWord : Nat → Word
/-- Signatures and digests that the management core answers with (R447, log 13). -/
opaque digest : Nat → BitVec 256

end Sys2Proof.Config
end

