-- ==== Sys2Proof/Syntax.lean ====
section
/-! DEFINITION. The instructions of Freral (rows 0 to 162 of the opcode table) and the events of the module (rows 163 to 252), each a constructor of `Instr`. Where a row's encoding leaves a field unused, the constructor has no such argument. -/

namespace Sys2Proof

/-! ### Operand kinds (R62, Table 3.8) -/

abbrev XReg := BitVec 8
abbrev PReg := BitVec 6
abbrev JReg := BitVec 3
abbrev QReg := BitVec 4
abbrev MReg := BitVec 2
abbrev CGReg := BitVec 2
abbrev WReg := BitVec 3
abbrev FSlot := BitVec 3
abbrev Slot := BitVec 3

/-- The guard of an instruction (R61): `ReadP(pred) XOR neg`. -/
structure Guard where
  pred : PReg
  neg : Bool
deriving DecidableEq, Repr

/-- A register or the immediate that replaces it (R173). -/
inductive Src where
  | reg (r : XReg)
  | imm (v : Word)
deriving DecidableEq, Repr

/-- The value JSET writes (Table 8.2). -/
inductive JVal where
  | issue
  | imm (m : Word)
  | reg (a : XReg)
deriving DecidableEq, Repr

/-- IADD and ISUB modes (Table 9.3). -/
inductive AddMode where
  | wrap
  | carry (e : PReg)
  | sat
  | usat
deriving DecidableEq, Repr

/-- Signedness codes (Table 9.2). -/
inductive Sign where
  | s | u | su
deriving DecidableEq, Repr

/-- Integer conditions (Table 9.4). -/
inductive Cond where
  | eq | ne | lt | le | gt | ge
deriving DecidableEq, Repr

/-- Floating-point conditions (Table 11.2). -/
inductive FCond where
  | eq | ne | lt | le | gt | ge | num | nan
deriving DecidableEq, Repr

/-- The fold field of ISETP and FSETP (R188). -/
inductive Fold where
  | none
  | and (c : PReg)
  | or (c : PReg)
  | xor (c : PReg)
deriving DecidableEq, Repr

/-- MOV forms (Table 9.5). -/
inductive MovForm where
  | reg (a : XReg)
  | imm (v : Word)
  | reg64 (a : XReg)
  | imm64 (v : Word)
deriving DecidableEq, Repr

/-- PSET forms (Table 9.7). -/
inductive PsetForm where
  | imm (b : Bool)
  | nz (a : XReg)
  | bit (a : XReg) (i : BitVec 5)
deriving DecidableEq, Repr

/-- Rounding modes (Table 10.3). -/
inductive RM where
  | rne | rtz | rup | rdn
deriving DecidableEq, Repr

/-- The IEEE formats (Table 10.1). -/
inductive IFmt where
  | f32 | f16 | bf16
deriving DecidableEq, Repr

/-- A 16-bit or 32-bit source, with the half that H selects (R226, R234, R236). -/
inductive FSrc where
  | f32
  | f16 (h : Bool)
  | bf16 (h : Bool)
deriving DecidableEq, Repr

/-- The formats of PACKN and UNPACKN (Table 11.5). -/
inductive NFmt where
  | f16 | bf16 | e4m3 | e5m2 | i8
deriving DecidableEq, Repr

/-- I2I targets (Table 11.6). -/
inductive ITarget where
  | s8 | u8 | s16 | u16 | s32 | u32
deriving DecidableEq, Repr

/-- SHFL modes (Table 12.2). -/
inductive ShflMode where
  | lane | back | ahead | mirror
deriving DecidableEq, Repr

/-- VOTE forms with their destination (Table 12.3). -/
inductive VoteForm where
  | every (d : PReg)
  | any (d : PReg)
  | same (d : PReg)
  | mask (d : XReg)
deriving DecidableEq, Repr

/-- LANEMASK kinds (Table 12.4). -/
inductive LaneKind where
  | self | below | thru | above | onward | parts | others
deriving DecidableEq, Repr

/-- REDUX and SCAN operations (Table 12.5). -/
inductive RedOp where
  | add | min | max | umin | umax | and | or | xor | fadd | fmin | fmax | pkaddh | pkaddb
deriving DecidableEq, Repr

/-- REDIX types (Table 12.6). -/
inductive RedixTy where
  | s32 | u32 | f32
deriving DecidableEq, Repr

/-- Access sizes (Table 3.10). -/
inductive Size where
  | b1 | b2 | b4 | b8 | b16
deriving DecidableEq, Repr

/-- Atomic operations (Table 15.3). `cas` carries ATOMS's C operand. -/
inductive AtomOp where
  | add | min | max | umin | umax | and | or | xor | fadd | fmin | fmax | pkaddh | pkaddb
  | exch | inc | dec
  | cas (c : XReg)
deriving DecidableEq, Repr

/-- FENCE domains (R304). -/
inductive FenceDom where
  | fab | sys | all
deriving DecidableEq, Repr

/-- PREF levels (R304). -/
inductive PrefLevel where
  | l1 | cc | l2
deriving DecidableEq, Repr

/-- The barrier instructions address scratchpad by a register and an offset (R338, R306). -/
structure MemOp where
  a : XReg
  imm : Word
deriving DecidableEq, Repr

/-- LDG operations (Table 18.4). -/
inductive LdgOp where
  | add | min | max | mini | and | or | xor
deriving DecidableEq, Repr

/-- LDG types (Table 18.3). -/
inductive LdgTy where
  | s32 | f32 | f16x2 | bf16x2
deriving DecidableEq, Repr

/-- MBRD selections (Table 18.10). -/
inductive MbrdSel where
  | epoch | groups | mods | self
deriving DecidableEq, Repr

/-- Image formats of TST (R354). -/
inductive ImgFmt where
  | tile | f32 | f16 | bf16 | e4m3 | e5m2
deriving DecidableEq, Repr

/-- The operand of the event instructions (Table 5.8). -/
inductive EvForm where
  | imm (n : BitVec 8)
  | reg (a : XReg)
  | mask (a : XReg) (k : BitVec 3)
deriving DecidableEq, Repr

/-! ### Names of agents and inputs, for the events -/

/-- A thread: one of a group (keyed as R294 keys it), or the scalar control thread of a core. -/
inductive Tid where
  | thr (ctx grid team group lane : Nat)
  | scalar (core : Nat)
deriving DecidableEq, Repr

/-- The state a link-state update names (R444). -/
inductive PeerState where
  | up | recovering | dead
deriving DecidableEq, Repr

/-- The TDISP states (R436). -/
inductive Tdisp where
  | unlocked | locked | run | error
deriving DecidableEq, Repr

/-- An operation that arrives from a peer module over Renet (R441, R297, R320). -/
inductive FabricReq where
  | read (ia n : Nat)
  | write (ia : Nat) (data : List Byte)
  | atomic (op : AtomOp) (ia n b c : Nat)
  | scratch (ctx grid core off n : Nat)
  /-- a die of the peer subscribes to a region, under the peer's number for it; the subscription ends -/
  | subscribe (n ia len : Nat)
  | unsubscribe (n : Nat)
deriving DecidableEq, Repr

/-- A peer's operation, with the modules that it has passed on its way here (R275). -/
structure FabricAsk where
  hops : Nat
  req : FabricReq
deriving DecidableEq, Repr

/-- A load of an image (R22, R36): its address, the bytes of the container file, whether memory is left for it. -/
structure FileLoad where
  base : Nat
  file : List Byte
  room : Bool
deriving DecidableEq, Repr

/-- A context as the management core makes it (R428): in redundant mode or not, hosted by a die. -/
structure CtxForm where
  redundant : Bool
  die : Nat
deriving DecidableEq, Repr

/-- The kinds of collective instances (R375, R378). -/
inductive CollKind where
  | any (m : Nat) | all (m : Nat) | csync (m : Nat) | gbar (cg : Nat)
deriving DecidableEq, Repr

/-- Another member's COLL (R334): its rank, OP and ESIZE, the cycle its command reached this module, its SRC. -/
structure CollPart where
  rank : Nat
  op : Nat
  esize : Nat
  since : Nat
  data : List Byte
deriving DecidableEq, Repr

/-- A firmware image that the boot ROM checks (R446): whether its signature verifies, its security version, its digest. -/
structure FwImage where
  signed : Bool
  version : Nat
  digest : BitVec 256
deriving DecidableEq, Repr

/-! ### The table -/

/-- The rows of spec/opcode_table.json, in its order: 163 Freral instructions, then 90 events of the module. -/
inductive Instr where
  -- control flow (08)
  | nop (g : Guard)
  | bra (g : Guard) (off : Word) (slot : Slot)
  | brx (g : Guard) (a : XReg)
  | call (g : Guard) (d : XReg) (off : Word) (slot : Slot)
  | callx (g : Guard) (d a : XReg)
  | ret (g : Guard) (a : XReg)
  | jset (g : Guard) (j : JReg) (v : JVal)
  | jwait (g : Guard) (j : JReg)
  | jleave (g : Guard) (j : JReg)
  | exit (g : Guard)
  | brk (g : Guard) (code : BitVec 16)
  | trap (g : Guard) (code : BitVec 16)
  | hint (g : Guard) (plive : Bool) (range : BitVec 8) (live : DWord)
  -- integer, address and predicate (09)
  | iadd (g : Guard) (m : AddMode) (d a : XReg) (b : Src)
  | isub (g : Guard) (m : AddMode) (d a : XReg) (b : Src)
  | iaddc (g : Guard) (d a : XReg) (b : Src) (c e : PReg)
  | isubb (g : Guard) (d a : XReg) (b : Src) (c e : PReg)
  | imul (g : Guard) (d a : XReg) (b : Src)
  | imulh (g : Guard) (sg : Sign) (d a : XReg) (b : Src)
  | imad (g : Guard) (d a : XReg) (b : Src) (c : XReg)
  | imadw (g : Guard) (sg : Sign) (d a : XReg) (b : Src) (c : XReg)
  | idiv (g : Guard) (fs : Bool) (sg : Sign) (d a : XReg) (b : Src)
  | irem (g : Guard) (fs : Bool) (sg : Sign) (d a : XReg) (b : Src)
  | imin (g : Guard) (sg : Sign) (d a : XReg) (b : Src)
  | imax (g : Guard) (sg : Sign) (d a : XReg) (b : Src)
  | iabs (g : Guard) (sat : Bool) (d a : XReg)
  | and (g : Guard) (d a : XReg) (b : Src)
  | or (g : Guard) (d a : XReg) (b : Src)
  | xor (g : Guard) (d a : XReg) (b : Src)
  | andn (g : Guard) (d a : XReg) (b : Src)
  | not (g : Guard) (d a : XReg)
  | shl (g : Guard) (wrap : Bool) (d a : XReg) (b : Src)
  | shr (g : Guard) (wrap : Bool) (d a : XReg) (b : Src)
  | sar (g : Guard) (wrap : Bool) (d a : XReg) (b : Src)
  | rotl (g : Guard) (d a : XReg) (b : Src)
  | funnel (g : Guard) (wrap right : Bool) (d a b : XReg) (c : Src)
  | clz (g : Guard) (s : Bool) (d a : XReg)
  | popc (g : Guard) (d a : XReg)
  | brev (g : Guard) (d a : XReg)
  | bfx (g : Guard) (s : Bool) (d a : XReg) (b : Src)
  | bfi (g : Guard) (d a : XReg) (b : Src) (c : XReg)
  | isetp (g : Guard) (u : Bool) (fold : Fold) (cond : Cond) (d : PReg) (a : XReg) (b : Src) (e : PReg)
  | sel (g : Guard) (d a : XReg) (b : Src) (c : PReg)
  | mov (g : Guard) (d : XReg) (f : MovForm)
  | lea (g : Guard) (w32 u : Bool) (d a b : XReg) (shift : BitVec 3) (off : Word)
  | plop (g : Guard) (tab : BitVec 8) (d a b c : PReg)
  | p2x (g : Guard) (h : Bool) (d : XReg)
  | x2p (g : Guard) (h : Bool) (a : XReg) (mask : Word)
  | pset (g : Guard) (d : PReg) (f : PsetForm)
  -- floating point (11)
  | fadd (g : Guard) (ftz : Bool) (rm : RM) (d a : XReg) (b : Src)
  | fsub (g : Guard) (ftz : Bool) (rm : RM) (d a : XReg) (b : Src)
  | fmul (g : Guard) (ftz : Bool) (rm : RM) (d a : XReg) (b : Src)
  | ffma (g : Guard) (ftz : Bool) (rm : RM) (d a : XReg) (b : Src) (c : XReg)
  | fmin (g : Guard) (ftz : Bool) (d a : XReg) (b : Src)
  | fmax (g : Guard) (ftz : Bool) (d a : XReg) (b : Src)
  | fsetp (g : Guard) (ftz : Bool) (fold : Fold) (cond : FCond) (d : PReg) (a : XReg) (b : Src) (e : PReg)
  | fclass (g : Guard) (src : FSrc) (d a : XReg)
  | frcp (g : Guard) (fs ftz : Bool) (rm : RM) (d a : XReg)
  | frsq (g : Guard) (fs ftz : Bool) (rm : RM) (d a : XReg)
  | fsqrt (g : Guard) (fs ftz : Bool) (rm : RM) (d a : XReg)
  | fexp2 (g : Guard) (fs ftz : Bool) (rm : RM) (d a : XReg)
  | flog2 (g : Guard) (fs ftz : Bool) (rm : RM) (d a : XReg)
  | fsin (g : Guard) (fs ftz : Bool) (rm : RM) (d a : XReg)
  | fcos (g : Guard) (fs ftz : Bool) (rm : RM) (d a : XReg)
  | fdiv (g : Guard) (fs ftz : Bool) (rm : RM) (d a : XReg) (b : Src)
  | pkadd (g : Guard) (bf : Bool) (rm : RM) (d a : XReg) (b : Src)
  | pkmul (g : Guard) (bf : Bool) (rm : RM) (d a : XReg) (b : Src)
  | pkfma (g : Guard) (bf : Bool) (rm : RM) (d a : XReg) (b : Src) (c : XReg)
  | pkmin (g : Guard) (bf : Bool) (d a : XReg) (b : Src)
  | pkmax (g : Guard) (bf : Bool) (d a : XReg) (b : Src)
  | pksetp (g : Guard) (bf : Bool) (cond : FCond) (d : PReg) (a : XReg) (b : Src) (e : PReg)
  | fscale (g : Guard) (ftz : Bool) (rm : RM) (d a : XReg) (b : Src)
  | frnd (g : Guard) (ftz : Bool) (rm : RM) (d a : XReg)
  | dot2 (g : Guard) (bf ftz : Bool) (rm : RM) (d a : XReg) (b : Src) (c : XReg)
  | fmtrd (g : Guard) (d : XReg) (k : FSlot)
  | f2i (g : Guard) (ftz u : Bool) (src : FSrc) (rm : RM) (d a : XReg)
  | i2f (g : Guard) (u : Bool) (dst : IFmt) (rm : RM) (d a : XReg)
  | f2f (g : Guard) (ftz : Bool) (dst : IFmt) (src : FSrc) (rm : RM) (d a : XReg)
  | packn (g : Guard) (ftz : Bool) (fmt : NFmt) (rm : RM) (d a b : XReg)
  | unpackn (g : Guard) (fmt : NFmt) (d a : XReg)
  | bscale (g : Guard) (inv ftz : Bool) (rm : RM) (d a b : XReg) (k : BitVec 2)
  | qblk (g : Guard) (ftz : Bool) (src : IFmt) (d a c : XReg) (k : FSlot)
  | dqblk (g : Guard) (ftz : Bool) (dst : IFmt) (d a c : XReg) (k : FSlot)
  | i2i (g : Guard) (sat uin : Bool) (t : ITarget) (d a : XReg)
  -- cross-lane (12)
  | shfl (g : Guard) (fill : Option XReg) (wid : BitVec 3) (mode : ShflMode) (d a : XReg) (b : Src) (e : PReg)
  | vote (g : Guard) (neg : Bool) (f : VoteForm) (a : PReg)
  | matchx (g : Guard) (w64 : Bool) (all : Option PReg) (d a : XReg)
  | redux (g : Guard) (ftz : Bool) (op : RedOp) (d a : XReg)
  | redix (g : Guard) (ftz : Bool) (xi : Option XReg) (max : Bool) (ty : RedixTy) (d a : XReg)
  | scan (g : Guard) (excl ftz : Bool) (op : RedOp) (d a : XReg)
  | elect (g : Guard) (w : Option XReg) (e : PReg)
  | lanemask (g : Guard) (k : LaneKind) (d : XReg)
  -- memory (15)
  | lds (g : Guard) (fs sx : Bool) (sz : Size) (d : XReg) (m : MemOp)
  | sts (g : Guard) (fs : Bool) (sz : Size) (d : XReg) (m : MemOp)
  | atoms (g : Guard) (fs : Bool) (op : AtomOp) (sz : Size) (d : XReg) (m : MemOp) (b : XReg)
  | ldc (g : Guard) (sx : Bool) (hint : BitVec 2) (sz : Size) (d : XReg) (m : MemOp)
  | st (g : Guard) (hint : BitVec 2) (sz : Size) (d : XReg) (m : MemOp)
  | atomc (g : Guard) (op : AtomOp) (sz : Size) (d : XReg) (m : MemOp) (b : XReg)
  | red (g : Guard) (op : AtomOp) (sz : Size) (d : XReg) (m : MemOp)
  | casc (g : Guard) (sz : Size) (d : XReg) (m : MemOp) (b c : XReg)
  | lr (g : Guard) (sz : Size) (d : XReg) (m : MemOp)
  | sc (g : Guard) (sz : Size) (d : XReg) (m : MemOp) (e : PReg)
  | fence (g : Guard) (dom : FenceDom)
  | pref (g : Guard) (lvl : PrefLevel) (m : MemOp)
  | subs (g : Guard) (d : XReg) (m : MemOp) (b : XReg)
  | unsub (g : Guard) (m : MemOp)
  | stm (g : Guard) (sz : Size) (d : XReg) (m : MemOp) (b c : XReg)
  -- engines, queues, barriers (16)
  | cpy (g : Guard) (a : XReg)
  | gath (g : Guard) (a : XReg)
  | scat (g : Guard) (a : XReg)
  | binit (g : Guard) (m : MemOp) (b c : XReg)
  | barr (g : Guard) (m : MemOp) (b : XReg)
  | bwait (g : Guard) (m : MemOp) (b : XReg)
  | qpush (g : Guard) (fs : Bool) (q : QReg) (a : XReg) (e : PReg)
  | qpop (g : Guard) (d : XReg) (q : QReg)
  | qpopNb (g : Guard) (d : XReg) (q : QReg) (e : PReg)
  | qstat (g : Guard) (d : XReg) (q : QReg)
  | fill (g : Guard) (a : XReg)
  | cpyr (g : Guard) (a b : XReg) (k : BitVec 4)
  | mxs (g : Guard) (a : XReg)
  | coll (g : Guard) (a : XReg)
  -- matrix (17)
  | mmaq (g : Guard) (fs neg : Bool) (acc : IFmt) (d a b c : XReg) (k : FSlot) (bq : Option (BitVec 2))
  | mmaz (g : Guard) (fs neg : Bool) (acc : IFmt) (d a b c : XReg) (k : FSlot) (bq : Option (BitVec 2))
  | talloc (g : Guard) (d : XReg) (e : PReg) (n : BitVec 11)
  | tfree (g : Guard)
  | tld (g : Guard) (fs : Bool) (t : IFmt) (d : XReg) (m : MemOp)
  | tst (g : Guard) (fs : Bool) (img : ImgFmt) (t : IFmt) (d : XReg) (m : MemOp)
  | tzero (g : Guard) (fs : Bool) (t : IFmt) (d : XReg)
  | tspill (g : Guard) (fs : Bool) (d : XReg) (m : MemOp) (n : BitVec 3)
  | tfill (g : Guard) (fs : Bool) (d : XReg) (m : MemOp) (n : BitVec 3)
  | frags (g : Guard) (fs : Bool) (res t : IFmt) (d a : XReg)
  | tsig (g : Guard) (fs : Bool) (t : IFmt) (d a : XReg)
  -- group loads and collectives (18)
  | ldg (g : Guard) (op : LdgOp) (ty : LdgTy) (sz : Size) (d : XReg) (m : MemOp) (cg : CGReg) (e : PReg)
  | cbr (g : Guard) (all pt : Bool) (a : PReg) (m : MReg) (off : Word) (slot : Slot)
  | csync (g : Guard) (ra : Bool) (m : MReg)
  | mbrd (g : Guard) (sel : MbrdSel) (d : XReg) (m : MReg)
  | gbar (g : Guard) (ra : Bool) (cg : CGReg)
  -- segments, launches, events (05, 06, 07)
  | seg (g : Guard) (free : Bool) (d : BitVec 8) (n : BitVec 4) (off : Word) (slot : Slot)
  | yield (g : Guard) (off : Word) (slot : Slot)
  | launch (g : Guard) (loc : Bool) (d : XReg) (m : MemOp)
  | spawn (g : Guard) (d a : XReg)
  | fwd (g : Guard) (b : Option XReg) (d : BitVec 8) (n : BitVec 4)
  | mbox (g : Guard) (d a b : XReg)
  | evset (g : Guard) (f : EvForm)
  | evclr (g : Guard) (f : EvForm)
  | evwait (g : Guard) (f : EvForm)
  | evqpop (g : Guard) (d : XReg)
  | evqpopNb (g : Guard) (d : XReg)
  -- recovery regions and the error log (20)
  | rbegin (g : Guard) (d : XReg) (off : Word) (slot : Slot)
  | rkeep (g : Guard) (a : XReg) (n : BitVec 4)
  | rend (g : Guard)
  | rabort (g : Guard)
  | errlogPop (g : Guard) (d : XReg)
  | errlogStat (g : Guard) (d : XReg)
  | errlogInj (g : Guard) (kind : BitVec 2)
  -- system (19, 13, 21)
  | srd (g : Guard) (w64 : Bool) (d : XReg) (n : BitVec 12)
  | swr (g : Guard) (w64 : Bool) (a : XReg) (n : BitVec 12)
  | tret (g : Guard)
  | esc (g : Guard)
  | winset (g : Guard) (w : WReg) (a : XReg)
  | winsetClr (g : Guard) (w : WReg)
  | halt (g : Guard) (err : Bool)
  | ckpt (g : Guard) (d : XReg)
  -- events: loading and issue
  /-- the file's bytes, the virtual address of the block, and whether there is memory for it -/
  | imageLoad (ctx : Nat) (load : FileLoad)
  | lineStart (t : Tid)
  | flagOperationComplete (t : Tid) (k : Nat) (early : Option (List Nat))
  -- events: the command processor
  | notifyWrite (ctx q : Nat) (wridx : Word)
  | qreset (ctx q : Nat) (wridx : Word)
  | cpSlotPoll (ctx q : Nat)
  | nopPacket (ctx q : Nat)
  | launchPacket (ctx q : Nat)
  | evopPacket (ctx q : Nat)
  | barrierPacket (ctx q : Nat)
  | teamRetire (ctx grid team : Nat)
  -- events: gangs
  | gangAck (ctx grid rank size : Nat) (mdefs : List DWord)
  | gangCommit (ctx grid : Nat)
  | gangAbort (ctx grid : Nat)
  | gangDeadlineExpiry (ctx grid : Nat)
  | gangReplyTimeout (ctx grid : Nat)
  -- events: placement
  | dispatchPick (core : Nat)
  | coreReservation (die : Nat)
  | taskPacketArrival (n : Nat)
  | scalarThreadBind (core ctx : Nat) (entry : DWord) (team : Option (Nat × Nat)) (runtime : Bool)
  -- events: the Barrel
  | recordCompletion (n : Nat)
  | regulatorDrain (core bin : Nat)
  -- events: traps
  | trappcWrite (t : Tid) (v : DWord)
  | serviceTimeout (t : Tid)
  | trapresResume (ctx entry : Nat)
  | trapresKill (ctx entry : Nat)
  | trapresEscalate (ctx entry : Nat)
  | ringEntryTimeout (ctx entry : Nat)
  | partitionTimeout (cause : Nat) (info : DWord)
  | dieLost (die : Nat)
  | thermalCritical (die : Nat)
  | powerFault
  -- events: pre-emption
  | preemptRequest (ctx : Nat) (v : DWord)
  | preemptDeadline (ctx : Nat)
  | teamSave (ctx grid team : Nat)
  | teamRestore (ctx : Nat) (v : DWord)
  | watchdog (t : Tid)
  | remoteWaitTimeout (t : Tid)
  -- events: translation
  | xrootWrite (v : DWord)
  | xinval (v : DWord)
  | xresolve (granule : Nat)
  | xresolveAbandon (granule : Nat)
  | migrationStart (c : Nat) (dst : DWord)
  | migrationCopyDone (c : Nat) (ok : Bool)
  | sideLogPerform (core : Nat)
  | fenceMarkerPerform (core : Nat)
  | ptsAdvance (t : Tid)
  | tickRebase (by_ : Nat)
  | reservationExpire (t : Tid)
  -- events: the host and the fabric
  | hostBarRead (fn bar off size : Nat)
  | hostBarWrite (fn bar off : Nat) (data : List Byte)
  | aperWrite (d : Nat) (v : DWord)
  | fabricRequest (src seq : Nat) (ask : FabricAsk)
  | subsActivate (die n : Nat)
  | subsRefuse (die n : Nat)
  | subsMulticast (die n ia : Nat) (data : List Byte)
  | stmMemberArrival (n : Nat) (ok : Bool)
  -- events: engines and collectives
  | engineQueueTake (ctx grid team q : Nat)
  | engineLineWrite (core slot : Nat)
  | engineLineFault (core slot : Nat)
  | collResult (core slot : Nat) (remote : List CollPart) (dropped : List Nat)
  | collectiveResolve (ctx grid n : Nat) (remote : List (Nat × CollKind × Bool))
  | collectiveTimeout (ctx grid n : Nat)
  -- events: checkpoint
  | ckptQuiesced
  | ckptCopyDone (farFault : Bool)
  -- events: Renet
  | linkFault (port : Nat)
  | linkTrained (port : Nat) (rev : Option Nat)
  | retrainRoundExpiry (port : Nat)
  | deadRoundOne (port : Nat)
  | deadRoundTwo (port : Nat)
  | deadRoundThree (port : Nat)
  | linkRetrainedByManagement (port : Nat)
  | linkStateUpdate (modid : Nat) (st : PeerState)
  -- events: register actions and answers to resident threads
  | cgdefWrite (ctx k : Nat) (v : DWord)
  | scAnswer (t : Tid)
  | regionCommitDone (t : Tid)
  | winsetPropagated (t : Tid)
  -- events: functions, boot, management (only ever inputs)
  | functionLevelReset (fn : Nat)
  | cxlDeviceLost (port : Nat)
  | moduleReset (images : List FwImage)
  | getMeasurements
  | challenge (nonce : Nat)
  | keyExchange (fn : Nat)
  | modidWrite (v : BitVec 12)
  | contextCreate (ctx : Nat) (form : CtxForm)
  | contextDestroy (ctx : Nat)
  | tdispRequest (fn : Nat) (st : Tdisp)
  | checkpointRestore
  | queueCreate (ctx q base sizeLog : Nat) (inHost : Bool)
  | flitCrcRetry (port : Nat)
deriving DecidableEq, Repr

end Sys2Proof
end

