-- ==== Sys2Proof/Machine/State.lean ====
section
/-! DEFINITION. The machine's state as plain data, its reasons to stop, and the state after reset. Sparse collections (cores, dies, contexts, grids, teams, threads) list what has left its reset state; an unlisted core or die is at its reset value. -/

namespace Sys2Proof.Machine

open Sys2Proof

/-- Bytes by address: strictly rising addresses, and no entry equal to what an unlisted address reads as (log 3). -/
abbrev Memory := List Host.Cell

/-! ### Causes, rungs, wait kinds -/

/-- The causes of Table 19.1, in its order. -/
inductive Cause where
  | illegalOpcode | regRange | privilege | illegalLine | illegalTarget | illegalPair | lineParity | windowMiss
  | windowFormat | misaligned | scratchRange | awayAccess | liveLimit | liveIndex | breakpoint | softTrap
  | atomicDomain | uncorrectable | engineFormat | queueUnbound | matrixQuarter | formatSlot | tileState | tileRange
  | groupUndefined | groupNotMember | handlerCollective | collectiveExcluded | collectiveMismatch | gangAbort
  | rgnConflict | shadowMismatch | rgnPartialError | rgnNest | watchdog | remoteTimeout | pageFault | handlerState
  | poolFull | recordLost | trapRing | dieLost | saveFault | thermalCritical | powerFault
deriving DecidableEq, Repr

/-- How a thread comes to its next code address: in a line it has started, by falling through from slot 4, by a transfer that R49 checks, or by one that it does not. -/
inductive Arrival where
  | inLine | fall | checked | unchecked
  /-- the line is fetched and checked, and waits for its flags (R47 step 5) -/
  | waiting
deriving DecidableEq, Repr

/-- The access kinds of Table 13.10. -/
inductive AccKind where
  | load | store | atomic | fetch | engineRead | engineWrite
deriving DecidableEq, Repr

/-- The fault kinds of Table 13.10. -/
inductive FaultKind where
  | notPresent | writeProtect | badEntry | badFrame
deriving DecidableEq, Repr

/-- Where an access ends (R275, R296). -/
inductive Dest where
  | mem (pa : Nat)
  | sys (port addr : Nat)
  | peer (mod ia : Nat)
  /-- the members of a core group (R368) -/
  | group
deriving DecidableEq, Repr

/-- The kinds of engine commands (Table 16.2). -/
inductive EngKind where
  | cpy | gath | scat | fill | cpyr | mxs | coll
deriving DecidableEq, Repr

/-- What a thread waits for (Table 7.1, WAITK 0 to 12), with what the wait remembers. -/
inductive Wait where
  | none
  | memory
  | group
  | barrier (off tag : Nat)
  | event (mask : EvMask)
  | queue (q : Nat)
  | join (j : Nat) (at_ : DWord)
  | cbr (inst : Nat)
  | task
  | evq
  | fetch
  | preempt
  | popEvq (nb : Bool)
  | popQueue (q : Nat) (nb : Option PReg)
  | popLog
deriving DecidableEq, Repr

/-- The agents that access memory in no thread's and no engine's name (R284, R293): the I/O die, which reads queues and carries the host's accesses, the event unit, the fabric dies, the migration engines, the save engine. -/
inductive Agent where
  | io | events | fabric | migration | save
deriving DecidableEq, Repr

/-- Where a thread is (R126, Table 7.10). -/
inductive Loc where
  /-- it holds a place in the Escapement -/
  | resident
  /-- a record in the Barrel's pool -/
  | parked
  /-- a record referenced by a die's mailbox -/
  | offered (die : Nat)
  /-- written by the save engine: at a pre-emption, or by the context rung -/
  | saved
  /-- a scalar thread that has executed EXIT, or is not bound -/
  | stopped
deriving DecidableEq, Repr

/-- Registers and predicates; bit 0 of `p` is 1. `bad` names registers that hold an uncorrectable value (R351). -/
structure Regs where
  x : List Word
  p : DWord
  bad : List Nat
deriving DecidableEq, Repr

/-- A flag-setting operation in flight (R50, R51): the flag it set, what it has still to write. `flag = none`: SETA or SETB held 15, and the thread is stalled (R52). -/
structure FlagOp where
  flag : Option Nat
  xs : List (Nat × Word)
  ps : List (Nat × Bool)
  shadowXs : List (Nat × Word)
  shadowPs : List (Nat × Bool)
  fpx : BitVec 7
  bound : Nat
  /-- the operations of one matrix quarter land together (R356); 0: alone -/
  batch : Nat := 0
deriving DecidableEq, Repr

/-- An engine descriptor (Table 16.1) as eight words, with the IA ranges translated at issue (R260). -/
structure EngDesc where
  kind : EngKind
  w : List Word
  srcIa : Option (Nat × Option Nat)
  dstIa : Option (Nat × Option Nat)
  tag : Option Nat
  regs : List (Nat × List Word)
deriving DecidableEq, Repr

/-- An effect on the world outside the thread's registers. Performed at once, or held by a region until its commit (R301, R323). -/
inductive Eff where
  /-- STS, TST, TSPILL: bytes to an absolute scratchpad offset of the thread's core -/
  | scratch (off : Nat) (data : List Byte)
  | store (ia : Nat) (peer : Option Nat) (data : List Byte)
  | red (op : AtomOp) (ia : Nat) (peer : Option Nat) (n b : Nat)
  | jset (j : Nat) (v : Word)
  | jleave (j : Nat)
  | evset (m : EvMask)
  | evclr (m : EvMask)
  | launch (va : DWord) (body : List Byte) (loc : Bool)
  | task (pkt : List Byte) (die : Nat)
  | command (d : EngDesc)
  | binit (off target tag flags : Nat)
  | barr (off n : Nat)
  | qpush (q : Nat) (entry : List Word)
  | stm (ia : Nat) (data : List Byte) (mask : DWord) (off : Nat) (tag : Nat)
  | subs (die : Nat) (ia len mod : Nat)
  | unsub (die : Nat) (ia : Nat)
  | fence (dom : FenceDom)
  | winset (w : Nat) (v : List DWord)
  | winsetClr (w : Nat)
  | swr (n : Nat) (v : DWord)
  | tfree
  /-- the arrival of a lane whose guard is false at a collective, inside a region (R378) -/
  | arrive (kind : CollKind) (at_ : DWord)
deriving DecidableEq, Repr

/-- A line or bytes that a region has read, with the value (R302). -/
structure ReadMark where
  scratch : Bool
  addr : Nat
  data : List Byte
deriving DecidableEq, Repr

/-- An open recovery region (R412), or the implicit one of a collective run-ahead (R379). -/
structure Region where
  start : DWord
  abort : DWord
  attempt : Nat
  preds : DWord
  kept : List (Nat × Word)
  /-- effects of a commit whose step has been performed, still to be performed in program order (R415) -/
  rest : List Eff := []
  /-- effects held, oldest first -/
  held : List Eff
  reads : List ReadMark
  /-- undo copies of accumulator units: unit, bytes, elements uncorrectable at the copy (R364) -/
  units : List (Nat × List Byte × List Nat)
  /-- allocations made by TALLOC in the region -/
  allocs : List Nat
  partial_ : Bool
  /-- run-ahead: the instance, the two addresses, the predicted one, issues so far -/
  ahead : Option (Nat × DWord × DWord × DWord × Nat)
deriving DecidableEq, Repr

/-- The handler-state registers of a thread (Table 19.5) and what the delivery rules remember beside them. -/
structure Handler where
  cause : BitVec 6
  hmode : Bool
  rung : BitVec 2
  via : BitVec 2
  trappc : DWord
  src : DWord
  info : DWord
  pend : DWord
  hfaultsrc : DWord
  /-- the TRAPPC written when the thread entered handler mode (R410) -/
  entry : DWord
  /-- TRAPINFO of each pending cause -/
  infos : List (Nat × DWord)
  /-- the cycle in which the service timer expires (R392) -/
  timer : Option Nat
  /-- a join at which the thread still waits while in the handler, and whether it was released (R167) -/
  join : Option (Nat × DWord × Bool)
deriving DecidableEq, Repr

/-- A reservation (R294): line, home module of the line, cycle of the LR. -/
structure Resv where
  line : Nat
  peer : Option Nat
  since : Nat
deriving DecidableEq, Repr

/-- A thread, or a core's scalar control thread. -/
structure Thread where
  id : Tid
  /-- MCORE of the core that runs it or holds its record -/
  core : Nat
  /-- MCORE of its team's core (TCORE) -/
  home : Nat
  nregs : Nat
  regs : Regs
  shadow : Option Regs
  pc : DWord
  arr : Arrival
  /-- the line it has started, as fetched -/
  line : Line
  loc : Loc
  wait : Wait
  /-- what it waited for has happened, and the completion is on its way (R127, R133) -/
  woken : Bool := false
  /-- completions outstanding -/
  pend : Nat
  /-- destination registers of the completions, and destination predicate -/
  dest : List Nat
  destP : Option Nat
  /-- TPEND with TCAUSE and its TRAPINFO -/
  tpend : Option (Cause × DWord)
  /-- TRAPPC of a pending cause where it is not the segment-ending instruction (Table 19.4) -/
  tpc : Option DWord
  /-- the instruction that ended the segment -/
  segpc : DWord
  /-- registers saved in the record -/
  live : List Nat
  ready : Nat
  since : Nat
  stamp : Nat
  tb : Bool
  spec : Bool
  whole : Bool
  ext : Bool
  /-- pool level 0 to 2 (R135) -/
  level : Nat
  /-- IA of the extended record or of the team save block that holds the thread while saved -/
  saveAt : Nat
  /-- REGMAP and PLIVE of an extended record; live-range entry of the HINT -/
  regmap : DWord
  plive : Bool
  range : Option Nat
  /-- it holds a guest register block on its core (R143) -/
  guest : Bool := false
  /-- the thread is suspended or stalled in place: it holds its place and issues nothing -/
  hold : Bool
  ops : List FlagOp
  tile : Option Nat
  lsv : Bool
  livesel : Nat
  /-- the model's own: the standing list ends in X255, whose byte is that of an unused place (log 36) -/
  live255 : Bool := false
  lfree : Bool
  h : Handler
  /-- cycle at which the watchdog count last restarted, and cycles already used -/
  wdStart : Nat
  wdUsed : Nat
  resv : Option Resv
  pts : Nat
  /-- innermost first -/
  regions : List Region
  /-- attempt count pending for the RBEGIN at an address and depth (R417) -/
  attempt : Option (DWord × Nat × Nat)
  /-- ERRLOG.INJ armed: kind 0 or 1 -/
  inject : Option Nat
  /-- a cause to raise at the next instruction (R324) -/
  next : Option (Cause × DWord)
  /-- a detected error to act on at the next boundary (R416): cause, LOC and KIND of its log entry -/
  detected : Option (Cause × DWord × Nat)
  /-- cycles after the segment end at which a remote wait expires; its peer -/
  remote : Option (Nat × Nat)
  /-- FPX of a scalar thread -/
  fpx : BitVec 7
deriving DecidableEq, Repr

/-! ### Contexts -/

structure Window where
  base : DWord
  lim : DWord
  ia : DWord
  ctl : DWord
deriving DecidableEq, Repr

/-- A kernel of a loaded image: its header (Table 2.2) and tables. -/
structure Kernel where
  entry : DWord
  ltver : Nat
  scratch : Nat
  codesize : Nat
  regs : Nat
  /-- (GROUPS, 8 × RREGS) of each role -/
  roles : List (Nat × Nat)
  ftzd : Bool
  redreq : Bool
  ghoff : Word
  thoff : Word
  timed : Word
  live : List (List Nat)
  /-- (start, length) in bytes of each range of each live-range entry -/
  ranges : List (List (Nat × Nat))
deriving DecidableEq, Repr

/-- A loaded image: its handle and kernels. -/
structure Image where
  base : Nat
  kernels : List Kernel
deriving DecidableEq, Repr

/-- A launch record (Table 2.9) or the values a task packet gives (R117). -/
structure Record where
  kentry : DWord
  nteams : Nat
  prio : Nat
  gang : Bool
  setonerr : Bool
  stagger : Nat
  complsig : DWord
  waitmask : EvMask
  setmask : EvMask
  fslots : List Word
  gangid : DWord
  gangsize : Nat
  gangrank : Nat
  gangdl : Nat
  args : List Word
deriving DecidableEq, Repr

/-- Who submitted a launch: a queue's packet, by its first index, or a thread, with what R124 posts. -/
inductive Issuer where
  | queue (q idx : Nat)
  | thread (core tslot group lane : Nat) (va : DWord)
deriving DecidableEq, Repr

/-- A submitted launch that is not yet eligible (R96, R97). -/
structure WaitLaunch where
  who : Issuer
  va : DWord
  /-- the record's bytes, for a queue's packet -/
  body : List Byte
  waitmask : EvMask
  loc : Option Nat
  /-- submitted while PLACEDOM.DIES was 0 (R107) -/
  noDies : Bool
deriving DecidableEq, Repr

/-- A packet that the command processor has read and that has not completed (R90). -/
structure Packet where
  idx : Nat
  span : Nat
  kind : Nat
  order : Bool
  clr : Bool
  mask : EvMask
  sig : DWord
  freed : Bool
  started : Bool
deriving DecidableEq, Repr

inductive QState where
  | idle | fetch | hold | error
deriving DecidableEq, Repr

/-- A user-mode queue (R85, Table 5.3). `inHost` says where the ring lies. -/
structure UQueue where
  id : Nat
  base : Nat
  sizeLog : Nat
  inHost : Bool
  wridx : Word
  rdidx : Word
  /-- index of the next packet to read -/
  next : Word
  errcode : Nat
  state : QState
  packets : List Packet
deriving DecidableEq, Repr

/-- A KIND 1 ring entry the trap unit holds as unresolved (R395). -/
structure RingEntry where
  ia : Nat
  t : Option Tid
  cause : Cause
  info : DWord
  rung : Nat
  deadline : Nat
deriving DecidableEq, Repr

structure Ctx where
  id : Nat
  redundant : Bool
  /-- the die that hosts it: its function holds the doorbell pages of the context's queues (R89, R436) -/
  host : Nat
  windows : List Window
  events : EvMask
  placedom : Word
  recpool : DWord
  ctxsched : Word
  ctxcoll : Word
  ctxwdog : Word
  ctxtrapq : DWord
  ctxtrapcore : Word
  ctxsave : DWord
  preemptctl : DWord
  teamrestore : DWord
  rungvec2 : DWord
  rungto : List Word
  qbind : List Word
  cgdef : List DWord
  cgtab : List (List Word)
  mdef : List DWord
  mcast : List Word
  images : List Image
  queues : List UQueue
  waiting : List WaitLaunch
  ringNext : Nat
  ringSeq : Nat
  ring : List RingEntry
  /-- runs of the save area in use: IA and length -/
  saveRuns : List (Nat × Nat)
  /-- the cycle at which a pre-emption request's deadline falls -/
  preDeadline : Option Nat
  /-- its destruction has begun: it goes with its last grid (R428) -/
  dying : Bool
deriving DecidableEq, Repr

/-! ### Grids, teams, groups -/

inductive GangState where
  | uncommitted | committed | aborted
deriving DecidableEq, Repr

/-- Gang state of a member module (Table 5.9). -/
structure Gang where
  id : DWord
  size : Nat
  rank : Nat
  deadline : Nat
  state : GangState
  since : Nat
  /-- ranks whose acknowledgement has arrived, at rank 0 -/
  acks : List Nat
deriving DecidableEq, Repr

/-- Live state of a membership in a grid (R374): dropped groups (team, group) and modules, EPOCH, next instance number of each group that has arrived. -/
structure Live where
  droppedGroups : List (Nat × Nat)
  droppedMods : List Nat
  epoch : Word
  counts : List (Nat × Nat × Nat)
  colls : Nat
  /-- groups of other modules that have been dropped: rank and how many -/
  peerDrops : List (Nat × Nat) := []
deriving DecidableEq, Repr

/-- One arrived thread of an instance: team, group, lane, contribution, target, successor, code address. -/
structure Arrived where
  team : Nat
  group : Nat
  lane : Nat
  value : Bool
  guard : Bool
  target : DWord
  succ : DWord
  at_ : DWord
  /-- the shadow's contribution (R383) -/
  twin : Bool := false
deriving DecidableEq, Repr

/-- A collective instance not yet resolved (R375, R378). -/
structure Inst where
  key : Nat
  kind : CollKind
  num : Nat
  mismatch : Bool
  arrived : List Arrived
  /-- groups that have contributed: team and group -/
  contributed : List (Nat × Nat)
  /-- for GBAR: (rank, MCORE, member team) fixed at the first arrival; a rank of module m has 8192 × (m + 1) added to its MCORE when m is a peer -/
  ranks : List (Nat × Nat × Option Nat)
  since : Option Nat
  /-- contributions of other modules: rank, kind, value -/
  remote : List (Nat × CollKind × Bool) := []
deriving DecidableEq, Repr

structure Grid where
  ctx : Nat
  num : Nat
  kernel : Kernel
  record : Record
  who : Issuer
  /-- a child grid: its event bit, if EVEN, and the die -/
  child : Option (Option Nat)
  dies : Word
  nextTeam : Nat
  retired : Nat
  since : Nat
  /-- per die: cycle of the first instruction of its team started last (R40) -/
  lastStart : List (Nat × Nat)
  gang : Option Gang
  mdef : List DWord
  live : List Live
  insts : List Inst
  nextKey : Nat
  /-- the status of an ending (R428) -/
  ended : Option Nat
  /-- dies on which the grid's packet still holds a mailbox entry -/
  mailbox : Option Nat
deriving DecidableEq, Repr

/-- A group's join state (Table 8.4). -/
structure Group where
  live : Word
  mask : List Word
  arr : List Word
deriving DecidableEq, Repr

/-- A queue register of a team (R341): KIND, push and result sides, oldest first. -/
structure TQueue where
  kind : Nat
  push : List (List Word)
  result : List (List Word)
deriving DecidableEq, Repr

/-- An accumulator allocation (R349): first unit, units, holders, shadow copy's first unit. -/
structure Alloc where
  unit : Nat
  n : Nat
  holders : List Tid
  shadow : Option Nat
deriving DecidableEq, Repr

structure Team where
  ctx : Nat
  grid : Nat
  num : Nat
  core : Nat
  tslot : Nat
  /-- the run's first byte on the core -/
  scr : Nat
  fpx : BitVec 7
  groups : List Group
  queues : List TQueue
  rungvec0 : DWord
  rungvec1 : DWord
  /-- a thread of it has issued (R40) -/
  begun : Bool := false
  /-- saved as a block at this IA (R401), with the core it left -/
  saved : Option (Nat × Nat)
  /-- while saved: its tile allocations, and its barrier objects by offset in the run -/
  allocs : List Alloc
  objs : List (Nat × Option Nat)
  /-- what the covering pre-emption has asked of it: a request is pending -/
  preempt : Bool
deriving DecidableEq, Repr

/-! ### Cores and dies -/

/-- An event-queue entry (Table 6.5). -/
structure EvEntry where
  ctx : Nat
  kind : Nat
  status : Nat
  tag : Nat
  data : DWord
  tslot : Nat
  group : Nat
  lane : Nat
deriving DecidableEq, Repr

/-- An error-log entry (Table 20.3). -/
structure ErrEntry where
  ctx : Nat
  kind : Nat
  action : Nat
  attempt : Nat
  loc : DWord
  tslot : Nat
  group : Nat
  lane : Nat
deriving DecidableEq, Repr

/-- What waits in a core's side log (R272, R316, R317): a faulting or later write, a fence marker, or a load or atomic held behind the thread's entries. -/
inductive SideOp where
  | write (e : Eff)
  | marker (dom : FenceDom)
  | load (n : Nat) (sx : Bool)
  | lr (n : Nat)
  | atomic (op : AtomOp) (n b c : Nat)
deriving DecidableEq, Repr

structure SideEnt where
  t : Tid
  ia : Nat
  peer : Option Nat
  op : SideOp
  /-- it faulted and is held at its home -/
  held : Bool
deriving DecidableEq, Repr

inductive CmdState where
  | running | stalled (ia : Nat) (write : Bool)
deriving DecidableEq, Repr

/-- An engine command (R327 to R330). `done` lists the destination lines or chunks written. -/
structure Command where
  slot : Nat
  ctx : Nat
  grid : Nat
  team : Option Nat
  who : Tid
  tslot : Nat
  q : Option Nat
  d : EngDesc
  done : List Nat
  discarded : Bool
  st : CmdState
  /-- for COLL: membership, number, and the result once known -/
  coll : Option (Nat × Nat)
  result : Option (List Byte)
  dropped : Bool
  /-- source lines read (R289): line number and bytes -/
  buffer : List (Nat × List Byte)
  /-- the index list of GATH or SCAT, once read (R332) -/
  idx : Option (List Nat) := none
  /-- the start of the team's run on the core; bytes that have arrived; place in issue order; the engine's PTS -/
  scr : Nat
  arrived : Nat
  seq : Nat
  pts : Nat
  /-- the cycle of its issue (R376) -/
  since : Nat := 0
deriving DecidableEq, Repr

/-- An Escapement entry (R140); its threads all stand at `pc`. -/
structure EscEntry where
  ctx : Nat
  grid : Nat
  pc : DWord
  ts : List Tid
deriving DecidableEq, Repr

/-- A bin of ready records (R136): its places and its overflow list, in arrival order. -/
structure Bin where
  num : Nat
  ctx : Nat
  grid : Nat
  pc : DWord
  places : List Tid
  overflow : List Tid
deriving DecidableEq, Repr

/-- A scalar thread's binding (R121, R393). -/
structure Bind where
  ctx : Nat
  entry : DWord
  team : Option (Nat × Nat)
  runtime : Bool
deriving DecidableEq, Repr

structure Core where
  id : Nat
  linestat : Word
  materr : Word
  grperr : Word
  evq : List EvEntry
  errlog : List ErrEntry
  dropped : List (Nat × Nat)
  sidelog : List SideEnt
  slots : List Command
  entries : List EscEntry
  bins : List Bin
  /-- records to be drained together that wait for a free Escapement entry (R137, R160) -/
  drains : List (List Tid) := []
  scr : Memory
  /-- scratchpad words that read uncorrectable: word numbers -/
  scrBad : List Nat
  acc : Memory
  /-- accumulator elements that read uncorrectable: byte addresses of their first byte -/
  accBad : List Nat
  allocs : List Alloc
  /-- blocks that BINIT has made barrier objects, with the tag of their last release post (R337) -/
  objs : List (Nat × Option Nat)
  /-- instruction-cache lines: line IA and content -/
  icache : List (Nat × Line)
  bind : Option Bind
deriving DecidableEq, Repr

/-- A subscription (R319): context, IA, length, module, whether active; the bytes its copy holds. -/
structure Sub where
  ctx : Nat
  ia : Nat
  len : Nat
  mod : Nat
  active : Bool
  copy : Memory
  /-- writes that the home has multicast and that have not arrived, oldest first (R298) -/
  pending : List (Nat × List Byte) := []
deriving DecidableEq, Repr

/-- An entry of a die dispatcher's mailbox: records forwarded together (R148), or a team to restore (R403). -/
inductive MailEntry where
  | records (ctx : Nat) (ts : List Tid) (since : Nat)
  | restore (ctx grid team : Nat) (since : Nat)
deriving DecidableEq, Repr

/-- What a dispatcher starts (R111): a grid's next team, or a team restore. -/
inductive StartRef where
  | grid (ctx grid : Nat)
  | restore (ctx grid team : Nat)
deriving DecidableEq, Repr

structure Die where
  id : Nat
  mailbox : List MailEntry
  reserve : Option (Nat × StartRef)
  units : Nat
  subs : List Sub
  lost : Bool
deriving DecidableEq, Repr

/-! ### The module -/

/-- An access held at its home (R271 to R274): the thread, the engine command (core and slot), a completion signal, the host, a peer module; reason and place. -/
inductive HeldWho where
  | thread (t : Tid)
  | side (core : Nat)
  | engine (core slot : Nat)
  | signal (ctx : Nat) (status : Nat)
  | bar (fn : Nat)
  /-- a peer's request, with the forwards it has behind it (R275) -/
  | fabric (src seq hops : Nat)
  | region (t : Tid) (k : Nat)
  /-- the header word of a packet's head, to be cleared (R90) -/
  | ring (ctx q idx : Nat)
  | launch
deriving DecidableEq, Repr

inductive HeldOp where
  | load (n : Nat) (sx : Bool)
  | lr (n : Nat)
  | atomic (op : AtomOp) (n b c : Nat)
  | fetch (va : DWord)
  | write (e : Eff)
  | engine (write : Bool)
  | signal
  | barWrite (data : List Byte)
  | barRead (n : Nat)
  /-- a host access that waits for earlier host writes, not yet translated (R291) -/
  | hostWrite (bar off : Nat) (data : List Byte)
  | hostRead (bar off n : Nat)
  /-- a peer's read of a member team's scratchpad (R368) -/
  | member (ctx grid core off n : Nat)
  /-- LDG with its rank table: the operation, its type, bytes, offset -/
  | ldg (op : LdgOp) (ty : LdgTy) (n off : Nat) (table : List Word)
  /-- the record of a launch that has become eligible (R41) -/
  | record (w : WaitLaunch)
deriving DecidableEq, Repr

structure HeldAcc where
  who : HeldWho
  ctx : Nat
  ia : Nat
  op : HeldOp
  /-- the fault it met; `none`: the page migrates -/
  kind : Option FaultKind
  /-- event-queue entries, with their cores, that are ordered after it (R124) -/
  after : List (Nat × EvEntry) := []
deriving DecidableEq, Repr

/-- What a completion carries (R133). -/
structure Completion where
  t : Tid
  xs : List (Nat × Word)
  p : Option (Nat × Bool)
  cause : Option (Cause × DWord)
  /-- the records one release wakes together (R160) -/
  set : Option Nat
deriving DecidableEq, Repr

/-- An access on its way to a peer module or a port (R296, R442). -/
structure OutReq where
  t : Tid
  core : Nat
  dest : Dest
  op : HeldOp
  seq : Nat
  /-- forwards behind it: 1 through a KIND 2 leaf, 0 through a PEER window (R275) -/
  hops : Nat := 0
  /-- its thread waits no longer: the answer is discarded (R406) -/
  late : Bool
deriving DecidableEq, Repr

/-- What a thread that stays resident waits for: the answer to its SC (R315), the commit of its outermost region (R415), the spread of its window values (R263). -/
inductive ResWait where
  | sc (t : Tid) (ia : Nat) (peer : Option Nat) (data : List Byte) (e : Nat)
  | commit (t : Tid)
  | winset (t : Tid)
deriving DecidableEq, Repr

structure Peer where
  id : Nat
  mem : Memory
  state : PeerState
  /-- the cycle at which the peer's state was last set (R444) -/
  since : Nat
deriving DecidableEq, Repr

inductive LinkState where
  | up | retrain
  /-- DEAD, with the rounds that have ended -/
  | dead (round : Nat)
deriving DecidableEq, Repr

/-- A Renet link: its state, since which cycle, and the negotiated protocol revision (R442, R445). -/
structure Link where
  state : LinkState
  since : Nat
  rev : Option Nat
deriving DecidableEq, Repr

/-- Migration channel (Table 13.8). STAT: 0 IDLE, 1 BUSY, 2 DONE, 3 FAILED. -/
structure Mig where
  src : DWord
  dst : DWord
  stat : Nat
  /-- while BUSY: the page's IA, its leaf, and the new leaf, as the start found them -/
  page : Nat
  old : DWord
  new : DWord
deriving DecidableEq, Repr

/-- A subscription of a peer's die to a region of this module (R298, R320): the peer, its number for it, the region. -/
structure Subscriber where
  src : Nat
  n : Nat
  ia : Nat
  len : Nat
deriving DecidableEq, Repr

/-- CKPTCTL (Table 21.1) and the thread that waits. -/
structure Ckpt where
  rsv : Bool
  state : Nat
  lastst : Nat
  seq : Word
  waiter : Option (Tid × Nat)
  tick : Nat
  cycle : Nat
deriving DecidableEq, Repr

/-- The stop report (Table 21.7). -/
structure Stop where
  state : Nat
  cause : Nat
  info : DWord
  cycle : Nat
  grids : Nat
  sigfail : Nat
deriving DecidableEq, Repr

structure Func where
  id : Nat
  tdisp : Tdisp
  keys : Bool
deriving DecidableEq, Repr

/-- What the host reads back, newest last: the answer to each BAR read, or a mailbox answer. -/
inductive HostMsg where
  | readDone (fn bar off : Nat) (data : List Byte)
  | measurements (slots : List (Option (BitVec 256)))
  | challengeAnswer (nonce : Nat) (sig : BitVec 256)
  | sessionKey (fn : Nat)
  | loadStatus (ctx status : Nat)
  | interrupt (vector : Nat)
  | fabricReply (src seq : Nat) (data : List Byte)
  /-- a peer's request met an uncorrectable value (R278) -/
  | fabricBad (src seq : Nat)
  /-- the fault record of a peer's request, for its own context (R271) -/
  | fabricFault (src seq : Nat) (record : List Byte)
  /-- a home's answer to a subscription, and its multicasts (R298, R320) -/
  | subsAck (src n : Nat) (lines : List Byte)
  | subsRefused (src n : Nat)
  | subsWrite (src n ia : Nat) (data : List Byte)
  | flood (st : PeerState)
  | linkFlood (port : Nat) (up : Bool)
  /-- Table 5.9: the gang's identity, this module's rank, the size, the grid's MDEF0 to MDEF3 (R105, R373) -/
  | gangAck (id : DWord) (rank size : Nat) (mdefs : List DWord)
  | gangCommit (ctx grid : Nat)
  | gangAbort (ctx grid : Nat)
  | memberWrite (mod ia : Nat) (data : List Byte)
  | multicast (mod ia : Nat) (data : List Byte)
  | subscribe (die n mod : Nat)
  | contribution (ctx grid : Nat) (kind : CollKind) (num : Nat) (value : Bool)
  | bootAuth
deriving DecidableEq, Repr

/-- What is still to be done inside the present step's consequences, oldest first. -/
inductive Work where
  | partition (cause : Cause) (info : DWord) (ctx : Nat) (grid : Option Nat) (scalar : Option Nat) (granule : Option Nat)
  | module (cause : Cause) (info : DWord)
  | fault (ctx ia : Nat) (kind : FaultKind) (acc : AccKind) (level : Nat) (entry : DWord)
  | retireGrid (ctx grid : Nat)
  | signal (ctx : Nat) (va : DWord) (status : Nat)
  | events (ctx : Nat)
  | packets (ctx q : Nat)
  /-- the action that a register's own rule attaches to a write of it (R269, R270, R274, R395, R398, R403, R365) -/
  | event (i : Instr)
deriving DecidableEq, Repr

/-- An input from outside: the cycles since the last one, then an event of the table, or bytes that the host, a CXL device or a peer writes into its own memory. -/
inductive Input where
  | event (dt : Nat) (i : Instr)
  | sysWrite (port addr : Nat) (data : List Byte)
  | peerWrite (mod ia : Nat) (data : List Byte)
  | scratchError (core word : Nat)
  | accError (core addr : Nat)
  | lineError (line : Nat)
  | regError (t : Tid) (reg : Nat)
  | power (withhold : Bool)
  /-- a home drops the translations it keeps of a granule (R270) -/
  | tlbDrop (die granule : Nat)
  /-- the management core sets the mode (Table 19.6), RECDIE.UNITS (Table 7.7), CKPTCTL.RSV (Table 21.1) -/
  | mode (m : BitVec 2)
  | recUnits (die units : Nat)
  | ckptRsv (on : Bool)
  /-- a core's instruction cache drops a line (R47) -/
  | icacheDrop (core line : Nat)
  /-- another member module's contribution to a collective instance arrives; drops decided at another root: modules by rank, this module's groups, other modules' groups by rank and number (R376, R378) -/
  | contribution (ctx grid n rank : Nat) (kind : CollKind) (value : Bool)
  | drops (ctx grid m : Nat) (mods : List Nat) (own : List (Nat × Nat)) (peers : List (Nat × Nat))
deriving DecidableEq, Repr

/-- A partition action: its cause and information word, the grid it ends, the cycle it began (R396). -/
structure PartAct where
  cause : Cause
  info : DWord
  ctx : Nat
  grid : Nat
  since : Nat
deriving DecidableEq, Repr

structure State where
  cycle : Nat
  epoch : Nat
  mmode : BitVec 2
  modid : Nat
  /-- the physical cores that the fuses disable: none, or what `fusesOk` allows (R10) -/
  disabled : List Nat
  mem : Memory
  /-- physical lines with POISON set (R278) -/
  poison : List Nat
  /-- the IA line that a physical line's check value was made for (R278) -/
  lineIa : List (Nat × Nat)
  /-- memory behind port 0 (host) and ports 1 to 4 (CXL) -/
  sysMem : List (Nat × Memory)
  lostPorts : List Nat
  peers : List Peer
  xroot : DWord
  /-- translations kept by the homes: near-tier die, page base IA, page size log, leaf, leaf level, leaf address -/
  tlb : List (Nat × Nat × Nat × DWord × Nat × Nat)
  /-- WTS and RTS by line (IA) -/
  ticks : List (Nat × Nat × Nat)
  /-- PTS of the agents that are neither threads nor engines (R284) -/
  agents : List (Agent × Nat)
  /-- lines whose write lease LR has moved to a compute stack's L2, with the stack (R314) -/
  leases : List (Nat × Nat)
  /-- peers' subscriptions that this module keeps as their home (R298, R320) -/
  subscribers : List Subscriber
  held : List HeldAcc
  /-- granule and kind of the fault records delivered -/
  reported : List (Nat × FaultKind)
  migs : List Mig
  ckpt : Ckpt
  apers : List DWord
  funcs : List Func
  measured : List (Option (BitVec 256))
  /-- the boot ROM has given its verdict (R446) -/
  booted : Bool
  /-- functions 0 to 23 enumerate (R446) -/
  enumerated : Bool
  stop : Stop
  links : List Link
  seen : List (Nat × Nat)
  withhold : Bool
  /-- partition actions under way (R396) -/
  parts : List PartAct
  ctxs : List Ctx
  grids : List Grid
  teams : List Team
  threads : List Thread
  cores : List Core
  dies : List Die
  compl : List Completion
  out : List OutReq
  nextSeq : Nat
  resWait : List ResWait
  messages : List HostMsg
  work : List Work
  /-- the model's own: inputs still to come, open choices, actions left in the present cycle (R295), the issue that `exec` runs, whether an issue or an internal event comes next, free values used -/
  inbox : List Input
  choices : List Nat
  budget : Nat
  issue : List Tid
  turn : Bool
  freeCount : Nat
deriving DecidableEq, Repr

/-! ### Reasons to stop -/

/-- Why a step stops the machine. -/
inductive Fault where
  /-- Raised by no step: an input that no module can meet is passed over (log 4). It would name such an input. Safe: no run ends in it. -/
  | illFormedInput
deriving DecidableEq, Repr

/-- Why an instruction has no meaning. -/
inductive Refusal where
  /-- Raised by an arm of `exec` whose instruction has no meaning yet. Safe. -/
  | notModelled (mnemonic : String)
deriving DecidableEq, Repr

/-! ### Reset values -/

def Handler.reset : Handler :=
  { cause := 0, hmode := false, rung := 0, via := 0, trappc := 0, src := 0, info := 0, pend := 0, hfaultsrc := 0
    entry := 0, infos := [], timer := none, join := none }

/-- A core that has run nothing since module reset. -/
def Core.reset (id : Nat) : Core :=
  { id, linestat := 0, materr := 0, grperr := 0, evq := [], errlog := [], dropped := [], sidelog := [], slots := []
    entries := [], bins := [], drains := [], scr := [], scrBad := [], acc := [], accBad := [], allocs := [], objs := [], icache := [], bind := none }

/-- A compute stack after module reset: RECDIE.UNITS 128 (Table 7.7). -/
def Die.reset (id : Nat) : Die :=
  { id, mailbox := [], reserve := none, units := 128, subs := [], lost := false }

/-- A context at its creation: the reset values of Tables 6.1, 7.8, 7.9, 13.1 to 13.4, 15.5, 16.7, 18.1, 18.6, 18.7, 19.3, 19.7, 19.10, 19.13, 19.14. -/
def Ctx.reset (id : Nat) (redundant : Bool) : Ctx :=
  { id, redundant, host := 0, windows := List.replicate 8 ⟨0, 0, 0, 0⟩, events := 0
    placedom := 0x00FFFFFF, recpool := 0, ctxsched := 0x00200800, ctxcoll := 200, ctxwdog := 0x145003E8
    ctxtrapq := 0, ctxtrapcore := 0, ctxsave := 0, preemptctl := 0, teamrestore := 0, rungvec2 := 0
    rungto := [100, 1000, 10000, 100000]
    qbind := List.replicate 16 0, cgdef := List.replicate 4 0, cgtab := List.replicate 4 [], mdef := List.replicate 4 0
    mcast := List.replicate 64 0, images := [], queues := [], waiting := [], ringNext := 0, ringSeq := 0, ring := []
    saveRuns := [], preDeadline := none, dying := false }

/-- The machine right after module reset: MMODE BRINGUP (Table 19.6), CYCLE, EPOCH, XROOT, CKPTCTL, APERd, the stop report and MIGSTAT 0, every TDISP state CONFIG_UNLOCKED; no context, grid, team or thread. -/
def State.reset : State :=
  { cycle := 0, epoch := 0, mmode := 1, modid := 0, disabled := []
    mem := [], poison := [], lineIa := [], sysMem := [], lostPorts := [], peers := [], xroot := 0, tlb := [], ticks := []
    agents := [], leases := [], subscribers := [], held := [], reported := [], migs := List.replicate 4 ⟨0, 0, 0, 0, 0, 0⟩
    ckpt := { rsv := false, state := 0, lastst := 0, seq := 0, waiter := none, tick := 0, cycle := 0 }
    apers := List.replicate 24 0
    funcs := (List.range 25).map fun n => { id := n, tdisp := .unlocked, keys := false }
    measured := List.replicate 38 none, booted := false, enumerated := false
    stop := { state := 0, cause := 0, info := 0, cycle := 0, grids := 0, sigfail := 0 }
    links := List.replicate 16 ⟨.up, 0, none⟩, seen := [], withhold := false, parts := []
    ctxs := [], grids := [], teams := [], threads := [], cores := [], dies := []
    compl := [], out := [], nextSeq := 0, resWait := [], messages := [], work := []
    inbox := [], choices := [], budget := 0, issue := [], turn := false, freeCount := 0 }

end Sys2Proof.Machine
end

