-- ==== Sys2Proof/Machine/Mem.lean ====
section
/-! DEFINITION. Bytes, words and the canonical byte memories; CRC-32C. -/

namespace Sys2Proof.Machine

open Sys2Proof

/-! ### Canonical byte memories -/

/-- What an unlisted address reads as (log 3). -/
def Memory.unlisted : Byte := 0

def Memory.get : Memory → Nat → Byte
  | [], _ => Memory.unlisted
  | (k, v) :: m, a => if a = k then v else if a < k then Memory.unlisted else Memory.get m a

/-- The list with `a` reading `b`, in the canonical form. -/
def Memory.put : Memory → Nat → Byte → Memory
  | [], a, b => if b = Memory.unlisted then [] else [(a, b)]
  | (k, v) :: m, a, b =>
    if a < k then (if b = Memory.unlisted then (k, v) :: m else (a, b) :: (k, v) :: m)
    else if a = k then (if b = Memory.unlisted then m else (k, b) :: m)
    else (k, v) :: Memory.put m a b

/-- Strictly rising addresses, all at or above `lo`, and no entry of the unlisted value. -/
def Memory.wfFrom : Nat → Memory → Bool
  | _, [] => true
  | lo, (k, v) :: m => decide (lo ≤ k) && (v != Memory.unlisted) && Memory.wfFrom (k + 1) m

/-- The canonical form. -/
def Memory.wf (m : Memory) : Bool := Memory.wfFrom 0 m

def Memory.read (m : Memory) (a : Nat) : Nat → List Byte
  | 0 => []
  | n + 1 => m.get a :: Memory.read m (a + 1) n

def Memory.write (m : Memory) (a : Nat) : List Byte → Memory
  | [] => m
  | b :: bs => Memory.write (m.put a b) (a + 1) bs

/-- Every byte of [a, a + n) at the unlisted value. -/
def Memory.clear (m : Memory) (a n : Nat) : Memory := m.filter fun c => decide (c.1 < a) || decide (a + n ≤ c.1)

/-! ### Little-endian values (R2) -/

def natOfBytes : List Byte → Nat
  | [] => 0
  | b :: bs => b.toNat + 256 * natOfBytes bs

def bytesOfNat : Nat → Nat → List Byte
  | 0, _ => []
  | n + 1, v => BitVec.ofNat 8 v :: bytesOfNat n (v / 256)

def wordOfBytes (bs : List Byte) : Word := BitVec.ofNat 32 (natOfBytes bs)
def dwordOfBytes (bs : List Byte) : DWord := BitVec.ofNat 64 (natOfBytes bs)

/-- Register words of `n` bytes (R308). -/
def wordsOfBytes : Nat → List Byte → List Word
  | 0, _ => []
  | n + 1, bs => wordOfBytes (bs.take 4) :: wordsOfBytes n (bs.drop 4)

def bytesOfWords : List Word → List Byte
  | [] => []
  | w :: ws => bytesOfNat 4 w.toNat ++ bytesOfWords ws

/-- Two's-complement value of the low `w` bits (Table 0.2). -/
def signExtend (w : Nat) (v : Nat) : Int := if v % 2 ^ w < 2 ^ (w - 1) then (v % 2 ^ w : Int) else (v % 2 ^ w : Int) - 2 ^ w

/-- `n` bits of `v` from bit `k`. -/
def bitsOf (v : Nat) (k n : Nat) : Nat := v / 2 ^ k % 2 ^ n

/-- Bytes `off` to `off + n - 1` of `bs` as a number. -/
def fieldAt (bs : List Byte) (off n : Nat) : Nat := natOfBytes ((bs.drop off).take n)

/-- Addresses of a list of a given length. -/
def seqFrom (a : Nat) : Nat → List Nat
  | 0 => []
  | n + 1 => a :: seqFrom (a + 1) n

/-- `l` with element `n` replaced. -/
def setAt {α : Type} : List α → Nat → α → List α
  | [], _, _ => []
  | _ :: l, 0, v => v :: l
  | x :: l, n + 1, v => x :: setAt l n v

/-- Element `n`, or `d` beyond the end. -/
def getAt {α : Type} (d : α) : List α → Nat → α
  | [], _ => d
  | x :: _, 0 => x
  | _ :: l, n + 1 => getAt d l n

/-! ### CRC-32C (R278) -/

def crcBits (c : BitVec 32) : Nat → BitVec 32
  | 0 => c
  | n + 1 => crcBits (if c.getLsbD 0 then (c >>> 1) ^^^ 0x82F63B78 else c >>> 1) n

def crcBytes (c : BitVec 32) : List Byte → BitVec 32
  | [] => c
  | b :: bs => crcBytes (crcBits (c ^^^ b.setWidth 32) 8) bs

/-- CRC-32C: Castagnoli polynomial, reflected, initial value and final XOR all ones. -/
def crc32c (bs : List Byte) : BitVec 32 := crcBytes 0xFFFFFFFF bs ^^^ 0xFFFFFFFF

end Sys2Proof.Machine
end

