-- ==== Sys2Proof/Machine/Elf.lean ====
section
/-! DEFINITION. The container (R22, R23): an ELF64 file's identification, sections, symbols and relocation records, and the image block they make. -/

namespace Sys2Proof.Machine

open Sys2Proof

/-- A relocation record (Table 2.6): where its place stands in the image, and its symbol's address, looked up; `none`: not in the image. -/
structure Reloc where
  kind : Nat
  offset : Option Nat
  sym : Option Nat
  addend : Int
  slotSym : Option Word
deriving DecidableEq, Repr

/-- An image as its file describes it: the identification, the block of code, live-list and live-range sections (R23), the other sections that the image has in memory with their offsets from the block, the byte offset of every kernel's entry line, and the relocations in file order. -/
structure ImageFile where
  elfClass64 : Bool
  elfLsb : Bool
  machine : Nat
  etype : Nat
  eflags : Nat
  /-- every Freral section has Table 2.1's alignment -/
  aligned : Bool
  base : Nat
  code : List Byte
  live : List Byte
  range : List Byte
  /-- where each live-list and live-range section begins and ends in the block -/
  liveSecs : List (Nat × Nat)
  rangeSecs : List (Nat × Nat)
  data : List (Nat × List Byte)
  entries : List Nat
  relocs : List Reloc
deriving DecidableEq, Repr

/-- The section types of Table 2.1, and the ELF types that a loader meets beside them. -/
def shtProgbits : Nat := 1
def shtRela : Nat := 4
def shtNobits : Nat := 8
def shtCode : Nat := 0x70000010
def shtLive : Nat := 0x70000011
def shtRange : Nat := 0x70000012
def shtLaunch : Nat := 0x70000013

/-- A section: its index, the fields of its header, its bytes (zeros for SHT_NOBITS). -/
structure Section where
  index : Nat
  type : Nat
  flags : Nat
  addr : Nat
  size : Nat
  link : Nat
  align : Nat
  bytes : List Byte
deriving DecidableEq, Repr

/-- The alignment that Table 2.1 gives a Freral section type. -/
def shtAlign (t : Nat) : Option Nat :=
  if t = shtCode then some 64 else if t = shtLive ∨ t = shtRange then some 16 else if t = shtLaunch then some 256 else none

/-- The section whose header stands at a file offset. -/
def sectionAt (f : List Byte) (off index : Nat) : Section :=
  let get := fieldAt (f.drop off)
  let type := get 0x04 4
  let size := get 0x20 8
  { index, type, flags := get 0x08 8, addr := get 0x10 8, size, link := get 0x28 4, align := get 0x30 8
    bytes := if type = shtNobits then List.replicate size 0 else (f.drop (get 0x18 8)).take size }

/-- The sections of a file, in the order of its section-header table. -/
def sectionsOf (f : List Byte) : List Section :=
  (seqFrom 0 (fieldAt f 0x3C 2)).map fun k => sectionAt f (fieldAt f 0x28 8 + k * fieldAt f 0x3A 2) k

/-- A section that the image has in memory beside its block: launch-record templates, and data that the file marks SHF_ALLOC. -/
def Section.isData (s : Section) : Bool :=
  s.type == shtLaunch || ((s.type == shtProgbits || s.type == shtNobits) && s.flags.testBit 1)

def alignUp (n a : Nat) : Nat := (n + (max a 1 - 1)) / max a 1 * max a 1

/-- Sections laid one after another from an offset, each on its alignment: where each begins, and where the last one ends. -/
def layOut (align : Section → Nat) : Nat → List Section → List (Section × Nat) × Nat
  | at_, [] => ([], at_)
  | at_, s :: ss =>
    let o := alignUp at_ (align s)
    let (rest, e) := layOut align (o + s.size) ss
    ((s, o) :: rest, e)

/-- The bytes of laid-out sections from offset `lo` to `hi`; what no section covers is 0. -/
def joinBytes : Nat → Nat → List (Section × Nat) → List Byte
  | lo, hi, [] => List.replicate (hi - lo) 0
  | lo, hi, (s, o) :: rest => List.replicate (o - lo) 0 ++ s.bytes ++ List.replicate (s.size - s.bytes.length) 0 ++ joinBytes (o + s.size) hi rest

/-- The block of R23 and, after it, the other sections in file order: each with its offset; the three ends of the block. -/
structure Layout where
  placed : List (Section × Nat)
  codeEnd : Nat
  liveEnd : Nat
  rangeEnd : Nat
deriving DecidableEq, Repr

def layoutOf (ss : List Section) : Layout :=
  let ofType (t : Nat) := ss.filter fun s => s.type == t
  let (c, e) := layOut (fun _ => 64) 0 (ofType shtCode)
  let e := alignUp e 64
  let (l, e') := layOut (fun _ => 16) e (ofType shtLive)
  let e' := alignUp e' 16
  let (r, e'') := layOut (fun _ => 16) e' (ofType shtRange)
  let (d, _) := layOut (·.align) (alignUp e'' 64) (ss.filter Section.isData)
  { placed := c ++ l ++ r ++ d, codeEnd := e, liveEnd := e', rangeEnd := e'' }

/-- The offset from the block of an address of the file (log 17). -/
def Layout.offsetOf (l : Layout) (a : Nat) : Option Nat :=
  (l.placed.find? fun p => decide (p.1.addr ≤ a) && decide (a < p.1.addr + p.1.size)).map fun p => p.2 + (a - p.1.addr)

/-- Where the sections of a type lie in the block. -/
def Layout.extents (l : Layout) (t : Nat) : List (Nat × Nat) :=
  (l.placed.filter fun p => p.1.type == t).map fun p => (p.2, p.2 + p.1.size)

/-- Symbol `n` of a symbol table: its type, the index of its section, its value. -/
def symbolAt (t : Section) (n : Nat) : Nat × Nat × Nat :=
  let get := fieldAt (t.bytes.drop (24 * n))
  (get 4 1 % 16, get 6 2, get 8 8)

def shnAbs : Nat := 0xFFF1

/-- The virtual address of a symbol: its place in the loaded image, or an absolute value; `none`: the image does not define it. -/
def symbolAddr (l : Layout) (base : Nat) (t : Section) (n : Nat) : Option Nat :=
  let (_, sec, v) := symbolAt t n
  if sec = 0 then none
  else if sec = shnAbs then some v
  else (l.placed.find? fun p => p.1.index == sec).map fun p => base + p.2 + (v - p.1.addr)

/-- The descriptor of a format-slot symbol: an absolute symbol of type STT_OBJECT whose value is the word (log 17). -/
def slotSymbol (t : Section) (n : Nat) : Option Word :=
  let (ty, sec, v) := symbolAt t n
  if ty = 1 ∧ sec = shnAbs ∧ v < 2 ^ 32 then some (BitVec.ofNat 32 v) else none

/-- The records of one SHT_RELA section. -/
def relocsOf (l : Layout) (base : Nat) (ss : List Section) (r : Section) : List Reloc :=
  (seqFrom 0 (r.size / 24)).map fun k =>
    let get := fieldAt (r.bytes.drop (24 * k))
    let info := get 8 8
    let tab := ss.find? fun s => s.index == r.link
    { kind := info % 2 ^ 32, offset := l.offsetOf (get 0 8), addend := signExtend 64 (get 16 8)
      sym := tab.bind fun t => symbolAddr l base t (info / 2 ^ 32)
      slotSym := tab.bind fun t => slotSymbol t (info / 2 ^ 32) }

/-- The entry lines of the kernels: the STT_FUNC symbols of code sections (R23). -/
def entriesOf (l : Layout) (ss : List Section) : List Nat :=
  ((ss.filter fun s => s.type == 2 || s.type == 11).flatMap fun t => (seqFrom 0 (t.size / 24)).filterMap fun n =>
    let (ty, sec, v) := symbolAt t n
    if ty = 2 then (l.placed.find? fun p => p.1.index == sec && p.1.type == shtCode).map fun p => p.2 + (v - p.1.addr) else none).eraseDups

/-- The file as the loader reads it (R22, R23); `none`: it has no ELF header, or a section reaches past its end. -/
def parseElf (base : Nat) (f : List Byte) : Option ImageFile :=
  let ss := sectionsOf f
  if f.length < 64 ∨ fieldAt f 0 4 ≠ 0x464C457F ∨ ss.any (fun s => s.bytes.length != s.size) = true then none
  else
    let l := layoutOf ss
    let within (lo hi : Nat) : List Byte := joinBytes lo hi (l.placed.filter fun p => !p.1.isData && decide (lo ≤ p.2) && decide (p.2 + p.1.size ≤ hi))
    some
      { elfClass64 := fieldAt f 4 1 == 2, elfLsb := fieldAt f 5 1 == 1, machine := fieldAt f 0x12 2, etype := fieldAt f 0x10 2
        eflags := fieldAt f 0x30 4, aligned := ss.all fun s => match shtAlign s.type with
          | some a => s.align == a
          | none => true
        base, code := within 0 l.codeEnd, live := within l.codeEnd l.liveEnd, range := within l.liveEnd l.rangeEnd
        liveSecs := l.extents shtLive, rangeSecs := l.extents shtRange
        data := (l.placed.filter fun p => p.1.isData).map fun p => (p.2, p.1.bytes)
        entries := entriesOf l ss, relocs := (ss.filter fun s => s.type == shtRela).flatMap (relocsOf l base ss) }

end Sys2Proof.Machine
end

