-- ==== Sys2Proof/Machine/Float.lean ====
section
/-! DEFINITION. Number formats and rounding (R195 to R217): every finite value is a dyadic number, sums and products are exact, and one function rounds. -/

namespace Sys2Proof.Machine

open Sys2Proof

/-- FPX bits (Table 10.5). -/
abbrev Fpx := BitVec 7
def fpxNX : Fpx := 0x01
def fpxUF : Fpx := 0x02
def fpxOF : Fpx := 0x04
def fpxDZ : Fpx := 0x08
def fpxNV : Fpx := 0x10
def fpxSAT : Fpx := 0x20
def fpxBNAN : Fpx := 0x40

/-- A format of Tables 10.1 and 10.2: fraction bits, bias, width, code of the largest finite magnitude, whether the exponent of all ones is special as IEEE 754 makes it. -/
structure Fmt where
  p : Nat
  bias : Nat
  width : Nat
  maxCode : Nat
  ieee : Bool
deriving DecidableEq, Repr

def fF32 : Fmt := ⟨23, 127, 32, 0x7F7FFFFF, true⟩
def fF16 : Fmt := ⟨10, 15, 16, 0x7BFF, true⟩
def fBF16 : Fmt := ⟨7, 127, 16, 0x7F7F, true⟩
def fE4M3 : Fmt := ⟨3, 7, 8, 0x7E, false⟩
def fE5M2 : Fmt := ⟨2, 15, 8, 0x7B, true⟩
def fE2M1 : Fmt := ⟨1, 1, 4, 0x7, false⟩
/-- The special magnitude of Table 10.2, read without its sign. -/
def fSpecial : Fmt := ⟨3, 7, 8, 0x7F, false⟩

def Fmt.ofI : IFmt → Fmt
  | .f32 => fF32 | .f16 => fF16 | .bf16 => fBF16

/-- Canonical NaN of a format. -/
def Fmt.nan (f : Fmt) : Nat := if f.ieee then f.maxCode + 1 + 2 ^ (f.p - 1) else 0x7F
def Fmt.inf (f : Fmt) : Nat := f.maxCode + 1
def Fmt.sign (f : Fmt) (neg : Bool) : Nat := if neg then 2 ^ (f.width - 1) else 0
def Fmt.emin (f : Fmt) : Int := 1 - f.bias

/-- A value: ±m × 2^e, ±∞, or a NaN, signalling or quiet. -/
inductive FVal where
  | num (neg : Bool) (m : Nat) (e : Int)
  | inf (neg : Bool)
  | nan (sig : Bool)
deriving DecidableEq, Repr

/-- The value that a pattern encodes (R195, R196). -/
def Fmt.read (f : Fmt) (v : Nat) : FVal :=
  let neg := v / 2 ^ (f.width - 1) % 2 == 1
  let c := v % 2 ^ (f.width - 1)
  let frac := c % 2 ^ f.p
  let e := c / 2 ^ f.p
  if c > f.maxCode then
    if f.ieee ∧ frac = 0 then .inf neg
    else .nan (f.ieee && frac / 2 ^ (f.p - 1) == 0)
  else if e = 0 then .num neg frac (f.emin - f.p)
  else .num neg (2 ^ f.p + frac) (e - f.bias - f.p)

def FVal.isNan : FVal → Bool
  | .nan _ => true | _ => false
def FVal.isSig : FVal → Bool
  | .nan s => s | _ => false
def FVal.isZero : FVal → Bool
  | .num _ m _ => m == 0 | _ => false
def FVal.isInf : FVal → Bool
  | .inf _ => true | _ => false
def FVal.neg? : FVal → Bool
  | .num n _ _ => n | .inf n => n | .nan _ => false
def FVal.negate : FVal → FVal
  | .num n m e => .num (!n) m e | .inf n => .inf (!n) | .nan s => .nan s

/-- FTZ on an operand: a subnormal FP32 reads as zero of its sign (R203). -/
def FVal.flush (ftz : Bool) : FVal → FVal
  | .num n m e => if ftz ∧ m ≠ 0 ∧ (Nat.log2 m : Int) + e < -126 then .num n 0 e else .num n m e
  | v => v

/-! ### Rounding -/

/-- Whether an integer quotient with a remainder rounds up in magnitude (Table 10.3). -/
def roundsUp (rm : RM) (neg : Bool) (n rem half : Nat) : Bool :=
  match rm with
  | .rne => decide (half < rem) || (rem == half && n % 2 == 1)
  | .rtz => false
  | .rup => !neg && rem != 0
  | .rdn => neg && rem != 0

/-- m × 2^e rounded to a multiple of 2^q: the multiple, and whether it is exact. -/
def roundAt (rm : RM) (neg : Bool) (m : Nat) (e q : Int) : Nat × Bool :=
  if q ≤ e then (m * 2 ^ (e - q).toNat, true)
  else
    let k := (q - e).toNat
    let n := m / 2 ^ k
    let rem := m % 2 ^ k
    (if roundsUp rm neg n rem (2 ^ (k - 1)) then n + 1 else n, rem == 0)

/-- The magnitude code that R200's steps give with no upper limit, whether it is exact, and whether the value is tiny. -/
def roundCode (f : Fmt) (rm : RM) (neg : Bool) (m : Nat) (e : Int) : Nat × Bool × Bool :=
  let top : Int := (Nat.log2 m : Int) + e
  let q := max top f.emin - f.p
  let (n, exact) := roundAt rm neg m e q
  (n + (q - (f.emin - f.p)).toNat * 2 ^ f.p, exact, decide (top < f.emin))

/-- Overflow to an IEEE format (Table 10.4). -/
def overflowCode (f : Fmt) (rm : RM) (neg : Bool) : Nat :=
  match rm with
  | .rne => f.inf
  | .rtz => f.maxCode
  | .rup => if neg then f.maxCode else f.inf
  | .rdn => if neg then f.inf else f.maxCode

/-- Round (R200, R201, R203) of a finite value to an IEEE format of Table 10.1: the pattern and the FPX bits. -/
def Fmt.roundNum (f : Fmt) (rm : RM) (ftz : Bool) (neg : Bool) (m : Nat) (e : Int) : Nat × Fpx :=
  if m = 0 then (f.sign neg, 0)
  else
    let (c, exact, tiny) := roundCode f rm neg m e
    if ftz ∧ f.width = 32 ∧ tiny then (f.sign neg, fpxUF ||| fpxNX)
    else if f.maxCode < c then (f.sign neg + overflowCode f rm neg, fpxOF ||| fpxNX)
    else (f.sign neg + c, if exact then 0 else if tiny then fpxNX ||| fpxUF else fpxNX)

/-- Round of any value (R200 to R202). NV of a signalling operand is the caller's. -/
def Fmt.round (f : Fmt) (rm : RM) (ftz : Bool) : FVal → Nat × Fpx
  | .num n m e => f.roundNum rm ftz n m e
  | .inf n => (f.sign n + f.inf, 0)
  | .nan _ => (f.nan, 0)

/-- Narrowing to E4M3 or E5M2 (R206, R207). -/
def Fmt.narrow (f : Fmt) (rm : RM) : FVal → Nat × Fpx
  | .num n m e =>
    if m = 0 then (f.sign n, 0)
    else
      let (c, exact, tiny) := roundCode f rm n m e
      if f.maxCode < c then (f.sign n + f.maxCode, fpxSAT ||| fpxNX)
      else (f.sign n + c, if exact then 0 else if tiny then fpxNX ||| fpxUF else fpxNX)
  | .inf n => if f.ieee then (f.sign n + f.inf, 0) else (f.nan, fpxNV)
  | .nan s => (f.nan, if s then fpxNV else 0)

/-- Narrowing to an integer range [lo, hi] (R206, R207): the integer and the FPX bits. -/
def narrowInt (rm : RM) (lo hi : Int) : FVal → Int × Fpx
  | .num n m e =>
    let (k, exact) := roundAt rm n m e 0
    let v : Int := if n then -(k : Int) else k
    if v < lo then (lo, fpxSAT ||| fpxNX)
    else if hi < v then (hi, fpxSAT ||| fpxNX)
    else (v, if exact then 0 else fpxNX)
  | .inf n => (if n then lo else hi, fpxSAT ||| fpxNX)
  | .nan _ => (0, fpxNV)

/-! ### Exact products and sums -/

def FVal.sigBits (vs : List FVal) : Fpx := if vs.any FVal.isSig then fpxNV else 0

/-- Exact product; 0 × ∞ is invalid (R202). -/
def FVal.mul : FVal → FVal → FVal × Fpx
  | .nan _, .inf _ | .nan _, .num _ _ _ | .nan _, .nan _ => (.nan false, 0)
  | .inf _, .nan _ | .num _ _ _, .nan _ => (.nan false, 0)
  | .inf n, .inf k => (.inf (n != k), 0)
  | .inf n, .num k m _ => if m = 0 then (.nan false, fpxNV) else (.inf (n != k), 0)
  | .num n m _, .inf k => if m = 0 then (.nan false, fpxNV) else (.inf (n != k), 0)
  | .num n m e, .num k m' e' => (.num (n != k) (m * m') (e + e'), 0)

/-- Signed mantissa at exponent q ≤ e. -/
def mantAt (n : Bool) (m : Nat) (e q : Int) : Int :=
  let a : Int := ((m * 2 ^ (e - q).toNat : Nat) : Int)
  if n then -a else a

def FVal.expo : FVal → Int
  | .num _ m e => if m = 0 then 0 else e
  | _ => 0

def FVal.mant (q : Int) : FVal → Int
  | .num n m e => if m = 0 then 0 else mantAt n m e q
  | _ => 0

/-- The exact sum of a list of values: ∞ − ∞ is invalid; the sign of an exact zero as R200 gives it. -/
def FVal.sum (rm : RM) (vs : List FVal) : FVal × Fpx :=
  if vs.any FVal.isNan then (.nan false, 0)
  else if vs.any FVal.isInf then
    let pos := vs.any fun v => v.isInf && !v.neg?
    let ng := vs.any fun v => v.isInf && v.neg?
    if pos && ng then (.nan false, fpxNV) else (.inf ng, 0)
  else
    let q := vs.foldl (fun a v => min a v.expo) 0
    let t : Int := vs.foldl (fun a v => a + v.mant q) 0
    if t = 0 then
      let allNeg := vs.all fun v => v.isZero && v.neg?
      let allPos := vs.all fun v => v.isZero && !v.neg?
      (.num (allNeg || (!allPos && rm == .rdn)) 0 0, 0)
    else (.num (decide (t < 0)) t.natAbs q, 0)

/-- Exact quotient of finite values with a sticky bit: enough bits for any rounding here. -/
def divSticky (m m' : Nat) : Nat × Int :=
  let k := 80 + Nat.log2 m'
  let n := m * 2 ^ k
  (2 * (n / m') + (if n % m' = 0 then 0 else 1), -(k : Int) - 1)

def FVal.div : FVal → FVal → FVal × Fpx
  | .nan _, .inf _ | .nan _, .num _ _ _ | .nan _, .nan _ => (.nan false, 0)
  | .inf _, .nan _ | .num _ _ _, .nan _ => (.nan false, 0)
  | .inf _, .inf _ => (.nan false, fpxNV)
  | .inf n, .num k _ _ => (.inf (n != k), 0)
  | .num n _ _, .inf k => (.num (n != k) 0 0, 0)
  | .num n m e, .num k m' e' =>
    if m' = 0 then (if m = 0 then (.nan false, fpxNV) else (.inf (n != k), fpxDZ))
    else
      let (q, x) := divSticky m m'
      (.num (n != k) q (e - e' + x), 0)

/-- Magnitude comparison of finite values. -/
def FVal.ltNum (n : Bool) (m : Nat) (e : Int) (k : Bool) (m' : Nat) (e' : Int) : Bool :=
  let q := min e e'
  decide (mantAt n m e q < mantAt k m' e' q)

/-- x < y in the order in which the two zeros are equal; false with a NaN. -/
def FVal.lt : FVal → FVal → Bool
  | .nan _, _ | _, .nan _ => false
  | .inf n, .inf k => n && !k
  | .inf n, .num _ _ _ => n
  | .num _ _ _, .inf k => !k
  | .num n m e, .num k m' e' => FVal.ltNum n m e k m' e'

/-- x < y in the total order of R224 and R256: −0 below +0. -/
def FVal.below (x y : FVal) : Bool := x.lt y || (x.isZero && y.isZero && x.neg? && !y.neg?)

/-! ### Square roots -/

/-- Bitwise integer square root: bits k − 1 down to 0 of the root. -/
def isqrtFrom (n : Nat) : Nat → Nat → Nat
  | 0, r => r
  | k + 1, r => isqrtFrom n k (if (r + 2 ^ k) * (r + 2 ^ k) ≤ n then r + 2 ^ k else r)

def isqrt (n : Nat) : Nat := isqrtFrom n (Nat.log2 n / 2 + 1) 0

/-- √(m × 2^e) with a sticky bit. -/
def sqrtSticky (m : Nat) (e : Int) : Nat × Int :=
  let (m, e) := if e % 2 = 0 then (m, e) else (2 * m, e - 1)
  let n := m * 2 ^ 160
  let r := isqrt n
  (2 * r + (if r * r = n then 0 else 1), e / 2 - 81)

/-- 1 ÷ √(m × 2^e) with a sticky bit. -/
def rsqrtSticky (m : Nat) (e : Int) : Nat × Int :=
  let (m, e) := if e % 2 = 0 then (m, e) else (2 * m, e - 1)
  let k := 100 + Nat.log2 m
  let r := isqrt (2 ^ (2 * k) / m)
  (2 * r + (if r * r * m = 2 ^ (2 * k) then 0 else 1), -(e / 2) - (k : Int) - 1)

/-! ### Transcendental functions (R229), at 256 bits of fraction

Each result is returned as a dyadic number with a sticky bit below at least 170 correct bits (log 14). -/

def fixBits : Nat := 256
def fixOne : Nat := 2 ^ fixBits
/-- ⌊π × 2^256⌋ and ⌊ln 2 × 2^256⌋. -/
def fixPi : Nat := 0x3243f6a8885a308d313198a2e03707344a4093822299f31d0082efa98ec4e6c89
def fixLn2 : Nat := 0xb17217f7d1cf79abc9e3b39803f2f6af40f343267298b62d8a0d175b8baafa2b
def fixMul (a b : Nat) : Nat := a * b / fixOne

/-- Σ yⁿ/n! from the term given on. -/
def expTerms (y : Nat) : Nat → Nat → Nat → Nat
  | 0, _, _ => 0
  | fuel + 1, n, t => t + expTerms y fuel (n + 1) (fixMul t y / n)

/-- A fixed-point value with its last 40 bits replaced by a sticky bit. -/
def fixSticky (s : Nat) : Nat × Int := (2 * (s / 2 ^ 40) + 1, -(fixBits : Int) + 39)

/-- Fraction of m × 2^e (either sign) as fixed point, rounded down, and the integer part. -/
def fixFloor (neg : Bool) (m : Nat) (e : Int) : Int × Nat :=
  let v : Int := mantAt neg m e (-(fixBits : Int))
  (v / (fixOne : Int), (v % (fixOne : Int)).toNat)

/-- 2^x for a finite non-zero x that is not outside ±2^10: as a magnitude. -/
def exp2Dy (neg : Bool) (m : Nat) (e : Int) : Nat × Int :=
  if (Nat.log2 m : Int) + e < -60 then (if neg then 2 ^ 100 - 1 else 2 ^ 100 + 1, -100)
  else
    let (i, f) := fixFloor neg m e
    if f = 0 then (1, i)
    else
      let (s, x) := fixSticky (expTerms (fixMul f fixLn2) 70 1 fixOne)
      (s, x + i)

/-- Bits of log₂ of a fixed-point number in [1, 2), by squaring. -/
def log2Bits (one : Nat) : Nat → Nat → Nat → Nat
  | 0, _, acc => acc
  | fuel + 1, x, acc =>
    let y := x * x / one
    if 2 * one ≤ y then log2Bits one fuel (y / 2) (2 * acc + 1) else log2Bits one fuel y (2 * acc)

/-- log₂ (m × 2^e) for m ≠ 0: sign, magnitude, exponent. Exact when m is a power of two. -/
def log2Dy (m : Nat) (e : Int) : Bool × Nat × Int :=
  let k := Nat.log2 m
  let i : Int := (k : Int) + e
  if m = 2 ^ k then (decide (i < 0), i.natAbs, 0)
  else
    let one := 2 ^ 480
    let bits := log2Bits one 200 (m * one / 2 ^ k) 0
    -- i + bits × 2^-200, with a sticky bit
    let v : Int := (i * 2 ^ 200 + bits) * 2 + 1
    (decide (v < 0), v.natAbs, -201)

/-- Σ (−1)^k t^(2k) ÷ (2k + 1)! with t² given: the terms alternate from the one given. -/
def sincTerms (t2 : Nat) : Nat → Nat → Nat → Int
  | 0, _, _ => 0
  | fuel + 1, k, t => (t : Int) - sincTerms t2 fuel (k + 1) (fixMul t t2 / ((2 * k) * (2 * k + 1)))

/-- sin(π y) for a dyadic 0 < y < 1/2, as magnitude and exponent. -/
def sinPiDy (m : Nat) (e : Int) : Nat × Int :=
  let y := (mantAt false m e (min e (-(fixBits : Int)))).toNat / 2 ^ ((-(fixBits : Int)) - min e (-(fixBits : Int))).toNat
  let t := fixMul fixPi y
  let q := (sincTerms (fixMul t t) 60 1 fixOne).toNat
  let (s, x) := fixSticky (fixMul q fixPi)
  (2 * (s * m) + 1, x + e - 1)

/-- x mod 2 of a dyadic magnitude, as a number in units of 2^q, q ≤ 0, with q. -/
def modTwo (m : Nat) (e : Int) : Nat × Int :=
  if 1 ≤ e then (0, 0)
  else if e = 0 then (m % 2, 0)
  else (m % 2 ^ (1 + (-e).toNat), e)

/-- sin(π r) for r = n × 2^q in [0, 2): exact zeros and ±1, else the sticky value. -/
def sinTurn (n : Nat) (q : Int) : Bool × Nat × Int :=
  let one := 2 ^ (-q).toNat
  let (neg, n) := if one ≤ n then (true, n - one) else (false, n)
  -- symmetric about 1/2
  let n := if one < 2 * n then one - n else n
  if n = 0 then (false, 0, 0)
  else if 2 * n = one then (neg, 1, 0)
  else
    let (s, x) := sinPiDy n q
    (neg, s, x)

end Sys2Proof.Machine
end

