-- ==== Sys2Proof/WellFormed.lean ====
section
/-! DEFINITION. What an instruction must satisfy beyond its typed fields: target slots (R63), even pairs and aligned bases (R5, R62, R64), legal sizes and codes (R60). An encoding that breaks it raises ILLEGAL_OPCODE. For an event, the ranges of its names. -/

namespace Sys2Proof

/-- A pair names an even register (R5). -/
def evenReg (r : XReg) : Bool := r.toNat % 2 == 0

/-- A base is a multiple of `k` (R62, R240, R325). -/
def alignedReg (k : Nat) (r : XReg) : Bool := r.toNat % k == 0

/-- A target slot is 0 to 4 (R63). -/
def slotOk (s : Slot) : Bool := s.toNat ≤ 4

def Size.bytes : Size → Nat
  | .b1 => 1 | .b2 => 2 | .b4 => 4 | .b8 => 8 | .b16 => 16

/-- Data registers of an access (Table 3.10). -/
def Size.regs : Size → Nat
  | .b1 => 1 | .b2 => 1 | .b4 => 1 | .b8 => 2 | .b16 => 4

/-- A data register is aligned to its register count (R64). -/
def dataReg (sz : Size) (r : XReg) : Bool := r.toNat % sz.regs == 0

def Size.word48 : Size → Bool
  | .b4 => true | .b8 => true | _ => false

/-- Sizes each atomic operation allows (Table 15.3). -/
def AtomOp.sizeOk (op : AtomOp) (sz : Size) : Bool :=
  match op with
  | .fadd | .fmin | .fmax | .pkaddh | .pkaddb | .inc | .dec => sz == .b4
  | _ => sz.word48

def AtomOp.isCas : AtomOp → Bool
  | .cas _ => true
  | _ => false

/-- The operations RED takes (Table 15.3). -/
def AtomOp.redOk : AtomOp → Bool
  | .exch | .inc | .dec | .cas _ => false
  | _ => true

/-- FTZ is legal with the FP32 operations only (R253). -/
def RedOp.isF32 : RedOp → Bool
  | .fadd | .fmin | .fmax => true
  | _ => false

def NFmt.wide : NFmt → Bool
  | .f16 | .bf16 => true
  | _ => false

/-- Operations each LDG type takes, and the size of .MINI (R367). -/
def ldgOk (op : LdgOp) (ty : LdgTy) (sz : Size) : Bool :=
  (match sz with | .b4 | .b8 | .b16 => true | _ => false) &&
  (match op, ty with
   | .add, _ | .min, _ | .max, _ => true
   | .mini, .s32 | .mini, .f32 => sz == .b4
   | .and, .s32 | .or, .s32 | .xor, .s32 => true
   | _, _ => false)

/-- Width of the system registers of Table 19.16: `some true` is 64 bits; `none` is a number the table does not list (R409). -/
def sysRegW64 (n : Nat) : Option Bool :=
  if n ≤ 0x007 then some false
  else if n ≤ 0x009 then some true
  else if n ≤ 0x00D then some false
  else if n < 0x010 then none
  else if n ≤ 0x011 then some false
  else if n ≤ 0x016 then some true
  else if n == 0x018 then some false
  else if n == 0x019 then some true
  else if n < 0x020 then none
  else if n ≤ 0x021 then some false
  else if n == 0x022 then some true
  else if n ≤ 0x025 then some false
  else if n == 0x026 then some true
  else if n == 0x027 then some false
  else if n ≤ 0x02B then some true
  else if n < 0x030 then none
  else if n ≤ 0x034 then some true
  else if n < 0x038 then none
  else if n ≤ 0x03B then some false
  else if n < 0x040 then none
  else if n ≤ 0x05F then some true
  else if n ≤ 0x06F then some false
  else if n ≤ 0x077 then some true
  else if n < 0x080 then none
  else if n ≤ 0x0BF then some false
  else none

/-- SRD and SWR name a listed register with its own width, and a pair is even (R409). -/
def sysOk (w64 : Bool) (r : XReg) (n : BitVec 12) : Bool :=
  sysRegW64 n.toNat == some w64 && (!w64 || evenReg r)

/-- A thread's name is one the module can hold: lanes and groups below 32 (Terms, R26), cores below 4,224 (R8). -/
def Tid.ok : Tid → Bool
  | .thr _ _ _ g l => decide (g < 32) && decide (l < 32)
  | .scalar c => decide (c < 4224)

/-- A request from Renet stays in one line of the IA space (R256, R441). -/
def FabricReq.ok : FabricReq → Bool
  | .read ia n => decide (ia < 2 ^ 52) && decide (0 < n) && decide (ia % 64 + n ≤ 64)
  | .write ia d => decide (ia < 2 ^ 52) && decide (0 < d.length) && decide (ia % 64 + d.length ≤ 64)
  | .atomic _ ia n _ _ => decide (ia < 2 ^ 52) && (n == 4 || n == 8) && ia % n == 0
  | .scratch _ _ core _ _ => decide (core < 4224)
  | .subscribe _ ia n => decide (ia + n ≤ 2 ^ 52) && ia % 64 == 0 && n % 64 == 0 && decide (0 < n) && decide (n ≤ 2 ^ 20)
  | .unsubscribe _ => true

def barSize (n : Nat) : Bool := n == 1 || n == 2 || n == 4 || n == 8

/-- The checks of an instruction or an event. -/
def Instr.wellFormed : Instr → Bool
  | .bra _ _ s | .yield _ _ s => slotOk s
  | .brx _ a | .ret _ a => evenReg a
  | .call _ d _ s => evenReg d && slotOk s
  | .callx _ d a => evenReg d && evenReg a
  | .imadw _ _ d _ _ c => evenReg d && evenReg c
  | .idiv _ _ sg _ _ _ | .irem _ _ sg _ _ _ | .imin _ sg _ _ _ | .imax _ sg _ _ _ => sg != .su
  | .mov _ d (.reg64 a) => evenReg d && evenReg a
  | .mov _ d (.imm64 _) => evenReg d
  | .lea _ w32 _ d a _ _ _ => w32 || (evenReg d && evenReg a)
  | .packn _ _ fmt _ _ a b => fmt.wide || (alignedReg 4 a && b == 0)
  | .unpackn _ fmt d _ => if fmt.wide then evenReg d else alignedReg 4 d
  | .qblk _ _ _ d _ c _ => alignedReg 4 d && (decide (c.toNat < d.toNat) || decide (d.toNat + 3 < c.toNat))
  | .dqblk _ _ _ _ a _ _ => alignedReg 4 a
  | .shfl _ _ wid _ _ _ b _ => decide (wid.toNat ≤ 5) &&
      (match b with | .imm v => decide (v.toNat < 32) | .reg _ => true)
  | .matchx _ w64 _ _ a => !w64 || evenReg a
  | .redux _ ftz op _ _ | .scan _ _ ftz op _ _ => !ftz || op.isF32
  | .redix _ ftz _ _ ty d _ => evenReg d && (!ftz || ty == .f32)
  | .lds _ _ sx sz d _ => dataReg sz d && (!sx || sz == .b1 || sz == .b2)
  | .sts _ _ sz d _ => dataReg sz d
  | .atoms _ _ op sz d _ b => op.sizeOk sz && dataReg sz d && dataReg sz b &&
      (match op with | .cas c => dataReg sz c | _ => true)
  | .ldc _ sx _ sz d m => dataReg sz d && evenReg m.a && (!sx || sz == .b1 || sz == .b2)
  | .st _ _ sz d m => dataReg sz d && evenReg m.a
  | .atomc _ op sz d m b => op.sizeOk sz && !op.isCas && dataReg sz d && dataReg sz b && evenReg m.a
  | .red _ op sz d m => op.sizeOk sz && op.redOk && dataReg sz d && evenReg m.a
  | .casc _ sz d m b c => sz.word48 && dataReg sz d && dataReg sz b && dataReg sz c && evenReg m.a
  | .lr _ sz d m | .sc _ sz d m _ => sz.word48 && dataReg sz d && evenReg m.a
  | .pref _ _ m | .unsub _ m | .subs _ _ m _ | .launch _ _ _ m => evenReg m.a
  | .stm _ sz d m b _ => dataReg sz d && evenReg m.a && evenReg b
  | .cpy _ a | .gath _ a | .scat _ a | .fill _ a | .mxs _ a | .coll _ a | .cpyr _ a _ _
  | .qpush _ _ _ a _ | .winset _ _ a => alignedReg 8 a
  | .qpop _ d _ | .qpopNb _ d _ _ => alignedReg 8 d
  | .talloc _ _ _ n => decide (1 ≤ n.toNat) && decide (n.toNat ≤ 1024)
  | .ldg _ op ty sz d _ _ _ => ldgOk op ty sz && dataReg sz d && (op != .mini || evenReg d)
  | .cbr _ _ _ _ _ _ s => slotOk s
  | .seg _ _ _ _ _ s => slotOk s
  | .spawn _ _ a | .mbox _ _ a _ => alignedReg 16 a
  | .evqpop _ d | .evqpopNb _ d | .errlogPop _ d => alignedReg 4 d
  | .rbegin _ _ _ s => slotOk s
  | .srd _ w64 d n => sysOk w64 d n
  | .swr _ w64 a n => sysOk w64 a n
  | .imageLoad _ f => f.base % 64 == 0
  | .lineStart t | .flagOperationComplete t _ _ | .trappcWrite t _ | .serviceTimeout t | .watchdog t
  | .remoteWaitTimeout t | .ptsAdvance t | .reservationExpire t | .scAnswer t | .regionCommitDone t
  | .winsetPropagated t => t.ok
  | .dispatchPick c | .scalarThreadBind c _ _ _ _ | .sideLogPerform c | .fenceMarkerPerform c => decide (c < 4224)
  | .regulatorDrain c b => decide (c < 4224) && decide (b < 64)
  | .engineLineWrite c k | .engineLineFault c k | .collResult c k _ _ => decide (c < 4224) && decide (k < 64)
  | .engineQueueTake _ _ _ q => decide (q < 16)
  | .coreReservation d | .dieLost d | .subsActivate d _ | .subsRefuse d _ | .subsMulticast d _ _ _ => decide (d < 24)
  | .aperWrite d _ => decide (d < 24)
  | .thermalCritical d => decide (d < 37)
  | .migrationStart c _ | .migrationCopyDone c _ => decide (c < 4)
  | .xresolve g | .xresolveAbandon g => decide (g < 2 ^ 40)
  | .hostBarRead fn bar off n => decide (fn ≤ 24) && (bar == 0 || bar == 2) && barSize n && off % n == 0
  | .hostBarWrite fn bar off data => decide (fn ≤ 24) && (bar == 0 || bar == 2) && barSize data.length && off % data.length == 0
  | .functionLevelReset fn | .keyExchange fn | .tdispRequest fn _ => decide (fn ≤ 24)
  | .cxlDeviceLost p => decide (1 ≤ p) && decide (p ≤ 4)
  | .linkFault p | .linkTrained p _ | .retrainRoundExpiry p | .deadRoundOne p | .deadRoundTwo p | .deadRoundThree p
  | .linkRetrainedByManagement p | .flitCrcRetry p => decide (p < 16)
  | .linkStateUpdate m _ => decide (m < 4096)
  | .cgdefWrite _ k _ => decide (k < 4)
  | .queueCreate _ _ base k _ => base % 4096 == 0 && decide (4 ≤ k) && decide (k ≤ 16)
  | .fabricRequest _ _ a => decide (a.hops ≤ 4) && a.req.ok
  | .partitionTimeout c _ => decide (c < 45)
  | .contextCreate _ f => decide (f.die < 24)
  | _ => true

end Sys2Proof
end

