-- ==== Sys2Proof/Decode.lean ====
section
/-! DEFINITION. The encodings of Freral: the fields of the 96-bit word (Table 3.6), the parser of each opcode (Table 3.9 and the encoding tables of each chapter), the decoder with its errors, and the encoder written from the same tables. -/

namespace Sys2Proof

/-- The fields of an instruction word (Table 3.6). -/
structure Fields where
  op : BitVec 8
  grd : BitVec 6
  gn : Bool
  fs : Bool
  sub : BitVec 8
  d : BitVec 8
  a : BitVec 8
  b : BitVec 8
  c : BitVec 8
  e : BitVec 8
  imm : BitVec 32
deriving DecidableEq, Repr

/-- Why a word is no instruction (R60). Each of these raises ILLEGAL_OPCODE. -/
inductive DecodeError where
  /-- an OP that Table 3.9 leaves unassigned, 0xFF among them -/
  | unassigned
  /-- a code in SUB, E or another field that the instruction does not define -/
  | badCode
  /-- a field, or a bit of a field, that the instruction does not use is not zero -/
  | unusedBits
  /-- an odd pair, a misaligned base, a target slot above 4 or another operand outside its limits -/
  | illFormed
deriving DecidableEq, Repr

def Fields.ofBits (w : Code) : Fields where
  op := w.extractLsb' 88 8
  grd := w.extractLsb' 82 6
  gn := w.getLsbD 81
  fs := w.getLsbD 80
  sub := w.extractLsb' 72 8
  d := w.extractLsb' 64 8
  a := w.extractLsb' 56 8
  b := w.extractLsb' 48 8
  c := w.extractLsb' 40 8
  e := w.extractLsb' 32 8
  imm := w.extractLsb' 0 32

def Fields.toBits (f : Fields) : Code :=
  f.op ++ f.grd ++ BitVec.ofBool f.gn ++ BitVec.ofBool f.fs ++ f.sub ++ f.d ++ f.a ++ f.b ++ f.c ++ f.e ++ f.imm

/-! ### Codes of the fields -/

def AddMode.code : AddMode → Nat
  | .wrap => 0 | .carry _ => 1 | .sat => 2 | .usat => 3
def AddMode.pe : AddMode → BitVec 8
  | .carry e => e.setWidth 8
  | _ => 0
def Sign.code : Sign → Nat
  | .s => 0 | .u => 1 | .su => 2
def Sign.ofCode : Nat → Option Sign
  | 0 => some .s | 1 => some .u | 2 => some .su | _ => none
def Cond.code : Cond → Nat
  | .eq => 0 | .ne => 1 | .lt => 2 | .le => 3 | .gt => 4 | .ge => 5
def Cond.ofCode : Nat → Option Cond
  | 0 => some .eq | 1 => some .ne | 2 => some .lt | 3 => some .le | 4 => some .gt | 5 => some .ge | _ => none
def FCond.code : FCond → Nat
  | .eq => 0 | .ne => 1 | .lt => 2 | .le => 3 | .gt => 4 | .ge => 5 | .num => 6 | .nan => 7
def FCond.ofCode : Nat → FCond
  | 0 => .eq | 1 => .ne | 2 => .lt | 3 => .le | 4 => .gt | 5 => .ge | 6 => .num | _ => .nan
def Fold.code : Fold → Nat
  | .none => 0 | .and _ => 1 | .or _ => 2 | .xor _ => 3
def Fold.pc : Fold → BitVec 8
  | .none => 0 | .and c => c.setWidth 8 | .or c => c.setWidth 8 | .xor c => c.setWidth 8
def Fold.ofCode (c : BitVec 8) : Nat → Fold
  | 0 => .none | 1 => .and (c.setWidth 6) | 2 => .or (c.setWidth 6) | _ => .xor (c.setWidth 6)
def RM.code : RM → Nat
  | .rne => 0 | .rtz => 1 | .rup => 2 | .rdn => 3
def RM.ofCode : Nat → RM
  | 0 => .rne | 1 => .rtz | 2 => .rup | _ => .rdn
def IFmt.code : IFmt → Nat
  | .f32 => 0 | .f16 => 1 | .bf16 => 2
def IFmt.ofCode : Nat → Option IFmt
  | 0 => some .f32 | 1 => some .f16 | 2 => some .bf16 | _ => none
def FSrc.code : FSrc → Nat
  | .f32 => 0 | .f16 _ => 1 | .bf16 _ => 2
def FSrc.h : FSrc → Bool
  | .f32 => false | .f16 h => h | .bf16 h => h
/-- H set where the source is FP32 is illegal (R219). -/
def FSrc.ofCode (h : Bool) : Nat → Option FSrc
  | 0 => if h then none else some .f32
  | 1 => some (.f16 h)
  | 2 => some (.bf16 h)
  | _ => none
def NFmt.code : NFmt → Nat
  | .f16 => 1 | .bf16 => 2 | .e4m3 => 3 | .e5m2 => 4 | .i8 => 6
def NFmt.ofCode : Nat → Option NFmt
  | 1 => some .f16 | 2 => some .bf16 | 3 => some .e4m3 | 4 => some .e5m2 | 6 => some .i8 | _ => none
def ITarget.code : ITarget → Nat
  | .s8 => 0 | .u8 => 1 | .s16 => 2 | .u16 => 3 | .s32 => 4 | .u32 => 5
def ITarget.ofCode : Nat → Option ITarget
  | 0 => some .s8 | 1 => some .u8 | 2 => some .s16 | 3 => some .u16 | 4 => some .s32 | 5 => some .u32 | _ => none
def ShflMode.code : ShflMode → Nat
  | .lane => 0 | .back => 1 | .ahead => 2 | .mirror => 3
def ShflMode.ofCode : Nat → ShflMode
  | 0 => .lane | 1 => .back | 2 => .ahead | _ => .mirror
def VoteForm.code : VoteForm → Nat
  | .every _ => 0 | .any _ => 1 | .same _ => 2 | .mask _ => 3
def VoteForm.dest : VoteForm → BitVec 8
  | .every d => d.setWidth 8 | .any d => d.setWidth 8 | .same d => d.setWidth 8 | .mask d => d
def VoteForm.ofCode (d : BitVec 8) : Nat → VoteForm
  | 0 => .every (d.setWidth 6) | 1 => .any (d.setWidth 6) | 2 => .same (d.setWidth 6) | _ => .mask d
def LaneKind.code : LaneKind → Nat
  | .self => 0 | .below => 1 | .thru => 2 | .above => 3 | .onward => 4 | .parts => 5 | .others => 6
def LaneKind.ofCode : Nat → Option LaneKind
  | 0 => some .self | 1 => some .below | 2 => some .thru | 3 => some .above | 4 => some .onward
  | 5 => some .parts | 6 => some .others | _ => none
def RedOp.code : RedOp → Nat
  | .add => 0 | .min => 1 | .max => 2 | .umin => 3 | .umax => 4 | .and => 5 | .or => 6 | .xor => 7
  | .fadd => 8 | .fmin => 9 | .fmax => 10 | .pkaddh => 11 | .pkaddb => 12
def RedOp.ofCode : Nat → Option RedOp
  | 0 => some .add | 1 => some .min | 2 => some .max | 3 => some .umin | 4 => some .umax | 5 => some .and
  | 6 => some .or | 7 => some .xor | 8 => some .fadd | 9 => some .fmin | 10 => some .fmax | 11 => some .pkaddh
  | 12 => some .pkaddb | _ => none
def RedixTy.code : RedixTy → Nat
  | .s32 => 0 | .u32 => 1 | .f32 => 2
def RedixTy.ofCode : Nat → Option RedixTy
  | 0 => some .s32 | 1 => some .u32 | 2 => some .f32 | _ => none
def Size.code : Size → Nat
  | .b1 => 0 | .b2 => 1 | .b4 => 2 | .b8 => 3 | .b16 => 4
def Size.ofCode : Nat → Option Size
  | 0 => some .b1 | 1 => some .b2 | 2 => some .b4 | 3 => some .b8 | 4 => some .b16 | _ => none
def AtomOp.code : AtomOp → Nat
  | .add => 0 | .min => 1 | .max => 2 | .umin => 3 | .umax => 4 | .and => 5 | .or => 6 | .xor => 7
  | .fadd => 8 | .fmin => 9 | .fmax => 10 | .pkaddh => 11 | .pkaddb => 12
  | .exch => 13 | .inc => 14 | .dec => 15 | .cas _ => 16
def AtomOp.c : AtomOp → BitVec 8
  | .cas c => c
  | _ => 0
def AtomOp.ofCode (c : BitVec 8) : Nat → Option AtomOp
  | 0 => some .add | 1 => some .min | 2 => some .max | 3 => some .umin | 4 => some .umax | 5 => some .and
  | 6 => some .or | 7 => some .xor | 8 => some .fadd | 9 => some .fmin | 10 => some .fmax | 11 => some .pkaddh
  | 12 => some .pkaddb | 13 => some .exch | 14 => some .inc | 15 => some .dec | 16 => some (.cas c) | _ => none
def FenceDom.code : FenceDom → Nat
  | .fab => 1 | .sys => 2 | .all => 3
def FenceDom.ofCode : Nat → Option FenceDom
  | 1 => some .fab | 2 => some .sys | 3 => some .all | _ => none
def PrefLevel.code : PrefLevel → Nat
  | .l1 => 0 | .cc => 1 | .l2 => 2
def PrefLevel.ofCode : Nat → Option PrefLevel
  | 0 => some .l1 | 1 => some .cc | 2 => some .l2 | _ => none
def LdgOp.code : LdgOp → Nat
  | .add => 0 | .min => 1 | .max => 2 | .mini => 3 | .and => 4 | .or => 5 | .xor => 6
def LdgOp.ofCode : Nat → Option LdgOp
  | 0 => some .add | 1 => some .min | 2 => some .max | 3 => some .mini | 4 => some .and | 5 => some .or
  | 6 => some .xor | _ => none
def LdgTy.code : LdgTy → Nat
  | .s32 => 0 | .f32 => 1 | .f16x2 => 2 | .bf16x2 => 3
def LdgTy.ofCode : Nat → LdgTy
  | 0 => .s32 | 1 => .f32 | 2 => .f16x2 | _ => .bf16x2
def MbrdSel.code : MbrdSel → Nat
  | .epoch => 0 | .groups => 1 | .mods => 2 | .self => 3
def MbrdSel.ofCode : Nat → MbrdSel
  | 0 => .epoch | 1 => .groups | 2 => .mods | _ => .self
def ImgFmt.code : ImgFmt → Nat
  | .tile => 0 | .f32 => 1 | .f16 => 2 | .bf16 => 3 | .e4m3 => 4 | .e5m2 => 5
def ImgFmt.ofCode : Nat → Option ImgFmt
  | 0 => some .tile | 1 => some .f32 | 2 => some .f16 | 3 => some .bf16 | 4 => some .e4m3 | 5 => some .e5m2 | _ => none
def EvForm.code : EvForm → Nat
  | .imm _ => 0 | .reg _ => 1 | .mask _ _ => 2
def EvForm.a : EvForm → BitVec 8
  | .imm _ => 0 | .reg a => a | .mask a _ => a
def EvForm.imm32 : EvForm → BitVec 32
  | .imm n => n.setWidth 32 | .reg _ => 0 | .mask _ k => k.setWidth 32
def EvForm.ofCode (a : BitVec 8) (imm : Word) : Nat → Option EvForm
  | 0 => some (.imm (imm.setWidth 8)) | 1 => some (.reg a) | 2 => some (.mask a (imm.setWidth 3)) | _ => none

/-- The I bit of an operand that an immediate may replace (R173). -/
def Src.i : Src → Bool
  | .reg _ => false | .imm _ => true
def Src.r : Src → BitVec 8
  | .reg r => r | .imm _ => 0
def Src.v : Src → Word
  | .reg _ => 0 | .imm v => v
def Src.ofI (i : Bool) (r : BitVec 8) (v : Word) : Src := if i then .imm v else .reg r

def JVal.code : JVal → Nat
  | .issue => 0 | .imm _ => 1 | .reg _ => 2
def JVal.a : JVal → BitVec 8
  | .reg a => a | _ => 0
def JVal.v : JVal → Word
  | .imm v => v | _ => 0
def JVal.ofCode (a : BitVec 8) (imm : Word) : Nat → Option JVal
  | 0 => some .issue | 1 => some (.imm imm) | 2 => some (.reg a) | _ => none
def MovForm.code : MovForm → Nat
  | .reg _ => 0 | .imm _ => 1 | .reg64 _ => 2 | .imm64 _ => 3
def MovForm.a : MovForm → BitVec 8
  | .reg a => a | .reg64 a => a | _ => 0
def MovForm.v : MovForm → Word
  | .imm v => v | .imm64 v => v | _ => 0
def MovForm.ofCode (a : BitVec 8) (imm : Word) : Nat → MovForm
  | 0 => .reg a | 1 => .imm imm | 2 => .reg64 a | _ => .imm64 imm
def PsetForm.code : PsetForm → Nat
  | .imm _ => 0 | .nz _ => 1 | .bit _ _ => 2
def PsetForm.a : PsetForm → BitVec 8
  | .imm _ => 0 | .nz a => a | .bit a _ => a
def PsetForm.v : PsetForm → Word
  | .imm b => if b then 1 else 0 | .nz _ => 0 | .bit _ i => i.setWidth 32
def PsetForm.ofCode (a : BitVec 8) (imm : Word) : Nat → Option PsetForm
  | 0 => some (.imm (imm.getLsbD 0)) | 1 => some (.nz a) | 2 => some (.bit a (imm.setWidth 5)) | _ => none

/-! ### Instructions to fields -/

/-- Bit `k` of SUB. -/
def subBit (b : Bool) (k : Nat) : Nat := if b then 2 ^ k else 0

/-- The fields of an instruction that uses only its guard and SUB. -/
def Fields.base (op : Nat) (g : Guard) (sub : Nat := 0) (fs : Bool := false) : Fields :=
  { op := BitVec.ofNat 8 op, grd := g.pred, gn := g.neg, fs, sub := BitVec.ofNat 8 sub
    d := 0, a := 0, b := 0, c := 0, e := 0, imm := 0 }

/-- Three-operand form with an immediate in place of B (R173). -/
def Fields.dab (op : Nat) (g : Guard) (sub : Nat) (d a : XReg) (b : Src) (c : BitVec 8 := 0) (e : BitVec 8 := 0)
    (fs : Bool := false) : Fields :=
  { Fields.base op g (subBit b.i 7 + sub) fs with d, a, b := b.r, c, e, imm := b.v }

/-- Memory form (R64). -/
def Fields.mem (op : Nat) (g : Guard) (sub : Nat) (d : BitVec 8) (m : MemOp) (b : BitVec 8 := 0) (c : BitVec 8 := 0)
    (e : BitVec 8 := 0) (fs : Bool := false) : Fields :=
  { Fields.base op g sub fs with d, a := m.a, b, c, e, imm := m.imm }

def p8 (p : PReg) : BitVec 8 := p.setWidth 8

/-- The fields of every instruction. Events have none. -/
def Instr.toFields : Instr → Option Fields
  | .nop g => some (.base 0x00 g)
  | .bra g off s => some { Fields.base 0x01 g with e := s.setWidth 8, imm := off }
  | .brx g a => some { Fields.base 0x02 g with a }
  | .call g d off s => some { Fields.base 0x03 g with d, e := s.setWidth 8, imm := off }
  | .callx g d a => some { Fields.base 0x04 g with d, a }
  | .ret g a => some { Fields.base 0x05 g with a }
  | .jset g j v => some { Fields.base 0x06 g v.code with d := j.setWidth 8, a := v.a, imm := v.v }
  | .jwait g j => some { Fields.base 0x07 g with d := j.setWidth 8 }
  | .jleave g j => some { Fields.base 0x08 g with d := j.setWidth 8 }
  | .exit g => some (.base 0x09 g)
  | .brk g code => some { Fields.base 0x0A g with imm := code.setWidth 32 }
  | .trap g code => some { Fields.base 0x0B g with imm := code.setWidth 32 }
  | .hint g p r l => some { Fields.base 0x0C g (subBit p 0) with
      d := r, a := l.extractLsb' 56 8, b := l.extractLsb' 48 8, c := l.extractLsb' 40 8, e := l.extractLsb' 32 8
      imm := l.extractLsb' 0 32 }
  | .iadd g m d a b => some (.dab 0x10 g m.code d a b 0 m.pe)
  | .isub g m d a b => some (.dab 0x11 g m.code d a b 0 m.pe)
  | .iaddc g d a b c e => some (.dab 0x12 g 0 d a b (p8 c) (p8 e))
  | .isubb g d a b c e => some (.dab 0x13 g 0 d a b (p8 c) (p8 e))
  | .imul g d a b => some (.dab 0x14 g 0 d a b)
  | .imulh g sg d a b => some (.dab 0x15 g sg.code d a b)
  | .imad g d a b c => some (.dab 0x16 g 0 d a b c)
  | .imadw g sg d a b c => some (.dab 0x17 g sg.code d a b c)
  | .idiv g fs sg d a b => some (.dab 0x18 g sg.code d a b 0 0 fs)
  | .irem g fs sg d a b => some (.dab 0x19 g sg.code d a b 0 0 fs)
  | .imin g sg d a b => some (.dab 0x1A g sg.code d a b)
  | .imax g sg d a b => some (.dab 0x1B g sg.code d a b)
  | .iabs g sat d a => some { Fields.base 0x1C g (subBit sat 0) with d, a }
  | .and g d a b => some (.dab 0x1D g 0 d a b)
  | .or g d a b => some (.dab 0x1E g 0 d a b)
  | .xor g d a b => some (.dab 0x1F g 0 d a b)
  | .andn g d a b => some (.dab 0x20 g 0 d a b)
  | .not g d a => some { Fields.base 0x21 g with d, a }
  | .shl g w d a b => some (.dab 0x22 g (subBit w 0) d a b)
  | .shr g w d a b => some (.dab 0x23 g (subBit w 0) d a b)
  | .sar g w d a b => some (.dab 0x24 g (subBit w 0) d a b)
  | .rotl g d a b => some (.dab 0x25 g 0 d a b)
  | .funnel g w r d a b c => some { Fields.base 0x26 g (subBit c.i 7 + subBit w 1 + subBit r 0) with
      d, a, b, c := c.r, imm := c.v }
  | .clz g s d a => some { Fields.base 0x27 g (subBit s 0) with d, a }
  | .popc g d a => some { Fields.base 0x28 g with d, a }
  | .brev g d a => some { Fields.base 0x29 g with d, a }
  | .bfx g s d a b => some (.dab 0x2A g (subBit s 0) d a b)
  | .bfi g d a b c => some (.dab 0x2B g 0 d a b c)
  | .isetp g u fold cond d a b e => some (.dab 0x2C g (subBit u 6 + 16 * fold.code + cond.code) (p8 d) a b fold.pc (p8 e))
  | .sel g d a b c => some (.dab 0x2D g 0 d a b (p8 c))
  | .mov g d f => some { Fields.base 0x2E g f.code with d, a := f.a, imm := f.v }
  | .lea g w u d a b sh off => some { Fields.base 0x2F g (subBit w 1 + subBit u 0) with
      d, a, b, e := sh.setWidth 8, imm := off }
  | .plop g tab d a b c => some { Fields.base 0x30 g with sub := tab, d := p8 d, a := p8 a, b := p8 b, c := p8 c }
  | .p2x g h d => some { Fields.base 0x31 g (subBit h 0) with d }
  | .x2p g h a mask => some { Fields.base 0x32 g (subBit h 0) with a, imm := mask }
  | .pset g d f => some { Fields.base 0x33 g f.code with d := p8 d, a := f.a, imm := f.v }
  | .fadd g z rm d a b => some (.dab 0x38 g (subBit z 2 + rm.code) d a b)
  | .fsub g z rm d a b => some (.dab 0x39 g (subBit z 2 + rm.code) d a b)
  | .fmul g z rm d a b => some (.dab 0x3A g (subBit z 2 + rm.code) d a b)
  | .ffma g z rm d a b c => some (.dab 0x3B g (subBit z 2 + rm.code) d a b c)
  | .fmin g z d a b => some (.dab 0x3C g (subBit z 2) d a b)
  | .fmax g z d a b => some (.dab 0x3D g (subBit z 2) d a b)
  | .fsetp g z fold cond d a b e => some (.dab 0x3E g (subBit z 6 + 16 * fold.code + cond.code) (p8 d) a b fold.pc (p8 e))
  | .fclass g s d a => some { Fields.base 0x3F g (subBit s.h 2 + s.code) with d, a }
  | .frcp g fs z rm d a => some { Fields.base 0x40 g (subBit z 2 + rm.code) fs with d, a }
  | .frsq g fs z rm d a => some { Fields.base 0x41 g (subBit z 2 + rm.code) fs with d, a }
  | .fsqrt g fs z rm d a => some { Fields.base 0x42 g (subBit z 2 + rm.code) fs with d, a }
  | .fexp2 g fs z rm d a => some { Fields.base 0x43 g (subBit z 2 + rm.code) fs with d, a }
  | .flog2 g fs z rm d a => some { Fields.base 0x44 g (subBit z 2 + rm.code) fs with d, a }
  | .fsin g fs z rm d a => some { Fields.base 0x45 g (subBit z 2 + rm.code) fs with d, a }
  | .fcos g fs z rm d a => some { Fields.base 0x46 g (subBit z 2 + rm.code) fs with d, a }
  | .fdiv g fs z rm d a b => some (.dab 0x47 g (subBit z 2 + rm.code) d a b 0 0 fs)
  | .pkadd g bf rm d a b => some (.dab 0x48 g (subBit bf 3 + rm.code) d a b)
  | .pkmul g bf rm d a b => some (.dab 0x49 g (subBit bf 3 + rm.code) d a b)
  | .pkfma g bf rm d a b c => some (.dab 0x4A g (subBit bf 3 + rm.code) d a b c)
  | .pkmin g bf d a b => some (.dab 0x4B g (subBit bf 3) d a b)
  | .pkmax g bf d a b => some (.dab 0x4C g (subBit bf 3) d a b)
  | .pksetp g bf cond d a b e => some (.dab 0x4D g (subBit bf 3 + cond.code) (p8 d) a b 0 (p8 e))
  | .fscale g z rm d a b => some (.dab 0x4E g (subBit z 2 + rm.code) d a b)
  | .frnd g z rm d a => some { Fields.base 0x4F g (subBit z 2 + rm.code) with d, a }
  | .dot2 g bf z rm d a b c => some (.dab 0x50 g (subBit bf 3 + subBit z 2 + rm.code) d a b c)
  | .fmtrd g d k => some { Fields.base 0x51 g with d, e := k.setWidth 8 }
  | .f2i g z u s rm d a => some { Fields.base 0x60 g (subBit z 6 + subBit u 5 + subBit s.h 4 + 4 * s.code + rm.code) with d, a }
  | .i2f g u r rm d a => some { Fields.base 0x61 g (subBit u 5 + 4 * r.code + rm.code) with d, a }
  | .f2f g z r s rm d a => some { Fields.base 0x62 g (subBit z 7 + subBit s.h 6 + 16 * r.code + 4 * s.code + rm.code) with d, a }
  | .packn g z f rm d a b => some { Fields.base 0x63 g (subBit z 5 + 4 * f.code + rm.code) with d, a, b }
  | .unpackn g f d a => some { Fields.base 0x64 g (4 * f.code) with d, a }
  | .bscale g inv z rm d a b k => some { Fields.base 0x65 g (subBit inv 3 + subBit z 2 + rm.code) with
      d, a, b, e := k.setWidth 8 }
  | .qblk g z s d a c k => some { Fields.base 0x66 g (subBit z 2 + s.code) with d, a, c, e := k.setWidth 8 }
  | .dqblk g z r d a c k => some { Fields.base 0x67 g (subBit z 2 + r.code) with d, a, c, e := k.setWidth 8 }
  | .i2i g sat uin t d a => some { Fields.base 0x68 g (subBit sat 4 + subBit uin 3 + t.code) with d, a }
  | .shfl g fl wid mode d a b e =>
      some (.dab 0x70 g (subBit fl.isSome 5 + 4 * wid.toNat + mode.code) d a b (fl.getD 0) (p8 e))
  | .vote g neg f a => some { Fields.base 0x71 g (subBit neg 2 + f.code) with d := f.dest, a := p8 a }
  | .matchx g w all d a => some { Fields.base 0x72 g (subBit w 1 + subBit all.isSome 0) with d, a, e := p8 (all.getD 0) }
  | .redux g z op d a => some { Fields.base 0x73 g (subBit z 4 + op.code) with d, a }
  | .redix g z xi mx ty d a => some { Fields.base 0x74 g (subBit z 4 + subBit xi.isSome 3 + subBit mx 2 + ty.code) with
      d, a, b := xi.getD 0 }
  | .scan g x z op d a => some { Fields.base 0x75 g (subBit x 5 + subBit z 4 + op.code) with d, a }
  | .elect g w e => some { Fields.base 0x76 g (subBit w.isSome 0) with d := w.getD 0, e := p8 e }
  | .lanemask g k d => some { Fields.base 0x77 g k.code with d }
  | .lds g fs sx sz d m => some (.mem 0x80 g (subBit sx 5 + sz.code) d m 0 0 0 fs)
  | .sts g fs sz d m => some (.mem 0x81 g sz.code d m 0 0 0 fs)
  | .atoms g fs op sz d m b => some (.mem 0x82 g sz.code d m b op.c (BitVec.ofNat 8 op.code) fs)
  | .ldc g sx h sz d m => some (.mem 0x83 g (subBit sx 5 + 8 * h.toNat + sz.code) d m)
  | .st g h sz d m => some (.mem 0x84 g (8 * h.toNat + sz.code) d m)
  | .atomc g op sz d m b => some (.mem 0x85 g sz.code d m b op.c (BitVec.ofNat 8 op.code))
  | .red g op sz d m => some (.mem 0x86 g sz.code d m 0 op.c (BitVec.ofNat 8 op.code))
  | .casc g sz d m b c => some (.mem 0x87 g sz.code d m b c)
  | .lr g sz d m => some (.mem 0x88 g sz.code d m)
  | .sc g sz d m e => some (.mem 0x89 g sz.code d m 0 0 (p8 e))
  | .fence g dom => some (.base 0x8A g dom.code)
  | .pref g l m => some (.mem 0x8B g (8 * l.code) 0 m)
  | .subs g d m b => some (.mem 0x8C g 0 d m b)
  | .unsub g m => some (.mem 0x8D g 0 0 m)
  | .stm g sz d m b c => some (.mem 0x8E g sz.code d m b c)
  | .cpy g a => some { Fields.base 0xA0 g with a }
  | .gath g a => some { Fields.base 0xA1 g with a }
  | .scat g a => some { Fields.base 0xA2 g with a }
  | .binit g m b c => some (.mem 0xA3 g 0 0 m b c)
  | .barr g m b => some (.mem 0xA4 g 0 0 m b)
  | .bwait g m b => some (.mem 0xA5 g 0 0 m b)
  | .qpush g fs q a e => some { Fields.base 0xA6 g 0 fs with d := q.setWidth 8, a, e := p8 e }
  | .qpop g d q => some { Fields.base 0xA7 g with d, a := q.setWidth 8 }
  | .qpopNb g d q e => some { Fields.base 0xA7 g 1 with d, a := q.setWidth 8, e := p8 e }
  | .qstat g d q => some { Fields.base 0xA8 g with d, a := q.setWidth 8 }
  | .fill g a => some { Fields.base 0xA9 g with a }
  | .cpyr g a b k => some { Fields.base 0xAA g with a, b, e := k.setWidth 8 }
  | .mxs g a => some { Fields.base 0xAB g with a }
  | .coll g a => some { Fields.base 0xAC g with a }
  | .mmaq g fs neg acc d a b c k bq => some (mma 0xB0 g fs neg acc d a b c k bq)
  | .mmaz g fs neg acc d a b c k bq => some (mma 0xB1 g fs neg acc d a b c k bq)
  | .talloc g d e n => some { Fields.base 0xB2 g with d, e := p8 e, imm := n.setWidth 32 }
  | .tfree g => some (.base 0xB3 g)
  | .tld g fs t d m => some (.mem 0xB4 g t.code d m 0 0 0 fs)
  | .tst g fs img t d m => some (.mem 0xB5 g (4 * img.code + t.code) d m 0 0 0 fs)
  | .tzero g fs t d => some { Fields.base 0xB6 g t.code fs with d }
  | .tspill g fs d m n => some (.mem 0xB7 g 0 d m 0 0 (n.setWidth 8) fs)
  | .tfill g fs d m n => some (.mem 0xB8 g 0 d m 0 0 (n.setWidth 8) fs)
  | .frags g fs res t d a => some { Fields.base 0xB9 g (4 * res.code + t.code) fs with d, a }
  | .tsig g fs t d a => some { Fields.base 0xBA g t.code fs with d, a }
  | .ldg g op ty sz d m cg e => some (.mem 0xC0 g (32 * op.code + 8 * ty.code + sz.code) d m (cg.setWidth 8) 0 (p8 e))
  | .cbr g all pt a m off s => some { Fields.base 0xC1 g (subBit all 0 + subBit pt 1) with
      a := p8 a, b := m.setWidth 8, e := s.setWidth 8, imm := off }
  | .csync g ra m => some { Fields.base 0xC2 g (subBit ra 0) with a := m.setWidth 8 }
  | .mbrd g sl d m => some { Fields.base 0xC3 g sl.code with d, a := m.setWidth 8 }
  | .gbar g ra cg => some { Fields.base 0xC4 g (subBit ra 0) with a := cg.setWidth 8 }
  | .seg g free d n off s => some { Fields.base 0xD0 g (subBit free 0) with
      d, e := (0 : BitVec 1) ++ n ++ s, imm := off }
  | .yield g off s => some { Fields.base 0xD1 g with e := s.setWidth 8, imm := off }
  | .launch g loc d m => some (.mem 0xD2 g (subBit loc 0) d m)
  | .spawn g d a => some { Fields.base 0xD3 g with d, a }
  | .fwd g b d n => some { Fields.base 0xD4 g (subBit b.isNone 0) with d, b := b.getD 0, e := (0 : BitVec 1) ++ n ++ (0 : BitVec 3) }
  | .mbox g d a b => some { Fields.base 0xD5 g with d, a, b }
  | .evset g f => some { Fields.base 0xD6 g f.code with a := f.a, imm := f.imm32 }
  | .evclr g f => some { Fields.base 0xD7 g f.code with a := f.a, imm := f.imm32 }
  | .evwait g f => some { Fields.base 0xD8 g f.code with a := f.a, imm := f.imm32 }
  | .evqpop g d => some { Fields.base 0xD9 g with d }
  | .evqpopNb g d => some { Fields.base 0xD9 g 1 with d }
  | .rbegin g d off s => some { Fields.base 0xE0 g with d, e := s.setWidth 8, imm := off }
  | .rkeep g a n => some { Fields.base 0xE1 g with a, e := n.setWidth 8 }
  | .rend g => some (.base 0xE2 g)
  | .rabort g => some (.base 0xE3 g)
  | .errlogPop g d => some { Fields.base 0xE4 g with d }
  | .errlogStat g d => some { Fields.base 0xE4 g 1 with d }
  | .errlogInj g k => some { Fields.base 0xE4 g 2 with imm := k.setWidth 32 }
  | .srd g w d n => some { Fields.base 0xE8 g (subBit w 0) with d, imm := n.setWidth 32 }
  | .swr g w a n => some { Fields.base 0xE9 g (subBit w 0) with a, imm := n.setWidth 32 }
  | .tret g => some (.base 0xEA g)
  | .esc g => some (.base 0xEB g)
  | .winset g w a => some { Fields.base 0xEC g with d := w.setWidth 8, a }
  | .winsetClr g w => some { Fields.base 0xEC g 1 with d := w.setWidth 8 }
  | .halt g err => some (.base 0xED g (subBit err 0))
  | .ckpt g d => some { Fields.base 0xEE g with d }
  | _ => none
where
  /-- MMAQ and MMAZ (R66). -/
  mma (op : Nat) (g : Guard) (fs neg : Bool) (acc : IFmt) (d a b c : XReg) (k : FSlot) (bq : Option (BitVec 2)) : Fields :=
    { Fields.base op g (subBit neg 2 + acc.code) fs with
      d, a, b, c, e := (0 : BitVec 2) ++ bq.getD 0 ++ BitVec.ofBool bq.isSome ++ k }

/-! ### Fields to instructions -/

/-- The operands of a field set, extracted as the parsers use them. -/
def Fields.g (f : Fields) : Guard := ⟨f.grd, f.gn⟩
def Fields.bsrc (f : Fields) : Src := .ofI (f.sub.getLsbD 7) f.b f.imm
def Fields.csrc (f : Fields) : Src := .ofI (f.sub.getLsbD 7) f.c f.imm
/-- `n` bits of SUB from bit `k`. -/
def Fields.code (f : Fields) (k n : Nat) : Nat := f.sub.toNat / 2 ^ k % 2 ^ n
def Fields.bit (f : Fields) (k : Nat) : Bool := f.sub.getLsbD k
def Fields.rm (f : Fields) : RM := .ofCode (f.code 0 2)
def Fields.m (f : Fields) : MemOp := ⟨f.a, f.imm⟩
def Fields.slot (f : Fields) : Slot := f.e.setWidth 3
def Fields.pd (f : Fields) : PReg := f.d.setWidth 6
def Fields.pa (f : Fields) : PReg := f.a.setWidth 6
def Fields.pb (f : Fields) : PReg := f.b.setWidth 6
def Fields.pc (f : Fields) : PReg := f.c.setWidth 6
def Fields.pe (f : Fields) : PReg := f.e.setWidth 6
def Fields.k3 (f : Fields) : FSlot := f.e.setWidth 3
def Fields.addMode (f : Fields) : AddMode :=
  match f.code 0 2 with
  | 0 => .wrap | 1 => .carry f.pe | 2 => .sat | _ => .usat
def Fields.sign (f : Fields) : Option Sign := Sign.ofCode (f.code 0 2)
def Fields.size (f : Fields) : Option Size := Size.ofCode (f.code 0 3)

/-- The outer option is the opcode's assignment (Table 3.9), the inner one its codes. -/
abbrev Parse := Option (Option Instr)

/-- Opcodes 0x00 to 0x0C (Table 8.1, R65). -/
def parseControl (f : Fields) : Parse :=
  match f.op.toNat with
  | 0x00 => some (some (.nop f.g))
  | 0x01 => some (some (.bra f.g f.imm f.slot))
  | 0x02 => some (some (.brx f.g f.a))
  | 0x03 => some (some (.call f.g f.d f.imm f.slot))
  | 0x04 => some (some (.callx f.g f.d f.a))
  | 0x05 => some (some (.ret f.g f.a))
  | 0x06 => some ((JVal.ofCode f.a f.imm (f.code 0 2)).map (.jset f.g (f.d.setWidth 3)))
  | 0x07 => some (some (.jwait f.g (f.d.setWidth 3)))
  | 0x08 => some (some (.jleave f.g (f.d.setWidth 3)))
  | 0x09 => some (some (.exit f.g))
  | 0x0A => some (some (.brk f.g (f.imm.setWidth 16)))
  | 0x0B => some (some (.trap f.g (f.imm.setWidth 16)))
  | 0x0C => some (some (.hint f.g (f.bit 0) f.d (f.a ++ f.b ++ f.c ++ f.e ++ f.imm)))
  | _ => none

/-- Opcodes 0x10 to 0x33 (Table 9.1). -/
def parseInteger (f : Fields) : Parse :=
  match f.op.toNat with
  | 0x10 => some (some (.iadd f.g f.addMode f.d f.a f.bsrc))
  | 0x11 => some (some (.isub f.g f.addMode f.d f.a f.bsrc))
  | 0x12 => some (some (.iaddc f.g f.d f.a f.bsrc f.pc f.pe))
  | 0x13 => some (some (.isubb f.g f.d f.a f.bsrc f.pc f.pe))
  | 0x14 => some (some (.imul f.g f.d f.a f.bsrc))
  | 0x15 => some (f.sign.map fun sg => .imulh f.g sg f.d f.a f.bsrc)
  | 0x16 => some (some (.imad f.g f.d f.a f.bsrc f.c))
  | 0x17 => some (f.sign.map fun sg => .imadw f.g sg f.d f.a f.bsrc f.c)
  | 0x18 => some (f.sign.map fun sg => .idiv f.g f.fs sg f.d f.a f.bsrc)
  | 0x19 => some (f.sign.map fun sg => .irem f.g f.fs sg f.d f.a f.bsrc)
  | 0x1A => some (f.sign.map fun sg => .imin f.g sg f.d f.a f.bsrc)
  | 0x1B => some (f.sign.map fun sg => .imax f.g sg f.d f.a f.bsrc)
  | 0x1C => some (some (.iabs f.g (f.bit 0) f.d f.a))
  | 0x1D => some (some (.and f.g f.d f.a f.bsrc))
  | 0x1E => some (some (.or f.g f.d f.a f.bsrc))
  | 0x1F => some (some (.xor f.g f.d f.a f.bsrc))
  | 0x20 => some (some (.andn f.g f.d f.a f.bsrc))
  | 0x21 => some (some (.not f.g f.d f.a))
  | 0x22 => some (some (.shl f.g (f.bit 0) f.d f.a f.bsrc))
  | 0x23 => some (some (.shr f.g (f.bit 0) f.d f.a f.bsrc))
  | 0x24 => some (some (.sar f.g (f.bit 0) f.d f.a f.bsrc))
  | 0x25 => some (some (.rotl f.g f.d f.a f.bsrc))
  | 0x26 => some (some (.funnel f.g (f.bit 1) (f.bit 0) f.d f.a f.b f.csrc))
  | 0x27 => some (some (.clz f.g (f.bit 0) f.d f.a))
  | 0x28 => some (some (.popc f.g f.d f.a))
  | 0x29 => some (some (.brev f.g f.d f.a))
  | 0x2A => some (some (.bfx f.g (f.bit 0) f.d f.a f.bsrc))
  | 0x2B => some (some (.bfi f.g f.d f.a f.bsrc f.c))
  | 0x2C => some ((Cond.ofCode (f.code 0 3)).map fun k =>
      .isetp f.g (f.bit 6) (.ofCode f.c (f.code 4 2)) k f.pd f.a f.bsrc f.pe)
  | 0x2D => some (some (.sel f.g f.d f.a f.bsrc f.pc))
  | 0x2E => some (some (.mov f.g f.d (.ofCode f.a f.imm (f.code 0 2))))
  | 0x2F => some (some (.lea f.g (f.bit 1) (f.bit 0) f.d f.a f.b (f.e.setWidth 3) f.imm))
  | 0x30 => some (some (.plop f.g f.sub f.pd f.pa f.pb f.pc))
  | 0x31 => some (some (.p2x f.g (f.bit 0) f.d))
  | 0x32 => some (some (.x2p f.g (f.bit 0) f.a f.imm))
  | 0x33 => some ((PsetForm.ofCode f.a f.imm (f.code 0 2)).map (.pset f.g f.pd))
  | _ => none

/-- Opcodes 0x38 to 0x51 (Table 11.1). -/
def parseFloat (f : Fields) : Parse :=
  match f.op.toNat with
  | 0x38 => some (some (.fadd f.g (f.bit 2) f.rm f.d f.a f.bsrc))
  | 0x39 => some (some (.fsub f.g (f.bit 2) f.rm f.d f.a f.bsrc))
  | 0x3A => some (some (.fmul f.g (f.bit 2) f.rm f.d f.a f.bsrc))
  | 0x3B => some (some (.ffma f.g (f.bit 2) f.rm f.d f.a f.bsrc f.c))
  | 0x3C => some (some (.fmin f.g (f.bit 2) f.d f.a f.bsrc))
  | 0x3D => some (some (.fmax f.g (f.bit 2) f.d f.a f.bsrc))
  | 0x3E => some (some (.fsetp f.g (f.bit 6) (.ofCode f.c (f.code 4 2)) (.ofCode (f.code 0 3)) f.pd f.a f.bsrc f.pe))
  | 0x3F => some ((FSrc.ofCode (f.bit 2) (f.code 0 2)).map fun s => .fclass f.g s f.d f.a)
  | 0x40 => some (some (.frcp f.g f.fs (f.bit 2) f.rm f.d f.a))
  | 0x41 => some (some (.frsq f.g f.fs (f.bit 2) f.rm f.d f.a))
  | 0x42 => some (some (.fsqrt f.g f.fs (f.bit 2) f.rm f.d f.a))
  | 0x43 => some (some (.fexp2 f.g f.fs (f.bit 2) f.rm f.d f.a))
  | 0x44 => some (some (.flog2 f.g f.fs (f.bit 2) f.rm f.d f.a))
  | 0x45 => some (some (.fsin f.g f.fs (f.bit 2) f.rm f.d f.a))
  | 0x46 => some (some (.fcos f.g f.fs (f.bit 2) f.rm f.d f.a))
  | 0x47 => some (some (.fdiv f.g f.fs (f.bit 2) f.rm f.d f.a f.bsrc))
  | 0x48 => some (some (.pkadd f.g (f.bit 3) f.rm f.d f.a f.bsrc))
  | 0x49 => some (some (.pkmul f.g (f.bit 3) f.rm f.d f.a f.bsrc))
  | 0x4A => some (some (.pkfma f.g (f.bit 3) f.rm f.d f.a f.bsrc f.c))
  | 0x4B => some (some (.pkmin f.g (f.bit 3) f.d f.a f.bsrc))
  | 0x4C => some (some (.pkmax f.g (f.bit 3) f.d f.a f.bsrc))
  | 0x4D => some (some (.pksetp f.g (f.bit 3) (.ofCode (f.code 0 3)) f.pd f.a f.bsrc f.pe))
  | 0x4E => some (some (.fscale f.g (f.bit 2) f.rm f.d f.a f.bsrc))
  | 0x4F => some (some (.frnd f.g (f.bit 2) f.rm f.d f.a))
  | 0x50 => some (some (.dot2 f.g (f.bit 3) (f.bit 2) f.rm f.d f.a f.bsrc f.c))
  | 0x51 => some (some (.fmtrd f.g f.d f.k3))
  | _ => none

/-- Opcodes 0x60 to 0x68 (Table 11.1). -/
def parseConvert (f : Fields) : Parse :=
  match f.op.toNat with
  | 0x60 => some ((FSrc.ofCode (f.bit 4) (f.code 2 2)).map fun s => .f2i f.g (f.bit 6) (f.bit 5) s f.rm f.d f.a)
  | 0x61 => some ((IFmt.ofCode (f.code 2 2)).map fun r => .i2f f.g (f.bit 5) r f.rm f.d f.a)
  | 0x62 => some ((IFmt.ofCode (f.code 4 2)).bind fun r =>
      (FSrc.ofCode (f.bit 6) (f.code 2 2)).map fun s => .f2f f.g (f.bit 7) r s f.rm f.d f.a)
  | 0x63 => some ((NFmt.ofCode (f.code 2 3)).map fun n => .packn f.g (f.bit 5) n f.rm f.d f.a f.b)
  | 0x64 => some ((NFmt.ofCode (f.code 2 3)).map fun n => .unpackn f.g n f.d f.a)
  | 0x65 => some (some (.bscale f.g (f.bit 3) (f.bit 2) f.rm f.d f.a f.b (f.e.setWidth 2)))
  | 0x66 => some ((IFmt.ofCode (f.code 0 2)).map fun s => .qblk f.g (f.bit 2) s f.d f.a f.c f.k3)
  | 0x67 => some ((IFmt.ofCode (f.code 0 2)).map fun s => .dqblk f.g (f.bit 2) s f.d f.a f.c f.k3)
  | 0x68 => some ((ITarget.ofCode (f.code 0 3)).map fun t => .i2i f.g (f.bit 4) (f.bit 3) t f.d f.a)
  | _ => none

/-- Opcodes 0x70 to 0x77 (Table 12.1). -/
def parseLane (f : Fields) : Parse :=
  match f.op.toNat with
  | 0x70 => some (some (.shfl f.g (if f.bit 5 then some f.c else none) (BitVec.ofNat 3 (f.code 2 3))
      (.ofCode (f.code 0 2)) f.d f.a f.bsrc f.pe))
  | 0x71 => some (some (.vote f.g (f.bit 2) (.ofCode f.d (f.code 0 2)) f.pa))
  | 0x72 => some (some (.matchx f.g (f.bit 1) (if f.bit 0 then some f.pe else none) f.d f.a))
  | 0x73 => some ((RedOp.ofCode (f.code 0 4)).map fun o => .redux f.g (f.bit 4) o f.d f.a)
  | 0x74 => some ((RedixTy.ofCode (f.code 0 2)).map fun t =>
      .redix f.g (f.bit 4) (if f.bit 3 then some f.b else none) (f.bit 2) t f.d f.a)
  | 0x75 => some ((RedOp.ofCode (f.code 0 4)).map fun o => .scan f.g (f.bit 5) (f.bit 4) o f.d f.a)
  | 0x76 => some (some (.elect f.g (if f.bit 0 then some f.d else none) f.pe))
  | 0x77 => some ((LaneKind.ofCode (f.code 0 3)).map fun k => .lanemask f.g k f.d)
  | _ => none

/-- Opcodes 0x80 to 0x8E (Table 15.1). -/
def parseMemory (f : Fields) : Parse :=
  match f.op.toNat with
  | 0x80 => some (f.size.map fun z => .lds f.g f.fs (f.bit 5) z f.d f.m)
  | 0x81 => some (f.size.map fun z => .sts f.g f.fs z f.d f.m)
  | 0x82 => some (f.size.bind fun z => (AtomOp.ofCode f.c f.e.toNat).map fun o => .atoms f.g f.fs o z f.d f.m f.b)
  | 0x83 => some (f.size.map fun z => .ldc f.g (f.bit 5) (BitVec.ofNat 2 (f.code 3 2)) z f.d f.m)
  | 0x84 => some (f.size.map fun z => .st f.g (BitVec.ofNat 2 (f.code 3 2)) z f.d f.m)
  | 0x85 => some (f.size.bind fun z => (AtomOp.ofCode f.c f.e.toNat).map fun o => .atomc f.g o z f.d f.m f.b)
  | 0x86 => some (f.size.bind fun z => (AtomOp.ofCode f.c f.e.toNat).map fun o => .red f.g o z f.d f.m)
  | 0x87 => some (f.size.map fun z => .casc f.g z f.d f.m f.b f.c)
  | 0x88 => some (f.size.map fun z => .lr f.g z f.d f.m)
  | 0x89 => some (f.size.map fun z => .sc f.g z f.d f.m f.pe)
  | 0x8A => some ((FenceDom.ofCode (f.code 0 2)).map (.fence f.g))
  | 0x8B => some ((PrefLevel.ofCode (f.code 3 2)).map fun l => .pref f.g l f.m)
  | 0x8C => some (some (.subs f.g f.d f.m f.b))
  | 0x8D => some (some (.unsub f.g f.m))
  | 0x8E => some (f.size.map fun z => .stm f.g z f.d f.m f.b f.c)
  | _ => none

/-- Opcodes 0xA0 to 0xAC (Table 16.8). -/
def parseEngine (f : Fields) : Parse :=
  match f.op.toNat with
  | 0xA0 => some (some (.cpy f.g f.a))
  | 0xA1 => some (some (.gath f.g f.a))
  | 0xA2 => some (some (.scat f.g f.a))
  | 0xA3 => some (some (.binit f.g f.m f.b f.c))
  | 0xA4 => some (some (.barr f.g f.m f.b))
  | 0xA5 => some (some (.bwait f.g f.m f.b))
  | 0xA6 => some (some (.qpush f.g f.fs (f.d.setWidth 4) f.a f.pe))
  | 0xA7 => some (some (if f.bit 0 then .qpopNb f.g f.d (f.a.setWidth 4) f.pe else .qpop f.g f.d (f.a.setWidth 4)))
  | 0xA8 => some (some (.qstat f.g f.d (f.a.setWidth 4)))
  | 0xA9 => some (some (.fill f.g f.a))
  | 0xAA => some (some (.cpyr f.g f.a f.b (f.e.setWidth 4)))
  | 0xAB => some (some (.mxs f.g f.a))
  | 0xAC => some (some (.coll f.g f.a))
  | _ => none

/-- Opcodes 0xB0 to 0xBA (Table 17.3, R66). -/
def parseMatrix (f : Fields) : Parse :=
  let tile (n : Nat) : Option IFmt := IFmt.ofCode (f.code 0 n)
  let bq : Option (BitVec 2) := if f.e.getLsbD 3 then some (f.e.extractLsb' 4 2) else none
  match f.op.toNat with
  | 0xB0 => some ((tile 2).map fun t => .mmaq f.g f.fs (f.bit 2) t f.d f.a f.b f.c f.k3 bq)
  | 0xB1 => some ((tile 2).map fun t => .mmaz f.g f.fs (f.bit 2) t f.d f.a f.b f.c f.k3 bq)
  | 0xB2 => some (some (.talloc f.g f.d f.pe (f.imm.setWidth 11)))
  | 0xB3 => some (some (.tfree f.g))
  | 0xB4 => some ((tile 2).map fun t => .tld f.g f.fs t f.d f.m)
  | 0xB5 => some ((tile 2).bind fun t => (ImgFmt.ofCode (f.code 2 3)).map fun i => .tst f.g f.fs i t f.d f.m)
  | 0xB6 => some ((tile 2).map fun t => .tzero f.g f.fs t f.d)
  | 0xB7 => some (some (.tspill f.g f.fs f.d f.m f.k3))
  | 0xB8 => some (some (.tfill f.g f.fs f.d f.m f.k3))
  | 0xB9 => some ((tile 2).bind fun t => (IFmt.ofCode (f.code 2 2)).map fun r => .frags f.g f.fs r t f.d f.a)
  | 0xBA => some ((tile 2).map fun t => .tsig f.g f.fs t f.d f.a)
  | _ => none

/-- Opcodes 0xC0 to 0xC4 (Tables 18.3, 18.8). -/
def parseGroup (f : Fields) : Parse :=
  match f.op.toNat with
  | 0xC0 => some (f.size.bind fun z => (LdgOp.ofCode (f.code 5 3)).map fun o =>
      .ldg f.g o (.ofCode (f.code 3 2)) z f.d f.m (f.b.setWidth 2) f.pe)
  | 0xC1 => some (some (.cbr f.g (f.bit 0) (f.bit 1) f.pa (f.b.setWidth 2) f.imm f.slot))
  | 0xC2 => some (some (.csync f.g (f.bit 0) (f.a.setWidth 2)))
  | 0xC3 => some (some (.mbrd f.g (.ofCode (f.code 0 2)) f.d (f.a.setWidth 2)))
  | 0xC4 => some (some (.gbar f.g (f.bit 0) (f.a.setWidth 2)))
  | _ => none

/-- Opcodes 0xD0 to 0xD9 (Tables 5.6, 5.7, 6.4, 7.11, R125). -/
def parseLaunch (f : Fields) : Parse :=
  let ev : Option EvForm := EvForm.ofCode f.a f.imm (f.code 0 2)
  let n : BitVec 4 := f.e.extractLsb' 3 4
  match f.op.toNat with
  | 0xD0 => some (some (.seg f.g (f.bit 0) f.d n f.imm f.slot))
  | 0xD1 => some (some (.yield f.g f.imm f.slot))
  | 0xD2 => some (some (.launch f.g (f.bit 0) f.d f.m))
  | 0xD3 => some (some (.spawn f.g f.d f.a))
  | 0xD4 => some (some (.fwd f.g (if f.bit 0 then none else some f.b) f.d n))
  | 0xD5 => some (some (.mbox f.g f.d f.a f.b))
  | 0xD6 => some (ev.map (.evset f.g))
  | 0xD7 => some (ev.map (.evclr f.g))
  | 0xD8 => some (ev.map (.evwait f.g))
  | 0xD9 => some (some (if f.bit 0 then .evqpopNb f.g f.d else .evqpop f.g f.d))
  | _ => none

/-- Opcodes 0xE0 to 0xEE (Tables 13.5, 19.15, 20.2, R429, R433). -/
def parseSystem (f : Fields) : Parse :=
  match f.op.toNat with
  | 0xE0 => some (some (.rbegin f.g f.d f.imm f.slot))
  | 0xE1 => some (some (.rkeep f.g f.a (f.e.setWidth 4)))
  | 0xE2 => some (some (.rend f.g))
  | 0xE3 => some (some (.rabort f.g))
  | 0xE4 =>
    match f.code 0 2 with
    | 0 => some (some (.errlogPop f.g f.d))
    | 1 => some (some (.errlogStat f.g f.d))
    | 2 => some (some (.errlogInj f.g (f.imm.setWidth 2)))
    | _ => some none
  | 0xE8 => some (some (.srd f.g (f.bit 0) f.d (f.imm.setWidth 12)))
  | 0xE9 => some (some (.swr f.g (f.bit 0) f.a (f.imm.setWidth 12)))
  | 0xEA => some (some (.tret f.g))
  | 0xEB => some (some (.esc f.g))
  | 0xEC => some (some (if f.bit 0 then .winsetClr f.g (f.d.setWidth 3) else .winset f.g (f.d.setWidth 3) f.a))
  | 0xED => some (some (.halt f.g (f.bit 0)))
  | 0xEE => some (some (.ckpt f.g f.d))
  | _ => none

/-- The opcode map by its high nibble (Table 3.9). -/
def parse (f : Fields) : Parse :=
  match f.op.toNat / 16 with
  | 0x0 => parseControl f
  | 0x1 => parseInteger f
  | 0x2 => parseInteger f
  | 0x3 => if f.op.toNat < 0x38 then parseInteger f else parseFloat f
  | 0x4 => parseFloat f
  | 0x5 => parseFloat f
  | 0x6 => parseConvert f
  | 0x7 => parseLane f
  | 0x8 => parseMemory f
  | 0xA => parseEngine f
  | 0xB => parseMatrix f
  | 0xC => parseGroup f
  | 0xD => parseLaunch f
  | 0xE => parseSystem f
  | _ => none

/-- The instruction a field set encodes: assigned, of defined codes, well formed, and with every unused bit zero (R60). DESIGN CHOICE: E[5:4] of MMAQ and MMAZ, which names a quarter only under broadcast, counts as unused when E[3] is 0 (R66, log 36). -/
def decodeFields (f : Fields) : Except DecodeError Instr :=
  match parse f with
  | none => .error .unassigned
  | some none => .error .badCode
  | some (some i) =>
    if i.toFields = some f then
      if i.wellFormed then .ok i else .error .illFormed
    else .error .unusedBits

def decode (w : Code) : Except DecodeError Instr := decodeFields (.ofBits w)

/-- The word of an instruction; `none` for an event, which has no encoding. -/
def encode (i : Instr) : Option Code := i.toFields.map Fields.toBits

/-- A word from the bytes of an instruction as they lie in its slot (R59), lowest byte first. -/
def codeOfBytes : List Nat → Code
  | [] => 0
  | b :: bs => BitVec.ofNat 96 b ||| codeOfBytes bs <<< 8

/-- The decoder on an instruction given as the opcode table numbers its bits: bit 0 the least significant. The bits above `nbits` are 0. -/
def decodeTableWord (nbits w : Nat) : Option Instr :=
  match decode (BitVec.ofNat 96 (w % 2 ^ nbits)) with
  | .ok i => some i
  | .error _ => none

end Sys2Proof
end

