-- ==== Sys2Proof/Machine/Access.lean ====
section
/-! DEFINITION. Looking up and replacing the parts of the state: threads, contexts, grids, teams, cores, dies; the fused numbering of cores. -/

namespace Sys2Proof.Machine

open Sys2Proof

/-! ### Threads -/

def State.thread? (s : State) (t : Tid) : Option Thread := s.threads.find? fun x => x.id == t

def State.modThread (s : State) (t : Tid) (f : Thread → Thread) : State :=
  { s with threads := s.threads.map fun x => if x.id = t then f x else x }

def State.dropThread (s : State) (t : Tid) : State :=
  { s with threads := s.threads.filter fun x => x.id != t }

def Tid.lane : Tid → Nat
  | .thr _ _ _ _ l => l
  | .scalar _ => 0
def Tid.group : Tid → Nat
  | .thr _ _ _ g _ => g
  | .scalar _ => 0
def Tid.isScalar : Tid → Bool
  | .scalar _ => true
  | _ => false

/-! ### Contexts, grids, teams -/

def State.ctx? (s : State) (c : Nat) : Option Ctx := s.ctxs.find? fun x => x.id == c
def State.modCtx (s : State) (c : Nat) (f : Ctx → Ctx) : State :=
  { s with ctxs := s.ctxs.map fun x => if x.id = c then f x else x }

def State.grid? (s : State) (c g : Nat) : Option Grid := s.grids.find? fun x => x.ctx == c && x.num == g
def State.modGrid (s : State) (c g : Nat) (f : Grid → Grid) : State :=
  { s with grids := s.grids.map fun x => if x.ctx = c ∧ x.num = g then f x else x }

def State.team? (s : State) (c g t : Nat) : Option Team := s.teams.find? fun x => x.ctx == c && x.grid == g && x.num == t
def State.modTeam (s : State) (c g t : Nat) (f : Team → Team) : State :=
  { s with teams := s.teams.map fun x => if x.ctx = c ∧ x.grid = g ∧ x.num = t then f x else x }

/-! ### Cores and dies -/

def State.core (s : State) (c : Nat) : Core := (s.cores.find? fun x => x.id == c).getD (Core.reset c)
def State.modCore (s : State) (c : Nat) (f : Core → Core) : State :=
  if s.cores.any fun x => x.id == c then { s with cores := s.cores.map fun x => if x.id = c then f x else x }
  else { s with cores := s.cores ++ [f (Core.reset c)] }

def State.die (s : State) (d : Nat) : Die := (s.dies.find? fun x => x.id == d).getD (Die.reset d)
def State.modDie (s : State) (d : Nat) (f : Die → Die) : State :=
  if s.dies.any fun x => x.id == d then { s with dies := s.dies.map fun x => if x.id = d then f x else x }
  else { s with dies := s.dies ++ [f (Die.reset d)] }

/-! ### The fused numbering (R10, R11) -/

/-- The fuses of a module (R10): none blown on a C24-4224; on a C24-4096 128 positions in rising order, at most 16 of each compute stack, which keeps 160 cores. -/
def fusesOk (l : List Nat) : Bool :=
  l.isEmpty ||
  (l.length == 128 && (l.zip (l.drop 1)).all (fun q => decide (q.1 < q.2)) && l.all (fun p => decide (p < Config.cores)) &&
   (List.range Config.dies).all fun d => decide ((l.filter fun p => p / Config.coresPerDie == d).length ≤ 16))

/-- Enabled cores of the module. -/
def State.ncore (s : State) : Nat := Config.cores - s.disabled.length

/-- Enabled cores of die `d`. -/
def State.ndcore (s : State) (d : Nat) : Nat :=
  Config.coresPerDie - (s.disabled.filter fun p => p / Config.coresPerDie == d).length

/-- The first MCORE of die `d`. -/
def State.dieBase (s : State) (d : Nat) : Nat :=
  Config.coresPerDie * d - (s.disabled.filter fun p => decide (p / Config.coresPerDie < d)).length

/-- Skips the disabled positions: `m` enabled ones precede the answer. `disabled` is in rising order. -/
def physOf : List Nat → Nat → Nat
  | [], m => m
  | p :: ps, m => if p ≤ m then physOf ps (m + 1) else m

/-- Physical position (die, cluster, slot in order) of the enabled core MCORE. -/
def State.phys (s : State) (mcore : Nat) : Nat := physOf s.disabled mcore

def State.dieOf (s : State) (mcore : Nat) : Nat := s.phys mcore / Config.coresPerDie
def State.dcore (s : State) (mcore : Nat) : Nat := mcore - s.dieBase (s.dieOf mcore)

/-- The enabled cores of a die, ascending. -/
def State.coresOf (s : State) (d : Nat) : List Nat := seqFrom (s.dieBase d) (s.ndcore d)

/-! ### A thread's surroundings -/

/-- The context in whose name a thread runs. -/
def State.ctxOf (s : State) : Tid → Nat
  | .thr c _ _ _ _ => c
  | .scalar k => match (s.core k).bind with
    | some b => b.ctx
    | none => 0

/-- The team a thread acts for: its own, or the one its binding names (R122). -/
def State.teamOf (s : State) : Tid → Option Team
  | .thr c g t _ _ => s.team? c g t
  | .scalar k => match (s.core k).bind with
    | some b => match b.team with
      | some (g, t) =>
        match s.team? b.ctx g t with
        | some tm => if tm.core = k ∧ tm.saved = none then some tm else none
        | none => none
      | none => none
    | none => none

def State.gridOf (s : State) (t : Tid) : Option Grid :=
  match t with
  | .thr c g _ _ _ => s.grid? c g
  | .scalar _ => match s.teamOf t with
    | some tm => s.grid? tm.ctx tm.grid
    | none => none

def Thread.isScalar (th : Thread) : Bool := Tid.isScalar th.id
def Thread.lane (th : Thread) : Nat := Tid.lane th.id

/-- A thread on another core than its team's (R132); a scalar thread whose binding names no resident team counts as away (R122). -/
def State.away (s : State) (th : Thread) : Bool :=
  if th.isScalar then (s.teamOf th.id).isNone else th.core != th.home

/-- A privileged thread (R393). -/
def State.privileged (s : State) : Tid → Bool
  | .thr _ _ _ _ _ => false
  | .scalar k => match (s.core k).bind with
    | some b => b.runtime
    | none => false

def Thread.inRunAhead (th : Thread) : Bool := th.regions.any fun r => r.ahead.isSome
/-- Open explicit regions. -/
def Thread.depth (th : Thread) : Nat := (th.regions.filter fun r => r.ahead.isNone).length
def Thread.inRegion (th : Thread) : Bool := !th.regions.isEmpty

/-- The next of the choices that the spec leaves open (log 11); 0 when none is given. -/
def State.choice (s : State) : Nat × State :=
  match s.choices with
  | [] => (0, s)
  | c :: cs => (c, { s with choices := cs })

/-- The next free value (log 12). -/
def State.free (s : State) : Word × State := (Config.freeWord s.freeCount, { s with freeCount := s.freeCount + 1 })

/-- The low 32 bits of CYCLE (R133). -/
def State.ready (s : State) : Nat := s.cycle % 2 ^ 32

end Sys2Proof.Machine
end

