-- ==== Sys2Proof/Machine/Home.lean ====
section
/-! DEFINITION. Windows (R259), the home walk (R264, R266 to R268, R275, R432), physical memory with its check values and POISON (R278), ticks (R283, R284), reservations (R294) and the holding of faulting accesses (R271). -/

namespace Sys2Proof.Machine

open Sys2Proof

/-! ### Windows -/

/-- The permissions an access needs, as WnCTL bits (R259). -/
structure Perm where
  r : Bool
  w : Bool
  x : Bool
deriving DecidableEq, Repr

def Perm.read : Perm := ⟨true, false, false⟩
def Perm.write : Perm := ⟨false, true, false⟩
def Perm.rmw : Perm := ⟨true, true, false⟩
def Perm.fetch : Perm := ⟨false, false, true⟩

/-- Bits [63:57] all equal bit 56 (R257). -/
def canonical (va : DWord) : Bool :=
  let h := va.extractLsb' 56 8
  h == 0 || h == 0xFF

def Window.valid (w : Window) : Bool := w.ctl.getLsbD 63
def Window.lo (w : Window) : Nat := w.base.toNat / 4096 * 4096
def Window.hi (w : Window) : Nat := w.lim.toNat / 4096 * 4096 + 4095
def Window.covers (w : Window) (va : Nat) : Bool := w.valid && decide (w.lo ≤ va) && decide (va ≤ w.hi)
def Window.allows (w : Window) (p : Perm) : Bool :=
  (!p.r || w.ctl.getLsbD 0) && (!p.w || w.ctl.getLsbD 1) && (!p.x || w.ctl.getLsbD 2)
def Window.peer (w : Window) : Option Nat :=
  if bitsOf w.ctl.toNat 8 2 = 1 then some (bitsOf w.ctl.toNat 16 12) else none
def Window.iaOf (w : Window) (va : Nat) : Nat := va - w.lo + bitsOf w.ia.toNat 12 40 * 4096

/-- The page that is never translated (R269). -/
def controlPage : Nat := 0xFFFFFFFFFF000

/-- The IA of an access through a window. A window without both R and W does not reach the control block: 2^52 is added to such an IA, where nothing is (R269). -/
def Window.target (w : Window) (va : Nat) : Nat :=
  let ia := w.iaOf va
  if ia / 4096 * 4096 = controlPage ∧ w.peer = none ∧ !w.allows .rmw then ia + 2 ^ 52 else ia

/-- TranslateVA (R259): the IA and, through a PEER window, the peer; `none` is WINDOW_MISS. -/
def translateVA (c : Ctx) (va : DWord) (n : Nat) (p : Perm) : Option (Nat × Option Nat) :=
  if canonical va then
    match c.windows.find? fun w => w.covers va.toNat with
    | none => none
    | some w =>
      if va.toNat + n - 1 ≤ w.hi ∧ w.allows p then some (w.target va.toNat, w.peer) else none
  else none

/-! ### The walk -/

/-- A frame of module memory (Table 13.6). -/
def inModule (pa n : Nat) : Bool :=
  decide (pa + n ≤ Config.hbmEnd) || (decide (Config.farBase ≤ pa) && decide (pa + n ≤ Config.farEnd))

/-- Whether [pa, pa + n) meets a checkpoint window (R432). -/
def inCkptWindow (pa n : Nat) : Bool :=
  (List.range 4).any fun d =>
    let lo := Config.farBase + d * 2 ^ 39 + Config.ckptOffset
    let hi := Config.farBase + (d + 1) * 2 ^ 39
    decide (pa < hi) && decide (lo < pa + n)

inductive Walk where
  | leaf (e : DWord) (level addr : Nat)
  | fault (k : FaultKind) (level : Nat) (e : DWord)
deriving DecidableEq, Repr

/-- Trailing ones of `v`, at most `fuel`. -/
def onesLow (v : Nat) : Nat → Nat
  | 0 => 0
  | n + 1 => if v % 2 = 1 then onesLow (v / 2) n + 1 else 0

/-- Size code of a leaf (R268): the page size's logarithm; `none` is illegal. -/
def leafSize (e : DWord) : Option Nat :=
  if e.getLsbD 11 then
    let j := onesLow (e.toNat / 4096) 20
    if j = 20 then none else some (13 + j)
  else some 12

def leafBase (e : DWord) (k : Nat) : Nat := bitsOf e.toNat k (52 - k) * 2 ^ k
def leafKind (e : DWord) : Nat := bitsOf e.toNat 2 2
def leafTgt (e : DWord) : Nat := bitsOf e.toNat 52 12

/-- The level at which a page of a size sits (R266). -/
def pageLevel (k : Nat) : Nat := if k < 21 then 4 else if k < 30 then 3 else 2

/-- Table 13.7's conditions on a leaf found at a level. -/
def leafOk (e : DWord) (level : Nat) : Bool :=
  (match leafKind e with
   | 0 => leafTgt e == 0
   | 1 => decide (leafTgt e ≤ 4)
   | 2 => true
   | _ => false) &&
  bitsOf e.toNat 7 4 == 0 &&
  (match leafSize e with
   | some k => pageLevel k == level
   | none => false)

/-- The walk from a table at `pa` on `level`, with the levels still below it as fuel. -/
def walkFrom (mem : Memory) (ia : Nat) (pa level : Nat) : Nat → Walk
  | 0 => .fault .badEntry level 0
  | fuel + 1 =>
    let idx := if level = 0 then bitsOf ia 48 4 else bitsOf ia (48 - 9 * level) 9
    let addr := pa + 8 * idx
    let e := dwordOfBytes (mem.read addr 8)
    if !inModule addr 8 then .fault .badEntry level e
    else if !e.getLsbD 0 then .fault .notPresent level e
    else if e.getLsbD 1 then
      if level = 4 ∨ bitsOf e.toNat 2 10 ≠ 0 ∨ bitsOf e.toNat 52 12 ≠ 0 then .fault .badEntry level e
      else walkFrom mem ia (bitsOf e.toNat 12 40 * 4096) (level + 1) fuel
    else if leafOk e level then .leaf e level addr
    else .fault .badEntry level e

/-- HomeIndex (R264): the near-tier die and the bank of a line's home. -/
def homeDie (ia : Nat) : Nat := (bitsOf ia 12 9 ^^^ bitsOf ia 21 9 ^^^ bitsOf ia 30 9 ^^^ bitsOf ia 39 9 ^^^ bitsOf ia 48 4) % 6
def homeBank (ia : Nat) : Nat := bitsOf ia 6 5

/-- A translation that a die keeps, of the page that holds `ia`. -/
def keptBy (die ia : Nat) (x : Nat × Nat × Nat × DWord × Nat × Nat) : Bool := x.1 == die && ia / 2 ^ x.2.2.1 == x.2.1 / 2 ^ x.2.2.1

/-- The translation a home uses: one that its die keeps, else the table's (R270). -/
def State.walk (s : State) (ia : Nat) : Walk :=
  if s.xroot.getLsbD 0 then
    match s.tlb.find? (keptBy (homeDie ia) ia) with
    | some (_, _, _, e, level, addr) => .leaf e level addr
    | none => walkFrom s.mem ia (bitsOf s.xroot.toNat 7 45 * 128) 0 5
  else .fault .notPresent 0 0

inductive Routed where
  | to (d : Dest)
  /-- the control block, at an offset; at 4096 nothing is -/
  | control (off : Nat)
  /-- the page migrates: hold (R274) -/
  | blocked
  | fault (k : FaultKind) (level : Nat) (e : DWord)
deriving DecidableEq, Repr

/-- Where one home sends an access to an IA, and why it faults (R267, R271, R275, R432). -/
def State.route (s : State) (ia : Nat) (write : Bool) : Routed :=
  if ia % 2 ^ 52 / 4096 * 4096 = controlPage then .control (if 2 ^ 52 ≤ ia then 4096 else ia % 4096)
  else
    match s.walk ia with
    | .fault k l e => .fault k l e
    | .leaf e l _ =>
      let k := (leafSize e).getD 12
      let base := leafBase e k
      let off := ia % 2 ^ k
      if e.getLsbD 6 then .blocked
      else if write ∧ e.getLsbD 4 then .fault .writeProtect l e
      else match leafKind e with
        | 0 =>
          if inModule base (2 ^ k) ∧ ¬ (s.ckpt.rsv ∧ inCkptWindow base (2 ^ k)) then .to (.mem (base + off))
          else .fault .badFrame l e
        | 1 => .to (.sys (leafTgt e) (base + off))
        | _ => .to (.peer (leafTgt e) (base + off))

/-- The leaf by which a home forwards an access. -/
def Walk.entry : Walk → DWord × Nat
  | .leaf e l _ => (e, l)
  | .fault _ l e => (e, l)

/-- Follows forwards that name this module, with `n` still allowed; a fifth to any module faults BAD_ENTRY at the home that would send it (R275). Answers the IA at the last home here, with its route. -/
def State.follow (s : State) (write : Bool) : Nat → Nat → Nat × Routed
  | 0, ia =>
    match s.route ia write with
    | .to (.peer _ _) => (ia, .fault .badEntry (s.walk ia).entry.2 (s.walk ia).entry.1)
    | r => (ia, r)
  | n + 1, ia =>
    match s.route ia write with
    | .to (.peer m ia') => if m = s.modid then s.follow write n ia' else (ia, .to (.peer m ia'))
    | r => (ia, r)

/-- The forwards that an access may still make: 4 in all (R275). -/
def hopsLeft (made : Nat) : Nat := 4 - made

/-- Where an access of an engine or another agent of this module ends. -/
def State.routeAll (s : State) (ia : Nat) (write : Bool) : Routed := (s.follow write 4 ia).2
/-- The IA by which its last home here knows it. -/
def State.finalIa (s : State) (ia : Nat) (write : Bool) : Nat := (s.follow write 4 ia).1

/-- The home's die keeps the valid translation it used (R270). -/
def State.keepTranslation (s : State) (ia : Nat) : State :=
  match s.walk ia with
  | .leaf e l a =>
    let k := (leafSize e).getD 12
    if s.tlb.any (keptBy (homeDie ia) ia) then s
    else { s with tlb := (homeDie ia, ia / 2 ^ k * 2 ^ k, k, e, l, a) :: s.tlb }
  | _ => s

/-- DIRTY set by the home, in the entry as it stands, at the first write it performs to a page (R267, Table 13.7). -/
def State.markDirty (s : State) (ia : Nat) : State :=
  match s.walk ia with
  | .leaf e l a =>
    if e.getLsbD 5 then s
    else
      let e' := e ||| 0x20
      { s with
        mem := s.mem.put a (s.mem.get a ||| 0x20)
        tlb := s.tlb.map fun x => if x.2.2.2.2.2 = a then (x.1, x.2.1, x.2.2.1, e', l, a) else x }
  | _ => s

/-- Every home on the way of an access keeps its translation and, at a write, sets DIRTY in its leaf (R267, R270, R275). -/
def State.passHomes (write : Bool) : Nat → State → Nat → State
  | 0, s, _ => s
  | n + 1, s, ia =>
    let s' := if write then (s.keepTranslation ia).markDirty ia else s.keepTranslation ia
    match s.route ia write with
    | .to (.peer m ia') => if m = s.modid then State.passHomes write n s' ia' else s'
    | _ => s'

/-! ### Ticks and reservations -/

def State.lineTicks (s : State) (line : Nat) : Nat × Nat :=
  match s.ticks.find? fun x => x.1 == line with
  | some (_, w, r) => (w, r)
  | none => (0, 0)

def State.setTicks (s : State) (line w r : Nat) : State :=
  { s with ticks := (line, w, r) :: s.ticks.filter fun x => x.1 != line }

def State.ptsOf (s : State) (t : Tid) : Nat :=
  match s.thread? t with
  | some th => th.pts
  | none => 0

/-- A load by an agent at tick `p`: a lease, and the agent's tick at least the line's WTS (R283). -/
def State.tickR (s : State) (line p : Nat) : State × Nat :=
  let (w, r) := s.lineTicks line
  (s.setTicks line w (max r (max (w + Config.lease) (p + Config.lease))), max p w)

/-- A store by an agent at tick `p`: past every lease (R283). -/
def State.tickW (s : State) (line p : Nat) : State × Nat :=
  let (_, r) := s.lineTicks line
  let w := max p (r + 1)
  (s.setTicks line w w, w)

def State.tickLoad (s : State) (t : Tid) (line : Nat) : State :=
  let (s, p) := s.tickR line (s.ptsOf t)
  s.modThread t fun th => { th with pts := p }

def State.tickStore (s : State) (t : Tid) (line : Nat) : State :=
  let (s, p) := s.tickW line (s.ptsOf t)
  s.modThread t fun th => { th with pts := p }

/-! ### The other agents' ticks (R284) -/

def State.agentPts (s : State) (a : Agent) : Nat :=
  match s.agents.find? fun x => x.1 == a with
  | some (_, p) => p
  | none => 0

def State.setAgentPts (s : State) (a : Agent) (p : Nat) : State :=
  { s with agents := (a, p) :: s.agents.filter fun x => x.1 != a }

/-- A write by an agent clears every other thread's reservation of the line (R294). -/
def State.clearResv (s : State) (line : Nat) (peer : Option Nat) (by_ : Option Tid) : State :=
  { s with threads := s.threads.map fun th =>
      match th.resv with
      | some v => if v.line = line ∧ v.peer = peer ∧ some th.id ≠ by_ then { th with resv := none } else th
      | none => th }

/-! ### Memory behind a route -/

def State.sys (s : State) (port : Nat) : Memory :=
  match s.sysMem.find? fun x => x.1 == port with
  | some (_, m) => m
  | none => []

def State.setSys (s : State) (port : Nat) (m : Memory) : State :=
  { s with sysMem := (port, m) :: s.sysMem.filter fun x => x.1 != port }

def State.peer (s : State) (m : Nat) : Peer :=
  (s.peers.find? fun p => p.id == m).getD { id := m, mem := [], state := .up, since := 0 }

def State.setPeer (s : State) (p : Peer) : State :=
  { s with peers := p :: s.peers.filter fun q => q.id != p.id }

/-- Every link is DEAD: no route is left to any peer (R442). -/
def State.noRoute (s : State) : Bool := s.links.all fun l => match l.state with
  | .dead _ => true
  | _ => false

def State.peerDead (s : State) (m : Nat) : Bool := (s.peer m).state == .dead || s.noRoute

/-- The check value of a line for an IA (R278): CRC-32C over the 64 bytes and IA[51:6]. -/
def lineCheck (bytes : List Byte) (line : Nat) : BitVec 32 := crc32c (bytes ++ bytesOfNat 8 (line % 2 ^ 46))

/-- The check value that a line carries verifies for the IA it is asked under. A line that nothing has written verifies (log 28). -/
def State.checkOk (s : State) (ia pa : Nat) : Bool :=
  match s.lineIa.find? fun x => x.1 == pa / 64 with
  | none => true
  | some (_, l) =>
    l == ia / 64 ||
      lineCheck (s.mem.read (pa / 64 * 64) 64) l == lineCheck (s.mem.read (pa / 64 * 64) 64) (ia / 64)

/-- A line whose verification fails, or whose POISON is set: an uncorrectable consumption (R278). -/
def State.lineBad (s : State) (ia pa : Nat) : Bool := s.poison.contains (pa / 64) || !s.checkOk ia pa

/-- Bytes of one line, asked for under an IA, and whether they verify. -/
def State.readPA (s : State) (ia pa n : Nat) : List Byte × Bool := (s.mem.read pa n, s.lineBad ia pa)

/-- Writes bytes of one line under an IA: a whole line clears POISON; a partial one merges, with POISON where the old check is bad; the check is made anew (R278). -/
def State.writePA (s : State) (ia pa : Nat) (data : List Byte) : State :=
  { s with
    mem := s.mem.write pa data
    poison := if data.length = 64 then s.poison.filter (· != pa / 64)
      else if s.checkOk ia pa || s.poison.contains (pa / 64) then s.poison else pa / 64 :: s.poison
    lineIa := (pa / 64, ia / 64) :: s.lineIa.filter fun x => x.1 != pa / 64 }

def State.poisonLine (s : State) (line : Nat) : State :=
  if s.poison.contains line then s else { s with poison := line :: s.poison }

/-! ### Holding a faulting access -/

/-- An access that faulted is held on a granule: one that its home holds, or a side log's entry. -/
def State.holdsFault (s : State) (granule : Nat) : Bool :=
  (s.held.any fun h => h.kind.isSome && h.ia / 4096 == granule) ||
    s.cores.any fun k => k.sidelog.any fun e => e.held && e.ia / 4096 == granule

/-- A fault record, unless one of its granule and kind has been delivered and faults on the granule are held since (R271). `hold`: the access is about to be held. -/
def State.report (s : State) (hold : Bool) (ctx ia : Nat) (acc : AccKind) (k : FaultKind) (level : Nat) (e : DWord) : State :=
  let g := ia / 4096
  let kept := if s.holdsFault g then s.reported else s.reported.filter fun r => r.1 != g
  if kept.contains (g, k) then s
  else { s with
    reported := if hold then (g, k) :: kept else kept
    work := s.work ++ [.fault ctx (ia / 64 * 64) k acc level e] }

/-- The home holds an access and, once per granule and kind, delivers the fault record (R271). -/
def State.holdFault (s : State) (a : HeldAcc) (acc : AccKind) (k : FaultKind) (level : Nat) (e : DWord) : State :=
  let s := s.report true a.ctx a.ia acc k level e
  { s with held := s.held ++ [{ a with kind := some k }] }

/-- The home reports a fault without holding the access: a store-conditional (R272). -/
def State.reportFault (s : State) (ctx ia : Nat) (acc : AccKind) (k : FaultKind) (level : Nat) (e : DWord) : State :=
  s.report false ctx ia acc k level e

/-- An access to a migrating page is held in arrival order (R274). -/
def State.holdBlocked (s : State) (a : HeldAcc) : State := { s with held := s.held ++ [{ a with kind := none }] }

/-! ### The atomic operations on values -/

def signedOf (n v : Nat) : Int := signExtend (8 * n) v

/-- Integer operations of Table 15.3 on unsigned `n`-byte values; the floating-point ones stand in FloatOps. -/
def atomInt (op : AtomOp) (n old b c : Nat) : Nat :=
  match op with
  | .add => (old + b) % 2 ^ (8 * n)
  | .min => if signedOf n b < signedOf n old then b else old
  | .max => if signedOf n old < signedOf n b then b else old
  | .umin => if b < old then b else old
  | .umax => if old < b then b else old
  | .and => old &&& b
  | .or => old ||| b
  | .xor => old ^^^ b
  | .exch => b
  | .inc => if b ≤ old then 0 else old + 1
  | .dec => if old = 0 ∨ b < old then b else old - 1
  | .cas _ => if old = b then c else old
  | .fadd | .fmin | .fmax | .pkaddh | .pkaddb => old

end Sys2Proof.Machine
end

