-- ==== Sys2Proof/Machine/Operands.lean ====
section
/-! DEFINITION. Registers and predicates (R5), the operands of each instruction (R62), unit classes (Table 3.4) and legal pairs (R56). -/

namespace Sys2Proof.Machine

open Sys2Proof

/-! ### Registers -/

def Regs.x32 (r : Regs) (n : XReg) : Word := getAt 0 r.x n.toNat
def Regs.x64 (r : Regs) (n : XReg) : DWord := r.x32 (n + 1) ++ r.x32 n
/-- The `k` registers from `n`. -/
def Regs.xs (r : Regs) (n : XReg) (k : Nat) : List Word := (r.x.drop n.toNat).take k

/-- ReadP: P0 is 1 (R5). -/
def Regs.pr (r : Regs) (n : PReg) : Bool := n == 0 || r.p.getLsbD n.toNat

/-- WriteX: the register loses an uncorrectable value with its old contents. -/
def Regs.setX (r : Regs) (n : Nat) (v : Word) : Regs := { r with x := setAt r.x n v, bad := r.bad.filter (· != n) }
def Regs.setXs (r : Regs) (n : Nat) : List Word → Regs
  | [] => r
  | v :: vs => Regs.setXs (r.setX n v) (n + 1) vs
def Regs.set32 (r : Regs) (n : XReg) (v : Word) : Regs := r.setX n.toNat v
def Regs.set64 (r : Regs) (n : XReg) (v : DWord) : Regs :=
  r.setXs n.toNat [v.setWidth 32, (v >>> 32).setWidth 32]

/-- WriteP: a write to P0 is discarded (R5). -/
def Regs.setPn (r : Regs) (n : Nat) (b : Bool) : Regs :=
  if n = 0 then r
  else { r with p := if b then r.p ||| (1#64 <<< n) else r.p &&& ~~~(1#64 <<< n) }
def Regs.setP (r : Regs) (n : PReg) (b : Bool) : Regs := r.setPn n.toNat b

/-- A write of registers and predicates, in order. -/
def Regs.putAll (r : Regs) (xs : List (Nat × Word)) (ps : List (Nat × Bool)) : Regs :=
  ps.foldl (fun r q => r.setPn q.1 q.2) (xs.foldl (fun r q => r.setX q.1 q.2) r)

end Sys2Proof.Machine

namespace Sys2Proof

open Machine

def Src.val (b : Src) (r : Regs) : Word :=
  match b with
  | .reg n => r.x32 n
  | .imm v => v

/-- The guard (R61). -/
def Guard.holds (g : Guard) (r : Regs) : Bool := r.pr g.pred != g.neg

/-! ### Operands of an instruction -/

def Src.reads : Src → List (XReg × Nat)
  | .reg n => [(n, 1)]
  | .imm _ => []
def Fold.reads : Fold → List PReg
  | .none => []
  | .and c | .or c | .xor c => [c]
def EvForm.reads : EvForm → List (XReg × Nat)
  | .imm _ => []
  | .reg a | .mask a _ => [(a, 1)]

/-- The guard of an instruction; none for an event. -/
def Instr.guard? : Instr → Option Guard
  | .nop g | .bra g _ _ | .brx g _ | .call g _ _ _ | .callx g _ _ | .ret g _ | .jset g _ _ | .jwait g _ | .jleave g _
  | .exit g | .brk g _ | .trap g _ | .hint g _ _ _
  | .iadd g _ _ _ _ | .isub g _ _ _ _ | .iaddc g _ _ _ _ _ | .isubb g _ _ _ _ _ | .imul g _ _ _ | .imulh g _ _ _ _
  | .imad g _ _ _ _ | .imadw g _ _ _ _ _ | .idiv g _ _ _ _ _ | .irem g _ _ _ _ _ | .imin g _ _ _ _ | .imax g _ _ _ _
  | .iabs g _ _ _ | .and g _ _ _ | .or g _ _ _ | .xor g _ _ _ | .andn g _ _ _ | .not g _ _ | .shl g _ _ _ _
  | .shr g _ _ _ _ | .sar g _ _ _ _ | .rotl g _ _ _ | .funnel g _ _ _ _ _ _ | .clz g _ _ _ | .popc g _ _ | .brev g _ _
  | .bfx g _ _ _ _ | .bfi g _ _ _ _ | .isetp g _ _ _ _ _ _ _ | .sel g _ _ _ _ | .mov g _ _ | .lea g _ _ _ _ _ _ _
  | .plop g _ _ _ _ _ | .p2x g _ _ | .x2p g _ _ _ | .pset g _ _
  | .fadd g _ _ _ _ _ | .fsub g _ _ _ _ _ | .fmul g _ _ _ _ _ | .ffma g _ _ _ _ _ _ | .fmin g _ _ _ _ | .fmax g _ _ _ _
  | .fsetp g _ _ _ _ _ _ _ | .fclass g _ _ _ | .frcp g _ _ _ _ _ | .frsq g _ _ _ _ _ | .fsqrt g _ _ _ _ _
  | .fexp2 g _ _ _ _ _ | .flog2 g _ _ _ _ _ | .fsin g _ _ _ _ _ | .fcos g _ _ _ _ _ | .fdiv g _ _ _ _ _ _
  | .pkadd g _ _ _ _ _ | .pkmul g _ _ _ _ _ | .pkfma g _ _ _ _ _ _ | .pkmin g _ _ _ _ | .pkmax g _ _ _ _
  | .pksetp g _ _ _ _ _ _ | .fscale g _ _ _ _ _ | .frnd g _ _ _ _ | .dot2 g _ _ _ _ _ _ _ | .fmtrd g _ _
  | .f2i g _ _ _ _ _ _ | .i2f g _ _ _ _ _ | .f2f g _ _ _ _ _ _ | .packn g _ _ _ _ _ _ | .unpackn g _ _ _
  | .bscale g _ _ _ _ _ _ _ | .qblk g _ _ _ _ _ _ | .dqblk g _ _ _ _ _ _ | .i2i g _ _ _ _ _
  | .shfl g _ _ _ _ _ _ _ | .vote g _ _ _ | .matchx g _ _ _ _ | .redux g _ _ _ _ | .redix g _ _ _ _ _ _
  | .scan g _ _ _ _ _ | .elect g _ _ | .lanemask g _ _
  | .lds g _ _ _ _ _ | .sts g _ _ _ _ | .atoms g _ _ _ _ _ _ | .ldc g _ _ _ _ _ | .st g _ _ _ _ | .atomc g _ _ _ _ _
  | .red g _ _ _ _ | .casc g _ _ _ _ _ | .lr g _ _ _ | .sc g _ _ _ _ | .fence g _ | .pref g _ _ | .subs g _ _ _
  | .unsub g _ | .stm g _ _ _ _ _
  | .cpy g _ | .gath g _ | .scat g _ | .binit g _ _ _ | .barr g _ _ | .bwait g _ _ | .qpush g _ _ _ _ | .qpop g _ _
  | .qpopNb g _ _ _ | .qstat g _ _ | .fill g _ | .cpyr g _ _ _ | .mxs g _ | .coll g _
  | .mmaq g _ _ _ _ _ _ _ _ _ | .mmaz g _ _ _ _ _ _ _ _ _ | .talloc g _ _ _ | .tfree g | .tld g _ _ _ _
  | .tst g _ _ _ _ _ | .tzero g _ _ _ | .tspill g _ _ _ _ | .tfill g _ _ _ _ | .frags g _ _ _ _ _ | .tsig g _ _ _ _
  | .ldg g _ _ _ _ _ _ _ | .cbr g _ _ _ _ _ _ | .csync g _ _ | .mbrd g _ _ _ | .gbar g _ _
  | .seg g _ _ _ _ _ | .yield g _ _ | .launch g _ _ _ | .spawn g _ _ | .fwd g _ _ _ | .mbox g _ _ _ | .evset g _
  | .evclr g _ | .evwait g _ | .evqpop g _ | .evqpopNb g _
  | .rbegin g _ _ _ | .rkeep g _ _ | .rend g | .rabort g | .errlogPop g _ | .errlogStat g _ | .errlogInj g _
  | .srd g _ _ _ | .swr g _ _ _ | .tret g | .esc g | .winset g _ _ | .winsetClr g _ | .halt g _ | .ckpt g _ => some g
  | _ => none

def isFmt32 : IFmt → Bool
  | .f32 => true | _ => false

/-- X registers that an instruction reads, as (first, count), in the order in which its description reads them. -/
def Instr.xreads : Instr → List (XReg × Nat)
  | .brx _ a | .ret _ a | .callx _ _ a => [(a, 2)]
  | .jset _ _ (.reg a) => [(a, 1)]
  | .iadd _ _ _ a b | .isub _ _ _ a b | .iaddc _ _ a b _ _ | .isubb _ _ a b _ _ | .imul _ _ a b | .imulh _ _ _ a b
  | .idiv _ _ _ _ a b | .irem _ _ _ _ a b | .imin _ _ _ a b | .imax _ _ _ a b | .and _ _ a b | .or _ _ a b | .xor _ _ a b
  | .andn _ _ a b | .shl _ _ _ a b | .shr _ _ _ a b | .sar _ _ _ a b | .rotl _ _ a b | .bfx _ _ _ a b
  | .isetp _ _ _ _ _ a b _ | .sel _ _ a b _ => (a, 1) :: b.reads
  | .imad _ _ a b c | .bfi _ _ a b c => (a, 1) :: b.reads ++ [(c, 1)]
  | .imadw _ _ _ a b c => (a, 1) :: b.reads ++ [(c, 2)]
  | .funnel _ _ _ _ a b c => (a, 1) :: (b, 1) :: c.reads
  | .iabs _ _ _ a | .not _ _ a | .clz _ _ _ a | .popc _ _ a | .brev _ _ a | .mov _ _ (.reg a) | .x2p _ _ a _
  | .pset _ _ (.nz a) | .pset _ _ (.bit a _) => [(a, 1)]
  | .mov _ _ (.reg64 a) => [(a, 2)]
  | .lea _ w32 _ _ a b _ _ => [(a, if w32 then 1 else 2), (b, 1)]
  | .fadd _ _ _ _ a b | .fsub _ _ _ _ a b | .fmul _ _ _ _ a b | .fmin _ _ _ a b | .fmax _ _ _ a b
  | .fsetp _ _ _ _ _ a b _ | .fdiv _ _ _ _ _ a b | .pkadd _ _ _ _ a b | .pkmul _ _ _ _ a b | .pkmin _ _ _ a b
  | .pkmax _ _ _ a b | .pksetp _ _ _ _ a b _ | .fscale _ _ _ _ a b => (a, 1) :: b.reads
  | .ffma _ _ _ _ a b c | .pkfma _ _ _ _ a b c | .dot2 _ _ _ _ _ a b c => (a, 1) :: b.reads ++ [(c, 1)]
  | .fclass _ _ _ a | .frcp _ _ _ _ _ a | .frsq _ _ _ _ _ a | .fsqrt _ _ _ _ _ a | .fexp2 _ _ _ _ _ a
  | .flog2 _ _ _ _ _ a | .fsin _ _ _ _ _ a | .fcos _ _ _ _ _ a | .frnd _ _ _ _ a | .f2i _ _ _ _ _ _ a
  | .i2f _ _ _ _ _ a | .f2f _ _ _ _ _ _ a | .unpackn _ _ _ a | .i2i _ _ _ _ _ a => [(a, 1)]
  | .packn _ _ fmt _ _ a b => if fmt.wide then [(a, 1), (b, 1)] else [(a, 4)]
  | .bscale _ _ _ _ _ a b _ => [(a, 1), (b, 1)]
  | .qblk _ _ src _ a _ _ => [(a, if isFmt32 src then 32 else 16)]
  | .dqblk _ _ _ _ a c _ => [(a, 4), (c, 1)]
  | .shfl _ fl _ _ _ a b _ => (a, 1) :: b.reads ++ (match fl with | some c => [(c, 1)] | none => [])
  | .matchx _ w64 _ _ a => [(a, if w64 then 2 else 1)]
  | .redux _ _ _ _ a | .scan _ _ _ _ _ a => [(a, 1)]
  | .redix _ _ xi _ _ _ a => (a, 1) :: (match xi with | some b => [(b, 1)] | none => [])
  | .lds _ _ _ _ _ m => [(m.a, 1)]
  | .sts _ _ sz d m => [(m.a, 1), (d, sz.regs)]
  | .atoms _ _ op sz _ m b => (m.a, 1) :: (b, sz.regs) :: (match op with | .cas c => [(c, sz.regs)] | _ => [])
  | .ldc _ _ _ _ _ m | .lr _ _ _ m | .pref _ _ m | .unsub _ m | .launch _ _ _ m => [(m.a, 2)]
  | .st _ _ sz d m | .red _ _ sz d m | .sc _ sz d m _ => [(m.a, 2), (d, sz.regs)]
  | .atomc _ _ sz _ m b => [(m.a, 2), (b, sz.regs)]
  | .casc _ sz _ m b c => [(m.a, 2), (b, sz.regs), (c, sz.regs)]
  | .subs _ _ m b => [(m.a, 2), (b, 1)]
  | .stm _ sz d m b c => [(m.a, 2), (b, 2), (c, 1), (d, sz.regs)]
  | .cpy _ a | .gath _ a | .scat _ a | .fill _ a | .mxs _ a | .coll _ a | .qpush _ _ _ a _ => [(a, 8)]
  | .cpyr _ a b k => [(a, 8), (b, k.toNat + 1)]
  | .binit _ m b c => [(m.a, 1), (b, 1), (c, 1)]
  | .barr _ m b | .bwait _ m b => [(m.a, 1), (b, 1)]
  | .mmaq _ _ _ _ d a b c _ _ | .mmaz _ _ _ _ d a b c _ _ => [(a, 16), (b, 16), (c, 2), (d, 1)]
  | .tld _ _ _ d m | .tst _ _ _ _ d m | .tspill _ _ d m _ | .tfill _ _ d m _ => [(m.a, 1), (d, 1)]
  | .tzero _ _ _ d => [(d, 1)]
  | .frags _ _ _ _ _ a | .tsig _ _ _ _ a => [(a, 1)]
  | .ldg _ _ _ _ _ m _ _ => [(m.a, 1)]
  | .spawn _ _ a => [(a, 16)]
  | .mbox _ _ a b => [(a, 16), (b, 1)]
  | .fwd _ (some b) _ _ => [(b, 1)]
  | .evset _ f | .evclr _ f | .evwait _ f => f.reads
  | .rkeep _ a n => [(a, n.toNat + 1)]
  | .swr _ w64 a _ => [(a, if w64 then 2 else 1)]
  | .winset _ _ a => [(a, 8)]
  | _ => []

/-- X registers that an instruction writes. -/
def Instr.xwrites : Instr → List (XReg × Nat)
  | .call _ d _ _ | .callx _ d _ => [(d, 2)]
  | .iadd _ _ d _ _ | .isub _ _ d _ _ | .iaddc _ d _ _ _ _ | .isubb _ d _ _ _ _ | .imul _ d _ _ | .imulh _ _ d _ _
  | .imad _ d _ _ _ | .idiv _ _ _ d _ _ | .irem _ _ _ d _ _ | .imin _ _ d _ _ | .imax _ _ d _ _ | .iabs _ _ d _
  | .and _ d _ _ | .or _ d _ _ | .xor _ d _ _ | .andn _ d _ _ | .not _ d _ | .shl _ _ d _ _ | .shr _ _ d _ _
  | .sar _ _ d _ _ | .rotl _ d _ _ | .funnel _ _ _ d _ _ _ | .clz _ _ d _ | .popc _ d _ | .brev _ d _ | .bfx _ _ d _ _
  | .bfi _ d _ _ _ | .sel _ d _ _ _ | .mov _ d (.reg _) | .mov _ d (.imm _) | .p2x _ _ d => [(d, 1)]
  | .imadw _ _ d _ _ _ | .mov _ d (.reg64 _) | .mov _ d (.imm64 _) => [(d, 2)]
  | .lea _ w32 _ d _ _ _ _ => [(d, if w32 then 1 else 2)]
  | .fadd _ _ _ d _ _ | .fsub _ _ _ d _ _ | .fmul _ _ _ d _ _ | .ffma _ _ _ d _ _ _ | .fmin _ _ d _ _ | .fmax _ _ d _ _
  | .fclass _ _ d _ | .frcp _ _ _ _ d _ | .frsq _ _ _ _ d _ | .fsqrt _ _ _ _ d _ | .fexp2 _ _ _ _ d _ | .flog2 _ _ _ _ d _
  | .fsin _ _ _ _ d _ | .fcos _ _ _ _ d _ | .fdiv _ _ _ _ d _ _ | .pkadd _ _ _ d _ _ | .pkmul _ _ _ d _ _
  | .pkfma _ _ _ d _ _ _ | .pkmin _ _ d _ _ | .pkmax _ _ d _ _ | .fscale _ _ _ d _ _ | .frnd _ _ _ d _
  | .dot2 _ _ _ _ d _ _ _ | .fmtrd _ d _ | .f2i _ _ _ _ _ d _ | .i2f _ _ _ _ d _ | .f2f _ _ _ _ _ d _
  | .packn _ _ _ _ d _ _ | .bscale _ _ _ _ d _ _ _ | .i2i _ _ _ _ d _ => [(d, 1)]
  | .unpackn _ fmt d _ => [(d, if fmt.wide then 2 else 4)]
  | .qblk _ _ _ d _ c _ => [(d, 4), (c, 1)]
  | .dqblk _ _ dst d _ _ _ => [(d, if isFmt32 dst then 32 else 16)]
  | .shfl _ _ _ _ d _ _ _ | .vote _ _ (.mask d) _ | .matchx _ _ _ d _ | .redux _ _ _ d _ | .scan _ _ _ _ d _
  | .elect _ (some d) _ | .lanemask _ _ d => [(d, 1)]
  | .redix _ _ _ _ _ d _ => [(d, 2)]
  | .lds _ _ _ sz d _ | .atoms _ _ _ sz d _ _ | .ldc _ _ _ sz d _ | .atomc _ _ sz d _ _ | .casc _ sz d _ _ _ | .lr _ sz d _ =>
    [(d, sz.regs)]
  | .subs _ d _ _ | .qstat _ d _ | .talloc _ d _ _ | .tsig _ _ _ d _ | .mbrd _ _ d _ | .launch _ _ d _ | .spawn _ d _
  | .mbox _ d _ _ | .rbegin _ d _ _ | .errlogStat _ d | .ckpt _ d => [(d, 1)]
  | .qpop _ d _ | .qpopNb _ d _ _ => [(d, 8)]
  | .frags _ _ res _ d _ => [(d, if isFmt32 res then 32 else 16)]
  | .ldg _ op _ sz d _ _ _ => [(d, if op == .mini then 2 else sz.regs)]
  | .evqpop _ d | .evqpopNb _ d | .errlogPop _ d => [(d, 4)]
  | .srd _ w64 d _ => [(d, if w64 then 2 else 1)]
  | _ => []

/-- Predicates that an instruction reads beside its guard. DESIGN CHOICE: RBEGIN reads every predicate, REND and RABORT write P1 to P63, and the registers that a region keeps or restores do not count (log 36). -/
def Instr.preads : Instr → List Nat
  | .iaddc _ _ _ _ c _ | .isubb _ _ _ _ c _ | .sel _ _ _ _ c => [c.toNat]
  | .isetp _ _ f _ _ _ _ _ | .fsetp _ _ f _ _ _ _ _ => f.reads.map (·.toNat)
  | .plop _ _ _ a b c => [a.toNat, b.toNat, c.toNat]
  | .p2x _ h _ => seqFrom (if h then 32 else 0) 32
  | .vote _ _ _ a | .cbr _ _ _ a _ _ _ => [a.toNat]
  | .rbegin _ _ _ _ => seqFrom 0 64
  | _ => []

/-- Predicates that an instruction writes. -/
def Instr.pwrites : Instr → List Nat
  | .iadd _ (.carry e) _ _ _ | .isub _ (.carry e) _ _ _ | .iaddc _ _ _ _ _ e | .isubb _ _ _ _ _ e => [e.toNat]
  | .isetp _ _ _ _ d _ _ e | .fsetp _ _ _ _ d _ _ e | .pksetp _ _ _ d _ _ e => [d.toNat, e.toNat]
  | .plop _ _ d _ _ _ | .pset _ d _ => [d.toNat]
  | .x2p _ h _ m => (seqFrom 0 32).filterMap fun k => if m.getLsbD k then some (k + if h then 32 else 0) else none
  | .shfl _ _ _ _ _ _ _ e | .elect _ _ e | .sc _ _ _ _ e | .qpush _ _ _ _ e | .qpopNb _ _ _ e | .talloc _ _ e _
  | .ldg _ _ _ _ _ _ _ e => [e.toNat]
  | .vote _ _ (.every d) _ | .vote _ _ (.any d) _ | .vote _ _ (.same d) _ => [d.toNat]
  | .matchx _ _ (some e) _ _ => [e.toNat]
  | .rabort _ | .rend _ => seqFrom 1 63
  | _ => []

/-- Whether an instruction uses, or changes, the thread's tile handle (R349). -/
def Instr.tileUse : Instr → Bool × Bool
  | .talloc _ _ _ _ | .tfree _ => (true, true)
  | .mmaq _ _ _ _ _ _ _ _ _ _ | .mmaz _ _ _ _ _ _ _ _ _ _ | .tld _ _ _ _ _ | .tst _ _ _ _ _ _ | .tzero _ _ _ _
  | .tspill _ _ _ _ _ | .tfill _ _ _ _ _ | .frags _ _ _ _ _ _ | .tsig _ _ _ _ _ => (true, false)
  | _ => (false, false)

def expand (l : List (XReg × Nat)) : List Nat := l.flatMap fun q => seqFrom q.1.toNat q.2

/-- Registers named by HINT's bitmap (R65). -/
def quadsOf (m : DWord) : List Nat := (seqFrom 0 64).filter fun k => m.getLsbD k

/-- The first register, sources before destinations, that is not below the declared count (R5, R62; log 15). -/
def Instr.badReg (i : Instr) (nregs : Nat) : Option Nat :=
  match i with
  | .hint _ _ _ m => ((quadsOf m).map (4 * ·)).find? fun n => decide (nregs ≤ n)
  | _ => (expand (i.xreads ++ i.xwrites)).find? fun n => decide (nregs ≤ n)

/-! ### Unit classes and pairs -/

inductive UnitClass where
  | alu | long | xlane | mem | mtx | ctl
deriving DecidableEq, Repr

def inRange (lo hi n : Nat) : Bool := decide (lo ≤ n) && decide (n ≤ hi)

/-- Table 3.4, by opcode. -/
def unitClass (op : Nat) : UnitClass :=
  if inRange 0x18 0x19 op || inRange 0x40 0x47 op then .long
  else if inRange 0x10 0x33 op || inRange 0x38 0x51 op || inRange 0x60 0x68 op then .alu
  else if inRange 0x70 0x77 op then .xlane
  else if inRange 0x80 0x8E op || inRange 0xA0 0xAC op || op == 0xC0 then .mem
  else if inRange 0xB0 0xBA op then .mtx
  else .ctl

def Instr.cls (i : Instr) : UnitClass :=
  match i.toFields with
  | some f => unitClass f.op.toNat
  | none => .ctl

def meet (a b : List Nat) : Bool := a.any fun x => b.contains x

/-- What slot j reads and writes, the guard predicate included. P0 is no dependence: it is never written. -/
def Instr.readSet (i : Instr) : List Nat × List Nat :=
  (expand i.xreads, ((match i.guard? with | some g => [g.pred.toNat] | none => []) ++ i.preads).filter (· != 0))
def Instr.writeSet (i : Instr) : List Nat × List Nat := (expand i.xwrites, i.pwrites.filter (· != 0))

def Instr.isNop : Instr → Bool
  | .nop _ => true
  | _ => false

/-- R56, but for the live lists of SEG and FWD, which are the kernel's. -/
def pairLegal (i k : Instr) : Bool :=
  let (rx, rp) := i.readSet
  let (wx, wp) := i.writeSet
  let (rx', rp') := k.readSet
  let (wx', wp') := k.writeSet
  i.isNop ||
  (i.cls != .ctl && i.cls != k.cls && !meet wx rx' && !meet wp rp' && !meet wx' (rx ++ wx) && !meet wp' (rp ++ wp) &&
   !(i.tileUse.2 && k.tileUse.1) && !(k.tileUse.2 && i.tileUse.1))

end Sys2Proof

namespace Sys2Proof.Machine

open Sys2Proof

/-! ### Addresses (R44, R63, R306) -/

def pcSlot (pc : DWord) : Nat := pc.toNat % 8
def pcLine (pc : DWord) : DWord := pc &&& ~~~0x3F#64

/-- The sequential successor (R44). -/
def succPc (pc : DWord) : DWord := if pcSlot pc < 4 then pc + 1 else pcLine pc + 64

/-- BranchTarget (R63). -/
def branchTarget (pc : DWord) (off : Word) (slot : Slot) : DWord := pcLine pc + off.signExtend 64 * 64 + slot.setWidth 64

/-- EffectiveAddress (R306). -/
def effAddr (r : Regs) (m : MemOp) : DWord := r.x64 m.a + m.imm.signExtend 64

/-- The scratchpad offset before its checks, which may be negative (R306). -/
def scratchOff (r : Regs) (m : MemOp) : Int := (r.x32 m.a).toNat + m.imm.toInt

/-- The 96 bits of a slot of a line (R43). -/
def lineSlot (l : Line) (slot : Nat) : Code := l.extractLsb' (96 * slot) 96
def lineWord (l : Line) : Word := l.extractLsb' 480 32

def wordTGT (w : Word) (slot : Nat) : Bool := w.getLsbD slot
def wordPAIR (w : Word) (slot : Nat) : Bool := decide (slot < 4) && w.getLsbD (5 + slot)
def wordWAIT (w : Word) : Nat := bitsOf w.toNat 9 12
def wordSETA (w : Word) : Nat := bitsOf w.toNat 21 4
def wordSETB (w : Word) : Nat := bitsOf w.toNat 25 4

def parityOf (v : Nat) : Nat → Bool
  | 0 => false
  | n + 1 => (v % 2 == 1) != parityOf (v / 2) n

/-- R46: PAR0 and PAR1 agree. -/
def lineParity (l : Line) : Bool :=
  let w := lineWord l
  w.getLsbD 30 == parityOf (l.extractLsb' 0 256).toNat 256 &&
  w.getLsbD 31 == (parityOf (l.extractLsb' 256 224).toNat 224 != parityOf (w.extractLsb' 0 30).toNat 30)

end Sys2Proof.Machine
end

