-- ==== Sys2Proof/Machine/Flags.lean ====
section
/-! DEFINITION. Every predicate and status computation: carries, borrows and saturation (R178, R179), integer and floating-point conditions (Tables 9.4, 11.2), folds (R188), and the integer results of chapter 09 as functions of register values. -/

namespace Sys2Proof.Machine

open Sys2Proof

/-! ### Carry, borrow, saturation -/

/-- Sum with a carry in: the wrapped sum and the carry out (R179). -/
def addCarry (a b : Word) (c : Bool) : Word × Bool :=
  let s := a.toNat + b.toNat + c.toNat
  (BitVec.ofNat 32 s, decide (2 ^ 32 ≤ s))

/-- Difference with a borrow in: the wrapped difference and the borrow out (R179). -/
def subBorrow (a b : Word) (c : Bool) : Word × Bool :=
  let s : Int := a.toNat - b.toNat - c.toNat
  (BitVec.ofInt 32 s, decide (s < 0))

def clampInt (lo hi v : Int) : Int := if v < lo then lo else if hi < v then hi else v

/-- Signed saturation to 32 bits (R178, mode 2). -/
def satS32 (t : Int) : Word := BitVec.ofInt 32 (clampInt (-(2 ^ 31)) (2 ^ 31 - 1) t)
/-- Unsigned saturation to 32 bits (R178, mode 3). -/
def satU32 (t : Int) : Word := BitVec.ofInt 32 (clampInt 0 (2 ^ 32 - 1) t)

/-! ### Conditions and folds -/

/-- Table 9.4 on two integers. -/
def condTest (c : Cond) (x y : Int) : Bool :=
  match c with
  | .eq => x == y | .ne => x != y | .lt => decide (x < y) | .le => decide (x ≤ y) | .gt => decide (y < x) | .ge => decide (y ≤ x)

/-- Table 11.2 on two values, with NV (R225). -/
def fcondTest (c : FCond) (x y : FVal) : Bool × Fpx :=
  let un := x.isNan || y.isNan
  let sig := x.isSig || y.isSig
  let nv : Fpx := if sig then fpxNV else 0
  let nvq : Fpx := if un then fpxNV else 0
  match c with
  | .eq => (!un && !x.lt y && !y.lt x, nv)
  | .ne => (un || x.lt y || y.lt x, nv)
  | .lt => (x.lt y, nvq)
  | .le => (!un && !y.lt x, nvq)
  | .gt => (y.lt x, nvq)
  | .ge => (!un && !x.lt y, nvq)
  | .num => (!un, nv)
  | .nan => (un, nv)

/-- The two predicates that a comparison writes (R188): Pd, then Pe. -/
def foldWrite (f : Fold) (k : Bool) (r : Regs) (d e : PReg) : Regs :=
  match f with
  | .none => (r.setP d k).setP e (!k)
  | .and c => (r.setP d (k && r.pr c)).setP e k
  | .or c => (r.setP d (k || r.pr c)).setP e k
  | .xor c => (r.setP d (k != r.pr c)).setP e k

/-! ### Integer results (09) -/

/-- An operand as the sign code reads it (Table 9.2). -/
def signA (sg : Sign) (a : Word) : Int :=
  match sg with
  | .u => a.toNat
  | _ => a.toInt
def signB (sg : Sign) (b : Word) : Int :=
  match sg with
  | .s => b.toInt
  | _ => b.toNat

def imulhRes (sg : Sign) (a b : Word) : Word := BitVec.ofInt 32 ((signA sg a * signB sg b) / 2 ^ 32)
def imadwRes (sg : Sign) (a b : Word) (c : DWord) : DWord := BitVec.ofInt 64 (signA sg a * signB sg b + c.toNat)

/-- Quotient and remainder truncated toward zero, with R181's values for a zero divisor. -/
def divRes (sg : Sign) (a b : Word) : Int × Int :=
  let x := signA sg a
  let y := signB sg b
  if y = 0 then (-1, x) else (x.tdiv y, x - y * x.tdiv y)

def iminRes (sg : Sign) (a b : Word) : Word := if signB sg b < signA sg a then b else a
def imaxRes (sg : Sign) (a b : Word) : Word := if signA sg a < signB sg b then b else a
def iabsRes (sat : Bool) (a : Word) : Word :=
  if sat ∧ a = 0x80000000 then 0x7FFFFFFF else BitVec.ofNat 32 a.toInt.natAbs

/-- The shift count (R184). -/
def shiftCount (wrap : Bool) (b : Word) : Nat := if wrap then b.toNat % 32 else b.toNat
def shlRes (wrap : Bool) (a b : Word) : Word :=
  let n := shiftCount wrap b
  if 32 ≤ n then 0 else a <<< n
def shrRes (wrap : Bool) (a b : Word) : Word :=
  let n := shiftCount wrap b
  if 32 ≤ n then 0 else a >>> n
def sarRes (wrap : Bool) (a b : Word) : Word := a.sshiftRight (min (shiftCount wrap b) 32)
def rotlRes (a b : Word) : Word := a.rotateLeft (b.toNat % 32)
def funnelRes (wrap right : Bool) (a b c : Word) : Word :=
  let n := if wrap then c.toNat % 32 else min c.toNat 32
  let v : DWord := a ++ b
  if right then (v >>> n).setWidth 32 else ((v <<< n) >>> 32).setWidth 32

/-- Bits below bit `k` of `a` that equal `b`, counted down to the first that differs. -/
def leadRun (a : Word) (b : Bool) : Nat → Nat
  | 0 => 0
  | k + 1 => if a.getLsbD k == b then leadRun a b k + 1 else 0
def clzRes (s : Bool) (a : Word) : Word :=
  BitVec.ofNat 32 (if s then leadRun a (a.getLsbD 31) 31 else leadRun a false 32)
def popCount (v : Nat) : Nat → Nat
  | 0 => 0
  | n + 1 => v % 2 + popCount (v / 2) n
def brevRes (a : Word) : Word := BitVec.ofNat 32 ((seqFrom 0 32).foldl (fun acc k => 2 * acc + (a.getLsbD k).toNat) 0)

/-- Position and width of a bit field, none when it is empty (R187). -/
def fieldOf (b : Word) : Option (Nat × Nat) :=
  let pos := b.toNat % 256
  let len := bitsOf b.toNat 8 8
  if len = 0 ∨ 32 ≤ pos then none else some (pos, min (pos + len) 32 - pos)
def bfxRes (s : Bool) (a b : Word) : Word :=
  match fieldOf b with
  | none => 0
  | some (pos, w) =>
    let v := bitsOf a.toNat pos w
    if s then BitVec.ofInt 32 (signExtend w v) else BitVec.ofNat 32 v
def bfiRes (a b c : Word) : Word :=
  match fieldOf b with
  | none => c
  | some (pos, w) =>
    let m : Word := (BitVec.ofNat 32 (2 ^ w - 1)) <<< pos
    (c &&& ~~~m) ||| ((a <<< pos) &&& m)

/-- R191, before it is narrowed. -/
def leaRes (base : Int) (idx : Int) (shift : Nat) (off : Word) : Int := base + idx * 2 ^ shift + off.toInt

/-- I2I (R242): the value, and whether it saturated. -/
def i2iRange : ITarget → Int × Int × Nat
  | .s8 => (-128, 127, 8) | .u8 => (0, 255, 8) | .s16 => (-(2 ^ 15), 2 ^ 15 - 1, 16) | .u16 => (0, 2 ^ 16 - 1, 16)
  | .s32 => (-(2 ^ 31), 2 ^ 31 - 1, 32) | .u32 => (0, 2 ^ 32 - 1, 32)
def i2iRes (sat uin : Bool) (t : ITarget) (a : Word) : Word × Bool :=
  let (lo, hi, w) := i2iRange t
  if sat then
    let v : Int := if uin then a.toNat else a.toInt
    let c := clampInt lo hi v
    (BitVec.ofInt 32 c, v != c)
  else
    (if lo < 0 then BitVec.ofInt 32 (signExtend w a.toNat) else BitVec.ofNat 32 (a.toNat % 2 ^ w), false)

end Sys2Proof.Machine
end

