-- ==== Sys2Proof/Machine/FloatOps.lean ====
section
/-! DEFINITION. The floating-point results of chapters 10 and 11 on register patterns: arithmetic, special functions, packed operations, conversions, blocks (R208, R209), and the combining operations of atomics, REDUX, SCAN, REDIX and LDG. Every function answers a pattern and the FPX bits it raises. -/

namespace Sys2Proof.Machine

open Sys2Proof

/-- A pattern and the FPX bits raised. -/
abbrev FRes := Word × Fpx

def FSrc.pick (src : FSrc) (ftz : Bool) (a : Word) : FVal :=
  match src with
  | .f32 => (fF32.read a.toNat).flush ftz
  | .f16 h => fF16.read (bitsOf a.toNat (if h then 16 else 0) 16)
  | .bf16 h => fBF16.read (bitsOf a.toNat (if h then 16 else 0) 16)

def read32 (ftz : Bool) (a : Word) : FVal := (fF32.read a.toNat).flush ftz

/-- Round to a format, with NV of signalling operands and the bits raised before. -/
def finish (f : Fmt) (rm : RM) (ftz : Bool) (ops : List FVal) (v : FVal × Fpx) : Nat × Fpx :=
  let (n, r) := f.round rm ftz v.1
  (n, r ||| v.2 ||| FVal.sigBits ops)

def res32 (p : Nat × Fpx) : FRes := (BitVec.ofNat 32 p.1, p.2)

/-- A NaN operand answers before the operation (R202). -/
def unlessNan (ops : List FVal) (v : FVal × Fpx) : FVal × Fpx := if ops.any FVal.isNan then (.nan false, 0) else v

/-! ### FP32 arithmetic (R223) -/

def addF (f : Fmt) (rm : RM) (ftz : Bool) (x y : FVal) : Nat × Fpx := finish f rm ftz [x, y] (FVal.sum rm [x, y])
def mulF (f : Fmt) (rm : RM) (ftz : Bool) (x y : FVal) : Nat × Fpx := finish f rm ftz [x, y] (x.mul y)
/-- One product and one addend, rounded once (R213). 0 × ∞ raises NV even beside a quiet NaN. -/
def fmaF (f : Fmt) (rm : RM) (ftz : Bool) (x y z : FVal) : Nat × Fpx :=
  let (p, n) := x.mul y
  let (v, k) := FVal.sum rm [p, z]
  finish f rm ftz [x, y, z] (v, n ||| k)

def fadd32 (rm : RM) (ftz : Bool) (a b : Word) : FRes := res32 (addF fF32 rm ftz (read32 ftz a) (read32 ftz b))
def fsub32 (rm : RM) (ftz : Bool) (a b : Word) : FRes := res32 (addF fF32 rm ftz (read32 ftz a) (read32 ftz b).negate)
def fmul32 (rm : RM) (ftz : Bool) (a b : Word) : FRes := res32 (mulF fF32 rm ftz (read32 ftz a) (read32 ftz b))
def ffma32 (rm : RM) (ftz : Bool) (a b c : Word) : FRes :=
  res32 (fmaF fF32 rm ftz (read32 ftz a) (read32 ftz b) (read32 ftz c))
def fdiv32 (rm : RM) (ftz : Bool) (a b : Word) : FRes :=
  let x := read32 ftz a
  let y := read32 ftz b
  res32 (finish fF32 rm ftz [x, y] (x.div y))

/-- The lesser or greater operand's own pattern (R224). -/
def pickMM (f : Fmt) (ftz mx : Bool) (a b : Nat) : Nat × Fpx :=
  let x := (f.read a).flush ftz
  let y := (f.read b).flush ftz
  if x.isNan || y.isNan then (f.nan, FVal.sigBits [x, y])
  else
    let own (v : FVal) (k : Nat) : Nat := if v.isZero then f.sign v.neg? else k
    let second := if mx then x.below y else y.below x
    (if second then own y b else own x a, 0)

def fmm32 (ftz mx : Bool) (a b : Word) : FRes := res32 (pickMM fF32 ftz mx a.toNat b.toNat)

/-- Table 11.3. -/
def classOf (f : Fmt) (v : Nat) : Nat :=
  match f.read v with
  | .nan s => if s then 8 else 9
  | .inf n => if n then 0 else 7
  | .num n m _ =>
    if m = 0 then (if n then 3 else 4)
    else if m < 2 ^ f.p then (if n then 2 else 5)
    else (if n then 1 else 6)

def fclass32 (src : FSrc) (a : Word) : Word :=
  BitVec.ofNat 32 (2 ^ (match src with
    | .f32 => classOf fF32 a.toNat
    | .f16 h => classOf fF16 (bitsOf a.toNat (if h then 16 else 0) 16)
    | .bf16 h => classOf fBF16 (bitsOf a.toNat (if h then 16 else 0) 16)))

/-- x × 2^s, rounded once (R227, R239). Beyond ±600 the result no longer depends on s. -/
def scale32 (rm : RM) (ftz : Bool) (x : FVal) (s : Int) : FRes :=
  let s := clampInt (-600) 600 s
  let v : FVal := match x with
    | .num n m e => .num n m (e + s)
    | v => v
  res32 (finish fF32 rm ftz [x] (v, 0))

/-- The integral value that x rounds to (R228). -/
def frnd32 (rm : RM) (ftz : Bool) (a : Word) : FRes :=
  match read32 ftz a with
  | .nan s => (BitVec.ofNat 32 fF32.nan, if s then fpxNV else 0)
  | .inf n => (BitVec.ofNat 32 (fF32.sign n + fF32.inf), 0)
  | .num n m e =>
    if 23 ≤ (Nat.log2 m : Int) + e then (a, 0)
    else
      let (k, _) := roundAt rm n m e 0
      (BitVec.ofNat 32 (fF32.roundNum .rne false n k 0).1, 0)

/-! ### Special functions (R229, Table 11.4) -/

def rcpVal (x : FVal) : FVal × Fpx := (FVal.num false 1 0).div x

def rsqVal : FVal → FVal × Fpx
  | .nan _ => (.nan false, 0)
  | .inf n => if n then (.nan false, fpxNV) else (.num false 0 0, 0)
  | .num n m e =>
    if m = 0 then (.inf n, fpxDZ)
    else if n then (.nan false, fpxNV)
    else let (r, x) := rsqrtSticky m e; (.num false r x, 0)

def sqrtVal : FVal → FVal × Fpx
  | .nan _ => (.nan false, 0)
  | .inf n => if n then (.nan false, fpxNV) else (.inf false, 0)
  | .num n m e =>
    if m = 0 then (.num n 0 0, 0)
    else if n then (.nan false, fpxNV)
    else let (r, x) := sqrtSticky m e; (.num false r x, 0)

def exp2Val : FVal → FVal × Fpx
  | .nan _ => (.nan false, 0)
  | .inf n => if n then (.num false 0 0, 0) else (.inf false, 0)
  | .num n m e =>
    if m = 0 then (.num false 1 0, 0)
    else if 10 ≤ (Nat.log2 m : Int) + e then (.num false 1 (if n then -2000 else 2000), 0)
    else let (r, x) := exp2Dy n m e; (.num false r x, 0)

def log2Val : FVal → FVal × Fpx
  | .nan _ => (.nan false, 0)
  | .inf n => if n then (.nan false, fpxNV) else (.inf false, 0)
  | .num n m e =>
    if m = 0 then (.inf true, fpxDZ)
    else if n then (.nan false, fpxNV)
    else let (s, r, x) := log2Dy m e; (.num s r x, 0)

def sinVal : FVal → FVal × Fpx
  | .nan _ => (.nan false, 0)
  | .inf _ => (.nan false, fpxNV)
  | .num n m e =>
    if m = 0 then (.num n 0 0, 0)
    else
      let (k, q) := modTwo m e
      let (s, r, x) := sinTurn k q
      if r = 0 then (.num n 0 0, 0) else (.num (n != s) r x, 0)

def cosVal : FVal → FVal × Fpx
  | .nan _ => (.nan false, 0)
  | .inf _ => (.nan false, fpxNV)
  | .num _ m e =>
    if m = 0 then (.num false 1 0, 0)
    else if (Nat.log2 m : Int) + e < -60 then (.num false (2 ^ 100 - 1) (-100), 0)
    else
      let (k, q) := modTwo m e
      -- cos(π x) = sin(π (x + 1/2)), in units of 2^q with q ≤ −1
      let (k, q) := if q = 0 then (2 * k, (-1 : Int)) else (k, q)
      let (s, r, x) := sinTurn ((k + 2 ^ ((-q).toNat - 1)) % 2 ^ (1 + (-q).toNat)) q
      if r = 0 then (.num false 0 0, 0) else (.num s r x, 0)

def special32 (f : FVal → FVal × Fpx) (rm : RM) (ftz : Bool) (a : Word) : FRes :=
  let x := read32 ftz a
  res32 (finish fF32 rm ftz [x] (f x))

/-! ### Packed FP16 and BF16 (R230 to R232) -/

def pkFmt (bf : Bool) : Fmt := if bf then fBF16 else fF16
def half (a : Word) (k : Nat) : Nat := bitsOf a.toNat (16 * k) 16
def pack16 (lo hi : Nat × Fpx) : FRes := (BitVec.ofNat 32 (lo.1 + hi.1 * 2 ^ 16), lo.2 ||| hi.2)

def pk2 (bf : Bool) (op : FVal → FVal → Nat × Fpx) (a b : Word) : FRes :=
  let f := pkFmt bf
  pack16 (op (f.read (half a 0)) (f.read (half b 0))) (op (f.read (half a 1)) (f.read (half b 1)))
def pkadd32 (bf : Bool) (rm : RM) (a b : Word) : FRes := pk2 bf (addF (pkFmt bf) rm false) a b
def pkmul32 (bf : Bool) (rm : RM) (a b : Word) : FRes := pk2 bf (mulF (pkFmt bf) rm false) a b
def pkfma32 (bf : Bool) (rm : RM) (a b c : Word) : FRes :=
  let f := pkFmt bf
  let one (k : Nat) : Nat × Fpx := fmaF f rm false (f.read (half a k)) (f.read (half b k)) (f.read (half c k))
  pack16 (one 0) (one 1)
def pkmm32 (bf mx : Bool) (a b : Word) : FRes :=
  let one (k : Nat) : Nat × Fpx := pickMM (pkFmt bf) false mx (half a k) (half b k)
  pack16 (one 0) (one 1)

def dot32 (bf : Bool) (rm : RM) (ftz : Bool) (a b c : Word) : FRes :=
  let f := pkFmt bf
  let xs := [f.read (half a 0), f.read (half b 0), f.read (half a 1), f.read (half b 1)]
  let (p, n) := (f.read (half a 0)).mul (f.read (half b 0))
  let (q, k) := (f.read (half a 1)).mul (f.read (half b 1))
  let z := read32 ftz c
  let (v, j) := FVal.sum rm [p, q, z]
  res32 (finish fF32 rm ftz (xs ++ [z]) (v, n ||| k ||| j))

/-! ### Conversions (R234 to R239) -/

def f2iRes (ftz u : Bool) (src : FSrc) (rm : RM) (a : Word) : FRes :=
  let (v, r) := if u then narrowInt rm 0 (2 ^ 32 - 1) (FSrc.pick src ftz a)
    else narrowInt rm (-(2 ^ 31)) (2 ^ 31 - 1) (FSrc.pick src ftz a)
  (BitVec.ofInt 32 v, r)

def i2fRes (u : Bool) (dst : IFmt) (rm : RM) (a : Word) : FRes :=
  let v : Int := if u then a.toNat else a.toInt
  res32 ((Fmt.ofI dst).roundNum rm false (decide (v < 0)) v.natAbs 0)

/-- A value written in a format, FTZ for an FP32 result. -/
def convert (dst : IFmt) (rm : RM) (ftz : Bool) (x : FVal) : Nat × Fpx := finish (Fmt.ofI dst) rm ftz [x] (x, 0)

def f2fRes (ftz : Bool) (dst : IFmt) (src : FSrc) (rm : RM) (a : Word) : FRes := res32 (convert dst rm ftz (FSrc.pick src ftz a))

/-- One byte of PACKN (R237). -/
def packByte (fmt : NFmt) (rm : RM) (x : FVal) : Nat × Fpx :=
  match fmt with
  | .e4m3 => fE4M3.narrow rm x
  | .e5m2 => fE5M2.narrow rm x
  | _ =>
    let (v, r) := narrowInt rm (-128) 127 x
    ((v % 256).toNat, r)

def packnRes (ftz : Bool) (fmt : NFmt) (rm : RM) (ws : List Word) : FRes :=
  match fmt with
  | .f16 | .bf16 =>
    let d : IFmt := if fmt = .f16 then .f16 else .bf16
    pack16 (convert d rm ftz (read32 ftz (getAt 0 ws 0))) (convert d rm ftz (read32 ftz (getAt 0 ws 1)))
  | _ =>
    let bs := ws.map fun w => packByte fmt rm (read32 ftz w)
    (BitVec.ofNat 32 (bs.foldr (fun b acc => b.1 + 256 * acc) 0), bs.foldl (fun r b => r ||| b.2) 0)

def unpackVal (fmt : NFmt) (a : Word) (k : Nat) : FVal :=
  match fmt with
  | .f16 => fF16.read (half a k)
  | .bf16 => fBF16.read (half a k)
  | .e4m3 => fE4M3.read (bitsOf a.toNat (8 * k) 8)
  | .e5m2 => fE5M2.read (bitsOf a.toNat (8 * k) 8)
  | .i8 =>
    let v := signExtend 8 (bitsOf a.toNat (8 * k) 8)
    .num (decide (v < 0)) v.natAbs 0

def unpacknRes (fmt : NFmt) (a : Word) : List Word × Fpx :=
  let rs := (seqFrom 0 (if fmt.wide then 2 else 4)).map fun k => res32 (convert .f32 .rne false (unpackVal fmt a k))
  (rs.map (·.1), rs.foldl (fun r b => r ||| b.2) 0)

def bscaleRes (inv ftz : Bool) (rm : RM) (a b : Word) (k : Nat) : FRes :=
  let g := bitsOf b.toNat (8 * k) 8
  if g = 0xFF then (BitVec.ofNat 32 fF32.nan, fpxNV)
  else scale32 rm ftz (read32 ftz a) (if inv then 127 - g else g - 127)

/-! ### Blocks (R197, R208, R209) -/

def slotBlock (w : Word) : Bool := bitsOf w.toNat 8 2 == 1
def slotSpec (w : Word) : Bool := w.getLsbD 12
def slotA (w : Word) : Nat := bitsOf w.toNat 0 4
def slotB (w : Word) : Nat := bitsOf w.toNat 4 4

/-- R211. -/
def slotLegal (w : Word) : Bool :=
  let bl := bitsOf w.toNat 8 2
  let sc := bitsOf w.toNat 10 2
  let narrow (f : Nat) : Bool := decide (3 ≤ f) && decide (f ≤ 5)
  bitsOf w.toNat 18 14 == 0 && bitsOf w.toNat 13 3 == 0 && decide (slotA w ≤ 6) && decide (slotB w ≤ 6) &&
  bitsOf w.toNat 16 2 != 3 && decide (bl ≤ 1) && decide (sc ≤ 1) && bl == sc &&
  (bl == 0 || (narrow (slotA w) && narrow (slotB w))) &&
  (bl == 1 || (slotA w != 5 && slotB w != 5)) &&
  (!slotSpec w || slotA w == 5 || slotB w == 5)

/-- The descriptor that QBLK and DQBLK take (R240). -/
def slotE2m1 (w : Word) : Bool := slotBlock w && (slotA w == 5 || slotB w == 5)

/-- The value of an E2M1 element (R197), its scale included. -/
def e2m1Val (spec : Bool) (scale special code : Nat) : FVal :=
  if scale = 0xFF then .nan false
  else
    let s : Int := (scale : Int) - 127
    let v : FVal :=
      if code = 8 then (if spec ∧ special % 128 ≠ 0 then fSpecial.read special else .num true 0 0)
      else fE2M1.read code
    match v with
    | .num n m e => .num n m (e + s)
    | v => v

def FVal.absDiff (x y : FVal) : Nat × Int :=
  let q := min x.expo y.expo
  ((x.mant q - y.mant q).natAbs, q)
/-- Magnitude comparison of two dyadic numbers. -/
def dyLt (a b : Nat × Int) : Bool :=
  let q := min a.2 b.2
  decide (mantAt false a.1 a.2 q < mantAt false b.1 b.2 q)
def FVal.mag : FVal → Nat × Int
  | .num _ m e => (m, e)
  | _ => (0, 0)
def FVal.scaled (v : FVal) (s : Int) : FVal :=
  match v with
  | .num n m e => .num n m (e + s)
  | v => v

/-- E2M1 code of x ÷ 2^s, and whether it was saturated (R208). -/
def e2m1Code (x : FVal) (s : Int) : Nat × Bool :=
  match x with
  | .num n m e =>
    if m = 0 then (0, false)
    else
      let (c, _, _) := roundCode fE2M1 .rne n m (e - s)
      let k := min c 7
      (if k = 0 then 0 else if n then 8 + k else k, decide (7 < c))
  | _ => (0, false)

/-- R208: codes, side word and FPX bits. -/
def quantise (spec : Bool) (xs : List FVal) : List Nat × Nat × Fpx :=
  if xs.any fun x => x.isNan || x.isInf then
    (xs.map fun _ => 0, 0xFF, fpxBNAN ||| FVal.sigBits xs ||| (if xs.any FVal.isInf then fpxNV else 0))
  else
    let m := xs.foldl (fun a x => if dyLt a x.mag then x.mag else a) (0, 0)
    let sb : Nat := if m.1 = 0 then 0 else (clampInt 0 254 ((Nat.log2 m.1 : Int) + m.2 - 2 + 127)).toNat
    let s : Int := (sb : Int) - 127
    let gs := xs.map fun x => e2m1Code x s
    let val (c : Nat) : FVal := (fE2M1.read c).scaled s
    let plain := gs.map (·.1)
    let sp : Option Nat :=
      if spec ∧ m.1 ≠ 0 then
        match (xs.zip plain).find? fun q => !dyLt q.1.mag m with
        | some (x, c) =>
          let (k, _, _) := roundCode fSpecial .rne x.neg? x.mag.1 (x.mag.2 - s)
          let code := fSpecial.sign x.neg? + min k 127
          if dyLt (x.absDiff ((fSpecial.read code).scaled s)) (x.absDiff (val c)) then some code else none
        | none => none
      else none
    let pick (x : FVal) (c : Nat) : Nat :=
      match sp with
      | some code => if dyLt (x.absDiff ((fSpecial.read code).scaled s)) (x.absDiff (val c)) then 8 else c
      | none => c
    let codes := (xs.zip plain).map fun q => pick q.1 q.2
    let special := sp.getD 0
    let inexact := (xs.zip codes).any fun q => (q.1.absDiff (e2m1Val spec sb special q.2)).1 != 0
    let sat := (gs.zip codes).any fun q => q.1.2 && q.2 == q.1.1
    (codes, sb + 256 * special, (if inexact then fpxNX else 0) ||| (if sat then fpxSAT ||| fpxNX else 0))

/-- Packs 32 four-bit codes into four words (R198). -/
def packCodes : Nat → List Nat → List Word
  | 0, _ => []
  | n + 1, cs => BitVec.ofNat 32 ((cs.take 8).foldr (fun c acc => c + 16 * acc) 0) :: packCodes n (cs.drop 8)

/-- The sources of QBLK (R240). -/
def blockSources (src : IFmt) (ftz : Bool) (ws : List Word) : List FVal :=
  (seqFrom 0 32).map fun i =>
    match src with
    | .f32 => read32 ftz (getAt 0 ws i)
    | .f16 => fF16.read (half (getAt 0 ws (i / 2)) (i % 2))
    | .bf16 => fBF16.read (half (getAt 0 ws (i / 2)) (i % 2))

/-- The results of DQBLK (R241): its registers and FPX bits. -/
def dequantise (spec ftz : Bool) (dst : IFmt) (codes : List Word) (side : Word) : List Word × Fpx :=
  let scale := bitsOf side.toNat 0 8
  let special := bitsOf side.toNat 8 8
  let rs := (seqFrom 0 32).map fun i =>
    convert dst .rne ftz (e2m1Val spec scale special (bitsOf (getAt 0 codes (i / 8)).toNat (4 * (i % 8)) 4))
  let bits := (rs.foldl (fun r b => r ||| b.2) 0) ||| (if scale = 0xFF then fpxNV else 0)
  let vs := rs.map (·.1)
  (match dst with
   | .f32 => vs.map (BitVec.ofNat 32)
   | _ => (seqFrom 0 16).map fun k => BitVec.ofNat 32 (getAt 0 vs (2 * k) + getAt 0 vs (2 * k + 1) * 2 ^ 16),
   bits)

/-! ### Combining operations (R213, Tables 12.5, 15.3, 18.4) -/

/-- REDUX and SCAN combine two words. -/
def redCombine (op : RedOp) (ftz : Bool) (a b : Word) : FRes :=
  match op with
  | .add => (a + b, 0)
  | .min => (if b.toInt < a.toInt then b else a, 0)
  | .max => (if a.toInt < b.toInt then b else a, 0)
  | .umin => (if b.toNat < a.toNat then b else a, 0)
  | .umax => (if a.toNat < b.toNat then b else a, 0)
  | .and => (a &&& b, 0)
  | .or => (a ||| b, 0)
  | .xor => (a ^^^ b, 0)
  | .fadd => fadd32 .rne ftz a b
  | .fmin => fmm32 ftz false a b
  | .fmax => fmm32 ftz true a b
  | .pkaddh => pkadd32 false .rne a b
  | .pkaddb => pkadd32 true .rne a b

/-- Table 12.5. -/
def redIdentity : RedOp → Word
  | .add | .umax | .or | .xor => 0
  | .min => 0x7FFFFFFF
  | .max => 0x80000000
  | .umin | .and => 0xFFFFFFFF
  | .fadd => 0x80000000
  | .fmin => 0x7F800000
  | .fmax => 0xFF800000
  | .pkaddh | .pkaddb => 0x80008000

/-- The new value of an atomic operation on an unsigned `n`-byte value (Table 15.3). -/
def atomNew (op : AtomOp) (n old b c : Nat) : Nat :=
  let o : Word := BitVec.ofNat 32 old
  let w : Word := BitVec.ofNat 32 b
  match op with
  | .fadd => (fadd32 .rne false o w).1.toNat
  | .fmin => (fmm32 false false o w).1.toNat
  | .fmax => (fmm32 false true o w).1.toNat
  | .pkaddh => (pkadd32 false .rne o w).1.toNat
  | .pkaddb => (pkadd32 true .rne o w).1.toNat
  | op => atomInt op n old b c

/-- LDG combines two words (Table 18.4). -/
def ldgCombine (op : LdgOp) (ty : LdgTy) (a b : Word) : Word :=
  match op with
  | .and => a &&& b
  | .or => a ||| b
  | .xor => a ^^^ b
  | .add => match ty with
    | .s32 => a + b
    | .f32 => (fadd32 .rne false a b).1
    | .f16x2 => (pkadd32 false .rne a b).1
    | .bf16x2 => (pkadd32 true .rne a b).1
  | .min | .mini => match ty with
    | .s32 => if b.toInt < a.toInt then b else a
    | .f32 => (fmm32 false false a b).1
    | .f16x2 => (pkmm32 false false a b).1
    | .bf16x2 => (pkmm32 true false a b).1
  | .max => match ty with
    | .s32 => if a.toInt < b.toInt then b else a
    | .f32 => (fmm32 false true a b).1
    | .f16x2 => (pkmm32 false true a b).1
    | .bf16x2 => (pkmm32 true true a b).1

def ldgIdentity (op : LdgOp) (ty : LdgTy) : Word :=
  match op, ty with
  | .add, .s32 => 0
  | .add, .f32 => 0x80000000
  | .add, _ => 0x80008000
  | .min, .s32 | .mini, .s32 => 0x7FFFFFFF
  | .min, .f32 | .mini, .f32 => 0x7F800000
  | .min, .f16x2 | .mini, .f16x2 => 0x7C007C00
  | .min, .bf16x2 | .mini, .bf16x2 => 0x7F807F80
  | .max, .s32 => 0x80000000
  | .max, .f32 => 0xFF800000
  | .max, .f16x2 => 0xFC00FC00
  | .max, .bf16x2 => 0xFF80FF80
  | .and, _ => 0xFFFFFFFF
  | .or, _ | .xor, _ => 0

/-- The order of FP32 values of Table 12.6: a NaN loses to every number. -/
def redixBetter (mx : Bool) (ty : RedixTy) (ftz : Bool) (a b : Word) : Bool :=
  match ty with
  | .s32 => if mx then decide (a.toInt > b.toInt) else decide (a.toInt < b.toInt)
  | .u32 => if mx then decide (a.toNat > b.toNat) else decide (a.toNat < b.toNat)
  | .f32 =>
    let x := read32 ftz a
    let y := read32 ftz b
    if x.isNan then false else if y.isNan then true else if mx then y.below x else x.below y

/-- The entry that REDIX and LDG.MINI choose: the better value, then the lower index. -/
def redixPick (mx : Bool) (ty : RedixTy) (ftz : Bool) (x y : Word × Word) : Word × Word :=
  if redixBetter mx ty ftz y.1 x.1 then y
  else if redixBetter mx ty ftz x.1 y.1 then x
  else if y.2.toNat < x.2.toNat then y else x

/-- The pattern that REDIX writes: after FTZ, and the canonical NaN. -/
def redixOut (ty : RedixTy) (ftz : Bool) (v : Word) : Word :=
  match ty with
  | .f32 =>
    match read32 ftz v with
    | .nan _ => 0x7FC00000
    | .num n 0 _ => BitVec.ofNat 32 (fF32.sign n)
    | _ => v
  | _ => v

/-- One level of the lane tree of R214, over 32 values. -/
def treeLevel (f : Word → Word → FRes) : List Word → List Word × Fpx
  | a :: b :: l =>
    let (v, r) := f a b
    let (l', r') := treeLevel f l
    (v :: l', r ||| r')
  | l => (l, 0)
/-- The tree of R214 and R217; `fuel` bounds its levels. -/
def treeRun (f : Word → Word → FRes) : Nat → List Word → Word × Fpx
  | 0, l => (l.headD 0, 0)
  | n + 1, l =>
    match l with
    | [v] => (v, 0)
    | l =>
      let (l', r) := treeLevel f l
      let (v, r') := treeRun f n l'
      (v, r ||| r')

/-- One step of the prefix of R215, at distance `d`. -/
def scanStep (f : Word → Word → FRes) (d : Nat) (v : List Word) : List Word × Fpx :=
  let out := (seqFrom 0 v.length).map fun l => if d ≤ l then f (getAt 0 v (l - d)) (getAt 0 v l) else (getAt 0 v l, 0)
  (out.map (·.1), out.foldl (fun r b => r ||| b.2) 0)
def scanRun (f : Word → Word → FRes) : List Nat → List Word → List Word × Fpx
  | [], v => (v, 0)
  | d :: ds, v =>
    let (v', r) := scanStep f d v
    let (v'', r') := scanRun f ds v'
    (v'', r ||| r')

end Sys2Proof.Machine
end

