-- ==== Sys2Proof/Machine/Barrel.lean ====
section
/-! DEFINITION. Records and residency (chapter 07): flag operations that land (R51, R54), segment ends (R129 to R135), completions (R133), bins and drains (R136, R137), release sets (R160). -/

namespace Sys2Proof.Machine

open Sys2Proof

/-! ### A thread's kernel and live sets -/

/-- A kernel of an image loaded for the context, by its entry line (R23). -/
def Ctx.kernel? (c : Ctx) (entry : DWord) : Option Kernel := (c.images.flatMap (·.kernels)).find? fun k => k.entry == entry

/-- The kernel whose code a thread runs; a scalar thread takes REGS and the tables of its own, and no other header field (R121). -/
def State.kernelOf (s : State) (t : Tid) : Option Kernel :=
  match t with
  | .thr _ _ _ _ _ => (s.gridOf t).map (·.kernel)
  | .scalar k => match (s.core k).bind with
    | some b => match s.ctx? b.ctx with
      | some c => (c.kernel? b.entry).map fun x => { x with ftzd := false }
      | none => none
    | none => none

/-- Live-list entry (R31). -/
def Kernel.liveEntry (k : Kernel) (d : Nat) : Option (List Nat) := k.live[d]?

/-- The standing live set (R128). -/
def State.standing (s : State) (th : Thread) : List Nat :=
  if th.lsv then ((s.kernelOf th.id).bind fun k => k.liveEntry th.livesel).getD [] ++ (if th.live255 then [255] else [])
  else seqFrom 0 (min 16 th.nregs)

/-- Insertion in ascending lane order. -/
def byLane (t : Tid) : List Tid → List Tid
  | [] => [t]
  | x :: xs => if Tid.lane t < Tid.lane x then t :: x :: xs else x :: byLane t xs

def sortLanes (ts : List Tid) : List Tid := ts.foldl (fun l t => byLane t l) []

/-- Insertion behind everything that `x` does not come before. -/
def putBefore {α : Type} (lt : α → α → Bool) (x : α) : List α → List α
  | [] => [x]
  | y :: ys => if lt x y then x :: y :: ys else y :: putBefore lt x ys

/-- A list in the order of `lt`; ties keep their order. -/
def inOrder {α : Type} (lt : α → α → Bool) (l : List α) : List α := l.foldl (fun acc x => putBefore lt x acc) []

/-- Cycles since a 32-bit stamp. -/
def State.ageOf (s : State) (stamp : Nat) : Nat := (s.cycle + 2 ^ 32 - stamp % 2 ^ 32) % 2 ^ 32

/-- AGELIM of a context (CTXSCHED). -/
def State.ageLimit (s : State) (ctx : Nat) : Nat :=
  match s.ctx? ctx with
  | some c => c.ctxsched.toNat % 2 ^ 16
  | none => 0

/-- Numbers of both lists, ascending, each once. -/
def unionRegs (a b : List Nat) : List Nat := (seqFrom 0 256).filter fun n => a.contains n || b.contains n

/-- Every register outside `live` reads 0 at resumption (R130). -/
def keepFrom (live : List Nat) : Nat → List Word → List Word
  | _, [] => []
  | n, w :: ws => (if live.contains n then w else 0) :: keepFrom live (n + 1) ws
def Regs.keepOnly (r : Regs) (live : List Nat) : Regs :=
  { r with x := keepFrom live 0 r.x, bad := r.bad.filter fun n => live.contains n }

/-! ### Flag operations -/

def FlagOp.land (o : FlagOp) (r : Regs) : Regs := r.putAll o.xs o.ps
def FlagOp.landShadow (o : FlagOp) (r : Regs) : Regs := r.putAll o.shadowXs o.shadowPs

/-- Sticky bits into the FPX of the thread's team, or of the scalar thread (R204, R205). -/
def State.setFpx (s : State) (t : Tid) (f : Fpx) : State :=
  match t with
  | .thr c g k _ _ => s.modTeam c g k fun tm => { tm with fpx := tm.fpx ||| f }
  | .scalar _ => s.modThread t fun th => { th with fpx := th.fpx ||| f }

/-- Pending flags as a mask; bit 15 stands for a stall (R52). -/
def Thread.flags (th : Thread) : Nat :=
  (seqFrom 0 12).foldl (fun m k => if th.ops.any fun o => o.flag == some k then m + 2 ^ k else m) 0
def Thread.stalled (th : Thread) : Bool := th.ops.any fun o => o.flag.isNone

/-- One operation lands: its results, then its flag clears (R51). -/
def Thread.landOne (th : Thread) (k : Nat) : Thread :=
  match th.ops[k]? with
  | some o => { th with regs := o.land th.regs, shadow := th.shadow.map o.landShadow, ops := th.ops.eraseIdx k }
  | none => th

/-- Operation `k` of a thread completes (R51); one of a matrix quarter completes with those of all its participants (R356). -/
def State.landOp (s : State) (t : Tid) (k : Nat) : State :=
  match s.thread? t with
  | none => s
  | some th =>
    match th.ops[k]? with
    | none => s
    | some o =>
      if o.batch = 0 then (s.modThread t fun th => th.landOne k).setFpx t o.fpx
      else s.threads.foldl (fun s y =>
        match y.ops.findIdx? fun x => x.batch == o.batch with
        | some j => (s.modThread y.id fun th => th.landOne j).setFpx y.id ((y.ops[j]?.map (·.fpx)).getD 0)
        | none => s) s

/-- Every incomplete flag-setting operation of a thread completes (R54). -/
def State.landAll (s : State) (t : Tid) : State :=
  match s.thread? t with
  | none => s
  | some th => th.ops.foldl (fun s _ => s.landOp t 0) s

/-! ### Moving on -/

/-- Continues at the sequential successor (R44). -/
def Thread.advance (th : Thread) : Thread :=
  { th with pc := succPc th.pc, arr := if pcSlot th.pc < 4 then .inLine else .fall }
def State.advance (s : State) (t : Tid) : State := s.modThread t Thread.advance

/-- A transfer of control (R150). -/
def Thread.transfer (th : Thread) (dst : DWord) (checked : Bool) : Thread :=
  { th with pc := dst, arr := if checked then .checked else .unchecked }
def State.transfer (s : State) (t : Tid) (dst : DWord) : State := s.modThread t fun th => th.transfer dst true

/-! ### The pool (R135) -/

def Thread.pooled (th : Thread) : Bool :=
  match th.loc with
  | .parked | .offered _ => true
  | _ => false

def State.poolAt (s : State) (lvl : Nat) (p : Thread → Bool) : List Thread :=
  s.threads.filter fun th => th.pooled && th.level == lvl && p th

/-- Capacity of level 2 for a context. -/
def Ctx.poolMib (c : Ctx) : Nat := c.recpool.toNat % 4096

/-- Waiting records first, then the one parked longest. -/
def oldestOf (l : List Thread) : Option Thread :=
  let pick (l : List Thread) : Option Thread :=
    l.foldl (fun a th => match a with
      | none => some th
      | some b => if th.stamp < b.stamp then some th else some b) none
  match l.filter fun th => th.pend != 0 with
  | [] => pick l
  | w => pick w

def State.setLevel (s : State) (t : Tid) (lvl : Nat) : State := s.modThread t fun th => { th with level := lvl }

def State.room2 (s : State) (c : Nat) : Bool :=
  match s.ctx? c with
  | some x => decide ((s.poolAt 2 fun th => s.ctxOf th.id == c).length < x.poolMib * 8192)
  | none => false

/-- Moves a record of level 1 of the die down, if level 1 is full. -/
def State.makeRoom1 (s : State) (d : Nat) : Option State :=
  let l := s.poolAt 1 fun th => s.dieOf th.core == d
  if l.length < (s.die d).units * 1024 then some s
  else match oldestOf l with
    | none => none
    | some v => if s.room2 (s.ctxOf v.id) then some (s.setLevel v.id 2) else none

/-- Room for one record at level 0 of a core, if any level has it (R135). -/
def State.makeRoom (s : State) (core : Nat) : Option State :=
  let l := s.poolAt 0 fun th => th.core == core
  if l.length < 1024 then some s
  else match oldestOf l with
    | none => none
    | some v =>
      match s.makeRoom1 (s.dieOf core) with
      | some s' => some (s'.setLevel v.id 1)
      | none => if (s.die (s.dieOf core)).units = 0 ∧ s.room2 (s.ctxOf v.id) then some (s.setLevel v.id 2) else none

/-! ### Registers and thread slots of a core (R8, R9, R126, R143) -/

/-- Registers per lane and groups of one team; doubled in redundant mode (R109). -/
def Kernel.lanesRegs (k : Kernel) (red : Bool) : Nat := (k.roles.foldl (fun n r => n + r.1 * r.2) 0) * (if red then 2 else 1)
def Kernel.groups (k : Kernel) : Nat := k.roles.foldl (fun n r => n + r.1) 0
def Kernel.slots (k : Kernel) (red : Bool) : Nat := k.groups * (if red then 2 else 1)

def State.teamsOn (s : State) (core : Nat) : List Team := s.teams.filter fun tm => tm.core == core && tm.saved.isNone

/-- Registers per lane that a team holds on its core (R9). -/
def State.useOf (s : State) (tm : Team) : Nat :=
  match s.grid? tm.ctx tm.grid, s.ctx? tm.ctx with
  | some g, some c => g.kernel.lanesRegs c.redundant
  | _, _ => 0
def State.teamUse (s : State) (core : Nat) : Nat := (s.teamsOn core).foldl (fun n tm => n + s.useOf tm) 0

/-- A thread and its shadow (R109). -/
def Thread.copies (th : Thread) : Nat := if th.shadow.isSome then 2 else 1

/-- The thread slots of lane `l` in use on a core: resident threads that satisfy `p`, and guests with their blocks; parked threads do not count (R126, R143). -/
def State.slotsUsed (s : State) (core l : Nat) (p : Thread → Bool) : Nat :=
  s.threads.foldl (fun n th =>
    if th.core == core && th.lane == l && !th.isScalar && ((th.loc == .resident && p th) || th.guest) then n + th.copies else n) 0

/-- Registers of lane `l` that guests hold on a core (R143). -/
def State.guestRegs (s : State) (core l : Nat) : Nat :=
  s.threads.foldl (fun n th => if th.guest && th.core == core && th.lane == l then n + th.copies * th.nregs else n) 0

/-- A thread slot of the record's lane is free on a core and, away from its team's core, the registers of a guest block (R8, R126, R143). -/
def State.laneRoom (s : State) (core : Nat) (th : Thread) : Bool :=
  th.guest ||
  (decide (s.slotsUsed core th.lane (fun _ => true) + th.copies ≤ 64) &&
   (th.home == core || decide (s.teamUse core + s.guestRegs core th.lane + th.copies * th.nregs ≤ 4096)))

/-! ### Bins (R136, R137) -/

def Tid.ctxNum : Tid → Nat
  | .thr c _ _ _ _ => c
  | .scalar _ => 0
def Tid.gridNum : Tid → Nat
  | .thr _ g _ _ _ => g
  | .scalar _ => 0

/-- BinIndex(RESUME, GRID). -/
def binIndex (c : DWord) (g : Nat) : Nat :=
  bitsOf c.toNat 6 6 ^^^ bitsOf c.toNat 12 6 ^^^ bitsOf c.toNat 18 6 ^^^ (c.toNat % 8 * 8) ^^^ (g % 64)

def Core.bin? (c : Core) (n : Nat) : Option Bin := c.bins.find? fun b => b.num == n
def Core.setBin (c : Core) (b : Bin) : Core :=
  let rest := c.bins.filter fun x => x.num != b.num
  { c with bins := if b.places.isEmpty && b.overflow.isEmpty then rest else rest ++ [b] }

def laneFree (l : List Tid) (t : Tid) : Bool := !(l.any fun x => Tid.lane x == Tid.lane t)
def sameKey (c g : Nat) (pc : DWord) (th : Thread) : Bool :=
  Tid.ctxNum th.id == c && Tid.gridNum th.id == g && th.pc == pc

def State.hasKey (s : State) (c g : Nat) (pc : DWord) (t : Tid) : Bool :=
  match s.thread? t with
  | some th => sameKey c g pc th
  | none => false

/-- Moves into their places, in list order, every listed record with the bin's key whose lane is free. -/
def fillPlaces (has : Tid → Bool) : List Tid → List Tid → List Tid × List Tid
  | places, [] => (places, [])
  | places, t :: ts =>
    if has t && laneFree places t then fillPlaces has (places ++ [t]) ts
    else
      let (p, o) := fillPlaces has places ts
      (p, t :: o)

/-- The bin after a drain: a new key when its places are empty, then the refill (R137). -/
def State.refill (s : State) (b : Bin) : Bin :=
  let b := match b.places, b.overflow with
    | [], t :: _ => match s.thread? t with
      | some th => { b with ctx := Tid.ctxNum t, grid := Tid.gridNum t, pc := th.pc }
      | none => b
    | _, _ => b
  let (p, o) := fillPlaces (s.hasKey b.ctx b.grid b.pc) b.places b.overflow
  { b with places := p, overflow := o }

/-- Records handed to the Escapement become resident threads; the watchdog restarts, except for a whole record that resumes its own segment (R137, R140, R405). Away from its team's core the thread has a guest register block (R143). -/
def Thread.resume (th : Thread) (cycle : Nat) : Thread :=
  { th with loc := .resident, wait := .none, hold := false, live := [], since := th.ready, wdStart := cycle
            wdUsed := if th.whole then th.wdUsed else 0, whole := false, spec := false, ext := false, remote := none
            guest := th.home != th.core }

/-- Cycles since the oldest wait stamp of an entry's threads (R140). -/
def State.entryAge (s : State) (e : EscEntry) : Nat :=
  e.ts.foldl (fun m t => match s.thread? t with
    | some th => max m (s.ageOf th.since)
    | none => m) 0

/-- The position of the oldest entry that passes a test. -/
def State.oldestEntry (s : State) (es : List EscEntry) (p : EscEntry → Bool) : Option Nat :=
  ((es.zip (seqFrom 0 es.length)).filter fun q => p q.1).foldl (fun o q => match o with
    | none => some (q.2, s.entryAge q.1)
    | some (k, a) => if a < s.entryAge q.1 then some (q.2, s.entryAge q.1) else some (k, a)) (none : Option (Nat × Nat))
    |>.map (·.1)

/-- Two threads of one group of one team. -/
def Tid.sameGroup : Tid → Tid → Bool
  | .thr c g k q _, .thr c' g' k' q' _ => c == c' && g == g' && k == k' && q == q'
  | _, _ => false

/-- The entries with drained threads of one key: they stay together, in the oldest entry of their key where all their lanes are free and, for a release set, only their own group stands, else in an entry of their own (R137, R140, R160). -/
def State.joinEntries (s : State) (own : Bool) (es : List EscEntry) (ctx grid : Nat) (pc : DWord) (ts : List Tid) : List EscEntry :=
  match s.oldestEntry es fun e =>
      e.ctx == ctx && e.grid == grid && e.pc == pc && ts.all (laneFree e.ts) && (!own || ts.all fun t => e.ts.all (Tid.sameGroup t)) with
  | some k => (es.zip (seqFrom 0 es.length)).map fun q => if q.2 = k then { q.1 with ts := q.1.ts ++ ts } else q.1
  | none => es ++ [{ ctx, grid, pc, ts }]

/-- A drain of `ts` must wait: no entry is free (R137), or not every lane has room (R8, R126, R143; log 58). -/
def State.drainStuck (s : State) (core : Nat) (ts : List Tid) : Bool :=
  decide (128 ≤ (s.core core).entries.length) || !ts.all fun t => (s.thread? t).all (s.laneRoom core)

/-- Drains `ts` of one key together (R137), once they can be. -/
def State.drainAs (s : State) (own : Bool) (core : Nat) (ts : List Tid) : State :=
  match ts with
  | [] => s
  | t :: _ =>
    match s.thread? t with
    | none => s
    | some th =>
      if s.drainStuck core ts then
        s.modCore core fun c => if c.drains.contains ts then c else { c with drains := c.drains ++ [ts] }
      else
        let s := ts.foldl (fun s t => s.modThread t fun th => th.resume s.cycle) s
        let es := s.joinEntries own (s.core core).entries (Tid.ctxNum t) (Tid.gridNum t) th.pc ts
        let s := s.modCore core fun c =>
          { c with
            entries := es
            drains := (c.drains.map fun l => l.filter fun x => !ts.contains x).filter fun l => !l.isEmpty
            bins := c.bins.map fun b =>
              { b with places := b.places.filter fun x => !ts.contains x, overflow := b.overflow.filter fun x => !ts.contains x } }
        s.modCore core fun c =>
          { c with bins := (c.bins.map s.refill).filter fun b => !(b.places.isEmpty && b.overflow.isEmpty) }

def State.drain (s : State) (core : Nat) (ts : List Tid) : State := s.drainAs false core ts

/-- Of the records of one key in a bin, the first of each lane. -/
def firstPerLane : List Tid → List Tid → List Tid
  | acc, [] => acc
  | acc, t :: ts => if laneFree acc t then firstPerLane (acc ++ [t]) ts else firstPerLane acc ts

/-- What drains from a bin at once: its 32 places, or a full set (R137). -/
def State.fullSet (s : State) (b : Bin) : List Tid :=
  if b.places.length = 32 then b.places
  else
    let all := b.places ++ b.overflow
    let setOf (t : Tid) : List Tid := match s.thread? t with
      | some th => firstPerLane [] (all.filter (s.hasKey (Tid.ctxNum t) (Tid.gridNum t) th.pc))
      | none => []
    match all.find? fun t => (setOf t).length == 32 with
    | some t => setOf t
    | none => []

/-- A full bin or a full set drains (R137). -/
def State.drainFull (s : State) (core n : Nat) : State :=
  match (s.core core).bin? n with
  | none => s
  | some b => s.drain core (s.fullSet b)

/-- The oldest record of a bin's places has waited AGELIM cycles (R137). -/
def State.regulatorDue (s : State) (b : Bin) : Bool :=
  b.places.any fun t => match s.thread? t with
    | some th => decide (s.ageLimit b.ctx ≤ s.ageOf th.ready)
    | none => false

/-- A drain of the bin waits: the bin accepts no record (R137). -/
def State.binWaits (s : State) (core n : Nat) : Bool :=
  match (s.core core).bin? n with
  | some b =>
    (!(s.fullSet b).isEmpty && s.drainStuck core (s.fullSet b)) || (s.regulatorDue b && s.drainStuck core b.places) ||
      (s.core core).drains.any fun l => l.any fun t => b.places.contains t || b.overflow.contains t
  | none => false

def Core.inBin (c : Core) (t : Tid) : Bool := c.bins.any fun b => b.places.contains t || b.overflow.contains t

/-- A ready record enters its bin (R136), unless a drain of the bin waits; then it waits too (R137). -/
def State.enterBin (s : State) (t : Tid) : State :=
  match s.thread? t with
  | none => s
  | some th =>
    let n := binIndex th.pc (Tid.gridNum t)
    if s.binWaits th.core n then s else
    let b := ((s.core th.core).bin? n).getD ⟨n, Tid.ctxNum t, Tid.gridNum t, th.pc, [], []⟩
    let b := if b.places.isEmpty && b.overflow.isEmpty then { b with ctx := Tid.ctxNum t, grid := Tid.gridNum t, pc := th.pc } else b
    let b := if sameKey b.ctx b.grid b.pc th && laneFree b.places t then { b with places := b.places ++ [t] }
      else { b with overflow := b.overflow ++ [t] }
    (s.modCore th.core fun c => c.setBin b).drainFull th.core n

/-- A ready record returns to level 0 of its core, in exchange for the record that it displaces there, and enters its bin (R135, R136); where no level has room for that record it waits where it is. -/
def State.returnRecord (s : State) (t : Tid) : State :=
  match s.thread? t with
  | none => s
  | some th =>
    if th.level = 0 then s.enterBin t
    else match (s.setLevel t 3).makeRoom th.core with
      | some s => (s.setLevel t 0).enterBin t
      | none => s

/-- A record becomes ready: READY, level 0, its bin (R133, R135). WAITK stays what the record waited for (Table 7.5). -/
def State.makeReady (s : State) (t : Tid) : State :=
  let s := s.modThread t fun th => { th with ready := s.ready, woken := false, pend := 0 }
  match s.thread? t with
  | none => s
  | some th =>
    match th.loc with
    | .parked => s.returnRecord t
    | _ => s

/-- A ready record that stands in no bin yet: it waits for its bin, or for a place at level 0 (R135, R137). -/
def State.unbinned (s : State) (th : Thread) : Bool :=
  th.loc == .parked && th.pend == 0 && !(s.core th.core).inBin th.id

/-- The Barrel goes on as entries become free: waiting drains, full bins, then the records that waited for their bins, in the order in which they became ready (R136, R137). -/
def State.barrelOn (s : State) (core : Nat) : State :=
  let s := (s.core core).drains.foldl (fun s l =>
    s.drainAs true core (l.filter fun t => match s.thread? t with
      | some th => th.loc == .parked && th.pend == 0 && th.core == core
      | none => false)) s
  let s := (s.core core).bins.foldl (fun s b => s.drainFull core b.num) s
  let late := s.threads.filter fun th => th.core == core && s.unbinned th
  (inOrder (fun a b => decide (s.ageOf b.ready < s.ageOf a.ready)) late).foldl (fun s th => s.returnRecord th.id) s

/-! ### Completions (R133) -/

def State.pushCompl (s : State) (t : Tid) (xs : List (Nat × Word)) (p : Option (Nat × Bool)) (cause : Option (Cause × DWord)) : State :=
  { s with compl := s.compl ++ [{ t, xs, p, cause, set := none }] }

/-- A completion writes its data and lowers PEND; at zero the record is ready, or the thread that waits in place goes on. -/
def State.complete (s : State) (c : Completion) : State :=
  match s.thread? c.t with
  | none => s
  | some th =>
    if th.pend = 0 then s
    else
      let put (r : Regs) : Regs := r.putAll c.xs c.p.toList
      let s := s.modThread c.t fun th =>
        { th with regs := put th.regs, shadow := th.shadow.map put, pend := th.pend - 1
                  tpend := match th.tpend with
                    | some x => some x
                    | none => c.cause }
      if th.pend = 1 then
        match th.loc with
        | .resident => s.modThread c.t fun th => { th with hold := false, wait := .none, woken := false, remote := none }
        | .saved => s.modThread c.t fun th => { th with ready := s.ready, woken := false }
        | _ => s.makeReady c.t
      else s

/-- A record whose wait has not ended (R133): nothing has been sent to it yet. -/
def Thread.awaits (th : Thread) : Bool := th.pend != 0 && !th.woken

/-- What the record waited for has happened; its completion is on its way. -/
def State.wake (s : State) (t : Tid) : State := s.modThread t fun th => { th with woken := true }

/-- The records of `ts` that stand on the core of `t`, at its key, one per lane. -/
def State.setPart (s : State) (t : Tid) (ts : List Tid) : List Tid :=
  match s.thread? t with
  | none => []
  | some th => firstPerLane [] (ts.filter fun x => match s.thread? x with
      | some y => y.loc == .parked && y.pend == 0 && y.core == th.core && sameKey (Tid.ctxNum t) (Tid.gridNum t) th.pc y
      | none => false)

/-- The members of a release set drain at once, ahead of their bins' other contents: those of each core and key together, one per lane at a time (R160). -/
def State.drainSetGo : Nat → State → List Tid → State
  | 0, s, _ => s
  | _ + 1, s, [] => s
  | n + 1, s, t :: ts =>
    match s.setPart t (t :: ts) with
    | [] => s.drainSetGo n ts
    | part => (s.drainAs true (match s.thread? t with | some th => th.core | none => 0) part).drainSetGo n
        ((t :: ts).filter fun x => !part.contains x)

def State.drainSet (s : State) (ts : List Tid) : State := s.drainSetGo ts.length ts

/-- Sends one completion to every record of `ts`, as one release set, in ascending lane order (R136, R160, R337). -/
def State.release (s : State) (ts : List Tid) : State :=
  let s := ts.foldl State.wake s
  { s with compl := s.compl ++ (sortLanes ts).map fun t => { t, xs := [], p := none, cause := none, set := some s.nextSeq }
           nextSeq := s.nextSeq + 1 }

/-! ### Ending a segment -/

/-- TB (R131). -/
def State.teamBound (s : State) (th : Thread) : Bool :=
  th.tile.isSome || th.whole ||
  (match s.kernelOf th.id with
   | some k => decide (0 < k.scratch) && !th.lfree
   | none => false)

/-- The thread leaves its Escapement entry. -/
def State.leaveEntry (s : State) (core : Nat) (t : Tid) : State :=
  if (s.core core).entries.isEmpty then s
  else s.modCore core fun c =>
    { c with entries := (c.entries.map fun e => { e with ts := e.ts.filter (· != t) }).filter fun e => !e.ts.isEmpty }

/-- Whether the thread waits in place instead of writing a record (R122, R390). -/
def Thread.inPlace (th : Thread) : Bool := th.isScalar || th.h.hmode

/-- Ends the segment, room having been found: flags land (R54), the reservation and an armed injection go (R294, R422), unsaved registers and a guest block go (R130, R143); or the thread waits in place. `pend = 0`: ready at once. -/
def State.park (s : State) (t : Tid) (resume : DWord) (live : List Nat) (wait : Wait) (pend : Nat) (dest : List Nat)
    (destP : Option Nat) : State :=
  let s := s.landAll t
  match s.thread? t with
  | none => s
  | some th =>
    if th.inPlace then
      let s := s.modThread t fun th =>
        { th with pc := resume, arr := if resume = succPc th.pc then (if pcSlot th.pc < 4 then .inLine else .fall) else .unchecked
                  segpc := th.pc, tpc := none, wait, pend, dest, destP, hold := pend != 0, resv := none, inject := none, stamp := s.cycle
                  woken := false }
      s
    else
      let s := s.modThread t fun th =>
        { th with regs := th.regs.keepOnly live, shadow := th.shadow.map fun r => r.keepOnly live
                  pc := resume, arr := .checked, segpc := th.pc, tpc := none, loc := .parked, wait, pend, dest, destP, live
                  hold := false, resv := none, inject := none, level := 0, stamp := s.cycle, ready := 0, woken := false, guest := false }
      let s := s.modThread t fun th => { th with tb := s.teamBound th }
      let s := s.leaveEntry th.core t
      if pend = 0 then s.makeReady t else s

/-- A whole record (R142): registers stay; `spec` for a run-ahead thread at its limit (R380). -/
def State.parkWhole (s : State) (t : Tid) (wait : Wait) (pend : Nat) (spec : Bool) (arr : Arrival) : State :=
  match s.thread? t with
  | none => s
  | some th =>
    let s := s.modThread t fun th =>
      { th with loc := .parked, wait, pend, woken := false, whole := true, spec, tb := true, arr, segpc := th.pc, tpc := some th.pc, level := 0, stamp := s.cycle
                ready := if pend = 0 then th.since else 0, wdUsed := th.wdUsed + (s.cycle - th.wdStart) }
    let s := s.leaveEntry th.core t
    if pend = 0 then s.enterBin t else s

end Sys2Proof.Machine
end

