-- ==== Sys2Proof/Machine/Scratch.lean ====
section
/-! DEFINITION. A core's scratchpad with its uncorrectable words (R277), barrier objects (R335 to R337), event queue (R123) and error log (R422). -/

namespace Sys2Proof.Machine

open Sys2Proof

/-! ### The issuer's place in event and error entries -/

/-- The lines that [off, off + n) meets. -/
def linesMet (off n : Nat) : List Nat := if n = 0 then [] else seqFrom (off / 64) ((off + n - 1) / 64 - off / 64 + 1)

/-- TSLOT (Table 6.5). -/
def State.tslot (s : State) (th : Thread) : Nat :=
  if th.isScalar then 127
  else if th.core ≠ th.home then 126
  else match s.teamOf th.id with
    | some tm => tm.tslot
    | none => 126

/-! ### The event queue (R123) -/

def kindEngine : Nat := 1
def kindLaunchref : Nat := 2
def kindTaskref : Nat := 3
def kindChild : Nat := 4
def kindOverflow : Nat := 7

/-- The 16 bytes of an entry as four words (Table 6.5). -/
def EvEntry.words (e : EvEntry) : List Word :=
  [BitVec.ofNat 32 (e.lane + e.group * 2 ^ 5 + e.tslot * 2 ^ 10),
   BitVec.ofNat 32 (e.tag + e.status * 2 ^ 16 + e.kind * 2 ^ 24),
   e.data.setWidth 32, (e.data >>> 32).setWidth 32]

/-- An arriving entry, with the last free place kept for OVERFLOW (R123). -/
def arriveEv (q : List EvEntry) (e : EvEntry) : List EvEntry :=
  if q.length < 255 then q ++ [e]
  else if q.length = 255 then
    q ++ [{ ctx := e.ctx, kind := kindOverflow, status := 0, tag := 0, data := 1, tslot := 0, group := 0, lane := 0 }]
  else match q.getLast? with
    | some o => if o.kind = kindOverflow ∧ o.ctx = e.ctx then q.dropLast ++ [{ o with data := o.data + 1 }] else q
    | none => q

/-- The oldest entry of a context, and the queue without it. -/
def popEv : List EvEntry → Nat → Option EvEntry × List EvEntry
  | [], _ => (none, [])
  | e :: q, c => if e.ctx = c then (some e, q) else
    let (r, q') := popEv q c
    (r, e :: q')

def Thread.waitsEvq (th : Thread) : Bool := th.wait == .evq && th.awaits

/-- Parked poppers of a core, oldest first, whose context has an entry. -/
def State.evPopper (s : State) (core : Nat) : Option Thread :=
  (s.threads.filter fun th => th.core == core && th.waitsEvq && (s.core core).evq.any fun e => e.ctx == s.ctxOf th.id).foldl
    (fun a th => match a with
      | none => some th
      | some b => if th.stamp < b.stamp then some th else some b) none

/-- A popper is served: its entry goes into its record (R125). -/
def State.serveEvq (s : State) (core : Nat) : State :=
  match s.evPopper core with
  | none => s
  | some th =>
    match popEv (s.core core).evq (s.ctxOf th.id) with
    | (some e, q) =>
      let s := s.modCore core fun c => { c with evq := q }
      let s := s.wake th.id
      s.pushCompl th.id (th.dest.zip e.words) none none
    | _ => s

def State.postEvent (s : State) (core : Nat) (e : EvEntry) : State :=
  (s.modCore core fun c => { c with evq := arriveEv c.evq e }).serveEvq core

/-! ### The error log (R422) -/

def State.logError (s : State) (core : Nat) (e : ErrEntry) : State :=
  s.modCore core fun c =>
    if c.errlog.length < 63 then { c with errlog := c.errlog ++ [e] }
    else
      let n := match c.dropped.find? fun x => x.1 == e.ctx with
        | some (_, k) => k
        | none => 0
      { c with dropped := (e.ctx, n + 1) :: c.dropped.filter fun x => x.1 != e.ctx }

def State.errEntry (s : State) (th : Thread) (kind action attempt : Nat) (loc : DWord) : ErrEntry :=
  { ctx := s.ctxOf th.id, kind, action, attempt, loc, tslot := s.tslot th, group := Tid.group th.id, lane := th.lane }

/-- The 16 bytes of an error entry (Table 20.3). -/
def ErrEntry.words (e : ErrEntry) : List Word :=
  [BitVec.ofNat 32 (e.lane + e.group * 2 ^ 5 + e.tslot * 2 ^ 10),
   BitVec.ofNat 32 (e.attempt * 2 ^ 8 + e.action * 2 ^ 16 + e.kind * 2 ^ 24),
   e.loc.setWidth 32, (e.loc >>> 32).setWidth 32]

def popErr : List ErrEntry → Nat → Option ErrEntry × List ErrEntry
  | [], _ => (none, [])
  | e :: q, c => if e.ctx = c then (some e, q) else
    let (r, q') := popErr q c
    (r, e :: q')

/-! ### Scratchpad bytes -/

/-- The 4-byte words that [off, off + n) meets. -/
def wordsMet (off n : Nat) : List Nat := if n = 0 then [] else seqFrom (off / 4) ((off + n - 1) / 4 - off / 4 + 1)

/-- Bytes at an absolute offset, and whether a word of them reads uncorrectable. -/
def State.scrRead (s : State) (core off n : Nat) : List Byte × Bool :=
  let c := s.core core
  (c.scr.read off n, !c.scrBad.isEmpty && (wordsMet off n).any fun w => c.scrBad.contains w)

/-- Bytes written as they are; a whole word repairs it (R277). -/
def State.scrRaw (s : State) (core off : Nat) (data : List Byte) : State :=
  s.modCore core fun c =>
    { c with scr := c.scr.write off data
             scrBad := c.scrBad.filter fun w => !(decide (off ≤ 4 * w) && decide (4 * w + 4 ≤ off + data.length)) }

/-! ### Barrier objects -/

def State.objAt (s : State) (core off : Nat) : Nat := natOfBytes (s.scrRead core off 16).1

/-- TAG = t and ARRIVED ≥ TARGET (R335). -/
def objReleased (v tag : Nat) : Bool := bitsOf v 64 16 == tag && decide (bitsOf v 0 32 ≤ bitsOf v 32 32)

/-- The team whose run holds an absolute offset of a core. -/
def State.teamAt (s : State) (core off : Nat) : Option Team :=
  s.teams.find? fun tm => tm.core == core && tm.saved.isNone && decide (tm.scr ≤ off) &&
    (match s.grid? tm.ctx tm.grid with
     | some g => decide (off < tm.scr + g.kernel.scratch)
     | none => false)

/-- The tag that a record of the run's own team waits for at a barrier object (R337, R344). -/
def State.waitsOn (s : State) (th : Thread) (core off : Nat) : Option Nat :=
  match th.wait with
  | .barrier o t =>
    if o = off ∧ th.home = core ∧ th.awaits = true ∧ ((s.teamOf th.id).bind fun tm => if tm.core = core ∧ tm.saved = none then some tm.scr else none) =
        (s.teamAt core off).map (·.scr) then some t else none
  | _ => none

/-- A block is a barrier object once BINIT has made it one, or while a record waits on it (log 16). -/
def State.isObj (s : State) (core off : Nat) : Bool :=
  ((s.core core).objs.any fun o => o.1 == off) || s.threads.any fun th => (s.waitsOn th core off).isSome

/-- WakeReleased (R337). -/
def State.wakeReleased (s : State) (core off : Nat) : State :=
  let v := s.objAt core off
  let tag := bitsOf v 64 16
  if !objReleased v tag then s
  else
    let woke := (s.threads.filter fun th => s.waitsOn th core off == some tag).map (·.id)
    let s := if woke.isEmpty then s
      else
        let s := s.scrRaw core (off + 12) (bytesOfNat 4 (bitsOf v 96 32 - woke.length))
        s.release woke
    let posted := ((s.core core).objs.find? fun o => o.1 == off).bind (·.2)
    if v.testBit 88 && (!woke.isEmpty || posted != some tag) then
      let s := s.modCore core fun c => { c with objs := (off, some tag) :: c.objs.filter fun o => o.1 != off }
      match s.teamAt core off with
      | some tm => s.postEvent core
          { ctx := tm.ctx, kind := kindEngine, status := bitsOf v 80 8, tag, data := BitVec.ofNat 64 (off - tm.scr)
            tslot := tm.tslot, group := 0, lane := 0 }
      | none => s
    else s

/-- Data with the PARKED bytes of every object left as they are (Table 16.6). -/
def State.maskParked (s : State) (core : Nat) : Nat → List Byte → List Byte
  | _, [] => []
  | a, b :: bs =>
    (if 12 ≤ a % 16 ∧ s.isObj core (a / 16 * 16) then (s.core core).scr.get a else b) :: s.maskParked core (a + 1) bs

/-- The blocks whose bytes 0 to 11 [off, off + n) meets. -/
def blocksMet (off n : Nat) : List Nat :=
  if n = 0 then [] else ((seqFrom (off / 16) ((off + n - 1) / 16 - off / 16 + 1)).map (· * 16)).filter fun o => decide (off < o + 12)

/-- A write of scratchpad bytes by any agent: STS, engines, commits (R336). -/
def State.scrWrite (s : State) (core off : Nat) (data : List Byte) : State :=
  let s' := s.scrRaw core off (s.maskParked core off data)
  ((blocksMet off data.length).filter (s.isObj core)).foldl (fun s o => s.wakeReleased core o) s'

/-- Arrive (R336): `tag = none` for BARR. Answers whether it counted. -/
def State.arrive (s : State) (core off bytes : Nat) (tag : Option Nat) (code : Nat) : State × Bool :=
  let v := s.objAt core off
  match tag with
  | some t => if t ≠ bitsOf v 64 16 then (s, false) else go s v
  | none => go s v
where
  go (s : State) (v : Nat) : State × Bool :=
    let arr := (bitsOf v 32 32 + bytes) % 2 ^ 32
    let st := if code ≠ 0 ∧ bitsOf v 80 8 = 0 then code else bitsOf v 80 8
    let s := (s.scrRaw core (off + 4) (bytesOfNat 4 arr)).scrRaw core (off + 10) (bytesOfNat 1 st)
    (s.wakeReleased core off, true)

/-- BINIT's write of bytes 0 to 11 (R338). -/
def State.binitAt (s : State) (core off target tag flags : Nat) : State :=
  let s := s.scrRaw core off (bytesOfNat 12 (target + tag * 2 ^ 64 + flags * 2 ^ 88))
  let s := s.modCore core fun c => { c with objs := (off, none) :: c.objs.filter fun o => o.1 != off }
  s.wakeReleased core off

end Sys2Proof.Machine
end

