-- ==== Sys2Proof/Machine/Engine.lean ====
section
/-! DEFINITION. Engine commands (chapter 16): descriptors (R325), destination units, source lines, line writes with their arrivals (R328), recalls (R289), kills (R329) and ends (R330, R339). -/

namespace Sys2Proof.Machine

open Sys2Proof

/-! ### Descriptors -/

def EngDesc.word (d : EngDesc) (k : Nat) : Nat := (getAt 0 d.w k).toNat
def EngDesc.len (d : EngDesc) : Nat := d.word 4
def EngDesc.bar (d : EngDesc) : Option Nat := if d.word 5 = 0xFFFFFFFF then none else some (d.word 5)
def EngDesc.flags (d : EngDesc) : Nat := d.word 7
def EngDesc.srcSp (d : EngDesc) : Bool := d.flags.testBit 0
def EngDesc.dstSp (d : EngDesc) : Bool := d.flags.testBit 1
def EngDesc.evq (d : EngDesc) : Bool := d.flags.testBit 2
def EngDesc.evqErr (d : EngDesc) : Bool := d.flags.testBit 3
def EngDesc.op (d : EngDesc) : Nat := bitsOf d.flags 4 4
def EngDesc.esize (d : EngDesc) : Nat := bitsOf d.flags 8 4
/-- Bytes of an element of GATH and SCAT (Table 3.10). -/
def EngDesc.ebytes (d : EngDesc) : Nat := 2 ^ d.esize
def EngDesc.idxOff (d : EngDesc) : Nat := bitsOf d.flags 16 16 * 16
def EngDesc.num (d : EngDesc) : Nat := d.len / d.ebytes
def EngDesc.nidx (d : EngDesc) : Nat := d.word 6
/-- Registers each CPYR participant supplies. -/
def EngDesc.perLane (d : EngDesc) : Nat := d.len / 128

/-- Whether the kind reads a source in memory. -/
def EngDesc.hasSrc (d : EngDesc) : Bool :=
  match d.kind with
  | .fill | .cpyr => false
  | _ => true

/-- Bytes that the barrier receives (R328, R331). -/
def EngDesc.total (d : EngDesc) : Nat :=
  match d.kind with
  | .cpyr => 4 * d.perLane * d.regs.length
  | _ => d.len

/-- Where the bytes of a range lie. -/
inductive Space where
  | scr
  | ia (peer : Option Nat)
deriving DecidableEq, Repr

def Command.srcSpace (c : Command) : Space :=
  if c.d.srcSp then .scr else .ia ((c.d.srcIa.bind (·.2)))
def Command.dstSpace (c : Command) : Space :=
  if c.d.dstSp then .scr else .ia ((c.d.dstIa.bind (·.2)))
def Command.srcBase (c : Command) : Nat :=
  if c.d.srcSp then c.scr + c.d.word 0 else (c.d.srcIa.map (·.1)).getD 0
def Command.dstBase (c : Command) : Nat :=
  if c.d.dstSp then c.scr + c.d.word 2 else (c.d.dstIa.map (·.1)).getD 0

/-- Bytes of the index list of GATH and SCAT, else 0. -/
def Command.idxBytes (c : Command) : Nat :=
  match c.d.kind with
  | .gath | .scat => 4 * c.d.num
  | _ => 0

/-- Index `i` of the command's list: as it was read (R332), or as it stands while it is unread. -/
def Command.index (c : Command) (s : State) (core i : Nat) : Nat :=
  match c.idx with
  | some l => getAt 0 l i
  | none => natOfBytes (s.scrRead core (c.scr + c.d.idxOff + 4 * i) 4).1

/-- Source byte of a stream position; `none`: a GATH index out of range. -/
def Command.srcOf (c : Command) (s : State) (core pos : Nat) : Option Nat :=
  match c.d.kind with
  | .gath =>
    let e := c.d.ebytes
    let k := c.index s core (pos / e)
    if k < c.d.nidx then some (c.srcBase + k * e + pos % e) else none
  | _ => some (c.srcBase + pos)

/-- Bytes [lo, hi) of a contiguous destination, with their positions. -/
def contig (dst lo hi : Nat) : List (Nat × Nat) := (seqFrom lo (hi - lo)).map fun a => (a, a - dst)

/-- Destination bytes, with stream positions, that lie in one unit: a line, or a 512-byte chunk of MXS (R328). -/
def Command.unitBytes (c : Command) (s : State) (core u : Nat) : List (Nat × Nat) :=
  let dst := c.dstBase
  let len := c.d.len
  match c.d.kind with
  | .mxs => contig dst (dst + 512 * u) (min (dst + len) (dst + 512 * u + 512))
  | .scat =>
    let e := c.d.ebytes
    (seqFrom 0 c.d.num).flatMap fun i =>
      (contig (dst + c.index s core i * e) (dst + c.index s core i * e) (dst + c.index s core i * e + e)).filterMap fun q =>
        if q.1 / 64 = u then some (q.1, i * e + q.2) else none
  | .cpyr =>
    (contig dst (max dst (64 * u)) (min (dst + len) (64 * u + 64))).filter fun q =>
      c.d.regs.any fun r => r.1 == q.2 / (4 * c.d.perLane)
  | _ => contig dst (max dst (64 * u)) (min (dst + len) (64 * u + 64))

/-- The first of `n` numbers from `a` that satisfies `p`. -/
def firstFrom (p : Nat → Bool) (a : Nat) : Nat → Option Nat
  | 0 => none
  | n + 1 => if p a then some a else firstFrom p (a + 1) n

/-- The next unit to write: the lowest; for SCAT, that of the first element not yet written (R332). -/
def Command.nextUnit (c : Command) (s : State) (core : Nat) : Option Nat :=
  let dst := c.dstBase
  let len := c.d.len
  if len = 0 then none
  else match c.d.kind with
    | .mxs => firstFrom (fun u => !c.done.contains u) 0 (len / 512)
    | .scat =>
      let e := c.d.ebytes
      let lineOf (p : Nat) : Nat := (dst + c.index s core (p / e) * e + p % e) / 64
      (firstFrom (fun p => !c.done.contains (lineOf p)) 0 len).map lineOf
    | _ => firstFrom (fun u => !c.done.contains u && !(c.unitBytes s core u).isEmpty) (dst / 64) ((dst + len - 1) / 64 - dst / 64 + 1)

/-- Undone units with bytes in a 64-byte line. -/
def Command.unitsAt (c : Command) (s : State) (core line : Nat) : List Nat :=
  let dst := c.dstBase
  if c.d.len = 0 then []
  else match c.d.kind with
    | .mxs =>
      if line * 64 + 64 ≤ dst ∨ dst + c.d.len ≤ line * 64 then []
      else
        let a := (line * 64 - dst) / 512
        let b := (min (line * 64 + 63) (dst + c.d.len - 1) - dst) / 512
        (seqFrom a (b - a + 1)).filter fun u => !c.done.contains u
    | _ => if c.done.contains line || (c.unitBytes s core line).isEmpty then [] else [line]

/-- Whether some element index of SCAT is out of range (R326). -/
def Command.scatBad (c : Command) (s : State) (core : Nat) : Bool :=
  match c.d.kind with
  | .scat => (seqFrom 0 c.d.num).any fun i => decide (c.d.nidx ≤ c.index s core i)
  | _ => false

/-- The range that source or destination spans, for the overlap rule (R289). -/
def Command.srcSpan (c : Command) : Nat :=
  match c.d.kind with
  | .gath => c.d.nidx * c.d.ebytes
  | .fill | .cpyr => 0
  | _ => c.d.len
def Command.dstSpan (c : Command) : Nat :=
  match c.d.kind with
  | .scat => c.d.nidx * c.d.ebytes
  | _ => c.d.len
def Command.overlaps (c : Command) : Bool :=
  c.srcSpace == c.dstSpace && decide (c.srcBase < c.dstBase + c.dstSpan) && decide (c.dstBase < c.srcBase + c.srcSpan)

/-- Source lines of stream positions, each once; `none`: an index out of range. -/
def Command.linesOf (c : Command) (s : State) (core : Nat) : List Nat → Option (List Nat)
  | [] => some []
  | p :: ps =>
    match c.srcOf s core p, c.linesOf s core ps with
    | some a, some ls => some (if ls.contains (a / 64) then ls else a / 64 :: ls)
    | _, _ => none

/-! ### Commands of a core -/

def State.command? (s : State) (core slot : Nat) : Option Command := (s.core core).slots.find? fun c => c.slot == slot
def State.modCommand (s : State) (core slot : Nat) (f : Command → Command) : State :=
  s.modCore core fun k => { k with slots := k.slots.map fun c => if c.slot = slot then f c else c }
def State.dropCommand (s : State) (core slot : Nat) : State :=
  s.modCore core fun k => { k with slots := k.slots.filter fun c => c.slot != slot }

/-- Every command of the module with its core. -/
def State.commands (s : State) : List (Nat × Command) := s.cores.flatMap fun k => k.slots.map fun c => (k.id, c)

/-- The lowest free slot of a core (R327). -/
def State.freeSlot (s : State) (core : Nat) : Option Nat :=
  firstFrom (fun n => !((s.core core).slots.any fun c => c.slot == n)) 0 64

/-! ### Ends (R329, R330, R339) -/

/-- An entry on a queue's result side; `none` when it is full. -/
def Team.pushResult (tm : Team) (q : Nat) (e : List Word) : Option Team :=
  let x := getAt ⟨0, [], []⟩ tm.queues q
  if x.result.length < 16 then some { tm with queues := setAt tm.queues q { x with result := x.result ++ [e] } } else none

/-- Parked poppers of a queue: the oldest, and of one issue the lowest lane (R342). -/
def State.queuePopper (s : State) (c g t q : Nat) : Option Thread :=
  (s.threads.filter fun th =>
    (match s.teamOf th.id with
     | some tm => tm.ctx == c && tm.grid == g && tm.num == t
     | none => false) && th.wait == .queue q && th.awaits).foldl
    (fun a th => match a with
      | none => some th
      | some b => if th.stamp < b.stamp ∨ th.stamp = b.stamp ∧ th.lane < b.lane then some th else some b) none

/-- A parked popper takes the oldest result entry (R342). -/
def State.serveQueue (s : State) (c g t q : Nat) : State :=
  match s.team? c g t, s.queuePopper c g t q with
  | some tm, some th =>
    let x := getAt ⟨0, [], []⟩ tm.queues q
    match x.result with
    | e :: rest =>
      let s := s.modTeam c g t fun tm => { tm with queues := setAt tm.queues q { x with result := rest } }
      let s := s.wake th.id
      s.pushCompl th.id (th.dest.zip e) none none
    | [] => s
  | _, _ => s

/-- The command ends: the slot is freed, the entry posted under R339 to the result side (R341) or the event queue. -/
def State.endCommand (s : State) (core : Nat) (c : Command) (code : Nat) : State :=
  let s := s.dropCommand core c.slot
  let s := { s with held := s.held.filter fun h => h.who != .engine core c.slot }
  if c.d.evq || (c.d.evqErr && code != 0) || code == 5 then
    let e : EvEntry :=
      { ctx := c.ctx, kind := kindEngine, status := code, tag := c.d.tag.getD 0, data := BitVec.ofNat 64 (c.d.word 5)
        tslot := c.tslot, group := Tid.group c.who, lane := Tid.lane c.who }
    match c.q, c.team with
    | some q, some t =>
      match (s.team? c.ctx c.grid t).bind fun tm => tm.pushResult q (e.words ++ [0, 0, 0, 0]) with
      | some tm => (s.modTeam c.ctx c.grid t fun _ => tm).serveQueue c.ctx c.grid t q
      | none => s.postEvent core e
    | _, _ => s.postEvent core e
  else s

/-- One arrival of a command at its barrier (R328, R336). -/
def State.commandArrive (s : State) (core : Nat) (c : Command) (bytes code : Nat) : State × Bool :=
  match c.d.bar with
  | none => (s, true)
  | some b => s.arrive core (c.scr + b) bytes c.d.tag code

/-- A killed command: one final arrival with the code, and its end (R329). -/
def State.killCommand (s : State) (core slot code : Nat) : State :=
  match s.command? core slot with
  | none => s
  | some c =>
    let (s, _) := s.commandArrive core c (c.d.total - c.arrived) code
    s.endCommand core c code

/-! ### Line accesses -/

inductive EngRes where
  | data (bs : List Byte)
  | bad (code : Nat)
  | stop (ia : Nat) (f : Option (FaultKind × Nat × DWord))
deriving DecidableEq, Repr

/-- The 64 bytes of a source line (R278, R439, R443); `used` are the addresses of the command's bytes in it. -/
def State.engRead (s : State) (core : Nat) (sp : Space) (line : Nat) (used : List Nat) : EngRes :=
  match sp with
  | .scr =>
    if used.any fun a => (s.core core).scrBad.contains (a / 4) then .bad 3
    else .data ((s.core core).scr.read (64 * line) 64)
  | .ia (some m) => if m = s.modid then here (s.follow false 4 (64 * line))
    else if s.peerDead m then .bad 4 else .data ((s.peer m).mem.read (64 * line) 64)
  | .ia none => here (s.follow false 4 (64 * line))
where
  here : Nat × Routed → EngRes
  | (ia, r) =>
    match r with
    | .fault k l e => .stop ia (some (k, l, e))
    | .blocked => .stop ia none
    | .control _ => .data (List.replicate 64 0)
    | .to (.mem pa) => let (bs, p) := s.readPA ia pa 64; if p then .bad 3 else .data bs
    | .to (.sys port a) => if s.lostPorts.contains port then .bad 4 else .data ((s.sys port).read a 64)
    | .to (.peer m a) => if s.peerDead m then .bad 4 else .data ((s.peer m).mem.read a 64)
    | .to .group => .bad 0

/-- Maximal runs of consecutive addresses. -/
def runsOf : List (Nat × Byte) → List (Nat × List Byte)
  | [] => []
  | (a, b) :: rest =>
    match runsOf rest with
    | (a', bs) :: rs => if a' = a + 1 then (a, b :: bs) :: rs else (a, [b]) :: (a', bs) :: rs
    | [] => [(a, [b])]

/-- The home multicasts a write to every subscriber whose region holds it, in its own order of the writes (R298). -/
def State.multicast (s : State) (ia : Nat) (data : List Byte) : State :=
  if s.subscribers.isEmpty then s
  else { s with messages := s.messages ++ (s.subscribers.filter fun b => decide (b.ia ≤ ia) && decide (ia < b.ia + b.len)).map fun b =>
      .subsWrite b.src b.n ia data }

/-- A write takes the line's write lease from the L2 to which an LR had moved it, unless its thread runs on that stack (R314). -/
def State.takeLease (s : State) (line : Nat) (by_ : Option Tid) : State :=
  if s.leases.isEmpty then s
  else
    let die := (by_.bind s.thread?).map fun th => s.dieOf th.core
    { s with leases := s.leases.filter fun x => x.1 != line || some x.2 == die }

/-- Writes of one module-memory line by an agent at tick `p`: dirty, ticks, reservations, leases, memory, subscribers. -/
def State.writeLine (s : State) (ia pa p : Nat) (data : List Byte) (by_ : Option Tid) : State × Nat :=
  let s := (s.keepTranslation ia).markDirty ia
  let s := (s.clearResv (ia / 64) none by_).takeLease (ia / 64) by_
  let (s, p) := s.tickW (ia / 64) p
  ((s.writePA ia pa data).multicast ia data, p)

/-- A peer multicasts a write to the subscriptions of this module that hold it, in its own order (R298, R320). -/
def State.queueSubs (s : State) (m ia : Nat) (data : List Byte) : State :=
  if s.dies.all (fun d => d.subs.isEmpty) then s
  else { s with dies := s.dies.map fun d => { d with subs := d.subs.map fun b =>
      if b.active = true ∧ b.mod = m ∧ ia < b.ia + b.len ∧ b.ia < ia + data.length then { b with pending := b.pending ++ [(ia, data)] }
      else b } }

/-- A write in a peer's memory, by an agent that is not `by_`: other threads' reservations of the line go (R294). -/
def State.writePeer (s : State) (m ia : Nat) (data : List Byte) (by_ : Option Tid) : State :=
  let q := s.peer m
  ((s.setPeer { q with mem := q.mem.write ia data }).queueSubs m ia data).clearResv (ia / 64) (some m) by_

/-- The command's bytes for one line (R328), or why they cannot be written now. -/
def State.engWrite (s : State) (core : Nat) (sp : Space) (p : Nat) (bytes : List (Nat × Byte)) : (State × Nat) ⊕ EngRes :=
  match bytes with
  | [] => .inl (s, p)
  | (a0, _) :: _ =>
    let runs := runsOf bytes
    match sp with
    | .scr => .inl (runs.foldl (fun s r => s.scrWrite core r.1 r.2) s, p)
    | .ia (some m) =>
      if m = s.modid then here s p runs a0
      else if s.peerDead m then .inr (.bad 4)
      else .inl (runs.foldl (fun s r => s.writePeer m r.1 r.2 none) s, p)
    | .ia none => here s p runs a0
where
  here (s : State) (p : Nat) (runs : List (Nat × List Byte)) (a0 : Nat) : (State × Nat) ⊕ EngRes :=
    let (ia, r) := s.follow true 4 a0
    let s' := s.passHomes true 5 a0
    match r with
    | .fault k l e => .inr (.stop ia (some (k, l, e)))
    | .blocked => .inr (.stop ia none)
    | .control _ => .inl (s, p)
    | .to (.mem pa) => .inl (runs.foldl (fun q r => q.1.writeLine (ia + (r.1 - a0)) (pa + (r.1 - a0)) q.2 r.2 none) (s', p))
    | .to (.sys port x) =>
      if s.lostPorts.contains port then .inr (.bad 4)
      else .inl (s'.setSys port (runs.foldl (fun m r => m.write (x + r.1 - a0) r.2) (s.sys port)), p)
    | .to (.peer m x) =>
      if s.peerDead m then .inr (.bad 4)
      else .inl (runs.foldl (fun s r => s.writePeer m (x + r.1 - a0) r.2 none) s', p)
    | .to .group => .inl (s, p)

/-- The stream stalls at a line (R272, R274). -/
def State.stallCommand (s : State) (core : Nat) (c : Command) (ia : Nat) (write : Bool) (f : Option (FaultKind × Nat × DWord)) : State :=
  let s := s.modCommand core c.slot fun c => { c with st := .stalled ia write }
  let h : HeldAcc := { who := .engine core c.slot, ctx := c.ctx, ia, op := .engine write, kind := none }
  match f with
  | some (k, l, e) => s.holdFault h (if write then .engineWrite else .engineRead) k l e
  | none => s.holdBlocked h

/-- Byte `pos` of the stream, its source line having been read. -/
def Command.byteAt (c : Command) (s : State) (core pos : Nat) : Byte :=
  match c.d.kind with
  | .fill => BitVec.ofNat 8 (c.d.word 0 / 2 ^ (8 * (pos % 4)))
  | .cpyr =>
    let k := c.d.perLane
    let ws := ((c.d.regs.find? fun r => r.1 == pos / (4 * k)).map (·.2)).getD []
    BitVec.ofNat 8 ((getAt 0 ws (pos % (4 * k) / 4)).toNat / 2 ^ (8 * (pos % 4)))
  | .coll => getAt 0 (c.result.getD []) pos
  | _ =>
    match c.srcOf s core pos with
    | none => 0
    | some a =>
      match c.buffer.find? fun b => b.1 == a / 64 with
      | some (_, bs) => getAt 0 bs (a % 64)
      | none => 0

/-- Reads source lines into the command's buffer; stops at the first that cannot be read. Answers whether all are there. -/
def State.fetchLines (s : State) (core slot : Nat) (used : List Nat) : List Nat → State × Bool
  | [] => (s, true)
  | l :: ls =>
    match s.command? core slot with
    | none => (s, false)
    | some c =>
      if c.buffer.any fun b => b.1 == l then s.fetchLines core slot used ls
      else
        match s.engRead core c.srcSpace l (used.filter fun a => a / 64 == l) with
        | .bad code => (s.killCommand core slot code, false)
        | .stop ia f => (s.stallCommand core c ia false f, false)
        | .data bs =>
          let (s, p) := match c.srcSpace with
            | .ia none => (s.passHomes false 5 (64 * l)).tickR (s.finalIa (64 * l) false / 64) c.pts
            | _ => (s, c.pts)
          (s.modCommand core slot fun c => { c with buffer := (l, bs) :: c.buffer, pts := p }).fetchLines core slot used ls

/-- The line at which an access ends, own forwards followed (R275, R289). -/
def State.endLine (s : State) (sp : Space) (line : Nat) : Space × Nat :=
  match sp with
  | .scr => (.scr, line)
  | .ia (some m) => if m = s.modid then own (s.follow false 4 (64 * line)) else (.ia (some m), line)
  | .ia none => own (s.follow false 4 (64 * line))
where
  own : Nat × Routed → Space × Nat
  | (_, .to (.peer m a)) => (.ia (some m), a / 64)
  | (ia, _) => (.ia none, ia / 64)

/-- The lines of a range, as the range names them, that end where a line of `sp` ends. -/
def State.namedBy (s : State) (d : Space) (lo n : Nat) (sp : Space) (line : Nat) : List Nat :=
  let inRange (l : Nat) : Bool := decide (lo < 64 * l + 64) && decide (64 * l < lo + n)
  if d = sp ∧ inRange line = true then [line]
  else if d = .scr ∨ sp = .scr ∨ n = 0 then []
  else
    let e := s.endLine sp line
    ((seqFrom (lo / 4096) ((lo + n - 1) / 4096 - lo / 4096 + 1)).map fun g => g * 64 + line % 64).filter fun l =>
      inRange l && s.endLine d l == e

/-- The units of commands that are owed to a line: core, slot, unit; of those issued before `seq` (any, for `none`). -/
def State.owed (s : State) (core : Nat) (sp : Space) (line : Nat) (seq : Option Nat) : List (Nat × Nat × Nat) :=
  if s.cores.all fun k => k.slots.isEmpty then []
  else s.commands.flatMap fun (k, c) =>
    if (sp != .scr || k == core) && (match seq with | some n => decide (c.seq < n) | none => true) then
      ((s.namedBy c.dstSpace c.dstBase c.dstSpan sp line).flatMap (c.unitsAt s k)).map fun u => (k, c.slot, u)
    else []

/-- The index list is read, once (R332); an uncorrectable word of it ends the command with code 3 (R278). -/
def State.latchIndex (s : State) (core slot : Nat) : State :=
  match s.command? core slot with
  | none => s
  | some c =>
    if c.idx.isSome ∨ c.idxBytes = 0 then s
    else
      let (bs, bad) := s.scrRead core (c.scr + c.d.idxOff) c.idxBytes
      if bad then s.killCommand core slot 3
      else s.modCommand core slot fun c => { c with idx := some ((wordsOfBytes c.d.num bs).map (·.toNat)) }

/-- The lines that a command's arrivals write: its barrier's. -/
def Command.barLines (c : Command) : List Nat :=
  match c.d.bar with
  | some b => [(c.scr + b) / 64]
  | none => []

/-- The lines of its index list. -/
def Command.idxLines (c : Command) : List Nat :=
  let a := c.scr + c.d.idxOff
  if c.idxBytes = 0 then [] else seqFrom (a / 64) ((a + c.idxBytes - 1) / 64 - a / 64 + 1)

/-- Writes one unit of a command, the earlier commands that own the lines it touches having written theirs (R289); `fuel` bounds the chain of recalls. -/
def State.tryUnit : Nat → State → Nat → Nat → Nat → State
  | 0, s, _, _, _ => s
  | fuel + 1, s, core, slot, u =>
    match s.command? core slot with
    | none => s
    | some c =>
      let clear (s : State) (sp : Space) (lines : List Nat) : State × Bool :=
        let s := lines.foldl (fun s l => (s.owed core sp l (some c.seq)).foldl (fun s q => State.tryUnit fuel s q.1 q.2.1 q.2.2) s) s
        (s, lines.all fun l => (s.owed core sp l (some c.seq)).isEmpty)
      if c.st != .running || c.done.contains u then s
      else if c.d.kind = .coll ∧ c.result.isNone then s
      else
        let (s, ok) := if c.idx.isSome then (s, true) else clear s .scr c.idxLines
        if !ok then s
        else
          let s := s.latchIndex core slot
          match s.command? core slot with
          | none => s
          | some c =>
            if c.scatBad s core then s.killCommand core slot 2
            else
              let bytes := c.unitBytes s core u
              let need := if !c.d.hasSrc || c.d.kind == .coll then some [] else
                c.linesOf s core (if c.overlaps && c.done.isEmpty then seqFrom 0 c.d.len else bytes.map (·.2))
              match need with
              | none => s.killCommand core slot 1
              | some lines =>
                let (s, ok) := clear s c.srcSpace lines
                if !ok then s
                else
                  let used := bytes.filterMap fun q => c.srcOf s core q.2
                  let (s, ok) := s.fetchLines core slot used lines
                  if !ok then s
                  else
                    let (s, ok) := clear s c.dstSpace (((bytes.map fun q => q.1 / 64)).eraseDups)
                    let (s, ok') := clear s .scr c.barLines
                    if !(ok && ok') then s
                    else
                      match s.command? core slot with
                      | none => s
                      | some c =>
                        match s.engWrite core c.dstSpace c.pts (bytes.map fun q => (q.1, c.byteAt s core q.2)) with
                        | .inr (.bad code) => s.killCommand core slot code
                        | .inr (.stop ia f) => s.stallCommand core c ia true f
                        | .inr (.data _) => s
                        | .inl (s, p) =>
                          let (s, ok) := s.commandArrive core c bytes.length 0
                          let s := s.modCommand core slot fun c =>
                            { c with done := u :: c.done, arrived := c.arrived + bytes.length, pts := p, discarded := c.discarded || !ok }
                          match s.command? core slot with
                          | none => s
                          | some c =>
                            if c.nextUnit s core = none then
                              s.endCommand core c (if c.dropped then 7 else if c.discarded then 5 else 0)
                            else s

/-- Forces every unit owed to a line by commands issued before `seq` (R289); answers whether none is left. -/
def State.recallBefore (s : State) (core : Nat) (sp : Space) (line : Nat) (seq : Option Nat) : State × Bool :=
  let os := s.owed core sp line seq
  if os.isEmpty then (s, true)
  else
    let fuel := s.commands.length + 1
    let s := os.foldl (fun s q => s.tryUnit fuel q.1 q.2.1 q.2.2) s
    (s, (s.owed core sp line seq).isEmpty)

/-- Forces every unit that an outstanding command owes to a line (R289); answers whether none is left. -/
def State.recall (s : State) (core : Nat) (sp : Space) (line : Nat) : State × Bool := s.recallBefore core sp line none

/-- `recall` over several lines. -/
def State.recallAll (s : State) (core : Nat) (sp : Space) (lines : List Nat) : State × Bool :=
  lines.foldl (fun q l => let (s, ok) := q.1.recall core sp l; (s, q.2 && ok)) (s, true)

/-- The engine reads the lines, of its source or its index list, that the issuer is about to write (R289, R332); answers whether it has. -/
def State.saveSource (s : State) (t : Tid) (core : Nat) (sp : Space) (line : Nat) : State × Bool :=
  if s.cores.all fun k => k.slots.isEmpty then (s, true)
  else
    (s.commands.filter fun kc => kc.2.who == t).foldl (fun q kc =>
      let (k, c) := kc
      let (s, ok) := if c.idx.isNone && sp == .scr && k == core && c.idxLines.contains line then
          (match c.idxLines.foldl (fun q l => let (s, ok) := q.1.recallBefore k .scr l (some c.seq); (s, q.2 && ok)) (q.1, true) with
           | (s, true) => (s.latchIndex k c.slot, true)
           | r => r)
        else (q.1, true)
      let lines := if c.d.hasSrc && (sp != .scr || k == core) then
          (s.namedBy c.srcSpace c.srcBase c.srcSpan sp line).filter fun l => !(c.buffer.any fun b => b.1 == l)
        else []
      let (s, ok') := lines.foldl (fun q l =>
        let used := (seqFrom (64 * l) 64).filter fun a => decide (c.srcBase ≤ a) && decide (a < c.srcBase + c.srcSpan)
        match q.1.recallBefore k c.srcSpace l (some c.seq) with
        | (s, false) => (s, false)
        | (s, true) =>
          let (s, ok) := s.fetchLines k c.slot used [l]
          (s, q.2 && (ok || (s.command? k c.slot).isNone))) (s, true)
      (s, q.2 && ok && ok')) (s, true)

/-- The earlier commands that owe one of the lines have written it; answers whether they have. -/
def State.clearEarlier (s : State) (sp : Space) (core seq : Nat) (lines : List Nat) : State × Bool :=
  lines.foldl (fun q l => let (s, ok) := q.1.recallBefore core sp l (some seq); (s, q.2 && ok)) (s, true)

/-! ### Accesses of the other agents (R284, R289, R293) -/

/-- What an agent's access meets at its home. -/
inductive Met where
  | data (bs : List Byte) (bad : Bool)
  | done
  /-- the page migrates, or an engine still owes the line -/
  | wait
  /-- the port or the peer answers no more -/
  | lost
  | fault (ia : Nat) (k : FaultKind) (level : Nat) (e : DWord)
deriving DecidableEq, Repr

/-- A read of bytes of one line, with `made` forwards behind it: the engines' earlier writes first (R289), then the translation, the ticks and the verification. -/
def State.iaReadHop (s : State) (a : Agent) (made ia n : Nat) : State × Met :=
  let (s, ok) := s.recall 0 (.ia none) (ia / 64)
  if !ok then (s, .wait)
  else match s.follow false (hopsLeft made) ia with
    | (x, .fault k l e) => (s, .fault x k l e)
    | (_, .blocked) => (s, .wait)
    | (_, .control _) | (_, .to .group) => (s, .data (List.replicate n 0) false)
    | (x, .to (.mem pa)) =>
      let (bs, bad) := s.readPA x pa n
      let (s, p) := (s.passHomes false (hopsLeft made + 1) ia).tickR (x / 64) (s.agentPts a)
      (s.setAgentPts a p, .data bs bad)
    | (_, .to (.sys port x)) =>
      if s.lostPorts.contains port then (s, .lost) else (s.passHomes false (hopsLeft made + 1) ia, .data ((s.sys port).read x n) false)
    | (_, .to (.peer m x)) =>
      if s.peerDead m then (s, .lost) else (s.passHomes false (hopsLeft made + 1) ia, .data ((s.peer m).mem.read x n) false)

def State.iaRead1 (s : State) (a : Agent) (ia n : Nat) : State × Met := s.iaReadHop a 0 ia n

/-- A write, or a read-modify-write by `f` of the bytes that stand there. -/
def State.iaModHop (s : State) (a : Agent) (made ia n : Nat) (f : List Byte → List Byte) (rmw : Bool) : State × Met :=
  let (s, ok) := s.recall 0 (.ia none) (ia / 64)
  if !ok then (s, .wait)
  else match s.follow true (hopsLeft made) ia with
    | (x, .fault k l e) => (s, .fault x k l e)
    | (_, .blocked) => (s, .wait)
    | (_, .control _) | (_, .to .group) => (s, .done)
    | (x, .to (.mem pa)) =>
      let (bs, bad) := s.readPA x pa n
      if rmw && bad then (s, .data bs true)
      else
        let (s, p) := (s.passHomes true (hopsLeft made + 1) ia).writeLine x pa (s.agentPts a) (f bs) none
        (s.setAgentPts a p, if rmw then .data bs false else .done)
    | (_, .to (.sys port x)) =>
      if s.lostPorts.contains port then (s, .lost)
      else
        let m := s.sys port
        ((s.passHomes true (hopsLeft made + 1) ia).setSys port (m.write x (f (m.read x n))), if rmw then .data (m.read x n) false else .done)
    | (_, .to (.peer m x)) =>
      if s.peerDead m then (s, .lost)
      else
        let bs := (s.peer m).mem.read x n
        ((s.passHomes true (hopsLeft made + 1) ia).writePeer m x (f bs) none, if rmw then .data bs false else .done)

def State.iaWrite1 (s : State) (a : Agent) (ia : Nat) (data : List Byte) : State × Met :=
  s.iaModHop a 0 ia data.length (fun _ => data) false

/-- Bytes of several lines, line by line; stops at the first that cannot be read. -/
def State.iaReadLines (s : State) (a : Agent) (ia : Nat) : Nat → State × Met
  | 0 => (s, .data [] false)
  | n + 1 =>
    match s.iaRead1 a ia 64 with
    | (s, .data bs bad) =>
      match s.iaReadLines a (ia + 64) n with
      | (s, .data rest bad') => (s, .data (bs ++ rest) (bad || bad'))
      | r => r
    | r => r

/-- A command takes its slot and runs; LEN = 0 ends at once (R328, R330). -/
def State.issueCommand (s : State) (core : Nat) (t : Tid) (team : Option Team) (tslot : Nat) (q : Option Nat) (grid ctx : Nat)
    (d : EngDesc) (coll : Option (Nat × Nat)) : State :=
  match s.freeSlot core with
  | none => s
  | some slot =>
    let c : Command :=
      { slot, ctx, grid, team := team.map (·.num), who := t, tslot, q, d, done := [], discarded := false, st := .running
        coll, result := none, dropped := false, buffer := [], scr := (team.map (·.scr)).getD 0, arrived := 0
        idx := none, seq := s.nextSeq, pts := s.ptsOf t, since := s.cycle }
    let s := { s with nextSeq := s.nextSeq + 1 }
    let s := s.modCore core fun k => { k with slots := k.slots ++ [c] }
    if d.total = 0 then s.endCommand core c 0
    else
      -- the write lease of every destination line is taken: every reservation there goes, the issuer's too (R294)
      match c.dstSpace with
      | .ia _ =>
        { s with threads := s.threads.map fun th =>
            match th.resv with
            | some v =>
              if (s.namedBy c.dstSpace c.dstBase c.dstSpan (.ia v.peer) v.line).any fun l => !(c.unitsAt s core l).isEmpty then { th with resv := none }
              else th
            | none => th }
      | .scr => s

end Sys2Proof.Machine
end

