-- ==== Sys2Proof/Machine/MemOps.lean ====
section
/-! DEFINITION. Accesses of threads at their homes (chapters 13 to 15): loads, atomics, stores, the side log (R272, R316), requests that leave the module (R296, R443), LDG's member reads (R368, R369) and completion signals (R93). -/

namespace Sys2Proof.Machine

open Sys2Proof

/-! ### Values -/

/-- The register words of a load of `n` bytes (R308). -/
def loadWords (n : Nat) (sx : Bool) (bs : List Byte) : List Word :=
  if n < 4 then [if sx then BitVec.ofInt 32 (signExtend (8 * n) (natOfBytes bs)) else wordOfBytes bs]
  else wordsOfBytes (n / 4) bs

/-- Completes a read into the record's destination slots; an uncorrectable value writes 0 and leaves the cause pending (R311). -/
def State.finishRead (s : State) (t : Tid) (ia : Nat) (ws : List Word) (bad : Bool) : State :=
  match s.thread? t with
  | none => s
  | some th =>
    if bad then s.pushCompl t (th.dest.map fun d => (d, 0)) none (some (.uncorrectable, BitVec.ofNat 64 ia))
    else s.pushCompl t (th.dest.zip ws) none none

/-- Completes with a cause and zeros. -/
def State.finishCause (s : State) (t : Tid) (c : Cause) (info : DWord) : State :=
  match s.thread? t with
  | none => s
  | some th => s.pushCompl t (th.dest.map fun d => (d, 0)) none (some (c, info))

def State.coreOf (s : State) (t : Tid) : Nat :=
  match s.thread? t with
  | some th => th.core
  | none => 0

/-! ### Side-log membership -/

def State.logOf (s : State) (t : Tid) : List SideEnt := (s.core (s.coreOf t)).sidelog.filter fun e => e.t == t
def State.logging (s : State) (t : Tid) : Bool := !(s.logOf t).isEmpty
def SideEnt.takesPlace (e : SideEnt) : Bool :=
  match e.op with
  | .write _ | .marker _ => true
  | _ => false
/-- The 256 entries of R272. -/
def State.logFull (s : State) (core : Nat) : Bool := decide (256 ≤ ((s.core core).sidelog.filter SideEnt.takesPlace).length)
def State.pushLog (s : State) (core : Nat) (e : SideEnt) : State :=
  s.modCore core fun c => { c with sidelog := c.sidelog ++ [e] }

/-! ### Requests that leave the module -/

/-- A request leaves the core, with `hops` forwards behind it. -/
def State.pushOutFrom (s : State) (core : Nat) (t : Tid) (dest : Dest) (op : HeldOp) (hops : Nat := 0) : State :=
  { s with out := s.out ++ [{ t, core, dest, op, seq := s.nextSeq, hops, late := false }], nextSeq := s.nextSeq + 1 }
def State.pushOut (s : State) (t : Tid) (dest : Dest) (op : HeldOp) (hops : Nat := 0) : State := s.pushOutFrom (s.coreOf t) t dest op hops

/-- The requests that a core has under way: at ports and peers, and held at their homes (R8). -/
def State.requests (s : State) (core : Nat) : Nat :=
  (s.out.filter fun o => o.core == core).length +
    (s.held.filter fun h => match h.who with | .thread t => s.coreOf t == core | .side k => k == core | _ => false).length

/-- A core has room for a memory request (R8, Table 1.2). -/
def State.requestRoom (s : State) (core : Nat) : Bool := decide (s.requests core < Config.maxRequests)

/-- The domain of an access under way: fabric or system (R296). -/
def OutReq.inDom (o : OutReq) (d : FenceDom) : Bool :=
  match o.dest, d with
  | .peer _ _, .fab | .peer _ _, .all | .sys _ _, .sys | .sys _ _, .all => true
  | _, _ => false

/-- A subscription that serves a load (R320). -/
def State.subFor (s : State) (t : Tid) (mod ia n : Nat) : Option Sub :=
  (s.die (s.dieOf (s.coreOf t))).subs.find? fun b =>
    b.active && b.ctx == s.ctxOf t && b.mod == mod && decide (b.ia ≤ ia) && decide (ia + n ≤ b.ia + b.len)

/-! ### Reads and read-modify-writes in module memory -/

/-- The 8 bytes of a register of the translation control block (Table 13.8). -/
def State.controlRead (s : State) (off : Nat) : DWord :=
  if off = 0 then s.xroot
  else if 0x100 ≤ off ∧ off < 0x200 then
    match s.migs[(off - 0x100) / 0x40]? with
    | some m => match (off - 0x100) % 0x40 with
      | 0 => m.src
      | 8 => m.dst
      | 0x10 => BitVec.ofNat 64 m.stat
      | _ => 0
    | none => 0
  else 0

def HeldOp.isRead : HeldOp → Bool
  | .load _ _ | .lr _ | .fetch _ | .barRead _ | .ldg _ _ _ _ _ | .record _ | .hostRead _ _ _ | .member _ _ _ _ _ => true
  | _ => false

/-- A submission that its thread waits for (R99, R119). -/
def HeldOp.isSubmit : HeldOp → Bool
  | .write (.launch _ _ _) | .write (.task _ _) => true
  | _ => false

/-- No lower lane of the same issue still waits to submit: launches and task packets go in ascending lane order (R99, R119). -/
def State.submitsNext (s : State) (o : OutReq) : Bool :=
  match s.thread? o.t with
  | none => true
  | some th => !(s.out.any fun x => x.op.isSubmit && x.core == o.core && decide (x.seq < o.seq) &&
      (match s.thread? x.t with
       | some y => y.segpc == th.segpc && Tid.ctxNum y.id == Tid.ctxNum th.id && Tid.gridNum y.id == Tid.gridNum th.id
       | none => false))

def HeldOp.bytes : HeldOp → Nat
  | .load n _ | .lr n | .atomic _ n _ _ | .barRead n | .ldg _ _ n _ _ | .hostRead _ _ n | .member _ _ _ _ n => n
  | _ => 0

def HeldOp.accKind : HeldOp → AccKind
  | .load _ _ | .lr _ | .barRead _ | .ldg _ _ _ _ _ | .record _ | .hostRead _ _ _ | .member _ _ _ _ _ => .load
  | .atomic _ _ _ _ | .signal => .atomic
  | .fetch _ => .fetch
  | .write _ | .barWrite _ | .hostWrite _ _ _ => .store
  | .engine w => if w then .engineWrite else .engineRead

/-- The access performed at its place in module memory. -/
def State.atMem (s : State) (t : Tid) (ia pa : Nat) (op : HeldOp) : State :=
  let s := s.keepTranslation ia
  let line := ia / 64
  match op with
  | .load n sx =>
    let (bs, bad) := s.readPA ia pa n
    (s.tickLoad t line).finishRead t ia (loadWords n sx bs) bad
  | .lr n =>
    let (bs, bad) := s.readPA ia pa n
    let s := (s.tickLoad t line).modThread t fun th => { th with resv := some ⟨line, none, s.cycle⟩ }
    let s : State := { s with leases := (line, s.dieOf (s.coreOf t)) :: s.leases.filter fun x => x.1 != line }
    s.finishRead t ia (loadWords n false bs) bad
  | .atomic op n b c =>
    let (bs, bad) := s.readPA ia pa n
    if bad then s.finishRead t ia [] true
    else
      let new := atomNew op n (natOfBytes bs) b c
      let (s, p) := s.writeLine ia pa (s.ptsOf t) (bytesOfNat n new) (some t)
      (s.modThread t fun th => { th with pts := p }).finishRead t ia (loadWords n false bs) false
  | _ => s

/-- A request to a peer that a record waits for: its remote-wait deadline runs from the segment end (R406). -/
def State.pushRemote (s : State) (t : Tid) (m ia : Nat) (op : HeldOp) (hops : Nat := 0) : State :=
  let wait := match s.ctx? (s.ctxOf t) with
    | some c => bitsOf c.ctxwdog.toNat 0 18 * 10 * Config.cyclesPerUs
    | none => 0
  (s.pushOut t (.peer m ia) op hops).modThread t fun th => { th with remote := some (th.stamp + wait, m) }

/-- A load or atomic goes to its home (R259, R271, R275, R289, R306); it is held where it cannot be performed. An engine that owes the line writes it first. -/
def State.request (s : State) (t : Tid) (ia : Nat) (peer : Option Nat) (op : HeldOp) : State :=
  match peer with
  | some m =>
    match op, s.subFor t m ia op.bytes with
    | .load n sx, some b => s.finishRead t ia (loadWords n sx (b.copy.read ia n)) false
    | _, _ => s.pushRemote t m ia op
  | none =>
    let h : HeldAcc := { who := .thread t, ctx := s.ctxOf t, ia, op, kind := none }
    let (s, ok) := s.recall (s.coreOf t) (.ia none) (ia / 64)
    if !ok then s.holdBlocked h
    else match s.route ia (!op.isRead) with
    | .fault k l e => s.holdFault h op.accKind k l e
    | .blocked => s.holdBlocked h
    | .control off =>
      match op with
      | .load 8 sx => s.finishRead t ia (loadWords 8 sx (bytesOfNat 8 (s.controlRead off).toNat)) false
      | _ => s.finishRead t ia (List.replicate 4 0) false
    | .to (.sys port a) =>
      match op with
      | .load _ _ => (s.keepTranslation ia).pushOut t (.sys port a) op
      | _ => s.finishCause t .atomicDomain (BitVec.ofNat 64 ia)
    | .to (.peer m a) =>
      match op, s.subFor t m a op.bytes with
      | .load n sx, some b => s.finishRead t ia (loadWords n sx (b.copy.read a n)) false
      | _, _ => (s.passHomes (!op.isRead) 1 ia).pushRemote t m a op 1
    | .to .group => s
    | .to (.mem pa) => s.atMem t ia pa op

/-- A load, LR or atomic of a thread: behind its side-log entries when it has any (R272). -/
def State.memRequest (s : State) (t : Tid) (ia : Nat) (peer : Option Nat) (op : HeldOp) : State :=
  if s.logging t then
    match op with
    | .load n sx => s.pushLog (s.coreOf t) { t, ia, peer, op := .load n sx, held := false }
    | .lr n => s.pushLog (s.coreOf t) { t, ia, peer, op := .lr n, held := false }
    | .atomic a n b c => s.pushLog (s.coreOf t) { t, ia, peer, op := .atomic a n b c, held := false }
    | _ => s
  else s.request t ia peer op

/-! ### Writes -/

def Eff.ia : Eff → Nat
  | .store ia _ _ | .red _ ia _ _ _ | .stm ia _ _ _ _ => ia
  | _ => 0
def Eff.peer : Eff → Option Nat
  | .store _ p _ | .red _ _ p _ _ => p
  | _ => none

/-- A store to the translation control block (Table 13.8): the register, or the action of its rule. -/
def State.controlWrite (s : State) (off : Nat) (v : DWord) : State :=
  let act (i : Instr) : State := { s with work := s.work ++ [.event i] }
  if off = 0 then act (.xrootWrite v)
  else if off = 8 then act (.xinval v)
  else if off = 0x10 then
    (if v.getLsbD 0 then act (.xresolveAbandon (bitsOf v.toNat 12 40)) else act (.xresolve (bitsOf v.toNat 12 40)))
  else if 0x100 ≤ off ∧ off < 0x200 then
    let c := (off - 0x100) / 0x40
    match (off - 0x100) % 0x40 with
    | 0 => { s with migs := setAt s.migs c { getAt ⟨0, 0, 0, 0, 0, 0⟩ s.migs c with src := v } }
    | 8 => act (.migrationStart c v)
    | _ => s
  else s

/-- MCASTi (Table 15.5) of a thread's context. -/
def State.mcastOf (s : State) (t : Tid) (i : Nat) : Nat :=
  match s.ctx? (s.ctxOf t) with
  | some c => (getAt 0 c.mcast i).toNat
  | none => 0

/-- A multicast store's mask selects this module. -/
def State.stmHere (s : State) (t : Tid) (mask : DWord) : Bool :=
  (seqFrom 0 64).any fun i => mask.getLsbD i && (s.mcastOf t i).testBit 31 && s.mcastOf t i % 4096 == s.modid

/-- This module's own write of a multicast store, a module-domain access (R322); `false`: its home faults on the IA. -/
def State.stmOwn (s : State) (t : Tid) (ia : Nat) (data : List Byte) : State × Bool :=
  let s' := s.passHomes true 5 ia
  match s.follow true 4 ia with
  | (x, .to (.mem pa)) =>
    let (s, p) := s'.writeLine x pa (s.ptsOf t) data (some t)
    (s.modThread t fun th => { th with pts := p }, true)
  | (_, .to (.sys port a)) => if s.lostPorts.contains port then (s, false) else (s'.setSys port ((s.sys port).write a data), true)
  | (_, .to (.peer m a)) => if s.peerDead m then (s, false) else (s'.writePeer m a data (some t), true)
  | (_, .control _) => (s, true)
  | _ => (s, false)

/-- The members of a multicast store, in rising order (R322): this module's write is performed at once and its arrival sent; the others' go out; an entry with V = 0 names no module. -/
def State.sendMembers (s : State) (core : Nat) (t : Tid) (ia : Nat) (data : List Byte) (mask : DWord) (off tag : Nat) : State :=
  ((seqFrom 0 64).filter fun i => mask.getLsbD i).foldl (fun s i =>
    let m := s.mcastOf t i
    let op : HeldOp := .write (.stm ia data (BitVec.ofNat 64 (2 ^ i)) off tag)
    if m.testBit 31 then
      if m % 4096 = s.modid then
        let (s, ok) := s.stmOwn t ia data
        s.pushOutFrom core t (if ok then .mem 0 else .group) op
      else s.pushOutFrom core t (.peer (m % 4096) ia) op
    else s.pushOutFrom core t .group op) s

/-- A write at its place in module memory. -/
def State.writeMem (s : State) (t : Tid) (pa : Nat) (ia : Nat) (e : Eff) : State :=
  let (s, p) := match e with
    | .store _ _ data => s.writeLine ia pa (s.ptsOf t) data (some t)
    | .red op _ _ n b =>
      let (bs, bad) := s.readPA ia pa n
      if bad then (s, s.ptsOf t)
      else s.writeLine ia pa (s.ptsOf t) (bytesOfNat n (atomNew op n (natOfBytes bs) b 0)) (some t)
    | _ => (s, s.ptsOf t)
  s.modThread t fun th => { th with pts := p }

/-- A write performed at its home: its place in the module order (R281, R312, R313). `false`: it faults or must wait there. -/
def State.writeDo (s : State) (core : Nat) (t : Tid) (e : Eff) : State × Option (Option (FaultKind × Nat × DWord)) :=
  match e with
  | .stm ia data mask off tag =>
    if s.stmHere t mask ∧ s.routeAll ia true = .blocked then (s, some none)
    else (s.sendMembers core t ia data mask off tag, none)
  | _ =>
    match e.peer with
    | some m => (s.pushOutFrom core t (.peer m e.ia) (.write e), none)
    | none =>
      match s.route e.ia true with
      | .fault k l x => (s, some (some (k, l, x)))
      | .blocked => (s, some none)
      | .control off =>
        match e with
        | .store _ _ data =>
          if data.length = 8 ∧ off % 8 = 0 then (s.controlWrite off (dwordOfBytes data), none)
          else (s, none)
        | _ => (s, none)
      | .to (.sys port a) =>
        match e with
        | .store _ _ _ => ((s.passHomes true 1 e.ia).pushOutFrom core t (.sys port a) (.write e), none)
        | _ => (s.modThread t fun th => { th with next := some (.atomicDomain, BitVec.ofNat 64 e.ia) }, none)
      | .to (.peer m a) => ((s.passHomes true 1 e.ia).pushOutFrom core t (.peer m a) (.write e) 1, none)
      | .to .group => (s, none)
      | .to (.mem pa) => (s.writeMem t pa e.ia e, none)

/-- An entry of the side log that faults, or must wait, at its home (R271, R272). -/
def State.logHeld (s : State) (core : Nat) (t : Tid) (ia : Nat) (e : Eff) (f : Option (FaultKind × Nat × DWord)) : State :=
  let s := match f with
    | some (k, l, x) => s.report true (s.ctxOf t) ia .store k l x
    | none => s
  s.pushLog core { t, ia, peer := e.peer, op := .write e, held := true }

/-- A store, RED or STM of a thread leaves the core: into the side log behind the thread's entries, or when it faults or must wait at its home (R272). -/
def State.storeRequest (s : State) (t : Tid) (e : Eff) : State :=
  let core := s.coreOf t
  if s.logging t then s.pushLog core { t, ia := e.ia, peer := e.peer, op := .write e, held := false }
  else match s.writeDo core t e with
    | (s, none) => s
    | (s, some f) => s.logHeld core t e.ia e f

/-- Whether a store of a thread would take a side-log entry now. -/
def State.storeLogs (s : State) (t : Tid) (e : Eff) : Bool :=
  s.logging t ||
  (match e, e.peer with
   | .stm ia _ mask _ _, _ => s.stmHere t mask && s.routeAll ia true == .blocked
   | _, some _ => false
   | _, none => match s.route e.ia true with
     | .fault _ _ _ | .blocked => true
     | _ => false)

/-! ### Performing requests at peers and ports -/

/-- The rank's entry in a table (Table 18.2). -/
def rankP (w : Word) : Bool := w.getLsbD 31
def rankMod (w : Word) : Nat := bitsOf w.toNat 13 12
def rankCore (w : Word) : Nat := bitsOf w.toNat 0 13

/-- What a peer shows of itself beside its IA space, at keys above it (log 8): the gangs of which it is a member, each with its rank, its NCORE, for each core SCRATCH + 1 of the member team, the team's bytes, and which of them read uncorrectable. -/
def peerRank (p : Peer) (gang : DWord) : Option Nat :=
  ((seqFrom 0 64).find? fun i => p.mem.get (2 ^ 59 + 16 * i + 10) != 0 && natOfBytes (p.mem.read (2 ^ 59 + 16 * i) 8) == gang.toNat).map fun i =>
    natOfBytes (p.mem.read (2 ^ 59 + 16 * i + 8) 2)
def peerMember (p : Peer) (gang : DWord) : Bool := (peerRank p gang).isSome
def peerNcore (p : Peer) : Nat :=
  let n := natOfBytes (p.mem.read (2 ^ 58) 4)
  if n = 0 then Config.cores else n
def peerScratch (p : Peer) (core : Nat) : Option Nat :=
  let n := natOfBytes (p.mem.read (2 ^ 57 + 4 * core) 4)
  if n = 0 then none else some (n - 1)
def peerBytes (p : Peer) (core off n : Nat) : List Byte := p.mem.read (2 ^ 56 + core * 2 ^ 20 + off) n
/-- A byte of the team's that reads uncorrectable there. -/
def peerBad (p : Peer) (core off n : Nat) : Bool := (p.mem.read (2 ^ 54 + core * 2 ^ 20 + off) n).any (· != 0)

/-- The resident team of a grid with the lowest TEAMID on a core (R366). -/
def State.memberTeam (s : State) (c g core : Nat) : Option Team :=
  (s.teams.filter fun tm => tm.ctx == c && tm.grid == g && tm.core == core && tm.saved.isNone).foldl
    (fun a tm => match a with
      | none => some tm
      | some b => if tm.num < b.num then some tm else some b) none

/-- What a rank gives to an LDG: its bytes, or the identity with the kind GRPERR logs (`some 4`: nothing) (R369). -/
def State.memberRead (s : State) (gr : Grid) (e : Word) (off n : Nat) (cut : Bool) : (List Byte) ⊕ Nat :=
  if !rankP e then .inr 4
  else if rankMod e = s.modid then
    if s.ncore ≤ rankCore e then .inr 4
    else match s.memberTeam gr.ctx gr.num (rankCore e) with
      | none => .inr 1
      | some tm =>
        let (bs, bad) := s.scrRead (rankCore e) (tm.scr + off) n
        if bad then .inr 0 else .inl bs
  else
    let p := s.peer (rankMod e)
    if !(gr.gang.any fun x => peerMember p x.id) ∨ s.peerDead p.id = true ∨ cut = true then .inr 2
    else if peerNcore p ≤ rankCore e then .inr 4
    else match peerScratch p (rankCore e) with
      | none => .inr 1
      | some k =>
        if k < off + n then .inr 1
        else if peerBad p (rankCore e) off n then .inr 0
        else .inl (peerBytes p (rankCore e) off n)

/-- The scratchpad lines of this module's cores that a rank's read meets. -/
def State.memberLines (s : State) (gr : Grid) (e : Word) (off n : Nat) : List (Nat × Nat) :=
  if rankP e && rankMod e == s.modid then
    match s.memberTeam gr.ctx gr.num (rankCore e) with
    | some tm => (seqFrom ((tm.scr + off) / 64) ((tm.scr + off + n - 1) / 64 - (tm.scr + off) / 64 + 1)).map fun l => (rankCore e, l)
    | none => []
  else []

/-- The engines' earlier writes to what an LDG reads (R289); answers whether all have been made. -/
def State.recallMembers (s : State) (gr : Grid) (table : List Word) (off n : Nat) : State × Bool :=
  (table.flatMap fun e => s.memberLines gr e off n).foldl (fun q kl =>
    let (s, ok) := q.1.recall kl.1 .scr kl.2
    (s, q.2 && ok)) (s, true)

/-- GRPERR keeps the first failure (R370). -/
def State.logGroup (s : State) (core kind rank : Nat) : State :=
  s.modCore core fun c =>
    if c.grperr.getLsbD 31 then { c with grperr := c.grperr ||| 0x40000000 }
    else { c with grperr := BitVec.ofNat 32 (2 ^ 31 + kind * 2 ^ 28 + rank) ||| (c.grperr &&& 0x40000000) }

/-- Column `k` of the members' words reduced in the tree of R217. -/
def ldgColumn (op : LdgOp) (ty : LdgTy) (vs : List (List Word)) (k : Nat) : Word :=
  (treeRun (fun a b => (ldgCombine op ty a b, 0)) 64 (vs.map fun v => getAt 0 v k)).1

/-- The member reads of an LDG, in rank order, and its completion (R368 to R371). `cut`: the ranks of peers no longer answer (R406). -/
def State.ldgDo (s : State) (t : Tid) (core : Nat) (op : LdgOp) (ty : LdgTy) (n off : Nat) (table : List Word) (cut : Bool) : State :=
  match s.thread? t, s.gridOf t with
  | some th, some gr =>
    let rs := (table.zip (seqFrom 0 table.length)).map fun (e, r) => (r, s.memberRead gr e off n cut)
    let s := rs.foldl (fun s (q : Nat × ((List Byte) ⊕ Nat)) =>
      match q.2 with
      | .inl _ | .inr 4 => s
      | .inr k =>
        let s := s.logGroup core k q.1
        if k = 0 then s.logError core (s.errEntry th 4 0 0 (BitVec.ofNat 64 q.1)) else s) s
    let ok := rs.all fun q => match q.2 with
      | .inl _ | .inr 4 => true
      | _ => false
    let vs := rs.map fun q => match q.2 with
      | .inl bs => wordsOfBytes (n / 4) bs
      | .inr _ => List.replicate (n / 4) (ldgIdentity op ty)
    let present := rs.filter fun q => match q.2 with
      | .inl _ => true
      | _ => false
    let res := match op with
      | .mini =>
        let rt : RedixTy := match ty with
          | .s32 => .s32
          | _ => .f32
        let w := (present.map fun q => ((match q.2 with | .inl bs => wordOfBytes bs | _ => 0 : Word), BitVec.ofNat 32 q.1)).foldl
          (fun a b => if a.2 == 0xFFFFFFFF then b else redixPick false rt false a b) ((ldgIdentity .mini ty, 0xFFFFFFFF) : Word × Word)
        [redixOut rt false w.1, w.2]
      | _ => (seqFrom 0 (n / 4)).map fun k => ldgColumn op ty vs k
    s.pushCompl t (th.dest.zip res) (th.destP.map fun e => (e, ok)) none
  | _, _ => s

/-- One arrival of a multicast store's member (R322). -/
def State.stmArrive (s : State) (core : Nat) (data : List Byte) (mask : DWord) (off tag : Nat) (ok : Bool) : State :=
  let i := ((seqFrom 0 64).find? fun i => mask.getLsbD i).getD 0
  if ok then (s.arrive core off data.length (some tag) 0).1
  else
    let m := natOfBytes (s.scrRead core (off + 16) 8).1
    let s := if bitsOf (s.objAt core off) 64 16 = tag then s.scrRaw core (off + 16) (bytesOfNat 8 (m ||| 2 ^ i)) else s
    (s.arrive core off data.length (some tag) 7).1

/-- A member's write in another module's own order; `ok` is false when it fails there. -/
def State.memberWrite (s : State) (t : Tid) (m ia : Nat) (data : List Byte) : State × Bool :=
  if s.peerDead m then (s, false) else (s.writePeer m ia data (some t), true)

/-- A request performed at a peer's home (R292, R297). -/
def State.atPeer (s : State) (t : Tid) (m ia : Nat) (op : HeldOp) : State :=
  let q := s.peer m
  let line := ia / 64
  match op with
  | .load n sx => s.finishRead t ia (loadWords n sx (q.mem.read ia n)) false
  | .lr n =>
    (s.modThread t fun th => { th with resv := some ⟨line, some m, s.cycle⟩ }).finishRead t ia (loadWords n false (q.mem.read ia n)) false
  | .atomic op n b c =>
    let old := q.mem.read ia n
    (s.writePeer m ia (bytesOfNat n (atomNew op n (natOfBytes old) b c)) (some t)).finishRead t ia (loadWords n false old) false
  | .write (.store _ _ data) => s.writePeer m ia data (some t)
  | .write (.red op _ _ n b) => s.writePeer m ia (bytesOfNat n (atomNew op n (natOfBytes (q.mem.read ia n)) b 0)) (some t)
  | _ => s

/-- A request against an unreachable peer (R443). -/
def State.linkDead (s : State) (t : Tid) (m : Nat) (op : HeldOp) : State :=
  match op with
  | .load _ _ | .lr _ | .atomic _ _ _ _ => s.finishCause t .remoteTimeout (BitVec.ofNat 64 m)
  | _ =>
    if (s.logOf t).any fun e => match e.op with | .marker .fab | .marker .all => true | _ => false then
      s.modThread t fun th => { th with next := some (.remoteTimeout, BitVec.ofNat 64 m) }
    else s

/-- A thread of the same grid that does not exist: what completes for it is discarded. -/
def ghost : Tid → Tid
  | .thr c g t k _ => .thr c g t k 32
  | .scalar k => .thr 4096 0 0 k 32

/-- A request at a port (R275, R299, R439). -/
def State.atPort (s : State) (t : Tid) (port a : Nat) (op : HeldOp) : State :=
  match op with
  | .load n sx =>
    if s.lostPorts.contains port then s.finishRead t a [] true else s.finishRead t a (loadWords n sx ((s.sys port).read a n)) false
  | .write (.store _ _ data) => if s.lostPorts.contains port then s else s.setSys port ((s.sys port).write a data)
  | .write (.red _ ia _ _ _) => s.modThread t fun th => { th with next := some (.atomicDomain, BitVec.ofNat 64 ia) }
  | .lr _ | .atomic _ _ _ _ => s.finishCause t .atomicDomain (BitVec.ofNat 64 a)
  | _ => s

/-- A fabric request that comes back to this module: at its own home for the IA it has there, forwards followed up to four in all (R275). `none`: an engine still owes the line. -/
def State.atOwn (s : State) (core : Nat) (t : Tid) (hops ia : Nat) (op : HeldOp) : Option State :=
  let write := !op.isRead
  let (s, ok) := s.recall core (.ia none) (ia / 64)
  if !ok then none
  else
    let (x, r) := s.follow write (hopsLeft hops) ia
    let s' := s.passHomes write (hopsLeft hops + 1) ia
    let hold (f : Option (FaultKind × Nat × DWord)) : State :=
      match op with
      | .write (.store _ _ data) => s.logHeld core t x (.store x none data) f
      | .write (.red o _ _ n b) => s.logHeld core t x (.red o x none n b) f
      | _ =>
        let h : HeldAcc := { who := .thread t, ctx := s.ctxOf t, ia := x, op, kind := none }
        match f with
        | some (k, l, e) => s.holdFault h op.accKind k l e
        | none => s.holdBlocked h
    some (match r with
      | .fault k l e => hold (some (k, l, e))
      | .blocked => hold none
      | .control _ => match op with
        | .write _ => s
        | _ => s.finishRead t x (List.replicate 4 0) false
      | .to (.mem pa) => match op with
        | .write e => s'.writeMem t pa x e
        | _ => s'.atMem t x pa op
      | .to (.sys port a) => s'.atPort t port a op
      | .to (.peer m a) => if s.peerDead m then s'.linkDead t m op else s'.atPeer t m a op
      | .to .group => s)

/-- Performs one request that has left the core; one whose line an engine still owes stays under way. -/
def State.performOut (s : State) (o : OutReq) : State :=
  let s' := { s with out := s.out.filter fun x => x.seq != o.seq }
  let o := if o.late then { o with t := ghost o.t } else o
  match o.op with
  | .ldg op ty n off table =>
    match s.gridOf o.t with
    | none => s'
    | some gr =>
      let (r, ok) := s'.recallMembers gr table off n
      if ok then r.ldgDo o.t o.core op ty n off table false else s
  | .write (.stm _ data mask off tag) =>
    let (r, ok) := s'.recall o.core .scr (off / 64)
    if !ok then s
    else match o.dest with
      | .mem _ => r.stmArrive o.core data mask off tag true
      | .peer m ia =>
        let (r, ok) := r.memberWrite o.t m ia data
        r.stmArrive o.core data mask off tag ok
      | _ => r.stmArrive o.core data mask off tag false
  | op =>
    match o.dest with
    | .peer m ia =>
      if m = s.modid then (s'.atOwn o.core o.t o.hops ia op).getD s
      else
        let (r, ok) := s'.recall o.core (.ia (some m)) (ia / 64)
        if !ok then s else if s.peerDead m then r.linkDead o.t m op else r.atPeer o.t m ia op
    | .sys port a => s'.atPort o.t port a op
    | _ => s'

def sameDest : Dest → Dest → Bool
  | .peer m _, .peer m' _ => m == m'
  | .sys p _, .sys p' _ => p == p'
  | _, _ => false

/-- Whether a core group names a peer module. -/
def spansModules (modid : Nat) (table : List Word) : Bool := table.any fun e => rankP e && rankMod e != modid

/-- Requests that may be performed next: the first of each thread to each peer or port (R297, R299); an LDG after all earlier ones of its thread, and with its gang settled (R105, R371); nothing at a recovering peer (R444). -/
def State.outReady (s : State) : List OutReq :=
  s.out.filter fun o =>
    (match o.op with
     | .ldg _ _ _ _ table =>
       !(s.out.any fun x => x.t == o.t && decide (x.seq < o.seq)) && !s.logging o.t &&
       !(table.any fun e => rankP e && rankMod e != s.modid && (s.peer (rankMod e)).state == .recovering) &&
       (match (s.gridOf o.t).bind (·.gang) with
        | some g => g.state != .uncommitted || !(spansModules s.modid table)
        | none => true)
     | _ => !(s.out.any fun x => x.t == o.t && sameDest x.dest o.dest && decide (x.seq < o.seq))) &&
    (match o.dest with
     | .peer m _ => m == s.modid || (s.peer m).state != .recovering && (s.noRoute || s.links.any fun l => l.state == .up)
     | _ => true)

/-! ### The side log's events (R272, R273, R317) -/

/-- The oldest entry of each thread is the one that may be performed. -/
def firstOf (l : List SideEnt) (p : SideEnt → Bool) : List Tid → Option SideEnt
  | seen => go l p seen
where
  go : List SideEnt → (SideEnt → Bool) → List Tid → Option SideEnt
    | [], _, _ => none
    | e :: es, p, seen => if seen.contains e.t then go es p seen else if p e then some e else go es p (e.t :: seen)

def State.dropLog (s : State) (core : Nat) (e : SideEnt) : State :=
  s.modCore core fun c => { c with sidelog := c.sidelog.erase e }

/-- The load or atomic that waits behind a thread's entries. -/
def SideEnt.request? (e : SideEnt) : Option HeldOp :=
  match e.op with
  | .load n sx => some (.load n sx)
  | .lr n => some (.lr n)
  | .atomic o n b c => some (.atomic o n b c)
  | _ => none

/-- The entry that the log performs next. -/
def State.nextLog (s : State) (core : Nat) : Option SideEnt :=
  firstOf (s.core core).sidelog (fun e => !e.held && (match e.op with | .marker _ => false | _ => true)) []

/-- One entry is performed and takes its place (R272); if it cannot be, it is held in the log. -/
def State.performLog (s : State) (core : Nat) : State :=
  match s.nextLog core with
  | none => s
  | some e =>
    match e.op with
    | .write w =>
      let (s, ok) := match w, e.peer with
        | .stm ia _ mask _ _, _ => if s.stmHere e.t mask then s.recall core (.ia none) (ia / 64) else (s, true)
        | _, some m => s.recall core (.ia (some m)) (e.ia / 64)
        | _, none => s.recall core (.ia none) (e.ia / 64)
      let (s, ok) := if ok then
          (match w, e.peer with
           | .stm ia _ mask _ _, _ => if s.stmHere e.t mask then s.saveSource e.t core (.ia none) (ia / 64) else (s, true)
           | _, p => s.saveSource e.t core (.ia p) (e.ia / 64))
        else (s, false)
      if !ok then s
      else match s.writeDo core e.t w with
        | (s, none) => s.dropLog core e
        | (s, some f) =>
          let s := match f with
            | some (k, l, x) => s.report true (s.ctxOf e.t) e.ia .store k l x
            | none => s
          s.modCore core fun c => { c with sidelog := c.sidelog.map fun x => if x = e then { x with held := true } else x }
    | _ =>
      match e.request? with
      | some op => (s.dropLog core e).request e.t e.ia e.peer op
      | none => s

/-- The oldest marker whose domain's accesses have been performed (R317). -/
def State.performMarker (s : State) (core : Nat) : Option State :=
  (firstOf (s.core core).sidelog (fun e => match e.op with
      | .marker d => !(s.out.any fun o => o.t == e.t && o.inDom d)
      | _ => false) []).map fun e => s.dropLog core e

/-! ### Completion signals (R93) -/

/-- COUNT falls by 1; the first error is kept. -/
def signalNew (old status : Nat) : Nat :=
  let count := (old % 2 ^ 48 + 2 ^ 48 - 1) % 2 ^ 48
  let err := if status ≠ 0 ∧ old / 2 ^ 48 = 0 then status else old / 2 ^ 48
  count + err * 2 ^ 48

/-- Answers whether it failed for good (R430). -/
def State.signalAt (s : State) (ctx ia : Nat) (peer : Option Nat) (status : Nat) (after : List (Nat × EvEntry) := []) : State × Bool :=
  let post (s : State) : State := after.foldl (fun s x => s.postEvent x.1 x.2) s
  let new (bs : List Byte) : List Byte := bytesOfNat 8 (signalNew (natOfBytes bs) status)
  let here : State × Bool :=
    let h : HeldAcc := { who := .signal ctx status, ctx, ia, op := .signal, kind := none, after }
    match s.iaModHop .events 0 ia 8 new true with
    | (s, .fault x k l e) => (s.holdFault { h with ia := x } .atomic k l e, false)
    | (s, .wait) => (s.holdBlocked h, false)
    | (s, .lost) => (post s, true)
    | (s, .data _ bad) => (post s, bad)
    | (s, .done) => (post s, false)
  match peer with
  | some m =>
    if m = s.modid then here
    else if s.peerDead m then (post s, true)
    else
      let (s, _) := s.recall 0 (.ia (some m)) (ia / 64)
      (post (s.writePeer m ia (new ((s.peer m).mem.read ia 8)) none), false)
  | none => here

/-- The update of a signal address through the windows as they stand; 0 and a failed window check do nothing. -/
def State.signal (s : State) (ctx : Nat) (va : DWord) (status : Nat) (after : List (Nat × EvEntry) := []) : State :=
  let post (s : State) : State := after.foldl (fun s x => s.postEvent x.1 x.2) s
  if va = 0 then post s
  else match s.ctx? ctx with
    | none => post s
    | some c =>
      match translateVA c va 8 .rmw with
      | none => post s
      | some (ia, peer) =>
        let (s, fail) := s.signalAt ctx ia peer status after
        if fail && s.stop.state == 1 then { s with stop := { s.stop with sigfail := s.stop.sigfail + 1 } } else s

end Sys2Proof.Machine
end

