-- ==== Sys2Proof/Machine/Joins.lean ====
section
/-! DEFINITION. The join unit (R156 to R162, R167): masks, arrivals, releases. -/

namespace Sys2Proof.Machine

open Sys2Proof

/-- The lanes of a word, ascending. -/
def lanesOf (w : Word) : List Nat := (seqFrom 0 32).filter fun l => w.getLsbD l
def laneBit (l : Nat) : Word := BitVec.ofNat 32 (2 ^ l)
def lanesWord (l : List Nat) : Word := l.foldl (fun w k => w ||| laneBit k) 0

def Group.maskOf (g : Group) (n : Nat) : Word := getAt 0 g.mask n
def Group.arrOf (g : Group) (n : Nat) : Word := getAt 0 g.arr n
def Group.setMask (g : Group) (n : Nat) (v : Word) : Group := { g with mask := setAt g.mask n v }
def Group.setArr (g : Group) (n : Nat) (v : Word) : Group := { g with arr := setAt g.arr n v }
/-- (MASK AND NOT ARR) = 0. -/
def Group.satisfied (g : Group) (n : Nat) : Bool := g.maskOf n &&& ~~~(g.arrOf n) == 0

/-- A group at team start (Table 8.4). -/
def Group.reset : Group := { live := 0xFFFFFFFF, mask := List.replicate 8 0, arr := List.replicate 8 0 }

def Team.group (tm : Team) (g : Nat) : Group := getAt Group.reset tm.groups g

def State.groupOf (s : State) (c g t grp : Nat) : Group :=
  match s.team? c g t with
  | some tm => tm.group grp
  | none => Group.reset
def State.modGroup (s : State) (c g t grp : Nat) (f : Group → Group) : State :=
  s.modTeam c g t fun tm => { tm with groups := setAt tm.groups grp (f (tm.group grp)) }

/-- Release(n, S): completions to the lanes of ARR outside S, as one release set; ARR := 0. A lane in a handler is only marked (R160, R167). -/
def State.joinRelease (s : State) (c g t grp n : Nat) (stay : Word) : State :=
  let ls := lanesOf ((s.groupOf c g t grp).arrOf n &&& ~~~stay)
  let ts := ls.map fun l => Tid.thr c g t grp l
  let s := s.modGroup c g t grp fun x => x.setArr n 0
  let waits (x : Tid) : Bool := match s.thread? x with
    | some th => match th.wait with
      | .join j _ => j == n && th.awaits
      | _ => false
    | none => false
  let s := ts.foldl (fun s x => s.modThread x fun th =>
    match th.h.join with
    | some (j, a, _) => if j = n then { th with h := { th.h with join := some (j, a, true) } } else th
    | none => th) s
  match ts.filter waits with
  | [] => s
  | l => s.release l

/-- The re-evaluation that JSET, JLEAVE, EXIT and a redirection make. -/
def State.joinCheck (s : State) (c g t grp n : Nat) : State :=
  let x := s.groupOf c g t grp
  if x.arrOf n != 0 && x.satisfied n then s.joinRelease c g t grp n 0 else s

/-- JSET's operation (R158). -/
def State.joinSet (s : State) (c g t grp n : Nat) (v : Word) : State :=
  (s.modGroup c g t grp fun x => x.setMask n (v &&& x.live)).joinCheck c g t grp n

/-- JLEAVE's operation (R161). -/
def State.joinLeave (s : State) (c g t grp n : Nat) (lanes : Word) : State :=
  (s.modGroup c g t grp fun x => (x.setMask n (x.maskOf n &&& ~~~lanes)).setArr n (x.arrOf n &&& ~~~lanes)).joinCheck c g t grp n

/-- JWAIT's arrival (R159): the new ARR, the lanes that arrived, whether the join is satisfied. -/
def State.joinArrive (s : State) (c g t grp n : Nat) (lanes : Word) : State × Word × Bool :=
  let a := lanes &&& (s.groupOf c g t grp).maskOf n
  let s := s.modGroup c g t grp fun x => x.setArr n (x.arrOf n ||| a)
  (s, a, a != 0 && (s.groupOf c g t grp).satisfied n)

/-- EXIT's removal of lanes from LIVE and every join (R164). -/
def State.joinExit (s : State) (c g t grp : Nat) (lanes : Word) : State :=
  let s := s.modGroup c g t grp fun x => { x with live := x.live &&& ~~~lanes }
  (seqFrom 0 8).foldl (fun s n => s.joinLeave c g t grp n lanes) s

end Sys2Proof.Machine
end

