-- ==== Sys2Proof/Machine/Launch.lean ====
section
/-! DEFINITION. Launches and dependences (chapters 02, 05, 06): launch records (R39, R41), the event unit (R95), eligibility (R96), queues' packets as they complete (R90 to R93), task packets (R116), retirement (R94, R117). -/

namespace Sys2Proof.Machine

open Sys2Proof

/-! ### Status codes (Table 5.5) -/

def stOk : Nat := 0
def stLaunchFormat : Nat := 1
def stModeMismatch : Nat := 2
def stGangAbort : Nat := 3
def stGridKilled : Nat := 4
def stPacketFormat : Nat := 5
def stCancelled : Nat := 6
def stRecordFault : Nat := 7
def stQueueIndex : Nat := 8

/-! ### The launch record (Table 2.9) -/

def maskOfBytes (bs : List Byte) : EvMask := BitVec.ofNat 256 (natOfBytes bs)

def Record.ofBytes (bs : List Byte) : Record :=
  let fl := fieldAt bs 0x0C 4
  { kentry := BitVec.ofNat 64 (fieldAt bs 0 8), nteams := fieldAt bs 8 4, prio := bitsOf fl 8 4, gang := fl.testBit 7
    setonerr := fl.testBit 6, stagger := fieldAt bs 0x10 4, complsig := BitVec.ofNat 64 (fieldAt bs 0x18 8)
    waitmask := maskOfBytes ((bs.drop 0x20).take 32), setmask := maskOfBytes ((bs.drop 0x40).take 32)
    fslots := wordsOfBytes 8 (bs.drop 0x60), gangid := BitVec.ofNat 64 (fieldAt bs 0x80 8), gangsize := fieldAt bs 0x88 2
    gangrank := fieldAt bs 0x8A 2, gangdl := fieldAt bs 0x8C 4, args := wordsOfBytes 16 (bs.drop 0xC0) }

/-- 0, or aligned and writable through the windows (R39, R87, R116). -/
def Ctx.signalOk (c : Ctx) (va : DWord) : Bool :=
  va == 0 || (va.toNat % 8 == 0 && (translateVA c va 8 .rmw).isSome)

/-- The declared count of a group's role (R27). -/
def roleRegs : List (Nat × Nat) → Nat → Nat
  | [], _ => 0
  | (n, r) :: rs, g => if g < n then r else roleRegs rs (g - n)
def Kernel.regsOf (k : Kernel) (g : Nat) : Nat := roleRegs k.roles g

def Kernel.fits (k : Kernel) (red : Bool) : Bool := decide (k.lanesRegs red ≤ 4096) && decide (k.slots red ≤ 64)

def uncommitted (s : State) (id : DWord) : Bool :=
  s.grids.any fun g => match g.gang with
    | some x => x.id == id && x.state == .uncommitted
    | none => false

/-- No compute stack may host the context's teams (R107). -/
def Ctx.noDies (c : Ctx) : Bool := c.placedom.extractLsb' 0 24 == 0

/-- R39, R109 and Table 2.10 on the record's bytes. -/
def recordOk (s : State) (c : Ctx) (bs : List Byte) : Bool :=
  let r := Record.ofBytes bs
  let fl := fieldAt bs 0x0C 4
  bitsOf fl 12 20 == 0 && bitsOf fl 0 6 == 0 && decide (r.stagger < 65536) &&
  fieldAt bs 0x14 4 == 0 && fieldAt bs 0x90 48 == 0 && c.signalOk r.complsig &&
  (if r.gang then decide (2 ≤ r.gangsize) && decide (r.gangsize ≤ 4096) && decide (r.gangrank < r.gangsize) && decide (1 ≤ r.gangdl)
     && !uncommitted s r.gangid
   else fieldAt bs 0x80 16 == 0) &&
  r.fslots.all slotLegal &&
  (match c.kernel? r.kentry with
   | some k => k.fits c.redundant
   | none => false)

/-! ### Queues: completion of packets -/

def UQueue.markFreed (q : UQueue) (idx : Nat) : UQueue :=
  { q with packets := q.packets.map fun p => if p.idx = idx then { p with freed := true } else p }
def UQueue.dropPacket (q : UQueue) (idx : Nat) : UQueue := { q with packets := q.packets.filter fun p => p.idx != idx }

/-- RDIDX passes every leading freed slot (R90). -/
def UQueue.settle (q : UQueue) : UQueue :=
  { q with rdidx := match q.packets.find? fun p => !p.freed with
      | some p => BitVec.ofNat 32 p.idx
      | none => q.next }

def Ctx.modQueue (c : Ctx) (q : Nat) (f : UQueue → UQueue) : Ctx :=
  { c with queues := c.queues.map fun x => if x.id = q then f x else x }
def Ctx.queue? (c : Ctx) (q : Nat) : Option UQueue := c.queues.find? fun x => x.id == q

def State.modQueue (s : State) (c q : Nat) (f : UQueue → UQueue) : State := s.modCtx c fun x => x.modQueue q f
def State.queue? (s : State) (c q : Nat) : Option UQueue := (s.ctx? c).bind fun x => x.queue? q

/-- Slot bytes of a ring (R85): from index `i`, `n` bytes from offset `off` of its slot, in one slot. -/
def UQueue.addr (q : UQueue) (i off : Nat) : Nat := q.base + (i % 2 ^ q.sizeLog) * 64 + off

/-- A read of the command processor in a ring: what it finds, in the module order (R88, R274, R289), or why its home holds it. -/
def State.ringRead (s : State) (q : UQueue) (i off n : Nat) : State × Except HeldAcc (List Byte) :=
  if q.inHost then (s, .ok ((s.sys 0).read (q.addr i off) n))
  else match s.iaRead1 .io (q.addr i off) n with
    | (s, .data bs _) => (s, .ok bs)
    | (s, .fault x k _ _) => (s, .error { who := .launch, ctx := 0, ia := x, op := .signal, kind := some k })
    | (s, .wait) => (s, .error { who := .launch, ctx := 0, ia := q.addr i off, op := .signal, kind := none })
    | (s, .lost) | (s, .done) => (s, .ok (List.replicate n 0))

/-- Whether the head's header word can be written now. -/
def State.ringOpen (s : State) (q : UQueue) (i : Nat) : Bool :=
  q.inHost || (match (s.iaWrite1 .io (q.addr i 0) (List.replicate 8 0)).2 with
    | .done | .lost => true
    | _ => false)

/-- An access that its home must hold: a fault, reported, or a page that migrates or a line that an engine owes. -/
def State.holdRead (s : State) (h : HeldAcc) : State :=
  match h.kind with
  | some k => s.holdFault h .load k (s.walk h.ia).entry.2 (s.walk h.ia).entry.1
  | none => s.holdBlocked h

/-- The head's header word is cleared, then RDIDX advances (R90). -/
def State.freePacket (s : State) (c q idx : Nat) : State :=
  match s.queue? c q with
  | none => s
  | some x =>
    let zeros := List.replicate 8 0
    let done (s : State) : State := s.modQueue c q fun x => (x.markFreed idx).settle
    if x.inHost then done (s.setSys 0 ((s.sys 0).write (x.addr idx 0) zeros))
    else
      let h : HeldAcc := { who := .ring c q idx, ctx := c, ia := x.addr idx 0, op := .barWrite zeros, kind := none }
      match s.iaWrite1 .io (x.addr idx 0) zeros with
      | (s, .wait) => s.holdBlocked h
      | (s, .fault x k l e) => s.holdFault { h with ia := x } .store k l e
      | (s, _) => done s

/-- The packet has completed and its signal is updated (R93). -/
def State.packetDone (s : State) (c q idx status : Nat) : State :=
  match (s.queue? c q).bind fun x => x.packets.find? fun p => p.idx == idx with
  | none => s
  | some p =>
    let s := s.modQueue c q fun x => (x.dropPacket idx).settle
    let s := s.signal c p.sig status
    { s with work := s.work ++ [.packets c q] }

/-! ### Grids -/

/-- The lowest number that no live grid of the context holds (R120). -/
def State.freeGrid (s : State) (c : Nat) : Nat :=
  (firstFrom (fun n => (s.grid? c n).isNone) 0 (s.grids.length + 1)).getD 0

def Live.reset : Live := { droppedGroups := [], droppedMods := [], epoch := 0, counts := [], colls := 0, peerDrops := [] }

def State.addGrid (s : State) (c : Ctx) (k : Kernel) (r : Record) (who : Issuer) (dies : Word) (child : Option (Option Nat))
    (mailbox : Option Nat) : State :=
  let gang : Option Gang := if r.gang then
      some { id := r.gangid, size := r.gangsize, rank := r.gangrank, deadline := r.gangdl, state := .uncommitted, since := s.cycle
             acks := if r.gangrank = 0 then [0] else [] }
    else none
  let g : Grid :=
    { ctx := c.id, num := s.freeGrid c.id, kernel := k, record := r, who, child, dies, nextTeam := 0, retired := 0
      since := s.cycle, lastStart := [], gang, mdef := c.mdef, live := List.replicate 4 Live.reset, insts := [], nextKey := 0
      ended := none, mailbox }
  let s := { s with grids := s.grids ++ [g] }
  if r.gang ∧ r.gangrank ≠ 0 then { s with messages := s.messages ++ [.gangAck r.gangid r.gangrank r.gangsize c.mdef] } else s

/-- The entry of R124 for the thread that issued, with its core; none for a queue's launch, or once the context's destruction has begun (R428). -/
def State.refEntry (s : State) (who : Issuer) (ctx kind status : Nat) (data : DWord) : List (Nat × EvEntry) :=
  match who with
  | .thread core tslot group lane _ =>
    if (s.ctx? ctx).any fun c => !c.dying then [(core, { ctx, kind, status, tag := 0, data, tslot, group, lane })] else []
  | .queue _ _ => []

/-- A launch refused at its record read: the signal, where it was not itself refused, then the entry (R39, R94, R124). -/
def State.refuse (s : State) (c : Ctx) (w : WaitLaunch) (bs : List Byte) (status : Nat) : State :=
  let sig := (Record.ofBytes bs).complsig
  let sig := if c.signalOk sig then sig else 0
  match w.who with
  | .queue q idx =>
    let s := s.modQueue c.id q fun x => { x with packets := x.packets.map fun p => if p.idx = idx then { p with sig := sig } else p }
    (s.freePacket c.id q idx).packetDone c.id q idx status
  | .thread _ _ _ _ va => s.signal c.id sig status (s.refEntry w.who c.id kindLaunchref status va)

/-- The record, once read, is checked and its grid joins the eligible work (R41, R96). -/
def State.launchRead (s : State) (c : Ctx) (w : WaitLaunch) (bs : List Byte) : State :=
  if w.noDies || !recordOk s c bs then s.refuse c w bs stLaunchFormat
  else
    let r := Record.ofBytes bs
    match c.kernel? r.kentry with
    | none => s.refuse c w bs stLaunchFormat
    | some k =>
      if k.redreq && !c.redundant then s.refuse c w bs stModeMismatch
      else
        let dies : Word := match w.loc with
          | some d => BitVec.ofNat 32 (2 ^ d)
          | none => 0xFFFFFF
        let s := s.addGrid c k r w.who dies none none
        match w.who with
        | .queue q idx =>
          (s.modQueue c.id q fun x => { x with packets := x.packets.map fun p => if p.idx = idx then { p with sig := r.complsig } else p }).freePacket
            c.id q idx
        | .thread _ _ _ _ _ => s

/-- What a record read at a virtual address finds. -/
inductive RecRead where
  | bytes (bs : List Byte)
  | miss
  | fault (ia : Nat) (k : FaultKind) (level : Nat) (e : DWord)
  | wait (ia : Nat)
  | bad
deriving DecidableEq, Repr

/-- 256 bytes of one record, line by line; its lines lie in one page. -/
def State.readRecord (s : State) (c : Ctx) (va : DWord) : State × RecRead :=
  match translateVA c va 256 .read with
  | none => (s, .miss)
  | some (ia, peer) =>
    let here : State × RecRead := match s.iaReadLines .events ia 4 with
      | (s, .data bs bad) => (s, if bad then .bad else .bytes bs)
      | (s, .fault x k l e) => (s, .fault x k l e)
      | (s, .wait) => (s, .wait ia)
      | (s, .lost) | (s, .done) => (s, .bad)
    match peer with
    | none => here
    | some m =>
      if m = s.modid then here
      else if s.peerDead m then (s, .bad)
      else
        let (s, ok) := s.recallAll 0 (.ia (some m)) (seqFrom (ia / 64) 4)
        (s, if ok then .bytes ((s.peer m).mem.read ia 256) else .wait ia)

/-- The bytes of a queue's LAUNCH record, from the slots after its head (Table 5.2). -/
def State.packetRecord (s : State) (q : UQueue) (idx : Nat) : State × Except HeldAcc (List Byte) :=
  (seqFrom 1 4).foldl (fun r k => match r with
    | (s, .ok bs) => match s.ringRead q (idx + k) 0 64 with
      | (s, .ok b) => (s, .ok (bs ++ b))
      | r => r
    | r => r) (s, .ok [])

/-- The read of R41 of a launch that has become eligible. -/
def State.launchEligible (s : State) (c : Ctx) (w : WaitLaunch) : State :=
  match w.who with
  | .queue q idx =>
    match c.queue? q with
    | some x => match s.packetRecord x idx with
      | (s, .ok bs) => s.launchRead c w bs
      | (s, .error h) => s.holdRead { h with ctx := c.id, op := .record w }
    | none => s
  | .thread _ _ _ _ _ =>
    match s.readRecord c w.va with
    | (s, .bytes bs) => s.launchRead c w bs
    | (s, .fault ia k l e) => s.holdFault { who := .launch, ctx := c.id, ia, op := .record w, kind := none } .load k l e
    | (s, .wait ia) => s.holdBlocked { who := .launch, ctx := c.id, ia, op := .record w, kind := none }
    | (s, .miss) | (s, .bad) => s.refuse c w w.body stRecordFault

/-! ### The event unit (R95) -/

/-- Launches that the vector now admits, in submission order (R96). -/
def State.admitLaunches (s : State) (c : Nat) : State :=
  match s.ctx? c with
  | none => s
  | some x =>
    let ws := x.waiting.filter fun w => w.waitmask &&& ~~~x.events == 0
    let s := s.modCtx c fun x => { x with waiting := x.waiting.filter fun w => w.waitmask &&& ~~~x.events != 0 }
    ws.foldl (fun s w => match s.ctx? c with
      | some x => s.launchEligible x w
      | none => s) s

/-- Records whose EVWAIT test now succeeds (R104). -/
def State.wakeEvents (s : State) (c : Nat) : State :=
  match s.ctx? c with
  | none => s
  | some x =>
    let woke := (s.threads.filter fun th => s.ctxOf th.id == c && th.awaits &&
      (match th.wait with
       | .event m => m &&& ~~~x.events == 0
       | _ => false)).map (·.id)
    (sortLanes woke).foldl (fun s t => (s.wake t).pushCompl t [] none none) s

/-- An operation that sets bits, with the tests that follow it. -/
def State.evSet (s : State) (c : Nat) (m : EvMask) : State :=
  if m = 0 then s
  else
    let s := s.modCtx c fun x => { x with events := x.events ||| m }
    let s := (s.wakeEvents c).admitLaunches c
    { s with work := s.work ++ (match s.ctx? c with
        | some x => (x.queues.filter fun q => q.state == .hold).map fun q => Work.packets c q.id
        | none => []) }

def State.evClr (s : State) (c : Nat) (m : EvMask) : State := s.modCtx c fun x => { x with events := x.events &&& ~~~m }

def State.evTest (s : State) (c : Nat) (m : EvMask) : Bool :=
  match s.ctx? c with
  | some x => m &&& ~~~x.events == 0
  | none => false

/-! ### Submission by a thread (R99) -/

/-- The thread that issued on a core, with the place that its entries name (R124). -/
def State.issuerAt (s : State) (core : Nat) (th : Thread) (va : DWord) : Issuer :=
  .thread core (s.tslot { th with core }) (Tid.group th.id) th.lane va
def State.issuer (s : State) (th : Thread) (va : DWord) : Issuer := s.issuerAt th.core th va

/-- Room under R97. -/
def State.launchRoom (s : State) (c : Nat) : Bool :=
  match s.ctx? c with
  | some x => decide (x.waiting.length < 4096)
  | none => false

/-- Submits a record: eligible at once (status 0), or waiting (status 1). -/
def State.submit (s : State) (th : Thread) (va : DWord) (bs : List Byte) (loc : Bool) : State × Nat :=
  match s.ctx? (s.ctxOf th.id) with
  | none => (s, 0)
  | some c =>
    let r := Record.ofBytes bs
    let w : WaitLaunch :=
      { who := s.issuer th va, va, body := bs, waitmask := r.waitmask, loc := if loc then some (s.dieOf th.core) else none
        noDies := c.noDies }
    if r.waitmask &&& ~~~c.events = 0 then (s.launchRead c w bs, 0)
    else (s.modCtx c.id fun c => { c with waiting := c.waiting ++ [w] }, 1)

/-! ### Task packets (R114 to R117) -/

/-- Mailbox entries of a die: task packets and team restores, and references to forwarded records, which have 256 entries of their own (R114, R403). -/
def State.mailTasks (s : State) (d : Nat) : Nat :=
  (s.grids.filter fun g => g.mailbox == some d).length + ((s.die d).mailbox.filter fun m => match m with
    | .restore _ _ _ _ => true
    | .records _ _ _ => false).length
def State.mailRecs (s : State) (d : Nat) : Nat :=
  ((s.die d).mailbox.filter fun m => match m with
    | .records _ _ _ => true
    | .restore _ _ _ _ => false).length
def State.taskRoom (s : State) (d : Nat) : Bool := decide (s.mailTasks d + (s.mailRecs d - 256) < 1792)
def State.recordRoom (s : State) (d : Nat) : Bool :=
  decide (s.mailRecs d < 256) || decide (s.mailTasks d + (s.mailRecs d - 256) < 1792)

/-- R116's conditions beside REDREQ. -/
def taskOk (c : Ctx) (bs : List Byte) : Bool :=
  let fl := fieldAt bs 0x0C 4
  fieldAt bs 0 8 % 64 == 0 && decide (fieldAt bs 8 4 < 65536) && bitsOf fl 16 16 == 0 && bitsOf fl 12 3 == 0 &&
  (fl.testBit 15 || bitsOf fl 0 8 == 0) && fieldAt bs 0x18 8 == 0 && c.signalOk (BitVec.ofNat 64 (fieldAt bs 0x10 8)) &&
  (match c.kernel? (BitVec.ofNat 64 (fieldAt bs 0 8)) with
   | some k => k.fits c.redundant
   | none => false)

/-- A packet enters a mailbox with room: the status D receives (R119), and the entry that follows its write (R124). -/
def State.sendTask (s : State) (core : Nat) (th : Thread) (bs : List Byte) (die : Nat) : State × Nat × List (Nat × EvEntry) :=
  match s.ctx? (s.ctxOf th.id) with
  | none => (s, 3, [])
  | some c =>
    let ke := BitVec.ofNat 64 (fieldAt bs 0 8)
    let who := s.issuerAt core th ke
    match c.kernel? ke with
    | none => (s, 3, s.refEntry who c.id kindTaskref 3 ke)
    | some k =>
      if !taskOk c bs then (s, 3, s.refEntry who c.id kindTaskref 3 ke)
      else if k.redreq && !c.redundant then (s, 5, s.refEntry who c.id kindTaskref 5 ke)
      else
        let fl := fieldAt bs 0x0C 4
        let r : Record :=
          { kentry := ke, nteams := fieldAt bs 8 4, prio := bitsOf fl 8 4, gang := false, setonerr := false, stagger := 0
            complsig := BitVec.ofNat 64 (fieldAt bs 0x10 8), waitmask := 0, setmask := 0
            fslots := match s.gridOf th.id with
              | some g => g.record.fslots
              | none => List.replicate 8 0
            gangid := 0, gangsize := 0, gangrank := 0, gangdl := 0
            args := wordsOfBytes 8 (bs.drop 0x20) ++ List.replicate 8 0 }
        (s.addGrid c k r who (BitVec.ofNat 32 (2 ^ die)) (some (if fl.testBit 15 then some (bitsOf fl 0 8) else none)) (some die), 0, [])

/-! ### Retirement (R94, R117) -/

/-- Whether every access of a grid has been performed: no side-log entry, no request outside or held, no command, whatever core issued it (R94 step 1, R300). -/
def State.gridQuiet (s : State) (c g : Nat) : Bool :=
  let mine (t : Tid) : Bool := match t with
    | .thr c' g' _ _ _ => c' == c && g' == g
    | .scalar _ => false
  s.cores.all (fun k => !(k.sidelog.any fun e => mine e.t) && !(k.slots.any fun q => q.ctx == c && q.grid == g && (q.team.isSome || mine q.who))) &&
  !(s.out.any fun o => mine o.t) &&
  !(s.held.any fun h => match h.who with
    | .thread t | .region t _ => mine t
    | _ => false)

/-- Steps 2 and 3 of R94, and the child's part of R117; a partition action that ended the grid is over (R396). -/
def State.retireGrid (s : State) (gr : Grid) : State :=
  let status := if (gr.gang.any fun x => x.state == .aborted) then stGangAbort else gr.ended.getD stOk
  let s := { s with
    grids := s.grids.filter fun x => !(x.ctx == gr.ctx && x.num == gr.num)
    parts := s.parts.filter fun x => !(x.ctx == gr.ctx && x.grid == gr.num) }
  let s := match gr.child with
    | some ev =>
      let s := match ev with
        | some b => if status = stOk then s.evSet gr.ctx (BitVec.ofNat 256 (2 ^ b)) else s
        | none => s
      s.signal gr.ctx gr.record.complsig status (if status = stOk then [] else s.refEntry gr.who gr.ctx kindChild status gr.kernel.entry)
    | none =>
      let s := if status = stOk ∨ gr.record.setonerr then s.evSet gr.ctx gr.record.setmask else s
      match gr.who with
      | .queue q idx => s.packetDone gr.ctx q idx status
      | .thread _ _ _ _ _ => s.signal gr.ctx gr.record.complsig status
  s

/-- A grid whose teams have all retired, or that was ended, and whose accesses are done; a gang only once its outcome is known (Table 5.9). -/
def State.gridDone (s : State) (gr : Grid) : Bool :=
  (decide (gr.retired = gr.record.nteams + 1) || gr.ended.isSome) && s.gridQuiet gr.ctx gr.num &&
  !(s.teams.any fun tm => tm.ctx == gr.ctx && tm.grid == gr.num) &&
  (match gr.gang with
   | some x => x.state != .uncommitted
   | none => true)

end Sys2Proof.Machine
end

