-- ==== Sys2Proof/Machine/Replay.lean ====
section
/-! DEFINITION. Replaying what a home holds (R273, R274). -/

namespace Sys2Proof.Machine

open Sys2Proof

/-! ### Accesses from outside the module (R291, R437, R441) -/

/-- The answer that leaves the module: a read's data to the host; data or an acknowledgement to a peer. -/
def State.answer (s : State) (who : HeldWho) (ia : Nat) (op : HeldOp) (data : List Byte) : State :=
  match who, op with
  | .bar fn, .barRead _ => { s with messages := s.messages ++ [.readDone fn 2 (ia % 2 ^ 36) data] }
  | .fabric src seq _, _ => { s with messages := s.messages ++ [.fabricReply src seq data] }
  | _, _ => s

/-- The answer to an access that cannot be made, or whose data fail verification: no data to the host, an error to a peer (R278, R437). -/
def State.answerBad (s : State) (who : HeldWho) (ia : Nat) (op : HeldOp) : State :=
  match who with
  | .fabric src seq _ => { s with messages := s.messages ++ [.fabricBad src seq] }
  | _ => s.answer who ia op (List.replicate op.bytes 0)

/-- The agent in whose name an access from outside is made (R284, R293). -/
def HeldWho.agent : HeldWho → Agent
  | .fabric _ _ _ => .fabric
  | _ => .io

def HeldWho.hops : HeldWho → Nat
  | .fabric _ _ n => n
  | _ => 0

/-- What an access from outside does at the end of its way. -/
def State.outsideMet (s : State) (who : HeldWho) (ia : Nat) (op : HeldOp) : State × Met :=
  match op with
  | .barWrite data => s.iaModHop who.agent who.hops ia data.length (fun _ => data) false
  | .atomic o n b c => s.iaModHop who.agent who.hops ia n (fun bs => bytesOfNat n (atomNew o n (natOfBytes bs) b c)) true
  | op => s.iaReadHop who.agent who.hops ia op.bytes

/-- The 24 bytes of a fault record (Table 13.10). -/
def faultBytes (ia : Nat) (k : FaultKind) (acc : AccKind) (level : Nat) (e : DWord) : List Byte :=
  bytesOfNat 8 (ia / 64 * 64) ++
  bytesOfNat 1 (match k with | .notPresent => 0 | .writeProtect => 1 | .badEntry => 2 | .badFrame => 3) ++
  bytesOfNat 1 (match acc with | .load => 0 | .store => 1 | .atomic => 2 | .fetch => 3 | .engineRead => 4 | .engineWrite => 5) ++
  bytesOfNat 2 level ++ bytesOfNat 4 0 ++ bytesOfNat 8 e.toNat

def HeldOp.outsideKind : HeldOp → AccKind
  | .atomic _ _ _ _ => .atomic
  | .barWrite _ => .store
  | _ => .load

/-- One access of the host or of a peer: performed at once, or held at its home; a peer's fault is reported to its own context's module (R271); a host access that cannot be translated ends at once (R437). -/
def State.outside (s : State) (who : HeldWho) (ia : Nat) (op : HeldOp) : State :=
  let h : HeldAcc := { who, ctx := 0, ia, op, kind := none }
  match s.outsideMet who ia op with
  | (s, .wait) => s.holdBlocked h
  | (s, .fault x k l e) => match who with
    | .fabric src seq _ =>
      let told := s.reported.contains (x / 4096, k) && s.holdsFault (x / 4096)
      let s : State := { s with held := s.held ++ [{ h with ia := x, kind := some k }], reported := if told then s.reported else (x / 4096, k) :: s.reported }
      if told then s else { s with messages := s.messages ++ [.fabricFault src seq (faultBytes x k op.outsideKind l e)] }
    | _ => s.answerBad who ia op
  | (s, .lost) => s.answerBad who ia op
  | (s, .data bs bad) => if bad then s.answerBad who ia op else s.answer who ia op bs
  | (s, .done) => s.answer who ia op []

/-- What a peer's group load reads of a member team here (R368, R369): `none` when there is no member team or its run is too short. -/
def State.memberWords (s : State) (c g core off n : Nat) : Option (List Byte × Bool) :=
  match s.memberTeam c g core, s.grid? c g with
  | some tm, some gr => if off + n ≤ gr.kernel.scratch then some (s.scrRead core (tm.scr + off) n) else none
  | _, _ => none

/-- A peer's read of a member team's scratchpad, after what the engines owe there (R289); it waits while that cannot be written. -/
def State.memberAsk (s : State) (who : HeldWho) (c g core off n : Nat) : State :=
  let op : HeldOp := .member c g core off n
  let scr := ((s.memberTeam c g core).map (·.scr)).getD 0
  let (r, ok) := s.recallAll core .scr (linesMet (scr + off) n)
  if !ok then r.holdBlocked { who, ctx := c, ia := 0, op, kind := none }
  else match r.memberWords c g core off n with
    | some (_, true) => r.answerBad who 0 op
    | some (bs, false) => r.answer who 0 op bs
    | none => r.answer who 0 op []

/-! ### Trying again -/

def State.redo (s : State) (h : HeldAcc) : State :=
  match h.who with
  | .thread t =>
    match h.op with
    | .fetch va =>
      match s.routeAll h.ia false with
      | .fault k l e => s.holdFault { h with op := .fetch va } .fetch k l e
      | .blocked => s.holdBlocked h
      | _ => s.pushCompl t [] none none
    | .write e => s.pushOut t (.mem h.ia) (.write e)
    | op => s.request t h.ia none op
  | .side _ => s
  | .engine core slot =>
    match s.command? core slot with
    | none => s
    | some c =>
      let w := match h.op with
        | .engine w => w
        | _ => false
      match s.routeAll h.ia w with
      | .fault k l e => s.holdFault h (if w then .engineWrite else .engineRead) k l e
      | .blocked => s.holdBlocked h
      | _ => s.modCommand core c.slot fun c => { c with st := .running }
  | .signal ctx status => (s.signalAt ctx h.ia none status h.after).1
  | .bar _ | .fabric _ _ _ =>
    match h.op with
    | .hostWrite _ _ _ | .hostRead _ _ _ => { s with held := s.held ++ [h] }
    | .member c g core off n => s.memberAsk h.who c g core off n
    | op => s.outside h.who h.ia op
  | .ring c q idx => s.freePacket c q idx
  | .region _ _ => { s with held := s.held ++ [h] }
  | .launch =>
    match h.op, s.ctx? h.ctx with
    | .record w, some c => s.launchEligible c w
    | _, _ => s

/-- Re-performs, in order, the held accesses that satisfy `p`. -/
def State.replay (s : State) (p : HeldAcc → Bool) : State :=
  let hs := s.held.filter p
  hs.foldl State.redo { s with held := s.held.filter fun h => !p h }

/-- Accesses that waited for an engine or a migration are tried again. -/
def State.replayWaiting (s : State) : State :=
  if s.held.any fun h => h.kind.isNone then s.replay fun h => h.kind.isNone else s

end Sys2Proof.Machine
end

