-- ==== Sys2Proof/Machine/Collect.lean ====
section
/-! DEFINITION. Memberships, core groups and collective instances (R365, R366, R373 to R378): who belongs, arrivals, group contributions. -/

namespace Sys2Proof

/-- The membership of a kind of instance; GBAR has a core group instead. -/
def CollKind.member : CollKind → Option Nat
  | .any m | .all m | .csync m => some m
  | .gbar _ => none
def CollKind.index : CollKind → Nat
  | .any m | .all m | .csync m | .gbar m => m

end Sys2Proof

namespace Sys2Proof.Machine

open Sys2Proof

/-! ### Members (R366, R374) -/

def Grid.defOf (gr : Grid) (k : Nat) : DWord := getAt 0 gr.mdef k
def Grid.liveOf (gr : Grid) (k : Nat) : Live := getAt Live.reset gr.live k
def Grid.setLive (gr : Grid) (k : Nat) (f : Live → Live) : Grid := { gr with live := setAt gr.live k (f (gr.liveOf k)) }

/-- Group g belongs to membership k (R374). -/
def Grid.memberGroup (gr : Grid) (k g : Nat) : Bool :=
  (gr.defOf k).getLsbD 63 && decide (g < 32) && (gr.defOf k).getLsbD g && decide (g < gr.kernel.groups)

/-- The member groups' numbers. -/
def Grid.memberGroups (gr : Grid) (k : Nat) : List Nat := (seqFrom 0 32).filter (gr.memberGroup k)

/-- Whether a membership's modules are those of the gang. -/
def Grid.gangWide (gr : Grid) (k : Nat) : Bool := gr.gang.isSome && (gr.defOf k).getLsbD 62

/-- This module's rank. -/
def Grid.rank (gr : Grid) (k : Nat) : Nat :=
  match gr.gang with
  | some g => if gr.gangWide k then g.rank else 0
  | none => 0
def Grid.moduleCount (gr : Grid) (k : Nat) : Nat :=
  match gr.gang with
  | some g => if gr.gangWide k then g.size else 1
  | none => 1

/-- Dropped from membership k (R376). -/
def Grid.modDropped (gr : Grid) (k : Nat) : Bool := (gr.liveOf k).droppedMods.contains (gr.rank k)
def Grid.groupDropped (gr : Grid) (k t g : Nat) : Bool := (gr.liveOf k).droppedGroups.contains (t, g)
def Grid.excluded (gr : Grid) (k t g : Nat) : Bool := gr.modDropped k || gr.groupDropped k t g

/-- The count that stands for all of a module's groups. -/
def allGroups : Nat := 2 ^ 32
/-- Groups of another member module that have been dropped. -/
def Live.dropsOf (l : Live) (r : Nat) : Nat := (l.peerDrops.filter fun x => x.1 == r).foldl (fun n x => n + x.2) 0

/-- Remote ranks with live member groups. -/
def Grid.remoteRanks (gr : Grid) (k : Nat) : List Nat :=
  (seqFrom 0 (gr.moduleCount k)).filter fun r =>
    r != gr.rank k && !(gr.liveOf k).droppedMods.contains r && decide ((gr.liveOf k).dropsOf r < allGroups)

def Live.count (l : Live) (t g : Nat) : Nat :=
  match l.counts.find? fun c => c.1 == t && c.2.1 == g with
  | some (_, _, n) => n
  | none => 0
def Live.bump (l : Live) (t g : Nat) : Live :=
  { l with counts := (t, g, l.count t g + 1) :: l.counts.filter fun c => !(c.1 == t && c.2.1 == g) }

/-- The entries of a core group of a context. -/
def Ctx.cgOk (c : Ctx) (k : Nat) : Bool := (getAt 0 c.cgdef k).getLsbD 63
def Ctx.cgTable (c : Ctx) (k : Nat) : List Word := getAt [] c.cgtab k

/-- Whether a team is a member team of a core group (R366, R377). -/
def State.memberOf (s : State) (tm : Team) (table : List Word) : Bool :=
  table.any fun e => rankP e && rankMod e == s.modid && decide (rankCore e < s.ncore) && rankCore e == tm.core &&
    (match s.memberTeam tm.ctx tm.grid tm.core with
     | some x => x.num == tm.num
     | none => false)

/-! ### Instances (R375, R378) -/

def Inst.has (i : Inst) (t g l : Nat) : Bool := i.arrived.any fun a => a.team == t && a.group == g && a.lane == l

/-- The number of the instance that a lane arrives at next on a membership. -/
def Grid.nextNum (gr : Grid) (m t g l : Nat) : Nat :=
  let base := (gr.liveOf m).count t g
  (firstFrom (fun n => !(gr.insts.any fun i => i.kind.member == some m && i.num == n && i.has t g l)) base (gr.insts.length + 1)).getD base

/-- The open instance that a lane arrives at, if some lane opened it. -/
def Grid.instFor (gr : Grid) (kind : CollKind) (t g l : Nat) : Option Inst :=
  match kind.member with
  | some m => gr.insts.find? fun i => i.kind.member == some m && i.num == gr.nextNum m t g l
  | none => gr.insts.find? fun i => i.kind == kind && (i.ranks.any fun r => decide (r.2.1 < 8192) && r.2.2 == some t) && !i.has t g l

/-- The ranks of a GBAR, with the member teams fixed at its first arrival; a rank beyond its module's NCORE is absent, and one on a module outside the grid's gang, or without a route, cannot arrive (R366). A peer's member team is the resident one that it shows. -/
def State.fixRanks (s : State) (gr : Grid) (cg : Nat) : List (Nat × Nat × Option Nat) :=
  let table := match s.ctx? gr.ctx with
    | some c => c.cgTable cg
    | none => []
  (table.zip (seqFrom 0 table.length)).filterMap fun (e, r) =>
    if !rankP e then none
    else if rankMod e = s.modid then
      (if s.ncore ≤ rankCore e then none
       else some (r, rankCore e, (s.memberTeam gr.ctx gr.num (rankCore e)).map (·.num)))
    else
      let p := s.peer (rankMod e)
      if peerNcore p ≤ rankCore e then none
      else some (r, 8192 * (rankMod e + 1) + rankCore e,
        if (gr.gang.any fun x => peerMember p x.id) ∧ s.peerDead p.id = false then (peerScratch p (rankCore e)).map fun _ => 0 else none)

/-- Adds an arrival to its instance; answers the instance's key. -/
def State.arriveAt (s : State) (c g : Nat) (kind : CollKind) (a : Arrived) : State × Nat :=
  match s.grid? c g with
  | none => (s, 0)
  | some gr =>
    match gr.instFor kind a.team a.group a.lane with
    | some i =>
      (s.modGrid c g fun gr => { gr with insts := gr.insts.map fun x =>
          if x.key = i.key then { x with arrived := x.arrived ++ [a], mismatch := x.mismatch || x.kind != kind } else x }, i.key)
    | none =>
      let num := match kind.member with
        | some m => gr.nextNum m a.team a.group a.lane
        | none => 0
      let ranks := match kind with
        | .gbar cg => s.fixRanks gr cg
        | _ => []
      let i : Inst := { key := gr.nextKey, kind, num, mismatch := false, arrived := [a], contributed := [], ranks, since := none, remote := [] }
      (s.modGrid c g fun gr => { gr with insts := gr.insts ++ [i], nextKey := gr.nextKey + 1 }, i.key)

/-- Another module's contribution joins its instance, which it may open (R375, R378): the timeout runs from the first contribution received (R376). -/
def State.remoteArrives (s : State) (c g num rank : Nat) (kind : CollKind) (value : Bool) : State :=
  match s.grid? c g with
  | none => s
  | some gr =>
    let mine (i : Inst) : Bool := match kind.member with
      | some m => i.kind.member == some m && i.num == num
      | none => i.kind == kind && !(i.remote.any fun x => x.1 == rank)
    let live := match kind.member with
      | some m => (gr.remoteRanks m).contains rank
      | none => true
    if live = false then s
    else if gr.insts.any mine = true then
      let join (i : Inst) : Inst := if mine i && !(i.remote.any fun x => x.1 == rank) then
          { i with remote := i.remote ++ [(rank, kind, value)], mismatch := i.mismatch || i.kind != kind, since := some (i.since.getD s.cycle) }
        else i
      s.modGrid c g fun gr => { gr with insts := gr.insts.map join }
    else
      let ranks := match kind with
        | .gbar cg => s.fixRanks gr cg
        | _ => []
      let i : Inst := { key := gr.nextKey, kind, num, mismatch := false, arrived := [], contributed := [], ranks, since := some s.cycle
                        remote := [(rank, kind, value)] }
      s.modGrid c g fun gr => { gr with insts := gr.insts ++ [i], nextKey := gr.nextKey + 1 }

/-- Drops decided at another module's root reach this one (R376): EPOCH rises, and modules and groups are no longer live. -/
def State.takeDrops (s : State) (c g m : Nat) (mods : List Nat) (own : List (Nat × Nat)) (peers : List (Nat × Nat)) : State :=
  s.modGrid c g fun gr => gr.setLive m fun l =>
    { l with droppedMods := l.droppedMods ++ mods.filter fun r => !l.droppedMods.contains r
             droppedGroups := l.droppedGroups ++ own.filter fun q => !l.droppedGroups.contains q
             peerDrops := l.peerDrops ++ peers
             epoch := l.epoch + 1 }

/-- Whether a lane may arrive at a collective at all. -/
def State.mayArrive (s : State) (t : Tid) (kind : CollKind) : Bool :=
  match t with
  | .thr c g k grp _ =>
    match s.grid? c g, s.team? c g k, s.ctx? c with
    | some gr, some tm, some x =>
      (match kind.member with
       | some m => gr.memberGroup m grp && !gr.excluded m k grp
       | none => x.cgOk kind.index && s.memberOf tm (x.cgTable kind.index))
    | _, _, _ => false
  | .scalar _ => false

/-- The arrival of a lane whose guard is false: the identity, and it goes on (R378). -/
def State.arriveFalse (s : State) (t : Tid) (kind : CollKind) (at_ : DWord) : State :=
  match t with
  | .thr c g k grp l =>
    if s.mayArrive t kind then
      (s.arriveAt c g kind { team := k, group := grp, lane := l, value := false, guard := false, target := 0, succ := 0, at_ }).1
    else s
  | .scalar _ => s

/-! ### Contributions (R378) -/

/-- Every access that a thread has made has been performed. -/
def State.quiet (s : State) (t : Tid) : Bool := !s.logging t && !(s.out.any fun o => o.t == t)

/-- Every live lane of a group has arrived, and their accesses are done. -/
def State.groupArrived (s : State) (i : Inst) (tm : Team) (g : Nat) : Bool :=
  let live := (tm.group g).live
  (lanesOf live).all (fun l => i.has tm.num g l) &&
  (i.arrived.filter fun a => a.team == tm.num && a.group == g).all fun a => s.quiet (.thr tm.ctx tm.grid tm.num g a.lane)

/-- A group whose threads have all exited has departed (R374). -/
def Team.departed (tm : Team) (g : Nat) : Bool := (tm.group g).live == 0

def State.gridTeams (s : State) (gr : Grid) : List Team := s.teams.filter fun tm => tm.ctx == gr.ctx && tm.grid == gr.num

/-- Groups that contribute to an instance now. -/
def State.contributors (s : State) (gr : Grid) (i : Inst) : List (Nat × Nat) :=
  match i.kind.member with
  | some m => (s.gridTeams gr).flatMap fun tm => ((gr.memberGroups m).filter fun g =>
      !i.contributed.contains (tm.num, g) && !gr.excluded m tm.num g && !tm.departed g && (gr.liveOf m).count tm.num g == i.num &&
      (i.arrived.any fun a => a.team == tm.num && a.group == g) && s.groupArrived i tm g).map fun g => (tm.num, g)
  | none => (s.gridTeams gr).filterMap fun tm =>
      if i.ranks.any (fun r => decide (r.2.1 < 8192) && r.2.2 == some tm.num) && !i.contributed.contains (tm.num, 0) &&
        ((seqFrom 0 gr.kernel.groups).all fun g => tm.departed g || s.groupArrived i tm g) then some (tm.num, 0) else none

/-- A rank without a team takes the first team that starts on its core (R378). -/
def State.refixRanks (s : State) (gr : Grid) (i : Inst) : Inst :=
  { i with ranks := i.ranks.map fun r =>
      if r.2.2 = none ∧ r.2.1 < 8192 then (r.1, r.2.1, (s.memberTeam gr.ctx gr.num r.2.1).map (·.num)) else r }

/-- The value that a group's arrivals make (R378). -/
def Inst.groupValue (i : Inst) (t g : Nat) : Bool :=
  let mine := (i.arrived.filter fun a => a.team == t && a.group == g && a.guard).map (·.value)
  match i.kind with
  | .any _ => mine.any id
  | .all _ => mine.all id
  | _ => false

/-- The contribution that the group's shadow threads make (R383). -/
def Inst.groupTwin (i : Inst) (t g : Nat) : Bool :=
  let mine := (i.arrived.filter fun a => a.team == t && a.group == g && a.guard).map (·.twin)
  match i.kind with
  | .any _ => mine.any id
  | .all _ => mine.all id
  | _ => false

/-- A contribution that an EXIT completes and that the shadow's differs from: SHADOW_MISMATCH waits for every arrived thread of the group. DESIGN CHOICE: no instruction of theirs is at hand then (log 50). -/
def State.twinDiffers (s : State) (c g : Nat) (i : Inst) (q : Nat × Nat) : State :=
  if i.groupValue q.1 q.2 == i.groupTwin q.1 q.2 then s
  else (i.arrived.filter fun a => a.team == q.1 && a.group == q.2 && a.guard).foldl (fun s a =>
    s.modThread (.thr c g a.team a.group a.lane) fun th =>
      if th.loc = .resident then { th with next := some (th.next.getD (.shadowMismatch, 0)) }
      else { th with tpend := some (th.tpend.getD (.shadowMismatch, 0)) }) s

/-- The outcome of the contributions made here and those of other modules. -/
def Inst.outcome (i : Inst) (remote : List Bool) : Bool :=
  let vs := (i.contributed.map fun q => i.groupValue q.1 q.2) ++ remote
  match i.kind with
  | .any _ => vs.any id
  | .all _ => vs.all id
  | _ => false

/-- One sweep over an instance: the contributions that are complete are sent. -/
def State.contributeInst (s : State) (c g key : Nat) : State :=
  match s.grid? c g with
  | none => s
  | some gr =>
    match gr.insts.find? fun i => i.key == key with
    | none => s
    | some i =>
      let i := s.refixRanks gr i
      let cs := s.contributors gr i
      let i' := { i with contributed := i.contributed ++ cs, since := if cs.isEmpty then i.since else some (i.since.getD s.cycle) }
      let s := s.modGrid c g fun gr =>
        let gr := { gr with insts := gr.insts.map fun x => if x.key = key then i' else x }
        match i.kind.member with
        | some m => cs.foldl (fun gr q => gr.setLive m fun l => l.bump q.1 q.2) gr
        | none => gr
      let wide := match i.kind.member with
        | some m => gr.gangWide m
        | none => i.ranks.any fun r => decide (8192 ≤ r.2.1)
      let s := cs.foldl (fun s q => s.twinDiffers c g i' q) s
      if wide && !cs.isEmpty then
        { s with messages := s.messages ++ cs.map fun q => HostMsg.contribution c g i.kind i.num (i'.groupValue q.1 q.2) }
      else s

/-- Contributions of every open instance of every grid. -/
def State.contribute (s : State) : State :=
  s.grids.foldl (fun s gr => gr.insts.foldl (fun s i => s.contributeInst gr.ctx gr.num i.key) s) s

/-! ### What an instance still lacks -/

/-- Member groups of this module that have not contributed: of started teams, and whether teams are still to start. -/
def State.missingGroups (s : State) (gr : Grid) (i : Inst) (m : Nat) : List (Nat × Nat) :=
  (s.gridTeams gr).flatMap fun tm => ((gr.memberGroups m).filter fun g =>
    !i.contributed.contains (tm.num, g) && !gr.excluded m tm.num g && !tm.departed g).map fun g => (tm.num, g)
def Grid.unstarted (gr : Grid) (m : Nat) : List (Nat × Nat) :=
  if gr.modDropped m then []
  else (seqFrom gr.nextTeam (gr.record.nteams + 1 - gr.nextTeam)).flatMap fun t =>
    ((gr.memberGroups m).filter fun g => !gr.groupDropped m t g).map fun g => (t, g)

/-- Ranks of a GBAR on this module that have not contributed (R378). -/
def State.missingRanks (s : State) (gr : Grid) (i : Inst) : List Nat :=
  i.ranks.filterMap fun (r, core, tm) =>
    if 8192 ≤ core then none
    else match tm with
      | none => some r
      | some t => match s.team? gr.ctx gr.num t with
        | none => none
        | some x =>
          if i.contributed.contains (t, 0) || (seqFrom 0 gr.kernel.groups).all x.departed then none else some r

/-- Ranks of other modules whose contributions are still to come. -/
def Inst.awaiting (i : Inst) (rs : List Nat) : List Nat := rs.filter fun r => !(i.remote.any fun x => x.1 == r)

/-- Ranks of other modules that must answer. -/
def Grid.awaited (gr : Grid) (i : Inst) : List Nat :=
  match i.kind.member with
  | some m => gr.remoteRanks m
  | none => (i.ranks.filter fun r => decide (8192 ≤ r.2.1)).map (·.1)

/-- Nothing of this module is missing. -/
def State.localDone (s : State) (gr : Grid) (i : Inst) : Bool :=
  match i.kind.member with
  | some m => (s.missingGroups gr i m).isEmpty && (gr.unstarted m).isEmpty
  | none => (s.missingRanks gr i).isEmpty

/-- A gang that is not committed completes no collective (R106). -/
def Grid.gangOk (gr : Grid) : Bool :=
  match gr.gang with
  | some g => g.state == .committed
  | none => true

/-- R376's timeout, in cycles. -/
def State.collCycles (s : State) (c : Nat) : Nat :=
  match s.ctx? c with
  | some x => x.ctxcoll.toNat * Config.cyclesPerUs
  | none => 0

/-! ### MBRD (R384) -/

/-- Live member groups that this module holds: every team's, less the retired, dropped and departed ones. -/
def State.liveGroups (s : State) (gr : Grid) (k : Nat) : Nat :=
  if gr.modDropped k then 0
  else
    let gs := gr.memberGroups k
    let here := s.gridTeams gr
    let gone := (gr.liveOf k).droppedGroups.filter fun q => decide (gr.nextTeam ≤ q.1) || here.any fun tm => tm.num == q.1
    let left := here.foldl (fun n tm => n + (gs.filter fun g => tm.departed g && !gr.groupDropped k tm.num g).length) 0
    (gr.record.nteams + 1 - gr.retired) * gs.length - gone.length - left

/-- What a peer shows of its live member groups (log 8). -/
def peerGroups (p : Peer) (k : Nat) : Nat := natOfBytes (p.mem.read (2 ^ 55 + 8 * k) 8)

/-- The word MBRD writes. -/
def State.memberWord (s : State) (gr : Grid) (t : Tid) (k : Nat) (sel : MbrdSel) : Word :=
  if !(gr.defOf k).getLsbD 63 then 0
  else match sel with
    | .epoch => (gr.liveOf k).epoch
    | .groups =>
      let l := gr.liveOf k
      let far := match gr.gang with
        | some x => if gr.gangWide k then (s.peers.filterMap fun p => (peerRank p x.id).map fun r => (p, r)).foldl (fun n q =>
            if l.droppedMods.contains q.2 then n else n + (peerGroups q.1 k - l.dropsOf q.2)) 0 else 0
        | none => 0
      BitVec.ofNat 32 (min (s.liveGroups gr k + far) (2 ^ 32 - 1))
    | .mods => BitVec.ofNat 32 ((gr.moduleCount k - (gr.liveOf k).droppedMods.length) * 2 ^ 16 + gr.rank k)
    | .self =>
      let mine := match t with
        | .thr _ _ tm g _ => gr.memberGroup k g && !gr.excluded k tm g
        | .scalar _ => false
      BitVec.ofNat 32 ((if mine then 1 else 0) + (if gr.modDropped k then 0 else 2) + 4)

end Sys2Proof.Machine
end

