-- ==== Sys2Proof/Machine/SysRegs.lean ====
section
/-! DEFINITION. The accumulator store's allocations (R349, R358, R359) and the system registers (R409): what SRD reads, what SWR writes. -/

namespace Sys2Proof.Machine

open Sys2Proof

/-! ### Accumulator allocations -/

def Core.unitsFree (c : Core) (u n : Nat) : Bool :=
  decide (u + n ≤ Config.accUnits) &&
  c.allocs.all fun a =>
    (decide (u + n ≤ a.unit) || decide (a.unit + a.n ≤ u)) &&
    (match a.shadow with
     | some v => decide (u + n ≤ v) || decide (v + a.n ≤ u)
     | none => true)

/-- The lowest even run of `n` units (R358). -/
def Core.findUnits (c : Core) (n : Nat) : Option Nat :=
  (firstFrom (fun k => c.unitsFree (2 * k) n) 0 (Config.accUnits / 2)).map (2 * ·)

def Core.allocOf (c : Core) (t : Tid) : Option Alloc := c.allocs.find? fun a => a.holders.contains t

/-- Units freed hold zero bits (R349). -/
def Core.freeAlloc (c : Core) (a : Alloc) : Core :=
  let zero (m : Memory) : Memory :=
    let m := m.clear (512 * a.unit) (512 * a.n)
    match a.shadow with
    | some v => m.clear (512 * v) (512 * a.n)
    | none => m
  { c with allocs := c.allocs.filter fun x => x.unit != a.unit, acc := zero c.acc, accBad := c.accBad.filter fun b =>
      !(decide (512 * a.unit ≤ b) && decide (b < 512 * (a.unit + a.n))) &&
      (match a.shadow with
       | some v => !(decide (512 * v ≤ b) && decide (b < 512 * (v + a.n)))
       | none => true) }

/-- The thread drops its hold; the last holder's drop frees the allocation (R349, R359). -/
def State.dropTile (s : State) (t : Tid) : State :=
  match s.thread? t with
  | none => s
  | some th =>
    if th.tile.isNone then s
    else
      let s := s.modThread t fun th => { th with tile := none }
      s.modCore th.home fun c =>
        match c.allocOf t with
        | none => c
        | some a =>
          let hs := a.holders.filter (· != t)
          if hs.isEmpty then c.freeAlloc a
          else { c with allocs := c.allocs.map fun x => if x.unit = a.unit then { x with holders := hs } else x }

/-! ### Reading (Table 19.16) -/

def Cause.num (c : Cause) : Nat :=
  match c with
  | .illegalOpcode => 0 | .regRange => 1 | .privilege => 2 | .illegalLine => 3 | .illegalTarget => 4 | .illegalPair => 5
  | .lineParity => 6 | .windowMiss => 7 | .windowFormat => 8 | .misaligned => 9 | .scratchRange => 10 | .awayAccess => 11
  | .liveLimit => 12 | .liveIndex => 13 | .breakpoint => 14 | .softTrap => 15 | .atomicDomain => 16 | .uncorrectable => 17
  | .engineFormat => 18 | .queueUnbound => 19 | .matrixQuarter => 20 | .formatSlot => 21 | .tileState => 22 | .tileRange => 23
  | .groupUndefined => 24 | .groupNotMember => 25 | .handlerCollective => 26 | .collectiveExcluded => 27
  | .collectiveMismatch => 28 | .gangAbort => 29 | .rgnConflict => 30 | .shadowMismatch => 31 | .rgnPartialError => 32
  | .rgnNest => 33 | .watchdog => 34 | .remoteTimeout => 35 | .pageFault => 36 | .handlerState => 37 | .poolFull => 38
  | .recordLost => 39 | .trapRing => 40 | .dieLost => 41 | .saveFault => 42 | .thermalCritical => 43 | .powerFault => 44

/-- All causes, in the order of their numbers. -/
def causes : List Cause :=
  [.illegalOpcode, .regRange, .privilege, .illegalLine, .illegalTarget, .illegalPair, .lineParity, .windowMiss,
   .windowFormat, .misaligned, .scratchRange, .awayAccess, .liveLimit, .liveIndex, .breakpoint, .softTrap,
   .atomicDomain, .uncorrectable, .engineFormat, .queueUnbound, .matrixQuarter, .formatSlot, .tileState, .tileRange] ++
  [.groupUndefined, .groupNotMember, .handlerCollective, .collectiveExcluded, .collectiveMismatch, .gangAbort,
   .rgnConflict, .shadowMismatch, .rgnPartialError, .rgnNest, .watchdog, .remoteTimeout, .pageFault, .handlerState,
   .poolFull, .recordLost, .trapRing, .dieLost, .saveFault, .thermalCritical, .powerFault]
def causeOf (n : Nat) : Cause := getAt .illegalOpcode causes n

def FaultKind.num : FaultKind → Nat
  | .notPresent => 0 | .writeProtect => 1 | .badEntry => 2 | .badFrame => 3
def AccKind.num : AccKind → Nat
  | .load => 0 | .store => 1 | .atomic => 2 | .fetch => 3 | .engineRead => 4 | .engineWrite => 5

def Handler.hstate (h : Handler) : Nat := (if h.hmode then 2 ^ 31 else 0) + h.rung.toNat * 2 ^ 29 + h.via.toNat * 2 ^ 27

/-- CORE (Table 1.3) of the core that runs the thread. -/
def State.coreReg (s : State) (core : Nat) : Nat :=
  let p := s.phys core % Config.coresPerDie
  core * 2 ^ 16 + p / 16 * 2 ^ 12 + p % 16 * 2 ^ 8 + s.dcore core
/-- DIE (Table 1.4): a compute stack is KIND 0. -/
def State.dieReg (s : State) (core : Nat) : Nat := s.ndcore (s.dieOf core) * 2 ^ 16 + s.dieOf core

def wordOr (o : Option Nat) : Nat := o.getD 0

/-- The value of a system register for a thread (R409). -/
def State.sysRead (s : State) (t : Tid) (n : Nat) : Nat :=
  match s.thread? t with
  | none => 0
  | some th =>
    let c := s.ctx? (s.ctxOf t)
    let ofCtx (f : Ctx → Nat) : Nat := (c.map f).getD 0
    let k := s.core th.core
    if n = 0x000 then th.lane
    else if n = 0x001 then Tid.group t
    else if n = 0x002 then (match t with | .thr _ _ tm _ _ => tm | .scalar _ => 0)
    else if n = 0x003 then s.coreReg th.core
    else if n = 0x004 then s.dieReg th.core
    else if n = 0x005 then s.ncore * 2 ^ 16 + s.modid
    else if n = 0x006 then Config.latver
    else if n = 0x007 then th.flags
    else if n = 0x008 then s.cycle % 2 ^ 64
    else if n = 0x009 then s.epoch % 2 ^ 16 * 2 ^ 48 + th.pts % 2 ^ 48
    else if n = 0x00A then (match t with
      | .thr c g tm _ _ => ((s.team? c g tm).map fun x => x.fpx.toNat).getD 0
      | .scalar _ => th.fpx.toNat)
    else if n = 0x00B then k.linestat.toNat
    else if n = 0x00C then k.materr.toNat
    else if n = 0x00D then k.grperr.toNat
    else if n = 0x010 then th.h.cause.toNat
    else if n = 0x011 then th.h.hstate
    else if n = 0x012 then th.h.trappc.toNat
    else if n = 0x013 then th.h.src.toNat
    else if n = 0x014 then th.h.info.toNat
    else if n = 0x015 then th.h.pend.toNat
    else if n = 0x016 then th.h.hfaultsrc.toNat
    else if n = 0x018 then s.mmode.toNat
    else if n = 0x019 then (if s.ckpt.rsv then 2 ^ 63 else 0) + s.ckpt.state % 4 * 2 ^ 58 + s.ckpt.lastst * 2 ^ 32 + s.ckpt.seq.toNat
    else if n = 0x020 then ofCtx fun c => c.placedom.toNat
    else if n = 0x021 then (s.die (s.dieOf th.core)).units
    else if n = 0x022 then ofCtx fun c => c.recpool.toNat
    else if n = 0x023 then ofCtx fun c => c.ctxsched.toNat
    else if n = 0x024 then ofCtx fun c => c.ctxcoll.toNat
    else if n = 0x025 then ofCtx fun c => c.ctxwdog.toNat
    else if n = 0x026 then ofCtx fun c => c.ctxtrapq.toNat
    else if n = 0x027 then ofCtx fun c => c.ctxtrapcore.toNat
    else if n = 0x028 then ofCtx fun c => c.ctxsave.toNat
    else if n = 0x029 then 0
    else if n = 0x02A then ofCtx fun c => c.preemptctl.toNat
    else if n = 0x02B then ofCtx fun c => c.teamrestore.toNat
    else if n = 0x030 then ((s.teamOf t).map fun x => x.rungvec0.toNat).getD 0
    else if n = 0x031 then ((s.teamOf t).map fun x => x.rungvec1.toNat).getD 0
    else if n = 0x032 then ofCtx fun c => c.rungvec2.toNat
    else if n = 0x033 then Config.rungVec3.toNat
    else if n = 0x034 then Config.rungVec4.toNat
    else if n < 0x03C then ofCtx fun c => (getAt 0 c.rungto (n - 0x038)).toNat
    else if n < 0x060 then ofCtx fun c =>
      let w := getAt ⟨0, 0, 0, 0⟩ c.windows ((n - 0x040) / 4)
      (match (n - 0x040) % 4 with
       | 0 => w.base
       | 1 => w.lim
       | 2 => w.ia
       | _ => w.ctl).toNat
    else if n < 0x070 then ofCtx fun c => (getAt 0 c.qbind (n - 0x060)).toNat
    else if n < 0x074 then ofCtx fun c => (getAt 0 c.cgdef (n - 0x070)).toNat
    else if n < 0x078 then ofCtx fun c => (getAt 0 c.mdef (n - 0x074)).toNat
    else ofCtx fun c => (getAt 0 c.mcast (n - 0x080)).toNat

/-! ### Writing -/

/-- Registers that any thread may write: FPX, MATERR, GRPERR, TRAPPC, CAUSEPEND (Tables 10.5, 17.1, 18.5, 19.5). -/
def sysOpen (n : Nat) : Bool := n == 0x00A || n == 0x00C || n == 0x00D || n == 0x012 || n == 0x015

/-- Registers that hold an RWP field and that SWR writes for a privileged thread (Table 19.16). -/
def sysPrivileged (n : Nat) : Bool :=
  n == 0x00B || n == 0x020 || (decide (0x022 ≤ n) && decide (n ≤ 0x02B)) || n == 0x032 ||
  (decide (0x038 ≤ n) && decide (n ≤ 0x03B)) || (decide (0x060 ≤ n) && decide (n ≤ 0x0BF))

/-- Whether an SWR traps PRIVILEGE (R409, Table 19.5). -/
def State.swrTraps (s : State) (th : Thread) (n : Nat) : Bool :=
  if n = 0x012 then !th.h.hmode
  else if sysOpen n then false
  else if sysPrivileged n then !s.privileged th.id
  else true

def clampTo (lo hi v : Nat) : Nat := max lo (min hi v)

/-- A write of TRAPPC in handler mode: the register, and the redirection of a thread that waits at a join (R167). -/
def State.writeTrappc (s : State) (t : Tid) (v : DWord) : State :=
  match s.thread? t with
  | none => s
  | some th =>
    let s' := s.modThread t fun th => { th with h := { th.h with trappc := v } }
    if v = th.h.trappc then s'
    else match th.h.join with
      | none => s'
      | some (j, _, released) =>
        let s' := s'.modThread t fun th => { th with h := { th.h with join := none } }
        match t, released with
        | .thr c g tm grp l, false => s'.joinLeave c g tm grp j (laneBit l)
        | _, _ => s'

/-- CTXTRAPQ.SIZE above 8 stores 8 (Table 19.7). -/
def trapqStore (v : DWord) : DWord :=
  let size := min 8 (v.toNat % 16)
  BitVec.ofNat 64 (bitsOf v.toNat 12 40 * 4096 + size)

/-- The write of a register under its fields' access codes, and the action of its own rule (R409). -/
def State.sysWrite (s : State) (t : Tid) (n : Nat) (v : DWord) : State :=
  let w : Word := v.setWidth 32
  let c := s.ctxOf t
  let core := s.coreOf t
  let onCtx (f : Ctx → Ctx) : State := s.modCtx c f
  let act (i : Instr) : State := { s with work := s.work ++ [.event i] }
  if n = 0x00A then
    match t with
    | .thr c g k _ _ => s.modTeam c g k fun tm => { tm with fpx := tm.fpx &&& ~~~(w.setWidth 7) }
    | .scalar _ => s.modThread t fun th => { th with fpx := th.fpx &&& ~~~(w.setWidth 7) }
  else if n = 0x00B then
    s.modCore core fun k => { k with linestat := (k.linestat &&& 0x10000 &&& ~~~w) ||| (w &&& 0xFFFF) }
  else if n = 0x00C then s.modCore core fun k => { k with materr := k.materr &&& ~~~(w &&& 0xC0000000) }
  else if n = 0x00D then s.modCore core fun k => { k with grperr := k.grperr &&& ~~~(w &&& 0xC0000000) }
  else if n = 0x012 then s.writeTrappc t v
  else if n = 0x015 then s.modThread t fun th => { th with h := { th.h with pend := th.h.pend &&& ~~~v } }
  else if n = 0x020 then onCtx fun x => { x with placedom := w &&& 0xFFFFFF }
  else if n = 0x022 then onCtx fun x => { x with recpool := v &&& 0x000FFFFFFFFFFFFF }
  else if n = 0x023 then onCtx fun x =>
    { x with ctxsched := BitVec.ofNat 32 (bitsOf w.toNat 16 8 * 2 ^ 16 + max 64 (bitsOf w.toNat 0 16)) }
  else if n = 0x024 then onCtx fun x => { x with ctxcoll := BitVec.ofNat 32 (max 1 (bitsOf w.toNat 0 24)) }
  else if n = 0x025 then onCtx fun x =>
    { x with ctxwdog := BitVec.ofNat 32 (max 1 (bitsOf w.toNat 24 8) * 2 ^ 24 + clampTo 16 40 (bitsOf w.toNat 18 6) * 2 ^ 18
        + max 1 (bitsOf w.toNat 0 18)) }
  else if n = 0x026 then onCtx fun x => { x with ctxtrapq := trapqStore v }
  else if n = 0x027 then onCtx fun x => { x with ctxtrapcore := w &&& 0x80001FFF }
  else if n = 0x028 then onCtx fun x => { x with ctxsave := v &&& 0x000FFFFFFFFFFFFF }
  else if n = 0x029 then
    match bitsOf v.toNat 62 2 with
    | 0 => act (.trapresResume c (bitsOf v.toNat 6 46 * 64))
    | 1 => act (.trapresKill c (bitsOf v.toNat 6 46 * 64))
    | 2 => act (.trapresEscalate c (bitsOf v.toNat 6 46 * 64))
    | _ => s
  else if n = 0x02A then act (.preemptRequest c v)
  else if n = 0x02B then act (.teamRestore c v)
  else if n = 0x032 then onCtx fun x => { x with rungvec2 := v }
  else if 0x038 ≤ n ∧ n ≤ 0x03B then
    onCtx fun x => { x with rungto := setAt x.rungto (n - 0x038) (BitVec.ofNat 32 (max 1 (bitsOf w.toNat 0 24))) }
  else if 0x060 ≤ n ∧ n ≤ 0x06F then
    onCtx fun x => { x with qbind := setAt x.qbind (n - 0x060) (if bitsOf w.toNat 0 4 < 8 then w &&& 7 else 0) }
  else if 0x070 ≤ n ∧ n ≤ 0x073 then act (.cgdefWrite c (n - 0x070) v)
  else if 0x074 ≤ n ∧ n ≤ 0x077 then onCtx fun x => { x with mdef := setAt x.mdef (n - 0x074) (v &&& 0xC0000000FFFFFFFF) }
  else if 0x080 ≤ n ∧ n ≤ 0x0BF then onCtx fun x => { x with mcast := setAt x.mcast (n - 0x080) (w &&& 0x80000FFF) }
  else s

end Sys2Proof.Machine
end

