-- ==== Sys2Proof/Machine/Effects.lean ====
section
/-! DEFINITION. Effects outside a thread's registers: whether one can be performed now (R272, R316, R327), its performance, and the hold buffer of recovery regions and run-ahead (R301, R302, R412 to R415, R323, R344). -/

namespace Sys2Proof.Machine

open Sys2Proof

/-! ### Performing -/

/-- Recalls lines and lets engines read them before the thread writes (R289); answers whether nothing is left to wait for. -/
def State.clearLines (s : State) (t : Tid) (core : Nat) (sp : Space) (lines : List Nat) : State × Bool :=
  if s.cores.all fun k => k.slots.isEmpty then (s, true)
  else lines.foldl (fun q l =>
    let (s, a) := q.1.recall core sp l
    let (s, b) := s.saveSource t core sp l
    (s, q.2 && a && b)) (s, true)

/-- A queue's side that takes pushes; a LOOP queue is one FIFO (R341). -/
def TQueue.full (q : TQueue) : Bool := if q.kind = 7 then decide (16 ≤ q.result.length) else decide (16 ≤ q.push.length)
def TQueue.put (q : TQueue) (e : List Word) : TQueue :=
  if q.kind = 7 then { q with result := q.result ++ [e] } else { q with push := q.push ++ [e] }
def Team.queue (tm : Team) (q : Nat) : TQueue := getAt ⟨0, [], []⟩ tm.queues q

/-- A multicast store's mask selects another module (R322). -/
def State.stmAway (s : State) (t : Tid) (mask : DWord) : Bool :=
  (seqFrom 0 64).any fun i => mask.getLsbD i && (s.mcastOf t i).testBit 31 && s.mcastOf t i % 4096 != s.modid

/-- The domain of an access that stands in the side log (R296): through a PEER window, a multicast to other modules, or by its leaf; a marker is no access. -/
def State.logInDom (s : State) (e : SideEnt) (d : FenceDom) : Bool :=
  match e.op with
  | .marker _ => false
  | .write (.stm _ _ mask _ _) => d != .sys && s.stmAway e.t mask
  | _ => match e.peer with
    | some _ => d != .sys
    | none => match s.route e.ia true, d with
      | .to (.peer _ _), .fab | .to (.peer _ _), .all | .to (.sys _ _), .sys | .to (.sys _ _), .all => true
      | _, _ => false

/-- The thread's outstanding accesses of a domain (R300, R317), those that its side log holds included. -/
def State.domainBusy (s : State) (t : Tid) (d : FenceDom) : Bool :=
  (s.out.any fun o => o.t == t && o.inDom d) || (s.logOf t).any fun e => s.logInDom e d

/-- A die that MBOX or TEAMRESTORE may name. -/
def State.domainDie (s : State) (t : Tid) (die : Nat) : Bool :=
  decide (die < Config.dies) && (match s.ctx? (s.ctxOf t) with
    | some c => c.placedom.getLsbD die
    | none => false)

/-- Whether an effect can be performed now; if not, the thread stalls, resident (R8, R272, R316, R327, R344, R97, R119); a write of TRAPRES comes after the writer's earlier accesses (R395), one of TEAMRESTORE waits for a mailbox entry (R114, R403; log 58). -/
def State.prepare (s : State) (t : Tid) (e : Eff) : State × Bool :=
  let core := s.coreOf t
  let clean := !s.logging t
  match e with
  | .scratch off data => if clean then s.clearLines t core .scr (linesMet off data.length) else (s, false)
  | .store ia peer data =>
    if s.storeLogs t e then (s, !s.logFull core)
    else if !s.requestRoom core then (s, false) else s.clearLines t core (.ia peer) (linesMet ia data.length)
  | .red _ ia peer n _ =>
    if s.storeLogs t e then (s, !s.logFull core)
    else if !s.requestRoom core then (s, false) else s.clearLines t core (.ia peer) (linesMet ia n)
  | .stm ia data mask _ _ =>
    if s.storeLogs t e then (s, !s.logFull core)
    else if !s.requestRoom core then (s, false)
    else if s.stmHere t mask then s.clearLines t core (.ia none) (linesMet ia data.length) else (s, true)
  | .command _ => (s, clean && (s.freeSlot core).isSome)
  | .binit off _ _ _ | .barr off _ => if clean then s.clearLines t core .scr [off / 64] else (s, false)
  | .qpush q _ => (s, clean && (match s.teamOf t with
      | some tm => !(tm.queue q).full
      | none => false))
  | .task _ die => (s, clean && s.taskRoom die)
  | .launch _ _ _ => (s, clean && s.launchRoom (s.ctxOf t))
  | .evset _ | .evclr _ | .subs _ _ _ _ | .unsub _ _ | .winset _ _ | .winsetClr _ => (s, clean)
  | .fence d => (s, !s.domainBusy t d || !s.logFull core)
  | .swr n v => (s, (clean || n != 0x029) && (n != 0x02B || !s.domainDie t (bitsOf v.toNat 52 5) || s.taskRoom (bitsOf v.toNat 52 5)))
  | .jset _ _ | .jleave _ | .tfree | .arrive _ _ => (s, true)

/-- Beside an engine queue's entry: the thread that pushed it, in whose name the command runs. -/
def pusherWord (t : Tid) : Word := BitVec.ofNat 32 (if Tid.isScalar t then 2 ^ 31 else Tid.group t * 32 + Tid.lane t)

/-- A window change (R263). -/
def Ctx.putWindow (c : Ctx) : Eff → Ctx
  | .winset w v => { c with windows := setAt c.windows w ⟨getAt 0 v 0, getAt 0 v 1, getAt 0 v 2, getAt 0 v 3⟩ }
  | .winsetClr w =>
    { c with windows := setAt c.windows w { getAt ⟨0, 0, 0, 0⟩ c.windows w with ctl := (getAt ⟨0, 0, 0, 0⟩ c.windows w).ctl &&& ~~~(1#64 <<< 63) } }
  | _ => c

/-- The effect takes place. -/
def State.perform (s : State) (t : Tid) (e : Eff) : State :=
  let core := s.coreOf t
  let ctx := s.ctxOf t
  match e with
  | .scratch off data => s.scrWrite core off data
  | .store _ _ _ | .red _ _ _ _ _ | .stm _ _ _ _ _ => s.storeRequest t e
  | .jset j v => match t with
    | .thr c g k grp _ => s.joinSet c g k grp j v
    | .scalar _ => s
  | .jleave j => match t with
    | .thr c g k grp l => s.joinLeave c g k grp j (laneBit l)
    | .scalar _ => s
  | .evset m => s.evSet ctx m
  | .evclr m => s.evClr ctx m
  | .launch va body loc => match s.thread? t with
    | some th => (s.submit th va body loc).1
    | none => s
  | .task pkt die => match s.thread? t with
    | some th =>
      let (s, _, es) := s.sendTask core th pkt die
      es.foldl (fun s x => s.postEvent x.1 x.2) s
    | none => s
  | .command d =>
    match s.thread? t with
    | none => s
    | some th =>
      let tm := s.teamOf t
      let grid := match tm with
        | some tm => tm.grid
        | none => Tid.gridNum t
      let team := if th.core = th.home ∨ th.isScalar then tm else none
      match d.kind with
      | .coll =>
        let k := d.word 6 % 4
        let n := match s.grid? ctx grid with
          | some g => (getAt Live.reset g.live k).colls
          | none => 0
        let s := s.modGrid ctx grid fun g =>
          { g with live := setAt g.live k { getAt Live.reset g.live k with colls := n + 1 } }
        s.issueCommand core t team (s.tslot th) none grid ctx d (some (k, n))
      | _ => s.issueCommand core t team (s.tslot th) none grid ctx d none
  | .binit off target tag flags => s.binitAt core off target tag flags
  | .barr off n => (s.arrive core off n none 0).1
  | .qpush q entry => match s.teamOf t with
    | some tm =>
      let entry := if (tm.queue q).kind = 7 then entry else entry ++ [pusherWord t]
      (s.modTeam tm.ctx tm.grid tm.num fun tm => { tm with queues := setAt tm.queues q ((tm.queue q).put entry) }).serveQueue
        tm.ctx tm.grid tm.num q
    | none => s
  | .subs die ia len mod =>
    let s : State := { s with messages := s.messages ++ [HostMsg.subscribe die (s.die die).subs.length mod] }
    s.modDie die fun d => { d with subs := d.subs ++ [{ ctx, ia, len, mod, active := false, copy := [] }] }
  | .unsub die ia => s.modDie die fun d => { d with subs := d.subs.filter fun b => !(b.ctx == ctx && b.ia == ia) }
  | .fence d =>
    if s.domainBusy t d then s.pushLog core { t, ia := 0, peer := none, op := .marker d, held := false } else s
  | .winset _ _ | .winsetClr _ => s.modCtx ctx fun c => c.putWindow e
  | .swr n v => s.sysWrite t n v
  | .tfree => s.dropTile t
  | .arrive kind at_ => s.arriveFalse t kind at_

/-! ### The hold buffer (R413) -/

/-- The lines of an effect: space (0 scratchpad, 1 this module's IAs, 2 + m peer m's) and line. -/
def Eff.lines : Eff → List (Nat × Nat)
  | .scratch off data => (linesMet off data.length).map fun l => (0, l)
  | .store ia none data => (linesMet ia data.length).map fun l => (1, l)
  | .store ia (some m) data => (linesMet ia data.length).map fun l => (2 + m, l)
  | .red _ ia none n _ => (linesMet ia n).map fun l => (1, l)
  | .red _ ia (some m) n _ => (linesMet ia n).map fun l => (2 + m, l)
  | _ => []

def ReadMark.lines (m : ReadMark) : List (Nat × Nat) := (linesMet m.addr m.data.length).map fun l => (if m.scratch then 0 else 1, l)

def Region.lines (r : Region) : List (Nat × Nat) := r.held.flatMap Eff.lines ++ r.reads.flatMap ReadMark.lines
def Thread.heldLines (th : Thread) : List (Nat × Nat) := (th.regions.flatMap Region.lines).eraseDups

/-- Whether lines more would pass R413's limits: 128 for the thread, 2,048 for the core. -/
def State.holdFull (s : State) (th : Thread) (more : List (Nat × Nat)) : Bool :=
  let mine := (th.heldLines ++ more).eraseDups.length
  let rest := (s.threads.filter fun x => x.core == th.core && x.id != th.id && x.inRegion).foldl (fun n x => n + x.heldLines.length) 0
  decide (128 < mine) || decide (2048 < mine + rest)

/-- Changes the innermost region. -/
def Thread.inner (th : Thread) (f : Region → Region) : Thread :=
  { th with regions := match th.regions with
      | r :: rs => f r :: rs
      | [] => [] }

/-- Held bytes over a read, outermost region and oldest effect first. -/
def overlay (base : List Byte) (addr : Nat) : List (Nat × List Byte) → List Byte
  | [] => base
  | (a, bs) :: rest =>
    overlay (((seqFrom addr base.length).zip base).map fun (x, b) => if a ≤ x ∧ x < a + bs.length then getAt 0 bs (x - a) else b) addr rest

def Thread.held (th : Thread) : List Eff := (th.regions.reverse).flatMap fun r => r.rest ++ r.held

/-- The context as the thread sees it: with its held window changes (R261, R263). -/
def State.viewCtx (s : State) (th : Thread) : Option Ctx := (s.ctx? (s.ctxOf th.id)).map fun c => th.held.foldl Ctx.putWindow c

/-- The bytes that BINIT writes (R338). -/
def binitBytes (target tag flags : Nat) : List Byte := bytesOfNat 12 (target + tag * 2 ^ 64 + flags * 2 ^ 88)

/-- Held scratchpad writes: STS and BINIT. -/
def Thread.heldScr (th : Thread) : List (Nat × List Byte) :=
  th.held.filterMap fun e => match e with
    | .scratch off data => some (off, data)
    | .binit off target tag flags => some (off, binitBytes target tag flags)
    | _ => none

/-- A held effect on the scratchpad as the thread sees it; a held BARR raises ARRIVED (R301, R344). -/
def Memory.under (m : Memory) : Eff → Memory
  | .scratch off data => m.write off data
  | .binit off target tag flags => m.write off (binitBytes target tag flags)
  | .barr off n => m.write (off + 4) (bytesOfNat 4 (natOfBytes (m.read (off + 4) 4) + n))
  | _ => m
def Thread.heldMem (th : Thread) (peer : Option Nat) : List (Nat × List Byte) :=
  th.held.filterMap fun e => match e with
    | .store ia p data => if p = peer then some (ia, data) else none
    | _ => none

/-- A thread's view of its scratchpad bytes: memory under its held bytes (R413), and whether an uncorrectable word shows. -/
def State.viewScr (s : State) (th : Thread) (off n : Nat) : List Byte × Bool :=
  let (bs, bad) := s.scrRead th.core off n
  if th.held.isEmpty then (bs, bad)
  else
    ((th.held.foldl Memory.under (s.core th.core).scr).read off n,
     bad && (wordsMet off n).any fun w => (s.core th.core).scrBad.contains w &&
      !(th.heldScr.any fun h => decide (h.1 ≤ 4 * w) && decide (4 * w + 4 ≤ h.1 + h.2.length)))

/-- The tag of a barrier object as the thread sees it (R322, R326, R344). -/
def State.viewTag (s : State) (th : Thread) (off : Nat) : Nat := natOfBytes ((s.viewScr th (off + 8) 2).1)

def State.markRead (s : State) (t : Tid) (m : ReadMark) : State := s.modThread t fun th => th.inner fun r => { r with reads := r.reads ++ [m] }

/-! ### Commit (R302, R415) -/

/-- The value read must still be the value (R302). -/
def State.markHolds (s : State) (core : Nat) (m : ReadMark) : Bool :=
  if m.scratch then (s.scrRead core m.addr m.data.length).1 == m.data
  else match s.route m.addr false with
    | .to (.mem pa) => (s.readPA m.addr pa m.data.length).1 == m.data
    | _ => false

inductive CommitRes where
  | ok
  | conflict
  | wait
deriving DecidableEq, Repr

/-- Performs effects in order; waits at one that cannot be performed. -/
def State.performAll (s : State) (t : Tid) : List Eff → Option State
  | [] => some s
  | e :: es =>
    match s.prepare t e with
    | (_, false) => none
    | (s, true) => (s.perform t e).performAll t es

/-- Performs effects in order as far as they can be; answers those that are left. -/
def State.performSome (s : State) (t : Tid) : List Eff → State × List Eff
  | [] => (s, [])
  | e :: es =>
    match s.prepare t e with
    | (s, false) => (s, e :: es)
    | (s, true) => (s.perform t e).performSome t es

/-- A write of the module domain, which takes the commit's one step; the rest follow in program order (R302, R323, R415). -/
def State.inStep (s : State) : Eff → Bool
  | .scratch _ _ => true
  | .store ia none _ | .red _ ia none _ _ => match s.route ia true with
    | .to (.sys _ _) | .to (.peer _ _) => false
    | _ => true
  | _ => false

def Eff.isScratch : Eff → Bool
  | .scratch _ _ => true
  | _ => false

/-- The regions once their commit step has been performed: what is left stands in the outermost. -/
def stepDone (rest : List Eff) : List Region → List Region
  | [] => []
  | [r] => [{ r with rest, held := [], reads := [], units := [], allocs := [], kept := [], partial_ := true }]
  | r :: rs => { r with rest := [], held := [], reads := [], units := [], allocs := [], kept := [], partial_ := true } :: stepDone rest rs

/-- A read of a held RED that a home still holds (R323). -/
def State.unanswered (s : State) (t : Tid) : Bool := s.held.any fun h => match h.who with
  | .region x _ => x == t
  | _ => false

/-- What is left of a commit whose step has been performed goes on. -/
def State.commitRest (s : State) (t : Tid) (rest : List Eff) : State × CommitRes :=
  match s.performSome t rest with
  | (s, left) => (s.modThread t fun th => { th with regions := stepDone left th.regions }, if left.isEmpty then .ok else .wait)

/-- Validates and performs everything that the thread's regions hold: the module-domain writes in one step, then the other effects in program order as they become possible (R302, R415). -/
def State.commitAll (s : State) (t : Tid) : State × CommitRes :=
  match s.thread? t with
  | none => (s, .ok)
  | some th =>
    match th.regions.flatMap (·.rest) with
    | e :: es => s.commitRest t (e :: es)
    | [] =>
      if s.unanswered t then (s, .wait)
      else if !((th.regions.flatMap (·.reads)).all (s.markHolds th.core)) then (s, .conflict)
      else
        let es := th.held
        let step := es.filter s.inStep
        match s.performAll t (step.filter Eff.isScratch ++ step.filter fun e => !e.isScratch) with
        | some s' =>
          match s'.performSome t (es.filter fun e => !s.inStep e) with
          | (s', []) => (s', .ok)
          | (s', left) => (s'.modThread t fun th => { th with regions := stepDone left th.regions }, .wait)
        | none => (s, .wait)

/-- After an early commit every open region is PARTIAL, with nothing held and no undo (R417, R418). -/
def Region.toPartial (r : Region) : Region :=
  { r with held := [], reads := [], units := [], allocs := [], kept := [], partial_ := true }

def State.earlyCommit (s : State) (t : Tid) : State × CommitRes :=
  match s.commitAll t with
  | (s, .ok) => (s.modThread t fun th => { th with regions := th.regions.map Region.toPartial }, .ok)
  | r => r

/-! ### Rollback (R414) -/

/-- Undoes a region's allocations and restores its tile units (R364). -/
def State.undoTiles (s : State) (t : Tid) (r : Region) : State :=
  let s := match s.thread? t with
    | some th => s.modCore th.home fun c =>
        { c with
          acc := r.units.foldl (fun m u => m.write (512 * u.1) u.2.1) c.acc
          accBad := (c.accBad.filter fun a => !(r.units.any fun u => a / 512 == u.1)) ++ r.units.flatMap fun u => u.2.2 }
    | none => s
  if r.allocs.isEmpty then s else s.dropTile t

/-- Rolls back the innermost `k + 1` regions; the thread keeps the outer ones. Answers the outermost region undone. -/
def State.rollback (s : State) (t : Tid) (k : Nat) : State × Option Region :=
  let s := s.landAll t
  match s.thread? t with
  | none => (s, none)
  | some th =>
    let gone := th.regions.take (k + 1)
    let s := gone.foldl (fun s r => s.undoTiles t r) s
    let s := { s with held := s.held.filter fun h => match h.who with
      | .region x _ => x != t
      | _ => true }
    match gone.getLast? with
    | none => (s, none)
    | some r =>
      let put (x : Regs) : Regs := { x.putAll r.kept [] with p := r.preds }
      (s.modThread t fun th =>
        { th with regs := put th.regs, shadow := th.shadow.map put, regions := th.regions.drop (k + 1) }, some r)

/-- The region resumes at its RBEGIN with the attempt count pending for it at its depth (R417). -/
def State.retry (s : State) (t : Tid) (r : Region) : State :=
  s.modThread t fun th => { th.transfer r.start true with attempt := some (r.start, th.depth, r.attempt + 1), hold := false }

/-! ### Emitting an effect -/

inductive EmitRes where
  /-- performed, or held -/
  | done
  /-- the thread stalls at the instruction -/
  | stall
  /-- the hold buffer overflows -/
  | overflow
deriving DecidableEq, Repr

/-- What stalls on the thread's side-log entries, in a region too (R316). -/
def Eff.stallsOnLog : Eff → Bool
  | .scratch _ _ | .command _ | .binit _ _ _ _ | .barr _ _ | .qpush _ _ | .task _ _ | .launch _ _ _
  | .evset _ | .evclr _ | .subs _ _ _ _ | .unsub _ _ | .winset _ _ | .winsetClr _ => true
  | _ => false

/-- Holds the effect in the innermost region, or performs it (R301). -/
def State.emit (s : State) (t : Tid) (e : Eff) : State × EmitRes :=
  match s.thread? t with
  | none => (s, .done)
  | some th =>
    if th.inRegion then
      if s.logging t && e.stallsOnLog then (s, .stall)
      else if s.holdFull th e.lines then (s, .overflow)
      else (s.modThread t fun th => th.inner fun r => { r with held := r.held ++ [e] }, .done)
    else match s.prepare t e with
      | (s, false) => (s, .stall)
      | (s, true) => (s.perform t e, .done)

end Sys2Proof.Machine
end

