-- ==== Sys2Proof/Machine/Records.lean ====
section
/-! DEFINITION. Records as bytes (Tables 7.2 to 7.5, 19.11), the save area (R401), the context's trap ring (R394), and the accesses that the save engine and the trap unit make at a home. -/

namespace Sys2Proof.Machine

open Sys2Proof

/-! ### Accesses of the save engine and the trap unit -/

/-- Bytes cut at line boundaries: address and bytes of each piece. -/
def linePieces (a : Nat) : Nat → List Byte → List (Nat × List Byte)
  | 0, _ => []
  | fuel + 1, bs =>
    if bs.isEmpty then []
    else
      let k := 64 - a % 64
      (a, bs.take k) :: linePieces (a + k) fuel (bs.drop k)

/-- One line's bytes written at an IA, in the module order (R289); `none` when its home cannot perform the write now. -/
def State.iaWriteLine (s : State) (ia : Nat) (data : List Byte) : Option State :=
  match s.iaWrite1 .save ia data with
  | (s, .done) => some s
  | _ => none

def State.iaWritePieces (s : State) : List (Nat × List Byte) → Option State
  | [] => some s
  | (a, bs) :: rest =>
    match s.iaWriteLine a bs with
    | some s => s.iaWritePieces rest
    | none => none

def State.iaWrite (s : State) (ia : Nat) (data : List Byte) : Option State := s.iaWritePieces (linePieces ia (data.length / 64 + 2) data)

/-- One line's bytes read at an IA; `none` when its home cannot answer now, or the line does not verify (R278). -/
def State.iaReadLine (s : State) (ia n : Nat) : Option (State × List Byte) :=
  match s.iaRead1 .save ia n with
  | (s, .data bs false) => some (s, bs)
  | _ => none

def State.iaRead (s : State) (ia : Nat) : Nat → Nat → Option (State × List Byte)
  | 0, _ => some (s, [])
  | fuel + 1, n =>
    if n = 0 then some (s, [])
    else
      let k := min n (64 - ia % 64)
      match s.iaReadLine ia k with
      | some (s, a) => (s.iaRead (ia + k) fuel (n - k)).map fun (s, b) => (s, a ++ b)
      | none => none

/-! ### Records as bytes -/

/-- WAITK (Table 7.1). -/
def Wait.num : Wait → Nat
  | .none => 0 | .memory => 1 | .group => 2 | .barrier _ _ => 3 | .event _ => 4 | .queue _ => 5 | .join _ _ => 6
  | .cbr _ => 7 | .task => 8 | .evq => 9 | .fetch => 10 | .preempt => 11 | .popEvq _ | .popQueue _ _ | .popLog => 12

/-- THREAD (Table 7.3). -/
def Thread.word (th : Thread) : Nat :=
  match th.id with
  | .thr c _ _ g l => c * 2 ^ 20 + (if th.lfree then 2 ^ 19 else 0) + (if th.lsv then 2 ^ 18 else 0) + th.livesel * 2 ^ 10 + g * 2 ^ 5 + l
  | .scalar _ => 0

/-- STATE (Table 7.4). -/
def Thread.stateWord (th : Thread) : Nat :=
  (if th.tb then 2 ^ 31 else 0) + (if th.spec then 2 ^ 30 else 0) + (if th.whole then 2 ^ 29 else 0) + (if th.ext then 2 ^ 28 else 0) +
  th.flags * 2 ^ 16 + (match th.tile with | some h => 2 ^ 15 + h | none => 0)

/-- WAIT (Table 7.5). -/
def Thread.waitWord (th : Thread) : Nat :=
  th.wait.num * 2 ^ 28 + (match th.tpend with | some (c, _) => c.num * 2 ^ 22 + 2 ^ 21 | none => 0) + th.pend * 2 ^ 16 + th.home

def Tid.teamNum : Tid → Nat
  | .thr _ _ t _ _ => t
  | .scalar _ => 0

/-- Slot `i` of LIVE and byte `i` of LIVEREG. -/
def Thread.liveWord (th : Thread) (i : Nat) : Word :=
  match th.live[i]? with
  | some r => getAt 0 th.regs.x r
  | none => 0
def Thread.liveByte (th : Thread) (i : Nat) : Byte :=
  match th.live[i]? with
  | some r => BitVec.ofNat 8 r
  | none => 0xFF

/-- A record of Table 7.2; the Barrel's LINK is not preserved. -/
def Thread.record (th : Thread) : List Byte :=
  bytesOfNat 8 th.pc.toNat ++ bytesOfNat 8 (if th.ext && !th.plive then 1 else th.regs.p.toNat) ++
  (if th.ext then List.replicate 64 0 ++ List.replicate 16 0xFF
   else bytesOfWords ((seqFrom 0 16).map th.liveWord) ++ (seqFrom 0 16).map th.liveByte) ++
  bytesOfNat 4 (Tid.gridNum th.id) ++ bytesOfNat 4 (Tid.teamNum th.id) ++ bytesOfNat 4 th.word ++ bytesOfNat 4 th.stateWord ++
  bytesOfNat 4 th.waitWord ++ bytesOfNat 4 (if th.pend = 0 then th.ready else 0) ++ List.replicate 8 0

/-- An extended record (Table 19.11). -/
def Thread.extended (th : Thread) : List Byte :=
  th.record ++ bytesOfNat 8 th.regmap.toNat ++ bytesOfNat 8 th.h.trappc.toNat ++ bytesOfNat 8 th.h.src.toNat ++
  bytesOfNat 8 th.h.info.toNat ++ bytesOfNat 8 th.h.pend.toNat ++ bytesOfNat 8 th.h.hfaultsrc.toNat ++ bytesOfNat 4 th.h.hstate ++
  bytesOfNat 4 th.h.cause.toNat ++ bytesOfNat 4 th.wdUsed ++ bytesOfNat 4 (if th.plive then 1 else 0) ++ List.replicate 64 0 ++
  (quadsOf th.regmap).flatMap fun q => bytesOfWords (th.regs.xs (BitVec.ofNat 8 (4 * q)) 4)

/-- The quads that hold the declared registers. -/
def allQuads (nregs : Nat) : DWord := BitVec.ofNat 64 (2 ^ ((nregs + 3) / 4) - 1)

/-- The wait that a WAITK names: what the thread's own wait remembers, where the kind is the same. -/
def Wait.ofNum (w : Wait) (k : Nat) : Wait :=
  if w.num = k then w
  else match k with
    | 1 => .memory | 2 => .group | 8 => .task | 9 => .evq | 10 => .fetch | 11 => .preempt | 12 => .popLog
    | _ => .none

/-- What the 128 bytes of a record say of RESUME, the standing set, the state and the wait (Tables 7.2 to 7.5). -/
def Thread.fromWords (th : Thread) (bs : List Byte) : Thread :=
  let tw := fieldAt bs 0x68 4
  let st := fieldAt bs 0x6C 4
  let w := fieldAt bs 0x70 4
  { th with
    pc := BitVec.ofNat 64 (fieldAt bs 0 8), lfree := tw.testBit 19, lsv := tw.testBit 18, livesel := bitsOf tw 10 8
    tb := st.testBit 31, spec := st.testBit 30, whole := st.testBit 29, tile := if st.testBit 15 then some (bitsOf st 0 14) else none
    wait := th.wait.ofNum (bitsOf w 28 4)
    tpend := if w.testBit 21 then some (causeOf (bitsOf w 22 6), match th.tpend with | some (_, i) => i | none => 0) else none
    pend := bitsOf w 16 5, ready := fieldAt bs 0x74 4 }

/-- A record of Table 7.2 as its bytes stand: RESUME, predicates, the saved registers; every other register reads 0 (R130, R403). -/
def Thread.fromRecord (th : Thread) (bs : List Byte) : Thread :=
  let live := ((seqFrom 0 16).map fun i => fieldAt bs (0x50 + i) 1).take th.live.length
  let r : Regs := ((live.zip (seqFrom 0 16)).foldl (fun (r : Regs) q => r.setX q.1 (BitVec.ofNat 32 (fieldAt bs (0x10 + 4 * q.2) 4)))
      { x := List.replicate th.nregs 0, p := BitVec.ofNat 64 (fieldAt bs 8 8) ||| 1, bad := [] })
  let r : Regs := { r with x := r.x.take th.nregs }
  { th.fromWords bs with regs := r, shadow := th.shadow.map fun _ => r, live }

/-- What resuming an extended record reads back from its bytes (Table 19.11). -/
def Thread.fromExtended (th : Thread) (base quads : List Byte) : Thread :=
  let regmap : DWord := BitVec.ofNat 64 (fieldAt base 0x80 8)
  let plive := (fieldAt base 0xBC 4).testBit 0
  let x := (((quadsOf regmap).zip (seqFrom 0 64)).foldl (fun (r : Regs) q =>
      r.setXs (4 * q.1) (wordsOfBytes 4 (quads.drop (16 * q.2)))) { x := List.replicate th.nregs 0, p := 1, bad := [] }).x.take th.nregs
  let p : DWord := if plive then BitVec.ofNat 64 (fieldAt base 8 8) ||| 1 else 1
  let r : Regs := { x, p, bad := [] }
  let hs := fieldAt base 0xB0 4
  { th.fromWords base with
    regs := r, shadow := th.shadow.map fun _ => r, regmap, plive, wdUsed := fieldAt base 0xB8 4
    h := { th.h with trappc := BitVec.ofNat 64 (fieldAt base 0x88 8), src := BitVec.ofNat 64 (fieldAt base 0x90 8)
                     info := BitVec.ofNat 64 (fieldAt base 0x98 8), pend := BitVec.ofNat 64 (fieldAt base 0xA0 8)
                     hfaultsrc := BitVec.ofNat 64 (fieldAt base 0xA8 8), cause := BitVec.ofNat 6 (fieldAt base 0xB4 4)
                     hmode := hs.testBit 31, rung := BitVec.ofNat 2 (bitsOf hs 29 2), via := BitVec.ofNat 2 (bitsOf hs 27 2) } }

/-- Bytes of a saved thread's record. -/
def Thread.saved (th : Thread) : List Byte := if th.ext then th.extended else th.record

/-- A completion reaches a saved record in the save area: its slots, WAIT and READY (R133, R399). -/
def State.syncSaved (s : State) (t : Tid) : State :=
  match s.thread? t with
  | none => s
  | some th =>
    if th.loc = .saved ∧ th.saveAt ≠ 0 then
      let bs := th.saved
      let put (s : State) (off n : Nat) : State := (s.iaWrite (th.saveAt + off) ((bs.drop off).take n)).getD s
      let s := put s 0x70 8
      if th.ext then put s 0x100 (bs.length - 0x100) else put s 0x08 0x48
    else s

/-- The resume address of a saved record follows an outcome (R399, Table 18.9). -/
def State.syncResume (s : State) (t : Tid) : State :=
  match s.thread? t with
  | some th => if th.loc = .saved ∧ th.saveAt ≠ 0 then (s.iaWrite th.saveAt (bytesOfNat 8 th.pc.toNat)).getD s else s
  | none => s

/-! ### The save area -/

/-- The lowest-addressed free run of `n` bytes of CTXSAVE, on a 64-byte boundary (R401). -/
def Ctx.findRun (c : Ctx) (n : Nat) : Option Nat :=
  let lo := bitsOf c.ctxsave.toNat 12 40 * 4096
  let hi := lo + c.ctxsave.toNat % 4096 * 2 ^ 20
  let cands := lo :: c.saveRuns.map fun r => (r.1 + r.2 + 63) / 64 * 64
  (cands.filter fun a => decide (lo ≤ a) && decide (a + n ≤ hi) && c.saveRuns.all fun r => decide (a + n ≤ r.1) || decide (r.1 + r.2 ≤ a)).foldl
    (fun (o : Option Nat) a => match o with
      | none => some a
      | some b => some (min a b)) none

def Ctx.freeRun (c : Ctx) (ia : Nat) : Ctx := { c with saveRuns := c.saveRuns.filter fun r => r.1 != ia }

/-- Writes a block into the save area; `none`: the area is absent or full, or its page cannot be written. -/
def State.saveBytes (s : State) (ctx : Nat) (data : List Byte) : Option (State × Nat) :=
  match s.ctx? ctx with
  | none => none
  | some c =>
    match c.findRun data.length with
    | none => none
    | some a => (s.iaWrite a data).map fun s => (s.modCtx ctx fun c => { c with saveRuns := c.saveRuns ++ [(a, data.length)] }, a)

/-! ### The trap ring (R394) -/

/-- The fields of a ring entry that differ among its kinds (Table 19.8). -/
structure RingBody where
  kind : Nat
  cause : Nat
  from_ : Nat
  xrec : Nat
  fault : List Byte
  grid : Nat
  team : Nat
  thread : Nat

def RingBody.bytes (b : RingBody) (seq : Nat) : List Byte :=
  bytesOfNat 1 b.kind ++ bytesOfNat 1 b.cause ++ bytesOfNat 1 b.from_ ++ [0] ++ bytesOfNat 4 seq ++ bytesOfNat 8 b.xrec ++
  (if b.kind = 2 then b.fault else List.replicate 24 0) ++ bytesOfNat 4 b.grid ++ bytesOfNat 4 b.team ++ bytesOfNat 4 b.thread ++
  List.replicate 12 0

def Ctx.ringEntries (c : Ctx) : Nat := 16 * 2 ^ (c.ctxtrapq.toNat % 16)
def Ctx.ringAddr (c : Ctx) : Nat := bitsOf c.ctxtrapq.toNat 12 40 * 4096 + 64 * (c.ringNext % c.ringEntries)

/-- Posts an entry in ring order; `none`: the next slot is full, or cannot be reached. -/
def State.ringPost (s : State) (ctx : Nat) (b : RingBody) : Option (State × Nat) :=
  match s.ctx? ctx with
  | none => none
  | some c =>
    let ia := c.ringAddr
    match s.iaReadLine ia 64 with
    | none => none
    | some (s, old) =>
      if fieldAt old 0 1 ≠ 0 ∨ c.ring.any (fun r => r.ia == ia) then none
      else (s.iaWriteLine ia (b.bytes (c.ringSeq % 2 ^ 32))).map fun s =>
        (s.modCtx ctx fun c => { c with ringNext := (c.ringNext + 1) % c.ringEntries, ringSeq := c.ringSeq + 1 }, ia)

/-- The scalar thread that serves a context's ring, when it is there and bound to the context. -/
def State.server (s : State) (ctx : Nat) : Option Tid :=
  match s.ctx? ctx with
  | none => none
  | some c =>
    let k := bitsOf c.ctxtrapcore.toNat 0 13
    if c.ctxtrapcore.getLsbD 31 then
      match (s.core k).bind, s.thread? (.scalar k) with
      | some b, some th => if b.ctx = ctx ∧ th.loc ≠ .stopped then some (.scalar k) else none
      | _, _ => none
    else none

/-- CAUSEPEND gains a cause, with its TRAPINFO; one already pending stays as it is. -/
def Handler.hold (h : Handler) (c : Cause) (info : DWord) : Handler :=
  if h.pend.getLsbD c.num then h
  else { h with pend := h.pend ||| 1#64 <<< c.num, infos := (c.num, info) :: h.infos.filter fun x => x.1 != c.num }

def Handler.infoOf (h : Handler) (n : Nat) : DWord :=
  match h.infos.find? fun x => x.1 == n with
  | some (_, i) => i
  | none => 0

/-- TRAP_RING for the serving thread, at the IA of the new entry; a second one while it is pending is not taken. -/
def State.raiseRing (s : State) (ctx ia : Nat) : State :=
  match s.server ctx with
  | none => s
  | some t => s.modThread t fun th => { th with h := th.h.hold .trapRing (BitVec.ofNat 64 ia) }

/-- Whether the context rung serves a cause of a thread of the context (R387). -/
def State.contextServes (s : State) (ctx : Nat) : Bool :=
  (match s.ctx? ctx with
   | some c => c.rungvec2 != 0
   | none => false) && (s.server ctx).isSome

/-- A posted entry that the serving thread is told of. -/
def State.postAndRaise (s : State) (ctx : Nat) (b : RingBody) : Option (State × Nat) :=
  (s.ringPost ctx b).map fun (s, ia) => (s.raiseRing ctx ia, ia)

end Sys2Proof.Machine
end

