-- ==== Sys2Proof/Machine/Ops.lean ====
section
/-! DEFINITION. The shared operations of instructions: taking an exception (R387, R388, R394) and returning from one (R410), ending a segment (R129), the life of a recovery region (Table 20.1), the common checks of every issue (R6, R55 to R57, R61), the Escapement after an issue (R140, R142). -/

namespace Sys2Proof.Machine

open Sys2Proof

/-! ### Small steps -/

def State.modH (s : State) (t : Tid) (f : Handler → Handler) : State := s.modThread t fun th => { th with h := f th.h }

/-- Table 19.1's first rung. -/
def Cause.rung : Cause → Nat
  | .poolFull | .recordLost | .trapRing => 2
  | .dieLost | .saveFault => 3
  | .thermalCritical | .powerFault => 4
  | _ => 0

/-- A thread that has started its line, or needs no target check, needs none when it comes back (R49, R142). -/
def Arrival.again : Arrival → Arrival
  | .checked => .checked
  | _ => .unchecked

/-- FTZ by the instruction or the kernel (R203). -/
def State.ftzd (s : State) (t : Tid) : Bool :=
  match s.kernelOf t with
  | some k => k.ftzd
  | none => false

/-- Whether a pre-emption request covers a thread (R399). -/
def State.covered (s : State) : Tid → Bool
  | .thr c g k _ _ => match s.team? c g k with
    | some tm => tm.preempt
    | none => false
  | .scalar _ => false

/-- A wait given up: its answers are discarded (R406). -/
def State.cancelWaits (s : State) (t : Tid) : State :=
  let mine (h : HeldAcc) : Bool := match h.who with
    | .thread x => x == t
    | _ => false
  { s with
    compl := s.compl.filter fun c => c.t != t
    held := (s.held.filter fun h => !(mine h && (h.op.isRead || h.op.isSubmit))).map fun h => if mine h then { h with who := .thread (ghost t) } else h
    out := (s.out.filter fun o => !(o.t == t && o.op.isSubmit)).map fun o => if o.t = t ∧ (o.op.isRead ∨ o.op.bytes ≠ 0) then { o with late := true } else o
    resWait := s.resWait.filter fun w => match w with
      | .sc x _ _ _ _ | .commit x | .winset x => x != t }

/-! ### Taking an exception -/

/-- The rung that serves a cause whose turn is rung `k` (R387). -/
def State.rungFor (s : State) (th : Thread) (k : Nat) : Nat :=
  if th.isScalar then
    if k ≤ 2 then (match s.ctx? (s.ctxOf th.id) with
      | some c => if c.rungvec2 = 0 then 3 else 2
      | none => 3)
    else k
  else
    let (v0, v1) := match s.teamOf th.id with
      | some tm => (tm.rungvec0, tm.rungvec1)
      | none => (0, 0)
    if k = 0 ∧ v0 ≠ 0 then 0
    else if k ≤ 1 ∧ v1 ≠ 0 then 1
    else if k ≤ 2 then (if s.contextServes (s.ctxOf th.id) then 2 else 3)
    else k

def State.vectorOf (s : State) (th : Thread) (k : Nat) : DWord :=
  match k with
  | 0 => ((s.teamOf th.id).map (·.rungvec0)).getD 0
  | 1 => ((s.teamOf th.id).map (·.rungvec1)).getD 0
  | _ => ((s.ctx? (s.ctxOf th.id)).map (·.rungvec2)).getD 0

/-- Cycles of the service timeout of a rung (Table 19.3). -/
def State.serviceCycles (s : State) (ctx k : Nat) : Nat :=
  match s.ctx? ctx with
  | some c => (getAt 0 c.rungto k).toNat * Config.cyclesPerUs
  | none => 0

/-- TRAPPC, TRAPSRC, HFAULTSRC of an entry from outside handler mode; inside they keep their values (R388). -/
def Handler.enter (h : Handler) (pc src : DWord) : Handler :=
  if h.hmode then h else { h with trappc := pc, src, hfaultsrc := 0, entry := pc }

/-- The thread stops for a rung of the management core (R396, R430). -/
def State.managementRung (s : State) (t : Tid) (k : Nat) (c : Cause) (info : DWord) : State :=
  let s := s.modThread t fun th => { th with hold := true }
  let w : Work :=
    if 4 ≤ k then .module c info
    else match t with
      | .thr ctx g _ _ _ => .partition c info ctx (some g) none none
      | .scalar core => .partition c info (s.ctxOf t) none (some core) none
  { s with work := s.work ++ [w] }

/-- ContextTrap (R394). -/
def State.contextTrap (s : State) (t : Tid) (c : Cause) (info pc src : DWord) (via : Nat) : State :=
  match s.thread? t with
  | none => s
  | some th =>
    let ctx := s.ctxOf t
    let left := if th.h.hmode then th.h.rung.toNat else 3
    let h := { th.h.enter pc src with cause := BitVec.ofNat 6 c.num, info, timer := none }
    let th' : Thread :=
      { th with h, pc := h.trappc, loc := .saved, wait := .none, pend := 0, ext := true, whole := false, live := []
                regmap := allQuads th.nregs, plive := true, hold := false, resv := none, ready := s.ready, stamp := s.cycle, woken := false, guest := false
                wdUsed := if th.loc = .resident then th.wdUsed + (s.cycle - th.wdStart) else th.wdUsed }
    let th' := { th' with tb := s.teamBound th' }
    let s := (s.leaveEntry th.core t).modThread t fun _ => th'
    match s.saveBytes ctx th'.extended with
    | none => { s with work := s.work ++ [.partition .saveFault 0 ctx (some (Tid.gridNum t)) none none] }
    | some (s, ia) =>
      let s := s.modThread t fun th => { th with saveAt := ia }
      match s.postAndRaise ctx
          { kind := 1, cause := c.num, from_ := left + 4 * via, xrec := ia, fault := [], grid := Tid.gridNum t
            team := Tid.teamNum t, thread := th'.word } with
      | none => s.managementRung t 3 c info
      | some (s, e) =>
        s.modCtx ctx fun x => { x with ring := x.ring ++
          [{ ia := e, t := some t, cause := c, info, rung := left, deadline := s.cycle + s.serviceCycles ctx 2 }] }

/-- Deliver (R388), the thread's regions having been dealt with: flag operations complete (R54), the reservation goes (R294), the watchdog restarts (R405). -/
def State.deliverRaw (s : State) (t : Tid) (k : Nat) (c : Cause) (info pc src : DWord) (via : Nat) : State :=
  let s := (s.landAll t).cancelWaits t
  match s.thread? t with
  | none => s
  | some th =>
    let k := s.rungFor th k
    if k ≤ 1 ∨ (k = 2 ∧ th.isScalar = true) then
      let h := { th.h.enter pc src with
        cause := BitVec.ofNat 6 c.num, info, hmode := true, rung := BitVec.ofNat 2 k, via := BitVec.ofNat 2 via
        timer := some (s.cycle + s.serviceCycles (s.ctxOf t) k) }
      let dst := s.vectorOf th k
      s.modThread t fun th =>
        { th.transfer dst true with
          h, resv := none, wdStart := s.cycle, wdUsed := 0, hold := false, wait := .none, woken := false, pend := 0, dest := [], destP := none }
    else if k = 2 then s.contextTrap t c info pc src via
    else s.managementRung t k c info

/-- A cause nested in a handler outside SERVICE mode: held in CAUSEPEND, the handler goes on (R391). -/
def State.nestHeld (s : State) (t : Tid) (c : Cause) (info at_ : DWord) : State :=
  s.modH t fun h => { h.hold c info with hfaultsrc := if h.hfaultsrc = 0 then at_ else h.hfaultsrc }

/-- A cause of the instruction `src` with the regions dealt with: nested in a handler (R391), else delivered. -/
def State.raiseRaw (s : State) (t : Tid) (c : Cause) (info pc src : DWord) : State :=
  match s.thread? t with
  | none => s
  | some th =>
    if th.h.hmode then
      if s.mmode = 0 then
        (s.modH t fun h => { h with hfaultsrc := src }).deliverRaw t (max c.rung (th.h.rung.toNat + 1)) c info th.h.trappc th.h.src 3
      else s.nestHeld t c info src
    else s.deliverRaw t c.rung c info pc src 0

/-! ### Conflicts and detected errors of regions (Table 20.1) -/

def Region.isAhead (r : Region) : Bool := r.ahead.isSome

/-- Every open region closes and what it holds goes. -/
def State.closeRegions (s : State) (t : Tid) : State :=
  { s.modThread t (fun th => { th with regions := [] }) with
    held := s.held.filter fun h => match h.who with
      | .region x _ => x != t
      | _ => true }

def State.logFor (s : State) (t : Tid) (kind action attempt : Nat) (loc : DWord) : State :=
  match s.thread? t with
  | some th => s.logError th.core (s.errEntry th kind action attempt loc)
  | none => s

/-- A commit whose validation fails, at the instruction `inst`; `next` is TRAPPC when the regions are PARTIAL. -/
def State.conflict (s : State) (t : Tid) (inst next : DWord) : State :=
  match s.thread? t with
  | none => s
  | some th =>
    match th.regions.getLast? with
    | none => s
    | some r =>
      if r.partial_ then
        ((s.closeRegions t).logFor t 5 2 r.attempt 0).raiseRaw t .rgnConflict 0 next inst
      else
        match s.rollback t (th.regions.length - 1) with
        | (s, none) => s
        | (s, some r) =>
          if r.attempt < 3 then (s.logFor t 5 1 r.attempt 0).retry t r
          else (s.logFor t 5 2 r.attempt 0).deliverRaw t 0 .rgnConflict 0 r.start inst 0

/-- Commits what the open regions hold, as one commit, and leaves them PARTIAL; `false`: the event at hand does not happen now. -/
def State.settleRegions (s : State) (t : Tid) : State × Bool :=
  match s.thread? t with
  | none => (s, false)
  | some th =>
    if th.regions.isEmpty || th.inRunAhead then (s, true)
    else match s.earlyCommit t with
      | (s, .ok) => (s, true)
      | (s, .wait) => (s, false)
      | (s, .conflict) => (s.conflict t th.pc th.pc, false)

/-- Delivery of a cause; open regions commit early first (R417). -/
def State.deliver (s : State) (t : Tid) (k : Nat) (c : Cause) (info pc src : DWord) (via : Nat) : State :=
  match s.settleRegions t with
  | (s, true) => s.deliverRaw t k c info pc src via
  | (s, false) => s

/-! ### A record's end of life on its core, and run-ahead given up (R379 to R381, R399) -/

/-- A record that becomes SAVED (R399): one that is whole gives up its register block, so it is an extended record. -/
def Thread.toSaved (th : Thread) : Thread :=
  if th.whole then { th with loc := .saved, resv := none, ext := true, regmap := allQuads th.nregs, plive := true, guest := false }
  else { th with loc := .saved, resv := none, guest := false }

/-- Writes the record, or suspends the thread in place; a covered thread's record is SAVED (R399, R147). -/
def State.endSegment (s : State) (t : Tid) (resume : DWord) (live : List Nat) (wait : Wait) (pend : Nat) (dest : List Nat)
    (destP : Option Nat) : State :=
  match s.thread? t with
  | none => s
  | some th =>
    if s.covered t && !th.inPlace then
      let s := s.park t resume live wait (pend + 1) dest destP
      s.modThread t fun x => { x with loc := .saved, pend, ready := if pend = 0 then s.ready else 0 }
    else s.park t resume live wait pend dest destP

/-- Ends a run-ahead: the held writes go, the snapshot returns, every other register reads 0 (R381). -/
def State.discardAhead (s : State) (t : Tid) : State :=
  let s := s.landAll t
  match s.thread? t with
  | none => s
  | some th =>
    match th.regions with
    | [] => s
    | r :: _ =>
      let s := s.undoTiles t r
      let s := { s with held := s.held.filter fun h => match h.who with
        | .region x _ => x != t
        | _ => true }
      let put (x : Regs) : Regs :=
        ({ x := x.x.map fun _ => 0, p := r.preds, bad := [] } : Regs).putAll r.kept []
      s.modThread t fun th => { th with regs := put th.regs, shadow := th.shadow.map put, regions := [], detected := none }

/-- The pool is full where a thread would park until its instance resolves: POOL_FULL in its place, and the context rung holds the thread, which still waits for the outcome (R135, R382; log 50). -/
def State.holdAhead (s : State) (t : Tid) (key : Nat) : State :=
  match s.thread? t with
  | none => s
  | some th =>
    let s := s.deliverRaw t 2 .poolFull 0 (succPc th.pc) th.pc 0
    match s.thread? t with
    | some th => if th.loc = .saved then (s.modThread t fun th => { th with wait := .cbr key, pend := 1, ready := 0 }).syncSaved t else s
    | none => s

/-- Parks a thread whose run-ahead was discarded until its instance resolves (Table 18.9). -/
def State.parkAhead (s : State) (t : Tid) (key : Nat) : State :=
  match s.thread? t with
  | none => s
  | some th =>
    match s.makeRoom th.core with
    | some s => s.endSegment t (succPc th.pc) (s.standing th) (.cbr key) 1 [] none
    | none => s.holdAhead t key

/-- The key of the instance that a thread runs ahead of. -/
def Thread.aheadKey (th : Thread) : Nat :=
  ((th.regions.findSome? fun r => r.ahead.map (·.1))).getD 0

/-- A run-ahead is given up: the thread is a record saved at its arrival that waits for the outcome (Table 18.9). -/
def State.dropAhead (s : State) (t : Tid) : State :=
  match s.thread? t with
  | none => s
  | some th =>
    let key := th.aheadKey
    let start := ((th.regions.head?).map (·.start)).getD th.pc
    let s := (s.discardAhead t).modThread t fun th => { th with pc := start }
    match th.loc with
    | .resident => s.parkAhead t key
    | _ =>
      match s.thread? t with
      | none => s
      | some th =>
        let live := s.standing th
        let s := s.modThread t fun th => { th with pc := succPc start, segpc := start, arr := .checked, whole := false, spec := false, guest := false, live }
        s.modThread t fun th => { th with tb := s.teamBound th }

/-! ### The speculation limit (R380) -/

/-- Makes a whole record of the thread, its room having been found; a covered thread's record is SAVED at once (R399). -/
def State.wholeRecord (s : State) (t : Tid) (wait : Wait) (pend : Nat) (spec : Bool) : State :=
  match s.thread? t with
  | none => s
  | some th =>
    if s.covered t && pend == 0 then
      (s.parkWhole t wait 1 spec th.arr.again).modThread t fun x => { x.toSaved with pend := 0, ready := th.since }
    else
      let s := s.parkWhole t wait pend spec th.arr.again
      if s.covered t then s.modThread t Thread.toSaved else s

/-- The limiting instruction is not performed: the thread parks whole until the branch resolves. Where a pre-emption covers it, or the pool has no room for its registers' record, it gives its run-ahead up and waits as Table 18.9's PARKED does. -/
def State.specLimit (s : State) (t : Tid) : State :=
  match s.thread? t with
  | none => s
  | some th =>
    match s.makeRoom th.core with
    | some s' => if s.covered t then s.dropAhead t else (s'.landAll t).wholeRecord t (.cbr th.aheadKey) 1 true
    | none => s.dropAhead t

/-! ### Trap (R5, R391) -/

/-- Past an abandoned instruction: a line that did not start has still to be started at the successor (R391). -/
def Thread.pass (th : Thread) : Thread := if th.arr = .inLine then th.advance else { th.advance with arr := .fall }

/-- A cause that the instruction at the thread's pc raises; `pc` is TRAPPC. -/
def State.raiseAt (s : State) (t : Tid) (c : Cause) (info pc : DWord) : State :=
  match s.thread? t with
  | none => s
  | some th =>
    if th.inRunAhead then s.specLimit t
    else if th.h.hmode then
      if s.mmode = 0 then
        (s.modH t fun h => { h with hfaultsrc := th.pc }).deliver t (max c.rung (th.h.rung.toNat + 1)) c info th.h.trappc th.h.src 3
      else (s.nestHeld t c info th.pc).modThread t Thread.pass
    else s.deliver t c.rung c info pc th.pc 0

/-- Trap(cause): the instruction is abandoned, and TRET resumes at it. -/
def State.raise (s : State) (t : Tid) (c : Cause) (info : DWord) : State :=
  match s.thread? t with
  | some th => s.raiseAt t c info th.pc
  | none => s

/-- A cause that reaches a thread outside an instruction, for the instruction `src`, with TRAPPC `pc` (Table 19.4). -/
def State.raiseFor (s : State) (t : Tid) (c : Cause) (info pc src : DWord) : State :=
  match s.thread? t with
  | none => s
  | some th =>
    if th.inRunAhead then s.specLimit t
    else if th.h.hmode then
      if s.mmode = 0 then
        (s.modH t fun h => { h with hfaultsrc := src }).deliver t (max c.rung (th.h.rung.toNat + 1)) c info th.h.trappc th.h.src 3
      else s.nestHeld t c info src
    else s.deliver t c.rung c info pc src 0

/-- A cause for a thread wherever it stands: at its next instruction, or at resumption (R273, R324, R397); a record at a join leaves its wait, released or not (R167); a saved record's bytes follow (R399). -/
def State.causeFor (s : State) (t : Tid) (c : Cause) (info : DWord) : State :=
  match s.thread? t with
  | none => s
  | some th =>
    match th.loc with
    | .resident => s.modThread t fun th => { th with next := some (th.next.getD (c, info)) }
    | .stopped => s
    | _ =>
      let s := s.modThread t fun th => { th with tpend := some (th.tpend.getD (c, info)) }
      match th.wait with
      | .join j a =>
        let s := s.modH t fun h => { h with join := some (j, a, th.woken || th.pend == 0) }
        let s := if th.pend = 0 then s else { s with compl := s.compl.filter fun q => q.t != t }.makeReady t
        s.syncSaved t
      | _ => s.syncSaved t

/-! ### Return from an exception (R410, R411) -/

def lowestBit (v : DWord) : Nat := ((seqFrom 0 64).find? fun n => v.getLsbD n).getD 0

/-- Parks a thread again at the join it left for its handler (R167); with the pool full its arrival is taken back and POOL_FULL comes in its place (R135). -/
def State.rejoin (s : State) (t : Tid) (j : Nat) (at_ : DWord) : State :=
  match s.thread? t with
  | none => s
  | some th =>
    match s.makeRoom th.core, t with
    | some s, _ =>
      (s.modThread t fun th => { th with pc := at_ }).endSegment t (succPc at_) (s.standing th) (.join j at_) 1 [] none
    | none, .thr c g k grp _ =>
      (s.modGroup c g k grp fun x => x.setArr j (x.arrOf j &&& ~~~laneBit th.lane)).deliver t 2 .poolFull 0 at_ at_ 0
    | none, .scalar _ => s

/-- TRET. -/
def State.trapReturn (s : State) (t : Tid) : State :=
  match s.thread? t with
  | none => s
  | some th =>
    if !th.h.hmode then s.raise t .handlerState 0
    else if th.h.pend ≠ 0 then
      let n := lowestBit th.h.pend
      let info := th.h.infoOf n
      (s.modH t fun h => { h with pend := h.pend &&& ~~~(1#64 <<< n), infos := h.infos.filter fun x => x.1 != n }).deliver
        t th.h.rung.toNat (causeOf n) info th.h.trappc th.h.src 3
    else
      let s := s.modThread t fun th =>
        { th with h := { th.h with hmode := false, rung := 0, via := 0, timer := none, join := none }, wdStart := s.cycle, wdUsed := 0 }
      match th.h.join with
      | some (_, a, true) => s.modThread t fun th => th.transfer (succPc a) true
      | some (j, a, false) => s.rejoin t j a
      | none => s.modThread t fun x => x.transfer th.h.trappc (th.h.trappc != th.h.entry)

/-- ESC: the cause being served goes one rung up. -/
def State.escalate (s : State) (t : Tid) (via : Nat) : State :=
  match s.thread? t with
  | none => s
  | some th => s.deliver t (th.h.rung.toNat + 1) (causeOf th.h.cause.toNat) th.h.info th.h.trappc th.h.src via

/-! ### Ending a segment (R129) -/

/-- The conditions of a segment end: run-ahead parks at its limit, LIVE_LIMIT, open regions commit early, the pool has room. `true`: the segment may end. -/
def State.segReady (s : State) (t : Tid) (live : List Nat) (checked : Bool) : State × Bool :=
  match s.thread? t with
  | none => (s, false)
  | some th =>
    if th.inRunAhead then (s.specLimit t, false)
    else if checked && !th.inPlace && decide (16 < live.length) then (s.raise t .liveLimit 0, false)
    else match s.settleRegions t with
      | (s, false) => (s, false)
      | (s, true) =>
        if th.inPlace then (s, true)
        else match s.makeRoom th.core with
          | some s => (s, true)
          | none => (s.deliver t 2 .poolFull 0 th.pc th.pc 0, false)

/-- ParkRecord(resume, live), the live set joined to the standing set; `true` when the segment has ended. -/
def State.segEnd (s : State) (t : Tid) (resume : DWord) (extra : List Nat) (wait : Wait) (pend : Nat) (dest : List Nat)
    (destP : Option Nat) : State × Bool :=
  match s.thread? t with
  | none => (s, false)
  | some th =>
    let live := unionRegs (s.standing th) extra
    match s.segReady t live true with
    | (s, true) => (s.endSegment t resume live wait pend dest destP, true)
    | r => r

/-! ### Resident waits -/

/-- The thread stays in its place until an answer comes, and then goes on at the successor. -/
def State.holdAt (s : State) (t : Tid) (w : ResWait) : State :=
  { s.modThread t (fun th => { th.advance with hold := true, segpc := th.pc }) with resWait := s.resWait ++ [w] }

/-! ### Redundant compares (R424, R425) -/

/-- A compared item: `same` says whether the shadow's copy agrees. `true`: it mismatches, and the instruction releases nothing. -/
def State.mismatch (s : State) (t : Tid) (same : Bool) (loc : DWord) : State × Bool :=
  match s.thread? t with
  | none => (s, false)
  | some th =>
    if th.shadow.isNone then (s, false)
    else
      let hit := !same || th.inject == some 0
      if !hit then (s, false)
      else
        let s := s.modThread t fun th => { th with inject := if th.inject = some 0 then none else th.inject }
        if th.inRegion then (s.modThread t fun th => { th with detected := some (.shadowMismatch, loc, 1) }, true)
        else
          let s := (s.logFor t 1 2 0 loc).modThread t fun th => { th with shadow := some th.regs }
          (s.raise t .shadowMismatch 0, true)

/-! ### Emitting an effect at an instruction -/

/-- Emits the effect and then does `k`; at a stall the instruction is tried again; an overflow commits early (R417) or limits run-ahead (R380). -/
def State.emitThen (s : State) (t : Tid) (e : Eff) (k : State → State) : State :=
  match s.emit t e with
  | (s, .done) => k s
  | (s, .stall) => s
  | (s, .overflow) =>
    match s.thread? t with
    | some th => if th.inRunAhead then s.specLimit t else (s.settleRegions t).1
    | none => s

/-! ### The common checks of an issue -/

/-- Instructions that the scalar control thread cannot execute (R122). -/
def scalarIllegal (i : Instr) : Bool :=
  match i with
  | .jset _ _ _ | .jwait _ _ | .jleave _ _ | .cbr _ _ _ _ _ _ _ | .csync _ _ _ | .gbar _ _ _ | .halt _ _ | .mxs _ _ => true
  | _ => i.cls == .mtx

/-- The live list that SEG and FWD name, when its index and count agree. In a kernel of 256 registers the byte after an entry's lower numbers may be X255's own (log 36). -/
def State.liveList (s : State) (t : Tid) (d n : Nat) : Option (List Nat) :=
  match s.kernelOf t with
  | some k => match k.liveEntry d with
    | some l => if l.length = n then some l else if l.length + 1 = n ∧ k.regs = 32 then some (l ++ [255]) else none
    | none => none
  | none => none

/-- The register that REG_RANGE names, if any (R5, R146, R148). -/
def State.rangeBad (s : State) (th : Thread) (i : Instr) : Option Nat :=
  match i.badReg th.nregs with
  | some n => some n
  | none => match i with
    | .seg _ _ d n _ _ | .fwd _ _ d n =>
      match s.liveList th.id d.toNat (n.toNat + 1) with
      | some l => l.find? fun r => decide (th.nregs ≤ r)
      | none => none
    | _ => none

/-- The registers that SEG and FWD read for the record beside their operands (R56, R146, R148). -/
def State.listReads (s : State) (t : Tid) (i : Instr) : List Nat :=
  match i with
  | .seg _ _ d n _ _ | .fwd _ _ d n => (s.liveList t d.toNat (n.toNat + 1)).getD []
  | _ => []

/-- Whether the slot is offered a pair that R56 refuses; one whose second word is no instruction is refused where slot j alone breaks R56 (log 36). -/
def State.badPair (s : State) (th : Thread) (i : Instr) : Bool :=
  let j := pcSlot th.pc
  wordPAIR (lineWord th.line) j &&
  (match decode (lineSlot th.line (j + 1)) with
   | .ok k => !pairLegal i k || meet i.writeSet.1 (s.listReads th.id k)
   | .error _ => i.cls == .ctl && !i.isNop)

/-- What PRIVILEGE names when an instruction needs a privileged thread (R393). -/
def State.needsPriv (s : State) (th : Thread) (i : Instr) : Option Nat :=
  match i with
  | .swr _ _ _ n => if s.swrTraps th n.toNat then some n.toNat else none
  | .winset _ _ _ | .winsetClr _ _ | .ckpt _ _ => if s.privileged th.id then none else some 0
  | _ => none

inductive Entered where
  /-- the thread performs the instruction -/
  | go
  /-- its guard is false -/
  | skip
  /-- a cause or the speculation limit came first -/
  | out
deriving DecidableEq, Repr

/-- One more issue in run-ahead; `none` at the limit of 256 (R380). -/
def Thread.countAhead (th : Thread) (guard : Bool) : Option Thread :=
  if th.inRunAhead then
    let n := (th.regions.findSome? fun r => r.ahead.map (·.2.2.2.2)).getD 0
    if guard && decide (256 ≤ n) then none
    else some { th with regions := th.regions.map fun r => { r with ahead := r.ahead.map fun a => (a.1, a.2.1, a.2.2.1, a.2.2.2.1, n + 1) } }
  else some th

/-- The checks of R6 in their order, for one thread of the issue. -/
def State.enterOne (s : State) (i : Instr) (t : Tid) : State × Entered :=
  match s.thread? t with
  | none => (s, .out)
  | some th =>
    if th.isScalar && scalarIllegal i then (s.raise t .illegalOpcode 0, .out)
    else match s.rangeBad th i with
    | some n => (s.raise t .regRange (BitVec.ofNat 64 n), .out)
    | none =>
      let pair := s.badPair th i
      if pair && s.mmode == 2 then (s.raise t .illegalPair 0, .out)
      else
        let s := if pair then s.modCore th.core fun c => { c with linestat := c.linestat ||| 0x10000 } else s
        let guard := match i.guard? with
          | some g => g.holds th.regs
          | none => false
        match th.countAhead guard with
        | none => (s.specLimit t, .out)
        | some th' =>
          let s := if th.inRunAhead then s.modThread t fun _ => th' else s
          if !guard then (s, .skip)
          else match s.needsPriv th i with
            | some n => (s.raise t .privilege (BitVec.ofNat 64 n), .out)
            | none => (s, .go)

/-- The checks for every thread of an issue: who performs it, and whose guard is false. -/
def State.enterAll (i : Instr) : State → List Tid → State × List Tid × List Tid
  | s, [] => (s, [], [])
  | s, t :: ts =>
    let (s, e) := s.enterOne i t
    let (s, yes, no) := State.enterAll i s ts
    match e with
    | .go => (s, t :: yes, no)
    | .skip => (s, yes, t :: no)
    | .out => (s, yes, no)

/-- One issue of an instruction whose lanes act one by one. -/
def State.run (s : State) (i : Instr) (body : State → Tid → State) : Host.Outcome State Fault Refusal :=
  let (s, yes, no) := State.enterAll i s s.issue
  .next (yes.foldl body (no.foldl State.advance s))

/-- One issue of an instruction whose lanes act together: `body` receives the lanes whose guard is true. -/
def State.runAll (s : State) (i : Instr) (body : State → List Tid → State) : Host.Outcome State Fault Refusal :=
  let (s, yes, no) := State.enterAll i s s.issue
  .next (body (no.foldl State.advance s) yes)

/-! ### Register instructions -/

/-- Writes the results of `f` in the thread and its shadow, and goes on; only the leading thread sets FPX (R205, R425). -/
def State.compute (s : State) (f : Regs → Regs × Fpx) (t : Tid) : State :=
  match s.thread? t with
  | none => s
  | some th =>
    let (r, x) := f th.regs
    let s := s.modThread t fun th => { th.advance with regs := r, shadow := th.shadow.map fun r => (f r).1 }
    if x = 0 then s else s.setFpx t x

/-- A flag-setting operation: its results land when it completes (R50, R51). -/
def State.startOp (s : State) (t : Tid) (fs : Bool) (bound : Nat) (f : Regs → List (Nat × Word) × List (Nat × Bool) × Fpx) : State :=
  s.modThread t fun th =>
    let sel := if fs then wordSETB (lineWord th.line) else wordSETA (lineWord th.line)
    let (xs, ps, x) := f th.regs
    let (xs', ps', _) := match th.shadow with
      | some r => f r
      | none => ([], [], 0)
    { th.advance with ops := th.ops ++
        [{ flag := if sel < 12 then some sel else none, xs, ps, shadowXs := xs', shadowPs := ps', fpx := x, bound := bound }] }

/-! ### The Escapement after an issue (R140, R142) -/

def joinable (ctx grid : Nat) (pc : DWord) (t : Tid) (e : EscEntry) : Bool :=
  e.ctx == ctx && e.grid == grid && e.pc == pc && laneFree e.ts t

/-- A thread that has left its entry joins the oldest entry of its key, a free entry, or is displaced. -/
def State.placeThread (s : State) (core : Nat) (t : Tid) : State :=
  match s.thread? t with
  | none => s
  | some th =>
    let c := Tid.ctxNum t
    let g := Tid.gridNum t
    let es := (s.core core).entries
    match s.oldestEntry es (joinable c g th.pc t) with
    | some k =>
      (s.modCore core fun x => { x with entries := (x.entries.zip (seqFrom 0 x.entries.length)).map fun q =>
          if q.2 = k then { q.1 with ts := q.1.ts ++ [t] } else q.1 }).modThread t fun th => { th with since := s.cycle }
    | none =>
      if es.length < 128 then
        (s.modCore core fun x => { x with entries := x.entries ++ [{ ctx := c, grid := g, pc := th.pc, ts := [t] }] }).modThread t
          fun th => { th with since := s.cycle }
      else match s.makeRoom core with
        | some s => s.wholeRecord t .none 0 false
        | none => s.deliver t 2 .poolFull 0 th.pc th.pc 0

def State.pcIs (s : State) (pc : DWord) (t : Tid) : Bool :=
  match s.thread? t with
  | some th => th.pc == pc
  | none => false

/-- The key an entry keeps: its successor's, when a thread has gone there. -/
def State.entryKey (s : State) (e : EscEntry) : DWord := if e.ts.any (s.pcIs (succPc e.pc)) then succPc e.pc else e.pc

/-- An entry that has stepped to a key where another stands without any of its lanes joins it: the two fuse (R140). -/
def State.fuse (s : State) (core : Nat) (e : EscEntry) : State :=
  let es := (s.core core).entries
  if !es.contains e then s
  else match s.oldestEntry es fun x => x != e && x.ctx == e.ctx && x.grid == e.grid && x.pc == e.pc && e.ts.all (laneFree x.ts) with
  | none => s
  | some k =>
    let both := ((es.zip (seqFrom 0 es.length)).map fun q => if q.2 = k then { q.1 with ts := q.1.ts ++ e.ts } else q.1).filter (· != e)
    e.ts.foldl (fun s t => s.modThread t fun th => { th with since := s.cycle }) (s.modCore core fun c => { c with entries := both })

/-- Every thread of a core's entries stands at its entry's key again. -/
def State.settle (s : State) (core : Nat) : State :=
  let es := (s.core core).entries
  if es.all fun e => e.ts.all (s.pcIs e.pc) then s
  else
    let keyed := es.map fun e => { e with pc := s.entryKey e }
    let movers := sortLanes (keyed.flatMap fun e => e.ts.filter fun t => !s.pcIs e.pc t)
    let kept := (keyed.map fun e => { e with ts := e.ts.filter (s.pcIs e.pc) }).filter fun e => !e.ts.isEmpty
    let s := (kept.filter fun e => !es.any fun x => x.pc == e.pc && e.ts.all x.ts.contains).foldl (fun s e => s.fuse core e)
      (s.modCore core fun c => { c with entries := kept })
    movers.foldl (fun s t => s.placeThread core t) s

def State.settleAll (s : State) : State := (s.cores.map (·.id)).foldl State.settle s

end Sys2Proof.Machine
end

