-- ==== Sys2Proof/Machine/EndGrid.lean ====
section
/-! DEFINITION. Ending a grid (R428), the partition rung (R396), and the boundary at which a thread takes what waits for it (R133, R324, R416). -/

namespace Sys2Proof.Machine

open Sys2Proof

/-- A thread of a grid. -/
def inGrid (c g : Nat) : Tid → Bool
  | .thr c' g' _ _ _ => c' == c && g' == g
  | .scalar _ => false

def SideEnt.isWrite (e : SideEnt) : Bool :=
  match e.op with
  | .write _ | .marker _ => true
  | _ => false

def OutReq.isRequest (o : OutReq) : Bool :=
  match o.op with
  | .ldg _ _ _ _ _ => true
  | op => op.isSubmit

def MailEntry.ofGrid (c g : Nat) : MailEntry → Bool
  | .records _ ts _ => ts.any (inGrid c g)
  | .restore c' g' _ _ => c' == c && g' == g

def StartRef.ofGrid (c g : Nat) : StartRef → Bool
  | .grid c' g' | .restore c' g' _ => c' == c && g' == g

def RingEntry.ofGrid (c g : Nat) (r : RingEntry) : Bool :=
  match r.t with
  | some t => inGrid c g t
  | none => false

def Bin.dropGrid (c g : Nat) (b : Bin) : Bin :=
  { b with places := b.places.filter fun t => !inGrid c g t, overflow := b.overflow.filter fun t => !inGrid c g t }

def EscEntry.dropGrid (c g : Nat) (e : EscEntry) : EscEntry := { e with ts := e.ts.filter fun t => !inGrid c g t }

/-- A core without a grid's threads: its loads go, its writes and fence markers stay to be performed. -/
def Core.dropGrid (c g : Nat) (k : Core) : Core :=
  let k := { k with
    sidelog := k.sidelog.filter fun e => !inGrid c g e.t || e.isWrite
    entries := (k.entries.map (EscEntry.dropGrid c g)).filter fun e => !e.ts.isEmpty
    bins := (k.bins.map (Bin.dropGrid c g)).filter fun b => !(b.places.isEmpty && b.overflow.isEmpty) }
  (k.allocs.filter fun a => a.holders.any (inGrid c g)).foldl Core.freeAlloc k

def Die.dropGrid (c g : Nat) (d : Die) : Die :=
  { d with
    mailbox := d.mailbox.filter fun m => !m.ofGrid c g
    reserve := match d.reserve with
      | some (k, r) => if r.ofGrid c g then none else some (k, r)
      | none => none }

def HeldAcc.keepWithout (c g : Nat) (h : HeldAcc) : Bool :=
  match h.who with
  | .thread t => !(inGrid c g t && (h.op.isRead || h.op.isSubmit))
  | .region t _ => !inGrid c g t
  | _ => true

def ResWait.tid : ResWait → Tid
  | .sc t _ _ _ _ | .commit t | .winset t => t

/-- What a region's commit has still to write, its step performed, was issued before the end point: it goes into the side log (R415, R428). -/
def State.logRest (s : State) (th : Thread) : State :=
  ((th.regions.flatMap (·.rest)).filter fun e => match e with
    | .store _ _ _ | .red _ _ _ _ _ | .stm _ _ _ _ _ => true
    | _ => false).foldl (fun s e => s.pushLog th.core { t := th.id, ia := e.ia, peer := e.peer, op := .write e, held := false }) s

/-- R428. A grid that has ended before stays as it is. -/
def State.endGrid (s : State) (c g status : Nat) : State :=
  match s.grid? c g with
  | none => s
  | some gr =>
    if gr.ended.isSome then s
    else
      let mine := inGrid c g
      let cmds := (s.commands.filter fun q => q.2.ctx == c && q.2.grid == g).map fun q => (q.1, q.2.slot)
      let s := cmds.foldl (fun s q => s.killCommand q.1 q.2 8) s
      let gone := s.threads.filter fun th => mine th.id
      let s := gone.foldl State.logRest s
      let runs := (gone.filter fun th => th.loc == .saved && th.ext).map (·.saveAt) ++
        (s.teams.filter fun tm => tm.ctx == c && tm.grid == g).filterMap fun tm => tm.saved.map (·.1)
      let s := { s with
        threads := s.threads.filter fun th => !mine th.id
        teams := s.teams.filter fun tm => !(tm.ctx == c && tm.grid == g)
        compl := s.compl.filter fun q => !mine q.t
        out := s.out.filter fun o => !(mine o.t && o.isRequest)
        held := s.held.filter (HeldAcc.keepWithout c g)
        resWait := s.resWait.filter fun w => !mine w.tid
        cores := s.cores.map (Core.dropGrid c g)
        dies := s.dies.map (Die.dropGrid c g) }
      let s := s.modCtx c fun x =>
        { x with saveRuns := x.saveRuns.filter fun r => !runs.contains r.1, ring := x.ring.filter fun r => !r.ofGrid c g }
      s.modGrid c g fun gr => { gr with ended := some status, insts := [], mailbox := none }

/-- The scalar thread of a core is unbound and stops (R396). -/
def State.unbind (s : State) (core : Nat) : State :=
  let s := s.cancelWaits (.scalar core)
  (s.modThread (.scalar core) fun th => { th with loc := .stopped, hold := false, regions := [], wait := .none, pend := 0 }).modCore core
    fun k => { k with bind := none }

/-! ### The boundary before an instruction -/

/-- The TRAPINFO of a detected error's own cause (Table 19.1). -/
def errorInfo (c : Cause) (loc : DWord) : DWord := if c = .shadowMismatch then 0 else loc

/-- Acts on a detected error in place of the thread's next instruction (R416, Table 20.1). -/
def State.actDetected (s : State) (t : Tid) (c : Cause) (loc : DWord) (kind : Nat) : State :=
  let s := s.modThread t fun th => { th with detected := none }
  match s.thread? t with
  | none => s
  | some th =>
    match th.regions with
    | [] => (s.logFor t kind 2 0 loc).raiseFor t c (errorInfo c loc) th.pc th.pc
    | r :: _ =>
      if th.inRunAhead then
        let key := th.aheadKey
        (((s.logFor t kind 1 0 loc).discardAhead t).modThread t fun th => { th with pc := r.start }).parkAhead t key
      else if r.partial_ then ((s.closeRegions t).logFor t kind 3 r.attempt loc).raiseRaw t .rgnPartialError 0 th.pc th.pc
      else match s.rollback t 0 with
        | (s, none) => s
        | (s, some r) =>
          if r.attempt < 3 then (s.logFor t kind 1 r.attempt loc).retry t r
          else (s.logFor t kind 2 r.attempt loc).deliver t 0 c (errorInfo c loc) r.start th.pc 0

/-- Whether something waits for a thread at its next instruction boundary. -/
def Thread.due (th : Thread) : Bool :=
  th.loc == .resident && !th.hold &&
  (th.tpend.isSome || th.next.isSome || th.detected.isSome || (!th.h.hmode && th.h.pend != 0))

/-- The cause pending at a resumption; UNCORRECTABLE in a PARTIAL region raises RGN_PARTIAL_ERROR (R418). -/
def State.resumeCause (s : State) (t : Tid) (th : Thread) (c : Cause) (info pc : DWord) : State :=
  match th.regions with
  | r :: _ =>
    if c = .uncorrectable ∧ r.partial_ = true ∧ th.inRunAhead = false then
      ((s.closeRegions t).logFor t 2 3 r.attempt info).raiseRaw t .rgnPartialError 0 pc th.segpc
    else s.raiseFor t c info pc th.segpc
  | [] => s.raiseFor t c info pc th.segpc

/-- The thread takes what waits for it; in run-ahead a detected error ends the run-ahead, and every other cause is the speculation limit and stays (R380). Else: TPEND at resumption, a cause found later, a detected error, the lowest pending cause. -/
def State.attend (s : State) (t : Tid) : State :=
  match s.thread? t with
  | none => s
  | some th =>
    if th.inRunAhead then
      match th.detected with
      | some (c, loc, k) => s.actDetected t c loc k
      | none => s.specLimit t
    else
    match th.tpend, th.next, th.detected with
    | some (c, i), _, _ =>
      (s.modThread t fun th => { th with tpend := none, tpc := none }).resumeCause t th c i (th.tpc.getD th.segpc)
    | none, some (c, i), _ => (s.modThread t fun th => { th with next := none }).raiseFor t c i th.pc th.pc
    | none, none, some (c, loc, k) => s.actDetected t c loc k
    | none, none, none =>
      let n := lowestBit th.h.pend
      let c := causeOf n
      (s.modH t fun h => { h with pend := h.pend &&& ~~~(1#64 <<< n), infos := h.infos.filter fun x => x.1 != n }).deliver
        t c.rung c (th.h.infoOf n) th.pc th.pc 0

end Sys2Proof.Machine
end

