-- ==== Sys2Proof/Machine/Saving.lean ====
section
/-! DEFINITION. What instructions share beyond one thread: the cross-lane sets of an issue (R243), the save of a thread as an extended record (R399, R408), the end of a thread (R164), the commit before an act that cannot be undone (Table 20.1, last rows). -/

namespace Sys2Proof.Machine

open Sys2Proof

/-! ### Sets of an issue -/

/-- Team, group and mode of a thread (R243). -/
def State.setKey (s : State) (t : Tid) (mode : Bool) : Tid × Bool :=
  (match t with
   | .thr c g k grp _ => .thr c g k grp 0
   | x => x,
   mode && (match s.thread? t with
     | some th => th.h.hmode
     | none => false))

def addToSets (k : Tid × Bool) (t : Tid) : List ((Tid × Bool) × List Tid) → List ((Tid × Bool) × List Tid)
  | [] => [(k, [t])]
  | (k', ts) :: rest => if k = k' then (k', ts ++ [t]) :: rest else (k', ts) :: addToSets k t rest

/-- The threads of an issue, split by team and group, and by mode when `mode`. -/
def State.setsOf (s : State) (mode : Bool) (ts : List Tid) : List (List Tid) :=
  (ts.foldl (fun l t => addToSets (s.setKey t mode) t l) []).map (·.2)

/-- The group that a thread belongs to. -/
def groupKey : Tid → Option (Nat × Nat × Nat × Nat)
  | .thr c g k grp _ => some (c, g, k, grp)
  | .scalar _ => none

/-- The registers of the leading thread, or of its shadow. -/
def State.regsOf (s : State) (shadow : Bool) (t : Tid) : Regs :=
  match s.thread? t with
  | some th => if shadow then th.shadow.getD th.regs else th.regs
  | none => { x := [], p := 1, bad := [] }

def State.hasRegion (s : State) (t : Tid) : Bool :=
  match s.thread? t with
  | some th => th.inRegion
  | none => false

def lanesOfTids (ts : List Tid) : Word := lanesWord (ts.map Tid.lane)

/-- Keeps the threads for which `f` answers `true`, with its effects in order. -/
def State.keepIf (f : State → Tid → State × Bool) : State → List Tid → State × List Tid
  | s, [] => (s, [])
  | s, t :: ts =>
    let (s, ok) := f s t
    let (s, rest) := State.keepIf f s ts
    (s, if ok then t :: rest else rest)

/-! ### Ends -/

/-- Every open region commits, innermost first, and closes; `false`: the instruction does not happen now. -/
def State.commitClose (s : State) (t : Tid) : State × Bool :=
  match s.thread? t with
  | none => (s, false)
  | some th =>
    if th.regions.isEmpty then (s, true)
    else match s.settleRegions t with
      | (s, true) => (s.closeRegions t, true)
      | r => r

/-- EndThread: the tile handle is freed, the place is left; the scalar thread stops (R164). -/
def State.endThread (s : State) (t : Tid) : State :=
  let s := (s.landAll t).dropTile t
  match s.thread? t with
  | none => s
  | some th =>
    if th.isScalar then
      s.modThread t fun th => { th with loc := .stopped, hold := false, resv := none, inject := none, regions := [] }
    else (s.leaveEntry th.core t).dropThread t

/-! ### Gangs that are not settled (Table 5.9) -/

def State.gangState (s : State) (t : Tid) : Option GangState := ((s.gridOf t).bind (·.gang)).map (·.state)

/-- A record that waits for its gang's outcome (Table 5.9) has this instance key, which no instance has. -/
def gangKey : Nat := 2 ^ 64

/-- Parks until the gang is settled; the collective then issues again. DESIGN CHOICE: it resumes at the collective itself, an address that R49 does not list, without a target check (log 56). -/
def State.gangPark (s : State) (t : Tid) : State :=
  match s.thread? t with
  | none => s
  | some th =>
    match s.segEnd t th.pc [] (.cbr gangKey) 1 [] none with
    | (s, true) => s.modThread t fun th => { th with arr := .unchecked }
    | (s, false) => s

/-! ### Saving a thread (R399, R400) -/

/-- Resuming a record saved whole is no arrival that R49 checks. -/
def Arrival.unlessChecked : Arrival → Arrival
  | .checked => .unchecked
  | a => a

/-- The thread becomes an extended record that the save engine holds: its flag operations complete, its reservation goes, only the quads of `regmap` stay. -/
def State.saveExtended (s : State) (t : Tid) (resume regmap : DWord) (plive : Bool) (range : Option Nat) (whole : Bool) : State :=
  let s := s.landAll t
  match s.thread? t with
  | none => s
  | some th =>
    let live := (quadsOf regmap).flatMap fun q => seqFrom (4 * q) 4
    let cut (r : Regs) : Regs := { r.keepOnly live with p := if plive then r.p else 1 }
    let s := (s.leaveEntry th.core t).modThread t fun th =>
      { th with
        regs := cut th.regs, shadow := th.shadow.map cut, pc := resume, arr := if whole then th.arr.again.unlessChecked else .checked
        segpc := th.pc, tpc := if whole then some resume else none, loc := .saved, wait := if th.pend = 0 then .preempt else th.wait, woken := th.woken
        guest := false, saveAt := 0, ext := true, whole, regmap, plive, range, live := []
        resv := none, inject := none, ready := s.ready, stamp := s.cycle, hold := th.pend != 0
        wdUsed := if whole then th.wdUsed + (s.cycle - th.wdStart) else 0 }
    s.modThread t fun th => { th with tb := s.teamBound th }

end Sys2Proof.Machine
end

