-- ==== Sys2Proof/Machine/Control.lean ====
section
/-! DEFINITION. Control flow (chapter 08): transfers, joins, EXIT, BRK and TRAP, and HINT (R408). -/

namespace Sys2Proof.Machine

open Sys2Proof

/-! ### Transfers (R150 to R153, R165) -/

def execNop (g : Guard) (s : State) : Host.Outcome State Fault Refusal := s.run (.nop g) State.advance

/-- A transfer computed from the thread, with the registers it writes first. -/
def State.jump (s : State) (t : Tid) (dst : Thread → DWord) (link : Thread → Regs → Regs) : State :=
  s.modThread t fun th => { th.transfer (dst th) true with regs := link th th.regs, shadow := th.shadow.map (link th) }

def execBra (g : Guard) (off : Word) (slot : Slot) (s : State) : Host.Outcome State Fault Refusal :=
  s.run (.bra g off slot) fun s t => s.jump t (fun th => branchTarget th.pc off slot) fun _ r => r

def execBrx (g : Guard) (a : XReg) (s : State) : Host.Outcome State Fault Refusal :=
  s.run (.brx g a) fun s t => s.jump t (fun th => th.regs.x64 a) fun _ r => r

def execCall (g : Guard) (d : XReg) (off : Word) (slot : Slot) (s : State) : Host.Outcome State Fault Refusal :=
  s.run (.call g d off slot) fun s t =>
    s.jump t (fun th => branchTarget th.pc off slot) fun th r => r.set64 d (succPc th.pc)

def execCallx (g : Guard) (d a : XReg) (s : State) : Host.Outcome State Fault Refusal :=
  s.run (.callx g d a) fun s t => s.jump t (fun th => th.regs.x64 a) fun th r => r.set64 d (succPc th.pc)

def execRet (g : Guard) (a : XReg) (s : State) : Host.Outcome State Fault Refusal :=
  s.run (.ret g a) fun s t => s.jump t (fun th => th.regs.x64 a) fun _ r => r

/-! ### Joins (R156 to R162, R170, R171) -/

/-- The value JSET writes (Table 8.2). -/
def jsetValue (v : JVal) (s : State) (shadow : Bool) (ts : List Tid) : Word :=
  match v with
  | .issue => lanesOfTids ts
  | .imm m => m
  | .reg a => match ts with
    | t :: _ => (s.regsOf shadow t).x32 a
    | [] => 0

/-- A join effect of one set: lanes inside a region hold their own part, the others act as one operation (R170). -/
def State.joinAct (s : State) (ts : List Tid) (e : Eff) (act : State → Nat → Nat → Nat → Nat → Word → State) : State :=
  let inside := ts.filter s.hasRegion
  let outside := ts.filter fun t => !s.hasRegion t
  let s := inside.foldl (fun s t => s.emitThen t e fun s => s.advance t) s
  match outside with
  | [] => s
  | t :: _ =>
    match groupKey t with
    | none => s
    | some (c, g, k, grp) => outside.foldl State.advance (act s c g k grp (lanesOfTids outside))

/-- Whether the shadow group issues the instruction with the same set of lanes as the leading group: the guards of the issue's lanes of that group agree (R171). -/
def State.sameSet (s : State) (g : Guard) (ts : List Tid) : Bool :=
  match ts with
  | [] => true
  | t0 :: _ => s.issue.all fun t => groupKey t != groupKey t0 || g.holds (s.regsOf true t) == g.holds (s.regsOf false t)

def execJset (g : Guard) (j : JReg) (v : JVal) (s : State) : Host.Outcome State Fault Refusal :=
  s.runAll (.jset g j v) fun s ts => (s.setsOf false ts).foldl (fun s ts =>
    let w := jsetValue v s false ts
    let same := jsetValue v s true ts == w && s.sameSet g ts
    let (s, ts) := s.keepIf (fun s t => let (s, bad) := s.mismatch t same 0; (s, !bad)) ts
    s.joinAct ts (.jset j.toNat w) fun s c g k grp _ => s.joinSet c g k grp j.toNat w) s

/-- A lane of JWAIT that will arrive: its run-ahead is at its limit, its regions commit early, the shadow's set compares. -/
def State.joinReady (s : State) (same : Bool) (mask : Word) (t : Tid) : State × Bool :=
  match s.thread? t with
  | none => (s, false)
  | some th =>
    if th.inRunAhead then (s.specLimit t, false)
    else
      let (s, bad) := s.mismatch t same 0
      if bad then (s, false)
      else if mask.getLsbD th.lane then s.settleRegions t else (s, true)

/-- A lane of JWAIT parks at the join; with the pool full its arrival is taken back. -/
def State.joinPark (s : State) (n : Nat) (t : Tid) : State :=
  match s.thread? t, groupKey t with
  | some th, some (c, g, k, grp) =>
    match if th.inPlace then some s else s.makeRoom th.core with
    | some s => s.endSegment t (succPc th.pc) (s.standing th) (.join n th.pc) 1 [] none
    | none =>
      (s.modGroup c g k grp fun x => x.setArr n (x.arrOf n &&& ~~~laneBit th.lane)).deliver t 2 .poolFull 0 th.pc th.pc 0
  | _, _ => s

/-- The arrival of one set at JWAIT (R159). -/
def State.joinWait (s : State) (n : Nat) (same : Bool) (ts : List Tid) : State :=
  match ts with
  | [] => s
  | t0 :: _ =>
    match groupKey t0 with
    | none => s
    | some (c, g, k, grp) =>
      let (s, ts) := s.keepIf (fun s t => s.joinReady same ((s.groupOf c g k grp).maskOf n) t) ts
      let isAway (s : State) (t : Tid) : Bool := match s.thread? t with
        | some th => th.core != th.home
        | none => false
      let (s, arrived, sat) := s.joinArrive c g k grp n (lanesOfTids ts)
      let inA := ts.filter fun t => arrived.getLsbD (Tid.lane t)
      if sat then
        let far := inA.filter (isAway s)
        let near := ts.filter fun t => !far.contains t
        let s := far.foldl (fun s t => s.joinPark n t) s
        near.foldl State.advance (s.joinRelease c g k grp n (lanesOfTids near))
      else
        let s := (ts.filter fun t => !arrived.getLsbD (Tid.lane t)).foldl State.advance s
        inA.foldl (fun s t => s.joinPark n t) s

def execJwait (g : Guard) (j : JReg) (s : State) : Host.Outcome State Fault Refusal :=
  s.runAll (.jwait g j) fun s ts => (s.setsOf false ts).foldl (fun s ts => s.joinWait j.toNat (s.sameSet g ts) ts) s

def execJleave (g : Guard) (j : JReg) (s : State) : Host.Outcome State Fault Refusal :=
  s.runAll (.jleave g j) fun s ts => (s.setsOf false ts).foldl (fun s ts =>
    let same := s.sameSet g ts
    let (s, ts) := s.keepIf (fun s t => let (s, bad) := s.mismatch t same 0; (s, !bad)) ts
    s.joinAct ts (.jleave j.toNat) fun s c g k grp w => s.joinLeave c g k grp j.toNat w) s

/-! ### EXIT (R164, R170) -/

/-- Run-ahead parks; open regions commit first. -/
def State.exitReady (s : State) (t : Tid) : State × Bool :=
  match s.thread? t with
  | none => (s, false)
  | some th => if th.inRunAhead then (s.specLimit t, false) else s.commitClose t

def State.exitSet (s : State) (ts : List Tid) : State :=
  let (s, ts) := s.keepIf State.exitReady ts
  match ts with
  | [] => s
  | t :: _ =>
    let s := match groupKey t with
      | some (c, g, k, grp) => s.joinExit c g k grp (lanesOfTids ts)
      | none => s
    ts.foldl State.endThread s

def execExit (g : Guard) (s : State) : Host.Outcome State Fault Refusal :=
  s.runAll (.exit g) fun s ts => (s.setsOf false ts).foldl State.exitSet s

/-! ### BRK, TRAP (R166) -/

def State.softTrap (s : State) (t : Tid) (c : Cause) (code : BitVec 16) : State :=
  match s.thread? t with
  | some th => s.raiseAt t c (code.setWidth 64) (succPc th.pc)
  | none => s

def execBrk (g : Guard) (code : BitVec 16) (s : State) : Host.Outcome State Fault Refusal :=
  s.run (.brk g code) fun s t => s.softTrap t .breakpoint code

def execTrap (g : Guard) (code : BitVec 16) (s : State) : Host.Outcome State Fault Refusal :=
  s.run (.trap g code) fun s t => s.softTrap t .softTrap code

/-! ### HINT (R408) -/

def State.gangAborted (s : State) (t : Tid) : Bool :=
  match (s.gridOf t).bind (·.gang) with
  | some g => g.state == .aborted
  | none => false

def State.hint (s : State) (t : Tid) (plive : Bool) (range : BitVec 8) (regmap : DWord) : State :=
  match s.thread? t with
  | none => s
  | some th =>
    let count := match s.kernelOf t with
      | some k => k.ranges.length
      | none => 0
    if range ≠ 0xFF ∧ count ≤ range.toNat then s.raise t .liveIndex (range.setWidth 64)
    else if s.gangAborted t then s.raise t .gangAbort 0
    else if th.h.hmode || decide (0 < th.depth) || th.isScalar || !s.covered t then s.advance t
    else if th.inRunAhead then s.specLimit t
    else s.saveExtended t (succPc th.pc) regmap plive (if range = 0xFF then none else some range.toNat) false

def execHint (g : Guard) (plive : Bool) (range : BitVec 8) (live : DWord) (s : State) : Host.Outcome State Fault Refusal :=
  s.run (.hint g plive range live) fun s t => s.hint t plive range live

end Sys2Proof.Machine
end

