-- ==== Sys2Proof/Machine/Integer.lean ====
section
/-! DEFINITION. Integer, address and predicate instructions (chapter 09): each writes the registers and predicates its rule names, in the leading thread and its shadow. -/

namespace Sys2Proof.Machine

open Sys2Proof

/-- One 32-bit result. -/
def put32 (d : XReg) (f : Regs → Word) (r : Regs) : Regs × Fpx := (r.set32 d (f r), 0)

/-! ### Addition and subtraction (R178, R179) -/

def iaddWrite (m : AddMode) (d a : XReg) (b : Src) (r : Regs) : Regs × Fpx :=
  let x := r.x32 a
  let y := b.val r
  match m with
  | .wrap => (r.set32 d (x + y), 0)
  | .carry e => ((r.set32 d (x + y)).setP e (addCarry x y false).2, 0)
  | .sat => (r.set32 d (satS32 (x.toInt + y.toInt)), 0)
  | .usat => (r.set32 d (satU32 (x.toNat + y.toNat)), 0)

def isubWrite (m : AddMode) (d a : XReg) (b : Src) (r : Regs) : Regs × Fpx :=
  let x := r.x32 a
  let y := b.val r
  match m with
  | .wrap => (r.set32 d (x - y), 0)
  | .carry e => ((r.set32 d (x - y)).setP e (subBorrow x y false).2, 0)
  | .sat => (r.set32 d (satS32 (x.toInt - y.toInt)), 0)
  | .usat => (r.set32 d (satU32 (x.toNat - y.toNat)), 0)

def iaddcWrite (d a : XReg) (b : Src) (c e : PReg) (r : Regs) : Regs × Fpx :=
  let q := addCarry (r.x32 a) (b.val r) (r.pr c)
  ((r.set32 d q.1).setP e q.2, 0)

def isubbWrite (d a : XReg) (b : Src) (c e : PReg) (r : Regs) : Regs × Fpx :=
  let q := subBorrow (r.x32 a) (b.val r) (r.pr c)
  ((r.set32 d q.1).setP e q.2, 0)

/-! ### Moves, addresses, predicates (R190 to R194) -/

def movWrite (d : XReg) (f : MovForm) (r : Regs) : Regs × Fpx :=
  match f with
  | .reg a => (r.set32 d (r.x32 a), 0)
  | .imm v => (r.set32 d v, 0)
  | .reg64 a => (r.set64 d (r.x64 a), 0)
  | .imm64 v => (r.set64 d (v.signExtend 64), 0)

def leaWrite (w32 u : Bool) (d a b : XReg) (shift : BitVec 3) (off : Word) (r : Regs) : Regs × Fpx :=
  let idx : Int := if u then (r.x32 b).toNat else (r.x32 b).toInt
  if w32 then (r.set32 d (BitVec.ofInt 32 (leaRes (r.x32 a).toNat idx shift.toNat off)), 0)
  else (r.set64 d (BitVec.ofInt 64 (leaRes (r.x64 a).toNat idx shift.toNat off)), 0)

def plopWrite (tab : BitVec 8) (d a b c : PReg) (r : Regs) : Regs × Fpx :=
  (r.setP d (tab.getLsbD (4 * (r.pr a).toNat + 2 * (r.pr b).toNat + (r.pr c).toNat)), 0)

/-- The half of the predicates that H names, bit 0 of the low half reading 1. -/
def p2xVal (h : Bool) (r : Regs) : Word :=
  if h then (r.p >>> 32).setWidth 32 else r.p.setWidth 32 ||| 1

def x2pWrite (h : Bool) (a : XReg) (mask : Word) (r : Regs) : Regs × Fpx :=
  let v := r.x32 a
  let m : DWord := if h then mask.setWidth 64 <<< 32 else mask.setWidth 64 &&& ~~~1
  let w : DWord := if h then v.setWidth 64 <<< 32 else v.setWidth 64
  ({ r with p := (r.p &&& ~~~m) ||| (w &&& m) }, 0)

def psetVal (f : PsetForm) (r : Regs) : Bool :=
  match f with
  | .imm b => b
  | .nz a => r.x32 a != 0
  | .bit a i => (r.x32 a).getLsbD i.toNat

def isetpWrite (u : Bool) (fold : Fold) (cond : Cond) (d : PReg) (a : XReg) (b : Src) (e : PReg) (r : Regs) : Regs × Fpx :=
  let x := r.x32 a
  let y := b.val r
  let k := if u then condTest cond x.toNat y.toNat else condTest cond x.toInt y.toInt
  (foldWrite fold k r d e, 0)

/-! ### The instructions -/

def execIadd (g : Guard) (m : AddMode) (d a : XReg) (b : Src) (s : State) : Host.Outcome State Fault Refusal :=
  s.run (.iadd g m d a b) fun s t => s.compute (iaddWrite m d a b) t

def execIsub (g : Guard) (m : AddMode) (d a : XReg) (b : Src) (s : State) : Host.Outcome State Fault Refusal :=
  s.run (.isub g m d a b) fun s t => s.compute (isubWrite m d a b) t

def execIaddc (g : Guard) (d a : XReg) (b : Src) (c e : PReg) (s : State) : Host.Outcome State Fault Refusal :=
  s.run (.iaddc g d a b c e) fun s t => s.compute (iaddcWrite d a b c e) t

def execIsubb (g : Guard) (d a : XReg) (b : Src) (c e : PReg) (s : State) : Host.Outcome State Fault Refusal :=
  s.run (.isubb g d a b c e) fun s t => s.compute (isubbWrite d a b c e) t

def execImul (g : Guard) (d a : XReg) (b : Src) (s : State) : Host.Outcome State Fault Refusal :=
  s.run (.imul g d a b) fun s t => s.compute (put32 d fun r => r.x32 a * b.val r) t

def execImulh (g : Guard) (sg : Sign) (d a : XReg) (b : Src) (s : State) : Host.Outcome State Fault Refusal :=
  s.run (.imulh g sg d a b) fun s t => s.compute (put32 d fun r => imulhRes sg (r.x32 a) (b.val r)) t

def execImad (g : Guard) (d a : XReg) (b : Src) (c : XReg) (s : State) : Host.Outcome State Fault Refusal :=
  s.run (.imad g d a b c) fun s t => s.compute (put32 d fun r => r.x32 a * b.val r + r.x32 c) t

def execImadw (g : Guard) (sg : Sign) (d a : XReg) (b : Src) (c : XReg) (s : State) : Host.Outcome State Fault Refusal :=
  s.run (.imadw g sg d a b c) fun s t => s.compute (fun r => (r.set64 d (imadwRes sg (r.x32 a) (b.val r) (r.x64 c)), 0)) t

/-- IDIV: a flag-setting operation, 48 cycles (R181, Table 3.7). -/
def execIdiv (g : Guard) (fs : Bool) (sg : Sign) (d a : XReg) (b : Src) (s : State) : Host.Outcome State Fault Refusal :=
  s.run (.idiv g fs sg d a b) fun s t => s.startOp t fs 48 fun r =>
    ([(d.toNat, BitVec.ofInt 32 (divRes sg (r.x32 a) (b.val r)).1)], [], 0)

/-- IREM: a flag-setting operation, 48 cycles (R181, Table 3.7). -/
def execIrem (g : Guard) (fs : Bool) (sg : Sign) (d a : XReg) (b : Src) (s : State) : Host.Outcome State Fault Refusal :=
  s.run (.irem g fs sg d a b) fun s t => s.startOp t fs 48 fun r =>
    ([(d.toNat, BitVec.ofInt 32 (divRes sg (r.x32 a) (b.val r)).2)], [], 0)

def execImin (g : Guard) (sg : Sign) (d a : XReg) (b : Src) (s : State) : Host.Outcome State Fault Refusal :=
  s.run (.imin g sg d a b) fun s t => s.compute (put32 d fun r => iminRes sg (r.x32 a) (b.val r)) t

def execImax (g : Guard) (sg : Sign) (d a : XReg) (b : Src) (s : State) : Host.Outcome State Fault Refusal :=
  s.run (.imax g sg d a b) fun s t => s.compute (put32 d fun r => imaxRes sg (r.x32 a) (b.val r)) t

def execIabs (g : Guard) (sat : Bool) (d a : XReg) (s : State) : Host.Outcome State Fault Refusal :=
  s.run (.iabs g sat d a) fun s t => s.compute (put32 d fun r => iabsRes sat (r.x32 a)) t

def execAnd (g : Guard) (d a : XReg) (b : Src) (s : State) : Host.Outcome State Fault Refusal :=
  s.run (.and g d a b) fun s t => s.compute (put32 d fun r => r.x32 a &&& b.val r) t

def execOr (g : Guard) (d a : XReg) (b : Src) (s : State) : Host.Outcome State Fault Refusal :=
  s.run (.or g d a b) fun s t => s.compute (put32 d fun r => r.x32 a ||| b.val r) t

def execXor (g : Guard) (d a : XReg) (b : Src) (s : State) : Host.Outcome State Fault Refusal :=
  s.run (.xor g d a b) fun s t => s.compute (put32 d fun r => r.x32 a ^^^ b.val r) t

def execAndn (g : Guard) (d a : XReg) (b : Src) (s : State) : Host.Outcome State Fault Refusal :=
  s.run (.andn g d a b) fun s t => s.compute (put32 d fun r => r.x32 a &&& ~~~(b.val r)) t

def execNot (g : Guard) (d a : XReg) (s : State) : Host.Outcome State Fault Refusal :=
  s.run (.not g d a) fun s t => s.compute (put32 d fun r => ~~~(r.x32 a)) t

def execShl (g : Guard) (wrap : Bool) (d a : XReg) (b : Src) (s : State) : Host.Outcome State Fault Refusal :=
  s.run (.shl g wrap d a b) fun s t => s.compute (put32 d fun r => shlRes wrap (r.x32 a) (b.val r)) t

def execShr (g : Guard) (wrap : Bool) (d a : XReg) (b : Src) (s : State) : Host.Outcome State Fault Refusal :=
  s.run (.shr g wrap d a b) fun s t => s.compute (put32 d fun r => shrRes wrap (r.x32 a) (b.val r)) t

def execSar (g : Guard) (wrap : Bool) (d a : XReg) (b : Src) (s : State) : Host.Outcome State Fault Refusal :=
  s.run (.sar g wrap d a b) fun s t => s.compute (put32 d fun r => sarRes wrap (r.x32 a) (b.val r)) t

def execRotl (g : Guard) (d a : XReg) (b : Src) (s : State) : Host.Outcome State Fault Refusal :=
  s.run (.rotl g d a b) fun s t => s.compute (put32 d fun r => rotlRes (r.x32 a) (b.val r)) t

def execFunnel (g : Guard) (wrap right : Bool) (d a b : XReg) (c : Src) (s : State) : Host.Outcome State Fault Refusal :=
  s.run (.funnel g wrap right d a b c) fun s t => s.compute (put32 d fun r => funnelRes wrap right (r.x32 a) (r.x32 b) (c.val r)) t

def execClz (g : Guard) (sg : Bool) (d a : XReg) (s : State) : Host.Outcome State Fault Refusal :=
  s.run (.clz g sg d a) fun s t => s.compute (put32 d fun r => clzRes sg (r.x32 a)) t

def execPopc (g : Guard) (d a : XReg) (s : State) : Host.Outcome State Fault Refusal :=
  s.run (.popc g d a) fun s t => s.compute (put32 d fun r => BitVec.ofNat 32 (popCount (r.x32 a).toNat 32)) t

def execBrev (g : Guard) (d a : XReg) (s : State) : Host.Outcome State Fault Refusal :=
  s.run (.brev g d a) fun s t => s.compute (put32 d fun r => brevRes (r.x32 a)) t

def execBfx (g : Guard) (sg : Bool) (d a : XReg) (b : Src) (s : State) : Host.Outcome State Fault Refusal :=
  s.run (.bfx g sg d a b) fun s t => s.compute (put32 d fun r => bfxRes sg (r.x32 a) (b.val r)) t

def execBfi (g : Guard) (d a : XReg) (b : Src) (c : XReg) (s : State) : Host.Outcome State Fault Refusal :=
  s.run (.bfi g d a b c) fun s t => s.compute (put32 d fun r => bfiRes (r.x32 a) (b.val r) (r.x32 c)) t

def execIsetp (g : Guard) (u : Bool) (fold : Fold) (cond : Cond) (d : PReg) (a : XReg) (b : Src) (e : PReg) (s : State) : Host.Outcome State Fault Refusal :=
  s.run (.isetp g u fold cond d a b e) fun s t => s.compute (isetpWrite u fold cond d a b e) t

def execSel (g : Guard) (d a : XReg) (b : Src) (c : PReg) (s : State) : Host.Outcome State Fault Refusal :=
  s.run (.sel g d a b c) fun s t => s.compute (put32 d fun r => if r.pr c then r.x32 a else b.val r) t

def execMov (g : Guard) (d : XReg) (f : MovForm) (s : State) : Host.Outcome State Fault Refusal :=
  s.run (.mov g d f) fun s t => s.compute (movWrite d f) t

def execLea (g : Guard) (w32 u : Bool) (d a b : XReg) (shift : BitVec 3) (off : Word) (s : State) : Host.Outcome State Fault Refusal :=
  s.run (.lea g w32 u d a b shift off) fun s t => s.compute (leaWrite w32 u d a b shift off) t

def execPlop (g : Guard) (tab : BitVec 8) (d a b c : PReg) (s : State) : Host.Outcome State Fault Refusal :=
  s.run (.plop g tab d a b c) fun s t => s.compute (plopWrite tab d a b c) t

def execP2x (g : Guard) (h : Bool) (d : XReg) (s : State) : Host.Outcome State Fault Refusal :=
  s.run (.p2x g h d) fun s t => s.compute (put32 d (p2xVal h)) t

def execX2p (g : Guard) (h : Bool) (a : XReg) (mask : Word) (s : State) : Host.Outcome State Fault Refusal :=
  s.run (.x2p g h a mask) fun s t => s.compute (x2pWrite h a mask) t

def execPset (g : Guard) (d : PReg) (f : PsetForm) (s : State) : Host.Outcome State Fault Refusal :=
  s.run (.pset g d f) fun s t => s.compute (fun r => (r.setP d (psetVal f r), 0)) t

end Sys2Proof.Machine
end

