-- ==== Sys2Proof/Machine/FloatArith.lean ====
section
/-! DEFINITION. Floating-point arithmetic and comparison (chapter 11): each result rounded once, FTZ by the instruction or by the kernel (R203), FPX bits sticky (R205). -/

namespace Sys2Proof.Machine

open Sys2Proof

/-- One 32-bit result with its FPX bits. -/
def putF (d : XReg) (f : Regs → FRes) (r : Regs) : Regs × Fpx := (r.set32 d (f r).1, (f r).2)

def fsetpWrite (ftz : Bool) (fold : Fold) (cond : FCond) (d : PReg) (a : XReg) (b : Src) (e : PReg) (r : Regs) : Regs × Fpx :=
  let k := fcondTest cond (read32 ftz (r.x32 a)) (read32 ftz (b.val r))
  (foldWrite fold k.1 r d e, k.2)

/-- Both elements are compared before either predicate is written (R231). -/
def pksetpWrite (bf : Bool) (cond : FCond) (d : PReg) (a : XReg) (b : Src) (e : PReg) (r : Regs) : Regs × Fpx :=
  let at_ (k : Nat) := fcondTest cond ((pkFmt bf).read (half (r.x32 a) k)) ((pkFmt bf).read (half (b.val r) k))
  ((r.setP d (at_ 0).1).setP e (at_ 1).1, (at_ 0).2 ||| (at_ 1).2)

/-- A format slot of the thread's grid (R42, R122). -/
def State.slotOf (s : State) (t : Tid) (k : FSlot) : Word :=
  match s.gridOf t with
  | some g => getAt 0 g.record.fslots k.toNat
  | none => 0

/-- A special function: a flag-setting operation (Table 11.1). -/
def State.special (s : State) (t : Tid) (fs ftz : Bool) (bound : Nat) (f : FVal → FVal × Fpx) (rm : RM) (d a : XReg) : State :=
  let z := ftz || s.ftzd t
  s.startOp t fs bound fun r => let q := special32 f rm z (r.x32 a); ([(d.toNat, q.1)], [], q.2)

/-! ### The instructions -/

def execFadd (g : Guard) (ftz : Bool) (rm : RM) (d a : XReg) (b : Src) (s : State) : Host.Outcome State Fault Refusal :=
  s.run (.fadd g ftz rm d a b) fun s t => s.compute (putF d fun r => fadd32 rm (ftz || s.ftzd t) (r.x32 a) (b.val r)) t

def execFsub (g : Guard) (ftz : Bool) (rm : RM) (d a : XReg) (b : Src) (s : State) : Host.Outcome State Fault Refusal :=
  s.run (.fsub g ftz rm d a b) fun s t => s.compute (putF d fun r => fsub32 rm (ftz || s.ftzd t) (r.x32 a) (b.val r)) t

def execFmul (g : Guard) (ftz : Bool) (rm : RM) (d a : XReg) (b : Src) (s : State) : Host.Outcome State Fault Refusal :=
  s.run (.fmul g ftz rm d a b) fun s t => s.compute (putF d fun r => fmul32 rm (ftz || s.ftzd t) (r.x32 a) (b.val r)) t

def execFfma (g : Guard) (ftz : Bool) (rm : RM) (d a : XReg) (b : Src) (c : XReg) (s : State) : Host.Outcome State Fault Refusal :=
  s.run (.ffma g ftz rm d a b c) fun s t => s.compute (putF d fun r => ffma32 rm (ftz || s.ftzd t) (r.x32 a) (b.val r) (r.x32 c)) t

def execFmin (g : Guard) (ftz : Bool) (d a : XReg) (b : Src) (s : State) : Host.Outcome State Fault Refusal :=
  s.run (.fmin g ftz d a b) fun s t => s.compute (putF d fun r => fmm32 (ftz || s.ftzd t) false (r.x32 a) (b.val r)) t

def execFmax (g : Guard) (ftz : Bool) (d a : XReg) (b : Src) (s : State) : Host.Outcome State Fault Refusal :=
  s.run (.fmax g ftz d a b) fun s t => s.compute (putF d fun r => fmm32 (ftz || s.ftzd t) true (r.x32 a) (b.val r)) t

def execFsetp (g : Guard) (ftz : Bool) (fold : Fold) (cond : FCond) (d : PReg) (a : XReg) (b : Src) (e : PReg) (s : State) : Host.Outcome State Fault Refusal :=
  s.run (.fsetp g ftz fold cond d a b e) fun s t => s.compute (fsetpWrite (ftz || s.ftzd t) fold cond d a b e) t

def execFclass (g : Guard) (src : FSrc) (d a : XReg) (s : State) : Host.Outcome State Fault Refusal :=
  s.run (.fclass g src d a) fun s t => s.compute (put32 d fun r => fclass32 src (r.x32 a)) t

def execFrcp (g : Guard) (fs ftz : Bool) (rm : RM) (d a : XReg) (s : State) : Host.Outcome State Fault Refusal :=
  s.run (.frcp g fs ftz rm d a) fun s t => s.special t fs ftz 24 rcpVal rm d a

def execFrsq (g : Guard) (fs ftz : Bool) (rm : RM) (d a : XReg) (s : State) : Host.Outcome State Fault Refusal :=
  s.run (.frsq g fs ftz rm d a) fun s t => s.special t fs ftz 24 rsqVal rm d a

def execFsqrt (g : Guard) (fs ftz : Bool) (rm : RM) (d a : XReg) (s : State) : Host.Outcome State Fault Refusal :=
  s.run (.fsqrt g fs ftz rm d a) fun s t => s.special t fs ftz 24 sqrtVal rm d a

def execFexp2 (g : Guard) (fs ftz : Bool) (rm : RM) (d a : XReg) (s : State) : Host.Outcome State Fault Refusal :=
  s.run (.fexp2 g fs ftz rm d a) fun s t => s.special t fs ftz 24 exp2Val rm d a

def execFlog2 (g : Guard) (fs ftz : Bool) (rm : RM) (d a : XReg) (s : State) : Host.Outcome State Fault Refusal :=
  s.run (.flog2 g fs ftz rm d a) fun s t => s.special t fs ftz 24 log2Val rm d a

def execFsin (g : Guard) (fs ftz : Bool) (rm : RM) (d a : XReg) (s : State) : Host.Outcome State Fault Refusal :=
  s.run (.fsin g fs ftz rm d a) fun s t => s.special t fs ftz 32 sinVal rm d a

def execFcos (g : Guard) (fs ftz : Bool) (rm : RM) (d a : XReg) (s : State) : Host.Outcome State Fault Refusal :=
  s.run (.fcos g fs ftz rm d a) fun s t => s.special t fs ftz 32 cosVal rm d a

def execFdiv (g : Guard) (fs ftz : Bool) (rm : RM) (d a : XReg) (b : Src) (s : State) : Host.Outcome State Fault Refusal :=
  s.run (.fdiv g fs ftz rm d a b) fun s t => 
    let z := ftz || s.ftzd t
    s.startOp t fs 40 fun r => let q := fdiv32 rm z (r.x32 a) (b.val r); ([(d.toNat, q.1)], [], q.2)

def execPkadd (g : Guard) (bf : Bool) (rm : RM) (d a : XReg) (b : Src) (s : State) : Host.Outcome State Fault Refusal :=
  s.run (.pkadd g bf rm d a b) fun s t => s.compute (putF d fun r => pkadd32 bf rm (r.x32 a) (b.val r)) t

def execPkmul (g : Guard) (bf : Bool) (rm : RM) (d a : XReg) (b : Src) (s : State) : Host.Outcome State Fault Refusal :=
  s.run (.pkmul g bf rm d a b) fun s t => s.compute (putF d fun r => pkmul32 bf rm (r.x32 a) (b.val r)) t

def execPkfma (g : Guard) (bf : Bool) (rm : RM) (d a : XReg) (b : Src) (c : XReg) (s : State) : Host.Outcome State Fault Refusal :=
  s.run (.pkfma g bf rm d a b c) fun s t => s.compute (putF d fun r => pkfma32 bf rm (r.x32 a) (b.val r) (r.x32 c)) t

def execPkmin (g : Guard) (bf : Bool) (d a : XReg) (b : Src) (s : State) : Host.Outcome State Fault Refusal :=
  s.run (.pkmin g bf d a b) fun s t => s.compute (putF d fun r => pkmm32 bf false (r.x32 a) (b.val r)) t

def execPkmax (g : Guard) (bf : Bool) (d a : XReg) (b : Src) (s : State) : Host.Outcome State Fault Refusal :=
  s.run (.pkmax g bf d a b) fun s t => s.compute (putF d fun r => pkmm32 bf true (r.x32 a) (b.val r)) t

def execPksetp (g : Guard) (bf : Bool) (cond : FCond) (d : PReg) (a : XReg) (b : Src) (e : PReg) (s : State) : Host.Outcome State Fault Refusal :=
  s.run (.pksetp g bf cond d a b e) fun s t => s.compute (pksetpWrite bf cond d a b e) t

def execFscale (g : Guard) (ftz : Bool) (rm : RM) (d a : XReg) (b : Src) (s : State) : Host.Outcome State Fault Refusal :=
  s.run (.fscale g ftz rm d a b) fun s t => s.compute
    (putF d fun r => scale32 rm (ftz || s.ftzd t) (read32 (ftz || s.ftzd t) (r.x32 a)) (clampInt (-600) 600 (b.val r).toInt)) t

def execFrnd (g : Guard) (ftz : Bool) (rm : RM) (d a : XReg) (s : State) : Host.Outcome State Fault Refusal :=
  s.run (.frnd g ftz rm d a) fun s t => s.compute (putF d fun r => frnd32 rm (ftz || s.ftzd t) (r.x32 a)) t

def execDot2 (g : Guard) (bf ftz : Bool) (rm : RM) (d a : XReg) (b : Src) (c : XReg) (s : State) : Host.Outcome State Fault Refusal :=
  s.run (.dot2 g bf ftz rm d a b c) fun s t => s.compute (putF d fun r => dot32 bf rm (ftz || s.ftzd t) (r.x32 a) (b.val r) (r.x32 c)) t

def execFmtrd (g : Guard) (d : XReg) (k : FSlot) (s : State) : Host.Outcome State Fault Refusal :=
  s.run (.fmtrd g d k) fun s t => s.compute (put32 d fun _ => s.slotOf t k) t

end Sys2Proof.Machine
end

