-- ==== Sys2Proof/Machine/Convert.lean ====
section
/-! DEFINITION. Conversions between formats (chapter 11): single values, packed groups, shared-scale blocks (R234 to R242). -/

namespace Sys2Proof.Machine

open Sys2Proof

def unpacknWrite (fmt : NFmt) (d a : XReg) (r : Regs) : Regs × Fpx :=
  let q := unpacknRes fmt (r.x32 a)
  (r.setXs d.toNat q.1, q.2)

/-- The sources of PACKN: a and b, or the four registers from A (R237). -/
def packnSources (fmt : NFmt) (a b : XReg) (r : Regs) : List Word :=
  if fmt.wide then [r.x32 a, r.x32 b] else r.xs a 4

/-- QBLK: codes to D, the side word to Xc (R240). -/
def qblkWrite (slot : Word) (ftz : Bool) (src : IFmt) (d a c : XReg) (r : Regs) : Regs × Fpx :=
  let (codes, side, x) := quantise (slotSpec slot) (blockSources src ftz (r.xs a (if isFmt32 src then 32 else 16)))
  ((r.setXs d.toNat (packCodes 4 codes)).set32 c (BitVec.ofNat 32 side), x)

def dqblkWrite (slot : Word) (ftz : Bool) (dst : IFmt) (d a c : XReg) (r : Regs) : Regs × Fpx :=
  let q := dequantise (slotSpec slot) ftz dst (r.xs a 4) (r.x32 c)
  (r.setXs d.toNat q.1, q.2)

/-- FORMAT_SLOT unless the slot's descriptor is a block of E2M1 (R240). -/
def State.withBlock (s : State) (t : Tid) (k : FSlot) (f : Word → Regs → Regs × Fpx) : State :=
  let w := s.slotOf t k
  if slotE2m1 w then s.compute (f w) t else s.raise t .formatSlot (k.setWidth 64)

def i2iWrite (sat uin : Bool) (tg : ITarget) (d a : XReg) (r : Regs) : Regs × Fpx :=
  let q := i2iRes sat uin tg (r.x32 a)
  (r.set32 d q.1, if q.2 then fpxSAT ||| fpxNX else 0)

/-! ### The instructions -/

def execF2i (g : Guard) (ftz u : Bool) (src : FSrc) (rm : RM) (d a : XReg) (s : State) : Host.Outcome State Fault Refusal :=
  s.run (.f2i g ftz u src rm d a) fun s t => s.compute (putF d fun r => f2iRes (ftz || s.ftzd t) u src rm (r.x32 a)) t

def execI2f (g : Guard) (u : Bool) (dst : IFmt) (rm : RM) (d a : XReg) (s : State) : Host.Outcome State Fault Refusal :=
  s.run (.i2f g u dst rm d a) fun s t => s.compute (putF d fun r => i2fRes u dst rm (r.x32 a)) t

def execF2f (g : Guard) (ftz : Bool) (dst : IFmt) (src : FSrc) (rm : RM) (d a : XReg) (s : State) : Host.Outcome State Fault Refusal :=
  s.run (.f2f g ftz dst src rm d a) fun s t => s.compute (putF d fun r => f2fRes (ftz || s.ftzd t) dst src rm (r.x32 a)) t

def execPackn (g : Guard) (ftz : Bool) (fmt : NFmt) (rm : RM) (d a b : XReg) (s : State) : Host.Outcome State Fault Refusal :=
  s.run (.packn g ftz fmt rm d a b) fun s t => s.compute (putF d fun r => packnRes (ftz || s.ftzd t) fmt rm (packnSources fmt a b r)) t

def execUnpackn (g : Guard) (fmt : NFmt) (d a : XReg) (s : State) : Host.Outcome State Fault Refusal :=
  s.run (.unpackn g fmt d a) fun s t => s.compute (unpacknWrite fmt d a) t

def execBscale (g : Guard) (inv ftz : Bool) (rm : RM) (d a b : XReg) (k : BitVec 2) (s : State) : Host.Outcome State Fault Refusal :=
  s.run (.bscale g inv ftz rm d a b k) fun s t => s.compute (putF d fun r => bscaleRes inv (ftz || s.ftzd t) rm (r.x32 a) (r.x32 b) k.toNat) t

def execQblk (g : Guard) (ftz : Bool) (src : IFmt) (d a c : XReg) (k : FSlot) (s : State) : Host.Outcome State Fault Refusal :=
  s.run (.qblk g ftz src d a c k) fun s t => s.withBlock t k fun w => qblkWrite w (ftz || s.ftzd t) src d a c

def execDqblk (g : Guard) (ftz : Bool) (dst : IFmt) (d a c : XReg) (k : FSlot) (s : State) : Host.Outcome State Fault Refusal :=
  s.run (.dqblk g ftz dst d a c k) fun s t => s.withBlock t k fun w => dqblkWrite w (ftz || s.ftzd t) dst d a c

def execI2i (g : Guard) (sat uin : Bool) (tg : ITarget) (d a : XReg) (s : State) : Host.Outcome State Fault Refusal :=
  s.run (.i2i g sat uin tg d a) fun s t => s.compute (i2iWrite sat uin tg d a) t

end Sys2Proof.Machine
end

