-- ==== Sys2Proof/Machine/CrossLane.lean ====
section
/-! DEFINITION. Cross-lane instructions (chapter 12): each set of an issue performs one operation on registers read before any write (R243, R245). -/

namespace Sys2Proof.Machine

open Sys2Proof

/-- A set's participants: lane and registers. -/
abbrev Parts := List (Nat × Regs)

def Parts.reg (p : Parts) (l : Nat) (a : XReg) : Option Word := (p.find? fun q => q.1 == l).map fun q => q.2.x32 a
def Parts.mask (p : Parts) : Word := lanesWord (p.map (·.1))
/-- Values by lane, the identity for a non-participant. -/
def Parts.values (p : Parts) (a : XReg) (ident : Word) : List Word := (seqFrom 0 32).map fun l => (p.reg l a).getD ident

/-- The participants of a set, from the leading threads or their shadows. -/
def State.partsOf (s : State) (shadow : Bool) (ts : List Tid) : Parts := ts.map fun t => (Tid.lane t, s.regsOf shadow t)

/-- One operation of a set: `prep` combines the participants once, `f` gives each participant's registers from its lane; `x` the FPX bits. -/
def State.laneSet {α : Type} (s : State) (prep : Parts → α) (f : α → Nat → Regs → Regs) (x : α → Fpx) (ts : List Tid) : State :=
  let p := prep (s.partsOf false ts)
  let q := prep (s.partsOf true ts)
  let s' := ts.foldl (fun s t => s.modThread t fun th =>
    { th.advance with regs := f p th.lane th.regs, shadow := th.shadow.map (f q th.lane) }) s
  match ts with
  | t :: _ => if x p = 0 then s' else s'.setFpx t (x p)
  | [] => s'

/-- An issue of a cross-lane instruction, one operation for each of its sets (R243). -/
def State.runSets (s : State) (i : Instr) (f : State → List Tid → State) : Host.Outcome State Fault Refusal :=
  s.runAll i fun s ts => (s.setsOf true ts).foldl f s

/-! ### SHFL (R248) -/

/-- Table 12.2: the source lane, when it is in range. -/
def shflSource (m : ShflMode) (lane n w : Nat) : Option Nat :=
  let base := lane / w * w
  match m with
  | .lane => some (base + n % w)
  | .back => if base + n ≤ lane then some (lane - n) else none
  | .ahead => if lane + n < base + w then some (lane + n) else none
  | .mirror => some (base + ((lane - base) ^^^ (n % w)))

def shflWrite (fill : Option XReg) (wid : BitVec 3) (m : ShflMode) (d a : XReg) (b : Src) (e : PReg) (p : Parts) (lane : Nat) (r : Regs) : Regs :=
  let n := (b.val r).toNat % 32
  match (shflSource m lane n (2 ^ (5 - wid.toNat))).bind fun l => p.reg l a with
  | some v => (r.set32 d v).setP e true
  | none => (r.set32 d (match fill with
      | some c => r.x32 c
      | none => r.x32 a)).setP e false

def execShfl (g : Guard) (fl : Option XReg) (wid : BitVec 3) (m : ShflMode) (d a : XReg) (b : Src) (e : PReg) (s : State) :
    Host.Outcome State Fault Refusal :=
  s.runSets (.shfl g fl wid m d a b e) fun s ts => s.laneSet id (shflWrite fl wid m d a b e) (fun _ => 0) ts

/-! ### VOTE, MATCH, ELECT, LANEMASK (R249 to R252) -/

def voteWrite (neg : Bool) (f : VoteForm) (a : PReg) (p : Parts) (_ : Nat) (r : Regs) : Regs :=
  let q := p.map fun x => (x.1, x.2.pr a != neg)
  match f with
  | .every d => r.setP d (q.all (·.2))
  | .any d => r.setP d (q.any (·.2))
  | .same d => r.setP d (q.all (·.2) || q.all fun x => !x.2)
  | .mask d => r.set32 d (lanesWord ((q.filter (·.2)).map (·.1)))

def execVote (g : Guard) (neg : Bool) (f : VoteForm) (a : PReg) (s : State) : Host.Outcome State Fault Refusal :=
  s.runSets (.vote g neg f a) fun s ts => s.laneSet id (voteWrite neg f a) (fun _ => 0) ts

def matchWrite (w64 : Bool) (all : Option PReg) (d a : XReg) (p : Parts) (_ : Nat) (r : Regs) : Regs :=
  let val (r : Regs) : DWord := if w64 then r.x64 a else (r.x32 a).setWidth 64
  let eq := p.filter fun x => val x.2 == val r
  match all with
  | none => r.set32 d (Parts.mask eq)
  | some e => if eq.length = p.length then (r.set32 d p.mask).setP e true else (r.set32 d 0).setP e false

def execMatchx (g : Guard) (w64 : Bool) (all : Option PReg) (d a : XReg) (s : State) : Host.Outcome State Fault Refusal :=
  s.runSets (.matchx g w64 all d a) fun s ts => s.laneSet id (matchWrite w64 all d a) (fun _ => 0) ts

/-- min(Parts()). -/
def Parts.elected (p : Parts) : Nat := p.foldl (fun m x => min m x.1) 31

def electWrite (w : Option XReg) (e : PReg) (p : Parts) (lane : Nat) (r : Regs) : Regs :=
  let r := r.setP e (lane == p.elected)
  match w with
  | some d => r.set32 d (BitVec.ofNat 32 p.elected)
  | none => r

def execElect (g : Guard) (w : Option XReg) (e : PReg) (s : State) : Host.Outcome State Fault Refusal :=
  s.runSets (.elect g w e) fun s ts => s.laneSet id (electWrite w e) (fun _ => 0) ts

/-- Table 12.4. -/
def laneMaskOf (k : LaneKind) (p : Parts) (lane : Nat) : Word :=
  match k with
  | .self => laneBit lane
  | .below => BitVec.ofNat 32 (2 ^ lane - 1)
  | .thru => BitVec.ofNat 32 (2 * 2 ^ lane - 1)
  | .above => ~~~BitVec.ofNat 32 (2 * 2 ^ lane - 1)
  | .onward => ~~~BitVec.ofNat 32 (2 ^ lane - 1)
  | .parts => p.mask
  | .others => p.mask &&& ~~~laneBit lane

def execLanemask (g : Guard) (k : LaneKind) (d : XReg) (s : State) : Host.Outcome State Fault Refusal :=
  s.runSets (.lanemask g k d) fun s ts => s.laneSet id (fun p l r => r.set32 d (laneMaskOf k p l)) (fun _ => 0) ts

/-! ### REDUX, SCAN, REDIX (R253 to R256) -/

def reduxRun (op : RedOp) (ftz : Bool) (a : XReg) (p : Parts) : Word × Fpx :=
  treeRun (redCombine op ftz) 6 (p.values a (redIdentity op))

def execRedux (g : Guard) (ftz : Bool) (op : RedOp) (d a : XReg) (s : State) : Host.Outcome State Fault Refusal :=
  s.runSets (.redux g ftz op d a) fun s ts =>
    let z := ftz || (ts.head?.map s.ftzd).getD false
    s.laneSet (reduxRun op z a) (fun q _ r => r.set32 d q.1) (·.2) ts

/-- The value of a position that no node combines: as an operand it is flushed, and a NaN is canonical (R202, R203). -/
def scanOwn (op : RedOp) (ftz : Bool) (v : Word) : Word :=
  let half16 (f : Fmt) (h : Nat) : Nat := if (f.read h).isNan then f.nan else h
  match op with
  | .fadd | .fmin | .fmax => redixOut .f32 ftz v
  | .pkaddh => BitVec.ofNat 32 (half16 fF16 (v.toNat % 2 ^ 16) + half16 fF16 (v.toNat / 2 ^ 16) * 2 ^ 16)
  | .pkaddb => BitVec.ofNat 32 (half16 fBF16 (v.toNat % 2 ^ 16) + half16 fBF16 (v.toNat / 2 ^ 16) * 2 ^ 16)
  | _ => v

def scanAll (excl ftz : Bool) (op : RedOp) (a : XReg) (p : Parts) : List Word × Fpx :=
  let v := p.values a (redIdentity op)
  let q := scanRun (redCombine op ftz) [1, 2, 4, 8, 16] (if excl then (redIdentity op :: v).take 32 else v)
  (setAt q.1 0 (scanOwn op ftz (getAt 0 q.1 0)), q.2)

def execScan (g : Guard) (excl ftz : Bool) (op : RedOp) (d a : XReg) (s : State) : Host.Outcome State Fault Refusal :=
  s.runSets (.scan g excl ftz op d a) fun s ts =>
    let z := ftz || (ts.head?.map s.ftzd).getD false
    s.laneSet (scanAll excl z op a) (fun q l r => r.set32 d (getAt 0 q.1 l)) (·.2) ts

def redixRun (xi : Option XReg) (mx : Bool) (ty : RedixTy) (ftz : Bool) (a : XReg) (p : Parts) : Word × Word :=
  let entry (x : Nat × Regs) : Word × Word := (x.2.x32 a, match xi with
    | some b => x.2.x32 b
    | none => BitVec.ofNat 32 x.1)
  match p with
  | [] => (0, 0)
  | x :: xs =>
    let r := xs.foldl (fun acc y => redixPick mx ty ftz acc (entry y)) (entry x)
    (redixOut ty ftz r.1, r.2)

def redixFpx (ty : RedixTy) (a : XReg) (p : Parts) : Fpx :=
  match ty with
  | .f32 => if p.any fun x => (fF32.read (x.2.x32 a).toNat).isSig then fpxNV else 0
  | _ => 0

def execRedix (g : Guard) (ftz : Bool) (xi : Option XReg) (mx : Bool) (ty : RedixTy) (d a : XReg) (s : State) :
    Host.Outcome State Fault Refusal :=
  s.runSets (.redix g ftz xi mx ty d a) fun s ts =>
    let z := ftz || (ts.head?.map s.ftzd).getD false
    s.laneSet (fun p => (redixRun xi mx ty z a p, redixFpx ty a p)) (fun q _ r => r.setXs d.toNat [q.1.1, q.1.2]) (·.2) ts

end Sys2Proof.Machine
end

