-- ==== Sys2Proof/Machine/Memory.lean ====
section
/-! DEFINITION. Memory instructions (chapter 15): scratchpad accesses, loads and stores in the virtual space, atomics, reservations, fences, prefetch, subscriptions and multicast stores. -/

namespace Sys2Proof.Machine

open Sys2Proof

/-! ### Address checks (R306) -/

/-- SCRATCH of the team a thread acts for, and the run's first byte on the core. -/
def State.scratchOf (s : State) (t : Tid) : Option (Nat × Nat) :=
  match s.teamOf t with
  | some tm => match s.grid? tm.ctx tm.grid with
    | some g => some (tm.scr, g.kernel.scratch)
    | none => none
  | none => none

/-- ScratchCheck(n) on an offset: the first byte's place on the core. -/
def State.scratchCheck (s : State) (th : Thread) (off : Int) (n : Nat) : Except (Cause × DWord) Nat :=
  if s.away th then .error (.awayAccess, 0)
  else match s.scratchOf th.id with
    | none => .error (.awayAccess, 0)
    | some (base, size) =>
      if off % n ≠ 0 then .error (.misaligned, BitVec.ofInt 64 off)
      else if off < 0 ∨ (size : Int) < off + n then .error (.scratchRange, BitVec.ofInt 64 off)
      else .ok (base + off.toNat)

/-- VirtualCheck(n, k): the IA and the peer of a PEER window. -/
def State.virtualCheck (s : State) (t : Tid) (va : DWord) (n : Nat) (p : Perm) : Except (Cause × DWord) (Nat × Option Nat) :=
  if va.toNat % n ≠ 0 then .error (.misaligned, va)
  else match ((s.thread? t).bind s.viewCtx).bind fun c => translateVA c va n p with
    | some q => .ok q
    | none => .error (.windowMiss, va)

/-- Runs `k` on what a check answers, or raises its cause. -/
def State.checked {α : Type} (s : State) (t : Tid) (r : Except (Cause × DWord) α) (k : α → State) : State :=
  match r with
  | .ok a => k a
  | .error (c, i) => s.raise t c i

/-- LOC of a scratchpad access (Table 20.3). -/
def scrLoc (off : Int) : DWord := BitVec.ofInt 64 off ||| 0x8000000000000000

/-- Compares an item with the shadow's copy (R424), then goes on with `k`. -/
def State.compared (s : State) (t : Tid) (same : Bool) (loc : DWord) (k : State → State) : State :=
  match s.mismatch t same loc with
  | (s, true) => s
  | (s, false) => k s

def State.shadowOf (th : Thread) : Regs := th.shadow.getD th.regs

/-- Registers written by a load, ascending (R308). -/
def destRegs (d : XReg) (sz : Size) : List Nat := seqFrom d.toNat sz.regs

/-- The `n` low bytes of data registers (R308). -/
def storeBytes (r : Regs) (d : XReg) (sz : Size) : List Byte := (bytesOfWords (r.xs d sz.regs)).take sz.bytes

/-- A data operand as an unsigned number. -/
def dataNat (r : Regs) (d : XReg) (sz : Size) : Nat := natOfBytes (storeBytes r d sz)

/-! ### Scratchpad (R309) -/

/-- A flag-setting access with its results known: the shadow takes them from the load-value queue. -/
def State.startWith (s : State) (t : Tid) (fs : Bool) (bound : Nat) (xs : List (Nat × Word)) : State :=
  s.startOp t fs bound fun _ => (xs, [], 0)

/-- Whether a scratchpad or event operation must wait for the thread's side log (R316). -/
def State.heldByLog (s : State) (t : Tid) : Bool := s.logging t

/-- Marks a read in the innermost region; `false`: the hold buffer overflows, and the regions commit early (R413, R417). -/
def State.regionRead (s : State) (t : Tid) (m : ReadMark) : State × Bool :=
  match s.thread? t with
  | none => (s, false)
  | some th =>
    if !th.inRegion then (s, true)
    else if s.holdFull th m.lines then (if th.inRunAhead then s.specLimit t else (s.settleRegions t).1, false)
    else (s.markRead t m, true)

/-- LDS at a checked place. -/
def State.loadScratch (s : State) (t : Tid) (fs sx : Bool) (sz : Size) (d : XReg) (off : Int) (at_ : Nat) : State :=
  match s.thread? t with
  | none => s
  | some th =>
    if s.heldByLog t then s
    else match s.recall th.core .scr (at_ / 64) with
      | (s, false) => s
      | (s, true) =>
        let raw := (s.scrRead th.core at_ sz.bytes).1
        match s.regionRead t ⟨true, at_, raw⟩ with
        | (s, false) => s
        | (s, true) =>
          let (bs, bad) := s.viewScr th at_ sz.bytes
          let armed := th.inject == some 1
          let s := if armed then s.modThread t fun th => { th with inject := none } else s
          let ws := loadWords sz.bytes sx bs
          if bad || armed then
            (s.startWith t fs 48 ((destRegs d sz).map fun r => (r, 0))).modThread t fun th =>
              { th with detected := some (.uncorrectable, scrLoc off, 2) }
          else s.startWith t fs 48 ((destRegs d sz).zip ws)

def execLds (g : Guard) (fs sx : Bool) (sz : Size) (d : XReg) (m : MemOp) (s : State) : Host.Outcome State Fault Refusal :=
  s.run (.lds g fs sx sz d m) fun s t =>
    match s.thread? t with
    | none => s
    | some th =>
      let off := scratchOff th.regs m
      s.checked t (s.scratchCheck th off sz.bytes) fun a => s.loadScratch t fs sx sz d off a

def execSts (g : Guard) (fs : Bool) (sz : Size) (d : XReg) (m : MemOp) (s : State) : Host.Outcome State Fault Refusal :=
  s.run (.sts g fs sz d m) fun s t =>
    match s.thread? t with
    | none => s
    | some th =>
      let off := scratchOff th.regs m
      let sh := State.shadowOf th
      s.checked t (s.scratchCheck th off sz.bytes) fun a =>
        s.compared t (scratchOff sh m == off && storeBytes sh d sz == storeBytes th.regs d sz) (scrLoc off) fun s =>
          s.emitThen t (.scratch a (storeBytes th.regs d sz)) fun s => s.startWith t fs 48 []

/-- ATOMS at a checked place: one read-modify-write, or in a region a marked read and a held write (R309, R323). -/
def State.atomScratch (s : State) (t : Tid) (fs : Bool) (op : AtomOp) (sz : Size) (d : XReg) (b c : Nat) (off : Int) (at_ : Nat) : State :=
  match s.thread? t with
  | none => s
  | some th =>
    let n := sz.bytes
    let finish (s : State) (old : Nat) : State := s.startWith t fs 96 ((destRegs d sz).zip (loadWords n false (bytesOfNat n old)))
    let bad_ (s : State) : State :=
      (s.startWith t fs 96 ((destRegs d sz).map fun r => (r, 0))).modThread t fun th =>
        { th with detected := some (.uncorrectable, scrLoc off, 2) }
    if th.inRegion then
      if s.heldByLog t then s
      else match s.recall th.core .scr (at_ / 64) with
        | (s, false) => s
        | (s, true) =>
          match s.regionRead t ⟨true, at_, (s.scrRead th.core at_ n).1⟩ with
          | (s, false) => s
          | (s, true) =>
            let (bs, bad) := s.viewScr th at_ n
            if bad then bad_ s
            else s.emitThen t (.scratch at_ (bytesOfNat n (atomNew op n (natOfBytes bs) b c))) fun s => finish s (natOfBytes bs)
    else
      match s.prepare t (.scratch at_ (List.replicate n 0)) with
      | (s, false) => s
      | (s, true) =>
        let (bs, bad) := s.scrRead th.core at_ n
        if bad then bad_ s
        else finish (s.scrWrite th.core at_ (bytesOfNat n (atomNew op n (natOfBytes bs) b c))) (natOfBytes bs)

/-- The C operand of ATOMS.CAS. -/
def casOperand (op : AtomOp) (r : Regs) (sz : Size) : Nat :=
  match op with
  | .cas c => dataNat r c sz
  | _ => 0

def execAtoms (g : Guard) (fs : Bool) (op : AtomOp) (sz : Size) (d : XReg) (m : MemOp) (b : XReg) (s : State) :
    Host.Outcome State Fault Refusal :=
  s.run (.atoms g fs op sz d m b) fun s t =>
    match s.thread? t with
    | none => s
    | some th =>
      let off := scratchOff th.regs m
      let sh := State.shadowOf th
      let v := dataNat th.regs b sz
      let w := casOperand op th.regs sz
      s.checked t (s.scratchCheck th off sz.bytes) fun a =>
        s.compared t (scratchOff sh m == off && dataNat sh b sz == v && casOperand op sh sz == w) (scrLoc off) fun s =>
          s.atomScratch t fs op sz d v w off a

/-! ### Accesses that end the segment (R311, R313, R314) -/

/-- Before an atomic of the thread: its engine commands have read their sources there, and the lines are its own (R289). -/
def State.atomicFirst (s : State) (t : Tid) (ia : Nat) (peer : Option Nat) (op : HeldOp) : State × Bool :=
  match op with
  | .atomic _ n _ _ => s.clearLines t (s.coreOf t) (.ia peer) (linesMet ia n)
  | _ => (s, true)

/-- Parks with the destination registers and sends the request (R133); with the core's requests at their limit the thread stalls (R8). -/
def State.parkAndRequest (s : State) (t : Tid) (d : XReg) (sz : Size) (ia : Nat) (peer : Option Nat) (op : HeldOp) : State :=
  match s.thread? t with
  | none => s
  | some th =>
    if !s.requestRoom th.core then s
    else match s.atomicFirst t ia peer op with
    | (s, false) => s
    | (s, true) =>
      match s.segEnd t (succPc th.pc) (destRegs d sz) .memory 1 (destRegs d sz) none with
      | (s, true) => s.memRequest t ia peer op
      | (s, false) => s

def execLdc (g : Guard) (sx : Bool) (hint : BitVec 2) (sz : Size) (d : XReg) (m : MemOp) (s : State) :
    Host.Outcome State Fault Refusal :=
  s.run (.ldc g sx hint sz d m) fun s t =>
    match s.thread? t with
    | none => s
    | some th =>
      let va := effAddr th.regs m
      s.checked t (s.virtualCheck t va sz.bytes .read) fun (ia, peer) =>
        s.parkAndRequest t d sz ia peer (.load sz.bytes sx)

def execAtomc (g : Guard) (op : AtomOp) (sz : Size) (d : XReg) (m : MemOp) (b : XReg) (s : State) :
    Host.Outcome State Fault Refusal :=
  s.run (.atomc g op sz d m b) fun s t =>
    match s.thread? t with
    | none => s
    | some th =>
      let va := effAddr th.regs m
      let sh := State.shadowOf th
      let v := dataNat th.regs b sz
      s.checked t (s.virtualCheck t va sz.bytes .rmw) fun (ia, peer) =>
        s.compared t (effAddr sh m == va && dataNat sh b sz == v) (BitVec.ofNat 64 ia) fun s =>
          s.parkAndRequest t d sz ia peer (.atomic op sz.bytes v 0)

def execCasc (g : Guard) (sz : Size) (d : XReg) (m : MemOp) (b c : XReg) (s : State) : Host.Outcome State Fault Refusal :=
  s.run (.casc g sz d m b c) fun s t =>
    match s.thread? t with
    | none => s
    | some th =>
      let va := effAddr th.regs m
      let sh := State.shadowOf th
      let v := dataNat th.regs b sz
      let w := dataNat th.regs c sz
      s.checked t (s.virtualCheck t va sz.bytes .rmw) fun (ia, peer) =>
        s.compared t (effAddr sh m == va && dataNat sh b sz == v && dataNat sh c sz == w) (BitVec.ofNat 64 ia) fun s =>
          s.parkAndRequest t d sz ia peer (.atomic (.cas 0) sz.bytes v w)

def execLr (g : Guard) (sz : Size) (d : XReg) (m : MemOp) (s : State) : Host.Outcome State Fault Refusal :=
  s.run (.lr g sz d m) fun s t =>
    match s.thread? t with
    | none => s
    | some th =>
      let va := effAddr th.regs m
      s.checked t (s.virtualCheck t va sz.bytes .read) fun (ia, peer) =>
        s.parkAndRequest t d sz ia peer (.lr sz.bytes)

/-! ### Stores and reductions (R312, R313) -/

def execSt (g : Guard) (hint : BitVec 2) (sz : Size) (d : XReg) (m : MemOp) (s : State) : Host.Outcome State Fault Refusal :=
  s.run (.st g hint sz d m) fun s t =>
    match s.thread? t with
    | none => s
    | some th =>
      let va := effAddr th.regs m
      let sh := State.shadowOf th
      let data := storeBytes th.regs d sz
      s.checked t (s.virtualCheck t va sz.bytes .write) fun (ia, peer) =>
        s.compared t (effAddr sh m == va && storeBytes sh d sz == data) (BitVec.ofNat 64 ia) fun s =>
          s.emitThen t (.store ia peer data) fun s => s.advance t

/-- The value of a line's bytes in module memory under a thread's held bytes. -/
def State.viewMem (s : State) (th : Thread) (ia pa n : Nat) : List Byte := overlay (s.readPA ia pa n).1 ia (th.heldMem none)

/-- A RED inside a region: a marked read and a held write, or a read that its home holds (R323). -/
def State.regionRed (s : State) (t : Tid) (op : AtomOp) (ia n b : Nat) : State :=
  match s.thread? t with
  | none => s
  | some th =>
    let h : HeldAcc := { who := .region t 0, ctx := s.ctxOf t, ia, op := .atomic op n b 0, kind := none }
    match s.route ia true with
    | .to (.mem _) =>
      match s.recall th.core (.ia none) (ia / 64) with
      | (s, false) => s
      | (s, true) =>
        match s.route ia true with
        | .to (.mem pa) =>
          let (raw, bad) := s.readPA ia pa n
          if bad then s.advance t
          else match s.regionRead t ⟨false, ia, raw⟩ with
            | (s, false) => s
            | (s, true) =>
              let old := natOfBytes (s.viewMem th ia pa n)
              s.emitThen t (.store ia none (bytesOfNat n (atomNew op n old b 0))) fun s => s.advance t
        | _ => s
    | .fault k l e => s.emitThen t (.red op ia none n b) fun s => (s.holdFault h .atomic k l e).advance t
    | .blocked => s.emitThen t (.red op ia none n b) fun s => (s.holdBlocked h).advance t
    | _ => s.emitThen t (.red op ia none n b) fun s => s.advance t

def execRed (g : Guard) (op : AtomOp) (sz : Size) (d : XReg) (m : MemOp) (s : State) : Host.Outcome State Fault Refusal :=
  s.run (.red g op sz d m) fun s t =>
    match s.thread? t with
    | none => s
    | some th =>
      let va := effAddr th.regs m
      let sh := State.shadowOf th
      let v := dataNat th.regs d sz
      s.checked t (s.virtualCheck t va sz.bytes .write) fun (ia, peer) =>
        s.compared t (effAddr sh m == va && dataNat sh d sz == v) (BitVec.ofNat 64 ia) fun s =>
          if th.inRegion && peer.isNone then s.regionRed t op ia sz.bytes v
          else s.emitThen t (.red op ia peer sz.bytes v) fun s => s.advance t

/-! ### SC (R315) -/

/-- Writes the status predicate. -/
def State.setPred (s : State) (t : Tid) (e : PReg) (b : Bool) : State :=
  s.modThread t fun th => { th with regs := th.regs.setP e b, shadow := th.shadow.map fun r => r.setP e b }

/-- A reservation ends 4,096 cycles after its LR (R294). -/
def Thread.resvOver (th : Thread) (cycle : Nat) : Bool :=
  match th.resv with
  | some v => decide (v.since + 4096 ≤ cycle)
  | none => false

/-- Whether the thread's reservation of a line, with its home module, is still held. -/
def Thread.reserves (th : Thread) (cycle line : Nat) (peer : Option Nat) : Bool :=
  !th.resvOver cycle && (match th.resv with
    | some v => v.line == line && v.peer == peer
    | none => false)

/-- The IA and the place at which an SC is executed: the last home here, or a peer's (R275, R294). -/
def State.scPlace (s : State) (ia : Nat) (peer : Option Nat) : Nat × Routed :=
  match peer with
  | some m => if m = s.modid then s.follow true 4 ia else (ia, .to (.peer m ia))
  | none => s.follow true 4 ia

/-- A failed SC: Pe is 0 and the reservation goes. -/
def State.scFail (s : State) (t : Tid) (e : PReg) : State :=
  ((s.setPred t e false).modThread t fun th => { th with resv := none }).advance t

/-- SC inside a region: a marked read of the line and a held write (R323). A fault is reported and fails it, a migrating page makes it wait, a line of the system domain is refused (R306). -/
def State.regionSc (s : State) (t : Tid) (ia : Nat) (peer : Option Nat) (data : List Byte) (e : PReg) : State :=
  match s.thread? t with
  | none => s
  | some th =>
    let hold (s : State) : State := s.emitThen t (.store ia peer data) fun s =>
      ((s.setPred t e true).modThread t fun th => { th with resv := none }).advance t
    match s.scPlace ia peer with
    | (x, .fault k l v) => (s.scFail t e).reportFault (s.ctxOf t) x .store k l v
    | (_, .blocked) => s
    | (_, .to (.sys _ _)) => (s.scFail t e).modThread t fun th => { th with next := some (.atomicDomain, BitVec.ofNat 64 ia) }
    | (_, .control _) | (_, .to .group) => s.scFail t e
    | (_, .to (.peer m a)) => if th.reserves s.cycle (a / 64) (some m) then hold s else s.scFail t e
    | (x, .to (.mem pa)) =>
      if !th.reserves s.cycle (x / 64) none then s.scFail t e
      else match s.regionRead t ⟨false, x, (s.readPA x pa data.length).1⟩ with
        | (s, false) => s
        | (s, true) => hold s

def execSc (g : Guard) (sz : Size) (d : XReg) (m : MemOp) (e : PReg) (s : State) : Host.Outcome State Fault Refusal :=
  s.run (.sc g sz d m e) fun s t =>
    match s.thread? t with
    | none => s
    | some th =>
      let va := effAddr th.regs m
      let sh := State.shadowOf th
      let data := storeBytes th.regs d sz
      s.checked t (s.virtualCheck t va sz.bytes .write) fun (ia, peer) =>
        s.compared t (effAddr sh m == va && storeBytes sh d sz == data) (BitVec.ofNat 64 ia) fun s =>
          if s.logging t then s.scFail t e
          else if th.inRegion then s.regionSc t ia peer data e
          else s.holdAt t (.sc t ia peer data e.toNat)

/-! ### Fences, prefetch, subscriptions, multicast (R317 to R322) -/

def execFence (g : Guard) (dom : FenceDom) (s : State) : Host.Outcome State Fault Refusal :=
  s.run (.fence g dom) fun s t => s.emitThen t (.fence dom) fun s => s.advance t

/-- PREF takes a lease on a mapped module-domain line; it is dropped everywhere else, and never traps. -/
def State.prefetch (s : State) (t : Tid) (va : DWord) : State :=
  match ((s.thread? t).bind s.viewCtx).bind fun c => translateVA c va 1 .read with
  | some (ia, none) =>
    match s.route ia false with
    | .to (.mem _) => ((s.keepTranslation ia).tickR (ia / 64) (s.ptsOf t)).1
    | _ => s
  | _ => s

def execPref (g : Guard) (lvl : PrefLevel) (m : MemOp) (s : State) : Host.Outcome State Fault Refusal :=
  s.run (.pref g lvl m) fun s t =>
    match s.thread? t with
    | none => s
    | some th => (s.prefetch t (effAddr th.regs m)).advance t

/-- Entries of a die's subscription table, those that regions hold for it among them (R319, R323). -/
def State.subCount (s : State) (d : Nat) : Nat :=
  (s.die d).subs.length + (s.threads.flatMap fun th => th.held.filter fun e => match e with | .subs k _ _ _ => k == d | _ => false).length

/-- SUBS's status (Table 15.4), and the effect of an accepted one. -/
def State.subscribe (s : State) (th : Thread) (va : DWord) (len : Nat) : Except (Cause × DWord) (Nat × Option Eff) :=
  if va.toNat % 64 ≠ 0 ∨ len % 64 ≠ 0 ∨ len = 0 ∨ 2 ^ 20 < len then .ok (3, none)
  else match (s.viewCtx th).bind fun c => translateVA c va len .read with
    | none => .error (.windowMiss, va)
    | some (_, none) => .ok (2, none)
    | some (ia, some m) =>
      let d := s.dieOf th.core
      if 256 ≤ s.subCount d then .ok (1, none) else .ok (0, some (.subs d ia len m))

/-- Writes a word to D in both threads and goes on. -/
def State.writeD (s : State) (t : Tid) (d : XReg) (v : Word) : State := s.compute (fun r => (r.set32 d v, 0)) t

def execSubs (g : Guard) (d : XReg) (m : MemOp) (b : XReg) (s : State) : Host.Outcome State Fault Refusal :=
  s.run (.subs g d m b) fun s t =>
    match s.thread? t with
    | none => s
    | some th =>
      let va := effAddr th.regs m
      let sh := State.shadowOf th
      let len := (th.regs.x32 b).toNat
      s.checked t (s.subscribe th va len) fun (st, e) =>
        if s.heldByLog t then s
        else s.compared t (effAddr sh m == va && (sh.x32 b).toNat == len) va fun s =>
          match e with
          | none => s.writeD t d (BitVec.ofNat 32 st)
          | some e => s.emitThen t e fun s => s.writeD t d (BitVec.ofNat 32 st)

def execUnsub (g : Guard) (m : MemOp) (s : State) : Host.Outcome State Fault Refusal :=
  s.run (.unsub g m) fun s t =>
    match s.thread? t with
    | none => s
    | some th =>
      let va := effAddr th.regs m
      if s.heldByLog t then s
      else s.compared t (effAddr (State.shadowOf th) m == va) va fun s =>
        match (s.viewCtx th).bind fun c => translateVA c va 1 .read with
        | none => s.advance t
        | some (ia, _) => s.emitThen t (.unsub (s.dieOf th.core) ia) fun s => s.advance t

def execStm (g : Guard) (sz : Size) (d : XReg) (m : MemOp) (b c : XReg) (s : State) : Host.Outcome State Fault Refusal :=
  s.run (.stm g sz d m b c) fun s t =>
    match s.thread? t with
    | none => s
    | some th =>
      let va := effAddr th.regs m
      let sh := State.shadowOf th
      let data := storeBytes th.regs d sz
      let off : Int := (th.regs.x32 c).toNat
      s.checked t (s.virtualCheck t va sz.bytes .write) fun (ia, _) =>
        s.checked t (s.scratchCheck th off 32) fun a =>
          s.compared t (effAddr sh m == va && storeBytes sh d sz == data && sh.x64 b == th.regs.x64 b && sh.x32 c == th.regs.x32 c)
              (BitVec.ofNat 64 ia) fun s =>
            s.emitThen t (.stm ia data (th.regs.x64 b) a (s.viewTag th a)) fun s => s.advance t

end Sys2Proof.Machine
end

