-- ==== Sys2Proof/Machine/EngineInstr.lean ====
section
/-! DEFINITION. Engine, barrier and queue instructions (chapter 16): the descriptor's checks (R326), issue, BINIT, BARR and BWAIT (R338), the queue registers (R341, R342). -/

namespace Sys2Proof.Machine

open Sys2Proof

/-! ### The descriptor's checks (R326, Tables 16.1 to 16.3) -/

/-- A failed check: its cause, TRAPINFO, and whether it lies on the source side. -/
structure DescErr where
  cause : Cause
  info : DWord
  src : Bool
deriving DecidableEq, Repr

/-- Scratchpad ranges of a descriptor: offset, bytes, source side. -/
def EngDesc.scratchRanges (d : EngDesc) : List (Nat × Nat × Bool) :=
  (if d.srcSp then [(d.word 0, if d.kind = .gath then d.nidx * d.ebytes else d.len, true)] else []) ++
  (if d.dstSp then [(d.word 2, if d.kind = .scat then d.nidx * d.ebytes else d.len, false)] else []) ++
  (match d.bar with
   | some b => [(b, 16, false)]
   | none => []) ++
  (match d.kind with
   | .gath => [(d.idxOff, 4 * d.num, true)]
   | .scat => [(d.idxOff, 4 * d.num, false)]
   | _ => [])

/-- Whether a descriptor names scratchpad. -/
def EngDesc.namesScratch (d : EngDesc) : Bool := d.srcSp || d.dstSp || d.bar.isSome || d.kind == .gath || d.kind == .scat

/-- The source words against Table 16.2. -/
def EngDesc.srcFormat (d : EngDesc) : Bool :=
  (!d.srcSp || d.word 1 == 0) &&
  (match d.kind with
   | .fill => !d.srcSp && d.word 1 == 0
   | .cpyr => !d.srcSp && d.word 0 == 0 && d.word 1 == 0
   | .mxs => !d.srcSp && d.word 0 % 512 == 0
   | _ => true)

/-- Everything else that Table 16.1 to 16.3 ask of a descriptor; `k` is CPYR's count. -/
def EngDesc.restFormat (d : EngDesc) (k : Nat) : Bool :=
  let fl := d.flags
  let elem := d.kind == .gath || d.kind == .scat
  bitsOf fl 12 4 == 0 && (elem || bitsOf fl 16 16 == 0) &&
  (if elem then decide (d.esize ≤ 4) else if d.kind = .coll then decide (d.esize ≤ 3) else d.esize == 0) &&
  (if d.kind = .coll then decide (d.op ≤ 5) else d.op == 0) &&
  (!d.dstSp || d.word 3 == 0) &&
  (match d.bar with
   | some b => b % 16 == 0
   | none => true) &&
  (match d.kind with
   | .cpy => d.word 6 == 0
   | .fill => d.word 6 == 0 && d.len % 4 == 0 && d.word 2 % 4 == 0
   | .gath | .scat => d.len % d.ebytes == 0
   | .cpyr => d.word 6 == 0 && d.len == 128 * k
   | .mxs => d.word 6 == 0 && d.len % 512 == 0 && d.dstSp && d.word 2 % 512 == 0
   | .coll => decide (d.word 6 < 4) && d.len % 4 == 0)

def EngDesc.va (d : EngDesc) (k : Nat) : DWord := getAt 0 d.w (k + 1) ++ getAt 0 d.w k

/-- Translates a range; one of no bytes is no range. -/
def transRange (c : Option Ctx) (va : DWord) (n : Nat) (p : Perm) : Option (Nat × Option Nat) :=
  if n = 0 then some (0, none) else c.bind fun c => translateVA c va n p

/-- The checks of R326, in its order; `run` is the scratchpad run's size, `away` a scalar thread without a team. Answers the descriptor with its ranges translated. -/
def checkDesc (c : Option Ctx) (run : Option Nat) (away : Bool) (k : Nat) (d : EngDesc) : Except DescErr EngDesc :=
  if !d.srcFormat then .error ⟨.engineFormat, 0, true⟩
  else if !d.restFormat k then .error ⟨.engineFormat, 0, false⟩
  else if away || (d.namesScratch && run.isNone) then .error ⟨.awayAccess, 0, false⟩
  else match d.scratchRanges.find? fun r => r.2.1 != 0 && decide (run.getD 0 < r.1 + r.2.1) with
    | some r => .error ⟨.scratchRange, BitVec.ofNat 64 r.1, r.2.2⟩
    | none =>
      let src := if d.hasSrc && !d.srcSp then
          (transRange c (d.va 0) (if d.kind = .gath then d.nidx * d.ebytes else d.len) .read).map some
        else some none
      match src with
      | none => .error ⟨.windowMiss, d.va 0, true⟩
      | some srcIa =>
        let dst := if d.dstSp then some none
          else (transRange c (d.va 2) (if d.kind = .scat then d.nidx * d.ebytes else d.len) .write).map some
        match dst with
        | none => .error ⟨.windowMiss, d.va 2, false⟩
        | some dstIa => .ok { d with srcIa, dstIa }

/-! ### Issue -/

/-- The run a thread's descriptors may name: none on a guest core. -/
def State.runFor (s : State) (th : Thread) : Option (Nat × Nat) := if s.away th then none else s.scratchOf th.id

/-- The command's TAG, read at issue; `false`: an engine still owes the line. -/
def State.readTag (s : State) (t : Tid) (d : EngDesc) : State × Bool × Option Nat :=
  match s.thread? t, d.bar with
  | some th, some b =>
    let off := ((s.runFor th).map (·.1)).getD 0 + b
    match s.recall th.core .scr (off / 64) with
    | (s, false) => (s, false, none)
    | (s, true) =>
      match s.regionRead t ⟨true, off + 8, (s.scrRead th.core (off + 8) 2).1⟩ with
      | (s, false) => (s, false, none)
      | (s, true) => (s, true, some (s.viewTag th off))
  | _, _ => (s, true, none)

/-- The raw descriptor of a kind in registers Xa to Xa+7. -/
def descOf (kind : EngKind) (r : Regs) (a : XReg) : EngDesc :=
  { kind, w := r.xs a 8, srcIa := none, dstIa := none, tag := none, regs := [] }

/-- A checked command is issued, or held in a region, and `k` goes on (R326, R327). -/
def State.issueDesc (s : State) (t : Tid) (d : EngDesc) (k : State → State) : State :=
  match s.readTag t d with
  | (s, false, _) => s
  | (s, true, tag) => s.emitThen t (.command { d with tag }) k

/-- Why a thread cannot use the engines at all: a scalar thread whose binding names no resident team (R122). -/
def State.scalarAway (s : State) (th : Thread) : Bool := th.isScalar && s.away th

/-- What a COLL takes before it is issued: COLLECTIVE_EXCLUDED (R376), GANG_ABORT (R105). -/
def State.collGate (s : State) (t : Tid) (m : Nat) : Option (Cause × DWord) :=
  match s.gridOf t with
  | none => none
  | some gr =>
    let out := match t with
      | .thr _ _ tm g _ => gr.excluded m tm g
      | .scalar _ => gr.modDropped m
    if out then some (.collectiveExcluded, BitVec.ofNat 64 m)
    else if s.gangState t = some .aborted then some (.gangAbort, 0)
    else none

/-- COLL waits for its gang before it is issued (R334). DESIGN CHOICE: its gate's causes come after all of R326's; the spec gives no order between them (log 56). -/
def State.collIssue (s : State) (t : Tid) (d : EngDesc) (k : State → State) : State :=
  if d.kind = .coll then
    match s.collGate t (d.word 6 % 4) with
    | some (c, i) => s.raise t c i
    | none => if s.gangState t = some .uncommitted then s.gangPark t else k s
  else k s

/-- One engine instruction of one thread. -/
def State.engineInstr (s : State) (t : Tid) (kind : EngKind) (a : XReg) : State :=
  match s.thread? t with
  | none => s
  | some th =>
    match checkDesc (s.viewCtx th) ((s.runFor th).map (·.2)) (s.scalarAway th) 0 (descOf kind th.regs a) with
    | .error e => s.raise t e.cause e.info
    | .ok d =>
      if s.heldByLog t then s
      else s.collIssue t d fun s =>
        s.compared t ((State.shadowOf th).xs a 8 == th.regs.xs a 8) 0 fun s => s.issueDesc t d fun s => s.advance t

def execCpy (g : Guard) (a : XReg) (s : State) : Host.Outcome State Fault Refusal :=
  s.run (.cpy g a) fun s t => s.engineInstr t .cpy a

def execGath (g : Guard) (a : XReg) (s : State) : Host.Outcome State Fault Refusal :=
  s.run (.gath g a) fun s t => s.engineInstr t .gath a

def execScat (g : Guard) (a : XReg) (s : State) : Host.Outcome State Fault Refusal :=
  s.run (.scat g a) fun s t => s.engineInstr t .scat a

def execFill (g : Guard) (a : XReg) (s : State) : Host.Outcome State Fault Refusal :=
  s.run (.fill g a) fun s t => s.engineInstr t .fill a

def execMxs (g : Guard) (a : XReg) (s : State) : Host.Outcome State Fault Refusal :=
  s.run (.mxs g a) fun s t => s.engineInstr t .mxs a

def execColl (g : Guard) (a : XReg) (s : State) : Host.Outcome State Fault Refusal :=
  s.run (.coll g a) fun s t => s.engineInstr t .coll a

/-! ### CPYR (R331) -/

/-- One command for the set: the lowest participant's descriptor, every participant's registers. A difference in one participant reaches every one (R247), and each one's side log stalls the set (R316). -/
def State.copyRegs (s : State) (a b : XReg) (k : Nat) (ts : List Tid) : State :=
  match ts with
  | [] => s
  | t0 :: _ =>
    match s.thread? t0 with
    | none => s
    | some th =>
      match checkDesc (s.viewCtx th) ((s.runFor th).map (·.2)) (s.scalarAway th) k (descOf .cpyr th.regs a) with
      | .error e => ts.foldl (fun s t => s.raise t e.cause e.info) s
      | .ok d =>
        if ts.any s.heldByLog then s
        else
          let armed := ts.any fun t => match s.thread? t with
            | some th => th.shadow.isSome && th.inject == some 0
            | none => false
          let same := !armed && (s.regsOf true t0).xs a 8 == th.regs.xs a 8 &&
            ts.all fun t => (s.regsOf true t).xs b k == (s.regsOf false t).xs b k
          let (s, ok) := s.keepIf (fun s t => let (s, bad) := s.mismatch t same 0; (s, !bad)) ts
          if ok.length ≠ ts.length then s
          else
            let regs := ts.map fun t => (Tid.lane t, (s.regsOf false t).xs b k)
            s.issueDesc t0 { d with regs } fun s => ts.foldl State.advance s

def execCpyr (g : Guard) (a b : XReg) (k : BitVec 4) (s : State) : Host.Outcome State Fault Refusal :=
  s.runSets (.cpyr g a b k) fun s ts => s.copyRegs a b (k.toNat + 1) ts

/-! ### BINIT, BARR, BWAIT (R338) -/

def execBinit (g : Guard) (m : MemOp) (b c : XReg) (s : State) : Host.Outcome State Fault Refusal :=
  s.run (.binit g m b c) fun s t =>
    match s.thread? t with
    | none => s
    | some th =>
      let off := scratchOff th.regs m
      let sh := State.shadowOf th
      let w := (th.regs.x32 c).toNat
      s.checked t (s.scratchCheck th off 16) fun a =>
        if bitsOf w 17 15 ≠ 0 then s.raise t .engineFormat 0
        else s.compared t (scratchOff sh m == off && sh.x32 b == th.regs.x32 b && sh.x32 c == th.regs.x32 c) (scrLoc off) fun s =>
          s.emitThen t (.binit a (th.regs.x32 b).toNat (bitsOf w 0 16) (bitsOf w 16 8)) fun s => s.advance t

def execBarr (g : Guard) (m : MemOp) (b : XReg) (s : State) : Host.Outcome State Fault Refusal :=
  s.run (.barr g m b) fun s t =>
    match s.thread? t with
    | none => s
    | some th =>
      let off := scratchOff th.regs m
      let sh := State.shadowOf th
      s.checked t (s.scratchCheck th off 16) fun a =>
        s.compared t (scratchOff sh m == off && sh.x32 b == th.regs.x32 b) (scrLoc off) fun s =>
          s.emitThen t (.barr a (th.regs.x32 b).toNat) fun s => s.advance t

/-- The thread has parked on the object: PARKED rises, or the commit that parking made has released the object. -/
def State.parkedOn (s : State) (t : Tid) (core off tag : Nat) : State :=
  let v := s.objAt core off
  if objReleased v tag then s.release [t]
  else s.scrRaw core (off + 12) (bytesOfNat 4 (bitsOf v 96 32 + 1))

/-- BWAIT's test at a checked place, and its park. -/
def State.barWait (s : State) (t : Tid) (off tag : Nat) : State :=
  match s.thread? t with
  | none => s
  | some th =>
    if s.heldByLog t then s
    else match s.recall th.core .scr (off / 64) with
      | (s, false) => s
      | (s, true) =>
        if objReleased (natOfBytes (s.viewScr th off 16).1) tag then
          match s.regionRead t ⟨true, off, (s.scrRead th.core off 12).1⟩ with
          | (s, false) => s
          | (s, true) => s.advance t
        else match s.segEnd t (succPc th.pc) [] (.barrier off tag) 1 [] none with
          | (s, true) => s.parkedOn t th.core off tag
          | (s, false) => s

def execBwait (g : Guard) (m : MemOp) (b : XReg) (s : State) : Host.Outcome State Fault Refusal :=
  s.run (.bwait g m b) fun s t =>
    match s.thread? t with
    | none => s
    | some th =>
      s.checked t (s.scratchCheck th (scratchOff th.regs m) 16) fun a => s.barWait t a ((th.regs.x32 b).toNat % 2 ^ 16)

/-! ### Queue registers (R341, R342) -/

/-- The team whose queue a thread names; the cause when it may not. -/
def State.queueOf (s : State) (th : Thread) (q : QReg) : Except (Cause × DWord) Team :=
  if s.away th then .error (.awayAccess, 0)
  else match s.teamOf th.id with
    | none => .error (.awayAccess, 0)
    | some tm => if (tm.queue q.toNat).kind = 0 then .error (.queueUnbound, q.setWidth 64) else .ok tm

def execQpush (g : Guard) (fs : Bool) (q : QReg) (a : XReg) (e : PReg) (s : State) : Host.Outcome State Fault Refusal :=
  s.run (.qpush g fs q a e) fun s t =>
    match s.thread? t with
    | none => s
    | some th =>
      let entry := th.regs.xs a 8
      s.checked t (s.queueOf th q) fun tm =>
        s.compared t ((State.shadowOf th).xs a 8 == entry) 0 fun s =>
          if s.heldByLog t then s
          else if !th.inRegion && (tm.queue q.toNat).full then s.startOp t fs 24 fun _ => ([], [(e.toNat, false)], 0)
          else s.emitThen t (.qpush q.toNat entry) fun s => s.startOp t fs 24 fun _ => ([], [(e.toNat, true)], 0)

/-- Takes the oldest result-side entry. -/
def State.takeEntry (s : State) (tm : Team) (q : Nat) : Option (State × List Word) :=
  match (tm.queue q).result with
  | [] => none
  | e :: rest =>
    some (s.modTeam tm.ctx tm.grid tm.num fun x => { x with queues := setAt x.queues q { tm.queue q with result := rest } }, e)

/-- Writes registers from D, and a predicate, in both threads, and goes on. -/
def State.writeRegs (s : State) (t : Tid) (d : XReg) (ws : List Word) (p : Option (PReg × Bool)) : State :=
  s.compute (fun r =>
    let r := r.setXs d.toNat ws
    (match p with
     | some (e, b) => r.setP e b
     | none => r, 0)) t

/-- A pop inside a region, its segment having ended: the entry, zeros, or a wait (R344). -/
def State.popParked (s : State) (t : Tid) (q : Nat) (nb : Bool) : State :=
  match s.teamOf t, s.thread? t with
  | some tm, some th =>
    match s.takeEntry tm q with
    | some (s, e) => s.pushCompl t (th.dest.zip e) (th.destP.map fun p => (p, true)) none
    | none =>
      if nb then s.pushCompl t (th.dest.map fun d => (d, 0)) (th.destP.map fun p => (p, false)) none
      else s.modThread t fun th => { th with wait := .queue q }
  | _, _ => s

/-- The pop of a thread outside regions, or its segment end inside one. -/
def State.popQueue (s : State) (t : Tid) (d : XReg) (q : Nat) (tm : Team) (nb : Option PReg) : State :=
  match s.thread? t with
  | none => s
  | some th =>
    let dest := seqFrom d.toNat 8
    if s.heldByLog t then s
    else if th.inRegion then
      match s.segEnd t (succPc th.pc) dest (.popQueue q nb) 1 dest (nb.map (·.toNat)) with
      | (s, true) => s.popParked t q nb.isSome
      | (s, false) => s
    else match s.takeEntry tm q, nb with
      | some (s, e), _ => s.writeRegs t d e (nb.map fun p => (p, true))
      | none, some p => s.writeRegs t d (List.replicate 8 0) (some (p, false))
      | none, none => (s.segEnd t (succPc th.pc) dest (.queue q) 1 dest none).1

def execQpop (g : Guard) (d : XReg) (q : QReg) (s : State) : Host.Outcome State Fault Refusal :=
  s.run (.qpop g d q) fun s t =>
    match s.thread? t with
    | none => s
    | some th => s.checked t (s.queueOf th q) fun tm => s.popQueue t d q.toNat tm none

def execQpopNb (g : Guard) (d : XReg) (q : QReg) (e : PReg) (s : State) : Host.Outcome State Fault Refusal :=
  s.run (.qpopNb g d q e) fun s t =>
    match s.thread? t with
    | none => s
    | some th => s.checked t (s.queueOf th q) fun tm => s.popQueue t d q.toNat tm (some e)

/-- The word QSTAT writes: a LOOP queue's one FIFO counts on both sides. -/
def TQueue.stat (q : TQueue) : Word :=
  let push := if q.kind = 7 then q.result.length else q.push.length
  BitVec.ofNat 32 (push + q.result.length * 2 ^ 8 + q.kind * 2 ^ 16)

def execQstat (g : Guard) (d : XReg) (q : QReg) (s : State) : Host.Outcome State Fault Refusal :=
  s.run (.qstat g d q) fun s t =>
    match s.thread? t with
    | none => s
    | some th => s.checked t (s.queueOf th q) fun tm => s.writeD t d (tm.queue q.toNat).stat

end Sys2Proof.Machine
end

