-- ==== Sys2Proof/Machine/Matrix.lean ====
section
/-! DEFINITION. Matrix instructions (chapter 17): quarters and their checks (R345, R346), tiles in the accumulator store (R348 to R351), the exact products of MMAQ and MMAZ (R355), allocation, tile moves, fragments and signatures. -/

namespace Sys2Proof.Machine

open Sys2Proof

/-! ### Quarters (R345, R346) -/

def quarterOf (t : Tid) : Nat := Tid.lane t / 8
def inQuarter (q : Nat) (ts : List Tid) : List Tid := ts.filter fun t => quarterOf t == q

/-- The lowest of the quarters `qs` that needs a lane that has exited. -/
def State.exitedQuarter (s : State) (qs : List Nat) (ps : List Tid) : Option Nat :=
  match ps with
  | [] => none
  | t :: _ => match groupKey t with
    | none => none
    | some (c, g, k, grp) =>
      let live := (s.groupOf c g k grp).live
      qs.find? fun q => (seqFrom (8 * q) 8).any fun l => !live.getLsbD l && !(ps.any fun t => Tid.lane t == l)

/-- What R345 decides for a set before it issues: the lanes that go on, and the quarter of an exited lane. -/
def State.quarterHold (s : State) (bq : Option Nat) (ps : List Tid) : List Tid × Option Nat :=
  let qs := (seqFrom 0 4).filter fun q => !(inQuarter q ps).isEmpty || bq == some q
  let whole (q : Nat) : Bool := (inQuarter q ps).length == 8
  match s.exitedQuarter qs ps with
  | some q => (ps, some q)
  | none =>
    match bq with
    | some p => if whole p then (ps.filter fun t => whole (quarterOf t), none) else ([], none)
    | none => (ps.filter fun t => whole (quarterOf t), none)

/-- The quarter instructions (R345), with the B-source quarter that one names. -/
def quarterInstr : Instr → Option (Option Nat)
  | .mmaq _ _ _ _ _ _ _ _ _ bq | .mmaz _ _ _ _ _ _ _ _ _ bq => some (bq.map (·.toNat))
  | .talloc _ _ _ _ | .tld _ _ _ _ _ | .tst _ _ _ _ _ _ | .tzero _ _ _ _ | .tspill _ _ _ _ _ | .tfill _ _ _ _ _
  | .frags _ _ _ _ _ _ | .tsig _ _ _ _ _ => some none
  | _ => none

/-- The lanes of an issue that are not held for their quarters (R345, R141). -/
def State.unheld (s : State) (i : Instr) (ts : List Tid) : List Tid :=
  match quarterInstr i with
  | none => ts
  | some bq => ts.filter Tid.isScalar ++ (s.setsOf true (ts.filter fun t => !Tid.isScalar t)).flatMap fun ps => (s.quarterHold bq ps).1

/-- The first cause of a quarter, in R346's order. -/
def State.quarterCause (s : State) (bq : Option Nat) (causes : State → List Tid → Option (Cause × DWord)) (ys : List Tid) (q : Nat) :
    Option (Cause × DWord) :=
  let mine := inQuarter q ys
  if mine.isEmpty then none
  else if mine.any fun t => match s.thread? t with
      | some th => s.away th
      | none => false then some (.awayAccess, 0)
  else if mine.length ≠ 8 then some (.matrixQuarter, BitVec.ofNat 64 q)
  else
    let source := match bq with
      | some p => if (inQuarter p ys).length = 8 then none else some (Cause.matrixQuarter, BitVec.ofNat 64 p)
      | none => none
    match source with
    | some c => some c
    | none => causes s mine

/-- One set: a cause in any quarter is raised in every participant; else each quarter acts, in ascending order. -/
def State.quarterSet (s : State) (bq : Option Nat) (causes : State → List Tid → Option (Cause × DWord))
    (act : State → List Tid → List Tid → State) (ys : List Tid) : State :=
  match (seqFrom 0 4).findSome? (s.quarterCause bq causes ys) with
  | some (c, i) => ys.foldl (fun s t => s.raise t c i) s
  | none => (seqFrom 0 4).foldl (fun s q =>
      let mine := inQuarter q ys
      if mine.isEmpty then s else act s mine (inQuarter (bq.getD q) ys)) s

/-- One issue of a quarter instruction. `causes` tests FORMAT_SLOT and what follows it for a complete quarter; `act` performs a quarter, given its lanes and those of its B source. -/
def State.runQuarters (s : State) (i : Instr) (bq : Option Nat) (causes : State → List Tid → Option (Cause × DWord))
    (act : State → List Tid → List Tid → State) : Host.Outcome State Fault Refusal :=
  let scalars := s.issue.filter Tid.isScalar
  let sets := (s.setsOf true (s.issue.filter fun t => !Tid.isScalar t)).map (s.quarterHold bq)
  let (s', yes, no) := State.enterAll i s (scalars ++ sets.flatMap (·.1))
  let s' := no.foldl State.advance s'
  .next (sets.foldl (fun s q =>
    let ys := q.1.filter yes.contains
    match q.2 with
    | some k =>
      ys.foldl (fun s t =>
        let far := match s.thread? t with
          | some th => s.away th
          | none => false
        if far then s.raise t .awayAccess 0 else s.raise t .matrixQuarter (BitVec.ofNat 64 k)) s
    | none => if q.1.all fun t => yes.contains t || no.contains t then s.quarterSet bq causes act ys else s) s')

/-! ### Tiles (R348 to R351) -/

def tileBytes (f : IFmt) : Nat := if isFmt32 f then 1024 else 512
def elemBytes (f : IFmt) : Nat := if isFmt32 f then 4 else 2

/-- The allocation that every participant of a quarter holds. -/
def State.quarterAlloc (s : State) (ts : List Tid) : Option Alloc :=
  match ts with
  | [] => none
  | t :: _ => match s.thread? t with
    | none => none
    | some th => match (s.core th.home).allocOf t with
      | none => none
      | some a =>
        if ts.all fun x => a.holders.contains x && (match s.thread? x with
          | some y => y.tile == some a.unit
          | none => false) then some a else none

/-- The handle register of the quarter's lowest lane. -/
def State.handleOf (s : State) (ts : List Tid) (shadow : Bool) (r : XReg) : Word :=
  match ts with
  | t :: _ => (s.regsOf shadow t).x32 r
  | [] => 0

/-- TILE_STATE and TILE_RANGE for `n` units from the handle (R348, R349). -/
def State.tileCause (s : State) (ts : List Tid) (h : Word) (n : Nat) (even : Bool) : Option (Cause × DWord) :=
  match s.quarterAlloc ts with
  | none => some (.tileState, 0)
  | some a =>
    if bitsOf h.toNat 14 18 ≠ 0 ∨ (even ∧ h.toNat % 2 = 1) ∨ h.toNat < a.unit ∨ a.unit + a.n < h.toNat + n then
      some (.tileRange, h.setWidth 64)
    else none

def fmtUnits (f : IFmt) : Nat := tileBytes f / 512

/-- MISALIGNED and SCRATCH_RANGE of an image (R360). -/
def State.imageCause (s : State) (ts : List Tid) (m : MemOp) (size : Nat) : Option (Cause × DWord) :=
  match ts with
  | [] => none
  | t :: _ =>
    let off := scratchOff (s.regsOf false t) m
    if off % 64 ≠ 0 then some (.misaligned, BitVec.ofInt 64 off)
    else match s.scratchOf t with
      | some (_, k) => if off < 0 ∨ (k : Int) < off + size then some (.scratchRange, BitVec.ofInt 64 off) else none
      | none => none

/-- The image's first byte on the core, and its offset. -/
def State.imageAt (s : State) (t : Tid) (m : MemOp) : Nat × Int :=
  let off := scratchOff (s.regsOf false t) m
  ((((s.scratchOf t).map (·.1)).getD 0) + off.toNat, off)

/-- A replacement by +0 (Table 17.1): SRC, UNIT, ROW, COL. -/
structure Replaced where
  src : Nat
  unit : Nat
  row : Nat
  col : Nat

/-- Elements of `n` bytes from an accumulator address, an uncorrectable one as +0, with the places replaced. -/
def State.accElems (s : State) (core addr n count unit cols : Nat) : List Nat × List Replaced :=
  let c := s.core core
  let at_ (k : Nat) : Bool := c.accBad.any fun b => decide (addr + k * n ≤ b) && decide (b < addr + k * n + n)
  let bad := if c.accBad.isEmpty then [] else (seqFrom 0 count).filter at_
  let raw := c.acc.read addr (n * count)
  ((seqFrom 0 count).map fun k => if bad.contains k then 0 else fieldAt raw (k * n) n,
   bad.map fun k => ⟨0, unit, k / cols, k % cols⟩)

def State.tileElems (s : State) (core h : Nat) (f : IFmt) : List Nat × List Replaced :=
  s.accElems core (512 * h) (elemBytes f) 256 h 16

/-- Bytes into the accumulator store: they are correct again. -/
def State.accWrite (s : State) (core addr : Nat) (data : List Byte) : State :=
  s.modCore core fun c =>
    { c with acc := c.acc.write addr data
             accBad := c.accBad.filter fun b => !(decide (addr ≤ b) && decide (b < addr + data.length)) }

def elemsBytes (n : Nat) (vs : List Nat) : List Byte := vs.flatMap (bytesOfNat n)

/-- MATERR keeps the first replacement (Table 17.1). -/
def materrNext (w : Word) (r : Replaced) : Word :=
  if w.getLsbD 31 then w ||| 0x40000000
  else BitVec.ofNat 32 (2 ^ 31 + r.src * 2 ^ 28 + r.unit * 2 ^ 14 + r.row * 2 ^ 10 + r.col * 2 ^ 6) ||| (w &&& 0x40000000)

/-- LOC of a replacement: MATERR [27:6]. -/
def Replaced.loc (r : Replaced) : DWord := BitVec.ofNat 64 (r.unit * 2 ^ 8 + r.row * 2 ^ 4 + r.col)

/-- Replacements, those that the shadow meets among them, are recorded (R351); they are detected errors of the participants that have a region open (R416), and for one that has none they enter the core's log. -/
def State.replaced (s : State) (core : Nat) (ts : List Tid) (rs : List Replaced) : State :=
  match rs with
  | [] => s
  | r :: _ =>
    let s := s.modCore core fun c => { c with materr := rs.foldl materrNext c.materr }
    let s := (ts.filter s.hasRegion).foldl (fun s t => s.modThread t fun th =>
      { th with detected := some (th.detected.getD (.uncorrectable, Replaced.loc r, 3)) }) s
    match ts.find? fun t => !s.hasRegion t with
    | some t => rs.foldl (fun s r => s.logFor t 3 0 0 (Replaced.loc r)) s
    | none => s

/-! ### Undo copies (R364) -/

/-- The shadow copy's unit of a unit of an allocation. -/
def Alloc.twin (a : Alloc) (h : Nat) : Option Nat := a.shadow.map fun v => v + (h - a.unit)

/-- Units of [u, u + n) that the innermost region of a thread has not saved. -/
def Region.unsaved (r : Region) (u n : Nat) : List Nat := (seqFrom u n).filter fun k => !(r.units.any fun x => x.1 == k)

/-- Saves the units that a quarter is about to write in each participant's innermost region; `false`: an early commit or a limit came instead. -/
def State.saveUnits (s : State) (core u n : Nat) (al : Alloc) : List Tid → State × Bool
  | [] => (s, true)
  | t :: ts =>
    match s.thread? t with
    | none => (s, false)
    | some th =>
      match th.regions with
      | [] => s.saveUnits core u n al ts
      | r :: _ =>
        if r.partial_ then s.saveUnits core u n al ts
        else
          let more := r.unsaved u n
          let copies (a : Nat) : Nat × List Byte × List Nat :=
            (a, (s.core core).acc.read (512 * a) 512, (s.core core).accBad.filter fun b => b / 512 == a)
          let twin := (more.filterMap al.twin).map copies
          let mine := (r.units.filter fun x => decide (al.unit ≤ x.1) && decide (x.1 < al.unit + al.n)).length
          if 16 < mine + more.length then
            if th.inRunAhead then (s.specLimit t, false)
            else match s.settleRegions t with
              | (s, true) => s.saveUnits core u n al ts
              | r => r
          else
            (s.modThread t fun th => th.inner fun r => { r with units := r.units ++ more.map copies ++ twin }).saveUnits core u n al ts

/-- Saves, then acts. -/
def State.withUndo (s : State) (core u n : Nat) (al : Alloc) (ts : List Tid) (k : State → State) : State :=
  match s.saveUnits core u n al ts with
  | (s, true) => k s
  | (s, false) => s

/-! ### Flags of a quarter's operation -/

/-- The operation of one participant: what it writes at completion, in the thread and its shadow. It completes with those of the quarter's other participants (R356). -/
def State.quarterOp (s : State) (t : Tid) (fs : Bool) (bound batch : Nat) (xs shadowXs : List (Nat × Word)) (x : Fpx) : State :=
  s.modThread t fun th =>
    let sel := if fs then wordSETB (lineWord th.line) else wordSETA (lineWord th.line)
    { th.advance with ops := th.ops ++
        [{ flag := if sel < 12 then some sel else none, xs, ps := [], shadowXs := if th.shadow.isSome then shadowXs else [], shadowPs := []
           fpx := x, bound, batch }] }

/-- The operation of every participant, with what each writes; the quarter's FPX bits stand with each (R51, R356). -/
def State.quarterOpsWith (s : State) (ts : List Tid) (fs : Bool) (bound : Nat) (xs shadowXs : Tid → List (Nat × Word)) (x : Fpx) : State :=
  let n := s.nextSeq + 1
  ts.foldl (fun s t => s.quarterOp t fs bound n (xs t) (shadowXs t) x) { s with nextSeq := n }

def State.quarterOps (s : State) (ts : List Tid) (fs : Bool) (bound : Nat) (x : Fpx) : State :=
  s.quarterOpsWith ts fs bound (fun _ => []) (fun _ => []) x

/-! ### MMAQ and MMAZ (R352 to R356) -/

/-- Bits of an element and elements of a row of the pairs in Table 17.2. -/
def pairShape (w : Word) : Option (Nat × Nat) :=
  let a := slotA w
  let b := slotB w
  if a = 5 ∧ b = 5 then some (4, 64)
  else if (a = 3 ∨ a = 4) ∧ (b = 3 ∨ b = 4) then some (8, 32)
  else if a = 6 ∧ b = 6 then some (8, 32)
  else if (a = 1 ∨ a = 2) ∧ (b = 1 ∨ b = 2) then some (16, 16)
  else none

/-- The value of an element code of a slot format. -/
def slotValue (fmt code : Nat) : FVal :=
  match fmt with
  | 1 => fF16.read code
  | 2 => fBF16.read code
  | 3 => fE4M3.read code
  | 4 => fE5M2.read code
  | _ =>
    let v := signExtend 8 code
    .num (decide (v < 0)) v.natAbs 0

/-- An element with its block's scale (R197, R353). -/
def elemValue (slot : Word) (fmt side code : Nat) : FVal :=
  let scale := side % 256
  if fmt = 5 then e2m1Val (slotSpec slot) scale (side / 256) code
  else if slotBlock slot then (if scale = 0xFF then .nan false else (slotValue fmt code).scaled ((scale : Int) - 127))
  else slotValue fmt code

/-- One fragment row or column: its values, and whether a register of it or its side register was uncorrectable. -/
structure FragRow where
  vals : List FVal
  bad : List Nat
  side : Bool

/-- Row 2l + h of a fragment in lane l's registers. -/
def fragRow (slot : Word) (fmt w k : Nat) (r : Regs) (base : XReg) (sideReg : XReg) (h : Nat) : FragRow :=
  let e := 32 / w
  let reg (m : Nat) : Nat := base.toNat + 8 * h + m
  let isBad (n : Nat) : Bool := !r.bad.isEmpty && r.bad.contains n
  let sideBad := slotBlock slot && isBad sideReg.toNat
  let side := if sideBad then 0 else bitsOf (r.x32 sideReg).toNat (16 * h) 16
  { vals := (seqFrom 0 k).map fun j =>
      let n := reg (j / e)
      let code := if isBad n then 0 else bitsOf (getAt 0 r.x n).toNat (w * (j % e)) w
      elemValue slot fmt side code
    bad := (seqFrom 0 8).filter fun m => isBad (reg m)
    side := sideBad }

/-- The sixteen rows of a quarter's fragment. -/
def fragRows (slot : Word) (fmt w k : Nat) (base side : XReg) (rs : List Regs) : List FragRow :=
  rs.flatMap fun r => [fragRow slot fmt w k r base side 0, fragRow slot fmt w k r base side 1]

def FragRow.none : FragRow := { vals := [], bad := [], side := false }

/-- A product as a term of t: negated under NEG; an INT8 product is an exact integer, so its zero has no sign (R216). -/
def mmaTerm (int neg : Bool) (p : FVal) : FVal :=
  let v := if neg then p.negate else p
  if int && v.isZero then .num false 0 0 else v

/-- Infinite products of opposite signs are invalid whatever stands beside them (R216). -/
def oppositeInf (ps : List FVal) : Bool := (ps.any fun v => v.isInf && v.neg?) && ps.any fun v => v.isInf && !v.neg?

/-- One output element: c plus the exact sum of the products, rounded once (R216). -/
def mmaElem (acc : IFmt) (int neg : Bool) (a b : List FVal) (c : FVal) : Nat × Fpx :=
  let ps := (a.zip b).map fun q => q.1.mul q.2
  let nv : Fpx := ps.foldl (fun x p => x ||| p.2) (if oppositeInf (ps.map (·.1)) then fpxNV else 0)
  let (v, k) := FVal.sum .rne (c :: ps.map fun p => mmaTerm int neg p.1)
  finish (Fmt.ofI acc) .rne false (c :: (a ++ b)) (v, nv ||| k)

/-- Replacements of a fragment: SRC 1 or 2 for its elements, 3 for its side registers. -/
def fragReplaced (src unit e : Nat) (rows : List FragRow) : List Replaced :=
  (rows.zip (seqFrom 0 16)).flatMap fun (r, i) =>
    let place (k : Nat) : Replaced := if src = 1 then ⟨k, unit, i, 0⟩ else ⟨k, unit, 0, i⟩
    (r.bad.flatMap fun _ => List.replicate e (place src)) ++ (if r.side then [place 3] else [])

/-- The new tile of a quarter: its 256 codes, FPX bits, replacements. -/
def State.mmaTile (s : State) (shadow zero neg : Bool) (acc : IFmt) (a b c : XReg) (slot : Word) (core h : Nat) (ts bs : List Tid) :
    List Nat × Fpx × List Replaced :=
  let (w, k) := (pairShape slot).getD (16, 16)
  let ra := fragRows slot (slotA slot) w k a c (ts.map (s.regsOf shadow))
  let rb := fragRows slot (slotB slot) w k b (c + 1) (bs.map (s.regsOf shadow))
  let (cs, bad) := if zero then (List.replicate 256 (Fmt.sign (Fmt.ofI acc) true), []) else s.tileElems core h acc
  let out := (seqFrom 0 256).map fun n =>
    mmaElem acc (slotA slot == 6) neg (getAt FragRow.none ra (n / 16)).vals (getAt FragRow.none rb (n % 16)).vals ((Fmt.ofI acc).read (getAt 0 cs n))
  (out.map (·.1), out.foldl (fun x o => x ||| o.2) 0, fragReplaced 1 h (32 / w) ra ++ fragReplaced 2 h (32 / w) rb ++ bad)

/-- FORMAT_SLOT, then the tile's causes. -/
def State.mmaCause (acc : IFmt) (d : XReg) (k : FSlot) (s : State) (ts : List Tid) : Option (Cause × DWord) :=
  match ts with
  | [] => none
  | t :: _ =>
    if (pairShape (s.slotOf t k)).isNone then some (.formatSlot, k.setWidth 64)
    else s.tileCause ts (s.handleOf ts false d) (fmtUnits acc) (isFmt32 acc)

/-- The operation of one quarter, on its tile and on the shadow copy of it. -/
def State.mmaQuarter (fs zero neg : Bool) (acc : IFmt) (d a b c : XReg) (k : FSlot) (s : State) (ts bs : List Tid) : State :=
  match s.quarterAlloc ts, ts with
  | some al, t :: _ =>
    let core := s.coreOf t
    let slot := s.slotOf t k
    let h := (s.handleOf ts false d).toNat
    let n := elemBytes acc
    s.withUndo core h (fmtUnits acc) al ts fun s =>
      let (vs, x, rs) := s.mmaTile false zero neg acc a b c slot core h ts bs
      let (s, rs) := match al.twin h with
        | some v =>
          let (vs', _, rs') := s.mmaTile true zero neg acc a b c slot core v ts bs
          (s.accWrite core (512 * v) (elemsBytes n vs'), rs ++ rs')
        | none => (s, rs)
      ((s.accWrite core (512 * h) (elemsBytes n vs)).replaced core ts rs).quarterOps ts fs (if isFmt32 acc then 128 else 96) x
  | _, _ => s

def execMmaq (g : Guard) (fs neg : Bool) (acc : IFmt) (d a b c : XReg) (k : FSlot) (bq : Option (BitVec 2)) (s : State) :
    Host.Outcome State Fault Refusal :=
  s.runQuarters (.mmaq g fs neg acc d a b c k bq) (bq.map (·.toNat)) (State.mmaCause acc d k) (State.mmaQuarter fs false neg acc d a b c k)

def execMmaz (g : Guard) (fs neg : Bool) (acc : IFmt) (d a b c : XReg) (k : FSlot) (bq : Option (BitVec 2)) (s : State) :
    Host.Outcome State Fault Refusal :=
  s.runQuarters (.mmaz g fs neg acc d a b c k bq) (bq.map (·.toNat)) (State.mmaCause acc d k) (State.mmaQuarter fs true neg acc d a b c k)

/-! ### Allocation (R358, R359) -/

/-- TILE_STATE when some lane holds an allocation already. -/
def State.allocCause (s : State) (ts : List Tid) : Option (Cause × DWord) :=
  if ts.any fun t => match s.thread? t with
      | some th => th.tile.isSome
      | none => false then some (.tileState, 0) else none

/-- The units of a new allocation, and of its shadow copy in redundant mode. -/
def Core.newAlloc (c : Core) (n : Nat) (redundant : Bool) (ts : List Tid) : Option Alloc :=
  match c.findUnits n with
  | none => none
  | some u =>
    let a : Alloc := { unit := u, n, holders := ts, shadow := none }
    if redundant then
      ({ c with allocs := a :: c.allocs } : Core).findUnits n |>.map fun v => { a with shadow := some v }
    else some a

def State.allocQuarter (d : XReg) (e : PReg) (n : Nat) (s : State) (ts _bs : List Tid) : State :=
  match ts with
  | [] => s
  | t :: _ =>
    match s.thread? t with
    | none => s
    | some th =>
      let answer (s : State) (v : Word) (ok : Bool) : State := ts.foldl (fun s t => s.compute (fun r => ((r.set32 d v).setP e ok, 0)) t) s
      match (s.core th.home).newAlloc n th.shadow.isSome ts with
      | none => answer s 0xFFFFFFFF false
      | some a =>
        let s := s.modCore th.home fun c => { c with allocs := c.allocs ++ [a] }
        let s := ts.foldl (fun s t => s.modThread t fun th =>
          { th with tile := some a.unit, regions := match th.regions with
              | r :: rs => { r with allocs := a.unit :: r.allocs } :: rs
              | [] => [] }) s
        answer s (BitVec.ofNat 32 a.unit) true

def execTalloc (g : Guard) (d : XReg) (e : PReg) (n : BitVec 11) (s : State) : Host.Outcome State Fault Refusal :=
  s.runQuarters (.talloc g d e n) none State.allocCause (State.allocQuarter d e n.toNat)

def execTfree (g : Guard) (s : State) : Host.Outcome State Fault Refusal :=
  s.run (.tfree g) fun s t =>
    match s.thread? t with
    | none => s
    | some th =>
      if s.away th then s.raise t .awayAccess 0
      else if th.tile.isNone then s.raise t .tileState 0
      else s.emitThen t .tfree fun s => s.advance t

/-! ### Tile moves (R360, R361) -/

/-- Writes a quarter's units, and the shadow copy's, with one content. -/
def State.fillUnits (s : State) (ts : List Tid) (h n : Nat) (data : List Byte) (k : State → State) : State :=
  match s.quarterAlloc ts, ts with
  | some al, t :: _ =>
    let core := s.coreOf t
    s.withUndo core h n al ts fun s =>
      let s := match al.twin h with
        | some v => s.accWrite core (512 * v) data
        | none => s
      k (s.accWrite core (512 * h) data)
  | _, _ => s

def State.zeroQuarter (fs : Bool) (f : IFmt) (d : XReg) (s : State) (ts _bs : List Tid) : State :=
  s.fillUnits ts (s.handleOf ts false d).toNat (fmtUnits f) (List.replicate (tileBytes f) 0) fun s => s.quarterOps ts fs 32 0

def execTzero (g : Guard) (fs : Bool) (t : IFmt) (d : XReg) (s : State) : Host.Outcome State Fault Refusal :=
  s.runQuarters (.tzero g fs t d) none (fun s ts => s.tileCause ts (s.handleOf ts false d) (fmtUnits t) (isFmt32 t)) (State.zeroQuarter fs t d)

/-- The tile's causes, then those of the image. -/
def State.moveCause (s : State) (ts : List Tid) (d : XReg) (m : MemOp) (units : Nat) (even : Bool) (size : Nat) : Option (Cause × DWord) :=
  match s.tileCause ts (s.handleOf ts false d) units even with
  | some c => some c
  | none => s.imageCause ts m size

/-- The bytes a quarter loads from scratchpad, as LDS reads them; `none`: the quarter waits, or a region limit came first. -/
def State.imageLoad (s : State) (t : Tid) (m : MemOp) (size : Nat) : State × Option (List Byte × Bool) :=
  match s.thread? t with
  | none => (s, none)
  | some th =>
    let (a, _) := s.imageAt t m
    if s.heldByLog t then (s, none)
    else
      let (s, ok) := (linesMet a size).foldl (fun (q : State × Bool) l =>
        let (s, b) := q.1.recall th.core .scr l
        (s, q.2 && b)) (s, true)
      if !ok then (s, none)
      else match s.regionRead t ⟨true, a, (s.scrRead th.core a size).1⟩ with
        | (s, false) => (s, none)
        | (s, true) => (s, some (s.viewScr th a size))

/-- TLD and TFILL: the image into the units; an uncorrectable word writes 0 and is taken up at the next instruction (R351). -/
def State.loadQuarter (fs : Bool) (bound : Nat) (d : XReg) (m : MemOp) (units : Nat) (s : State) (ts _bs : List Tid) : State :=
  match ts with
  | [] => s
  | t :: _ =>
    match s.imageLoad t m (512 * units) with
    | (s, none) => s
    | (s, some (bs, bad)) =>
      let off := (s.imageAt t m).2
      let data := if bad then List.replicate (512 * units) 0 else bs
      s.fillUnits ts (s.handleOf ts false d).toNat units data fun s =>
        let s := s.quarterOps ts fs bound 0
        if bad then ts.foldl (fun s t => s.modThread t fun th => { th with detected := some (.uncorrectable, scrLoc off, 2) }) s else s

def execTld (g : Guard) (fs : Bool) (t : IFmt) (d : XReg) (m : MemOp) (s : State) : Host.Outcome State Fault Refusal :=
  s.runQuarters (.tld g fs t d m) none (fun s ts => s.moveCause ts d m (fmtUnits t) (isFmt32 t) (tileBytes t))
    (State.loadQuarter fs 48 d m (fmtUnits t))

def execTfill (g : Guard) (fs : Bool) (d : XReg) (m : MemOp) (n : BitVec 3) (s : State) : Host.Outcome State Fault Refusal :=
  s.runQuarters (.tfill g fs d m n) none (fun s ts => s.moveCause ts d m (n.toNat + 1) false (512 * (n.toNat + 1)))
    (State.loadQuarter fs 192 d m (n.toNat + 1))

/-- Bytes of an image element. -/
def imgBytes (img : ImgFmt) (t : IFmt) : Nat :=
  match img with
  | .tile => elemBytes t
  | .f32 => 4
  | .f16 | .bf16 => 2
  | .e4m3 | .e5m2 => 1

/-- One element in the image format (R360). -/
def imgElem (img : ImgFmt) (t : IFmt) (code : Nat) : Nat × Fpx :=
  let v := (Fmt.ofI t).read code
  match img with
  | .tile => convert t .rne false v
  | .f32 => convert .f32 .rne false v
  | .f16 => convert .f16 .rne false v
  | .bf16 => convert .bf16 .rne false v
  | .e4m3 => fE4M3.narrow .rne v
  | .e5m2 => fE5M2.narrow .rne v

/-- A store of a quarter to scratchpad: compared with the shadow's image, then one effect of its lowest lane. -/
def State.storeQuarter (s : State) (ts : List Tid) (m : MemOp) (data : List Byte) (same : Bool) (k : State → State) : State :=
  match ts with
  | [] => s
  | t :: _ =>
    let (a, off) := s.imageAt t m
    let sameOff := scratchOff (s.regsOf true t) m == off
    let armed := ts.any fun t => match s.thread? t with
      | some th => th.shadow.isSome && th.inject == some 0
      | none => false
    let (s, ok) := s.keepIf (fun s t => let (s, bad) := s.mismatch t (same && sameOff && !armed) (scrLoc off); (s, !bad)) ts
    if ok.length ≠ ts.length then s else s.emitThen t (.scratch a data) k

def State.tstQuarter (fs : Bool) (img : ImgFmt) (f : IFmt) (d : XReg) (m : MemOp) (s : State) (ts _bs : List Tid) : State :=
  match s.quarterAlloc ts, ts with
  | some al, t :: _ =>
    let core := s.coreOf t
    let h := (s.handleOf ts false d).toNat
    let (vs, rs) := s.tileElems core h f
    let out := vs.map (imgElem img f)
    let data := elemsBytes (imgBytes img f) (out.map (·.1))
    let (same, rs) := match al.twin h with
      | some v =>
        let (vs', rs') := s.tileElems core v f
        (elemsBytes (imgBytes img f) (vs'.map fun c => (imgElem img f c).1) == data, rs ++ rs')
      | none => (true, rs)
    s.storeQuarter ts m data same fun s =>
      (s.replaced core ts rs).quarterOps ts fs 48 (out.foldl (fun x o => x ||| o.2) 0)
  | _, _ => s

def execTst (g : Guard) (fs : Bool) (img : ImgFmt) (t : IFmt) (d : XReg) (m : MemOp) (s : State) : Host.Outcome State Fault Refusal :=
  s.runQuarters (.tst g fs img t d m) none (fun s ts => s.moveCause ts d m (fmtUnits t) (isFmt32 t) (256 * imgBytes img t))
    (State.tstQuarter fs img t d m)

/-- Units as they stand, an uncorrectable element as +0: each unit is read as a 16-bit tile. -/
def State.unitsRead (s : State) (core h : Nat) : Nat → List Byte × List Replaced
  | 0 => ([], [])
  | n + 1 =>
    let (vs, rs) := s.tileElems core h .f16
    let (bs, rest) := s.unitsRead core (h + 1) n
    (elemsBytes 2 vs ++ bs, rs ++ rest)

def State.spillQuarter (fs : Bool) (d : XReg) (m : MemOp) (n : Nat) (s : State) (ts _bs : List Tid) : State :=
  match s.quarterAlloc ts, ts with
  | some al, t :: _ =>
    let core := s.coreOf t
    let h := (s.handleOf ts false d).toNat
    let (data, rs) := s.unitsRead core h n
    let (same, rs) := match al.twin h with
      | some v =>
        let (data', rs') := s.unitsRead core v n
        (data' == data, rs ++ rs')
      | none => (true, rs)
    s.storeQuarter ts m data same fun s => (s.replaced core ts rs).quarterOps ts fs 192 0
  | _, _ => s

def execTspill (g : Guard) (fs : Bool) (d : XReg) (m : MemOp) (n : BitVec 3) (s : State) : Host.Outcome State Fault Refusal :=
  s.runQuarters (.tspill g fs d m n) none (fun s ts => s.moveCause ts d m (n.toNat + 1) false (512 * (n.toNat + 1)))
    (State.spillQuarter fs d m (n.toNat + 1))

/-! ### FRAGS and TSIG (R362, R363) -/

/-- One element in the result format. -/
def fragElem (res t : IFmt) (code : Nat) : Nat × Fpx :=
  convert res .rne false ((Fmt.ofI t).read code)

/-- The registers of quarter-local lane l. -/
def fragRegs (res : IFmt) (vs : List Nat) (l : Nat) : List Word :=
  if isFmt32 res then (seqFrom 0 32).map fun k => BitVec.ofNat 32 (getAt 0 vs (32 * l + k))
  else (seqFrom 0 16).map fun k => BitVec.ofNat 32 (getAt 0 vs (32 * l + 2 * k) + getAt 0 vs (32 * l + 2 * k + 1) * 2 ^ 16)

def State.fragsQuarter (fs : Bool) (res f : IFmt) (d a : XReg) (s : State) (ts _bs : List Tid) : State :=
  match s.quarterAlloc ts, ts with
  | some al, t0 :: _ =>
    let core := s.coreOf t0
    let h := (s.handleOf ts false a).toNat
    let (vs, rs) := s.tileElems core h f
    let out := vs.map (fragElem res f)
    let (twin, rs) := match al.twin h with
      | some v =>
        let (vs', rs') := s.tileElems core v f
        (vs'.map fun c => (fragElem res f c).1, rs ++ rs')
      | none => ([], rs)
    let x := out.foldl (fun x o => x ||| o.2) (0 : Fpx)
    let put (vs : List Nat) (t : Tid) : List (Nat × Word) :=
      let ws := fragRegs res vs (Tid.lane t % 8)
      (seqFrom d.toNat ws.length).zip ws
    (s.replaced core ts rs).quarterOpsWith ts fs 32 (put (out.map (·.1))) (put twin) x
  | _, _ => s

def execFrags (g : Guard) (fs : Bool) (res t : IFmt) (d a : XReg) (s : State) : Host.Outcome State Fault Refusal :=
  s.runQuarters (.frags g fs res t d a) none (fun s ts => s.tileCause ts (s.handleOf ts false a) (fmtUnits t) (isFmt32 t))
    (State.fragsQuarter fs res t d a)

/-- The signature of a tile. -/
def State.tileSig (s : State) (core h : Nat) (f : IFmt) : Word × List Replaced :=
  let (vs, rs) := s.tileElems core h f
  (crc32c (elemsBytes (elemBytes f) vs), rs)

def State.tsigQuarter (fs : Bool) (f : IFmt) (d a : XReg) (s : State) (ts _bs : List Tid) : State :=
  match s.quarterAlloc ts, ts with
  | some al, t :: _ =>
    let core := s.coreOf t
    let h := (s.handleOf ts false a).toNat
    let (v, rs) := s.tileSig core h f
    let (w, rs) := match al.twin h with
      | some u =>
        let (w, rs') := s.tileSig core u f
        (w, rs ++ rs')
      | none => (v, rs)
    let armed := ts.any fun t => match s.thread? t with
      | some th => th.shadow.isSome && th.inject == some 0
      | none => false
    let (s, ok) := s.keepIf (fun s t => let (s, bad) := s.mismatch t (w == v && !armed) 0; (s, !bad)) ts
    if ok.length ≠ ts.length then s
    else (s.replaced core ts rs).quarterOpsWith ts fs 64 (fun _ => [(d.toNat, v)]) (fun _ => [(d.toNat, w)]) 0
  | _, _ => s

def execTsig (g : Guard) (fs : Bool) (t : IFmt) (d a : XReg) (s : State) : Host.Outcome State Fault Refusal :=
  s.runQuarters (.tsig g fs t d a) none (fun s ts => s.tileCause ts (s.handleOf ts false a) (fmtUnits t) (isFmt32 t))
    (State.tsigQuarter fs t d a)

end Sys2Proof.Machine
end

