-- ==== Sys2Proof/Machine/Group.lean ====
section
/-! DEFINITION. Group-address loads and machine-wide branches (chapter 18): LDG, CBR, CSYNC, GBAR, MBRD; the resolution of an instance and the end of run-ahead (R378 to R382). -/

namespace Sys2Proof.Machine

open Sys2Proof

/-! ### LDG (R367, R368) -/

/-- The context's core group of a thread. -/
def State.cgOf (s : State) (t : Tid) (cg : Nat) : Option (List Word) :=
  match s.ctx? (s.ctxOf t) with
  | some c => if c.cgOk cg then some (c.cgTable cg) else none
  | none => none

/-- The registers an LDG writes. -/
def ldgDest (op : LdgOp) (sz : Size) (d : XReg) : List Nat := if op == .mini then seqFrom d.toNat 2 else destRegs d sz

/-- DESIGN CHOICE: the spec does not place GANG_ABORT among the causes that R368 orders; here it comes after SCRATCH_RANGE and before LIVE_LIMIT (log 56). -/
def execLdg (g : Guard) (op : LdgOp) (ty : LdgTy) (sz : Size) (d : XReg) (m : MemOp) (cg : CGReg) (e : PReg) (s : State) :
    Host.Outcome State Fault Refusal :=
  s.run (.ldg g op ty sz d m cg e) fun s t =>
    match s.thread? t with
    | none => s
    | some th =>
      if s.away th then s.raise t .awayAccess 0
      else match s.cgOf t cg.toNat with
        | none => s.raise t .groupUndefined (cg.setWidth 64)
        | some table =>
          let off := scratchOff th.regs m
          s.checked t (s.scratchCheck th off sz.bytes) fun _ =>
            if spansModules s.modid table && s.gangState t == some .aborted then s.raise t .gangAbort 0
            else if !s.requestRoom th.core then s
            else s.compared t (scratchOff (State.shadowOf th) m == off) (scrLoc off) fun s =>
              let dest := ldgDest op sz d
              match s.segEnd t (succPc th.pc) dest .group 1 dest (some e.toNat) with
              | (s, true) => s.pushOut t .group (.ldg op ty sz.bytes off.toNat table)
              | (s, false) => s

/-! ### The end of a collective for one thread (Table 18.9) -/

/-- Resumes a parked collective record at an address: a completion, with TRAPPC for a pending cause (Table 19.4). -/
def State.resumeAt (s : State) (t : Tid) (pc : DWord) : State :=
  ((s.modThread t fun th => { th with pc, arr := .checked, tpc := some pc }).syncResume t).pushCompl t [] none none

/-- Discard: the run-ahead goes, and the thread goes on at an address as a record saved at the arrival would. -/
def State.discardTo (s : State) (t : Tid) (pc : DWord) : State :=
  let s := s.discardAhead t
  match s.thread? t with
  | none => s
  | some th =>
    match th.loc with
    | .resident => s.modThread t fun th => { th.transfer pc true with hold := false, resv := none }
    | _ =>
      let live := s.standing th
      let s := s.modThread t fun th => { th with whole := false, spec := false, live }
      (s.modThread t fun th => { th with tb := s.teamBound th }).resumeAt t pc

/-- The address a run-ahead predicted. -/
def Thread.predicted (th : Thread) : DWord := ((th.regions.findSome? fun r => r.ahead.map (·.2.2.2.1))).getD th.pc

/-- Commits a run-ahead whose prediction was right; what cannot be performed yet is tried again (REGION_COMMIT_DONE). -/
def State.commitAhead (s : State) (t : Tid) : State :=
  let drop (s : State) : State := { s with resWait := s.resWait.filter fun w => w != .commit t }
  match s.thread? t with
  | none => s
  | some th =>
    match s.commitAll t with
    | (s, .ok) =>
      let s := (drop s).modThread t fun th => { th with regions := [] }
      match th.loc with
      | .resident => s.modThread t fun th => { th with hold := false }
      | _ => (s.modThread t fun th => { th with spec := false }).pushCompl t [] none none
    | (s, .conflict) => (drop s).discardTo t th.predicted
    | (s, .wait) =>
      let s := drop s
      { s.modThread t (fun th => { th with hold := th.loc == .resident }) with resWait := s.resWait ++ [.commit t] }

/-- A detected error met in run-ahead, not yet acted on when the outcome comes, discards the run-ahead first (R416, Table 18.9). -/
def State.errorFirst (s : State) (t : Tid) : State :=
  match s.thread? t with
  | none => s
  | some th =>
    match th.detected with
    | some (c, loc, k) => if th.inRunAhead && th.loc == .resident then s.actDetected t c loc k else s
    | none => s

/-- The outcome reaches an arrived thread: the chosen address, or a cause at its collective. -/
def State.outcomeFor (s : State) (key : Nat) (t : Tid) (chosen succ at_ : DWord) (cause : Option (Cause × DWord)) : State :=
  let s := s.errorFirst t
  match s.thread? t with
  | none => s
  | some th =>
    let running := th.regions.any fun r => match r.ahead with
      | some a => a.1 == key
      | none => false
    let parked := th.wait == .cbr key && th.pend != 0
    match cause with
    | some (c, i) =>
      if th.loc = .resident ∧ running then ((s.discardTo t succ).raiseFor t c i succ at_)
      else if parked then
        let s := s.modThread t fun th => { th with tpend := some (th.tpend.getD (c, i)), segpc := at_ }
        if running then s.discardTo t succ else s.resumeAt t succ
      else s
    | none =>
      if running then (if th.predicted = chosen then s.commitAhead t else s.discardTo t chosen)
      else if parked then s.resumeAt t chosen
      else s

/-- Resolution (R378): the outcome goes to every member thread, and the instance is gone. -/
def State.resolveInst (s : State) (c g : Nat) (i : Inst) (remote : List Bool) : State :=
  match s.grid? c g with
  | none => s
  | some gr =>
    let k := BitVec.ofNat 64 i.kind.index
    let out := i.outcome remote
    let s := s.modGrid c g fun gr => { gr with insts := gr.insts.filter fun x => x.key != i.key }
    (i.arrived.filter (·.guard)).foldl (fun s a =>
      let dropped := match i.kind.member with
        | some m => gr.excluded m a.team a.group
        | none => false
      let cause := if i.mismatch then some (Cause.collectiveMismatch, k)
        else if dropped then some (Cause.collectiveExcluded, k) else none
      s.outcomeFor i.key (.thr c g a.team a.group a.lane) (if out then a.target else a.succ) a.succ a.at_ cause) s

/-! ### Arrival (R377 to R379) -/

/-- The causes of a collective after those of R6, in R377's order. -/
def State.collCause (s : State) (th : Thread) (kind : CollKind) : Option (Cause × DWord) :=
  let k := BitVec.ofNat 64 kind.index
  if th.h.hmode then some (.handlerCollective, k)
  else match th.id with
    | .scalar _ => some (.illegalOpcode, 0)
    | .thr c g tm grp _ =>
      match s.grid? c g with
      | none => some (.groupUndefined, k)
      | some gr =>
        let gang := if s.gangState th.id = some .aborted then some (Cause.gangAbort, (0 : DWord)) else none
        match kind.member with
        | some m =>
          if !(gr.defOf m).getLsbD 63 then some (.groupUndefined, k)
          else if !gr.memberGroup m grp then some (.groupNotMember, k)
          else if gr.excluded m tm grp then some (.collectiveExcluded, k)
          else gang
        | none =>
          match s.cgOf th.id kind.index, s.team? c g tm with
          | some table, some x => if s.memberOf x table then gang else some (.groupNotMember, k)
          | _, _ => some (.groupUndefined, k)

/-- The run-ahead of an arrived thread begins: its snapshot, and the predicted direction (R379). -/
def State.startAhead (s : State) (t : Tid) (key : Nat) (target : DWord) (taken : Bool) : State :=
  let s := s.landAll t
  match s.thread? t with
  | none => s
  | some th =>
    let succ := succPc th.pc
    let pred := if taken then target else succ
    let r : Region :=
      { start := th.pc, abort := 0, attempt := 0, preds := th.regs.p, kept := (s.standing th).map fun n => (n, getAt 0 th.regs.x n)
        held := [], reads := [], units := [], allocs := [], partial_ := false, ahead := some (key, target, succ, pred, 0) }
    let s := s.modThread t fun th => { th with regions := [r] }
    if taken then s.transfer t target else s.advance t

/-- A contribution as a group makes it (R378). -/
def joinValues (k : CollKind) (vs : List Bool) : Bool :=
  match k with
  | .any _ => vs.any id
  | .all _ => vs.all id
  | _ => false

/-- Whether the shadow's group contribution agrees, where the lanes `ys` of an issue, with those `no` whose guard is false, complete the group of lane `t` (R383). -/
def State.contribSame (s : State) (kind : CollKind) (value : Regs → Bool) (ys no : List Tid) (t : Tid) : Bool :=
  match t with
  | .scalar _ => true
  | .thr c g tm grp l =>
    let mine := ys.filter fun x => groupKey x == groupKey t
    let came := (((s.grid? c g).bind fun gr => gr.instFor kind tm grp l).map fun i =>
      i.arrived.filter fun a => a.team == tm && a.group == grp).getD []
    let live := (s.groupOf c g tm grp).live
    let all := (lanesOf live).all fun k => (came.any fun a => a.lane == k) || (mine ++ no.filter fun x => groupKey x == groupKey t).any fun x => Tid.lane x == k
    !all || joinValues kind (((came.filter (·.guard)).map (·.value)) ++ mine.map fun x => value (s.regsOf false x)) ==
      joinValues kind (((came.filter (·.guard)).map (·.twin)) ++ mine.map fun x => value (s.regsOf true x))

/-- One lane arrives: its regions commit, it contributes, and it runs ahead or parks; `same`: the shadow's contribution of the group agrees. -/
def State.collArrive (s : State) (t : Tid) (same : Bool) (kind : CollKind) (value : Regs → Bool) (target : Thread → DWord) (taken ahead : Bool) : State :=
  match s.thread? t with
  | none => s
  | some th =>
    if th.inRunAhead then s.specLimit t
    else match s.collCause th kind with
      | some (c, i) => s.raise t c i
      | none =>
        if s.gangState t = some .uncommitted then s.gangPark t
        else s.compared t same 0 fun s =>
          match s.commitClose t with
          | (s, false) => s
          | (s, true) =>
            match t with
            | .scalar _ => s
            | .thr c g tm grp l =>
              let a : Arrived :=
                { team := tm, group := grp, lane := l, value := value th.regs, guard := true, target := target th, succ := succPc th.pc
                  at_ := th.pc, twin := value (State.shadowOf th) }
              if ahead && th.core == th.home then
                let (s, key) := s.arriveAt c g kind a
                s.startAhead t key (target th) taken
              else match s.segReady t (s.standing th) true with
                | (s, false) => s
                | (s, true) =>
                  let (s, key) := s.arriveAt c g kind a
                  s.endSegment t (succPc th.pc) (s.standing th) (.cbr key) 1 [] none

/-- A lane whose guard is false arrives with the identity; inside a region the arrival is held (R378, R61). -/
def State.collPass (s : State) (t : Tid) (kind : CollKind) : State :=
  match s.thread? t with
  | none => s
  | some th =>
    if th.h.hmode then s.advance t
    else if th.inRegion then s.emitThen t (.arrive kind th.pc) fun s => s.advance t
    else (s.arriveFalse t kind th.pc).advance t

/-- One issue of a collective: one operation at the group's join unit, then the contributions it completes. -/
def State.collective (s : State) (i : Instr) (kind : CollKind) (value : Regs → Bool) (target : Thread → DWord) (taken ahead : Bool) :
    Host.Outcome State Fault Refusal :=
  let (s, yes, no) := State.enterAll i s s.issue
  let same := s.contribSame kind value yes no
  let s := no.foldl (fun s t => s.collPass t kind) s
  .next (yes.foldl (fun s t => s.collArrive t (same t) kind value target taken ahead) s).contribute

def execCbr (g : Guard) (all pt : Bool) (a : PReg) (m : MReg) (off : Word) (slot : Slot) (s : State) : Host.Outcome State Fault Refusal :=
  s.collective (.cbr g all pt a m off slot) (if all then .all m.toNat else .any m.toNat) (fun r => r.pr a)
    (fun th => branchTarget th.pc off slot) pt true

def execCsync (g : Guard) (ra : Bool) (m : MReg) (s : State) : Host.Outcome State Fault Refusal :=
  s.collective (.csync g ra m) (.csync m.toNat) (fun _ => false) (fun th => succPc th.pc) false ra

def execGbar (g : Guard) (ra : Bool) (cg : CGReg) (s : State) : Host.Outcome State Fault Refusal :=
  s.collective (.gbar g ra cg) (.gbar cg.toNat) (fun _ => false) (fun th => succPc th.pc) false ra

/-! ### MBRD (R384) -/

def execMbrd (g : Guard) (sel : MbrdSel) (d : XReg) (m : MReg) (s : State) : Host.Outcome State Fault Refusal :=
  s.run (.mbrd g sel d m) fun s t =>
    match s.gridOf t with
    | none => s.raise t .awayAccess 0
    | some gr => s.writeD t d (s.memberWord gr t m.toNat sel)

end Sys2Proof.Machine
end

