-- ==== Sys2Proof/Machine/LaunchInstr.lean ====
section
/-! DEFINITION. LAUNCH (R99 to R101), SPAWN and MBOX (R118, R119), the event instructions (R102 to R104), EVQPOP (R125), and the submissions that a parked thread waits for. -/

namespace Sys2Proof.Machine

open Sys2Proof

/-! ### The read of a launch record -/

/-- Puts back the held writes of a thread over bytes it reads at an IA (R413). -/
def Thread.viewOf (th : Thread) (ia : Nat) (peer : Option Nat) (bs : List Byte) : List Byte := overlay bs ia (th.heldMem peer)

/-- The four record lines, read in the module order, a lease taken on each (R99, R283, R289). -/
def State.fetchRecord (s : State) (t : Tid) (c : Ctx) (va : DWord) : State × RecRead :=
  match translateVA c va 256 .read with
  | none => (s, .miss)
  | some (ia, peer) =>
    match s.readRecord c va, peer, s.route ia false with
    | (s, .bytes bs), none, .to (.mem _) => ((seqFrom (ia / 64) 4).foldl (fun s l => s.tickLoad t l) s, .bytes bs)
    | r, _, _ => r

/-- Where a record's read ends: its order with the thread's other requests is that of the peer's or the port's (R297, R299). -/
def State.recordDest (s : State) (ia : Nat) (peer : Option Nat) : Dest :=
  match peer with
  | some m => .peer m ia
  | none => match s.routeAll ia false with
    | .to (.peer m a) => .peer m a
    | .to (.sys p a) => .sys p a
    | _ => .mem ia

/-- A launch request that waits leaves its place in `out`. -/
def State.dropOut (s : State) (o : OutReq) : State := { s with out := s.out.filter fun x => x.seq != o.seq }

/-- Completes the status register of a submission. -/
def State.finishStatus (s : State) (t : Tid) (st : Nat) : State :=
  match s.thread? t with
  | some th => s.pushCompl t (th.dest.map fun d => (d, BitVec.ofNat 32 st)) none none
  | none => s

/-- The status of a submission that has been made, in the record's D slot; what the submission posts comes after it (R119, R124). -/
def State.statusNow (s : State) (t : Tid) (st : Nat) : State :=
  match s.thread? t with
  | some th => (s.complete { t, xs := th.dest.map fun d => (d, BitVec.ofNat 32 st), p := none, cause := none, set := none }).syncSaved t
  | none => s

/-- A submission that a cause replaces: nothing is submitted, and the status register keeps its value (R99). -/
def State.finishTrap (s : State) (t : Tid) (c : Cause) (info : DWord) : State := s.pushCompl t [] none (some (c, info))

/-- The submission of a parked LAUNCH (R99): it waits for room (R97); inside a region that its segment end committed early it is held again. -/
def State.launchRequest (s : State) (o : OutReq) (va : DWord) (loc : Bool) : State :=
  match s.thread? o.t, (s.thread? o.t).bind s.viewCtx with
  | some th, some c =>
    let at_ : Nat := ((translateVA c va 256 .read).map (·.1)).getD 0
    if !th.inRegion && !s.launchRoom c.id then s
    else
      let h (ia : Nat) : HeldAcc := { who := .thread o.t, ctx := c.id, ia, op := .write (.launch va [] loc), kind := none }
      match s.fetchRecord o.t c va with
      | (s, .bytes bs) =>
        let s := s.dropOut o
        if th.inRegion then
          (s.modThread o.t fun th => th.inner fun r => { r with held := r.held ++ [.launch va bs loc] }).finishStatus o.t 2
        else
          let (s, st) := s.submit { th with core := o.core } va bs loc
          s.statusNow o.t st
      | (s, .fault ia k l e) => (s.dropOut o).holdFault (h ia) .load k l e
      | (s, .wait ia) => (s.dropOut o).holdBlocked (h ia)
      | (s, .miss) => (s.dropOut o).finishTrap o.t .windowMiss va
      | (s, .bad) =>
        let s := s.dropOut o
        match o.dest with
        | .peer m _ => s.finishTrap o.t .remoteTimeout (BitVec.ofNat 64 m)
        | _ => s.finishTrap o.t .uncorrectable (BitVec.ofNat 64 at_)
  | _, _ => s.dropOut o

/-- A request that has left the core, a submission among them. -/
def State.performRequest (s : State) (o : OutReq) : State :=
  match o.op with
  | .write (.launch va _ loc) => s.launchRequest o va loc
  | _ => s.performOut o

/-- Whether a request can make progress: a submission needs room (R97, R119), or has its own event. -/
def State.requestReady (s : State) (o : OutReq) : Bool :=
  match o.op with
  | .write (.launch _ _ _) => s.submitsNext o && (s.hasRegion o.t || s.launchRoom (s.ctxOf o.t))
  | .write (.task _ _) => false
  | _ => true

/-! ### LAUNCH -/

/-- The launch completes within the core: its record is read and it is submitted, or held (R99). -/
def State.launchHere (s : State) (t : Tid) (d : XReg) (va : DWord) (ia : Nat) (peer : Option Nat) (raw : List Byte) (loc : Bool) : State :=
  match s.thread? t with
  | none => s
  | some th =>
    if th.inRegion then
      match (if peer.isNone then s.regionRead t ⟨false, ia, raw⟩ else (s, true)) with
      | (s, false) => s
      | (s, true) => s.emitThen t (.launch va (th.viewOf ia peer raw) loc) fun s => s.writeD t d 2
    else
      let (s, st) := s.submit th va raw loc
      s.writeD t d (BitVec.ofNat 32 st)

/-- The launch ends its segment and its submission is made afterwards. -/
def State.launchAway (s : State) (t : Tid) (d : XReg) (va : DWord) (ia : Nat) (peer : Option Nat) (loc : Bool) : State :=
  match s.thread? t with
  | none => s
  | some th =>
    match s.segEnd t (succPc th.pc) [d.toNat] .task 1 [d.toNat] none with
    | (s, true) => match s.recordDest ia peer with
      | .peer m a => s.pushRemote t m a (.write (.launch va [] loc))
      | dst => s.pushOut t dst (.write (.launch va [] loc))
    | (s, false) => s

/-- A submission of the same issue by an earlier lane still waits: a later lane's comes after it (R99). -/
def State.submitsBehind (s : State) (t : Tid) : Bool :=
  match s.thread? t with
  | none => false
  | some th => s.out.any fun x => x.op.isSubmit && x.core == th.core &&
      (match s.thread? x.t with
       | some y => y.segpc == th.pc && Tid.ctxNum y.id == Tid.ctxNum th.id && Tid.gridNum y.id == Tid.gridNum th.id
       | none => false)

/-- Whether the record lies in this module's memory, whose lines alone L1 holds (R296). -/
def State.recordHere (s : State) (ia : Nat) (peer : Option Nat) : Bool :=
  match peer, s.route ia false with
  | none, .to (.mem _) => true
  | _, _ => false

/-- Within the core when the record's lines hit in L1, an open choice (log 11), and the context has room. -/
def State.launch (s : State) (t : Tid) (c : Ctx) (d : XReg) (va : DWord) (ia : Nat) (peer : Option Nat) (loc : Bool) : State :=
  let (k, s') := s.choice
  if !s.requestRoom (s.coreOf t) then s
  else if !s.recordHere ia peer then s'.launchAway t d va ia peer loc
  else match s'.fetchRecord t c va with
  | (s'', .bytes raw) =>
    if k % 2 = 0 ∧ s''.submitsBehind t = false ∧ (s''.hasRegion t ∨ s''.launchRoom c.id) then s''.launchHere t d va ia peer raw loc
    else s'.launchAway t d va ia peer loc
  | _ => s'.launchAway t d va ia peer loc

def execLaunch (g : Guard) (loc : Bool) (d : XReg) (m : MemOp) (s : State) : Host.Outcome State Fault Refusal :=
  s.run (.launch g loc d m) fun s t =>
    match s.thread? t, (s.thread? t).bind s.viewCtx with
    | some th, some c =>
      let va := effAddr th.regs m
      if va.toNat % 256 ≠ 0 then s.raise t .misaligned va
      else match translateVA c va 256 .read with
        | none => s.raise t .windowMiss va
        | some (ia, peer) =>
          if s.heldByLog t then s
          else s.compared t (effAddr (State.shadowOf th) m == va) 0 fun s => s.launch t c d va ia peer loc
    | _, _ => s

/-! ### SPAWN, MBOX -/

/-- Ends the segment of a sender; its packet is accepted or refused at the target's mailbox (TASK_PACKET_ARRIVAL). -/
def State.sendAway (s : State) (t : Tid) (d : XReg) (pkt : List Byte) (die : Nat) : State :=
  match s.thread? t with
  | none => s
  | some th =>
    match s.segEnd t (succPc th.pc) [d.toNat] .task 1 [d.toNat] none with
    | (s, true) => s.pushOut t .group (.write (.task pkt die))
    | (s, false) => s

/-- The 64 bytes of a packet in registers. -/
def packetOf (r : Regs) (a : XReg) : List Byte := bytesOfWords (r.xs a 16)

def execSpawn (g : Guard) (d a : XReg) (s : State) : Host.Outcome State Fault Refusal :=
  s.run (.spawn g d a) fun s t =>
    match s.thread? t with
    | none => s
    | some th =>
      let pkt := packetOf th.regs a
      let die := s.dieOf th.core
      if s.heldByLog t then s
      else s.compared t (packetOf (State.shadowOf th) a == pkt) 0 fun s =>
        if th.inRegion then s.emitThen t (.task pkt die) fun s => s.writeD t d 2
        else if !s.submitsBehind t && s.taskRoom die then
          let (s, st, es) := s.sendTask th.core th pkt die
          es.foldl (fun s x => s.postEvent x.1 x.2) (s.writeD t d (BitVec.ofNat 32 st))
        else s.sendAway t d pkt die

/-- MBOX ends the segment also where it sends nothing (R119). -/
def State.mboxRefused (s : State) (t : Tid) (d : XReg) : State :=
  match s.thread? t with
  | none => s
  | some th =>
    if th.inRegion then s.writeD t d 4
    else match s.segEnd t (succPc th.pc) [d.toNat] .task 1 [d.toNat] none with
      | (s, true) => s.finishStatus t 4
      | (s, false) => s

def execMbox (g : Guard) (d a b : XReg) (s : State) : Host.Outcome State Fault Refusal :=
  s.run (.mbox g d a b) fun s t =>
    match s.thread? t with
    | none => s
    | some th =>
      let pkt := packetOf th.regs a
      let sh := State.shadowOf th
      let die := (th.regs.x32 b).toNat % 32
      if s.heldByLog t then s
      else s.compared t (packetOf sh a == pkt && (sh.x32 b).toNat % 32 == die) 0 fun s =>
        if !s.domainDie t die then s.mboxRefused t d
        else if th.inRegion then s.emitThen t (.task pkt die) fun s => s.writeD t d 2
        else s.sendAway t d pkt die

/-! ### EVSET, EVCLR, EVWAIT -/

/-- The set S that a form names (Table 5.8). -/
def EvForm.mask (f : EvForm) (r : Regs) : EvMask :=
  match f with
  | .imm n => BitVec.ofNat 256 (2 ^ n.toNat)
  | .reg a => BitVec.ofNat 256 (2 ^ ((r.x32 a).toNat % 256))
  | .mask a k => BitVec.ofNat 256 ((r.x32 a).toNat * 2 ^ (32 * k.toNat))

/-- One event-unit operation, held in a region; an empty set performs none (R103). -/
def State.eventAct (s : State) (t : Tid) (f : EvForm) (e : EvMask → Eff) : State :=
  match s.thread? t with
  | none => s
  | some th =>
    let m := EvForm.mask f th.regs
    s.compared t (EvForm.mask f (State.shadowOf th) == m) 0 fun s =>
      if m = 0 then s.advance t else s.emitThen t (e m) fun s => s.advance t

def execEvset (g : Guard) (f : EvForm) (s : State) : Host.Outcome State Fault Refusal :=
  s.run (.evset g f) fun s t => s.eventAct t f .evset

def execEvclr (g : Guard) (f : EvForm) (s : State) : Host.Outcome State Fault Refusal :=
  s.run (.evclr g f) fun s t => s.eventAct t f .evclr

def execEvwait (g : Guard) (f : EvForm) (s : State) : Host.Outcome State Fault Refusal :=
  s.run (.evwait g f) fun s t =>
    match s.thread? t with
    | none => s
    | some th =>
      let m := EvForm.mask f th.regs
      if s.heldByLog t then s
      else s.compared t (EvForm.mask f (State.shadowOf th) == m) 0 fun s =>
        match s.segEnd t (succPc th.pc) [] (.event m) 1 [] none with
        | (s, true) =>
          if s.evTest (s.ctxOf t) m then (s.wake t).pushCompl t [] none none else s
        | (s, false) => s

/-! ### EVQPOP -/

/-- Takes the context's oldest entry of a core's event queue. -/
def State.takeEvent (s : State) (core ctx : Nat) : Option (State × EvEntry) :=
  match popEv (s.core core).evq ctx with
  | (some e, q) => some (s.modCore core fun c => { c with evq := q }, e)
  | (none, _) => none

/-- A pop inside a region, its segment having ended: the entry, zeros, or a wait. -/
def State.eventParked (s : State) (t : Tid) (core : Nat) (nb : Bool) : State :=
  match s.thread? t with
  | none => s
  | some th =>
    match s.takeEvent core (s.ctxOf t) with
    | some (s, e) => s.pushCompl t (th.dest.zip e.words) none none
    | none =>
      if nb then s.pushCompl t (th.dest.map fun d => (d, 0)) none none
      else s.modThread t fun th => { th with wait := .evq }

/-- EVQPOP and EVQPOP.NB of one thread. -/
def State.popEvent (s : State) (t : Tid) (d : XReg) (nb : Bool) : State :=
  match s.thread? t with
  | none => s
  | some th =>
    let dest := seqFrom d.toNat 4
    if s.heldByLog t then s
    else if th.inRegion then
      match s.segEnd t (succPc th.pc) dest (.popEvq nb) 1 dest none with
      | (s, true) => s.eventParked t th.core nb
      | (s, false) => s
    else match s.takeEvent th.core (s.ctxOf t) with
      | some (s, e) => s.writeRegs t d e.words none
      | none =>
        if nb then s.writeRegs t d (List.replicate 4 0) none
        else (s.segEnd t (succPc th.pc) dest .evq 1 dest none).1

def execEvqpop (g : Guard) (d : XReg) (s : State) : Host.Outcome State Fault Refusal :=
  s.run (.evqpop g d) fun s t => s.popEvent t d false

def execEvqpopNb (g : Guard) (d : XReg) (s : State) : Host.Outcome State Fault Refusal :=
  s.run (.evqpopNb g d) fun s t => s.popEvent t d true

end Sys2Proof.Machine
end

