-- ==== Sys2Proof/Machine/Segment.lean ====
section
/-! DEFINITION. The instructions that end a segment by name: SEG (R146), YIELD (R147), FWD (R148). -/

namespace Sys2Proof.Machine

open Sys2Proof

/-- The standing set that SEG and FWD declare (R128). -/
def State.setStanding (s : State) (t : Tid) (d : Nat) (live : List Nat) (free : Bool) : State :=
  s.modThread t fun th => { th with lsv := true, livesel := d, live255 := live.contains 255, lfree := free }

/-- Whether the shadow's record would hold the same registers (R149). -/
def sameLive (th : Thread) (live : List Nat) : Bool :=
  live.all fun n => getAt 0 (State.shadowOf th).x n == getAt 0 th.regs.x n

/-- The checks that SEG and FWD share, then `k` with the live list. DESIGN CHOICE: HANDLER_STATE (R390) comes before LIVE_INDEX (R146, R148), an order that the spec does not give (log 56). -/
def State.withLive (s : State) (t : Tid) (d : BitVec 8) (n : BitVec 4) (k : State → Thread → List Nat → State) : State :=
  match s.thread? t with
  | none => s
  | some th =>
    if th.h.hmode then s.raise t .handlerState 0
    else match s.liveList t d.toNat (n.toNat + 1) with
      | none => s.raise t .liveIndex (d.setWidth 64)
      | some live => s.compared t (sameLive th live) 0 fun s => k s th live

def execSeg (g : Guard) (free : Bool) (d : BitVec 8) (n : BitVec 4) (off : Word) (slot : Slot) (s : State) :
    Host.Outcome State Fault Refusal :=
  s.run (.seg g free d n off slot) fun s t =>
    s.withLive t d n fun s th live =>
      match s.segReady t live false with
      | (s, true) => (s.setStanding t d.toNat live free).endSegment t (branchTarget th.pc off slot) live .none 0 [] none
      | (s, false) => s

def execYield (g : Guard) (off : Word) (slot : Slot) (s : State) : Host.Outcome State Fault Refusal :=
  s.run (.yield g off slot) fun s t =>
    match s.thread? t with
    | none => s
    | some th =>
      if th.h.hmode then s.raise t .handlerState 0
      else s.compared t (sameLive th (s.standing th)) 0 fun s =>
        (s.segEnd t (branchTarget th.pc off slot) [] .none 0 [] none).1

/-! ### FWD -/

/-- A record that goes to a die: written, ready, in no bin. -/
def State.parkLoose (s : State) (t : Tid) (resume : DWord) (live : List Nat) : State :=
  let s := s.park t resume live .none 1 [] none
  s.modThread t fun th => { th with pend := 0, ready := s.ready }

/-- One lane's record; `some die` when it is to be offered there (R148, R272). -/
def State.forwardOne (s : State) (t : Tid) (d : Nat) (live : List Nat) (die : Nat) : State × Option Nat :=
  match s.thread? t with
  | none => (s, none)
  | some th =>
    match s.segReady t live false with
    | (s, false) => (s, none)
    | (s, true) =>
      let s := s.setStanding t d live true
      let pc := succPc th.pc
      if th.inPlace || s.covered t || s.logging t || !s.domainDie t die then (s.endSegment t pc live .none 0 [] none, none)
      else
        let s := s.parkLoose t pc live
        match s.thread? t with
        | some x => if x.tb then (s.makeReady t, none) else (s, some die)
        | none => (s, none)

/-- One mailbox entry for the records of one issue to one die; with no room each stays on its own core. -/
def State.offer (s : State) (die : Nat) (ts : List Tid) : State :=
  match ts with
  | [] => s
  | t :: _ =>
    if s.recordRoom die then
      let s := ts.foldl (fun s t => s.modThread t fun th => { th with loc := .offered die }) s
      s.modDie die fun d => { d with mailbox := d.mailbox ++ [.records (s.ctxOf t) ts s.cycle] }
    else ts.foldl State.makeReady s

/-- The dies of a context's domain. -/
def Ctx.domain (c : Ctx) : List Nat := (seqFrom 0 Config.dies).filter fun d => c.placedom.getLsbD d

/-- The die of FWD.ANY, an open choice (log 11); 31 when the domain is empty. -/
def State.anyDie (s : State) (c : Nat) : Nat × State :=
  let (k, s) := s.choice
  match s.ctx? c with
  | some x => (getAt 31 x.domain (k % x.domain.length), s)
  | none => (31, s)

/-- The records of one issue, in lane order, then their offers. -/
def State.forward (s : State) (d : BitVec 8) (n : BitVec 4) (die : Thread → Nat) (ts : List Tid) : State :=
  let (s, out) := ts.foldl (fun (q : State × List (Nat × Tid)) t =>
    let (s, o) := q
    match s.thread? t with
    | none => (s, o)
    | some th =>
      if th.h.hmode then (s.raise t .handlerState 0, o)
      else match s.liveList t d.toNat (n.toNat + 1) with
        | none => (s.raise t .liveIndex (d.setWidth 64), o)
        | some live =>
          match s.mismatch t (sameLive th live) 0 with
          | (s, true) => (s, o)
          | (s, false) =>
            match s.forwardOne t d.toNat live (die th) with
            | (s, some k) => (s, o ++ [(k, t)])
            | (s, none) => (s, o)) (s, [])
  (out.map (·.1)).eraseDups.foldl (fun s k => s.offer k ((out.filter fun q => q.1 == k).map (·.2))) s

/-- The dies that the lanes of an issue name: their registers', or one die for all. -/
def State.forwardAll (s : State) (b : Option XReg) (d : BitVec 8) (n : BitVec 4) (ts : List Tid) : State :=
  match b, ts with
  | _, [] => s
  | some b, _ => s.forward d n (fun th => (th.regs.x32 b).toNat % 32) ts
  | none, t :: _ =>
    let (k, s) := s.anyDie (s.ctxOf t)
    s.forward d n (fun _ => k) ts

def execFwd (g : Guard) (b : Option XReg) (d : BitVec 8) (n : BitVec 4) (s : State) : Host.Outcome State Fault Refusal :=
  s.runAll (.fwd g b d n) fun s ts => s.forwardAll b d n ts

end Sys2Proof.Machine
end

