-- ==== Sys2Proof/Machine/RegionOps.lean ====
section
/-! DEFINITION. Recovery regions (R412 to R421) and the error log's instructions (R422). -/

namespace Sys2Proof.Machine

open Sys2Proof

/-- What the region instructions share: HANDLER_STATE in a handler (R419), the limit of run-ahead, and the depth's check. -/
def State.regionGate (s : State) (t : Tid) (nest : Thread → Bool) (k : State → Thread → State) : State :=
  match s.thread? t with
  | none => s
  | some th =>
    if th.h.hmode then s.raise t .handlerState 0
    else if th.inRunAhead then s.specLimit t
    else if nest th then s.raise t .rgnNest 0
    else k s th

/-- The attempt count pending for an RBEGIN at an address and depth (R417). -/
def Thread.pendingAttempt (th : Thread) : Nat :=
  match th.attempt with
  | some (a, d, n) => if a = th.pc ∧ d = th.depth then n else 0
  | none => 0

/-- A region opened at the thread's RBEGIN. -/
def Thread.newRegion (th : Thread) (abort : DWord) : Region :=
  { start := th.pc, abort, attempt := th.pendingAttempt, preds := th.regs.p, kept := [], held := [], reads := [], units := []
    allocs := [], partial_ := false, ahead := none }

def Thread.openRegion (th : Thread) (abort : DWord) : Thread :=
  { th with
    regions := th.newRegion abort :: th.regions
    attempt := match th.attempt with
      | some (a, d, n) => if a = th.pc ∧ d = th.depth then none else some (a, d, n)
      | none => none }

def execRbegin (g : Guard) (d : XReg) (off : Word) (slot : Slot) (s : State) : Host.Outcome State Fault Refusal :=
  s.run (.rbegin g d off slot) fun s t =>
    s.regionGate t (fun th => th.depth == 4) fun s th =>
      (s.modThread t fun th => th.openRegion (branchTarget th.pc off slot)).writeD t d (BitVec.ofNat 32 th.pendingAttempt)

/-! ### RKEEP -/

/-- Registers that the innermost region does not keep yet. -/
def Thread.newKept (th : Thread) (a n : Nat) : List Nat :=
  (seqFrom a n).filter fun r => !((th.regions.headD (th.newRegion 0)).kept.any fun q => q.1 == r)
def Thread.keptCount (th : Thread) : Nat := th.regions.foldl (fun n r => n + r.kept.length) 0

def State.regionKeep (s : State) (t : Tid) (th : Thread) (a n : Nat) : State :=
  if (th.regions.headD (th.newRegion 0)).partial_ then s.advance t
  else
    let more := th.newKept a n
    if 64 < th.keptCount + more.length then (s.settleRegions t).1
    else (s.modThread t fun th =>
      th.inner fun r => { r with kept := r.kept ++ more.map fun x => (x, getAt 0 th.regs.x x) }).advance t

def execRkeep (g : Guard) (a : XReg) (n : BitVec 4) (s : State) : Host.Outcome State Fault Refusal :=
  s.run (.rkeep g a n) fun s t =>
    s.regionGate t (fun th => th.depth == 0) fun s th => s.regionKeep t th a.toNat (n.toNat + 1)

/-! ### REND -/

/-- The inner region's held writes, marks and effects join the enclosing region's; its snapshot and undo state go (R415). -/
def mergeRegions : List Region → List Region
  | i :: o :: rest => { o with held := o.held ++ i.held, reads := o.reads ++ i.reads } :: rest
  | l => l

/-- The outermost REND waits resident for its commit (REGION_COMMIT_DONE). -/
def execRend (g : Guard) (s : State) : Host.Outcome State Fault Refusal :=
  s.run (.rend g) fun s t =>
    s.regionGate t (fun th => th.depth == 0) fun s th =>
      if 1 < th.depth then s.modThread t fun th => { th.advance with regions := mergeRegions th.regions }
      else s.holdAt t (.commit t)

/-- The commit of the outermost region is performed, fails, or must still wait. -/
def State.commitDone (s : State) (t : Tid) : State :=
  let done (s : State) : State :=
    { s.modThread t (fun th => { th with hold := false }) with resWait := s.resWait.filter fun w => w != .commit t }
  match s.thread? t with
  | none => s
  | some th =>
    match s.commitAll t with
    | (s, .ok) => (done s).modThread t fun th => { th with regions := [] }
    | (s, .conflict) => (done s).conflict t th.segpc th.pc
    | (s, .wait) => s

/-! ### RABORT -/

/-- The innermost region rolls back and control goes to its abort target; a PARTIAL region cannot (Table 20.1). -/
def State.regionAbort (s : State) (t : Tid) : State :=
  match s.thread? t with
  | none => s
  | some th =>
    if (th.regions.headD (th.newRegion 0)).partial_ then (s.closeRegions t).raise t .rgnPartialError 0
    else match s.rollback t 0 with
      | (s, some r) => s.transfer t r.abort
      | (s, none) => s

def execRabort (g : Guard) (s : State) : Host.Outcome State Fault Refusal :=
  s.run (.rabort g) fun s t => s.regionGate t (fun th => th.depth == 0) fun s _ => s.regionAbort t

/-! ### The error log -/

/-- Takes the context's oldest entry: its words, zeros when there is none. -/
def State.takeError (s : State) (core ctx : Nat) : State × List Word :=
  match popErr (s.core core).errlog ctx with
  | (some e, q) => (s.modCore core fun c => { c with errlog := q }, e.words)
  | (none, _) => (s, List.replicate 4 0)

def execErrlogPop (g : Guard) (d : XReg) (s : State) : Host.Outcome State Fault Refusal :=
  s.run (.errlogPop g d) fun s t =>
    match s.thread? t with
    | none => s
    | some th =>
      let dest := seqFrom d.toNat 4
      if th.inRegion then
        match s.segEnd t (succPc th.pc) dest .popLog 1 dest none with
        | (s, true) =>
          let (s, ws) := s.takeError th.core (s.ctxOf t)
          s.pushCompl t (dest.zip ws) none none
        | (s, false) => s
      else if s.heldByLog t then s
      else
        let (s, ws) := s.takeError th.core (s.ctxOf t)
        s.writeRegs t d ws none

/-- The status word (Table 20.4). -/
def State.errStat (s : State) (th : Thread) : Word :=
  let ctx := s.ctxOf th.id
  let k := s.core th.core
  let dropped := match k.dropped.find? fun q => q.1 == ctx with
    | some (_, n) => min n 255
    | none => 0
  let red := match s.ctx? ctx with
    | some c => c.redundant
    | none => false
  BitVec.ofNat 32 ((if th.regions.any (·.partial_) then 2 ^ 20 else 0) + th.depth * 2 ^ 17 + (if red then 2 ^ 16 else 0) + dropped * 2 ^ 8 +
    min (k.errlog.filter fun e => e.ctx == ctx).length 255)

def execErrlogStat (g : Guard) (d : XReg) (s : State) : Host.Outcome State Fault Refusal :=
  s.run (.errlogStat g d) fun s t =>
    match s.thread? t with
    | none => s
    | some th => s.writeD t d (s.errStat th)

/-- Arms an injection in BRINGUP and TEST; kinds 2 and 3 do nothing. -/
def execErrlogInj (g : Guard) (kind : BitVec 2) (s : State) : Host.Outcome State Fault Refusal :=
  s.run (.errlogInj g kind) fun s t =>
    s.modThread t fun th =>
      { th.advance with inject := if (s.mmode = 1 ∨ s.mmode = 2) ∧ kind.toNat < 2 then some kind.toNat else th.inject }

end Sys2Proof.Machine
end

