-- ==== Sys2Proof/Machine/System.lean ====
section
/-! DEFINITION. System instructions: SRD and SWR (R409), TRET and ESC (R410, R411), WINSET and WINSET.CLR (R263), HALT (R429), CKPT (R433). -/

namespace Sys2Proof.Machine

open Sys2Proof

/-! ### SRD, SWR -/

def execSrd (g : Guard) (w64 : Bool) (d : XReg) (n : BitVec 12) (s : State) : Host.Outcome State Fault Refusal :=
  s.run (.srd g w64 d n) fun s t =>
    let v := s.sysRead t n.toNat
    s.compute (fun r => (if w64 then r.set64 d (BitVec.ofNat 64 v) else r.set32 d (BitVec.ofNat 32 v), 0)) t

/-- SWR's operand. -/
def swrOperand (r : Regs) (w64 : Bool) (a : XReg) : DWord := if w64 then r.x64 a else (r.x32 a).setWidth 64

def execSwr (g : Guard) (w64 : Bool) (a : XReg) (n : BitVec 12) (s : State) : Host.Outcome State Fault Refusal :=
  s.run (.swr g w64 a n) fun s t =>
    match s.thread? t with
    | none => s
    | some th =>
      let v := swrOperand th.regs w64 a
      s.compared t (swrOperand (State.shadowOf th) w64 a == v) 0 fun s => s.emitThen t (.swr n.toNat v) fun s => s.advance t

/-! ### TRET, ESC -/

def execTret (g : Guard) (s : State) : Host.Outcome State Fault Refusal := s.run (.tret g) State.trapReturn

def execEsc (g : Guard) (s : State) : Host.Outcome State Fault Refusal :=
  s.run (.esc g) fun s t =>
    match s.thread? t with
    | none => s
    | some th => if th.h.hmode then s.escalate t 1 else s.raise t .handlerState 0

/-! ### WINSET -/

/-- R263's checks of the four words. -/
def windowFormat (modid : Nat) (b l i c : DWord) : Bool :=
  let dom := bitsOf c.toNat 8 2
  let mod := bitsOf c.toNat 16 12
  bitsOf b.toNat 0 12 == 0 && bitsOf l.toNat 0 12 == 0 && bitsOf i.toNat 0 12 == 0 && bitsOf i.toNat 52 12 == 0 &&
  bitsOf c.toNat 28 35 == 0 && bitsOf c.toNat 10 6 == 0 && bitsOf c.toNat 3 5 == 0 &&
  canonical b && canonical l && decide (b.toNat ≤ l.toNat) && decide (i.toNat + (l.toNat - b.toNat) < 2 ^ 52) &&
  decide (dom ≤ 1) && (dom != 0 || mod == 0) && (dom != 1 || (!c.getLsbD 2 && mod != modid))

/-- Writes a window, held in a region; outside one the thread stays until every unit holds the new values. -/
def State.winChange (s : State) (t : Tid) (e : Eff) : State :=
  match s.thread? t with
  | none => s
  | some th =>
    if s.heldByLog t then s
    else s.emitThen t e fun s => if th.inRegion then s.advance t else s.holdAt t (.winset t)

/-- WINSET's four words in registers. -/
def windowWords (r : Regs) (a : XReg) : List DWord := [r.x64 a, r.x64 (a + 2), r.x64 (a + 4), r.x64 (a + 6)]

def execWinset (g : Guard) (w : WReg) (a : XReg) (s : State) : Host.Outcome State Fault Refusal :=
  s.run (.winset g w a) fun s t =>
    match s.thread? t with
    | none => s
    | some th =>
      let v := windowWords th.regs a
      if !windowFormat s.modid (getAt 0 v 0) (getAt 0 v 1) (getAt 0 v 2) (getAt 0 v 3) then s.raise t .windowFormat 0
      else s.compared t (windowWords (State.shadowOf th) a == v) 0 fun s => s.winChange t (.winset w.toNat v)

def execWinsetClr (g : Guard) (w : WReg) (s : State) : Host.Outcome State Fault Refusal :=
  s.run (.winsetClr g w) fun s t => s.compared t true 0 fun s => s.winChange t (.winsetClr w.toNat)

/-! ### HALT -/

/-- A lane of HALT that reaches the end point. -/
def State.haltReady (s : State) (t : Tid) : State × Bool :=
  match s.thread? t with
  | none => (s, false)
  | some th =>
    if th.h.hmode then (s.raise t .handlerState 0, false)
    else if th.inRunAhead then (s.specLimit t, false)
    else match s.mismatch t true 0 with
      | (s, true) => (s, false)
      | (s, false) => s.commitClose t

/-- One end point for the lanes of an issue. -/
def State.halt (s : State) (err : Bool) (ts : List Tid) : State :=
  match s.keepIf State.haltReady ts with
  | (s, .thr c g _ _ _ :: _) => s.endGrid c g (if err then stGridKilled else stOk)
  | (s, _) => s

def execHalt (g : Guard) (err : Bool) (s : State) : Host.Outcome State Fault Refusal :=
  s.runAll (.halt g err) fun s ts => s.halt err ts

/-! ### CKPT -/

/-- The thread suspends in place and the module begins to quiesce (R433, R434). -/
def State.checkpoint (s : State) (t : Tid) (d : XReg) : State :=
  match s.thread? t with
  | none => s
  | some th =>
    match s.settleRegions t with
    | (s, false) => s
    | (s, true) =>
      if !s.ckpt.rsv then s.writeD t d 2
      else if s.ckpt.state ≠ 0 then s.writeD t d 1
      else { s.park t (succPc th.pc) [] .task 1 [d.toNat] none with
        messages := s.messages ++ [.flood .recovering]
        ckpt := { s.ckpt with state := 1, waiter := some (t, d.toNat), cycle := s.cycle } }

def execCkpt (g : Guard) (d : XReg) (s : State) : Host.Outcome State Fault Refusal :=
  s.run (.ckpt g d) fun s t => s.compared t true 0 fun s => s.checkpoint t d

end Sys2Proof.Machine
end

