-- ==== Sys2Proof/Machine/Loader.lean ====
section
/-! DEFINITION. The loader (R22 to R37): identification, kernel headers and tables, relocations, parity, placement. -/

namespace Sys2Proof.Machine

open Sys2Proof

/-- Load status (Table 2.7). -/
def ldOk : Nat := 0
def ldElf : Nat := 1
def ldHeader : Nat := 2
def ldLatency : Nat := 3
def ldReloc : Nat := 4
def ldTable : Nat := 5
def ldSpace : Nat := 6

/-! ### Headers (R24 to R26) -/

/-- Header bytes of the kernel at an entry offset. -/
def headerOf (code : List Byte) (e : Nat) : List Byte := (code.drop (e - 64)).take 64
/-- A role entry: GROUPS and RREGS. -/
def headerRole (h : List Byte) (k : Nat) : Nat × Nat := (fieldAt h (0x14 + 2 * k) 1, fieldAt h (0x15 + 2 * k) 1)

/-- R26. -/
def rolesOk (h : List Byte) : Bool :=
  let n := fieldAt h 0x11 1
  let regs := fieldAt h 0x10 1
  let rs := (seqFrom 0 4).map (headerRole h)
  (rs.zip (seqFrom 0 4)).all (fun (r, k) =>
    if k < n then decide (1 ≤ r.1) && decide (1 ≤ r.2) && decide (r.2 ≤ regs) else r == (0, 0)) &&
  decide (rs.foldl (fun n r => n + r.1) 0 ≤ 32)

def noHandler : Nat := 0x80000000

/-- A handler offset: none, or a line inside the kernel's code whose TGT bit 0 is set (R25). -/
def handlerOk (code h : List Byte) (e off : Nat) : Bool :=
  off == noHandler ||
  (let k := signExtend 32 off
   decide (0 ≤ k) && decide (k < fieldAt h 0x0C 4) && (fieldAt code (e + 64 * k.toNat + 60) 4).testBit 0)

/-- A table of `n` entries at a header's offset lies wholly inside one section of its own type (R25). -/
def tableIn (secs : List (Nat × Nat)) (e n off : Nat) : Bool :=
  n == 0 || (off % 16 == 0 &&
    (let p : Int := (e : Int) - 64 + signExtend 32 off
     secs.any fun q => decide ((q.1 : Int) ≤ p) && decide (p + 16 * n ≤ (q.2 : Int))))

/-- The contiguous block of the three section types (R23). -/
def ImageFile.block (f : ImageFile) : List Byte := f.code ++ f.live ++ f.range

/-- An entry line: on a line boundary of the code, with its header before it (R23). -/
def kernelEntryOk (f : ImageFile) (e : Nat) : Bool := e % 64 == 0 && decide (64 ≤ e) && decide (e < f.code.length)

/-- R24 and R25 on one kernel. DESIGN CHOICE: lines that CODESIZE counts past the end of the code break a limit of the header, BAD_HEADER (log 17). -/
def headerOk (f : ImageFile) (e : Nat) : Bool :=
  let h := headerOf f.code e
  let get := fieldAt h
  kernelEntryOk f e && get 0x00 4 == 0x44484B46 && get 0x04 2 == 1 && decide (1 ≤ get 0x06 2) &&
  get 0x08 4 % 256 == 0 && decide (get 0x08 4 ≤ Config.scratchBytes) &&
  decide (1 ≤ get 0x0C 4) && decide (e + 64 * get 0x0C 4 ≤ f.code.length) &&
  decide (1 ≤ get 0x10 1) && decide (get 0x10 1 ≤ 32) && decide (1 ≤ get 0x11 1) && decide (get 0x11 1 ≤ 4) &&
  get 0x12 2 == 0 && rolesOk h && decide (get 0x1C 4 < 4) &&
  handlerOk f.code h e (get 0x20 4) && handlerOk f.code h e (get 0x24 4) && decide (popCount (get 0x28 4) 32 ≤ 8) &&
  decide (get 0x30 2 ≤ 256) && decide (get 0x32 2 ≤ 255) && get 0x38 8 == 0 &&
  tableIn f.liveSecs e (get 0x30 2) (get 0x2C 4) && tableIn f.rangeSecs e (get 0x32 2) (get 0x34 4)

/-! ### Tables (R31, R32) -/

def tableAt (block : List Byte) (e off k : Nat) : List Byte := (block.drop (((e : Int) - 64 + signExtend 32 off).toNat + 16 * k)).take 16

/-- The registers of a live-list entry: its bytes before the first 0xFF. -/
def liveNums (bs : List Byte) : List Nat := (bs.takeWhile (· != 0xFF)).map (·.toNat)
def rising : List Nat → Bool
  | a :: b :: rest => decide (a < b) && rising (b :: rest)
  | _ => true
/-- R31 on an entry. In a kernel of 256 registers a 0xFF may also be X255's own byte: an entry of nothing but 0xFF lists X255 (log 36). -/
def liveOk (regs : Nat) (bs : List Byte) : Bool :=
  let ns := liveNums bs
  (!ns.isEmpty || regs == 32) && rising ns && ns.all (fun n => decide (n < 8 * regs)) && (bs.drop ns.length).all (· == 0xFF)

/-- The used ranges of a live-range entry, in bytes. -/
def rangeList (bs : List Byte) : List (Nat × Nat) :=
  ((seqFrom 0 4).map fun k => (fieldAt bs (4 * k) 2 * 64, fieldAt bs (4 * k + 2) 2 * 64)).filter fun r => r.2 != 0
def rangesOk (scratch : Nat) (bs : List Byte) : Bool := (rangeList bs).all fun r => decide (r.1 + r.2 ≤ scratch)

def liveEntries (f : ImageFile) (e : Nat) : List (List Byte) :=
  let h := headerOf f.code e
  (seqFrom 0 (fieldAt h 0x30 2)).map (tableAt (ImageFile.block f) e (fieldAt h 0x2C 4))
def rangeEntries (f : ImageFile) (e : Nat) : List (List Byte) :=
  let h := headerOf f.code e
  (seqFrom 0 (fieldAt h 0x32 2)).map (tableAt (ImageFile.block f) e (fieldAt h 0x34 4))

def tablesOk (f : ImageFile) (e : Nat) : Bool :=
  let h := headerOf f.code e
  (liveEntries f e).all (liveOk (fieldAt h 0x10 1)) && (rangeEntries f e).all (rangesOk (fieldAt h 0x08 4))

/-- The kernel of a header that passed its checks. DESIGN CHOICE: the checks and the kernel's fields take the file's bytes, before any relocation (log 17). -/
def kernelAt (f : ImageFile) (e : Nat) : Kernel :=
  let h := headerOf f.code e
  let cfg := fieldAt h 0x1C 4
  { entry := BitVec.ofNat 64 (f.base + e), ltver := fieldAt h 0x06 2, scratch := fieldAt h 0x08 4, codesize := fieldAt h 0x0C 4
    regs := fieldAt h 0x10 1, roles := ((seqFrom 0 (fieldAt h 0x11 1)).map (headerRole h)).map fun r => (r.1, 8 * r.2)
    ftzd := cfg.testBit 1, redreq := cfg.testBit 0, ghoff := BitVec.ofNat 32 (fieldAt h 0x20 4), thoff := BitVec.ofNat 32 (fieldAt h 0x24 4)
    timed := BitVec.ofNat 32 (fieldAt h 0x28 4), live := (liveEntries f e).map liveNums, ranges := (rangeEntries f e).map rangeList }

/-! ### Relocations (R33, R34) -/

/-- Bytes replaced in a list; bytes beyond its end stay out. -/
def patch (bs : List Byte) (off : Nat) (new : List Byte) : List Byte :=
  ((bs.zip (seqFrom 0 bs.length)).map fun (b, k) => if off ≤ k ∧ k < off + new.length then getAt b new (k - off) else b)

/-- The base of the window that maps a symbol's address. -/
def windowBase (c : Ctx) (va : Nat) : Option Nat :=
  if canonical (BitVec.ofNat 64 va) then (c.windows.find? fun w => w.covers va).map (·.lo) else none

/-- Whether an offset is a slot start of a line. -/
def slotStart (off : Nat) : Bool := off % 64 % 12 == 0 && decide (off % 64 < 60)

/-- The bytes a relocation writes; `none` is BAD_RELOC. DESIGN CHOICE: so is an FRL_FSLOT32 whose addend is not 0, and a place outside the image (log 17). -/
def relocBytes (c : Ctx) (code : Nat) (r : Reloc) : Option (List Byte) :=
  let slot := match r.offset with
    | some o => slotStart o && decide (o < code)
    | none => false
  match r.kind, r.sym with
  | 0, _ => some []
  | 1, some s => if slot then some (bytesOfNat 4 (BitVec.ofInt 64 (s + r.addend)).toNat) else none
  | 2, some s => if slot then some (bytesOfNat 4 ((BitVec.ofInt 64 (s + r.addend)).toNat / 2 ^ 32)) else none
  | 3, some s =>
    match windowBase c s with
    | none => none
    | some w =>
      let v : Int := s + r.addend - w
      if slot && decide (-(2 ^ 31) ≤ v) && decide (v < 2 ^ 31) then some (bytesOfNat 4 (BitVec.ofInt 32 v).toNat) else none
  | 4, some s => if r.offset.isSome then some (bytesOfNat 8 (BitVec.ofInt 64 (s + r.addend)).toNat) else none
  | 5, some _ =>
    match r.slotSym, r.offset with
    | some d, some _ => if r.addend = 0 then some (bytesOfNat 4 d.toNat) else none
    | _, _ => none
  | _, _ => none

/-- All relocations, in file order: the writes they make. -/
def relocWrites (c : Ctx) (code : Nat) : List Reloc → Option (List (Nat × List Byte))
  | [] => some []
  | r :: rs =>
    match relocBytes c code r, relocWrites c code rs with
    | some bs, some ws => some ((r.offset.getD 0, bs) :: ws)
    | _, _ => none

/-- A line with its parity bits recomputed (R46). -/
def fixParity (bs : List Byte) : List Byte :=
  let l : Line := BitVec.ofNat 512 (natOfBytes bs)
  let w := lineWord l
  let p0 := parityOf (l.extractLsb' 0 256).toNat 256
  let p1 := parityOf (l.extractLsb' 256 224).toNat 224 != parityOf (w.extractLsb' 0 30).toNat 30
  bs.take 60 ++ bytesOfNat 4 (w.toNat % 2 ^ 30 + (if p0 then 2 ^ 30 else 0) + (if p1 then 2 ^ 31 else 0))

/-- Lines of the code section, patched: those that changed have new parity. -/
def fixLines (old new : List Byte) : Nat → List Byte
  | 0 => []
  | n + 1 =>
    (if old.take 64 == new.take 64 then new.take 64 else fixParity (new.take 64)) ++ fixLines (old.drop 64) (new.drop 64) n

/-! ### IMAGE_LOAD (R34 to R36) -/

/-- The status of everything that does not depend on where the image goes. -/
def loadCheck (f : ImageFile) : Nat :=
  let vers := f.entries.map fun e => fieldAt (headerOf f.code e) 0x06 2
  if !(f.elfClass64 && f.elfLsb && f.aligned && f.machine == 0xC241 && f.etype == 3 && f.eflags == vers.foldl max 0) then ldElf
  else if !(f.entries.all (headerOk f)) then ldHeader
  else if vers.any fun v => decide (Config.latver < v) then ldLatency
  else if !(f.entries.all (tablesOk f)) then ldTable
  else ldOk

/-- A section placed at an offset from `start`, with the patches that fall into it. -/
def patchAll (start : Nat) (bs : List Byte) (ws : List (Nat × List Byte)) : List Byte :=
  ws.foldl (fun b w => if start ≤ w.1 then patch b (w.1 - start) w.2 else b) bs

/-- The bytes of the block after the relocations, with the parity of the code lines that changed (R34). -/
def ImageFile.patched (f : ImageFile) (ws : List (Nat × List Byte)) : List Byte :=
  let blk := f.block
  let new := patchAll 0 blk ws
  fixLines (blk.take f.code.length) (new.take f.code.length) (f.code.length / 64) ++ new.drop f.code.length

/-- Bytes at a virtual address that any window of the context maps to this module. -/
def State.placeBytes (s : State) (c : Ctx) (va : Nat) (p : Perm) (bs : List Byte) : Option State :=
  if bs.isEmpty then some s
  else match translateVA c (BitVec.ofNat 64 va) bs.length p with
    | some (ia, none) => s.iaWrite ia bs
    | _ => none

/-- The image placed: its block in a window with X, then its other sections; `none`: no window or memory. DESIGN CHOICE: a line that an instruction cache holds under a rewritten address stays there until the cache drops it (log 17). -/
def State.placeImage (s : State) (c : Ctx) (f : ImageFile) (ws : List (Nat × List Byte)) : Option State :=
  f.data.foldl (fun o d => o.bind fun s => s.placeBytes c (f.base + d.1) ⟨false, false, false⟩ (patchAll d.1 d.2 ws))
    (s.placeBytes c f.base .fetch (f.patched ws))

def State.imageStatus (s : State) (ctx status : Nat) : State := { s with messages := s.messages ++ [.loadStatus ctx status] }

/-- An image whose file has been read: checked, relocated, placed, its kernels known; or refused with nothing left behind (R36). -/
def State.loadImage (s : State) (c : Ctx) (f : ImageFile) (room : Bool) : State :=
  match loadCheck f with
  | 0 =>
    match relocWrites c f.code.length f.relocs with
    | none => s.imageStatus c.id ldReloc
    | some ws =>
      if !room then s.imageStatus c.id ldSpace
      else match s.placeImage c f ws with
        | none => s.imageStatus c.id ldSpace
        | some s =>
          (s.modCtx c.id fun c => { c with images := { base := f.base, kernels := f.entries.map (kernelAt f) } :: c.images }).imageStatus c.id ldOk
  | st => s.imageStatus c.id st

def execImageLoad (ctx : Nat) (load : FileLoad) (s : State) : Host.Outcome State Fault Refusal :=
  .next (match s.ctx? ctx with
    | none => s
    | some c =>
      match parseElf load.base load.file with
      | none => s.imageStatus ctx ldElf
      | some f => s.loadImage c f load.room)

end Sys2Proof.Machine
end

