-- ==== Sys2Proof/Machine/Fetch.lean ====
section
/-! DEFINITION. Line starts (R47, R48) and the completion of flag-setting operations (R51, R53). -/

namespace Sys2Proof.Machine

open Sys2Proof

/-! ### The line's bytes -/

inductive FetchRes where
  /-- the line's content; `bad` when its check value fails or it is poisoned -/
  | line (l : Line) (bad : Bool)
  | fault (k : FaultKind) (level : Nat) (e : DWord)
  | blocked
deriving DecidableEq, Repr

def lineOfBytes (bs : List Byte) : Line := BitVec.ofNat 512 (natOfBytes bs)

/-- A fetch from beyond the instruction cache, by its homes (R275); a line that does not verify is bad (R278). -/
def State.fetchFar (s : State) (ia : Nat) : FetchRes :=
  match s.routeAll ia false with
  | .fault k l e => .fault k l e
  | .blocked => .blocked
  | .control _ => .line 0 false
  | .to (.mem pa) => .line (lineOfBytes (s.readPA (s.finalIa ia false) pa 64).1) (s.readPA (s.finalIa ia false) pa 64).2
  | .to (.sys port a) => .line (lineOfBytes ((s.sys port).read a 64)) (s.lostPorts.contains port)
  | .to (.peer m a) => .line (lineOfBytes ((s.peer m).mem.read a 64)) (s.peerDead m)
  | .to .group => .line 0 true

def Core.cached (c : Core) (ia : Nat) : Option Line := (c.icache.find? fun q => q.1 == ia).map (·.2)
def Core.dropLine (c : Core) (ia : Nat) : Core := { c with icache := c.icache.filter fun q => q.1 != ia }
/-- A line enters the instruction cache, which holds 2,048 (R8). DESIGN CHOICE: the one fetched longest ago goes (log 5). -/
def Core.keepLine (c : Core) (ia : Nat) (l : Line) : Core :=
  { Core.dropLine c ia with icache := ((ia, l) :: (Core.dropLine c ia).icache).take Config.icacheLines }

/-- One more corrected parity error; the count saturates (R48, R58). -/
def countFix (v : Word) : Word := if v.toNat % 2 ^ 16 = 0xFFFF then v else v + 1

/-- The page of a line is not there: the thread's record parks as a faulting load's (R47 step 1). -/
def State.parkFetch (s : State) (t : Tid) (h : HeldAcc) (f : Option (FaultKind × Nat × DWord)) : State :=
  let hold (s : State) : State := match f with
    | some (k, l, e) => s.holdFault h .fetch k l e
    | none => s.holdBlocked h
  match s.thread? t with
  | none => s
  | some th =>
    if th.inRunAhead then s.specLimit t
    else match s.settleRegions t with
      | (s, false) => s
      | (s, true) =>
        if th.inPlace then hold (s.modThread t fun th => { th with hold := true, wait := .fetch, pend := 1, dest := [], destP := none, segpc := th.pc })
        else match s.makeRoom th.core with
          | none => s.deliver t 2 .poolFull 0 th.pc th.pc 0
          | some s =>
            let s := s.landAll t
            hold ((s.wholeRecord t .fetch 1 false).modThread t fun th => { th with arr := .unchecked, dest := [], destP := none })

/-! ### The checks after the fetch (R47 steps 3 to 5) -/

def Arrival.targetChecked : Arrival → Bool
  | .checked => true
  | _ => false

/-- A code address whose bits [5:3] are 0 and whose slot is 0 to 4 (R44). -/
def entryOk (pc : DWord) : Bool := decide (pcSlot pc < 5) && bitsOf pc.toNat 3 3 == 0

/-- No flag that the line's WAIT names is pending. -/
def Thread.waitClear (th : Thread) (l : Line) : Bool := (th.flags &&& wordWAIT (lineWord l)) == 0

/-- The line word, the target, and the wait, on a line whose parity holds. -/
def State.enterLine (s : State) (t : Tid) (th : Thread) (l : Line) : State :=
  let w := lineWord l
  if w.getLsbD 29 || (inRange 12 14 (wordSETA w)) || (inRange 12 14 (wordSETB w)) then s.raise t .illegalLine 0
  else if !entryOk th.pc || (Arrival.targetChecked th.arr && !wordTGT w (pcSlot th.pc)) then s.raise t .illegalTarget 0
  else s.modThread t fun th => { th with line := l, arr := if Thread.waitClear th l then .inLine else .waiting }

/-- A parity mismatch: the cached copy goes and the line is fetched once more; `first` says whether that refetch sees the error too. -/
def State.refetch (s : State) (t : Tid) (th : Thread) (ia : Nat) (h : HeldAcc) (again : Bool) : State :=
  let s := s.modCore th.core fun c => Core.dropLine c ia
  match s.fetchFar ia with
  | .fault k l e => s.parkFetch t h (some (k, l, e))
  | .blocked => s.parkFetch t h none
  | .line l bad =>
    if bad || again || !lineParity l then s.raise t .lineParity 0
    else
      let s := (State.passHomes false 5 s ia).modCore th.core fun c => { Core.keepLine c ia l with linestat := countFix c.linestat }
      s.enterLine t th l

/-- Steps 1 and 2. Whether the line meets an error on its way is an open choice (log 11): 1 at the first fetch alone, 2 at both. -/
def State.startLine (s : State) (t : Tid) (th : Thread) : State :=
  let va := pcLine th.pc
  match (s.viewCtx th).bind fun c => translateVA c va 64 .fetch with
  | none => s.raise t .windowMiss va
  | some (ia, _) =>
    let h : HeldAcc := { who := .thread t, ctx := s.ctxOf t, ia, op := .fetch va, kind := none }
    match (s.core th.core).cached ia with
    | some l => if lineParity l then s.enterLine t th l else s.refetch t th ia h false
    | none =>
      match s.fetchFar ia with
      | .fault k l e => s.parkFetch t h (some (k, l, e))
      | .blocked => s.parkFetch t h none
      | .line l bad =>
        let (k, s) := s.choice
        if bad || k % 3 != 0 || !lineParity l then s.refetch t th ia h (k % 3 == 2)
        else ((State.passHomes false 5 s ia).modCore th.core fun c => Core.keepLine c ia l).enterLine t th l

/-- Whether a thread is about to start a line, or waits for one's flags. -/
def Thread.starting (th : Thread) : Bool :=
  th.loc == .resident && !th.hold && !th.stalled &&
  (match th.arr with
   | .inLine => false
   | .waiting => Thread.waitClear th th.line
   | _ => true)

/-- A thread's line start, where one is due. -/
def State.lineStart (s : State) (t : Tid) : State :=
  match s.thread? t with
  | none => s
  | some th =>
    if Thread.starting th && !th.due then
      match th.arr with
      | .waiting => s.modThread t fun th => { th with arr := .inLine }
      | _ => s.startLine t th
    else s

def execLineStart (t : Tid) (s : State) : Host.Outcome State Fault Refusal := .next (s.lineStart t)

/-- Operation `k` completes; `early` names registers that it writes before (R53). -/
def execFlagOperationComplete (t : Tid) (k : Nat) (early : Option (List Nat)) (s : State) : Host.Outcome State Fault Refusal :=
  match early with
  | none => .next (s.landOp t k)
  | some rs => .next (s.modThread t fun th =>
      match th.ops[k]? with
      | none => th
      | some o =>
        { th with
          regs := th.regs.putAll (o.xs.filter fun q => rs.contains q.1) []
          shadow := th.shadow.map fun r => r.putAll (o.shadowXs.filter fun q => rs.contains q.1) [] })

end Sys2Proof.Machine
end

