-- ==== Sys2Proof/Machine/Queues.lean ====
section
/-! DEFINITION. The command processor (R85 to R92), team retirement (R426), gang outcomes (R105). -/

namespace Sys2Proof.Machine

open Sys2Proof

/-! ### Completing a packet's work (R87, R90) -/

def UQueue.last? (q : UQueue) : Option Packet := q.packets.getLast?

/-- Whether the work of the queue's last packet may start: ORDER, a BARRIER's condition, and the room of R97. DESIGN CHOICE: an ORDER LAUNCH whose hold has ended stays in HOLD while there is no room, a state that Table 5.4 does not give (log 57). -/
def State.packetFree (s : State) (c : Nat) (q : UQueue) (p : Packet) : Bool :=
  let alone := decide (q.packets.length ≤ 1)
  (!(p.order || p.kind == 3) || alone) && (p.kind != 3 || s.evTest c p.mask) && (p.kind != 1 || s.launchRoom c)

/-- Submits the record of a LAUNCH packet (R96). -/
def State.packetLaunch (s : State) (c q : Nat) (p : Packet) : State :=
  match s.queue? c q, s.ctx? c with
  | some x, some k =>
    let w : WaitLaunch := { who := .queue q p.idx, va := 0, body := [], waitmask := 0, loc := none, noDies := k.noDies }
    match s.packetRecord x p.idx with
    | (s, .ok bs) =>
      let w := { w with body := bs, waitmask := (Record.ofBytes bs).waitmask }
      if w.waitmask &&& ~~~k.events = 0 then s.launchEligible k w
      else s.modCtx c fun k => { k with waiting := k.waiting ++ [w] }
    | (s, .error h) => s.holdRead { h with who := .launch, ctx := c, op := .record w }
  | _, _ => s

/-- The work of a packet starts. -/
def State.startPacket (s : State) (c q : Nat) (p : Packet) : State :=
  let s := s.modQueue c q fun x => { x with packets := x.packets.map fun y => if y.idx = p.idx then { y with started := true } else y }
  if p.kind = 1 then s.packetLaunch c q p
  else
    let s := if p.kind = 2 then (if p.clr then s.evClr c p.mask else s.evSet c p.mask) else s
    s.packetDone c q p.idx stOk

/-- FETCH, or IDLE when every released slot has been read (Table 5.4). -/
def UQueue.goOn (q : UQueue) : UQueue := { q with state := if q.next = q.wridx then .idle else .fetch }

/-- The holding condition of a queue in HOLD has ended. -/
def State.holdEnds (s : State) (c : Nat) (q : UQueue) : Bool :=
  q.state == .hold && (match q.last? with
    | some p => s.packetFree c q p
    | none => true)

/-- HOLD ends: the held packet's work starts (Table 5.4). -/
def State.queueResume (s : State) (c q : Nat) : State :=
  match s.queue? c q with
  | none => s
  | some x =>
    if s.holdEnds c x then
      let s := s.modQueue c q UQueue.goOn
      match x.last? with
      | some p => s.startPacket c q p
      | none => s
    else s

/-! ### Reading packets -/

def spanOf (kind : Nat) : Nat := if kind = 1 then 5 else 1

/-- The header of Table 5.1 obeys Table 5.2. DESIGN CHOICE: CLR = 1 on another kind than EVOP, which Table 5.1 forbids, is a PACKET_FORMAT error (log 57). -/
def packetHeaderOk (h : Nat) : Bool :=
  let kind := bitsOf h 4 4
  decide (kind ≤ 3) && bitsOf h 16 8 == spanOf kind && bitsOf h 24 40 == 0 && bitsOf h 10 6 == 0 && bitsOf h 1 3 == 0 &&
  (!h.testBit 9 || kind == 2)

/-- The head's bytes 8 to 63 obey Table 5.2. -/
def headOk (c : Ctx) (kind : Nat) (bs : List Byte) : Bool :=
  if kind = 1 then fieldAt bs 8 56 == 0
  else c.signalOk (BitVec.ofNat 64 (fieldAt bs 8 8)) && (if kind = 0 then fieldAt bs 16 48 == 0 else fieldAt bs 48 16 == 0)

/-- The header word at the next unread index, when the command processor reads there. -/
def State.nextHeader (s : State) (c q : Nat) : Option Nat :=
  match s.queue? c q with
  | none => none
  | some x =>
    if x.state = .fetch ∧ x.next ≠ x.wridx ∧ (s.ctx? c).any (!·.dying) ∧ s.stop.state = 0 ∧ s.ckpt.state ≤ 1 then
      match (s.ringRead x x.next.toNat 0 8).2 with
      | .ok bs => if (natOfBytes bs).testBit 0 then some (natOfBytes bs) else none
      | .error _ => none
    else none

/-- The packet there is covered by WRIDX, and its slots can be read and its header cleared now (R90, R274). -/
def State.packetWhole (s : State) (x : UQueue) (h : Nat) : Bool :=
  let n := spanOf (bitsOf h 4 4)
  decide (n ≤ (x.wridx - x.next).toNat) && (seqFrom x.next.toNat n).all (fun k => (s.ringRead x k 0 64).2.toBool) &&
  s.ringOpen x x.next.toNat

/-- Whether the packet there can be dealt with now: malformed, or whole and, for a LAUNCH, with room (R90, R97). DESIGN CHOICE: a queue that waits at a LAUNCH for room leaves the packet unread and stays in FETCH (log 57). -/
def State.packetReady (s : State) (c q : Nat) : Bool :=
  match s.nextHeader c q, s.queue? c q with
  | some h, some x => !packetHeaderOk h || (s.packetWhole x h && (bitsOf h 4 4 != 1 || s.launchRoom c))
  | _, _ => false

/-- A malformed packet: the queue stops (Table 5.4). -/
def State.queueError (s : State) (c q code : Nat) : State :=
  s.modQueue c q fun x => { x with state := .error, errcode := code }

/-- Reads the packet at the next index: its work starts, or the queue is in HOLD (R90). -/
def State.readPacket (s : State) (c q : Nat) : State :=
  match s.nextHeader c q, s.queue? c q, s.ctx? c with
  | some h, some x, some k =>
    if !s.packetReady c q then s
    else
      let kind := bitsOf h 4 4
      let (s, r) := s.ringRead x x.next.toNat 0 64
      let bs := match r with
        | .ok bs => bs
        | .error _ => []
      if !packetHeaderOk h || !headOk k kind bs then s.queueError c q stPacketFormat
      else
        let p : Packet :=
          { idx := x.next.toNat + 2 ^ 32 * s.nextSeq, span := spanOf kind, kind, order := h.testBit 8, clr := h.testBit 9
            mask := if kind = 2 ∨ kind = 3 then maskOfBytes ((bs.drop 16).take 32) else 0
            sig := if kind = 1 then 0 else BitVec.ofNat 64 (fieldAt bs 8 8), freed := false, started := false }
        let s : State := { s with nextSeq := s.nextSeq + 1 }
        let s := s.modQueue c q fun x => { x with packets := x.packets ++ [p], next := x.next + BitVec.ofNat 32 (spanOf kind) }
        let s := if kind = 1 then s else s.freePacket c q p.idx
        match s.queue? c q with
        | none => s
        | some x =>
          if s.packetFree c x p then (s.modQueue c q UQueue.goOn).startPacket c q p
          else s.modQueue c q fun x => { x with state := .hold }
  | _, _, _ => s

/-- The kind of packet that would be read next. -/
def State.nextKind (s : State) (c q : Nat) : Option Nat :=
  if s.packetReady c q then (s.nextHeader c q).map fun h => bitsOf h 4 4 else none

def execNopPacket (c q : Nat) (s : State) : Host.Outcome State Fault Refusal :=
  .next (match s.nextKind c q with
    | some 1 | some 2 | some 3 | none => s
    | some _ => s.readPacket c q)

def execLaunchPacket (c q : Nat) (s : State) : Host.Outcome State Fault Refusal :=
  .next (if s.nextKind c q = some 1 then s.readPacket c q else s)

def execEvopPacket (c q : Nat) (s : State) : Host.Outcome State Fault Refusal :=
  .next (if s.nextKind c q = some 2 then s.readPacket c q else s)

def execBarrierPacket (c q : Nat) (s : State) : Host.Outcome State Fault Refusal :=
  .next (if s.nextKind c q = some 3 then s.readPacket c q else s)

/-- A queue in FETCH with every released slot read is IDLE (Table 5.4). -/
def State.queueIdle (s : State) (c q : Nat) : State := s.modQueue c q fun x => if x.state = .fetch then x.goOn else x

/-- The slot at which the command processor waits is read again; a queue in HOLD looks at its condition; one that has read every released slot goes IDLE. -/
def execCpSlotPoll (c q : Nat) (s : State) : Host.Outcome State Fault Refusal :=
  .next (((s.queueResume c q).readPacket c q).queueIdle c q)

/-! ### The doorbell (R89, R91, R92) -/

/-- A NOTIFY write without QRESET. -/
def State.notify (s : State) (c q : Nat) (w : Word) : State :=
  s.modQueue c q fun x =>
    let live := x.state == .idle || x.state == .fetch
    if live && decide (2 ^ x.sizeLog < (w - x.rdidx).toNat) then { x with wridx := w, state := .error, errcode := stQueueIndex }
    else { x with wridx := w, state := if x.state = .idle ∧ x.rdidx ≠ w then .fetch else x.state }

def execNotifyWrite (c q : Nat) (wridx : Word) (s : State) : Host.Outcome State Fault Refusal := .next (s.notify c q wridx)

/-- A signal address that its check accepts, else none. -/
def Ctx.signalOr0 (c : Ctx) (va : DWord) : DWord := if c.signalOk va then va else 0

/-- The queue waits for room at a LAUNCH packet (R97). -/
def State.waitingLaunch (s : State) (c q : Nat) (x : UQueue) : Bool :=
  match s.nextHeader c q with
  | some h => packetHeaderOk h && bitsOf h 4 4 == 1 && s.packetWhole x h && !s.launchRoom c
  | none => false

/-- A queue's launch whose record read is held. -/
def HeldAcc.launchOf (c q : Nat) (h : HeldAcc) : Bool :=
  h.ctx == c && (match h.who, h.op with
    | .launch, .record w => (match w.who with
      | .queue q' _ => q' == q
      | .thread _ _ _ _ _ => false)
    | _, _ => false)

/-- Packets read but not started, and LAUNCHes whose record is unread, the one at which the queue waits for room among them, complete with CANCELLED (R92). -/
def State.cancelPackets (s : State) (c q : Nat) : State :=
  match s.ctx? c, s.queue? c q with
  | some k, some x =>
    let unread (p : Packet) : Bool := p.kind == 1 && !p.freed
    let gone := x.packets.filter fun p => !p.started || unread p
    let recSig (idx : Nat) : DWord := match (s.packetRecord x idx).2 with
      | .ok bs => k.signalOr0 (Record.ofBytes bs).complsig
      | .error _ => 0
    let sigOf (p : Packet) : DWord := if p.kind = 1 then recSig p.idx else p.sig
    let waiting := s.waitingLaunch c q x
    let s := { s with held := s.held.filter fun h => !h.launchOf c q }
    let s := (s.modQueue c q fun x => { x with packets := x.packets.filter fun p => !(!p.started || unread p) }).modCtx c fun k =>
      { k with waiting := k.waiting.filter fun w => match w.who with
          | .queue q' _ => q' != q
          | _ => true }
    let s := gone.foldl (fun s p => s.signal c (sigOf p) stCancelled) s
    if waiting then s.signal c (recSig x.next.toNat) stCancelled else s
  | _, _ => s

def execQreset (c q : Nat) (wridx : Word) (s : State) : Host.Outcome State Fault Refusal :=
  .next ((s.cancelPackets c q).modQueue c q fun x =>
    { x with wridx, rdidx := wridx, next := wridx, errcode := 0, state := .idle })

/-- The runtime creates a queue (R85): its indices 0, its state IDLE. -/
def execQueueCreate (c q base sizeLog : Nat) (inHost : Bool) (s : State) : Host.Outcome State Fault Refusal :=
  .next (if (s.queue? c q).isSome then s
    else s.modCtx c fun k => { k with queues := k.queues ++
      [{ id := q, base, sizeLog, inHost, wridx := 0, rdidx := 0, next := 0, errcode := 0, state := .idle, packets := [] }] })

/-! ### Team retirement (R426) -/

def inTeam (c g t : Nat) : Tid → Bool
  | .thr c' g' t' _ _ => c' == c && g' == g && t' == t
  | .scalar _ => false

/-- Commands that keep a team: those whose destination or barrier lies in its scratchpad, those its queue registers hold. -/
def Command.keepsTeam (q : Command) (c g t : Nat) : Bool :=
  q.ctx == c && q.grid == g && q.team == some t && (q.d.dstSp || q.d.bar.isSome || q.q.isSome)

def State.teamOver (s : State) (tm : Team) : Bool :=
  tm.saved.isNone && !(s.threads.any fun th => inTeam tm.ctx tm.grid tm.num th.id) &&
  s.cores.all (fun k => !(k.sidelog.any fun e => inTeam tm.ctx tm.grid tm.num e.t) &&
    !(k.slots.any fun q => q.keepsTeam tm.ctx tm.grid tm.num)) &&
  tm.queues.all fun q => q.kind == 0 || q.kind == 7 || q.push.isEmpty

/-- Blocks that were barrier objects of the run are plain bytes again. -/
def Core.dropRun (k : Core) (scr n : Nat) : Core :=
  { k with objs := k.objs.filter fun o => decide (o.1 < scr) || decide (scr + n ≤ o.1) }

def State.retireTeam (s : State) (tm : Team) : State :=
  let n := ((s.grid? tm.ctx tm.grid).map (·.kernel.scratch)).getD 0
  let s : State := { s with teams := s.teams.filter fun x => !(x.ctx == tm.ctx && x.grid == tm.grid && x.num == tm.num) }
  (s.modCore tm.core fun k => k.dropRun tm.scr n).modGrid tm.ctx tm.grid fun gr => { gr with retired := gr.retired + 1 }

def execTeamRetire (c g t : Nat) (s : State) : Host.Outcome State Fault Refusal :=
  .next (match s.team? c g t with
    | some tm => if s.teamOver tm then s.retireTeam tm else s
    | none => s)

/-- Every grid that is done retires (R94). -/
def State.retireDone (s : State) : State :=
  if s.grids.any s.gridDone then s.grids.foldl (fun s gr => if s.gridDone gr then s.retireGrid gr else s) s else s

/-! ### Gangs (Table 5.9) -/

/-- An LDG whose core group spans modules waits for the gang (R105). -/
def State.spansOut (s : State) (c g : Nat) (o : OutReq) : Bool :=
  inGrid c g o.t && !o.late && (match o.op with
    | .ldg _ _ _ _ table => spansModules s.modid table
    | _ => false)

/-- The gang's outcome: parked collectives go on; on an abort, a waiting group load ends with GANG_ABORT. -/
def State.settleGang (s : State) (c g : Nat) (st : GangState) : State :=
  let s := s.modGrid c g fun gr => { gr with gang := gr.gang.map fun x => { x with state := st } }
  let s := (s.threads.filter fun th => inGrid c g th.id && th.wait == .cbr gangKey && th.awaits).foldl
    (fun s th => s.pushCompl th.id [] none none) s
  if st = .aborted then
    (s.out.filter (s.spansOut c g)).foldl (fun s o => (s.dropOut o).finishCause o.t .gangAbort 0) s
  else s

def State.gangOf (s : State) (c g : Nat) : Option Gang := (s.grid? c g).bind (·.gang)

/-- Rank 0 aborts: every rank that has acknowledged is told. -/
def State.abortGang (s : State) (c g : Nat) : State :=
  { s.settleGang c g .aborted with messages := s.messages ++ [.gangAbort c g] }

def execGangAck (c g rank size : Nat) (mdefs : List DWord) (s : State) : Host.Outcome State Fault Refusal :=
  .next (match s.gangOf c g, s.grid? c g with
    | some x, some gr =>
      if x.rank ≠ 0 then s
      else match x.state with
        | .committed => s
        | .aborted => { s with messages := s.messages ++ [.gangAbort c g] }
        | .uncommitted =>
          if size ≠ x.size ∨ x.size ≤ rank ∨ x.acks.contains rank = true ∨ mdefs ≠ gr.mdef ∨ x.since + x.deadline * Config.cyclesPerUs < s.cycle then
            s.abortGang c g
          else
            let acks := x.acks ++ [rank]
            let s := s.modGrid c g fun gr => { gr with gang := gr.gang.map fun y => { y with acks } }
            if acks.length = x.size then { s.settleGang c g .committed with messages := s.messages ++ [.gangCommit c g] } else s
    | _, _ => s)

def State.unsettled (s : State) (c g : Nat) (zero : Bool) : Option Gang :=
  match s.gangOf c g with
  | some x => if x.state = .uncommitted ∧ (x.rank == 0) = zero then some x else none
  | none => none

def execGangCommit (c g : Nat) (s : State) : Host.Outcome State Fault Refusal :=
  .next (if (s.unsettled c g false).isSome then s.settleGang c g .committed else s)

def execGangAbort (c g : Nat) (s : State) : Host.Outcome State Fault Refusal :=
  .next (if (s.unsettled c g false).isSome then s.settleGang c g .aborted else s)

/-- GANGDL has passed at rank 0; a recovering peer pauses it (R444). -/
def State.gangLate (s : State) (x : Gang) (k : Nat) : Bool :=
  decide (x.since + k * x.deadline * Config.cyclesPerUs ≤ s.cycle) && !(s.peers.any fun p => p.state == .recovering && peerMember p x.id)

def execGangDeadlineExpiry (c g : Nat) (s : State) : Host.Outcome State Fault Refusal :=
  .next (match s.unsettled c g true with
    | some x => if s.gangLate x 1 then s.abortGang c g else s
    | none => s)

def execGangReplyTimeout (c g : Nat) (s : State) : Host.Outcome State Fault Refusal :=
  .next (match s.unsettled c g false with
    | some x => if s.gangLate x 2 then s.settleGang c g .aborted else s
    | none => s)

end Sys2Proof.Machine
end

