-- ==== Sys2Proof/Machine/Translate.lean ====
section
/-! DEFINITION. The translation control block's actions (R269, R270, R273), migration (R274), the side log's events (R272, R317), ticks (R284, R286) and reservations (R294). -/

namespace Sys2Proof.Machine

open Sys2Proof

/-! ### XROOT, XINVAL -/

def execXrootWrite (v : DWord) (s : State) : Host.Outcome State Fault Refusal :=
  .next { s with xroot := v &&& 0x000FFFFFFFFFFF81 }

/-- The translations kept by the dies of `p` that meet [lo, lo + n) go. -/
def State.dropTlb (s : State) (p : Nat → Bool) (lo n : Nat) : State :=
  { s with tlb := s.tlb.filter fun x => !p x.1 || decide (x.2.1 + 2 ^ x.2.2.1 ≤ lo) || decide (lo + n ≤ x.2.1) }

def execXinval (v : DWord) (s : State) : Host.Outcome State Fault Refusal :=
  .next (s.dropTlb (fun _ => true) (bitsOf v.toNat 12 40 * 4096) (2 ^ (12 + min 20 (v.toNat % 32))))

/-! ### Held reads of a region's reductions (R323) -/

def replaceOne (e : Eff) (new : List Eff) : List Eff → List Eff
  | [] => []
  | x :: xs => if x = e then new ++ xs else x :: replaceOne e new xs

def swapIn (e : Eff) (new : List Eff) : List Region → List Region
  | [] => []
  | r :: rs => if r.held.contains e then { r with held := replaceOne e new r.held } :: rs else r :: swapIn e new rs

/-- Replaces the oldest held effect equal to `e`. -/
def Thread.swapHeld (th : Thread) (e : Eff) (new : List Eff) : Thread := { th with regions := (swapIn e new th.regions.reverse).reverse }

/-- The effects held before `e`, as bytes of module memory. -/
def Thread.heldBefore (th : Thread) (e : Eff) : List (Nat × List Byte) :=
  (th.held.takeWhile fun x => x != e).filterMap fun x => match x with
    | .store ia none data => some (ia, data)
    | _ => none

/-- The read of a region's RED is answered: it becomes a marked read and a held store. -/
def State.answerRed (s : State) (t : Tid) (op : AtomOp) (ia home pa n b : Nat) : State :=
  let (raw, bad) := s.readPA home pa n
  s.modThread t fun th =>
    let e : Eff := .red op ia none n b
    if bad then th.swapHeld e []
    else
      let old := natOfBytes (overlay raw ia (th.heldBefore e))
      (th.swapHeld e [.store ia none (bytesOfNat n (atomNew op n old b 0))]).inner fun r => { r with reads := r.reads ++ [⟨false, ia, raw⟩] }

def State.redoRegion (s : State) (h : HeldAcc) : State :=
  match h.who, h.op with
  | .region t _, .atomic op n b _ =>
    match s.follow true 4 h.ia with
    | (_, .fault k l e) => s.holdFault h .atomic k l e
    | (_, .blocked) => s.holdBlocked h
    | (x, .to (.mem pa)) => s.answerRed t op h.ia x pa n b
    | _ => s
  | _, _ => s

/-! ### XRESOLVE -/

def HeldAcc.isRegion (h : HeldAcc) : Bool :=
  match h.who with
  | .region _ _ => true
  | _ => false

/-- Side-log entries held at a home are tried again. -/
def State.wakeLog (s : State) (lo n : Nat) : State :=
  { s with cores := s.cores.map fun k =>
      if k.sidelog.any (·.held) then
        { k with sidelog := k.sidelog.map fun e => if lo ≤ e.ia ∧ e.ia < lo + n then { e with held := false } else e }
      else k }

/-- What is held on a granule is tried again, in the order in which it was held (R273). -/
def State.replayHeld (s : State) (p : HeldAcc → Bool) : State :=
  let hs := s.held.filter p
  hs.foldl (fun s h => if h.isRegion then s.redoRegion h else s.redo h) { s with held := s.held.filter fun h => !p h }

def State.forgetReports (s : State) (g : Nat) : State := { s with reported := s.reported.filter fun r => r.1 != g }

def execXresolve (g : Nat) (s : State) : Host.Outcome State Fault Refusal :=
  .next (((s.forgetReports g).wakeLog (4096 * g) 4096).replayHeld fun h => h.kind.isSome && h.ia / 4096 == g)

/-! ### ABANDON -/

/-- One held access fails (R273). -/
def State.abandonHeld (s : State) (h : HeldAcc) : State :=
  let info := BitVec.ofNat 64 (h.ia / 4096 * 4096)
  match h.who, h.op with
  | .thread t, _ => s.pushCompl t [] none (some (.pageFault, info))
  | .engine core slot, .engine w => s.killCommand core slot (if w then 2 else 1)
  | .region t _, .atomic op n b _ =>
    (s.modThread t fun th => th.swapHeld (.red op h.ia none n b) []).causeFor t .pageFault info
  | .launch, .record w =>
    match s.ctx? h.ctx with
    | some c => s.refuse c w w.body stRecordFault
    | none => s
  | _, _ => s

/-- The side log of a core without its entries on the granule and every later entry of the same threads; the threads concerned. -/
def abandonLog (g : Nat) : List Tid → List SideEnt → List SideEnt × List Tid
  | hit, [] => ([], hit)
  | hit, e :: es =>
    if e.isWrite && (hit.contains e.t || (e.ia / 4096 == g && (match e.op with | .write _ => true | _ => false))) then
      abandonLog g (if hit.contains e.t then hit else hit ++ [e.t]) es
    else
      let (l, h) := abandonLog g hit es
      (e :: l, h)

def State.abandonGranule (s : State) (g : Nat) : State :=
  let p (h : HeldAcc) : Bool := h.kind.isSome && h.ia / 4096 == g
  let hs := s.held.filter p
  let s := s.forgetReports g
  let s := hs.foldl State.abandonHeld { s with held := s.held.filter fun h => !p h }
  (s.cores.filter fun k => !k.sidelog.isEmpty).foldl (fun s k =>
    let (l, hit) := abandonLog g [] k.sidelog
    hit.foldl (fun s t => s.causeFor t .pageFault (BitVec.ofNat 64 (4096 * g))) (s.modCore k.id fun k => { k with sidelog := l })) s

def execXresolveAbandon (g : Nat) (s : State) : Host.Outcome State Fault Refusal := .next (s.abandonGranule g)

/-! ### Migration (R274) -/

def State.mig (s : State) (c : Nat) : Mig := getAt ⟨0, 0, 0, 0, 0, 0⟩ s.migs c
def State.modMig (s : State) (c : Nat) (f : Mig → Mig) : State := { s with migs := setAt s.migs c (f (s.mig c)) }

/-- A leaf of a page at a level, with its page size. -/
def sameSizeLeaf (e : DWord) (level : Nat) (old : DWord) : Bool :=
  e.getLsbD 0 && !e.getLsbD 1 && leafOk e level && leafSize e == leafSize old

/-- What one entry of a level reaches, as a logarithm (R266). -/
def reachLog (level : Nat) : Nat := 48 - 9 * level

/-- The addresses of a leaf's P ÷ R copies, one of which stands at `addr` and translates `ia` (R266). -/
def leafCopies (ia k level addr : Nat) : List Nat :=
  let n := 2 ^ (k - reachLog level)
  (seqFrom 0 n).map fun i => addr - 8 * (ia / 2 ^ reachLog level % n) + 8 * i

/-- Writes a leaf into all its copies, each by one access of the entry's home (R267, R274); the translations that the homes keep of it are `keep` or nothing. -/
def State.putLeaf (s : State) (copies : List Nat) (e : DWord) (keep : Bool) : State :=
  let s : State := { s with mem := copies.foldl (fun m a => m.write a (bytesOfNat 8 e.toNat)) s.mem }
  { s with tlb := if keep then s.tlb.map fun x => if copies.contains x.2.2.2.2.2 then (x.1, x.2.1, x.2.2.1, e, x.2.2.2.2.1, x.2.2.2.2.2) else x
                  else s.tlb.filter fun x => !copies.contains x.2.2.2.2.2 }

def blk : DWord := 0x40

/-- The copies of the leaf that translates a page, as the table stands. -/
def State.copiesOf (s : State) (page : Nat) : List Nat :=
  match walkFrom s.mem page (bitsOf s.xroot.toNat 7 45 * 128) 0 5 with
  | .leaf e level addr => leafCopies page ((leafSize e).getD 12) level addr
  | .fault _ _ _ => []

def execMigrationStart (c : Nat) (dst : DWord) (s : State) : Host.Outcome State Fault Refusal :=
  .next (
    let m := s.mig c
    if m.stat = 1 then s
    else
      let s := s.modMig c fun m => { m with dst }
      match walkFrom s.mem (bitsOf m.src.toNat 0 52) (bitsOf s.xroot.toNat 7 45 * 128) 0 5 with
      | .leaf e level addr =>
        if sameSizeLeaf dst level e then
          let k := (leafSize e).getD 12
          let page := bitsOf m.src.toNat 0 52 / 2 ^ k * 2 ^ k
          (s.putLeaf (leafCopies (bitsOf m.src.toNat 0 52) k level addr) (e ||| blk) true).modMig c fun m => { m with stat := 1, page, old := e, new := dst }
        else s.modMig c fun m => { m with stat := 3 }
      | .fault _ _ _ => s.modMig c fun m => { m with stat := 3 })

/-- The listed bytes of [a, a + n), at [b, b + n). -/
def Memory.copy (src : Memory) (a n : Nat) (dst : Memory) (b : Nat) : Memory :=
  (src.filter fun c => decide (a ≤ c.1) && decide (c.1 < a + n)).foldl (fun m c => m.put (b + (c.1 - a)) c.2) (dst.clear b n)

/-- The memory behind a leaf. -/
def State.frameMem (s : State) (e : DWord) : Memory :=
  match leafKind e with
  | 0 => s.mem
  | 1 => s.sys (leafTgt e)
  | _ => (s.peer (leafTgt e)).mem

/-- A physical line lies in a frame. -/
def inFrame (a k l : Nat) : Bool := decide (a / 64 ≤ l) && decide (l < (a + 2 ^ k) / 64)

/-- The copy of the page's bytes, each line with the check value it carries: the IA of every line stays (R274, R278). -/
def State.copyFrame (s : State) (old new : DWord) (k : Nat) : State :=
  let a := leafBase old k
  let b := leafBase new k
  let src := s.frameMem old
  match leafKind new with
  | 0 =>
    let moved := if leafKind old = 0 then (s.lineIa.filter fun x => inFrame a k x.1).map fun x => (x.1 - a / 64 + b / 64, x.2) else []
    { s with mem := src.copy a (2 ^ k) s.mem b, poison := s.poison.filter fun l => !inFrame b k l
             lineIa := moved ++ s.lineIa.filter fun x => !inFrame b k x.1 }
  | 1 => s.setSys (leafTgt new) (src.copy a (2 ^ k) (s.sys (leafTgt new)) b)
  | _ => let q := s.peer (leafTgt new); s.setPeer { q with mem := src.copy a (2 ^ k) q.mem b }

/-- The port or the peer of a frame is gone. -/
def State.frameLost (s : State) (e : DWord) : Bool :=
  match leafKind e with
  | 0 => false
  | 1 => s.lostPorts.contains (leafTgt e)
  | _ => s.peerDead (leafTgt e)

/-- Whether reading a page's frame meets an uncorrectable error: a line that does not verify (R278), a port or peer that is gone. -/
def State.frameBad (s : State) (page : Nat) (e : DWord) (k : Nat) : Bool :=
  s.frameLost e || (leafKind e == 0 &&
    ((s.poison.any fun l => inFrame (leafBase e k) k l) ||
     s.lineIa.any fun x => inFrame (leafBase e k) k x.1 && !s.checkOk (page + 64 * x.1 - leafBase e k) (64 * x.1)))

/-- Performs the side-log entries of a page that waited for it, before anything that arrives later (R274). -/
def State.performPage (s : State) (page n : Nat) : State :=
  (s.cores.filter fun k => k.sidelog.any fun e => decide (page ≤ e.ia) && decide (e.ia < page + n)).foldl (fun s k =>
    k.sidelog.foldl (fun s _ => s.performLog k.id) s) (s.wakeLog page n)

/-- The migration of a channel ends, DONE or FAILED; what waited for the page is performed in arrival order. DESIGN CHOICE: between threads, what their side logs hold comes after what the homes hold, an order that nothing shows (log 58). -/
def State.endMigration (s : State) (c : Nat) (ok : Bool) : State :=
  let m := s.mig c
  let k := (leafSize m.old).getD 12
  let copies := s.copiesOf m.page
  let s := if ok && !s.frameBad m.page m.old k && !s.frameLost m.new then
      ((s.copyFrame m.old m.new k).putLeaf copies (m.new &&& ~~~blk) false).modMig c fun m => { m with stat := 2 }
    else (s.putLeaf copies m.old false).modMig c fun m => { m with stat := 3 }
  (s.replayHeld fun h => h.kind.isNone).performPage m.page (2 ^ k)

def execMigrationCopyDone (c : Nat) (ok : Bool) (s : State) : Host.Outcome State Fault Refusal :=
  .next (if (s.mig c).stat = 1 then s.endMigration c ok else s)

/-! ### The side log -/

def execSideLogPerform (core : Nat) (s : State) : Host.Outcome State Fault Refusal := .next (s.performLog core)

def execFenceMarkerPerform (core : Nat) (s : State) : Host.Outcome State Fault Refusal := .next ((s.performMarker core).getD s)

/-! ### Ticks -/

def execPtsAdvance (t : Tid) (s : State) : Host.Outcome State Fault Refusal := .next (s.modThread t fun th => { th with pts := th.pts + 1 })

/-- The highest tick of the module. -/
def State.topTick (s : State) : Nat :=
  max (max (s.threads.foldl (fun m th => max m th.pts) 0) (s.agents.foldl (fun m x => max m x.2) 0))
    (max (s.ticks.foldl (fun m x => max m (max x.2.1 x.2.2)) 0) (s.cores.foldl (fun m k => k.slots.foldl (fun m c => max m c.pts) m) 0))

/-- One value is taken from every tick (R286). -/
def State.rebase (s : State) (n : Nat) : State :=
  { s with
    epoch := (s.epoch + 1) % 2 ^ 16
    threads := s.threads.map fun th => { th with pts := th.pts - n }
    ticks := s.ticks.map fun x => (x.1, x.2.1 - n, x.2.2 - n)
    agents := s.agents.map fun x => (x.1, x.2 - n)
    cores := s.cores.map fun k => if k.slots.isEmpty then k else { k with slots := k.slots.map fun c => { c with pts := c.pts - n } } }

def execTickRebase (n : Nat) (s : State) : Host.Outcome State Fault Refusal :=
  .next (if 2 ^ 47 ≤ s.topTick then s.rebase n else s)

/-! ### Reservations -/

def execReservationExpire (t : Tid) (s : State) : Host.Outcome State Fault Refusal :=
  .next (s.modThread t fun th => if th.resvOver s.cycle then { th with resv := none } else th)

end Sys2Proof.Machine
end

