-- ==== Sys2Proof/Machine/Traps.lean ====
section
/-! DEFINITION. Handlers and rungs beyond the trapped thread (R167, R392, R394 to R396, R271), watchdog and remote waits (R405, R406), the module rung (R430). -/

namespace Sys2Proof.Machine

open Sys2Proof

/-! ### On the thread -/

/-- A handler writes TRAPPC (R167, R389). -/
def execTrappcWrite (t : Tid) (v : DWord) (s : State) : Host.Outcome State Fault Refusal :=
  .next (match s.thread? t with
    | some th => if th.h.hmode then s.writeTrappc t v else s
    | none => s)

def Thread.timedOut (th : Thread) (cycle : Nat) : Bool :=
  th.h.hmode && (th.loc == .resident) && (match th.h.timer with
    | some d => decide (d ≤ cycle)
    | none => false)

/-- The service timer expires: the cause goes one rung up with VIA 2 (R392). -/
def execServiceTimeout (t : Tid) (s : State) : Host.Outcome State Fault Refusal :=
  .next (match s.thread? t with
    | some th => if th.timedOut s.cycle then s.escalate t 2 else s
    | none => s)

/-! ### The trap ring (R395) -/

def Ctx.ringEntry? (c : Ctx) (ia : Nat) : Option RingEntry := c.ring.find? fun r => r.ia == ia
def State.ringEntry? (s : State) (ctx ia : Nat) : Option RingEntry := (s.ctx? ctx).bind fun c => c.ringEntry? ia
def State.dropRing (s : State) (ctx ia : Nat) : State := s.modCtx ctx fun c => { c with ring := c.ring.filter fun r => r.ia != ia }

/-- Whether a core takes an offered record: its own team's always, another's when its lane has a slot and the registers (R143). -/
def State.takesRecord (s : State) (core : Nat) (th : Thread) : Bool :=
  (match s.ctx? (s.ctxOf th.id) with
   | some c => c.placedom.getLsbD (s.dieOf core)
   | none => false) && !(s.die (s.dieOf core)).lost && (core == th.home || s.laneRoom core th)

/-- The enabled cores of the dies of a context's domain. -/
def State.domainCores (s : State) (ctx : Nat) : List Nat :=
  (seqFrom 0 s.ncore).filter fun c => (match s.ctx? ctx with
    | some x => x.placedom.getLsbD (s.dieOf c)
    | none => false) && !(s.die (s.dieOf c)).lost

/-- The core that a resumed extended record enters: its team's when it is team-bound, its own while it has side-log entries (R272), else one of the domain, an open choice (R395; log 11). -/
def State.resumeCore (s : State) (th : Thread) : Nat × State :=
  if th.tb then (th.home, s)
  else if s.logging th.id then (th.core, s)
  else
    let (k, s) := s.choice
    let cs := s.domainCores (s.ctxOf th.id)
    (if k = 0 ∧ cs.contains th.home then th.home else getAt th.home cs ((k - 1) % cs.length), s)

/-- A record enters the Barrel of a core, its guest block with it where it is picked there (R143); `none`: no level has room (R135). With its team saved, or under pre-emption, it stays saved. -/
def State.enterCore? (s : State) (t : Tid) (core : Nat) (guest : Bool) : Option State :=
  let s := s.modThread t fun th => { th with core, loc := .saved, level := 0, stamp := s.cycle }
  match s.thread? t with
  | none => some s
  | some th =>
    if s.covered t || (s.teamOf t).any (·.saved.isSome) then some s
    else (s.makeRoom core).map fun s =>
      let s := s.modThread t fun x => { x with loc := .parked, guest := guest && core != th.home }
      if th.pend = 0 then s.enterBin t else s

/-- The thread resumes from its extended record's bytes (R395). With no room for it in the pool POOL_FULL holds it again (R135; log 50). -/
def State.resumeExtended (s : State) (ctx entry : Nat) (t : Tid) : State :=
  match s.thread? t with
  | none => s
  | some th =>
    match s.iaRead th.saveAt 8 256 with
    | none => s
    | some (s, base) =>
      match s.iaRead (th.saveAt + 256) 40 (16 * (quadsOf (BitVec.ofNat 64 (fieldAt base 0x80 8))).length) with
      | none => s
      | some (s, quads) =>
        let old := th
        let th := th.fromExtended base quads
        -- a thread held while it waits for its instance waits on (R382; log 50)
        let waits := old.pend != 0
        let th := { th with
          h := { th.h with hmode := false, rung := 0, via := 0, timer := none, join := none }
          arr := if th.pc = th.h.trappc then .unchecked else .checked
          ext := false, whole := false, wait := if waits then old.wait else .none, pend := if waits then old.pend else 0
          tpend := if waits then th.tpend else none, live := seqFrom 0 th.nregs, hold := false, ready := s.ready }
        let s := ((s.modThread t fun _ => th).modCtx ctx fun c => c.freeRun old.saveAt).dropRing ctx entry
        let (k, s) := s.resumeCore th
        match s.enterCore? t k false with
        | some s => s
        | none => s.contextTrap t .poolFull 0 th.pc th.pc 0

/-- A RECORD_LOST entry has no record to resume: its RESUME does nothing (R394). -/
def execTrapresResume (ctx entry : Nat) (s : State) : Host.Outcome State Fault Refusal :=
  .next (match s.ringEntry? ctx entry with
    | some r => match r.t with
      | some t => if r.cause = .recordLost then s else s.resumeExtended ctx entry t
      | none => s
    | none => s)

def RingEntry.grid (r : RingEntry) : Option Nat := r.t.map Tid.gridNum

def execTrapresKill (ctx entry : Nat) (s : State) : Host.Outcome State Fault Refusal :=
  .next (match (s.ringEntry? ctx entry).bind (·.grid) with
    | some g => (s.dropRing ctx entry).endGrid ctx g stGridKilled
    | none => s)

/-- The cause of an entry goes to the partition rung. -/
def State.entryUp (s : State) (ctx entry : Nat) : State :=
  match s.ringEntry? ctx entry with
  | some r => { s.dropRing ctx entry with work := s.work ++ [.partition r.cause r.info ctx r.grid none none] }
  | none => s

def execTrapresEscalate (ctx entry : Nat) (s : State) : Host.Outcome State Fault Refusal := .next (s.entryUp ctx entry)

def execRingEntryTimeout (ctx entry : Nat) (s : State) : Host.Outcome State Fault Refusal :=
  .next (match s.ringEntry? ctx entry with
    | some r => if r.deadline ≤ s.cycle then s.entryUp ctx entry else s
    | none => s)

/-! ### An uncorrectable record (R394) -/

/-- The Barrel reads a record that it cannot: the thread is lost, and the context rung is told with XREC = 0. -/
def State.recordLost (s : State) (t : Tid) : State :=
  match s.thread? t with
  | none => s
  | some th =>
    let ctx := s.ctxOf t
    let out (b : Bin) : Bin := { b with places := b.places.filter (· != t), overflow := b.overflow.filter (· != t) }
    let s := s.modCore th.core fun k => { k with bins := (k.bins.map out).filter fun b => !(b.places.isEmpty && b.overflow.isEmpty) }
    let s := (s.cancelWaits t).modThread t fun th => { th with loc := .saved, wait := .none, pend := 0, saveAt := 0, ext := true, guest := false }
    let up (s : State) : State := { s with work := s.work ++ [.partition .recordLost 0 ctx (some (Tid.gridNum t)) none none] }
    if s.contextServes ctx then
      match s.postAndRaise ctx
          { kind := 1, cause := Cause.num .recordLost, from_ := 3, xrec := 0, fault := [], grid := Tid.gridNum t, team := Tid.teamNum t
            thread := th.word } with
      | some (s, e) => s.modCtx ctx fun x => { x with ring := x.ring ++
          [{ ia := e, t := some t, cause := .recordLost, info := 0, rung := 3, deadline := s.cycle + s.serviceCycles ctx 2 }] }
      | none => up s
    else up s

/-! ### Fault records (R271) and the partition rung (R396) -/

/-- The thread in whose name an access is held. -/
def HeldAcc.tid? (h : HeldAcc) : Option Tid :=
  match h.who with
  | .thread t | .region t _ => some t
  | _ => none

/-- Grids with an access held on a granule: context and grid. -/
def State.heldGrids (s : State) (g : Nat) : List (Nat × Nat) :=
  let ofTid (t : Tid) : List (Nat × Nat) := match t with
    | .thr c g _ _ _ => [(c, g)]
    | .scalar _ => []
  let fromHeld := (s.held.filter fun h => h.kind.isSome && h.ia / 4096 == g).flatMap fun h => match h.who with
    | .engine core slot => match s.command? core slot with
      | some c => [(c.ctx, c.grid)]
      | none => []
    | _ => match h.tid? with
      | some t => ofTid t
      | none => []
  let fromLog := s.cores.flatMap fun k => (k.sidelog.filter fun e => e.held && e.ia / 4096 == g).flatMap fun e => ofTid e.t
  (fromHeld ++ fromLog).eraseDups

/-- The thread named by a fault's ring entry: the first whose access is held there. -/
def State.faultOwner (s : State) (g : Nat) : Option Thread :=
  let l := (s.held.filter fun h => h.kind.isSome && h.ia / 4096 == g).filterMap (·.tid?) ++
    s.cores.flatMap fun k => (k.sidelog.filter fun e => e.held && e.ia / 4096 == g).map (·.t)
  l.head?.bind s.thread?

/-- A home's fault record reaches the context rung, or the partition rung. -/
def State.deliverFault (s : State) (ctx ia : Nat) (k : FaultKind) (acc : AccKind) (level : Nat) (e : DWord) : State :=
  let up : State := { s with work := s.work ++ [.partition .pageFault (BitVec.ofNat 64 (ia / 4096 * 4096)) ctx none none (some (ia / 4096))] }
  if s.contextServes ctx then
    let o := s.faultOwner (ia / 4096)
    match s.postAndRaise ctx
        { kind := 2, cause := Cause.num .pageFault, from_ := 3, xrec := 0, fault := faultBytes ia k acc level e
          grid := (o.map fun th => Tid.gridNum th.id).getD 0, team := (o.map fun th => Tid.teamNum th.id).getD 0
          thread := (o.map Thread.word).getD 0 } with
    | some (s, _) => s
    | none => up
  else up

/-- The partition rung ends a grid; the action lasts until the grid has retired (R396). -/
def State.partEnd (s : State) (cause : Cause) (info : DWord) (ctx grid : Nat) : State :=
  if (s.grid? ctx grid).any (·.ended.isNone) then
    { s.endGrid ctx grid stGridKilled with parts := s.parts ++ [{ cause, info, ctx, grid, since := s.cycle }] }
  else s

/-- The partition rung's act for a cause. -/
def State.partitionAct (s : State) (cause : Cause) (info : DWord) (ctx : Nat) (grid scalar granule : Option Nat) : State :=
  let s := match granule with
    | some g =>
      let gs := s.heldGrids g
      gs.foldl (fun s q => s.partEnd cause info q.1 q.2) (s.abandonGranule g)
    | none => s
  let s := match scalar with
    | some core => s.unbind core
    | none => s
  match grid with
  | some g => s.partEnd cause info ctx g
  | none => s

/-! ### A lost die -/

/-- Grids with a team, a thread, a task packet or an engine command on a die (R396, R438, R119). -/
def State.gridsOnDie (s : State) (d : Nat) : List Grid :=
  s.grids.filter fun g =>
    (s.teams.any fun tm => tm.ctx == g.ctx && tm.grid == g.num && tm.saved.isNone && s.dieOf tm.core == d) ||
    (s.threads.any fun th => inGrid g.ctx g.num th.id && (s.dieOf th.core == d && (th.loc == .resident || th.loc == .parked) || th.loc == .offered d)) ||
    (s.commands.any fun q => q.2.ctx == g.ctx && q.2.grid == g.num && s.dieOf q.1 == d) || g.mailbox == some d

/-- The compute stack is gone: its grids end, its scalar threads stop, what it kept goes. -/
def State.loseDie (s : State) (d : Nat) : State :=
  let s := (s.gridsOnDie d).foldl (fun s g => s.partEnd .dieLost (BitVec.ofNat 64 d) g.ctx g.num) s
  let s := (s.cores.filter fun k => s.dieOf k.id == d && k.bind.isSome).foldl (fun s k => s.unbind k.id) s
  s.modDie d fun x => { x with lost := true, reserve := none, subs := [], mailbox := [] }

def execDieLost (d : Nat) (s : State) : Host.Outcome State Fault Refusal := .next (s.loseDie d)

/-! ### Watchdog, remote waits -/

/-- Cycles that the thread has held its place in the segment (R405). -/
def Thread.wdCount (th : Thread) (cycle : Nat) : Nat := th.wdUsed + (cycle - th.wdStart)

def State.wdLimit (s : State) (t : Tid) : Nat :=
  match s.ctx? (s.ctxOf t) with
  | some c => 2 ^ bitsOf c.ctxwdog.toNat 18 6
  | none => 2 ^ 40

def State.wdDue (s : State) (th : Thread) : Bool :=
  th.loc == .resident && !th.isScalar && !th.hold && decide (s.wdLimit th.id ≤ th.wdCount s.cycle)

def execWatchdog (t : Tid) (s : State) : Host.Outcome State Fault Refusal :=
  .next (match s.thread? t with
    | none => s
    | some th =>
      if s.wdDue th then
        let s := s.raiseFor t .watchdog (BitVec.ofNat 64 (th.wdCount s.cycle)) th.pc th.pc
        if th.h.hmode && s.mmode != 0 then s.modThread t fun th => { th with wdStart := s.cycle, wdUsed := 0 } else s
      else s)

/-- RWAIT in cycles. -/
def State.remoteCycles (s : State) (t : Tid) : Nat :=
  match s.ctx? (s.ctxOf t) with
  | some c => bitsOf c.ctxwdog.toNat 0 18 * 10 * Config.cyclesPerUs
  | none => 0

/-- The thread's LDG with ranks on peers that still waits, when its deadline is not paused (R406, R444). -/
def State.lateGroup (s : State) (th : Thread) : Option OutReq :=
  if th.wait = .group ∧ th.pend ≠ 0 ∧ th.stamp + s.remoteCycles th.id ≤ s.cycle ∧ s.gangState th.id ≠ some .uncommitted then
    s.out.find? fun o => o.t == th.id && (match o.op with
      | .ldg _ _ _ _ table => spansModules s.modid table &&
        !(table.any fun e => rankP e && rankMod e != s.modid && (s.peer (rankMod e)).state == .recovering)
      | _ => false)
  else none

/-- The peer whose answer to a memory wait is overdue. -/
def State.lateMemory (s : State) (th : Thread) : Option Nat :=
  match th.remote with
  | some (d, m) => if th.wait = .memory ∧ th.pend ≠ 0 ∧ d ≤ s.cycle ∧ (s.peer m).state ≠ .recovering then some m else none
  | none => none

def execRemoteWaitTimeout (t : Tid) (s : State) : Host.Outcome State Fault Refusal :=
  .next (match s.thread? t with
    | none => s
    | some th =>
      match s.lateMemory th, s.lateGroup th with
      | some m, _ =>
        let s : State := { s with out := s.out.map fun (o : OutReq) => if o.t = t then { o with late := true } else o }
        (s.modThread t fun th => { th with remote := none }).finishCause t .remoteTimeout (BitVec.ofNat 64 m)
      | none, some o =>
        match o.op with
        | .ldg op ty n off table => (s.dropOut o).ldgDo t o.core op ty n off table true
        | _ => s
      | none, none => s)

/-! ### The module rung (R430) -/

/-- Migrations in flight end FAILED. -/
def State.failMigrations (s : State) : State := (seqFrom 0 4).foldl (fun s c => if (s.mig c).stat = 1 then s.endMigration c false else s) s

/-- Steps 1 to 3: issue stops, the links are told, every grid ends; the report names the cycle in which the cause was raised. -/
def State.moduleStop (s : State) (c : Cause) (info : DWord) (raised : Nat) : State :=
  if s.stop.state ≠ 0 then s
  else
    let n := (s.grids.filter fun g => g.ended.isNone).length
    let s : State := { s with
      stop := { state := 1, cause := c.num, info, cycle := raised, grids := n, sigfail := 0 }
      messages := s.messages ++ [.flood .dead] }
    let s := (s.threads.foldl (fun s th => s.landAll th.id) s).failMigrations
    s.grids.foldl (fun s g => s.endGrid g.ctx g.num stGridKilled) s

/-- What a home still holds when the module stops fails for good: signals count, writes go. -/
def State.dropHeld (s : State) : State :=
  let n := (s.held.filter fun h => match h.who with
    | .signal _ _ => true
    | _ => false).length
  { s with
    held := s.held.filter fun h => match h.who with
      | .bar _ => true
      | _ => false
    cores := s.cores.map fun k => if k.sidelog.any (·.held) then { k with sidelog := k.sidelog.filter fun e => !e.held } else k
    stop := { s.stop with sigfail := s.stop.sigfail + n } }

/-- Step 4: the report says STOPPED, and function 24 interrupts the host. -/
def State.finishStop (s : State) : State :=
  { s.dropHeld with stop := { s.dropHeld.stop with state := 2 }, messages := s.messages ++ [.interrupt 0] }

/-- The partition action for a cause that has lasted longer than RUNGTO3 (R396). -/
def State.partLate (s : State) (cause : Nat) (info : DWord) : Option PartAct :=
  s.parts.find? fun x => x.cause == causeOf cause && x.info == info && decide (x.since + s.serviceCycles x.ctx 3 < s.cycle)

/-- A partition action exceeds RUNGTO3: its cause goes to the module rung. -/
def execPartitionTimeout (cause : Nat) (info : DWord) (s : State) : Host.Outcome State Fault Refusal :=
  .next (match s.partLate cause info with
    | some x => s.moduleStop (causeOf cause) info x.since
    | none => s)

def execThermalCritical (die : Nat) (s : State) : Host.Outcome State Fault Refusal :=
  .next (s.moduleStop .thermalCritical (BitVec.ofNat 64 die) s.cycle)

def execPowerFault (s : State) : Host.Outcome State Fault Refusal := .next (s.moduleStop .powerFault 0 s.cycle)

end Sys2Proof.Machine
end

