-- ==== Sys2Proof/Machine/Preempt.lean ====
section
/-! DEFINITION. Pre-emption (R398, R399), team save blocks (R401, R402) and their restore (R403). -/

namespace Sys2Proof.Machine

open Sys2Proof

/-! ### The request -/

/-- A record leaves its bin or its mailbox entry. -/
def State.unbin (s : State) (t : Tid) : State :=
  let out (l : List Tid) : List Tid := l.filter (· != t)
  let s : State := { s with
    cores := s.cores.map fun (k : Core) =>
      if k.bins.any fun b => b.places.contains t || b.overflow.contains t then
        { k with bins := (k.bins.map fun b => s.refill { b with places := out b.places, overflow := out b.overflow }).filter fun b =>
            !(b.places.isEmpty && b.overflow.isEmpty) }
      else k }
  { s with dies := s.dies.map fun (d : Die) =>
      { d with mailbox := (d.mailbox.map fun m => match m with
          | .records c ts a => .records c (out ts) a
          | m => m).filter fun m => match m with
            | .records _ [] _ => false
            | _ => true } }

/-- A parked or offered record becomes SAVED; a SPEC record first gives up its run-ahead. -/
def State.saveParked (s : State) (t : Tid) : State :=
  match s.thread? t with
  | none => s
  | some th =>
    match th.loc with
    | .parked | .offered _ =>
      let s := s.unbin t
      let s := if th.inRunAhead then s.dropAhead t else s.landAll t
      s.modThread t Thread.toSaved
    | .resident => s.modThread t fun th => { th with resv := none }
    | _ => s

def State.coverTeam (s : State) (tm : Team) : State :=
  let s := s.modTeam tm.ctx tm.grid tm.num fun x => { x with preempt := true }
  (s.threads.filter fun th => inTeam tm.ctx tm.grid tm.num th.id).foldl (fun s th => s.saveParked th.id) s

/-- Whether a request covers a team: its scope, and the die of its core (R398). -/
def State.covers (s : State) (ctx : Nat) (v : DWord) (tm : Team) : Bool :=
  tm.ctx == ctx && tm.saved.isNone && !tm.preempt && v.getLsbD (32 + s.dieOf tm.core) && (v.getLsbD 59 || tm.grid == v.toNat % 2 ^ 32) &&
  (match s.grid? tm.ctx tm.grid with
   | some g => g.ended.isNone
   | none => false)

def preemptState (v : DWord) : Nat := bitsOf v.toNat 60 2
def withState (v : DWord) (st : Nat) : DWord := (v &&& ~~~(3#64 <<< 60)) ||| BitVec.ofNat 64 (st * 2 ^ 60)

def execPreemptRequest (ctx : Nat) (v : DWord) (s : State) : Host.Outcome State Fault Refusal :=
  .next (match s.ctx? ctx with
    | none => s
    | some c =>
      if preemptState c.preemptctl = 1 then s
      else
        let fields := v &&& 0x08FFFFFFFFFFFFFF
        if bitsOf v.toNat 62 2 = 1 then
          let pdl := bitsOf c.ctxwdog.toNat 24 8 * Config.cyclesPerUs
          let s := s.modCtx ctx fun c => { c with preemptctl := withState fields 1, preDeadline := some (s.cycle + pdl) }
          (s.teams.filter (s.covers ctx v)).foldl State.coverTeam s
        else s.modCtx ctx fun c => { c with preemptctl := withState fields (preemptState c.preemptctl) })

/-- A draining request whose covered teams are all saved, or gone, is DONE. -/
def State.preemptDone (s : State) : State :=
  if s.ctxs.any fun c => preemptState c.preemptctl == 1 then
    { s with ctxs := s.ctxs.map fun c =>
        if preemptState c.preemptctl = 1 ∧ !(s.teams.any fun tm => tm.ctx == c.id && tm.preempt) then
          { c with preemptctl := withState c.preemptctl 2, preDeadline := none }
        else c }
  else s

/-! ### The deadline -/

/-- A thread that waits in its place for an answer of its own is saved when it has it. -/
def State.answerDue (s : State) (t : Tid) : Bool := s.resWait.any fun w => w.tid == t

/-- A thread still resident at the deadline is saved whole; a cause that waits for it is delivered first (R397). -/
def State.saveWhole (s : State) (t : Tid) : State :=
  let s := match s.thread? t with
    | some th => if th.due && (!th.inRunAhead || th.detected.isSome) && !s.answerDue t then s.attend t else s
    | none => s
  match s.thread? t with
  | none => s
  | some th =>
    if th.loc ≠ .resident || s.answerDue t || (th.due && !th.inRunAhead) then s
    else if th.inRunAhead then s.dropAhead t
    else match s.settleRegions t with
      | (s, true) => s.saveExtended t th.pc (allQuads th.nregs) true none true
      | (s, false) => s

def State.drainOver (s : State) (ctx : Nat) : Bool :=
  match s.ctx? ctx with
  | some c => preemptState c.preemptctl == 1 && (match c.preDeadline with
      | some d => decide (d ≤ s.cycle)
      | none => false)
  | none => false

/-- Whether the deadline has something to do: a thread to save, a command to kill. -/
def State.deadlineDue (s : State) (ctx : Nat) : Bool :=
  s.drainOver ctx &&
  ((s.threads.any fun th => s.covered th.id && s.ctxOf th.id == ctx && th.loc == .resident && !s.answerDue th.id) ||
   (s.teams.any fun tm => tm.ctx == ctx && tm.preempt && s.commands.any fun q => q.2.keepsTeam tm.ctx tm.grid tm.num && (q.2.d.dstSp || q.2.d.bar.isSome)))

def execPreemptDeadline (ctx : Nat) (s : State) : Host.Outcome State Fault Refusal :=
  .next (
    if s.drainOver ctx then
      let s := (s.threads.filter fun th => s.covered th.id && s.ctxOf th.id == ctx).foldl (fun s th => s.saveWhole th.id) s
      (s.teams.filter fun tm => tm.ctx == ctx && tm.preempt).foldl (fun s tm =>
        (s.commands.filter fun q => q.2.keepsTeam tm.ctx tm.grid tm.num && (q.2.d.dstSp || q.2.d.bar.isSome)).foldl
          (fun s q => s.killCommand q.1 q.2.slot 6) s) s
    else s)

/-! ### Team save (R401, R402) -/

def padTo (n : Nat) (bs : List Byte) : List Byte := bs ++ List.replicate ((n - bs.length % n) % n) 0

/-- The team's records: its threads, but for those that the context rung holds (R394, R395). -/
def State.teamRecords (s : State) (tm : Team) : List Thread :=
  let ring := match s.ctx? tm.ctx with
    | some c => c.ring.filterMap fun (r : RingEntry) => r.t
    | none => []
  s.threads.filter fun th => inTeam tm.ctx tm.grid tm.num th.id && !ring.contains th.id

/-- A thread saved at a HINT. -/
def Thread.atHint (th : Thread) : Bool := th.ext && !th.whole

/-- Blocks of 64 bytes that the ranges of the HINTs cover, as runs of start and length (R32). -/
def blockRuns (covered : Nat → Bool) : Nat → Nat → List (Nat × Nat)
  | _, 0 => []
  | a, n + 1 =>
    if covered a then
      match blockRuns covered (a + 1) n with
      | (b, l) :: rest => if b = a + 1 then (a, l + 1) :: rest else (a, 1) :: (b, l) :: rest
      | [] => [(a, 1)]
    else blockRuns covered (a + 1) n

/-- WHOLESCR, and else the runs of 64-byte blocks to save; records that the context rung holds count too (R401). -/
def State.savedRuns (s : State) (tm : Team) (k : Kernel) : Bool × List (Nat × Nat) :=
  let ths := s.teamRecords tm
  let whole := decide (0 < k.scratch) &&
    s.threads.any fun th => inTeam tm.ctx tm.grid tm.num th.id && (th.whole || (!th.lfree && !(th.atHint && ths.contains th)))
  let ranges := (ths.filter Thread.atHint).flatMap fun th => match th.range with
    | some r => getAt [] k.ranges r
    | none => []
  let cov (b : Nat) : Bool := ranges.any fun r => decide (r.1 ≤ 64 * b) && decide (64 * b + 64 ≤ r.1 + r.2)
  (whole, if whole then [] else blockRuns cov 0 ((k.scratch + 63) / 64))

/-- The allocations that the team's threads hold. -/
def State.teamAllocs (s : State) (tm : Team) : List Alloc :=
  (s.core tm.core).allocs.filter fun a => a.holders.any (inTeam tm.ctx tm.grid tm.num)

def Group.bytes (g : Group) : List Byte :=
  bytesOfNat 4 g.live.toNat ++ (seqFrom 0 8).flatMap fun j => bytesOfNat 4 (g.maskOf j).toNat ++ bytesOfNat 4 (g.arrOf j).toNat

def entriesBytes (l : List (List Word)) : List Byte := (l.flatMap fun e => bytesOfWords (e.take 8)) ++ List.replicate ((16 - l.length) * 32) 0
def TQueue.bytes (q : TQueue) : List Byte :=
  bytesOfNat 4 q.push.length ++ bytesOfNat 4 q.result.length ++ entriesBytes q.push ++ entriesBytes q.result

/-- The sections of a save block after its header: records, scratchpad, tiles, joins, queues. -/
def State.blockParts (s : State) (tm : Team) (k : Kernel) : List (List Byte) :=
  let (whole, runs) := s.savedRuns tm k
  let scr := (s.core tm.core).scr
  let allocs := s.teamAllocs tm
  [ (s.teamRecords tm).flatMap Thread.saved
  , if whole then scr.read tm.scr k.scratch
    else padTo 64 (runs.flatMap fun r => bytesOfNat 2 r.1 ++ bytesOfNat 2 r.2) ++ runs.flatMap fun r => scr.read (tm.scr + 64 * r.1) (64 * r.2)
  , allocs.flatMap fun a => padTo 64 (bytesOfNat 4 a.unit ++ bytesOfNat 4 a.n) ++ (s.core tm.core).acc.read (512 * a.unit) (512 * a.n)
  , (tm.groups.flatMap Group.bytes)
  , (tm.queues.flatMap TQueue.bytes) ].map (padTo 64)

/-- Offsets of the parts, the header taking the first 64 bytes. -/
def partOffsets : Nat → List (List Byte) → List Nat
  | _, [] => []
  | a, p :: ps => a :: partOffsets (a + p.length) ps

/-- The save block of a team (Table 19.12). -/
def State.saveBlock (s : State) (tm : Team) (k : Kernel) : List Byte :=
  let (whole, runs) := s.savedRuns tm k
  let parts := s.blockParts tm k
  let off (n : Nat) : Nat := getAt 0 (partOffsets 64 parts) n
  let ths := s.teamRecords tm
  let logs := s.cores.any fun c => c.sidelog.any fun e => inTeam tm.ctx tm.grid tm.num e.t
  let flags := (if whole then 1 else 0) + (if logs then 2 else 0) + (if ths.any (·.tb) then 4 else 0)
  bytesOfNat 4 0x42535446 ++ bytesOfNat 4 tm.grid ++ bytesOfNat 4 tm.num ++ bytesOfNat 4 tm.core ++ bytesOfNat 8 k.entry.toNat ++
  bytesOfNat 4 tm.fpx.toNat ++ bytesOfNat 4 flags ++ bytesOfNat 4 ths.length ++ bytesOfNat 4 (off 0) ++ bytesOfNat 4 runs.length ++
  bytesOfNat 4 (off 1) ++ bytesOfNat 4 (s.teamAllocs tm).length ++ bytesOfNat 4 (off 2) ++ bytesOfNat 4 (off 3) ++ bytesOfNat 4 (off 4) ++
  parts.flatten

/-- A team that can be saved: covered, threads left, none of them resident, nothing running into its scratchpad (R401, R344). -/
def State.saveReady (s : State) (tm : Team) : Bool :=
  tm.preempt && (s.threads.any fun th => inTeam tm.ctx tm.grid tm.num th.id) &&
  !(s.threads.any fun th => inTeam tm.ctx tm.grid tm.num th.id && th.loc != .saved) &&
  !(s.commands.any fun q => q.2.keepsTeam tm.ctx tm.grid tm.num && (q.2.d.dstSp || q.2.d.bar.isSome))

/-- Before a run goes to others, the commands that go on have read their index lists and sources there, COLL's too (R332, R344). -/
def State.keepSources (s : State) (tm : Team) : State :=
  (s.commands.filter fun q => q.2.ctx == tm.ctx && q.2.grid == tm.grid && q.2.team == some tm.num).foldl (fun s q =>
    let (k, c) := q
    let s := (s.clearEarlier .scr k c.seq c.idxLines).1.latchIndex k c.slot
    if c.d.srcSp && c.d.hasSrc then
      let lines := linesMet c.srcBase c.srcSpan
      ((s.clearEarlier .scr k c.seq lines).1.fetchLines k c.slot (seqFrom c.srcBase c.srcSpan) lines).1
    else s) s

/-- The team's resources leave the core; what the block does not give back is kept with the team. -/
def State.freeTeam (s : State) (tm : Team) (k : Kernel) (ia : Nat) : State :=
  let s := s.keepSources tm
  let allocs := s.teamAllocs tm
  let objs := ((s.core tm.core).objs.filter fun o => decide (tm.scr ≤ o.1) && decide (o.1 < tm.scr + k.scratch)).map fun o => (o.1 - tm.scr, o.2)
  let s := s.modTeam tm.ctx tm.grid tm.num fun x => { x with saved := some (ia, tm.core), preempt := false, allocs, objs }
  s.modCore tm.core fun c => (allocs.foldl Core.freeAlloc c).dropRun tm.scr k.scratch

/-- Each record's place in the block, where its completions reach it (R133, R399). -/
def State.placeRecords (s : State) (ia : Nat) (tm : Team) : State :=
  ((s.teamRecords tm).foldl (fun (q : State × Nat) th =>
    (q.1.modThread th.id fun x => { x with saveAt := q.2 }, q.2 + th.saved.length)) (s, ia + 64)).1

def execTeamSave (c g t : Nat) (s : State) : Host.Outcome State Fault Refusal :=
  .next (match s.team? c g t, s.grid? c g with
    | some tm, some gr =>
      if s.saveReady tm then
        match s.saveBytes c (s.saveBlock tm gr.kernel) with
        | none => { s with work := s.work ++ [.partition .saveFault 0 c (some g) none none] }
        | some (s, ia) =>
          let s := (s.placeRecords ia tm).freeTeam tm gr.kernel ia
          match s.postAndRaise c { kind := 3, cause := 0, from_ := 3, xrec := ia, fault := [], grid := g, team := t, thread := 0 } with
          | some (s, _) => s
          | none => s
      else s
    | _, _ => s)

/-! ### Restore (R403) -/

/-- The team that a block at an IA names. -/
def State.blockTeam (s : State) (ctx ia : Nat) : Option Team :=
  match s.iaRead ia 2 12 with
  | some (_, bs) =>
    if fieldAt bs 0 4 = 0x42535446 then
      match s.team? ctx (fieldAt bs 4 4) (fieldAt bs 8 4) with
      | some tm => if tm.saved.isSome then some tm else none
      | none => none
    else none
  | none => none

def MailEntry.restores (c g t : Nat) : MailEntry → Bool
  | .restore c' g' t' _ => c' == c && g' == g && t' == t
  | _ => false

def execTeamRestore (ctx : Nat) (v : DWord) (s : State) : Host.Outcome State Fault Refusal :=
  .next (
    let die := bitsOf v.toNat 52 5
    let ia := bitsOf v.toNat 6 46 * 64
    let s := s.modCtx ctx fun c => { c with teamrestore := v &&& 0x01F0000000000000 }
    match s.ctx? ctx, s.blockTeam ctx ia with
    | some c, some tm =>
      if c.placedom.getLsbD die && decide (die < Config.dies) && s.taskRoom die && !(s.dies.any fun d => d.mailbox.any (MailEntry.restores ctx tm.grid tm.num)) then
        let src := (tm.saved.map (·.2)).getD tm.core
        (s.modTeam ctx tm.grid tm.num fun x => { x with saved := some (ia, src) }).modDie die fun d =>
          { d with mailbox := d.mailbox ++ [.restore ctx tm.grid tm.num s.cycle] }
      else s
    | _, _ => s)

/-- The units of the saved allocations are free on a core. -/
def Core.unitsOpen (k : Core) (allocs : List Alloc) : Bool :=
  allocs.all fun a => k.unitsFree a.unit a.n && (match a.shadow with
    | some v => k.unitsFree v a.n
    | none => true)

/-- Writes saved ranges back into a run: range words, then their bytes. -/
def putRuns (scr : Nat) (m : Memory) : List (Nat × Nat) → List Byte → Memory
  | [], _ => m
  | (b, l) :: rest, bs => putRuns scr (m.write (scr + 64 * b) (bs.take (64 * l))) rest (bs.drop (64 * l))

def rangeWords : Nat → List Byte → List (Nat × Nat)
  | 0, _ => []
  | n + 1, bs => (fieldAt bs 0 2, fieldAt bs 2 2) :: rangeWords n (bs.drop 4)

/-- The allocations' bytes from a block's tile section: per allocation its 8 bytes padded to 64, then its units (Table 19.12). -/
def allocBytes : List Alloc → List Byte → List (Alloc × List Byte)
  | [], _ => []
  | a :: rest, bs => (a, (bs.drop 64).take (512 * a.n)) :: allocBytes rest (bs.drop (64 + 512 * a.n))

/-- Scratchpad and tiles come back from the block's bytes. -/
def State.putBlock (s : State) (tm : Team) (k : Kernel) (core scr : Nat) (bs : List Byte) : State :=
  let part := bs.drop (fieldAt bs 0x2C 4)
  let n := fieldAt bs 0x28 4
  let units := allocBytes tm.allocs (bs.drop (fieldAt bs 0x34 4))
  s.modCore core fun c =>
    let clean := c.scr.clear scr k.scratch
    { c with
      scr := if (fieldAt bs 0x1C 4).testBit 0 then clean.write scr (part.take k.scratch)
        else putRuns scr clean (rangeWords n part) (part.drop ((4 * n + 63) / 64 * 64))
      scrBad := c.scrBad.filter fun w => decide (4 * w + 4 ≤ scr) || decide (scr + k.scratch ≤ 4 * w)
      acc := units.foldl (fun m u =>
        let m := m.write (512 * u.1.unit) u.2
        match u.1.shadow with
        | some v => m.write (512 * v) u.2
        | none => m) c.acc
      accBad := c.accBad.filter fun a => !(tm.allocs.any fun u => decide (u.unit ≤ a / 512) && decide (a / 512 < u.unit + u.n) ||
        u.shadow.any fun v => decide (v ≤ a / 512) && decide (a / 512 < v + u.n))
      allocs := c.allocs ++ tm.allocs
      objs := tm.objs.map (fun o => (o.1 + scr, o.2)) ++ c.objs }

/-- A group's join state from its 68 bytes (Table 19.12). -/
def groupOfBytes (bs : List Byte) : Group :=
  { live := BitVec.ofNat 32 (fieldAt bs 0 4), mask := (seqFrom 0 8).map fun j => BitVec.ofNat 32 (fieldAt bs (4 + 8 * j) 4)
    arr := (seqFrom 0 8).map fun j => BitVec.ofNat 32 (fieldAt bs (8 + 8 * j) 4) }

/-- A queue's contents from its 1,032 bytes; beside a pushed entry stays the thread that pushed it, which the block does not hold. -/
def queueOfBytes (q : TQueue) (bs : List Byte) : TQueue :=
  let entry (old : List (List Word)) (base i : Nat) : List Word := wordsOfBytes 8 (bs.drop (base + 32 * i)) ++ (getAt [] old i).drop 8
  { q with push := (seqFrom 0 (min 16 (fieldAt bs 0 4))).map (entry q.push 8), result := (seqFrom 0 (min 16 (fieldAt bs 4 4))).map (entry q.result 520) }

/-- Join state, queues and FPX come back from the block's bytes (R403). -/
def Team.fromBlock (tm : Team) (bs : List Byte) : Team :=
  { tm with
    fpx := BitVec.ofNat 7 (fieldAt bs 0x18 4)
    groups := (tm.groups.zip (seqFrom 0 tm.groups.length)).map fun q => groupOfBytes (bs.drop (fieldAt bs 0x38 4 + 68 * q.2))
    queues := (tm.queues.zip (seqFrom 0 tm.queues.length)).map fun q => queueOfBytes q.1 (bs.drop (fieldAt bs 0x3C 4 + 1032 * q.2)) }

/-- The thread of a team that a record's THREAD word names (Table 7.3). -/
def recordTid (tm : Team) (bs : List Byte) : Tid :=
  .thr tm.ctx tm.grid tm.num (bitsOf (fieldAt bs 0x68 4) 5 5) (bitsOf (fieldAt bs 0x68 4) 0 5)

/-- The team's threads as a block's records say, back to back (Tables 7.2, 19.11). -/
def State.readRecords (tm : Team) : Nat → State → List Byte → State
  | 0, s, _ => s
  | n + 1, s, bs =>
    let quads := (quadsOf (BitVec.ofNat 64 (fieldAt bs 0x80 8))).length
    if (fieldAt bs 0x6C 4).testBit 28 then
      State.readRecords tm n (s.modThread (recordTid tm bs) fun th => th.fromExtended bs ((bs.drop 256).take (16 * quads))) (bs.drop (256 + 16 * quads))
    else State.readRecords tm n (s.modThread (recordTid tm bs) fun th => th.fromRecord bs) (bs.drop 128)

/-- A record of a restored team: in the Barrel of its core when it is team-bound, else offered as FWD.ANY would (R403); where the mailbox is full it stays on that core. `none`: no level of the pool has room. -/
def State.restoreThread (s : State) (core delta_up delta_down : Nat) (t : Tid) : Option State :=
  match s.thread? t with
  | none => some s
  | some th =>
    let wait := match th.wait with
      | .barrier off tag => .barrier (off + delta_up - delta_down) tag
      | .preempt => .none
      | w => w
    (s.makeRoom core).map fun s =>
      let s := s.modThread t fun th =>
        { th with core, home := core, wait, loc := .parked, level := 0, hold := false, stamp := if th.pend = 0 then s.cycle else th.stamp, ext := false }
      let here (s : State) : State := if th.pend = 0 then s.enterBin t else s
      if th.tb then here s
      else
        let (d, s) := s.anyDie (s.ctxOf t)
        if d < Config.dies ∧ s.recordRoom d then s.offer d [t] else here s

/-- The team is back on a core, in a run. -/
def State.restoreTeam (s : State) (tm : Team) (k : Kernel) (core tslot scr : Nat) (bs : List Byte) (ia : Nat) : Option State :=
  let s := s.putBlock tm k core scr bs
  let s := s.modTeam tm.ctx tm.grid tm.num fun x => { x.fromBlock bs with core, tslot, scr, saved := none, allocs := [], objs := [] }
  let ids := (s.teamRecords tm).map (·.id)
  let s := State.readRecords tm (fieldAt bs 0x20 4) s (bs.drop (fieldAt bs 0x24 4))
  let s := s.modCtx tm.ctx fun c => Ctx.freeRun c ia
  let s : State := { s with threads := s.threads.map fun (th : Thread) => if inTeam tm.ctx tm.grid tm.num th.id then { th with home := core } else th }
  (ids.foldl (fun (o : Option State) t => o.bind fun s => s.restoreThread core scr tm.scr t) (some s)).map fun s =>
    match s.postAndRaise tm.ctx { kind := 4, cause := 0, from_ := 3, xrec := ia, fault := [], grid := tm.grid, team := tm.num, thread := 0 } with
    | some (s, _) => s
    | none => s

end Sys2Proof.Machine
end

