-- ==== Sys2Proof/Machine/Place.lean ====
section
/-! DEFINITION. The die dispatchers (R107 to R113, R143, R403), task packets as they arrive (R116, R119), the binding of scalar threads (R121). -/

namespace Sys2Proof.Machine

open Sys2Proof

/-! ### What a start needs, and what a core has -/

/-- A team to start or to restore. -/
structure Need where
  ctx : Nat
  grid : Nat
  regs : Nat
  slots : Nat
  scratch : Nat
  timed : Word
  dies : Word
  allocs : List Alloc
deriving DecidableEq, Repr

/-- A team of a grid: its kernel's demands, the dies it may go to, the units it brings. -/
def State.needOf (s : State) (gr : Grid) (dies : Word) (allocs : List Alloc) : Need :=
  let red := match s.ctx? gr.ctx with
    | some c => c.redundant
    | none => false
  { ctx := gr.ctx, grid := gr.num, regs := gr.kernel.lanesRegs red, slots := gr.kernel.slots red, scratch := gr.kernel.scratch
    timed := gr.kernel.timed, dies, allocs }

/-- The dies that may start a grid's next team: PLACEDOM as it stands (R107; log 21). -/
def State.startDies (s : State) (gr : Grid) : Word := gr.dies &&& ((s.ctx? gr.ctx).map (·.placedom)).getD 0

def State.runOf (s : State) (tm : Team) : Nat × Nat := (tm.scr, ((s.grid? tm.ctx tm.grid).map (·.kernel.scratch)).getD 0)

/-- The lowest run of the team scratchpad, on a 256-byte boundary, clear of `used` (R110). -/
def scratchRun (used : List (Nat × Nat)) (n : Nat) : Option Nat :=
  if n = 0 then some 0
  else
    let cands := 0 :: used.map fun r => (r.1 + r.2 + 255) / 256 * 256
    (cands.filter fun a => decide (a + n ≤ Config.scratchBytes) && used.all fun r => r.2 == 0 || decide (a + n ≤ r.1) || decide (r.1 + r.2 ≤ a)).foldl
      (fun (o : Option Nat) a => match o with
        | none => some a
        | some b => some (min a b)) none

/-- R30 on the claims of the grids that have a team there. -/
def timedOk (others : List Word) (w : Word) : Bool :=
  others.all (fun v => v &&& w == 0) && decide ((lanesOf (others.foldl (· ||| ·) w)).length ≤ 8)

/-- Whether a core that keeps the teams `kept` admits a start (R110, R9, R126, R30, R364). -/
def State.admitsWith (s : State) (core : Nat) (kept : List Team) (n : Need) : Bool :=
  let stays (th : Thread) : Bool := th.home != core || kept.any fun tm => inTeam tm.ctx tm.grid tm.num th.id
  let regs := kept.foldl (fun n tm => n + s.useOf tm) n.regs
  let others := ((kept.filter fun tm => !(tm.ctx == n.ctx && tm.grid == n.grid)).filterMap fun tm => s.grid? tm.ctx tm.grid).map (·.kernel.timed)
  let k := s.core core
  let held (a : Alloc) : Bool := kept.any fun tm => a.holders.any (inTeam tm.ctx tm.grid tm.num)
  decide (core < s.ncore) && n.dies.getLsbD (s.dieOf core) && !(s.die (s.dieOf core)).lost && decide (kept.length < 64) &&
  (seqFrom 0 32).all (fun l => decide (regs + s.guestRegs core l ≤ 4096) && decide (s.slotsUsed core l stays + n.slots ≤ 64)) &&
  (scratchRun (kept.map s.runOf) n.scratch).isSome && timedOk others n.timed &&
  (n.allocs.isEmpty || Core.unitsOpen { k with allocs := k.allocs.filter held } n.allocs)

def State.admits (s : State) (core : Nat) (n : Need) : Bool := s.admitsWith core (s.teamsOn core) n

/-- Whether the core admits the start once some `k` of its teams have retired (R112). -/
def State.admitsLess (s : State) (core : Nat) (n : Need) : List Team → List Team → Nat → Bool
  | kept, [], 0 => s.admitsWith core kept n
  | _, [], _ + 1 => false
  | kept, t :: ts, 0 => s.admitsLess core n (t :: kept) ts 0
  | kept, t :: ts, k + 1 => s.admitsLess core n kept ts k || s.admitsLess core n (t :: kept) ts (k + 1)

/-! ### Entries of a dispatcher -/

/-- What a pick may choose (R111). -/
inductive PickRef where
  | start (r : StartRef)
  | records (ctx : Nat) (ts : List Tid) (since : Nat)
deriving DecidableEq, Repr

/-- An entry: its PRIO and the cycle from which its age counts. -/
structure Entry where
  ref : PickRef
  prio : Nat
  since : Nat
deriving DecidableEq, Repr

def State.prioOf (s : State) (c g : Nat) : Nat := ((s.grid? c g).map (·.record.prio)).getD 0

/-- Grids with teams still to start on a die (R107, R108). -/
def State.openGrids (s : State) (d : Nat) : List Grid :=
  s.grids.filter fun gr => decide (gr.nextTeam ≤ gr.record.nteams) && gr.ended.isNone && (s.startDies gr).getLsbD d

/-- Team starts and team restores of a die. -/
def State.startEntries (s : State) (d : Nat) : List Entry :=
  (s.openGrids d).map (fun gr => ({ ref := .start (.grid gr.ctx gr.num), prio := gr.record.prio, since := gr.since } : Entry)) ++
  (s.die d).mailbox.filterMap fun m => match m with
    | .restore c g t a => some { ref := .start (.restore c g t), prio := s.prioOf c g, since := a }
    | .records _ _ _ => none

def State.recordEntries (s : State) (d : Nat) : List Entry :=
  (s.die d).mailbox.filterMap fun m => match m with
    | .records c ts a => some { ref := .records c ts a, prio := s.prioOf c (((ts.head?).map Tid.gridNum).getD 0), since := a }
    | .restore _ _ _ _ => none

/-- A die may start the grid's next team: STAGGER cycles after the first instruction of the team that it started last (R40). -/
def State.staggered (s : State) (d : Nat) (gr : Grid) : Bool :=
  gr.record.stagger == 0 ||
  (!(s.teams.any fun tm => tm.ctx == gr.ctx && tm.grid == gr.num && !tm.begun && tm.saved.isNone && s.dieOf tm.core == d) &&
   (match gr.lastStart.find? fun q => q.1 == d with
    | some (_, a) => decide (a + gr.record.stagger ≤ s.cycle)
    | none => true))

/-- The start's need; `none` when it cannot be placed yet: R40's stagger, a pending side log (R403). A team to be restored has started, and PLACEDOM does not hold it back (R107). -/
def State.startNeed (s : State) (d : Nat) : StartRef → Option Need
  | .grid c g => match s.grid? c g with
    | some gr => if s.staggered d gr then some (s.needOf gr (s.startDies gr) []) else none
    | none => none
  | .restore c g t => match s.team? c g t, s.grid? c g with
    | some tm, some gr =>
      if s.cores.any fun k => k.sidelog.any fun e => inTeam c g t e.t then none else some (s.needOf gr gr.dies tm.allocs)
    | _, _ => none

/-! ### Starting a team (R113, R28) -/

/-- The state of a thread's first instruction (R28). -/
def initialRegs (nregs : Nat) (args : List Word) : Regs :=
  { x := (seqFrom 0 nregs).map fun i => if i < 16 then getAt 0 args i else 0, p := 1, bad := [] }

def Thread.initial (id : Tid) (core nregs : Nat) (args : List Word) (red : Bool) (pc : DWord) (cycle : Nat) : Thread :=
  let r := initialRegs nregs args
  { id, core, home := core, nregs, regs := r, shadow := if red then some r else none, pc, arr := .checked, line := 0, loc := .parked
    wait := .none, pend := 0, dest := [], destP := none, tpend := none, tpc := none, segpc := pc, live := seqFrom 0 (min 16 nregs)
    ready := cycle % 2 ^ 32, since := cycle % 2 ^ 32, stamp := cycle, tb := false, spec := false, whole := false, ext := false, level := 0
    saveAt := 0, regmap := 0, plive := false, range := none, hold := false, ops := [], tile := none, lsv := false, livesel := 0
    lfree := false, h := Handler.reset, wdStart := cycle, wdUsed := 0, resv := none, pts := 0, regions := [], attempt := none
    inject := none, next := none, detected := none, remote := none, fpx := 0 }

/-- A handler's vector (Table 19.2). -/
def vectorAt (entry : DWord) (off : Word) : DWord := if off = 0x80000000 then 0 else entry + off.signExtend 64 * 64

/-- The lowest resident-team slot of a core (R110). -/
def State.freeTslot (s : State) (core : Nat) : Nat :=
  (firstFrom (fun n => !((s.teamsOn core).any fun tm => tm.tslot == n)) 0 64).getD 0

/-- The threads of a team, groups ascending, and their places in the Barrel; `none`: no level of the pool has room. -/
def State.startThreads (s : State) (gr : Grid) (core num : Nat) (red : Bool) : Option State :=
  (seqFrom 0 gr.kernel.groups).foldl (fun (o : Option State) g =>
    let ids := (seqFrom 0 32).map fun l => Tid.thr gr.ctx gr.num num g l
    ids.foldl (fun (o : Option State) id => (o.bind fun s => s.makeRoom core).map fun s =>
      let th := Thread.initial id core (gr.kernel.regsOf g) gr.record.args red gr.kernel.entry s.cycle
      let s : State := { s with threads := s.threads ++ [{ th with tb := s.teamBound th }] }
      s.enterBin id) o) (some s)

def State.startTeam (s : State) (gr : Grid) (c : Ctx) (core scr : Nat) : Option State :=
  let tm : Team :=
    { ctx := gr.ctx, grid := gr.num, num := gr.nextTeam, core, tslot := s.freeTslot core, scr, fpx := 0
      groups := List.replicate gr.kernel.groups Group.reset
      queues := c.qbind.map fun w => { kind := w.toNat % 16, push := [], result := [] }
      rungvec0 := vectorAt gr.kernel.entry gr.kernel.ghoff, rungvec1 := vectorAt gr.kernel.entry gr.kernel.thoff
      saved := none, allocs := [], objs := [], preempt := false }
  let n := gr.kernel.scratch
  let s : State := { s with teams := s.teams ++ [tm] }
  let s := s.modCore core fun k =>
    let k := k.dropRun scr n
    { k with scr := k.scr.clear scr n, scrBad := k.scrBad.filter fun w => decide (4 * w + 4 ≤ scr) || decide (scr + n ≤ 4 * w) }
  let s := s.modGrid gr.ctx gr.num fun g =>
    { g with nextTeam := g.nextTeam + 1, mailbox := if g.nextTeam = g.record.nteams then none else g.mailbox }
  s.startThreads gr core tm.num c.redundant

/-- Takes a mailbox entry away. -/
def State.dropMail (s : State) (d : Nat) (m : MailEntry) : State := s.modDie d fun x => { x with mailbox := x.mailbox.erase m }

/-- A placed entry gives its reservation up: on this die, and on every die once a grid has no team left to start (R112). -/
def State.unreserve (s : State) (d : Nat) (r : StartRef) : State :=
  let last : Bool := match r with
    | .grid c g => (s.grid? c g).all fun gr => decide (gr.record.nteams < gr.nextTeam)
    | .restore _ _ _ => false
  { s with dies := s.dies.map fun x => { x with reserve := x.reserve.filter fun q => !(q.2 == r && (x.id == d || last)) } }

/-- Bytes of the save block at an IA: its queue registers, the last part, end it (Table 19.12). -/
def State.blockSize (s : State) (ia : Nat) : Nat :=
  match s.iaRead ia 2 64 with
  | some (_, hd) => fieldAt hd 0x3C 4 + 16512
  | none => 0

/-- The start placed on the core; `none`: it cannot be now. A restore whose block cannot be read is a SAVE_FAULT (log 50). -/
def State.placeStart (s : State) (core : Nat) (since : Nat) (r : StartRef) : Option State :=
  let d := s.dieOf core
  let used := (s.teamsOn core).map s.runOf
  match r with
  | .grid c g =>
    match s.grid? c g, s.ctx? c with
    | some gr, some x => (scratchRun used gr.kernel.scratch).bind fun scr => (s.startTeam gr x core scr).map fun s => s.unreserve d r
    | _, _ => none
  | .restore c g t =>
    match s.team? c g t, s.grid? c g with
    | some tm, some gr => match scratchRun used gr.kernel.scratch, tm.saved with
      | some scr, some (ia, _) =>
        let s := (s.dropMail d (.restore c g t since)).unreserve d r
        let size := s.blockSize ia
        match if size = 0 then none else s.iaRead ia (size / 64 + 2) size with
        | some (s, bs) => s.restoreTeam tm gr.kernel core (s.freeTslot core) scr bs ia
        | none => some { s with work := s.work ++ [.partition .saveFault 0 c (some g) none none] }
      | _, _ => none
    | _, _ => none

/-- The records of an entry enter a core's Barrel; `none`: no level of the pool has room for one of them (R135). -/
def State.placeRecordsOn (s : State) (core : Nat) (ts : List Tid) : Option State :=
  ts.foldl (fun (o : Option State) t => o.bind fun s => s.enterCore? t core true) (some s)

/-- New records of a start. -/
def State.newRecords (s : State) : StartRef → Nat
  | .grid c g => ((s.grid? c g).map fun gr => 32 * gr.kernel.groups).getD 0
  | .restore c g t => (s.threads.filter fun th => inTeam c g t th.id).length

/-- Records at level 0 of a core. -/
def State.records0 (s : State) (core : Nat) : Nat := (s.poolAt 0 fun th => th.core == core).length

/-! ### The pick (R111) -/

/-- Whether a core takes an entry now: its admission, the reservations (R112), and room for its records in the pool (R135). -/
def State.takes (s : State) (core : Nat) (e : Entry) : Bool :=
  let d := s.dieOf core
  match e.ref with
  | .start r =>
    !s.withhold &&
    (match (s.die d).reserve with
     | some (k, r') => if r' = r then k == core else k != core
     | none => true) &&
    (match s.startNeed d r with
     | some n => s.admits core n
     | none => false) &&
    (decide (s.records0 core + s.newRecords r ≤ 1024) || (s.placeStart core e.since r).isSome)
  | .records _ ts _ =>
    (ts.all fun t => (s.thread? t).all (s.takesRecord core)) &&
    (decide (s.records0 core + ts.length ≤ 1024) || (s.placeRecordsOn core ts).isSome)

/-- The entry line of a grid is in the core's instruction cache. -/
def State.lineHere (s : State) (core c g : Nat) : Bool :=
  match s.grid? c g, s.ctx? c with
  | some gr, some x => match translateVA x gr.kernel.entry 64 .fetch with
    | some (ia, _) => ((s.core core).cached ia).isSome
    | none => false
  | _, _ => false

/-- Affinity for a core (R111). -/
def State.affine (s : State) (core : Nat) (e : Entry) : Bool :=
  match e.ref with
  | .start (.grid c g) | .start (.restore c g _) => s.lineHere core c g
  | .records _ ts _ => ts.any fun t => match s.thread? t with
    | some th => (s.core core).entries.any fun x => joinable (Tid.ctxNum t) (Tid.gridNum t) th.pc t x
    | none => false

/-- R111's rank: 0 overdue, 1 affinity, 2 the rest. -/
def State.rank (s : State) (core : Nat) (e : Entry) : Nat :=
  if e.since + 65536 < s.cycle then 0 else if s.affine core e then 1 else 2

/-- `a` goes before `b`: rank, then PRIO, then age. -/
def before (a b : Nat × Entry) : Bool :=
  if a.1 ≠ b.1 then decide (a.1 < b.1)
  else if a.2.prio ≠ b.2.prio then decide (b.2.prio < a.2.prio) else decide (a.2.since < b.2.since)

/-- The pick for a core. -/
def State.pick (s : State) (core : Nat) : Option Entry :=
  let d := s.dieOf core
  let es := ((s.startEntries d ++ s.recordEntries d).filter (s.takes core)).map fun e => (s.rank core e, e)
  (es.foldl (fun o e => match o with
    | none => some e
    | some b => if before e b then some e else some b) (none : Option (Nat × Entry))).map (·.2)

/-- Places the picked entry on the core. -/
def State.place (s : State) (core : Nat) (e : Entry) : State :=
  match e.ref with
  | .records c ts a => ((s.dropMail (s.dieOf core) (.records c ts a)).placeRecordsOn core ts).getD s
  | .start r => (s.placeStart core e.since r).getD s

def execDispatchPick (core : Nat) (s : State) : Host.Outcome State Fault Refusal :=
  .next (if s.stop.state ≠ 0 then s else match s.pick core with
    | some e => s.place core e
    | none => s)

/-! ### Reservation (R112) -/

/-- The oldest team start of the highest PRIO. -/
def State.oldestStart (s : State) (d : Nat) : Option Entry :=
  ((s.startEntries d).map fun e => (0, e)).foldl (fun o e => match o with
    | none => some e
    | some b => if before e b then some e else some b) (none : Option (Nat × Entry)) |>.map (·.2)

/-- The fewest teams whose retirement lets a core admit the start. -/
def State.retireCount (s : State) (core : Nat) (n : Need) : Option Nat :=
  let ts := s.teamsOn core
  firstFrom (fun k => s.admitsLess core n [] ts k) 0 (ts.length + 1)

/-- The start that calls for a reservation on a die, with its need. -/
def State.wantsCore (s : State) (d : Nat) : Option (StartRef × Need) :=
  if (s.die d).reserve.isSome then none
  else match s.oldestStart d with
    | some ⟨.start r, _, since⟩ =>
      match s.startNeed d r with
      | some n => if since + 65536 ≤ s.cycle ∧ !((s.coresOf d).any fun c => s.admits c n) then some (r, n) else none
      | none => none
    | _ => none

def execCoreReservation (d : Nat) (s : State) : Host.Outcome State Fault Refusal :=
  .next (match s.wantsCore d with
    | some (r, n) =>
      let best := ((s.coresOf d).filterMap fun c => (s.retireCount c n).map fun k => (k, c)).foldl (fun o q => match o with
        | some b => if q.1 < b.1 then some q else some b
        | none => some q) (none : Option (Nat × Nat))
      match best with
      | some (_, c) => s.modDie d fun x => { x with reserve := some (c, r) }
      | none => s
    | none => s)

/-! ### Task packets (R116, R119) -/

/-- The request `n` of `out`, a task packet for a die with room. -/
def State.taskReady (s : State) (n : Nat) : Option (OutReq × List Byte × Nat) :=
  match s.out.find? fun o => o.seq == n with
  | some o => match o.op with
    | .write (.task pkt die) => if s.taskRoom die && s.submitsNext o then some (o, pkt, die) else none
    | _ => none
  | none => none

def execTaskPacketArrival (n : Nat) (s : State) : Host.Outcome State Fault Refusal :=
  .next (match s.taskReady n with
    | some (o, pkt, die) => match s.thread? o.t with
      | some th =>
        let (s, st, es) := (s.dropOut o).sendTask o.core th pkt die
        es.foldl (fun s x => s.postEvent x.1 x.2) (s.statusNow o.t st)
      | none => s.dropOut o
    | none => s)

/-! ### Scalar control threads (R121, R28) -/

/-- The management core binds a core's scalar thread: a kernel entry of the context, and a team for its scratchpad; on a die of the context's domain (R107). -/
def State.bindScalar (s : State) (core ctx : Nat) (entry : DWord) (team : Option (Nat × Nat)) (runtime : Bool) (k : Kernel) : State :=
  let id := Tid.scalar core
  let s := s.modCore core fun x => { x with bind := some { ctx, entry, team, runtime } }
  let th := { Thread.initial id core (8 * k.regs) [] false entry s.cycle with loc := .resident, live := [] }
  { s with threads := (s.threads.filter fun x => x.id != id) ++ [th] }

def execScalarThreadBind (core ctx : Nat) (entry : DWord) (team : Option (Nat × Nat)) (runtime : Bool) (s : State) :
    Host.Outcome State Fault Refusal :=
  .next (match (s.ctx? ctx).bind fun c => c.kernel? entry with
    | some k => if core < s.ncore ∧ 0 < k.regs ∧ (s.domainCores ctx).contains core = true then (s.cancelWaits (.scalar core)).bindScalar core ctx entry team runtime k else s
    | none => s)

end Sys2Proof.Machine
end

