-- ==== Sys2Proof/Machine/HostSide.lean ====
section
/-! DEFINITION. What arrives over the host link (R89, R291, R436, R437) and over Renet (R297, R298, R320, R322, R441). -/

namespace Sys2Proof.Machine

open Sys2Proof

/-! ### BAR2: the aperture (R437) -/

/-- The IA behind an offset of a function's BAR2, when its aperture is placed. -/
def State.apertureIa (s : State) (fn off : Nat) : Option Nat :=
  let a := getAt 0 s.apers fn
  if a.getLsbD 63 then some (bitsOf a.toNat 36 16 * 2 ^ 36 + off % 2 ^ 36) else none

def State.readDone (s : State) (fn bar off : Nat) (data : List Byte) : State :=
  { s with messages := s.messages ++ [.readDone fn bar off data] }

/-- The compute stacks are held in reset after a thermal or power stop: only function 24 answers (R430). -/
def State.stacksOff (s : State) : Bool :=
  s.stop.state == 2 && (s.stop.cause == Cause.num .thermalCritical || s.stop.cause == Cause.num .powerFault)

def State.bar2Read (s : State) (fn off n : Nat) : State :=
  match s.apertureIa fn off with
  | some ia => if s.stacksOff then s.readDone fn 2 off (List.replicate n 0) else s.outside (.bar fn) ia (.barRead n)
  | none => s.readDone fn 2 off (List.replicate n 0)

def State.bar2Write (s : State) (fn off : Nat) (data : List Byte) : State :=
  match s.apertureIa fn off with
  | some ia => if s.stop.state = 0 then s.outside (.bar fn) ia (.barWrite data) else s
  | none => s

/-! ### BAR0 of a compute stack: doorbell pages (R89) -/

/-- Context and queue of a doorbell page: page 2^16 × context + queue (log 40). -/
def doorbell (off : Nat) : Nat × Nat := (off / 4096 / 2 ^ 16, off / 4096 % 2 ^ 16)

def QState.num : QState → Nat
  | .idle => 0 | .fetch => 1 | .hold => 2 | .error => 3

/-- The 24 bytes of a doorbell page that read as registers (Table 5.3). -/
def UQueue.page (q : UQueue) : List Byte :=
  bytesOfNat 8 q.wridx.toNat ++ bytesOfNat 8 q.rdidx.toNat ++ bytesOfNat 8 (q.errcode * 2 ^ 8 + q.state.num)

def zeroPad (n : Nat) (bs : List Byte) : List Byte := bs ++ List.replicate (n - bs.length) 0

/-- The queue whose doorbell page a function's offset names: the function is that of the die that hosts the context (R89, R436). -/
def State.doorbellQueue (s : State) (fn off : Nat) : Option UQueue :=
  let d := doorbell off
  if (s.ctx? d.1).any fun c => c.host == fn then s.queue? d.1 d.2 else none

/-- A read that begins at a register reads from there; any other offset reads 0 (R89). -/
def State.doorbellRead (s : State) (fn off n : Nat) : State :=
  let bs := match s.doorbellQueue fn off with
    | some q => if off % 8 = 0 then zeroPad n ((q.page.drop (off % 4096)).take n) else List.replicate n 0
    | none => List.replicate n 0
  s.readDone fn 0 off bs

/-- A write of NOTIFY: all of it, or its WRIDX half; no other write has an effect. -/
def State.doorbellWrite (s : State) (fn off : Nat) (data : List Byte) : State :=
  let d := doorbell off
  let w : Word := wordOfBytes (data.take 4)
  if (s.doorbellQueue fn off).isSome ∧ off % 4096 = 0 ∧ 4 ≤ data.length then
    { s with work := s.work ++ [.event (if (natOfBytes data).testBit 63 then .qreset d.1 d.2 w else .notifyWrite d.1 d.2 w)] }
  else s

/-! ### BAR0 of the management function (R430, R437) -/

/-- The 64 bytes of the stop report (Table 21.7). -/
def Stop.bytes (p : Stop) : List Byte :=
  bytesOfNat 4 p.state ++ bytesOfNat 1 p.cause ++ [0, 0, 0] ++ bytesOfNat 8 p.info.toNat ++ bytesOfNat 8 p.cycle ++ bytesOfNat 4 p.grids ++
  bytesOfNat 4 p.sigfail ++ List.replicate 32 0

def State.managementBytes (s : State) (off n : Nat) : List Byte :=
  if off < 64 then zeroPad n ((s.stop.bytes.drop off).take n)
  else if 0x1000 ≤ off ∧ off < 0x1000 + 8 * 24 then
    zeroPad n (((bytesOfNat 8 (getAt 0 s.apers ((off - 0x1000) / 8)).toNat).drop (off % 8)).take n)
  else List.replicate n 0

def Func.reset (id : Nat) : Func := { id, tdisp := .unlocked, keys := false }
def State.func (s : State) (fn : Nat) : Func := (s.funcs.find? fun f => f.id == fn).getD (Func.reset fn)
def State.modFunc (s : State) (fn : Nat) (f : Func → Func) : State := { s with funcs := s.funcs.map fun x => if x.id = fn then f x else x }

/-- The fields of Table 21.6. -/
def aperStore (v : DWord) : DWord := v &&& 0x800FFFF000000000

def execAperWrite (d : Nat) (v : DWord) (s : State) : Host.Outcome State Fault Refusal :=
  .next (if (s.func d).tdisp = .unlocked then { s with apers := setAt s.apers d (aperStore v) } else s)

/-! ### Host accesses (R291) -/

/-- The module answers: functions 0 to 23 enumerate after a good boot alone (R446). -/
def State.answers (s : State) (fn : Nat) : Bool := fn == 24 || s.enumerated || !s.booted

def State.hostRead (s : State) (fn bar off n : Nat) : State :=
  if !s.answers fn then s.readDone fn bar off (List.replicate n 0)
  else if fn = 24 then s.readDone fn bar off (if bar = 0 then s.managementBytes off n else List.replicate n 0)
  else if bar = 2 then s.bar2Read fn off n
  else s.doorbellRead fn off n

def State.hostWrite (s : State) (fn bar off : Nat) (data : List Byte) : State :=
  if !s.answers fn then s
  else if fn = 24 then
    (if bar = 0 ∧ 0x1000 ≤ off ∧ off < 0x1000 + 8 * 24 ∧ off % 8 = 0 ∧ data.length = 8 ∧ s.stop.state = 0 then
      { s with work := s.work ++ [.event (.aperWrite ((off - 0x1000) / 8) (dwordOfBytes data))] }
     else s)
  else if bar = 2 then s.bar2Write fn off data
  else if s.stop.state = 0 then s.doorbellWrite fn off data
  else s

/-- A held host write that comes before an access of function `fn`: every write before a later write; one on the same function, and one of the function's aperture register, before a read (R291, R437). -/
def holdsBack (fn : Nat) (write : Bool) (h : HeldAcc) : Bool :=
  match h.who, h.op with
  | .bar f, .barWrite _ => write || f == fn
  | .bar f, .hostWrite _ off _ => write || f == fn || (f == 24 && off == 0x1000 + 8 * fn)
  | _, _ => false

/-- A host access that arrives: performed, or held behind earlier host writes. -/
def execHostBarRead (fn bar off n : Nat) (s : State) : Host.Outcome State Fault Refusal :=
  .next (if s.held.any (holdsBack fn false) then s.holdBlocked { who := .bar fn, ctx := 0, ia := 0, op := .hostRead bar off n, kind := none }
    else s.hostRead fn bar off n)

def execHostBarWrite (fn bar off : Nat) (data : List Byte) (s : State) : Host.Outcome State Fault Refusal :=
  .next (if s.held.any (holdsBack fn true) then s.holdBlocked { who := .bar fn, ctx := 0, ia := 0, op := .hostWrite bar off data, kind := none }
    else s.hostWrite fn bar off data)

/-- The first held host access that no earlier one holds back; `seen` are the earlier ones. -/
def nextHost : List HeldAcc → List HeldAcc → Option HeldAcc
  | _, [] => none
  | seen, h :: rest =>
    match h.who, h.op with
    | .bar fn, .hostWrite _ _ _ => if seen.any (holdsBack fn true) then nextHost (h :: seen) rest else some h
    | .bar fn, .hostRead _ _ _ => if seen.any (holdsBack fn false) then nextHost (h :: seen) rest else some h
    | _, _ => nextHost (h :: seen) rest

/-- Held host accesses go on, in the order in which they arrived (R291). -/
def State.hostOnGo : Nat → State → State
  | 0, s => s
  | n + 1, s =>
    match nextHost [] s.held with
    | none => s
    | some h =>
      let s : State := { s with held := s.held.erase h }
      State.hostOnGo n (match h.who, h.op with
        | .bar fn, .hostWrite bar off data => s.hostWrite fn bar off data
        | .bar fn, .hostRead bar off k => s.hostRead fn bar off k
        | _, _ => s)
def State.hostOn (s : State) : State := s.hostOnGo s.held.length

/-! ### Requests from peers (R441, R369) -/

/-- A request of a source that has been performed before is not performed again. -/
def State.seenReq (s : State) (src seq : Nat) : Bool := s.seen.contains (src, seq)

/-- A peer's subscription reaches its home: it is kept and acknowledged with the region's lines, or refused. DESIGN CHOICE: a home refuses where the open choice says that it cannot keep another (log 11), or its lines cannot be read now (log 53). -/
def State.addSubscriber (s : State) (src n ia len : Nat) : State :=
  let (k, s) := s.choice
  match if k % 2 = 1 then (s, .wait) else s.iaReadLines .fabric ia (len / 64) with
  | (s, .data bs false) =>
    { s with subscribers := (s.subscribers.filter fun b => !(b.src == src && b.n == n)) ++ [{ src, n, ia, len }]
             messages := s.messages ++ [.subsAck src n bs] }
  | (s, _) => { s with messages := s.messages ++ [.subsRefused src n] }

def execFabricRequest (src seq : Nat) (ask : FabricAsk) (s : State) : Host.Outcome State Fault Refusal :=
  .next (
    if s.seenReq src seq || s.stop.state != 0 then s
    else
      let s : State := { s with seen := (src, seq) :: s.seen }
      let who : HeldWho := .fabric src seq ask.hops
      match ask.req with
      | .read ia n => s.outside who ia (.barRead n)
      | .write ia data => s.outside who ia (.barWrite data)
      | .atomic op ia n b c => s.outside who ia (.atomic op n b c)
      | .scratch c g core off n => s.memberAsk who c g core off n
      | .subscribe n ia len => s.addSubscriber src n ia len
      | .unsubscribe n => { s with subscribers := s.subscribers.filter fun b => !(b.src == src && b.n == n) })

/-! ### Subscriptions (R298, R320) -/

/-- Entry `n` of a die's subscription table changes. -/
def State.modSub (s : State) (die n : Nat) (f : Sub → Sub) : State :=
  s.modDie die fun d => match d.subs[n]? with
    | some b => { d with subs := setAt d.subs n (f b) }
    | none => d

/-- The peer's home acknowledges and sends the region's lines. -/
def execSubsActivate (die n : Nat) (s : State) : Host.Outcome State Fault Refusal :=
  .next (match (s.die die).subs[n]? with
    | some b =>
      if s.peerDead b.mod then s
      else s.modSub die n fun b =>
        { b with active := true, pending := [], copy := (s.peer b.mod).mem.filter fun c => decide (b.ia ≤ c.1) && decide (c.1 < b.ia + b.len) }
    | none => s)

/-- A refused subscription stays inactive. -/
def execSubsRefuse (die n : Nat) (s : State) : Host.Outcome State Fault Refusal :=
  .next (s.modSub die n fun b => { b with active := false, copy := [], pending := [] })

/-- The oldest write that the home has multicast reaches the die's copy, its bytes inside the region: the home's order (R298). -/
def execSubsMulticast (die n ia : Nat) (data : List Byte) (s : State) : Host.Outcome State Fault Refusal :=
  .next (s.modSub die n fun b =>
    match b.pending with
    | w :: rest =>
      if b.active = true ∧ w = (ia, data) then
        { b with pending := rest
                 copy := ((seqFrom ia data.length).zip data).foldl (fun m q => if b.ia ≤ q.1 ∧ q.1 < b.ia + b.len then m.put q.1 q.2 else m) b.copy }
      else b
    | [] => b)

/-! ### Members of a multicast store (R322) -/

/-- Request `n` of `out`, a member write that may be performed. -/
def State.memberReq (s : State) (n : Nat) : Option OutReq :=
  s.out.find? fun o => o.seq == n && (match o.op with
    | .write (.stm _ _ _ _ _) => true
    | _ => false)

/-- `ok = false`: a peer's home faults on the IA. -/
def execStmMemberArrival (n : Nat) (ok : Bool) (s : State) : Host.Outcome State Fault Refusal :=
  .next (match s.memberReq n with
    | some o => match ok, o.dest with
      | false, .peer _ _ => s.performOut { o with dest := .group }
      | _, _ => s.performOut o
    | none => s)

end Sys2Proof.Machine
end

