-- ==== Sys2Proof/Machine/Agree.lean ====
section
/-! DEFINITION. The engines' events (R328, R330, R334, R341), and the resolution and timeout of collectives (R376, R378). -/

namespace Sys2Proof.Machine

open Sys2Proof

/-! ### Taking a queue's entry (R341) -/

def queueKind : Nat → Option EngKind
  | 1 => some .cpy | 2 => some .gath | 3 => some .scat | 4 => some .fill | 5 => some .mxs | 6 => some .coll
  | _ => none

/-- The thread that pushed an entry. -/
def Team.pusher (tm : Team) (e : List Word) : Tid :=
  let w := (getAt 0 e 8).toNat
  if w.testBit 31 then .scalar tm.core else .thr tm.ctx tm.grid tm.num (w % 2 ^ 31 / 32) (w % 32)

/-- The oldest push entry that the engine can take: a resident team, a free slot, for COLL a settled gang, and no deadline passed. -/
def State.queueHead (s : State) (c g t q : Nat) : Option (Team × EngKind × List Word) :=
  match s.team? c g t with
  | none => none
  | some tm =>
    let x := tm.queue q
    match queueKind x.kind, x.push with
    | some k, e :: _ =>
      if tm.saved.isNone && (s.freeSlot tm.core).isSome && !(tm.preempt && s.drainOver c) &&
        !(k == .coll && (s.gangOf c g).any fun x => x.state == .uncommitted) then some (tm, k, e) else none
    | _, _ => none

/-- A command that is not issued: it ends at once with its code (R341). -/
def State.endUnissued (s : State) (tm : Team) (q : Nat) (who : Tid) (d : EngDesc) (code : Nat) : State :=
  let c : Command :=
    { slot := (s.freeSlot tm.core).getD 0, ctx := tm.ctx, grid := tm.grid, team := some tm.num, who
      tslot := if Tid.isScalar who then 127 else tm.tslot, q := some q, d, done := [], discarded := false, st := .running
      coll := none, result := none, dropped := false, buffer := [], scr := tm.scr, arrived := 0, seq := s.nextSeq, pts := 0 }
  s.endCommand tm.core c code

/-- The COLL number that the next COLL of this module on a membership takes (R334). -/
def State.nextColl (s : State) (c g m : Nat) : State × Nat :=
  let n := match s.grid? c g with
    | some gr => (gr.liveOf m).colls
    | none => 0
  (s.modGrid c g fun gr => gr.setLive m fun l => { l with colls := n + 1 }, n)

/-- A checked entry takes its place in the module order. -/
def State.takeChecked (s : State) (tm : Team) (q : Nat) (who : Tid) (d : EngDesc) : State :=
  let tslot := if Tid.isScalar who then 127 else tm.tslot
  let m := d.word 6 % 4
  if d.kind = .coll then
    if (s.grid? tm.ctx tm.grid).any (fun gr => gr.modDropped m) || (s.gangOf tm.ctx tm.grid).any (fun x => x.state == .aborted) then
      s.endUnissued tm q who d 2
    else
      let (s, n) := s.nextColl tm.ctx tm.grid m
      s.issueCommand tm.core who (some tm) tslot (some q) tm.grid tm.ctx d (some (m, n))
  else s.issueCommand tm.core who (some tm) tslot (some q) tm.grid tm.ctx d none

def execEngineQueueTake (ctx grid team q : Nat) (s : State) : Host.Outcome State Fault Refusal :=
  .next (match s.queueHead ctx grid team q with
    | none => s
    | some (tm, kind, e) =>
      let d : EngDesc := { kind, w := e.take 8, srcIa := none, dstIa := none, tag := none, regs := [] }
      let run := ((s.grid? ctx grid).map (·.kernel.scratch)).getD 0
      let who := tm.pusher e
      let out (s : State) : State := s.modTeam ctx grid team fun x =>
        { x with queues := setAt x.queues q { x.queue q with push := (x.queue q).push.drop 1 } }
      match checkDesc (s.ctx? ctx) (some run) false 0 d with
      | .error x => (out s).endUnissued tm q who d (if x.src then 1 else 2)
      | .ok d =>
        match d.bar with
        | none => (out s).takeChecked tm q who d
        | some b =>
          match s.recall tm.core .scr ((tm.scr + b) / 64) with
          | (s, false) => s
          | (s, true) => (out s).takeChecked tm q who { d with tag := some (natOfBytes (s.scrRead tm.core (tm.scr + b + 8) 2).1) })

/-! ### Lines (R328, R330) -/

/-- The write of the command's next line, whatever comes of it. -/
def State.lineTry (s : State) (core slot : Nat) : State :=
  match s.command? core slot with
  | none => s
  | some c =>
    if c.st != .running then s
    else match c.nextUnit s core with
      | some u => s.tryUnit (s.commands.length + 1) core slot u
      | none => s

def State.stalledAt (s : State) (core slot : Nat) : Bool :=
  match s.command? core slot with
  | some c => c.st != .running
  | none => false

def execEngineLineWrite (core slot : Nat) (s : State) : Host.Outcome State Fault Refusal :=
  .next (let s' := s.lineTry core slot
    if s'.stalledAt core slot then s else s'.replayWaiting)

/-- The line's access faults, or its page migrates: the stream stalls there. -/
def execEngineLineFault (core slot : Nat) (s : State) : Host.Outcome State Fault Refusal :=
  .next (let s' := s.lineTry core slot
    if s'.stalledAt core slot && !s.stalledAt core slot then s' else s)

/-! ### COLL (R334) -/

/-- The operation and type of a COLL's FLAGS (Tables 16.1, 16.3). -/
def EngDesc.collOp (d : EngDesc) : LdgOp :=
  match d.op with
  | 0 => .add | 1 => .min | 2 => .max | 3 => .and | 4 => .or | _ => .xor
def EngDesc.collTy (d : EngDesc) : LdgTy :=
  match d.esize with
  | 0 => .s32 | 1 => .f32 | 2 => .f16x2 | _ => .bf16x2

/-- Element by element, the members' words in the rank tree. -/
def combineMembers (op : LdgOp) (ty : LdgTy) (n : Nat) (vs : List (List Word)) : List Word :=
  (seqFrom 0 n).map fun k => ldgColumn op ty vs k

/-- This member's contribution, once every source line has been read. -/
def Command.sourceBytes (c : Command) : List Byte :=
  (seqFrom c.srcBase c.d.len).map fun a => match c.buffer.find? fun b => b.1 == a / 64 with
    | some (_, bs) => getAt 0 bs (a % 64)
    | none => 0

/-- What rank `r` brings: this module's bytes, a member's that sent them, or the identity. -/
def rankWords (mine : Option (List Byte)) (r0 : Nat) (remote : List CollPart) (ident : Word) (n r : Nat) : List Word :=
  let bs := if r = r0 then mine else (remote.find? fun q => q.rank == r).map (·.data)
  match bs with
  | some b => wordsOfBytes n b
  | none => List.replicate n ident

/-- The command whose result may come: a COLL that runs, its members answered or dropped. -/
def State.collWaits (s : State) (core slot : Nat) : Option (Command × Nat × Grid) :=
  match s.command? core slot with
  | some c => match c.coll, s.grid? c.ctx c.grid with
    | some (m, _), some gr => if c.st = .running ∧ c.result.isNone ∧ gr.gangOk = true then some (c, m, gr) else none
    | _, _ => none
  | none => none

/-- A recovering peer of the gang, which pauses the timeouts that await it (R444). -/
def State.gangRecovers (s : State) (gr : Grid) : Bool :=
  gr.gang.any fun x => s.peers.any fun p => p.state == .recovering && peerMember p x.id

/-- The timeout of the first member's COLL has passed (R376). -/
def State.collLate (s : State) (gr : Grid) (c : Command) (remote : List CollPart) : Bool :=
  decide ((remote.foldl (fun n q => min n q.since) c.since) + s.collCycles c.ctx ≤ s.cycle) && !s.gangRecovers gr

/-- DESIGN CHOICE: the members' answers arrive with the event that ends the wait; a member is dropped only once the timeout has passed (log 50). -/
def execCollResult (core slot : Nat) (remote : List CollPart) (dropped : List Nat) (s : State) :
    Host.Outcome State Fault Refusal :=
  .next (match s.collWaits core slot with
    | none => s
    | some (c, m, gr) =>
      let r0 := gr.rank m
      let drops := if s.collLate gr c remote then dropped.filter fun r => r != r0 && decide (r < gr.moduleCount m) else []
      let gone := (gr.liveOf m).droppedMods ++ drops
      if !((gr.remoteRanks m).all fun r => gone.contains r || remote.any fun q => q.rank == r) then s
      else
        let s := s.modGrid c.ctx c.grid fun gr => gr.setLive m fun l => { l with droppedMods := l.droppedMods ++ drops.filter fun r => !l.droppedMods.contains r }
        let live := remote.filter fun q => !gone.contains q.rank && q.rank != r0
        if live.any fun q => q.data.length != c.d.len || q.op != c.d.op || q.esize != c.d.esize then s.killCommand core slot 2
        else
          let lines := linesMet c.srcBase c.d.len
          let (s, ok) := s.clearEarlier c.srcSpace core c.seq lines
          if !ok then s
          else
            let (s, ok) := s.fetchLines core slot (seqFrom c.srcBase c.d.len) lines
            match ok, s.command? core slot with
            | true, some c =>
              let n := c.d.len / 4
              let op := c.d.collOp
              let ty := c.d.collTy
              let vs := (seqFrom 0 (gr.moduleCount m)).map (rankWords (some c.sourceBytes) r0 live (ldgIdentity op ty) n)
              let bytes := bytesOfWords (combineMembers op ty n vs)
              s.modCommand core slot fun c => { c with result := some bytes, dropped := !gone.isEmpty }
            | _, _ => s)

/-! ### Collective instances -/

def State.inst? (s : State) (c g key : Nat) : Option (Grid × Inst) :=
  match s.grid? c g with
  | some gr => (gr.insts.find? fun i => i.key == key).map fun i => (gr, i)
  | none => none

/-- Every live member here has contributed, and the values of the other modules are in hand. -/
def State.resolvable (s : State) (gr : Grid) (i : Inst) (have_ : List Nat) : Bool :=
  gr.gangOk && s.localDone gr i && ((gr.awaited i).all fun r => have_.contains r) && i.since.isSome

/-- The contributions that have come, with those that come now; a different kind is a mismatch (R375). -/
def Inst.withRemote (i : Inst) (remote : List (Nat × CollKind × Bool)) : Inst :=
  let new := remote.filter fun q => !(i.remote.any fun x => x.1 == q.1)
  { i with remote := i.remote ++ new, mismatch := i.mismatch || new.any fun q => q.2.1 != i.kind }

/-- The values of the live members among them. -/
def Inst.values (i : Inst) (ranks : List Nat) : List Bool := (i.remote.filter fun q => ranks.contains q.1).map (·.2.2)

def execCollectiveResolve (c g n : Nat) (remote : List (Nat × CollKind × Bool)) (s : State) : Host.Outcome State Fault Refusal :=
  .next (match s.inst? c g n with
    | some (gr, i) =>
      let i := i.withRemote (remote.filter fun q => (gr.awaited i).contains q.1)
      if s.resolvable gr i (i.remote.map (·.1)) then s.resolveInst c g i (i.values (gr.awaited i)) else s
    | none => s)

/-- The collective timeout of an instance has passed; a recovering peer pauses it (R444). -/
def State.instLate (s : State) (gr : Grid) (i : Inst) : Bool :=
  (match i.since with
   | some a => decide (a + s.collCycles gr.ctx ≤ s.cycle)
   | none => false) &&
  gr.gangOk && !(!(i.awaiting (gr.awaited i)).isEmpty && s.gangRecovers gr)

/-- The member groups that have not contributed are dropped, and EPOCH rises (R376). -/
def State.dropMissing (s : State) (gr : Grid) (i : Inst) (m : Nat) : State :=
  let gone := s.missingGroups gr i m ++ gr.unstarted m
  let far := (i.awaiting (gr.awaited i)).map fun r => (r, allGroups)
  s.modGrid gr.ctx gr.num fun g => g.setLive m fun l =>
    { l with droppedGroups := l.droppedGroups ++ gone, peerDrops := l.peerDrops ++ far, epoch := l.epoch + 1 }

/-- A GBAR that times out: GRPERR logs KIND 3 and the first missing rank on every core with arrived threads. -/
def State.logMissing (s : State) (gr : Grid) (i : Inst) : State :=
  let far := i.awaiting (gr.awaited i)
  match (s.missingRanks gr i ++ far).foldl (fun (o : Option Nat) r => match o with
      | none => some r
      | some x => some (min x r)) none with
  | none => s
  | some r =>
    ((i.arrived.filterMap fun a => (s.team? gr.ctx gr.num a.team).map (·.core)).eraseDups).foldl (fun s core => s.logGroup core 3 r) s

def execCollectiveTimeout (c g n : Nat) (s : State) : Host.Outcome State Fault Refusal :=
  .next (match s.inst? c g n with
    | some (gr, i) =>
      if s.instLate gr i then
        match i.kind.member with
        | some m => (s.dropMissing gr i m).resolveInst c g i (i.values (gr.awaited i))
        | none => (s.logMissing gr i).resolveInst c g i []
      else s
    | none => s)

end Sys2Proof.Machine
end

