-- ==== Sys2Proof/Machine/Links.lean ====
section
/-! DEFINITION. Renet links and peers (R440 to R445): link states, the rounds of a dead link, unreachable peers, link-state updates. -/

namespace Sys2Proof.Machine

open Sys2Proof

/-! ### Unreachable peers (R443) -/

def Space.deadPeer (s : State) : Space → Bool
  | .ia (some m) => s.peerDead m
  | _ => false

/-- A request that completes with LINK_DEAD. -/
def State.failOut (s : State) (o : OutReq) : State :=
  let o := if o.late then { o with t := ghost o.t } else o
  match o.dest, o.op with
  | _, .write (.stm _ data mask off tag) => (s.dropOut o).stmArrive o.core data mask off tag false
  | .peer m _, op => (s.dropOut o).linkDead o.t m op
  | _, _ => s

def OutReq.toDead (s : State) (o : OutReq) : Bool :=
  match o.dest with
  | .peer m _ => s.peerDead m
  | _ => false

/-- Every unreachable peer: its outstanding requests complete with LINK_DEAD, engine commands on it are killed with code 4, subscriptions to it end. -/
def State.cutDead (s : State) : State :=
  let s := (s.out.filter (OutReq.toDead s)).foldl State.failOut s
  let s := (s.commands.filter fun q => Space.deadPeer s q.2.srcSpace || Space.deadPeer s q.2.dstSpace).foldl
    (fun s q => s.killCommand q.1 q.2.slot 4) s
  { s with dies := s.dies.map fun d => { d with subs := d.subs.filter fun b => !s.peerDead b.mod } }

/-! ### Links (Table 21.5) -/

/-- A round is 50 µs. -/
def roundCycles : Nat := 50 * Config.cyclesPerUs

def State.link (s : State) (p : Nat) : Link := getAt ⟨.up, 0, none⟩ s.links p
def State.setLink (s : State) (p : Nat) (l : Link) : State := { s with links := setAt s.links p l }
def State.anyUp (s : State) : Bool := s.links.any fun l => l.state == .up

def State.say (s : State) (m : HostMsg) : State := { s with messages := s.messages ++ [m] }

/-- During the retraining of its last route a module floods RECOVERING (R444). -/
def execLinkFault (p : Nat) (s : State) : Host.Outcome State Fault Refusal :=
  .next (if (s.link p).state = .up then
      let s := s.setLink p { s.link p with state := .retrain, since := s.cycle }
      if s.anyUp then s else s.say (.flood .recovering)
    else s)

/-- DEAD, with the update that is flooded; a peer without a route is unreachable from then on. -/
def State.linkDies (s : State) (p : Nat) : State :=
  ((s.setLink p { s.link p with state := .dead 0, since := s.cycle }).say (.linkFlood p false)).cutDead

/-- Trained at the highest common revision; with none, the link counts as DEAD (R445). -/
def execLinkTrained (p : Nat) (rev : Option Nat) (s : State) : Host.Outcome State Fault Refusal :=
  .next (if (s.link p).state = .retrain then
      match rev with
      | none => (s.setLink p { s.link p with rev := none }).linkDies p
      | some _ =>
        let s' := s.setLink p { state := .up, since := s.cycle, rev }
        if s.anyUp then s' else s'.say (.flood .up)
    else s)

/-- Whether `k` rounds of a link's state have passed. -/
def State.roundsOver (s : State) (p k : Nat) : Bool := decide ((s.link p).since + k * roundCycles ≤ s.cycle)

def execRetrainRoundExpiry (p : Nat) (s : State) : Host.Outcome State Fault Refusal :=
  .next (if (s.link p).state = .retrain ∧ s.roundsOver p 1 = true then s.linkDies p else s)

/-- Round `k` of a dead link ends. -/
def State.roundEnds (s : State) (p k : Nat) : Option State :=
  if (s.link p).state = .dead k ∧ s.roundsOver p (k + 1) = true then some (s.setLink p { s.link p with state := .dead (k + 1) }) else none

/-- Queued packets go over the remaining routes: no state of the module but the link's round changes. -/
def execDeadRoundOne (p : Nat) (s : State) : Host.Outcome State Fault Refusal := .next ((s.roundEnds p 0).getD s)

/-- Unanswered requests are sent again; the target performs each at most once (R441). -/
def execDeadRoundTwo (p : Nat) (s : State) : Host.Outcome State Fault Refusal := .next ((s.roundEnds p 1).getD s)

/-- Whether an outstanding request went over the link is an open choice (log 11): 1 says that it did. -/
def State.overLink (s : State) (o : OutReq) : State :=
  match o.dest with
  | .peer _ _ =>
    let (k, s) := s.choice
    if k % 2 = 1 then s.failOut o else s
  | _ => s

def execDeadRoundThree (p : Nat) (s : State) : Host.Outcome State Fault Refusal :=
  .next (match s.roundEnds p 2 with
    | some s => s.out.foldl State.overLink s
    | none => s)

def execLinkRetrainedByManagement (p : Nat) (s : State) : Host.Outcome State Fault Refusal :=
  .next (match (s.link p).state with
    | .dead _ => (s.setLink p { s.link p with state := .up, since := s.cycle }).say (.linkFlood p true)
    | _ => s)

/-- The link sends the flit again: nothing beyond the link sees it. -/
def execFlitCrcRetry (_port : Nat) (s : State) : Host.Outcome State Fault Refusal := .next s

/-! ### Link-state updates (R444) -/

def OutReq.groupNames (m : Nat) (o : OutReq) : Bool :=
  match o.op with
  | .ldg _ _ _ _ table => table.any fun e => rankP e && rankMod e == m
  | _ => false

/-- The deadlines that a recovering peer paused move on by `n` cycles. -/
def State.resumeDeadlines (s : State) (m n : Nat) : State :=
  let far := peerMember (s.peer m)
  let waits (t : Tid) : Bool := s.out.any fun o => o.t == t && o.groupNames m
  { s with
    threads := s.threads.map fun (th : Thread) =>
      { th with
        remote := th.remote.map fun r => if r.2 = m then (r.1 + n, r.2) else r
        stamp := if th.wait = .group ∧ waits th.id = true then th.stamp + n else th.stamp }
    grids := s.grids.map fun (gr : Grid) =>
      { gr with
        gang := gr.gang.map fun x => if far x.id = true ∧ x.state = .uncommitted then { x with since := x.since + n } else x
        insts := gr.insts.map fun i => if (gr.gang.any fun x => far x.id) = true ∧ (gr.awaited i) ≠ [] then { i with since := i.since.map (· + n) } else i } }

def execLinkStateUpdate (m : Nat) (st : PeerState) (s : State) : Host.Outcome State Fault Refusal :=
  .next (
    let q := s.peer m
    let s := if q.state = .recovering ∧ st ≠ .recovering then s.resumeDeadlines m (s.cycle - q.since) else s
    let s := s.setPeer { q with state := st, since := if st = .recovering ∧ q.state = .recovering then q.since else s.cycle }
    if st = .dead then s.cutDead else s)

end Sys2Proof.Machine
end

