-- ==== Sys2Proof/Machine/Answers.lean ====
section
/-! DEFINITION. Completions and drains of the Barrel (R133, R137), the answers that resident threads wait for (R263, R315, R415), the write of a core-group register (R365). -/

namespace Sys2Proof.Machine

open Sys2Proof

/-! ### The Barrel (R133, R137, R160) -/

/-- A completion reaches its record, in the save area too (R133, R399). -/
def State.completed (s : State) (c : Completion) : State := (s.complete c).syncSaved c.t

/-- Completion `n` of those outstanding; a release set completes together, in ascending lane order, and drains at once. -/
def execRecordCompletion (n : Nat) (s : State) : Host.Outcome State Fault Refusal :=
  .next (match s.compl[n]? with
    | none => s
    | some c =>
      match c.set with
      | none => ({ s with compl := s.compl.eraseIdx n } : State).completed c
      | some k =>
        let cs := s.compl.filter fun x => x.set == some k
        let s : State := { s with compl := s.compl.filter fun x => x.set != some k }
        (cs.foldl State.completed s).drainSet (cs.map (·.t)))

/-- FILLHOLD of a context (CTXSCHED). -/
def State.fillHold (s : State) (ctx : Nat) : Nat :=
  match s.ctx? ctx with
  | some c => bitsOf c.ctxsched.toNat 16 8
  | none => 0

def execRegulatorDrain (core n : Nat) (s : State) : Host.Outcome State Fault Refusal :=
  .next (match (s.core core).bin? n with
    | some b => if s.regulatorDue b then s.drain core b.places else s
    | none => s)

/-! ### SC (R294, R315) -/

def ResWait.isSc (t : Tid) : ResWait → Bool
  | .sc x _ _ _ _ => x == t
  | _ => false

/-- The thread writes Pe, its reservation is cleared, and it issues again. -/
def State.scEnd (s : State) (t : Tid) (e : Nat) (ok : Bool) : State :=
  let s : State := { s with resWait := s.resWait.filter fun w => !w.isSc t }
  s.modThread t fun th => { th with regs := th.regs.setPn e ok, shadow := th.shadow.map fun r => r.setPn e ok, resv := none, hold := false }

/-- Whether the thread's reservation of a line is still held. -/
def State.holdsLine (s : State) (t : Tid) (line : Nat) (peer : Option Nat) : Bool := (s.thread? t).any fun th => th.reserves s.cycle line peer

/-- The engines' earlier writes of the line come first, and the issuer's engines read their sources there (R289); then the conditional write by `f`, if the reservation is still held. -/
def State.scWrite (s : State) (t : Tid) (ia : Nat) (peer : Option Nat) (n e : Nat) (f : State → State) : State :=
  match s.clearLines t (s.coreOf t) (.ia peer) (linesMet ia n) with
  | (s, false) => s
  | (s, true) => if s.holdsLine t (ia / 64) peer then (f s).scEnd t e true else s.scEnd t e false

/-- The conditional write at a peer's home, behind the thread's earlier requests there (R297). -/
def State.scPeer (s : State) (t : Tid) (m ia : Nat) (data : List Byte) (e : Nat) : State :=
  if !s.holdsLine t (ia / 64) (some m) || s.peerDead m then s.scEnd t e false
  else if s.out.any fun o => o.t == t && sameDest o.dest (.peer m 0) then s
  else s.scWrite t ia (some m) data.length e fun s => s.writePeer m ia data (some t)

/-- The conditional write at its home: a fault there is reported and fails the SC (R272); a migrating page makes it wait; a line of the system domain leaves ATOMIC_DOMAIN for the next instruction (R306, R324). -/
def execScAnswer (t : Tid) (s : State) : Host.Outcome State Fault Refusal :=
  .next (match s.resWait.find? (ResWait.isSc t) with
    | some (.sc _ ia peer data e) =>
      match s.scPlace ia peer with
      | (x, .fault k l v) => (s.reportFault (s.ctxOf t) x .store k l v).scEnd t e false
      | (_, .blocked) => s
      | (_, .control _) | (_, .to .group) => s.scEnd t e false
      | (_, .to (.sys _ _)) => (s.modThread t fun th => { th with next := some (.atomicDomain, BitVec.ofNat 64 ia) }).scEnd t e false
      | (_, .to (.peer m a)) => s.scPeer t m a data e
      | (x, .to (.mem _)) =>
        if !s.holdsLine t (x / 64) none then s.scEnd t e false
        else s.scWrite t x none data.length e fun s =>
          match s.scPlace ia peer with
          | (x, .to (.mem pa)) =>
            let (s, p) := (s.passHomes true 5 ia).writeLine x pa (s.ptsOf t) data (some t)
            s.modThread t fun th => { th with pts := p }
          | _ => s
    | _ => s)

/-! ### A region's commit, a window's spread -/

def execRegionCommitDone (t : Tid) (s : State) : Host.Outcome State Fault Refusal :=
  .next (if s.resWait.contains (.commit t) then
      (match s.thread? t with
       | some th => if th.inRunAhead then s.commitAhead t else s.commitDone t
       | none => s)
    else s)

def execWinsetPropagated (t : Tid) (s : State) : Host.Outcome State Fault Refusal :=
  .next (if s.resWait.contains (.winset t) then
      { s.modThread t (fun th => { th with hold := false }) with resWait := s.resWait.filter fun w => w != .winset t }
    else s)

/-! ### Core groups (R365) -/

/-- A line of a migrating page, where it still stands (R274). -/
def State.blockedLine (s : State) (ia : Nat) : Option (List Byte) :=
  match s.routeAll ia false, s.walk (s.finalIa ia false) with
  | .blocked, .leaf e _ _ =>
    let k := (leafSize e).getD 12
    let x := s.finalIa ia false
    let (bs, bad) := s.readPA x (leafBase e k + x % 2 ^ k) 64
    if leafKind e = 0 ∧ bad = false then some bs else none
  | _, _ => none

/-- The table's bytes, line by line, the engines having written what they owe; `none` when a read faults or its line does not verify (R278). -/
def State.tableBytes (s : State) (ia : Nat) : Nat → State × Option (List Byte)
  | 0 => (s, some [])
  | n + 1 =>
    match s.iaReadLine ia 64 with
    | some (s, bs) => match s.tableBytes (ia + 64) n with
      | (s, some rest) => (s, some (bs ++ rest))
      | r => r
    | none => match s.blockedLine ia with
      | some bs => match s.tableBytes (ia + 64) n with
        | (s, some rest) => (s, some (bs ++ rest))
        | r => r
      | none => (s, none)

def cgCount (v : DWord) : Nat := bitsOf v.toNat 46 13

/-- Reserved bits of every entry are 0 (Table 18.2). -/
def entriesOk (l : List Word) : Bool := l.all fun w => bitsOf w.toNat 25 6 == 0

def execCgdefWrite (ctx k : Nat) (v : DWord) (s : State) : Host.Outcome State Fault Refusal :=
  .next (
    let fields := v &&& 0x87FFFFFFFFFFFFFF
    let n := cgCount v
    let put (s : State) (d : DWord) (table : List Word) : State :=
      s.modCtx ctx fun c => { c with cgdef := setAt c.cgdef k d, cgtab := setAt c.cgtab k table }
    if !v.getLsbD 63 then put s fields []
    else if n = 0 ∨ 4224 < n then put s (fields &&& ~~~(1#64 <<< 63)) []
    else
      match s.tableBytes (bitsOf v.toNat 0 46 * 64) ((4 * n + 63) / 64) with
      | (s, some bs) =>
        let table := wordsOfBytes n bs
        if entriesOk table then put s fields table else put s (fields &&& ~~~(1#64 <<< 63)) []
      | (s, none) => put s (fields &&& ~~~(1#64 <<< 63)) [])

end Sys2Proof.Machine
end

