-- ==== Sys2Proof/Machine/Manage.lean ====
section
/-! DEFINITION. The management core's services: contexts (R423, R428), checkpoints (R431 to R435), resets and devices (R438, R439), boot and attestation (R446, R447), MODID (R13), TDISP (R436). -/

namespace Sys2Proof.Machine

open Sys2Proof

/-! ### Contexts -/

/-- The management core chooses the die that hosts the context. -/
def execContextCreate (ctx : Nat) (form : CtxForm) (s : State) : Host.Outcome State Fault Refusal :=
  .next (if (s.ctx? ctx).isSome then s else { s with ctxs := s.ctxs ++ [{ Ctx.reset ctx form.redundant with host := form.die }] })

/-- Waiting launches that a thread submitted end with the context. -/
def State.cancelWaiting (s : State) (c : Nat) : State :=
  match s.ctx? c with
  | none => s
  | some x =>
    let s := s.modCtx c fun x => { x with waiting := [] }
    x.waiting.foldl (fun s w => s.signal c (x.signalOr0 (Record.ofBytes w.body).complsig) stCancelled) s

/-- Queued entries of the context leave every core and die: event queues, error logs, subscriptions. -/
def State.dropEntries (s : State) (c : Nat) : State :=
  { s with
    cores := s.cores.map fun (k : Core) =>
      { k with evq := k.evq.filter (·.ctx != c), errlog := k.errlog.filter (·.ctx != c), dropped := k.dropped.filter (·.1 != c) }
    dies := s.dies.map fun (d : Die) => { d with subs := d.subs.filter (·.ctx != c) }
    held := s.held.filter fun h => !(h.ctx == c && h.who == .launch) }

/-- Step by step: the queues are cancelled, every grid ends with CANCELLED, scalar threads stop, entries go; the context itself follows its last grid. -/
def State.destroy (s : State) (c : Nat) : State :=
  match s.ctx? c with
  | none => s
  | some x =>
    let s := s.modCtx c fun x => { x with dying := true }
    let s := x.queues.foldl (fun s q => (s.cancelPackets c q.id).modQueue c q.id fun y => { y with next := y.wridx }) s
    let s := s.cancelWaiting c
    let s := (s.grids.filter fun g => g.ctx == c).foldl (fun s g => s.endGrid c g.num stCancelled) s
    let s := (s.cores.filter fun k => k.bind.any fun b => b.ctx == c).foldl (fun s k => s.unbind k.id) s
    s.dropEntries c

def execContextDestroy (ctx : Nat) (s : State) : Host.Outcome State Fault Refusal := .next (s.destroy ctx)

/-- A context under destruction whose grids have retired and whose signals have been updated. -/
def State.isOver (s : State) (c : Ctx) : Bool :=
  c.dying && !(s.grids.any fun g => g.ctx == c.id) && !(s.held.any fun h => match h.who with
    | .signal x _ => x == c.id
    | _ => false)

/-- Such a context goes, with the entries that its last grids posted (R123). -/
def State.buryDone (s : State) : State :=
  if s.ctxs.any (·.dying) then
    let gone := s.ctxs.filter s.isOver
    let s' := gone.foldl (fun s c => s.dropEntries c.id) s
    { s' with ctxs := s'.ctxs.filter fun c => !gone.any fun x => x.id == c.id }
  else s

/-! ### Checkpoints -/

/-- PA of checkpoint window `d`; bytes of HBM that part `d` holds; offsets of its contents (Table 21.2). -/
def ckptBase (d : Nat) : Nat := Config.farBase + d * 2 ^ 39 + Config.ckptOffset
def partBytes : Nat := 0x3000000000
def partHbm : Nat := 0x1000
def partAcc : Nat := 0x3000001000
def accBytes : Nat := 8 * 2 ^ 20

/-- Every thread's flag operations complete, no migration is left: the module is quiet, and the checkpoint takes its tick. -/
def execCkptQuiesced (s : State) : Host.Outcome State Fault Refusal :=
  .next (if s.ckpt.state = 1 ∧ (s.migs.all fun m => m.stat != 1) then
      let s := s.threads.foldl (fun s th => s.landAll th.id) s
      { s with ckpt := { s.ckpt with state := 2, tick := s.topTick } }
    else s)

/-- The enabled cores of part `d`, ascending. -/
def State.partCores (s : State) (d : Nat) : List Nat := (seqFrom 0 s.ncore).filter fun c => c % 4 == d

/-- Poisoned lines of part `d`'s HBM bytes and accumulator stores, as lines of the window. -/
def State.partPoison (s : State) (d : Nat) : List Nat :=
  let hbm := (s.poison.filter fun l => decide (d * partBytes ≤ 64 * l) && decide (64 * l < (d + 1) * partBytes)).map fun l =>
    (ckptBase d + partHbm + (64 * l - d * partBytes)) / 64
  let acc := (s.cores.filter fun k => k.id % 4 == d).flatMap fun k => k.accBad.map fun a =>
    (ckptBase d + partAcc + k.id / 4 * accBytes + a) / 64
  hbm ++ acc.eraseDups

/-- The header of part `d` (Table 21.4). -/
def State.partHeader (s : State) (d status : Nat) : List Byte :=
  let body := bytesOfNat 4 0x504B4346 ++ bytesOfNat 4 d ++ bytesOfNat 4 (s.ckpt.seq.toNat + 1) ++ bytesOfNat 4 status ++
    bytesOfNat 8 (s.epoch * 2 ^ 48 + s.ckpt.tick) ++ bytesOfNat 8 s.ckpt.cycle ++ bytesOfNat 4 s.ncore ++
    bytesOfNat 4 (s.partPoison d).length
  body ++ bytesOfNat 4 (crc32c body).toNat ++ List.replicate 4052 0

/-- The IA lines for which lines [lo, hi) were written, moved by a distance: check values go with the bytes (R278, R433). -/
def movedChecks (l : List (Nat × Nat)) (lo hi dst : Nat) : List (Nat × Nat) :=
  (l.filter fun x => decide (lo ≤ 64 * x.1) && decide (64 * x.1 < hi)).map fun x => ((64 * x.1 - lo + dst) / 64, x.2)

/-- Part `d` of the image: HBM byte for byte, the accumulator stores, and the header last. -/
def State.copyPart (s : State) (status d : Nat) : State :=
  let base := ckptBase d
  let bad := s.partPoison d
  let m := Memory.copy s.mem (d * partBytes) partBytes s.mem (base + partHbm)
  let m := m.clear (base + partAcc) ((s.partCores d).length * accBytes)
  let m := (s.cores.filter fun k => k.id % 4 == d).foldl (fun m k =>
    k.acc.foldl (fun m c => m.put (base + partAcc + k.id / 4 * accBytes + c.1) c.2) m) m
  let hi := Config.farBase + (d + 1) * 2 ^ 39
  { s with
    mem := m.write base (s.partHeader d status)
    poison := bad ++ s.poison.filter fun l => decide (64 * l < base) || decide (hi ≤ 64 * l)
    lineIa := movedChecks s.lineIa (d * partBytes) ((d + 1) * partBytes) (base + partHbm) ++
      s.lineIa.filter fun x => decide (64 * x.1 < base) || decide (hi ≤ 64 * x.1) }

/-- Every frozen counter goes on where it stood (R434). -/
def State.thaw (s : State) (n : Nat) : State :=
  { s with
    threads := s.threads.map fun (th : Thread) =>
      { th with
        wdStart := th.wdStart + n, stamp := th.stamp + n
        h := { th.h with timer := th.h.timer.map (· + n) }
        remote := th.remote.map fun r => (r.1 + n, r.2)
        resv := th.resv.map fun v => { v with since := v.since + n } }
    grids := s.grids.map fun (gr : Grid) =>
      { gr with
        gang := gr.gang.map fun x => { x with since := x.since + n }
        insts := gr.insts.map fun i => { i with since := i.since.map (· + n) } }
    cores := s.cores.map fun (k : Core) => { k with slots := k.slots.map fun c => { c with since := c.since + n } }
    ctxs := s.ctxs.map fun (c : Ctx) => { c with preDeadline := c.preDeadline.map (· + n) } }

/-- Resuming: SEQ rises, LASTST takes the status, the waiting CKPT completes, the links are told. -/
def State.ckptResume (s : State) (status : Nat) : State :=
  let waiter := s.ckpt.waiter
  let s := s.thaw (s.cycle - s.ckpt.cycle)
  let s : State := { s with
    ckpt := { s.ckpt with state := 0, lastst := status, seq := s.ckpt.seq + 1, waiter := none }
    messages := s.messages ++ [.flood .up] }
  match waiter with
  | some (t, d) => s.pushCompl t [(d, BitVec.ofNat 32 status)] none none
  | none => s

def execCkptCopyDone (farFault : Bool) (s : State) : Host.Outcome State Fault Refusal :=
  .next (if s.ckpt.state = 2 then
      if farFault then s.ckptResume 4
      else
        let status := if (seqFrom 0 4).all fun d => (s.partPoison d).isEmpty then 0 else 3
        (((seqFrom 0 4).foldl (fun s d => s.copyPart status d) s)).ckptResume status
    else s)

/-- A header that its CRC confirms, of part `d`. -/
def headerGood (bs : List Byte) (d : Nat) : Bool :=
  fieldAt bs 0 4 == 0x504B4346 && fieldAt bs 4 4 == d && fieldAt bs 0x28 4 == (crc32c (bs.take 0x28)).toNat && fieldAt bs 0xC 4 != 4

/-- Part `d` goes back into HBM and the accumulator stores, POISON bits with it. -/
def State.restorePart (s : State) (d : Nat) : State :=
  let base := ckptBase d
  let m := Memory.copy s.mem (base + partHbm) partBytes s.mem (d * partBytes)
  let bad := (s.poison.filter fun l => decide (base + partHbm ≤ 64 * l) && decide (64 * l < base + partHbm + partBytes)).map fun l =>
    (64 * l - (base + partHbm) + d * partBytes) / 64
  let from_ (c : Nat) : Memory :=
    let a := base + partAcc + c / 4 * accBytes
    (s.mem.filter fun q => decide (a ≤ q.1) && decide (q.1 < a + accBytes)).map fun q => (q.1 - a, q.2)
  let s := (s.partCores d).foldl (fun (s : State) c =>
    if (from_ c).isEmpty ∧ (s.core c).acc.isEmpty then s else s.modCore c fun k => { k with acc := from_ c, accBad := [] }) s
  { s with
    mem := m
    poison := bad ++ s.poison.filter fun l => decide (64 * l < d * partBytes) || decide ((d + 1) * partBytes ≤ 64 * l)
    lineIa := movedChecks s.lineIa (base + partHbm) (base + partHbm + partBytes) (d * partBytes) ++
      s.lineIa.filter fun x => decide (64 * x.1 < d * partBytes) || decide ((d + 1) * partBytes ≤ 64 * x.1) }

def execCheckpointRestore (s : State) : Host.Outcome State Fault Refusal :=
  .next (if s.ctxs.isEmpty ∧ ((seqFrom 0 4).all fun d => headerGood (s.mem.read (ckptBase d) 64) d) then
      (seqFrom 0 4).foldl State.restorePart s
    else s)

/-! ### Resets and devices (R438, R439) -/

/-- The physical line behind an IA line of this module. -/
def State.physLine (s : State) (l : Nat) : Option Nat :=
  match s.routeAll (64 * l) true with
  | .to (.mem pa) => some (pa / 64)
  | _ => none

/-- Lines of module memory whose write lease an engine command still holds. -/
def State.leasedLines (s : State) (core : Nat) (c : Command) : List Nat :=
  match c.dstSpace with
  | .ia none => ((seqFrom (c.dstBase / 64) (c.dstSpan / 64 + 2)).filter fun l => !(c.unitsAt s core l).isEmpty).filterMap s.physLine
  | _ => []

/-- A compute stack is reset: the lines whose write lease it held, for an engine or since an LR (R314), are poisoned, its work ends, its cores are as after module reset. -/
def State.resetDie (s : State) (d : Nat) : State :=
  let lines := ((s.commands.filter fun q => s.dieOf q.1 == d).flatMap fun q => s.leasedLines q.1 q.2) ++
    (s.leases.filter fun x => x.2 == d).filterMap fun x => s.physLine x.1
  let s := s.loseDie d
  let s := lines.foldl State.poisonLine s
  let cs := s.coresOf d
  { s with
    cores := s.cores.filter fun k => !cs.contains k.id
    leases := s.leases.filter fun x => x.2 != d
    threads := s.threads.filter fun th => match th.id with
      | .scalar k => !cs.contains k
      | _ => true
    dies := s.dies.filter fun x => x.id != d }

def execFunctionLevelReset (fn : Nat) (s : State) : Host.Outcome State Fault Refusal :=
  .next (
    if fn = 24 then
      { s.modFunc 24 fun f => { f with keys := false } with apers := List.replicate 24 0 }
    else (s.modFunc fn fun f => { f with tdisp := .error, keys := false }).resetDie fn)

def OutReq.atPort (p : Nat) (o : OutReq) : Bool :=
  match o.dest with
  | .sys q _ => q == p
  | _ => false

def execCxlDeviceLost (port : Nat) (s : State) : Host.Outcome State Fault Refusal :=
  .next (
    let s : State := { s with lostPorts := if s.lostPorts.contains port then s.lostPorts else port :: s.lostPorts }
    (s.out.filter (OutReq.atPort port)).foldl State.performOut s)

/-! ### Boot and attestation (R446, R447) -/

/-- The images of slots `n` on are verified in order: the digests of those accepted, and whether all 38 were. -/
def bootFrom : Nat → Nat → List FwImage → List (Option (BitVec 256)) → List (Option (BitVec 256)) × Bool
  | 0, _, _, m => (m, true)
  | _ + 1, _, [], m => (m, false)
  | k + 1, n, i :: rest, m =>
    if i.signed && decide (Config.minSecurityVersion ≤ i.version) then bootFrom k (n + 1) rest (setAt m n (some i.digest)) else (m, false)

/-- What a module reset leaves: the reset values; memories, devices, peers and fuses as they are (log 47). -/
def State.afterReset (s : State) : State :=
  { State.reset with
    disabled := s.disabled, mem := s.mem, poison := s.poison, lineIa := s.lineIa, sysMem := s.sysMem, lostPorts := s.lostPorts, peers := s.peers
    messages := s.messages, inbox := s.inbox, choices := s.choices, freeCount := s.freeCount }

def execModuleReset (images : List FwImage) (s : State) : Host.Outcome State Fault Refusal :=
  .next (
    let (m, ok) := bootFrom 38 0 images (List.replicate 38 none)
    let s := { s.afterReset with measured := m, booted := true, enumerated := ok }
    if ok then s else s.say .bootAuth)

def execGetMeasurements (s : State) : Host.Outcome State Fault Refusal := .next (s.say (.measurements s.measured))

/-- The answer is signed; the signature's bits are the key's (log 13). -/
def execChallenge (nonce : Nat) (s : State) : Host.Outcome State Fault Refusal := .next (s.say (.challengeAnswer nonce (Config.digest nonce)))

def execKeyExchange (fn : Nat) (s : State) : Host.Outcome State Fault Refusal :=
  .next ((s.modFunc fn fun f => { f with keys := true }).say (.sessionKey fn))

/-- MODID changes only while no context is placed (R13). -/
def execModidWrite (v : BitVec 12) (s : State) : Host.Outcome State Fault Refusal :=
  .next (if s.ctxs.isEmpty then { s with modid := v.toNat } else s)

/-- The moves of TDISP: lock, start, and stop from any state (R436, log 48). -/
def tdispMove (old new : Tdisp) : Bool :=
  match old, new with
  | .unlocked, .locked | .locked, .run => true
  | _, .unlocked => true
  | _, _ => false

def execTdispRequest (fn : Nat) (st : Tdisp) (s : State) : Host.Outcome State Fault Refusal :=
  .next (s.modFunc fn fun f => if tdispMove f.tdisp st then { f with tdisp := st } else f)

end Sys2Proof.Machine
end

