-- ==== Sys2Proof/Machine/Dispatch.lean ====
section
/-! DEFINITION. The one dispatch over the instructions: each arm one call of its meaning. -/

namespace Sys2Proof.Machine

open Sys2Proof

def exec (i : Instr) (s : State) : Host.Outcome State Fault Refusal :=
  match i with
  | .nop g => Sys2Proof.Machine.execNop g s
  | .bra g off slot => Sys2Proof.Machine.execBra g off slot s
  | .brx g a => Sys2Proof.Machine.execBrx g a s
  | .call g d off slot => Sys2Proof.Machine.execCall g d off slot s
  | .callx g d a => Sys2Proof.Machine.execCallx g d a s
  | .ret g a => Sys2Proof.Machine.execRet g a s
  | .jset g j v => Sys2Proof.Machine.execJset g j v s
  | .jwait g j => Sys2Proof.Machine.execJwait g j s
  | .jleave g j => Sys2Proof.Machine.execJleave g j s
  | .exit g => Sys2Proof.Machine.execExit g s
  | .brk g code => Sys2Proof.Machine.execBrk g code s
  | .trap g code => Sys2Proof.Machine.execTrap g code s
  | .hint g plive range live => Sys2Proof.Machine.execHint g plive range live s
  | .iadd g m d a b => Sys2Proof.Machine.execIadd g m d a b s
  | .isub g m d a b => Sys2Proof.Machine.execIsub g m d a b s
  | .iaddc g d a b c e => Sys2Proof.Machine.execIaddc g d a b c e s
  | .isubb g d a b c e => Sys2Proof.Machine.execIsubb g d a b c e s
  | .imul g d a b => Sys2Proof.Machine.execImul g d a b s
  | .imulh g sg d a b => Sys2Proof.Machine.execImulh g sg d a b s
  | .imad g d a b c => Sys2Proof.Machine.execImad g d a b c s
  | .imadw g sg d a b c => Sys2Proof.Machine.execImadw g sg d a b c s
  | .idiv g fs sg d a b => Sys2Proof.Machine.execIdiv g fs sg d a b s
  | .irem g fs sg d a b => Sys2Proof.Machine.execIrem g fs sg d a b s
  | .imin g sg d a b => Sys2Proof.Machine.execImin g sg d a b s
  | .imax g sg d a b => Sys2Proof.Machine.execImax g sg d a b s
  | .iabs g sat d a => Sys2Proof.Machine.execIabs g sat d a s
  | .and g d a b => Sys2Proof.Machine.execAnd g d a b s
  | .or g d a b => Sys2Proof.Machine.execOr g d a b s
  | .xor g d a b => Sys2Proof.Machine.execXor g d a b s
  | .andn g d a b => Sys2Proof.Machine.execAndn g d a b s
  | .not g d a => Sys2Proof.Machine.execNot g d a s
  | .shl g wrap d a b => Sys2Proof.Machine.execShl g wrap d a b s
  | .shr g wrap d a b => Sys2Proof.Machine.execShr g wrap d a b s
  | .sar g wrap d a b => Sys2Proof.Machine.execSar g wrap d a b s
  | .rotl g d a b => Sys2Proof.Machine.execRotl g d a b s
  | .funnel g wrap right d a b c => Sys2Proof.Machine.execFunnel g wrap right d a b c s
  | .clz g sgn d a => Sys2Proof.Machine.execClz g sgn d a s
  | .popc g d a => Sys2Proof.Machine.execPopc g d a s
  | .brev g d a => Sys2Proof.Machine.execBrev g d a s
  | .bfx g sgn d a b => Sys2Proof.Machine.execBfx g sgn d a b s
  | .bfi g d a b c => Sys2Proof.Machine.execBfi g d a b c s
  | .isetp g u fold cond d a b e => Sys2Proof.Machine.execIsetp g u fold cond d a b e s
  | .sel g d a b c => Sys2Proof.Machine.execSel g d a b c s
  | .mov g d f => Sys2Proof.Machine.execMov g d f s
  | .lea g w32 u d a b shift off => Sys2Proof.Machine.execLea g w32 u d a b shift off s
  | .plop g tab d a b c => Sys2Proof.Machine.execPlop g tab d a b c s
  | .p2x g h d => Sys2Proof.Machine.execP2x g h d s
  | .x2p g h a mask => Sys2Proof.Machine.execX2p g h a mask s
  | .pset g d f => Sys2Proof.Machine.execPset g d f s
  | .fadd g ftz rm d a b => Sys2Proof.Machine.execFadd g ftz rm d a b s
  | .fsub g ftz rm d a b => Sys2Proof.Machine.execFsub g ftz rm d a b s
  | .fmul g ftz rm d a b => Sys2Proof.Machine.execFmul g ftz rm d a b s
  | .ffma g ftz rm d a b c => Sys2Proof.Machine.execFfma g ftz rm d a b c s
  | .fmin g ftz d a b => Sys2Proof.Machine.execFmin g ftz d a b s
  | .fmax g ftz d a b => Sys2Proof.Machine.execFmax g ftz d a b s
  | .fsetp g ftz fold cond d a b e => Sys2Proof.Machine.execFsetp g ftz fold cond d a b e s
  | .fclass g src d a => Sys2Proof.Machine.execFclass g src d a s
  | .frcp g fs ftz rm d a => Sys2Proof.Machine.execFrcp g fs ftz rm d a s
  | .frsq g fs ftz rm d a => Sys2Proof.Machine.execFrsq g fs ftz rm d a s
  | .fsqrt g fs ftz rm d a => Sys2Proof.Machine.execFsqrt g fs ftz rm d a s
  | .fexp2 g fs ftz rm d a => Sys2Proof.Machine.execFexp2 g fs ftz rm d a s
  | .flog2 g fs ftz rm d a => Sys2Proof.Machine.execFlog2 g fs ftz rm d a s
  | .fsin g fs ftz rm d a => Sys2Proof.Machine.execFsin g fs ftz rm d a s
  | .fcos g fs ftz rm d a => Sys2Proof.Machine.execFcos g fs ftz rm d a s
  | .fdiv g fs ftz rm d a b => Sys2Proof.Machine.execFdiv g fs ftz rm d a b s
  | .pkadd g bf rm d a b => Sys2Proof.Machine.execPkadd g bf rm d a b s
  | .pkmul g bf rm d a b => Sys2Proof.Machine.execPkmul g bf rm d a b s
  | .pkfma g bf rm d a b c => Sys2Proof.Machine.execPkfma g bf rm d a b c s
  | .pkmin g bf d a b => Sys2Proof.Machine.execPkmin g bf d a b s
  | .pkmax g bf d a b => Sys2Proof.Machine.execPkmax g bf d a b s
  | .pksetp g bf cond d a b e => Sys2Proof.Machine.execPksetp g bf cond d a b e s
  | .fscale g ftz rm d a b => Sys2Proof.Machine.execFscale g ftz rm d a b s
  | .frnd g ftz rm d a => Sys2Proof.Machine.execFrnd g ftz rm d a s
  | .dot2 g bf ftz rm d a b c => Sys2Proof.Machine.execDot2 g bf ftz rm d a b c s
  | .fmtrd g d k => Sys2Proof.Machine.execFmtrd g d k s
  | .f2i g ftz u src rm d a => Sys2Proof.Machine.execF2i g ftz u src rm d a s
  | .i2f g u dst rm d a => Sys2Proof.Machine.execI2f g u dst rm d a s
  | .f2f g ftz dst src rm d a => Sys2Proof.Machine.execF2f g ftz dst src rm d a s
  | .packn g ftz fmt rm d a b => Sys2Proof.Machine.execPackn g ftz fmt rm d a b s
  | .unpackn g fmt d a => Sys2Proof.Machine.execUnpackn g fmt d a s
  | .bscale g inv ftz rm d a b k => Sys2Proof.Machine.execBscale g inv ftz rm d a b k s
  | .qblk g ftz src d a c k => Sys2Proof.Machine.execQblk g ftz src d a c k s
  | .dqblk g ftz dst d a c k => Sys2Proof.Machine.execDqblk g ftz dst d a c k s
  | .i2i g sat uin t d a => Sys2Proof.Machine.execI2i g sat uin t d a s
  | .shfl g fill wid mode d a b e => Sys2Proof.Machine.execShfl g fill wid mode d a b e s
  | .vote g neg f a => Sys2Proof.Machine.execVote g neg f a s
  | .matchx g w64 all d a => Sys2Proof.Machine.execMatchx g w64 all d a s
  | .redux g ftz op d a => Sys2Proof.Machine.execRedux g ftz op d a s
  | .redix g ftz xi max ty d a => Sys2Proof.Machine.execRedix g ftz xi max ty d a s
  | .scan g excl ftz op d a => Sys2Proof.Machine.execScan g excl ftz op d a s
  | .elect g w e => Sys2Proof.Machine.execElect g w e s
  | .lanemask g k d => Sys2Proof.Machine.execLanemask g k d s
  | .lds g fs sx sz d m => Sys2Proof.Machine.execLds g fs sx sz d m s
  | .sts g fs sz d m => Sys2Proof.Machine.execSts g fs sz d m s
  | .atoms g fs op sz d m b => Sys2Proof.Machine.execAtoms g fs op sz d m b s
  | .ldc g sx hint sz d m => Sys2Proof.Machine.execLdc g sx hint sz d m s
  | .st g hint sz d m => Sys2Proof.Machine.execSt g hint sz d m s
  | .atomc g op sz d m b => Sys2Proof.Machine.execAtomc g op sz d m b s
  | .red g op sz d m => Sys2Proof.Machine.execRed g op sz d m s
  | .casc g sz d m b c => Sys2Proof.Machine.execCasc g sz d m b c s
  | .lr g sz d m => Sys2Proof.Machine.execLr g sz d m s
  | .sc g sz d m e => Sys2Proof.Machine.execSc g sz d m e s
  | .fence g dom => Sys2Proof.Machine.execFence g dom s
  | .pref g lvl m => Sys2Proof.Machine.execPref g lvl m s
  | .subs g d m b => Sys2Proof.Machine.execSubs g d m b s
  | .unsub g m => Sys2Proof.Machine.execUnsub g m s
  | .stm g sz d m b c => Sys2Proof.Machine.execStm g sz d m b c s
  | .cpy g a => Sys2Proof.Machine.execCpy g a s
  | .gath g a => Sys2Proof.Machine.execGath g a s
  | .scat g a => Sys2Proof.Machine.execScat g a s
  | .binit g m b c => Sys2Proof.Machine.execBinit g m b c s
  | .barr g m b => Sys2Proof.Machine.execBarr g m b s
  | .bwait g m b => Sys2Proof.Machine.execBwait g m b s
  | .qpush g fs q a e => Sys2Proof.Machine.execQpush g fs q a e s
  | .qpop g d q => Sys2Proof.Machine.execQpop g d q s
  | .qpopNb g d q e => Sys2Proof.Machine.execQpopNb g d q e s
  | .qstat g d q => Sys2Proof.Machine.execQstat g d q s
  | .fill g a => Sys2Proof.Machine.execFill g a s
  | .cpyr g a b k => Sys2Proof.Machine.execCpyr g a b k s
  | .mxs g a => Sys2Proof.Machine.execMxs g a s
  | .coll g a => Sys2Proof.Machine.execColl g a s
  | .mmaq g fs neg acc d a b c k bq => Sys2Proof.Machine.execMmaq g fs neg acc d a b c k bq s
  | .mmaz g fs neg acc d a b c k bq => Sys2Proof.Machine.execMmaz g fs neg acc d a b c k bq s
  | .talloc g d e n => Sys2Proof.Machine.execTalloc g d e n s
  | .tfree g => Sys2Proof.Machine.execTfree g s
  | .tld g fs t d m => Sys2Proof.Machine.execTld g fs t d m s
  | .tst g fs img t d m => Sys2Proof.Machine.execTst g fs img t d m s
  | .tzero g fs t d => Sys2Proof.Machine.execTzero g fs t d s
  | .tspill g fs d m n => Sys2Proof.Machine.execTspill g fs d m n s
  | .tfill g fs d m n => Sys2Proof.Machine.execTfill g fs d m n s
  | .frags g fs res t d a => Sys2Proof.Machine.execFrags g fs res t d a s
  | .tsig g fs t d a => Sys2Proof.Machine.execTsig g fs t d a s
  | .ldg g op ty sz d m cg e => Sys2Proof.Machine.execLdg g op ty sz d m cg e s
  | .cbr g all pt a m off slot => Sys2Proof.Machine.execCbr g all pt a m off slot s
  | .csync g ra m => Sys2Proof.Machine.execCsync g ra m s
  | .mbrd g sel d m => Sys2Proof.Machine.execMbrd g sel d m s
  | .gbar g ra cg => Sys2Proof.Machine.execGbar g ra cg s
  | .seg g free d n off slot => Sys2Proof.Machine.execSeg g free d n off slot s
  | .yield g off slot => Sys2Proof.Machine.execYield g off slot s
  | .launch g loc d m => Sys2Proof.Machine.execLaunch g loc d m s
  | .spawn g d a => Sys2Proof.Machine.execSpawn g d a s
  | .fwd g b d n => Sys2Proof.Machine.execFwd g b d n s
  | .mbox g d a b => Sys2Proof.Machine.execMbox g d a b s
  | .evset g f => Sys2Proof.Machine.execEvset g f s
  | .evclr g f => Sys2Proof.Machine.execEvclr g f s
  | .evwait g f => Sys2Proof.Machine.execEvwait g f s
  | .evqpop g d => Sys2Proof.Machine.execEvqpop g d s
  | .evqpopNb g d => Sys2Proof.Machine.execEvqpopNb g d s
  | .rbegin g d off slot => Sys2Proof.Machine.execRbegin g d off slot s
  | .rkeep g a n => Sys2Proof.Machine.execRkeep g a n s
  | .rend g => Sys2Proof.Machine.execRend g s
  | .rabort g => Sys2Proof.Machine.execRabort g s
  | .errlogPop g d => Sys2Proof.Machine.execErrlogPop g d s
  | .errlogStat g d => Sys2Proof.Machine.execErrlogStat g d s
  | .errlogInj g kind => Sys2Proof.Machine.execErrlogInj g kind s
  | .srd g w64 d n => Sys2Proof.Machine.execSrd g w64 d n s
  | .swr g w64 a n => Sys2Proof.Machine.execSwr g w64 a n s
  | .tret g => Sys2Proof.Machine.execTret g s
  | .esc g => Sys2Proof.Machine.execEsc g s
  | .winset g w a => Sys2Proof.Machine.execWinset g w a s
  | .winsetClr g w => Sys2Proof.Machine.execWinsetClr g w s
  | .halt g err => Sys2Proof.Machine.execHalt g err s
  | .ckpt g d => Sys2Proof.Machine.execCkpt g d s
  | .imageLoad ctx load => Sys2Proof.Machine.execImageLoad ctx load s
  | .lineStart t => Sys2Proof.Machine.execLineStart t s
  | .flagOperationComplete t k early => Sys2Proof.Machine.execFlagOperationComplete t k early s
  | .notifyWrite ctx q wridx => Sys2Proof.Machine.execNotifyWrite ctx q wridx s
  | .qreset ctx q wridx => Sys2Proof.Machine.execQreset ctx q wridx s
  | .cpSlotPoll ctx q => Sys2Proof.Machine.execCpSlotPoll ctx q s
  | .nopPacket ctx q => Sys2Proof.Machine.execNopPacket ctx q s
  | .launchPacket ctx q => Sys2Proof.Machine.execLaunchPacket ctx q s
  | .evopPacket ctx q => Sys2Proof.Machine.execEvopPacket ctx q s
  | .barrierPacket ctx q => Sys2Proof.Machine.execBarrierPacket ctx q s
  | .teamRetire ctx grid team => Sys2Proof.Machine.execTeamRetire ctx grid team s
  | .gangAck ctx grid rank size mdefs => Sys2Proof.Machine.execGangAck ctx grid rank size mdefs s
  | .gangCommit ctx grid => Sys2Proof.Machine.execGangCommit ctx grid s
  | .gangAbort ctx grid => Sys2Proof.Machine.execGangAbort ctx grid s
  | .gangDeadlineExpiry ctx grid => Sys2Proof.Machine.execGangDeadlineExpiry ctx grid s
  | .gangReplyTimeout ctx grid => Sys2Proof.Machine.execGangReplyTimeout ctx grid s
  | .dispatchPick core => Sys2Proof.Machine.execDispatchPick core s
  | .coreReservation die => Sys2Proof.Machine.execCoreReservation die s
  | .taskPacketArrival n => Sys2Proof.Machine.execTaskPacketArrival n s
  | .scalarThreadBind core ctx entry team runtime => Sys2Proof.Machine.execScalarThreadBind core ctx entry team runtime s
  | .recordCompletion n => Sys2Proof.Machine.execRecordCompletion n s
  | .regulatorDrain core bin => Sys2Proof.Machine.execRegulatorDrain core bin s
  | .trappcWrite t v => Sys2Proof.Machine.execTrappcWrite t v s
  | .serviceTimeout t => Sys2Proof.Machine.execServiceTimeout t s
  | .trapresResume ctx entry => Sys2Proof.Machine.execTrapresResume ctx entry s
  | .trapresKill ctx entry => Sys2Proof.Machine.execTrapresKill ctx entry s
  | .trapresEscalate ctx entry => Sys2Proof.Machine.execTrapresEscalate ctx entry s
  | .ringEntryTimeout ctx entry => Sys2Proof.Machine.execRingEntryTimeout ctx entry s
  | .partitionTimeout cause info => Sys2Proof.Machine.execPartitionTimeout cause info s
  | .dieLost die => Sys2Proof.Machine.execDieLost die s
  | .thermalCritical die => Sys2Proof.Machine.execThermalCritical die s
  | .powerFault => Sys2Proof.Machine.execPowerFault  s
  | .preemptRequest ctx v => Sys2Proof.Machine.execPreemptRequest ctx v s
  | .preemptDeadline ctx => Sys2Proof.Machine.execPreemptDeadline ctx s
  | .teamSave ctx grid team => Sys2Proof.Machine.execTeamSave ctx grid team s
  | .teamRestore ctx v => Sys2Proof.Machine.execTeamRestore ctx v s
  | .watchdog t => Sys2Proof.Machine.execWatchdog t s
  | .remoteWaitTimeout t => Sys2Proof.Machine.execRemoteWaitTimeout t s
  | .xrootWrite v => Sys2Proof.Machine.execXrootWrite v s
  | .xinval v => Sys2Proof.Machine.execXinval v s
  | .xresolve granule => Sys2Proof.Machine.execXresolve granule s
  | .xresolveAbandon granule => Sys2Proof.Machine.execXresolveAbandon granule s
  | .migrationStart c dst => Sys2Proof.Machine.execMigrationStart c dst s
  | .migrationCopyDone c ok => Sys2Proof.Machine.execMigrationCopyDone c ok s
  | .sideLogPerform core => Sys2Proof.Machine.execSideLogPerform core s
  | .fenceMarkerPerform core => Sys2Proof.Machine.execFenceMarkerPerform core s
  | .ptsAdvance t => Sys2Proof.Machine.execPtsAdvance t s
  | .tickRebase by_ => Sys2Proof.Machine.execTickRebase by_ s
  | .reservationExpire t => Sys2Proof.Machine.execReservationExpire t s
  | .hostBarRead fn bar off size => Sys2Proof.Machine.execHostBarRead fn bar off size s
  | .hostBarWrite fn bar off data => Sys2Proof.Machine.execHostBarWrite fn bar off data s
  | .aperWrite d v => Sys2Proof.Machine.execAperWrite d v s
  | .fabricRequest src seq ask => Sys2Proof.Machine.execFabricRequest src seq ask s
  | .subsActivate die n => Sys2Proof.Machine.execSubsActivate die n s
  | .subsRefuse die n => Sys2Proof.Machine.execSubsRefuse die n s
  | .subsMulticast die n ia data => Sys2Proof.Machine.execSubsMulticast die n ia data s
  | .stmMemberArrival n ok => Sys2Proof.Machine.execStmMemberArrival n ok s
  | .engineQueueTake ctx grid team q => Sys2Proof.Machine.execEngineQueueTake ctx grid team q s
  | .engineLineWrite core slot => Sys2Proof.Machine.execEngineLineWrite core slot s
  | .engineLineFault core slot => Sys2Proof.Machine.execEngineLineFault core slot s
  | .collResult core slot remote dropped => Sys2Proof.Machine.execCollResult core slot remote dropped s
  | .collectiveResolve ctx grid n remote => Sys2Proof.Machine.execCollectiveResolve ctx grid n remote s
  | .collectiveTimeout ctx grid n => Sys2Proof.Machine.execCollectiveTimeout ctx grid n s
  | .ckptQuiesced => Sys2Proof.Machine.execCkptQuiesced  s
  | .ckptCopyDone farFault => Sys2Proof.Machine.execCkptCopyDone farFault s
  | .linkFault port => Sys2Proof.Machine.execLinkFault port s
  | .linkTrained port rev => Sys2Proof.Machine.execLinkTrained port rev s
  | .retrainRoundExpiry port => Sys2Proof.Machine.execRetrainRoundExpiry port s
  | .deadRoundOne port => Sys2Proof.Machine.execDeadRoundOne port s
  | .deadRoundTwo port => Sys2Proof.Machine.execDeadRoundTwo port s
  | .deadRoundThree port => Sys2Proof.Machine.execDeadRoundThree port s
  | .linkRetrainedByManagement port => Sys2Proof.Machine.execLinkRetrainedByManagement port s
  | .linkStateUpdate modid st => Sys2Proof.Machine.execLinkStateUpdate modid st s
  | .cgdefWrite ctx k v => Sys2Proof.Machine.execCgdefWrite ctx k v s
  | .scAnswer t => Sys2Proof.Machine.execScAnswer t s
  | .regionCommitDone t => Sys2Proof.Machine.execRegionCommitDone t s
  | .winsetPropagated t => Sys2Proof.Machine.execWinsetPropagated t s
  | .functionLevelReset fn => Sys2Proof.Machine.execFunctionLevelReset fn s
  | .cxlDeviceLost port => Sys2Proof.Machine.execCxlDeviceLost port s
  | .moduleReset images => Sys2Proof.Machine.execModuleReset images s
  | .getMeasurements => Sys2Proof.Machine.execGetMeasurements  s
  | .challenge nonce => Sys2Proof.Machine.execChallenge nonce s
  | .keyExchange fn => Sys2Proof.Machine.execKeyExchange fn s
  | .modidWrite v => Sys2Proof.Machine.execModidWrite v s
  | .contextCreate ctx form => Sys2Proof.Machine.execContextCreate ctx form s
  | .contextDestroy ctx => Sys2Proof.Machine.execContextDestroy ctx s
  | .tdispRequest fn st => Sys2Proof.Machine.execTdispRequest fn st s
  | .checkpointRestore => Sys2Proof.Machine.execCheckpointRestore  s
  | .queueCreate ctx q base sizeLog inHost => Sys2Proof.Machine.execQueueCreate ctx q base sizeLog inHost s
  | .flitCrcRetry port => Sys2Proof.Machine.execFlitCrcRetry port s

end Sys2Proof.Machine
end

