-- ==== Sys2Proof/Machine/Loop.lean ====
section
/-! DEFINITION. What a step runs: consequences still due, inputs, then in turn an issue of a core and an event of the module. -/

namespace Sys2Proof

/-- Events that only something outside the module's own running makes happen: inputs. -/
def Instr.external : Instr → Bool
  | .imageLoad _ _ | .notifyWrite _ _ _ | .qreset _ _ _ | .gangAck _ _ _ _ _ | .gangCommit _ _ | .gangAbort _ _
  | .scalarThreadBind _ _ _ _ _ | .dieLost _ | .thermalCritical _ | .powerFault
  | .flagOperationComplete _ _ _ | .migrationCopyDone _ _ | .ptsAdvance _
  | .hostBarRead _ _ _ _ | .hostBarWrite _ _ _ _ | .fabricRequest _ _ _ | .subsActivate _ _ | .subsRefuse _ _ | .subsMulticast _ _ _ _
  | .stmMemberArrival _ _ | .collResult _ _ _ _ | .collectiveResolve _ _ _ _ | .ckptCopyDone _
  | .linkFault _ | .linkTrained _ _ | .linkRetrainedByManagement _ | .linkStateUpdate _ _
  | .functionLevelReset _ | .cxlDeviceLost _ | .moduleReset _ | .getMeasurements | .challenge _ | .keyExchange _ | .modidWrite _
  | .contextCreate _ _ | .contextDestroy _ | .tdispRequest _ _ | .checkpointRestore | .queueCreate _ _ _ _ _ | .flitCrcRetry _ => true
  | _ => false

/-- Inputs that a quiescing or stopping module holds back (R430, R434). -/
def Instr.waitsOutside : Instr → Bool
  | .hostBarRead _ _ _ _ | .hostBarWrite _ _ _ _ | .notifyWrite _ _ _ | .qreset _ _ _ | .fabricRequest _ _ _ => true
  | _ => false

/-- Inputs that a stopped module still answers (R430). -/
def Instr.afterStop : Instr → Bool
  | .hostBarRead _ _ _ _ | .moduleReset _ | .getMeasurements | .challenge _ | .keyExchange _ => true
  | _ => false

end Sys2Proof

namespace Sys2Proof.Machine

open Sys2Proof

abbrev Result := Host.Outcome State Fault Refusal

/-- What one step may run. -/
inductive Plan where
  | issue (core : Nat) (ts : List Tid)
  | event (i : Instr)
  /-- LINE_START of the threads of one place, in lane order -/
  | starts (ts : List Tid)
  /-- FLAG_OPERATION_COMPLETE of operation `k` of the threads of one place -/
  | lands (ts : List Tid) (k : Nat)
  | attend (t : Tid)
  | request (seq : Nat)
  | stopDrop
  | stopEnd
deriving DecidableEq, Repr

/-! ### After each event -/

/-- The Barrel of every core goes on (R136, R137). -/
def State.barrels (s : State) : State := (s.cores.map (·.id)).foldl State.barrelOn s

/-- What follows every act at once: entries settle, the Barrels and the waiting host accesses go on, contributions are sent, what is over retires. -/
def State.finish (s : State) : State := s.settleAll.barrels.hostOn.contribute.retireDone.preemptDone.buryDone

def finishResult : Result → Result
  | .next s => .next s.finish
  | r => r

/-! ### The consequences of an event -/

def State.doWork (s : State) : Work → Result
  | .partition c info ctx grid scalar granule => .next (if s.stop.state = 0 then s.partitionAct c info ctx grid scalar granule else s)
  | .module c info => .next (s.moduleStop c info s.cycle)
  | .fault ctx ia k acc level e => .next (s.deliverFault ctx ia k acc level e)
  | .retireGrid c g => .next (match s.grid? c g with
      | some gr => if s.gridDone gr then s.retireGrid gr else s
      | none => s)
  | .signal ctx va st => .next (s.signal ctx va st)
  | .events ctx => .next ((s.wakeEvents ctx).admitLaunches ctx)
  | .packets c q => .next (s.queueResume c q)
  | .event i => exec i s

/-! ### Inputs -/

/-- An input that is no event. -/
def State.takeInput (s : State) : Input → State
  | .event _ _ => s
  | .sysWrite port a data => s.setSys port ((s.sys port).write a data)
  | .peerWrite m ia data => (linesMet ia data.length).foldl (fun s l => s.clearResv l (some m) none) (s.writePeer m ia data none)
  | .scratchError core w => s.modCore core fun k => { k with scrBad := if k.scrBad.contains w then k.scrBad else w :: k.scrBad }
  | .accError core a => s.modCore core fun k => { k with accBad := if k.accBad.contains a then k.accBad else a :: k.accBad }
  | .lineError l => s.poisonLine l
  | .regError t n =>
    match s.thread? t with
    | some th =>
      if th.loc = .resident ∨ th.isScalar = true then s.modThread t fun th => { th with regs := { th.regs with bad := if th.regs.bad.contains n then th.regs.bad else n :: th.regs.bad } }
      else if th.loc = .parked then s.recordLost t
      else s
    | none => s
  | .power w => { s with withhold := w }
  | .tlbDrop die g => s.dropTlb (· == die) (4096 * g) 4096
  | .mode m => { s with mmode := m }
  | .recUnits die units => s.modDie die fun d => { d with units := min units 128 }
  | .ckptRsv on => { s with ckpt := { s.ckpt with rsv := on } }
  | .contribution c g n rank kind value => s.remoteArrives c g n rank kind value
  | .drops c g m mods own peers => s.takeDrops c g m mods own peers
  | .icacheDrop core l => s.modCore core fun k => Core.dropLine k (64 * l)

/-- Whether the first input comes now. -/
def State.inputReady (s : State) : Input → Bool
  | .event dt i => dt == 0 && !(i.waitsOutside && (s.ckpt.state != 0 || s.stop.state == 1))
  | _ => true

/-- An event that no module can meet, one with operands out of range or one that only a module itself makes happen, is no input: it changes nothing (log 4). -/
def State.runInput (s : State) : Input → Result
  | .event _ i =>
    if !(i.wellFormed && i.external) then .next s
    else if s.stop.state = 2 ∧ ¬ i.afterStop then .next s
    else exec i s
  | x => .next (s.takeInput x)

/-! ### Issues (R141, R57, R122) -/

/-- A thread that may issue. -/
def Thread.ready? (th : Thread) : Bool :=
  th.loc == .resident && !th.hold && !th.due && !th.stalled && th.arr == .inLine

/-- A service timer has expired in an earlier cycle (R392), or the watchdog count is full (R405): the thread issues nothing before that cause. -/
def State.overdue (s : State) (th : Thread) : Bool :=
  s.wdDue th || (th.h.hmode && (match th.h.timer with
    | some d => decide (d < s.cycle)
    | none => false))

def State.mayIssue (s : State) (th : Thread) : Bool := th.ready? && !s.overdue th

/-- The code at a thread's place in its line. -/
def Thread.code (th : Thread) : Code := lineSlot th.line (pcSlot th.pc)

/-- The threads of an entry that hold their places and may go on. -/
def State.going (s : State) (e : EscEntry) : List Thread := (e.ts.filterMap s.thread?).filter fun th => !th.hold

/-- The threads that an entry would issue: none while it is stalled by WAIT or by R52; without the quarters that R345 holds. -/
def State.entryIssue (s : State) (e : EscEntry) : List Tid :=
  let ths := s.going e
  match ths with
  | [] => []
  | th :: _ =>
    if ths.all s.mayIssue then
      let ts := (ths.filter fun x => x.line == th.line).map (·.id)
      match decode th.code with
      | .ok i => s.unheld i ts
      | .error _ => ts
    else []

/-- R141's order as one number; `none`: the entry is too young to issue. -/
def State.entryRank (s : State) (e : EscEntry) : Option Nat :=
  let age := s.entryAge e
  let old := 2 ^ 32 - age
  if s.ageLimit e.ctx ≤ age then some old
  else if e.ts.length = 32 then some (2 ^ 40 + old)
  else if s.fillHold e.ctx ≤ age then some (2 ^ 41 + (32 - e.ts.length) * 2 ^ 33 + old)
  else none

/-- A core's entry that issues next. -/
def State.bestEntry (s : State) (k : Core) : Option (List Tid) :=
  (k.entries.foldl (fun (o : Option (Nat × List Tid)) e =>
    match s.entryRank e, s.entryIssue e with
    | some r, t :: ts => (match o with
        | none => some (r, sortLanes (t :: ts))
        | some (b, l) => if r < b then some (r, sortLanes (t :: ts)) else some (b, l))
    | _, _ => o) none).map (·.2)

/-- One issue of each core's Escapement, and one of each scalar thread. -/
def State.issues (s : State) : List Plan :=
  (s.cores.filterMap fun k => (s.bestEntry k).map fun ts => Plan.issue k.id ts) ++
  (s.threads.filterMap fun th => if th.isScalar && s.mayIssue th then some (Plan.issue th.core [th.id]) else none)

/-- The first issue of a thread of a team: STAGGER counts from it (R40). -/
def State.markBegun (s : State) (t : Tid) : State :=
  match s.teamOf t with
  | some tm =>
    if tm.begun then s
    else
      let d := s.dieOf tm.core
      (s.modTeam tm.ctx tm.grid tm.num fun tm => { tm with begun := true }).modGrid tm.ctx tm.grid fun gr =>
        { gr with lastStart := (d, s.cycle) :: gr.lastStart.filter fun q => q.1 != d }
  | none => s

/-- Instructions whose lanes reach the executors of lines beyond the core in one cycle (R293). -/
def ordersByTick : Instr → Bool
  | .ldc _ _ _ _ _ _ | .st _ _ _ _ _ | .atomc _ _ _ _ _ _ | .red _ _ _ _ _ | .casc _ _ _ _ _ _ | .lr _ _ _ _ => true
  | _ => false

/-- The lanes of one issue in the order in which they are performed: the older tick first, then ascending lane (R293). -/
def State.laneOrder (s : State) (i : Instr) (ts : List Tid) : List Tid :=
  if ordersByTick i then inOrder (fun a b => decide (s.ptsOf a < s.ptsOf b)) ts else ts

/-- Issues of a run-ahead thread (R380). -/
def Thread.aheadCount (th : Thread) : Nat := (th.regions.findSome? fun r => r.ahead.map (·.2.2.2.2)).getD 0

/-- A run-ahead thread that stalled at its instruction issues it again: the attempt does not count (R380). `n` is the count before. -/
def Thread.recount (th : Thread) (pc : DWord) (n : Nat) : Thread :=
  if th.inRunAhead ∧ th.pc = pc ∧ th.arr = .inLine ∧ th.loc = .resident ∧ th.hold = false ∧ th.aheadCount = n + 1 then
    { th with regions := th.regions.map fun r => { r with ahead := r.ahead.map fun a => (a.1, a.2.1, a.2.2.1, a.2.2.2.1, n) } }
  else th

def State.recount (old s : State) (ts : List Tid) : State :=
  ts.foldl (fun s t => match old.thread? t with
    | some th => if th.inRunAhead then s.modThread t fun x => x.recount th.pc th.aheadCount else s
    | none => s) s

/-- A slot that decodes to no instruction traps (R60); every other runs. -/
def State.issueThreads (s : State) (ts : List Tid) : Result :=
  match ts.head?.bind s.thread? with
  | none => .next s
  | some th =>
    let s := ts.foldl State.markBegun s
    match decode th.code with
    | .ok i => match exec i { s with issue := s.laneOrder i ts } with
      | .next s' => .next (s.recount s' ts)
      | r => r
    | .error _ => .next (ts.foldl (fun s t => s.raise t .illegalOpcode 0) s)

/-! ### The module's own events -/

/-- The threads that share a place: those of an entry, or a scalar thread alone. -/
def State.places (s : State) : List (List Tid) :=
  (s.cores.flatMap fun k => k.entries.map fun e => e.ts) ++ (s.threads.filter fun th => th.isScalar).map fun th => [th.id]

/-- Threads at a boundary: what waits for them, the line that the threads of one place start together. -/
def State.boundaryEvents (s : State) : List Plan :=
  (s.threads.flatMap fun th => if th.due then [.attend th.id] else []) ++
  s.places.filterMap fun ts =>
    match (ts.filterMap s.thread?).filter fun th => Thread.starting th && !th.due with
    | [] => none
    | ths => some (.starts (sortLanes (ths.map (·.id))))

def State.flagEvents (s : State) : List Plan :=
  s.places.flatMap fun ts =>
    let ths := ts.filterMap s.thread?
    (seqFrom 0 (ths.foldl (fun n th => max n th.ops.length) 0)).map fun k =>
      .lands (sortLanes ((ths.filter fun th => decide (k < th.ops.length)).map (·.id))) k

/-- One release set in eight is on its way for up to 128 cycles, so that no two joins keep step for ever (log 6). -/
def onItsWay (cycle : Nat) (q : Completion) : Bool :=
  match q.set with
  | some n => (cycle / 128 + n) % 8 == 0
  | none => false

def State.answerEvents (s : State) : List Plan :=
  ((s.compl.zip (seqFrom 0 s.compl.length)).filterMap fun q => if onItsWay s.cycle q.1 then none else some (.event (.recordCompletion q.2))) ++
  s.resWait.map fun w => .event (match w with
    | .sc t _ _ _ _ => .scAnswer t
    | .commit t => .regionCommitDone t
    | .winset t => .winsetPropagated t)

def State.logEvents (s : State) : List Plan :=
  s.cores.flatMap fun k =>
    if k.sidelog.isEmpty then []
    else (if (s.nextLog k.id).isSome then [.event (.sideLogPerform k.id)] else []) ++
      (if (s.performMarker k.id).isSome then [.event (.fenceMarkerPerform k.id)] else [])

def State.requestEvents (s : State) : List Plan :=
  (s.outReady.filterMap fun o => match o.op with
    | .write (.stm _ _ _ _ _) => some (.event (.stmMemberArrival o.seq true))
    | _ => if s.requestReady o then some (.request o.seq) else none) ++
  s.out.filterMap fun o => if (s.taskReady o.seq).isSome then some (.event (.taskPacketArrival o.seq)) else none

def State.engineEvents (s : State) : List Plan :=
  (s.commands.flatMap fun q =>
    let slot := q.2.slot
    if q.2.st != .running then []
    else match s.collWaits q.1 slot with
      | some (c, m, gr) =>
        if (gr.remoteRanks m).isEmpty then [.event (.collResult q.1 slot [] [])]
        else if s.collLate gr c [] then [.event (.collResult q.1 slot [] (gr.remoteRanks m))] else []
      | none =>
        if q.2.d.kind = .coll ∧ q.2.result.isNone then []
        else if (s.lineTry q.1 slot).stalledAt q.1 slot then [.event (.engineLineFault q.1 slot)] else [.event (.engineLineWrite q.1 slot)]) ++
  s.teams.flatMap fun tm => (seqFrom 0 16).filterMap fun q =>
    if (s.queueHead tm.ctx tm.grid tm.num q).isSome then some (.event (.engineQueueTake tm.ctx tm.grid tm.num q)) else none

def State.collectiveEvents (s : State) : List Plan :=
  s.grids.flatMap fun gr => gr.insts.flatMap fun i =>
    if s.resolvable gr i [] then [.event (.collectiveResolve gr.ctx gr.num i.key [])]
    else if s.instLate gr i then [.event (.collectiveTimeout gr.ctx gr.num i.key)] else []

def packetEvent (c q : Nat) : Nat → Instr
  | 1 => .launchPacket c q
  | 2 => .evopPacket c q
  | 3 => .barrierPacket c q
  | _ => .nopPacket c q

def State.queueEvents (s : State) : List Plan :=
  s.ctxs.flatMap fun c => c.queues.filterMap fun q =>
    if s.holdEnds c.id q || (q.state == .fetch && q.next == q.wridx) then some (.event (.cpSlotPoll c.id q.id))
    else (s.nextKind c.id q.id).map fun k => .event (packetEvent c.id q.id k)

def State.gangEvents (s : State) : List Plan :=
  s.grids.flatMap fun gr =>
    match gr.gang with
    | some x =>
      if x.state ≠ .uncommitted then []
      else if x.rank = 0 then (if s.gangLate x 1 then [.event (.gangDeadlineExpiry gr.ctx gr.num)] else [])
      else if s.gangLate x 2 then [.event (.gangReplyTimeout gr.ctx gr.num)] else []
    | none => []

def State.teamEvents (s : State) : List Plan :=
  s.teams.flatMap fun tm =>
    if s.teamOver tm then [.event (.teamRetire tm.ctx tm.grid tm.num)]
    else if s.saveReady tm then [.event (.teamSave tm.ctx tm.grid tm.num)] else []

def State.placeEvents (s : State) : List Plan :=
  (seqFrom 0 Config.dies).flatMap fun d =>
    if (s.startEntries d).isEmpty ∧ (s.recordEntries d).isEmpty then []
    else ((s.coresOf d).filterMap fun c => if (s.pick c).isSome then some (.event (.dispatchPick c)) else none) ++
      (if (s.wantsCore d).isSome then [.event (.coreReservation d)] else [])

def State.drainEvents (s : State) : List Plan :=
  s.cores.flatMap fun k =>
    (k.bins.filter fun b => s.regulatorDue b && !s.drainStuck k.id b.places).map fun b => .event (.regulatorDrain k.id b.num)

def State.timeEvents (s : State) : List Plan :=
  (s.threads.flatMap fun th =>
    (if th.timedOut s.cycle then [Plan.event (.serviceTimeout th.id)] else []) ++
    (if s.wdDue th then [.event (.watchdog th.id)] else []) ++
    (if (s.lateMemory th).isSome || (s.lateGroup th).isSome then [.event (.remoteWaitTimeout th.id)] else []) ++
    (if th.resvOver s.cycle then [.event (.reservationExpire th.id)] else [])) ++
  (s.ctxs.flatMap fun c =>
    (c.ring.filterMap fun r => if r.deadline ≤ s.cycle then some (Plan.event (.ringEntryTimeout c.id r.ia)) else none) ++
    (if s.deadlineDue c.id then [.event (.preemptDeadline c.id)] else [])) ++
  (s.parts.filterMap fun x => if (s.partLate x.cause.num x.info).isSome then some (.event (.partitionTimeout x.cause.num x.info)) else none) ++
  (if 2 ^ 47 ≤ s.topTick then [.event (.tickRebase (2 ^ 46))] else [])

def State.migrationEvents (s : State) : List Plan :=
  (seqFrom 0 4).filterMap fun c => if (s.mig c).stat = 1 then some (.event (.migrationCopyDone c true)) else none

def State.linkEvents (s : State) : List Plan :=
  (seqFrom 0 16).filterMap fun p => match (s.link p).state with
    | .up => none
    | .retrain => if s.roundsOver p 1 then some (.event (.retrainRoundExpiry p)) else none
    | .dead k =>
      if s.roundsOver p (k + 1) then
        (match k with
         | 0 => some (.event (.deadRoundOne p))
         | 1 => some (.event (.deadRoundTwo p))
         | 2 => some (.event (.deadRoundThree p))
         | _ => none)
      else none

/-- Everything that the running module may do beside an issue. -/
def State.events (s : State) : List Plan :=
  s.boundaryEvents ++ s.answerEvents ++ s.flagEvents ++ s.logEvents ++ s.requestEvents ++ s.engineEvents ++ s.collectiveEvents ++
  s.queueEvents ++ s.gangEvents ++ s.teamEvents ++ s.placeEvents ++ s.drainEvents ++ s.timeEvents ++ s.migrationEvents ++ s.linkEvents

/-- A quiescing or copying module: what is in flight ends, then the checkpoint's own events (R434). -/
def State.ckptEvents (s : State) : List Plan :=
  if s.ckpt.state = 1 then
    (match s.flagEvents ++ s.migrationEvents with
     | [] => [.event .ckptQuiesced]
     | l => l)
  else [.event (.ckptCopyDone false)]

/-- A stopping module: the accesses already made are performed, then the report says STOPPED (R430). -/
def State.stopEvents (s : State) : List Plan :=
  match s.logEvents ++ (s.outReady.filterMap fun o => if s.requestReady o then some (.request o.seq) else none) ++ s.gangEvents with
  | [] => if s.grids.isEmpty then [.stopEnd] else [.stopDrop]
  | l => l

/-! ### The step's plan -/

def State.plans (s : State) : List Plan :=
  if s.stop.state = 2 then []
  else if s.stop.state = 1 then s.stopEvents
  else if s.ckpt.state ≠ 0 then s.ckptEvents
  else if s.turn then (match s.events with
    | [] => s.issues
    | l => l)
  else match s.issues with
    | [] => s.events
    | l => l

/-- The open choice among the plans: the next choice, turned with the actions of the cycle so that each has its turn (log 6, log 11). -/
def State.pickPlan (s : State) : State × Option Plan :=
  match s.plans with
  | [] => (s, none)
  | l =>
    let (k, s) := s.choice
    (s, l[(k + s.cycle + s.budget / 2) % l.length]?)

def State.runPlan (s : State) : Plan → Result
  | .issue _ ts => s.issueThreads ts
  | .event i => exec i s
  | .starts ts => .next (ts.foldl State.lineStart s)
  | .lands ts k => .next (ts.foldl (fun s t => s.landOp t k) s)
  | .attend t => .next (s.attend t)
  | .request n => .next (match s.out.find? fun o => o.seq == n with
      | some o => s.performRequest o
      | none => s)
  | .stopDrop => .next s.dropHeld
  | .stopEnd => .next s.finishStop

/-- Every agent's PTS moves on by one: threads, engines, and the module's other agents (R284). -/
def State.passTick (s : State) : State :=
  { s with
    threads := s.threads.map fun (th : Thread) => { th with pts := th.pts + 1 }
    cores := s.cores.map fun (k : Core) => { k with slots := k.slots.map fun c => { c with pts := c.pts + 1 } }
    agents := [Agent.io, .events, .fabric, .migration, .save].map fun a => (a, s.agentPts a + 1) }

/-- The issuing cores and scalar threads: each issues once in a cycle (R122, R141). -/
def State.issuers (s : State) : Nat :=
  (s.cores.filter fun k => !k.entries.isEmpty).length + (s.threads.filter fun th => th.isScalar && th.loc == .resident).length

/-- One cycle passes: the clock, the time before the next input, every 1,024 cycles one tick of every agent (R284), and the actions of the new cycle: for each issuer an issue and an event (R295, log 6). -/
def State.passCycle (s : State) : State :=
  let s : State := { s with
    cycle := s.cycle + 1, budget := 2 * s.issuers - 1
    inbox := match s.inbox with
      | .event (n + 1) i :: rest => .event n i :: rest
      | l => l }
  if s.cycle % 1024 = 0 then s.passTick else s

/-- An action of the present cycle has been made; after its last one the cycle passes. -/
def State.passAct (s : State) : State :=
  let s : State := { s with turn := !s.turn }
  if s.budget = 0 then s.passCycle else { s with budget := s.budget - 1 }

def passResult : Result → Result
  | .next s => .next s.passAct
  | r => r

/-- A step without consequences or inputs due. -/
def State.runStep (s : State) : Result :=
  match s.pickPlan with
  | (s, none) => .next ({ s with turn := !s.turn } : State).passCycle
  | (s, some p) => passResult (finishResult (s.runPlan p))

/-- One step: a consequence still due, else an input whose time has come, else an issue, an event, or an idle cycle. -/
def State.next (s : State) : Result :=
  match s.work with
  | w :: ws => finishResult (({ s with work := ws } : State).doWork w)
  | [] =>
    match s.inbox with
    | x :: xs => if s.inputReady x then finishResult (({ s with inbox := xs } : State).runInput x) else s.runStep
    | [] => s.runStep

/-! ### A machine about to issue one instruction (log 1) -/

/-- The address of the line that holds it. -/
def wordPc : DWord := 0x1000

/-- The kernel of the one-lane grid: one group, 256 registers, 512 bytes of scratchpad. -/
def wordKernel : Kernel :=
  { entry := wordPc, ltver := Config.latver, scratch := 512, codesize := 1, regs := 32, roles := [(1, 256)], ftzd := false, redreq := false
    ghoff := 0x80000000, thoff := 0x80000000, timed := 0, live := [], ranges := [] }

def wordRecord : Record :=
  { kentry := wordPc, nteams := 0, prio := 0, gang := false, setonerr := false, stagger := 0, complsig := 0, waitmask := 0, setmask := 0
    fslots := List.replicate 8 0, gangid := 0, gangsize := 0, gangrank := 0, gangdl := 0, args := List.replicate 16 0 }

/-- A context whose CTXSCHED holds FILLHOLD 0, so that a partial entry issues at once. -/
def wordCtx : Ctx := { Ctx.reset 0 false with ctxsched := 0x00000800 }

def wordGrid : Grid :=
  { ctx := 0, num := 0, kernel := wordKernel, record := wordRecord, who := .thread 0 0 0 0 0, child := none, dies := 0xFFFFFF
    nextTeam := 1, retired := 0, since := 0, lastStart := [(0, 0)], gang := none, mdef := List.replicate 4 0, live := List.replicate 4 Live.reset
    insts := [], nextKey := 0, ended := none, mailbox := none }

def wordTeam : Team :=
  { ctx := 0, grid := 0, num := 0, core := 0, tslot := 0, scr := 0, fpx := 0, groups := [{ Group.reset with live := 1 }]
    queues := List.replicate 16 ⟨0, [], []⟩, rungvec0 := 0, rungvec1 := 0, begun := true, saved := none, allocs := [], objs := [], preempt := false }

def wordTid : Tid := .thr 0 0 0 0 0

def wordThread (cycle w : Nat) : Thread :=
  { Thread.initial wordTid 0 256 [] false wordPc cycle with loc := .resident, arr := .inLine, line := BitVec.ofNat 512 (w % 2 ^ 96), live := [] }

/-- The machine with that one lane, nothing else due. -/
def State.runningWord (s : State) (w : Nat) : State :=
  { s with
    ctxs := [wordCtx], grids := [wordGrid], teams := [wordTeam], threads := [wordThread s.cycle w]
    cores := [{ Core.reset 0 with entries := [{ ctx := 0, grid := 0, pc := wordPc, ts := [wordTid] }] }]
    compl := [], out := [], resWait := [], work := [], inbox := [], turn := false, budget := 0
    stop := { s.stop with state := 0 }, ckpt := { s.ckpt with state := 0 } }

end Sys2Proof.Machine
end

