-- ==== Sys2Proof/Machine/Step.lean ====
section
/-! DEFINITION. One step of the module, and the state in which the next step runs a given instruction. -/

namespace Sys2Proof.Machine

open Sys2Proof

/-- One step. -/
def step (s : State) : Host.Outcome State Fault Refusal := s.next

/-- `s` with a team of one running lane, in a context and grid of its own, whose line holds the word in slot 0: the next step issues it (log 1). -/
def State.withFetchWord (s : State) (nbits w : Nat) : State := s.runningWord (w % 2 ^ nbits)

end Sys2Proof.Machine
end

