-- ==== Sys2Proof/Safety.lean ====
section
/-! DEFINITION. What claims call a sound state and a safe run. -/

namespace Sys2Proof.Safety

open Sys2Proof Sys2Proof.Machine

/-- Every memory of the module is in its canonical form: module memory, host and CXL memory, peers, scratchpads, accumulator stores, subscription copies. -/
def memOk (s : State) : Bool :=
  s.mem.wf && s.sysMem.all (fun q => q.2.wf) && s.peers.all (fun p => p.mem.wf) && s.cores.all (fun k => k.scr.wf && k.acc.wf) &&
  s.dies.all fun d => d.subs.all fun b => b.copy.wf

/-- P0 reads 1 whatever the bit holds; in a sound state the stored bit is 1 too (R5). -/
def p0Ok (s : State) : Bool := s.threads.all fun th => th.regs.p.getLsbD 0 && (match th.shadow with
  | some r => r.p.getLsbD 0
  | none => true)

/-- A run of `n` steps that never stops. -/
def safeRun (n : Nat) (s : State) : Bool :=
  match Host.Core.run Sys2Proof.core n s with
  | .next _ => true
  | _ => false

/-! ### Who issues, and what an issue leaves alone -/

/-- The checks of R6 pass for a thread, whatever its guard: no cause, no speculation limit. -/
structure Clean (s : State) (i : Instr) (th : Thread) : Prop where
  legal : (th.isScalar && scalarIllegal i) = false
  range : s.rangeBad th i = none
  pair : s.badPair th i = false
  ahead : th.inRunAhead = false
  priv : s.needsPriv th i = none

/-- One thread issues `i`, passes the checks of R6, and its guard is true. -/
structure Lone (s : State) (i : Instr) (t : Tid) (th : Thread) : Prop where
  issue : s.issue = [t]
  thread : s.thread? t = some th
  clean : Clean s i th
  holds : ∃ g, i.guard? = some g ∧ g.holds th.regs = true

/-- Every thread of an issue is there once and passes the checks of R6, whatever its guard. -/
structure Ready (s : State) (i : Instr) : Prop where
  once : s.issue.Nodup
  clean : ∀ t ∈ s.issue, ∃ th, s.thread? t = some th ∧ Clean s i th
  code : ∃ g, i.guard? = some g

/-- Whether a thread performs `i`: its guard is true (R61). -/
def performs (i : Instr) (th : Thread) : Bool :=
  match i.guard? with
  | some g => g.holds th.regs
  | none => false

/-- Of the whole state only the threads named may differ, each by `act`. -/
structure LanesDo (ts : List Tid) (act : Thread → Thread) (s s' : State) : Prop where
  rest : s' = { s with threads := s'.threads }
  lane : ∀ t ∈ ts, ∀ th, s.thread? t = some th → s'.thread? t = some (act th)
  others : ∀ u, u ∉ ts → s'.thread? u = s.thread? u

/-! ### Register instructions -/

/-- Every lane that performs `i` writes the registers that `f` gives, in the leading thread and its shadow, and goes on; a lane whose guard is false goes on; nothing else of the state changes (R61, R176). -/
def Computes (i : Instr) (f : Regs → Regs) : Prop :=
  ∀ s, Ready s i → ∃ s', exec i s = .next s' ∧
    LanesDo s.issue (fun th =>
      if performs i th = true then { th.advance with regs := f th.regs, shadow := th.shadow.map f } else th.advance) s s'

/-- The sticky bits `x` of thread `t` go to the FPX of its team, or to its own when it is the scalar thread; nothing else of the teams changes (R204). -/
def FpxInto (t : Tid) (x : Fpx) (s s' : State) : Prop :=
  match t with
  | .thr c g k _ _ => ∀ c' g' k', s'.team? c' g' k' =
      if c' = c ∧ g' = g ∧ k' = k then (s.team? c' g' k').map fun tm => { tm with fpx := tm.fpx ||| x } else s.team? c' g' k'
  | .scalar _ => s'.teams = s.teams

/-- The thread writes the registers that `f` gives, its shadow what `f` gives of its own copies; the leading thread's FPX bits are ORed in; the pc advances; nothing else changes. `f` takes whether the kernel sets FTZD (R203, R205, R222). -/
def ComputesF (i : Instr) (f : Bool → Regs → Regs × Fpx) : Prop :=
  ∀ s t th, Lone s i t th →
    let z := s.ftzd t
    ∃ s', exec i s = .next s' ∧ s' = { s with threads := s'.threads, teams := s'.teams } ∧
      s'.thread? t = some { th.advance with
        regs := (f z th.regs).1, shadow := th.shadow.map fun r => (f z r).1
        fpx := if th.isScalar = true then th.fpx ||| (f z th.regs).2 else th.fpx } ∧
      (∀ u, u ≠ t → s'.thread? u = s.thread? u) ∧ FpxInto t (f z th.regs).2 s s'

/-- A result with its FPX bits, written in `d`. -/
def wroteF (d : XReg) (q : Regs → FRes) (r : Regs) : Regs × Fpx := (r.set32 d (q r).1, (q r).2)

/-- What each floating-point, packed or conversion instruction that takes no format slot writes (chapter 11). -/
def floatRule : Instr → Option (Bool → Regs → Regs × Fpx)
  | .fadd _ ftz rm d a b => some fun z => wroteF d fun r => fadd32 rm (ftz || z) (r.x32 a) (b.val r)
  | .fsub _ ftz rm d a b => some fun z => wroteF d fun r => fsub32 rm (ftz || z) (r.x32 a) (b.val r)
  | .fmul _ ftz rm d a b => some fun z => wroteF d fun r => fmul32 rm (ftz || z) (r.x32 a) (b.val r)
  | .ffma _ ftz rm d a b c => some fun z => wroteF d fun r => ffma32 rm (ftz || z) (r.x32 a) (b.val r) (r.x32 c)
  | .fmin _ ftz d a b => some fun z => wroteF d fun r => fmm32 (ftz || z) false (r.x32 a) (b.val r)
  | .fmax _ ftz d a b => some fun z => wroteF d fun r => fmm32 (ftz || z) true (r.x32 a) (b.val r)
  | .fsetp _ ftz fold cond d a b e => some fun z r =>
    let k := fcondTest cond (read32 (ftz || z) (r.x32 a)) (read32 (ftz || z) (b.val r))
    (match fold with
      | .none => (r.setP d k.1).setP e (!k.1)
      | .and c => (r.setP d (k.1 && r.pr c)).setP e k.1
      | .or c => (r.setP d (k.1 || r.pr c)).setP e k.1
      | .xor c => (r.setP d (k.1 ^^ r.pr c)).setP e k.1, k.2)
  | .fclass _ src d a => some fun _ => wroteF d fun r => (fclass32 src (r.x32 a), 0)
  | .pkadd _ bf rm d a b => some fun _ => wroteF d fun r => pkadd32 bf rm (r.x32 a) (b.val r)
  | .pkmul _ bf rm d a b => some fun _ => wroteF d fun r => pkmul32 bf rm (r.x32 a) (b.val r)
  | .pkfma _ bf rm d a b c => some fun _ => wroteF d fun r => pkfma32 bf rm (r.x32 a) (b.val r) (r.x32 c)
  | .pkmin _ bf d a b => some fun _ => wroteF d fun r => pkmm32 bf false (r.x32 a) (b.val r)
  | .pkmax _ bf d a b => some fun _ => wroteF d fun r => pkmm32 bf true (r.x32 a) (b.val r)
  | .pksetp _ bf cond d a b e => some fun _ r =>
    let k0 := fcondTest cond ((pkFmt bf).read ((r.x32 a).toNat % 2 ^ 16)) ((pkFmt bf).read ((b.val r).toNat % 2 ^ 16))
    let k1 := fcondTest cond ((pkFmt bf).read ((r.x32 a).toNat / 2 ^ 16)) ((pkFmt bf).read ((b.val r).toNat / 2 ^ 16))
    ((r.setP d k0.1).setP e k1.1, k0.2 ||| k1.2)
  | .fscale _ ftz rm d a b => some fun z => wroteF d fun r => scale32 rm (ftz || z) (read32 (ftz || z) (r.x32 a)) (b.val r).toInt
  | .frnd _ ftz rm d a => some fun z => wroteF d fun r => frnd32 rm (ftz || z) (r.x32 a)
  | .dot2 _ bf ftz rm d a b c => some fun z => wroteF d fun r => dot32 bf rm (ftz || z) (r.x32 a) (b.val r) (r.x32 c)
  | .f2i _ ftz u src rm d a => some fun z => wroteF d fun r => f2iRes (ftz || z) u src rm (r.x32 a)
  | .i2f _ u dst rm d a => some fun _ => wroteF d fun r => i2fRes u dst rm (r.x32 a)
  | .f2f _ ftz dst src rm d a => some fun z => wroteF d fun r => f2fRes (ftz || z) dst src rm (r.x32 a)
  | .packn _ ftz fmt rm d a b => some fun z => wroteF d fun r =>
    packnRes (ftz || z) fmt rm (if fmt.wide = true then [r.x32 a, r.x32 b] else r.xs a 4)
  | .unpackn _ fmt d a => some fun _ r => (r.setXs d.toNat (unpacknRes fmt (r.x32 a)).1, (unpacknRes fmt (r.x32 a)).2)
  | .bscale _ inv ftz rm d a b k => some fun z => wroteF d fun r => bscaleRes inv (ftz || z) rm (r.x32 a) (r.x32 b) k.toNat
  | _ => none

/-- A flag-setting operation starts: the pc advances and the operation waits, with the flag that SETA or SETB names for it (none when it holds 15), its results in the leading thread and its shadow, and its bound; nothing else changes (R50 to R52). -/
def Starts (i : Instr) (fs : Bool) (bound : Nat) (f : Bool → Regs → List (Nat × Word) × List (Nat × Bool) × Fpx) : Prop :=
  ∀ s, Ready s i → ∃ s', exec i s = .next s' ∧
    LanesDo s.issue (fun th =>
      if performs i th = true then
        let sel := if fs = true then wordSETB (lineWord th.line) else wordSETA (lineWord th.line)
        let q := f (s.ftzd th.id) th.regs
        let q' := match th.shadow with
          | some r => f (s.ftzd th.id) r
          | none => ([], [], 0)
        { th.advance with ops := th.ops ++
            [{ flag := if sel < 12 then some sel else none, xs := q.1, ps := q.2.1, shadowXs := q'.1, shadowPs := q'.2.1, fpx := q.2.2, bound }] }
      else th.advance) s s'

/-- One register and its FPX bits, to be written when the operation completes. -/
def laterF (d : XReg) (q : FRes) : List (Nat × Word) × List (Nat × Bool) × Fpx := ([(d.toNat, q.1)], [], q.2)

/-- The value of a finite number; 0 for an infinity or a NaN. -/
def valueOf : FVal → ℚ
  | .num n m e => (if n = true then -1 else 1) * (m : ℚ) * 2 ^ e
  | _ => 0

/-- A value that is a number. -/
def isNum : FVal → Bool
  | .num _ _ _ => true
  | _ => false

/-! ### Threads in the plain case -/

/-- No region is open, and the shadow (where there is one) agrees with no error injected (chapter 20). -/
structure Quiet (th : Thread) : Prop where
  regions : th.regions = []
  shadow : th.shadow = none ∨ th.shadow = some th.regs
  inject : th.inject ≠ some 0

/-- A segment may end in a record with `live`: outside handler mode and not the scalar thread, at most 16 registers, room at level 0 of the core's pool, no flag operation in flight, no pre-emption request (R129, R135, R390). -/
structure MayPark (s : State) (t : Tid) (th : Thread) (live : List Nat) : Prop where
  quiet : Quiet th
  handler : th.h.hmode = false
  team : th.isScalar = false
  count : live.length ≤ 16
  room : (s.poolAt 0 fun x => x.core == th.core).length < 1024
  ops : th.ops = []
  calm : s.covered t = false

/-- A segment may end with `live`: quietly, and in place (the scalar thread, a handler) or with at most 16 registers, room at level 0 of the core's pool and no pre-emption request (R129, R135, R390). -/
structure MayEnd (s : State) (t : Tid) (th : Thread) (live : List Nat) : Prop where
  quiet : Quiet th
  room : th.inPlace = true ∨ (live.length ≤ 16 ∧ (s.poolAt 0 fun x => x.core == th.core).length < 1024 ∧ s.covered t = false)

/-- Nothing of the thread waits in its core's side log (R316), and no engine command is under way in the module. -/
structure Calm (s : State) (t : Tid) : Prop where
  log : s.logging t = false
  commands : ∀ k ∈ s.cores, k.slots = []

/-- A flag operation of thread `t` begins with its results known: the pc advances and the operation waits with its flag, its registers and predicates for the leading thread and its shadow, and its bound; nothing else changes (R50 to R52). -/
def Begins (t : Tid) (fs : Bool) (bound : Nat) (xs : List (Nat × Word)) (ps : List (Nat × Bool)) (s s' : State) : Prop :=
  LanesDo [t] (fun th =>
    let sel := if fs = true then wordSETB (lineWord th.line) else wordSETA (lineWord th.line)
    { th.advance with ops := th.ops ++
        [{ flag := if sel < 12 then some sel else none, xs, ps
           shadowXs := if th.shadow.isSome then xs else [], shadowPs := if th.shadow.isSome then ps else [], fpx := 0, bound }] }) s s'

/-- The bytes `data` go to an absolute scratchpad offset of a core, a whole word losing its uncorrectable mark; no other byte of any scratchpad and nothing else of the state changes. -/
def ScratchWritten (core off : Nat) (data : List Byte) (s s' : State) : Prop :=
  s' = { s with cores := s'.cores } ∧
  (∀ c, s'.core c = { s.core c with scr := (s'.core c).scr, scrBad := (s'.core c).scrBad }) ∧
  (∀ c x, (s'.core c).scr.get x = if c = core ∧ off ≤ x ∧ x < off + data.length then data.getD (x - off) 0 else (s.core c).scr.get x) ∧
  ∀ c w, w ∈ (s'.core c).scrBad ↔ w ∈ (s.core c).scrBad ∧ ¬ (c = core ∧ off ≤ 4 * w ∧ 4 * w + 4 ≤ off + data.length)

/-- Module memory after a home has set DIRTY in the leaf of `ia`, its first write to the page (R267). -/
def dirtied (s : State) (ia x : Nat) : Byte :=
  match s.walk ia with
  | .leaf e _ a => if x = a ∧ e.getLsbD 5 = false then s.mem.get x ||| 0x20 else s.mem.get x
  | .fault _ _ _ => s.mem.get x

/-- What a write of module memory sends to the peers that subscribe to its line (R298, R320). -/
def subWrites (s : State) (ia : Nat) (data : List Byte) : List HostMsg :=
  (s.subscribers.filter fun b => decide (b.ia ≤ ia) && decide (ia < b.ia + b.len)).map fun b => HostMsg.subsWrite b.src b.n ia data

/-- Less than a line is written at `pa`, the place of `ia`, for thread `t`: those bytes, DIRTY in the leaf, no other byte of module memory; its check value is made anew for `ia`, and only that line may become POISON (R278); other threads lose their reservations of the line, other stacks their write lease (R314); its subscribers are sent the bytes (R298); only ticks and kept translations change beside. -/
def LineWritten (t : Tid) (ia pa : Nat) (data : List Byte) (s s' : State) : Prop :=
  s' = { s with mem := s'.mem, poison := s'.poison, lineIa := s'.lineIa, tlb := s'.tlb, ticks := s'.ticks, leases := s'.leases
                threads := s'.threads, messages := s'.messages } ∧
  (∀ l, l ∈ s'.poison ↔ l ∈ s.poison ∨ (l = pa / 64 ∧ l ∈ s'.poison)) ∧
  s'.lineIa = (pa / 64, ia / 64) :: (s.lineIa.filter fun x => x.1 != pa / 64) ∧
  s'.leases = (s.leases.filter fun x => x.1 != ia / 64 || some x.2 == (s.thread? t).map fun th => s.dieOf th.core) ∧
  s'.messages = s.messages ++ subWrites s ia data ∧
  (∀ x, s'.mem.get x = if pa ≤ x ∧ x < pa + data.length then data.getD (x - pa) 0 else dirtied s ia x) ∧
  ∀ u th, s.thread? u = some th → ∃ p, s'.thread? u = some { th with
    pts := if u = t then p else th.pts
    resv := match th.resv with
      | some v => if v.line = ia / 64 ∧ v.peer = none ∧ u ≠ t then none else some v
      | none => none }

/-! ### Control -/

/-- Every lane that performs `i` goes to `dst`, its registers and its shadow's after `link`; nothing else changes (R150, R153). -/
def Jumps (i : Instr) (dst : Thread → DWord) (link : Thread → Regs → Regs) : Prop :=
  ∀ s, Ready s i → ∃ s', exec i s = .next s' ∧
    LanesDo s.issue (fun th =>
      if performs i th = true then
        { th with pc := dst th, arr := .checked, regs := link th th.regs, shadow := th.shadow.map (link th) }
      else th.advance) s s'

/-- The sequential successor of a code address (R44). -/
def successor (pc : DWord) : DWord :=
  if pc.toNat % 8 < 4 then pc + 1 else BitVec.ofNat 64 (pc.toNat / 64 * 64 + 64)

/-! ### Cross-lane sets (R243, R245) -/

/-- Same team and group, or the same scalar thread. -/
def sameGroup : Tid → Tid → Prop
  | .thr c g k r _, .thr c' g' k' r' _ => c = c' ∧ g = g' ∧ k = k' ∧ r = r'
  | .scalar a, .scalar b => a = b
  | _, _ => False

/-- The issue is one cross-lane set: one team, one group, one mode, lanes of a group (R243). -/
structure OneSet (s : State) : Prop where
  lanes : ∀ t ∈ s.issue, Tid.lane t < 32
  group : ∀ t ∈ s.issue, ∀ u ∈ s.issue, sameGroup t u
  mode : ∀ t ∈ s.issue, ∀ u ∈ s.issue, ∀ x y, s.thread? t = some x → s.thread? u = some y → x.h.hmode = y.h.hmode

/-- The participants' lanes and registers: the leading threads', or with `shadow` the shadows' (a thread without one has its own). -/
def participants (s : State) (i : Instr) (shadow : Bool) : List (Nat × Regs) :=
  s.issue.filterMap fun t => match s.thread? t with
    | some th => if performs i th = true then some (Tid.lane t, if shadow = true then th.shadow.getD th.regs else th.regs) else none
    | none => none

/-- Xa of the participant on a lane. -/
def laneX (p : List (Nat × Regs)) (l : Nat) (a : XReg) : Option Word := (p.find? fun q => q.1 == l).map fun q => q.2.x32 a

/-- The lanes of a list as a mask. -/
def maskOfLanes (ls : List Nat) : Word := BitVec.ofFnLE fun i : Fin 32 => ls.contains i.val

/-- Each participant writes what `f` gives from the participants' registers, its lane and its own registers, its shadow likewise from the shadows'; the FPX bits `x` of the leading participants are ORed in; the others of the issue go on; nothing else changes. -/
def SetDoes (i : Instr) (f : Bool → List (Nat × Regs) → Nat → Regs → Regs) (x : Bool → List (Nat × Regs) → Fpx) : Prop :=
  ∀ s t, Ready s i → OneSet s → t ∈ s.issue → participants s i false ≠ [] →
    let z := s.ftzd t
    let p := participants s i false
    let q := participants s i true
    ∃ s', exec i s = .next s' ∧ s' = { s with threads := s'.threads, teams := s'.teams } ∧
      (∀ u ∈ s.issue, ∀ th, s.thread? u = some th → s'.thread? u = some (
        if performs i th = true then
          { th.advance with
            regs := f z p th.lane th.regs, shadow := th.shadow.map (f z q th.lane)
            fpx := if th.isScalar = true then th.fpx ||| x z p else th.fpx }
        else th.advance)) ∧
      (∀ u, u ∉ s.issue → s'.thread? u = s.thread? u) ∧ FpxInto t (x z p) s s'

/-- Node of the lane tree of R214 over the 2^k lanes from `l`. -/
def treeNode (f : Word → Word → FRes) (v : Nat → Word) : Nat → Nat → FRes
  | 0, l => (v l, 0)
  | k + 1, l =>
    let a := treeNode f v k l
    let b := treeNode f v k (l + 2 ^ k)
    ((f a.1 b.1).1, (f a.1 b.1).2 ||| a.2 ||| b.2)

/-- The values of R215 after the first `k` distances, and the FPX bits of all their nodes. -/
def prefixAt (f : Word → Word → FRes) (v : Nat → Word) : Nat → Nat → Word
  | 0, l => v l
  | k + 1, l => if 2 ^ k ≤ l then (f (prefixAt f v k (l - 2 ^ k)) (prefixAt f v k l)).1 else prefixAt f v k l
def prefixFlags (f : Word → Word → FRes) (v : Nat → Word) (k : Nat) : Fpx :=
  ((List.range 32).filter fun l => decide (2 ^ k ≤ l)).foldl
    (fun x l => x ||| (f (prefixAt f v k (l - 2 ^ k)) (prefixAt f v k l)).2) 0

/-! ### Quarters (chapter 17) -/

/-- The issue is the lanes of the quarters `qs` of one group, each whole, all of them performing `i` quietly on the team's core in one mode (R345). -/
structure Quarters (s : State) (i : Instr) (qs : List Nat) (lanes : Nat → List Tid) : Prop where
  issue : s.issue = qs.flatMap lanes
  order : qs.Pairwise (· < ·) ∧ ∀ q ∈ qs, q < 4
  lanes : ∃ c g k grp, ∀ q, lanes q = (List.range 8).map fun l => Tid.thr c g k grp (8 * q + l)
  ready : ∀ t ∈ s.issue, ∃ th, s.thread? t = some th ∧ Clean s i th ∧ performs i th = true ∧ Quiet th ∧ s.away th = false
  mode : ∀ t ∈ s.issue, ∀ u ∈ s.issue, ∀ x y, s.thread? t = some x → s.thread? u = some y → x.h.hmode = y.h.hmode

/-- Units from `h` of a core's accumulator store get `data`, the same units of the allocation's shadow copy `twin`; they are correct again; no other byte of the store and nothing else of the state changes. -/
def TileWritten (core : Nat) (al : Alloc) (h : Nat) (data twin : List Byte) (s s' : State) : Prop :=
  let own := fun x : Nat => 512 * h ≤ x ∧ x < 512 * h + data.length
  let copy := fun x : Nat => ∃ v, al.shadow = some v ∧ 512 * (v + (h - al.unit)) ≤ x ∧ x < 512 * (v + (h - al.unit)) + twin.length
  s' = { s with cores := s'.cores } ∧ (∀ c, s'.core c = { s.core c with acc := (s'.core c).acc, accBad := (s'.core c).accBad }) ∧
  (∀ c, c ≠ core → s'.core c = s.core c) ∧
  (∀ x, own x → (s'.core core).acc.get x = data.getD (x - 512 * h) 0) ∧
  (∀ v x, al.shadow = some v → ¬ own x → copy x → (s'.core core).acc.get x = twin.getD (x - 512 * (v + (h - al.unit))) 0) ∧
  (∀ x, ¬ own x → ¬ copy x → (s'.core core).acc.get x = (s.core core).acc.get x) ∧
  ∀ b, b ∈ (s'.core core).accBad ↔ b ∈ (s.core core).accBad ∧ ¬ own b ∧ ¬ copy b

/-- A quarter's flag operation begins in each of its lanes: its registers by quarter-local lane (`ws`, the shadow's `vs`), the quarter's FPX bits, its bound, and the number under which the eight operations complete together; only the counter of those numbers changes beside (R50 to R52, R356). -/
def QuarterBegins (ts : List Tid) (fs : Bool) (bound : Nat) (d : XReg) (ws vs : Nat → List Word) (x : Fpx) (s s' : State) : Prop :=
  LanesDo ts (fun th =>
    let sel := if fs = true then wordSETB (lineWord th.line) else wordSETA (lineWord th.line)
    let l := th.lane % 8
    { th.advance with ops := th.ops ++
        [{ flag := if sel < 12 then some sel else none, xs := (seqFrom d.toNat (ws l).length).zip (ws l), ps := []
           shadowXs := if th.shadow.isSome = true then (seqFrom d.toNat (vs l).length).zip (vs l) else [], shadowPs := []
           fpx := x, bound, batch := s.nextSeq + 1 }] }) { s with nextSeq := s.nextSeq + 1 } s'

/-- The quarter's lanes hold one allocation, and the handle in the lowest lane's register names `n` units inside it (R348, R349). -/
def HoldsTile (s : State) (ts : List Tid) (al : Alloc) (h n : Nat) (even : Bool) (d : XReg) : Prop :=
  s.quarterAlloc ts = some al ∧ (s.handleOf ts false d).toNat = h ∧ h < 2 ^ 14 ∧ al.unit ≤ h ∧ h + n ≤ al.unit + al.n ∧ (even = true → h % 2 = 0)

/-- The checks of a quarter instruction and what each quarter then does, given its lanes and those of its B source (R346). -/
def quarterForm : Instr → Option (Option Nat × (State → List Tid → Option (Cause × DWord)) × (State → List Tid → List Tid → State))
  | .mmaq _ fs neg acc d a b c k bq => some (bq.map (·.toNat), State.mmaCause acc d k, State.mmaQuarter fs false neg acc d a b c k)
  | .mmaz _ fs neg acc d a b c k bq => some (bq.map (·.toNat), State.mmaCause acc d k, State.mmaQuarter fs true neg acc d a b c k)
  | .talloc _ d e n => some (none, State.allocCause, State.allocQuarter d e n.toNat)
  | .tld _ fs t d m => some (none, fun s ts => s.moveCause ts d m (fmtUnits t) (isFmt32 t) (tileBytes t), State.loadQuarter fs 48 d m (fmtUnits t))
  | .tst _ fs img t d m =>
    some (none, fun s ts => s.moveCause ts d m (fmtUnits t) (isFmt32 t) (256 * imgBytes img t), State.tstQuarter fs img t d m)
  | .tzero _ fs t d => some (none, fun s ts => s.tileCause ts (s.handleOf ts false d) (fmtUnits t) (isFmt32 t), State.zeroQuarter fs t d)
  | .tspill _ fs d m n =>
    some (none, fun s ts => s.moveCause ts d m (n.toNat + 1) false (512 * (n.toNat + 1)), State.spillQuarter fs d m (n.toNat + 1))
  | .tfill _ fs d m n =>
    some (none, fun s ts => s.moveCause ts d m (n.toNat + 1) false (512 * (n.toNat + 1)), State.loadQuarter fs 192 d m (n.toNat + 1))
  | .frags _ fs res t d a =>
    some (none, fun s ts => s.tileCause ts (s.handleOf ts false a) (fmtUnits t) (isFmt32 t), State.fragsQuarter fs res t d a)
  | .tsig _ fs t d a => some (none, fun s ts => s.tileCause ts (s.handleOf ts false a) (fmtUnits t) (isFmt32 t), State.tsigQuarter fs t d a)
  | _ => none

end Sys2Proof.Safety
end

