-- ==== Sys2Proof/Certificates/Slice0/Obligations.lean ====
section
/-! DEFINITION. The statements about this model. -/

open Sys2Proof Sys2Proof.Machine Sys2Proof.Safety

/-! ### The step, the encoding, common checks, exceptions, reset (03, 19) -/

/-- With no consequence and no input due and an issue picked, a step decodes the slot that the first thread's code address names in its line: if it decodes, the step is exec of that instruction for the threads of the issue, then the machine settles and an action of the cycle has passed; if it does not, each of them traps ILLEGAL_OPCODE. The lanes of a load, store or atomic beyond the core are performed older tick first, those of one tick in the order given (R293), every other instruction's in the order given; before it a team's first issue is noted (R40), which changes only the team's mark and its grid's starts; after it a run-ahead thread that must issue the same instruction again has its attempt uncounted (R380), and no thread outside run-ahead changes. From the machine that withFetchWord builds, a step runs exactly the word placed. The picking order among issues and events, and how many of them make a cycle, are the model's (log 5, log 6, log 11). (R44, R47, R60) -/
def Obligations.AStepRunsTheDecodedInstruction : Prop :=
  (∀ (s s1 : State) (core : Nat) (t : Tid) (ts : List Tid) (th : Thread), s.work = [] → s.inbox = [] →
    s.pickPlan = (s1, some (.issue core (t :: ts))) → s1.thread? t = some th →
    let code := th.line.extractLsb' (96 * (th.pc.toNat % 8)) 96
    let s2 := (t :: ts).foldl State.markBegun s1
    (∀ i s3, decode code = .ok i → exec i { s2 with issue := s2.laneOrder i (t :: ts) } = .next s3 →
      step s = .next (s2.recount s3 (t :: ts)).finish.passAct) ∧
    (∀ e, decode code = .error e → step s = .next ((t :: ts).foldl (fun s t => s.raise t .illegalOpcode 0) s2).finish.passAct)) ∧
  (∀ (s : State) (t : Tid), s.markBegun t = { s with teams := (s.markBegun t).teams, grids := (s.markBegun t).grids } ∧
    (∀ tm, s.teamOf t = some tm → tm.begun = true → s.markBegun t = s)) ∧
  (∀ (s : State) (i : Instr) (l : List Tid), (∀ n, (s.laneOrder i l).filter (s.ptsOf · == n) = l.filter (s.ptsOf · == n)) ∧
    (ordersByTick i = true → (s.laneOrder i l).Pairwise fun a b => s.ptsOf a ≤ s.ptsOf b) ∧ (ordersByTick i = false → s.laneOrder i l = l)) ∧
  (∀ (s s' : State) (l : List Tid), s.recount s' l = { s' with threads := (s.recount s' l).threads } ∧
    ∀ (u : Tid) (x : Thread), s.thread? u = some x → x.inRunAhead = false → (s.recount s' l).thread? u = s'.thread? u) ∧
  ∀ (s : State) (w : Nat) (i : Instr), decode (BitVec.ofNat 96 w) = .ok i →
    step (s.withFetchWord 96 w) = passResult (finishResult (exec i { (s.withFetchWord 96 w).choice.2 with issue := [wordTid] }))

/-- Slot bytes of the spec's worked examples, lowest byte first, decode to the instruction named beside them: BRA, ISETP, IADD.CO, IDIV, PLOP, PACKN, FMUL, SCAN, ST, BINIT, MMAQ, LDG, FWD, SRD, RBEGIN; OP 0xFF and a word with an unused bit set decode to nothing. (R59, R60, R67) -/
def Obligations.SpecWordsDecode : Prop :=
  decode (codeOfBytes [0x02, 0, 0, 0, 0, 0, 0, 0, 0, 0, 0x04, 0x01]) = .ok (.bra ⟨1, false⟩ 2 0) ∧
  decode (codeOfBytes [0x14, 0, 0, 0, 0, 0, 0, 1, 1, 0x85, 0, 0x2C]) = .ok (.isetp ⟨0, false⟩ false .none .ge 1 1 (.imm 20) 0) ∧
  decode (codeOfBytes [0, 0, 0, 0, 2, 0, 2, 0, 4, 1, 0, 0x10]) = .ok (.iadd ⟨0, false⟩ (.carry 2) 4 0 (.reg 2)) ∧
  decode (codeOfBytes [7, 0, 0, 0, 0, 0, 0, 4, 6, 0x81, 0, 0x18]) = .ok (.idiv ⟨0, false⟩ false .u 6 4 (.imm 7)) ∧
  decode (codeOfBytes [0, 0, 0, 0, 0, 0, 2, 1, 9, 0xC0, 0, 0x30]) = .ok (.plop ⟨0, false⟩ 0xC0 9 1 2 0) ∧
  decode (codeOfBytes [0, 0, 0, 0, 0, 0, 0, 0, 4, 0x0C, 0, 0x63]) = .ok (.packn ⟨0, false⟩ false .e4m3 .rne 4 0 0) ∧
  decode (codeOfBytes [0, 0, 0, 0, 0, 0, 9, 0x0D, 0x0E, 0, 0, 0x3A]) = .ok (.fmul ⟨0, false⟩ false .rne 14 13 (.reg 9)) ∧
  decode (codeOfBytes [0, 0, 0, 0, 0, 0, 0, 2, 6, 0x20, 4, 0x75]) = .ok (.scan ⟨1, false⟩ true false .add 6 2) ∧
  decode (codeOfBytes [0, 0, 0, 0, 0, 0, 0, 0x0A, 2, 3, 0x16, 0x84]) = .ok (.st ⟨5, true⟩ 0 .b8 2 ⟨10, 0⟩) ∧
  decode (codeOfBytes [0, 0, 0, 0, 0, 6, 5, 4, 0, 0, 4, 0xA3]) = .ok (.binit ⟨1, false⟩ ⟨4, 0⟩ 5 6) ∧
  decode (codeOfBytes [0, 0, 0, 0, 8, 0x30, 0x20, 0x10, 8, 2, 0, 0xB0]) = .ok (.mmaq ⟨0, false⟩ false false .bf16 8 16 32 48 0 (some 0)) ∧
  decode (codeOfBytes [0, 0, 0, 0, 2, 0, 0, 0x14, 0, 0x62, 0, 0xC0]) = .ok (.ldg ⟨0, false⟩ .mini .s32 .b4 0 ⟨20, 0⟩ 0 2) ∧
  decode (codeOfBytes [0, 0, 0, 0, 0, 0, 0, 0, 1, 1, 0, 0xD4]) = .ok (.fwd ⟨0, false⟩ none 1 0) ∧
  decode (codeOfBytes [0x14, 0, 0, 0, 0, 0, 0, 0, 4, 1, 0, 0xE8]) = .ok (.srd ⟨0, false⟩ true 4 0x14) ∧
  decode (codeOfBytes [2, 0, 0, 0, 0, 0, 0, 0, 9, 0, 0, 0xE0]) = .ok (.rbegin ⟨0, false⟩ 9 2 0) ∧
  decode (codeOfBytes [0, 0, 0, 0, 0, 0, 0, 0, 0, 0, 0, 0xFF]) = .error .unassigned ∧
  decode (codeOfBytes [1, 0, 0, 0, 0, 0, 0, 0, 0, 0, 0, 0x09]) = .error .unusedBits

/-- For every well-formed instruction, whatever its operands, decoding its encoding gives it back; every instruction that a thread executes has an encoding and no event has one; and a word that decodes at all decodes to a well-formed instruction whose encoding is that same word, so that no bit of a word is without meaning and no two words stand for one instruction. (R59, R60, R62, R67) -/
def Obligations.DecodeAndEncodeAgree : Prop :=
  (∀ i : Instr, i.wellFormed = true → ∀ w, encode i = some w → decode w = .ok i) ∧
  (∀ i : Instr, (encode i).isSome = i.guard?.isSome) ∧
  (∀ (w : Code) (i : Instr), decode w = .ok i → i.wellFormed = true ∧ encode i = some w)

/-- A register written reads as written and every other register and predicate as before; a pair written reads as written, its low half in the even register; a predicate other than P0 reads as written and every other as before; P0 reads 1 and a write of it changes nothing. (R5, R62) -/
def Obligations.RegisterWritesAndReads : Prop :=
  ∀ (r : Regs) (n m : XReg) (q k : PReg) (v : Word) (u : DWord) (b : Bool), n.toNat < r.x.length →
    (r.set32 n v).x32 n = v ∧ (m ≠ n → (r.set32 n v).x32 m = r.x32 m) ∧ (r.set32 n v).pr q = r.pr q ∧
    (n.toNat % 2 = 0 → n.toNat + 1 < r.x.length →
      (r.set64 n u).x64 n = u ∧ (r.set64 n u).x32 n = u.setWidth 32 ∧ (m ≠ n → m ≠ n + 1 → (r.set64 n u).x32 m = r.x32 m)) ∧
    r.pr 0 = true ∧ r.setP 0 b = r ∧ (q ≠ 0 → (r.setP q b).pr q = b) ∧ (k ≠ q → (r.setP q b).pr k = r.pr k) ∧
    (r.setP q b).x32 n = r.x32 n

/-- After module reset the module mode is BRINGUP; CYCLE, EPOCH, XROOT, CKPTCTL, the stop report, the aperture words and the migration channels read 0; no context, grid, team, thread or engine command exists and no core or die has left its reset state; a core's LINESTAT, MATERR and GRPERR read 0. The memory form and the bit of P0 hold in it. Its fuses are those of a C24-4224; with any fuses that R10 allows the module has 4,224 or 4,096 cores and each compute stack at least 160. That memory lists nothing, so that a byte nothing has written reads 0, is the model's choice (log 3). (R391, R431, R58, R110, R10) -/
def Obligations.ResetState : Prop :=
  let s := State.reset
  s.mmode = 1 ∧ s.cycle = 0 ∧ s.epoch = 0 ∧ s.xroot = 0 ∧
  s.ckpt = { rsv := false, state := 0, lastst := 0, seq := 0, waiter := none, tick := 0, cycle := 0 } ∧
  s.stop = { state := 0, cause := 0, info := 0, cycle := 0, grids := 0, sigfail := 0 } ∧
  (∀ d, d < 24 → s.apers[d]? = some 0) ∧ (∀ c, c < 4 → (s.mig c).stat = 0 ∧ (s.mig c).src = 0 ∧ (s.mig c).dst = 0) ∧
  s.ctxs = [] ∧ s.grids = [] ∧ s.teams = [] ∧ s.threads = [] ∧ s.commands = [] ∧
  (∀ k, (s.core k).linestat = 0 ∧ (s.core k).materr = 0 ∧ (s.core k).grperr = 0 ∧ (s.core k).entries = [] ∧ (s.core k).bind = none ∧
    ∀ a, (s.core k).scr.get a = 0) ∧
  (∀ d, (s.die d).units = 128 ∧ (s.die d).lost = false) ∧ s.mem = [] ∧ memOk s = true ∧ p0Ok s = true ∧
  fusesOk s.disabled = true ∧
  ∀ x : State, fusesOk x.disabled = true → (x.ncore = 4224 ∨ x.ncore = 4096) ∧ ∀ d, d < 24 → 160 ≤ x.ndcore d

/-- For one thread that issues an instruction outside run-ahead, the matrix instructions and CBR, CSYNC and GBAR apart (QuarterInstructions and CollectivesArrive state theirs): an instruction that the scalar thread cannot execute raises ILLEGAL_OPCODE; else a register at or above the declared count raises REG_RANGE with its number; else a pair that R56 refuses raises ILLEGAL_PAIR in TEST mode; each of them whatever the guard. Else a false guard only goes on to the successor, in the other modes with LINESTAT.PAIRSER set for a refused pair; with a true guard an instruction that needs a privileged thread raises PRIVILEGE in another. Which register REG_RANGE names when several are out of range is the model's choice (log 15). (R6, R57, R61, R62, R122, R5) -/
def Obligations.ChecksOfAnIssue : Prop :=
  ∀ (s : State) (i : Instr) (g : Guard) (t : Tid) (th : Thread), s.issue = [t] → s.thread? t = some th → i.guard? = some g →
    i.cls ≠ .mtx → (∀ g a b c d e f, i ≠ .cbr g a b c d e f) → (∀ g a b, i ≠ .csync g a b) → (∀ g a b, i ≠ .gbar g a b) →
    th.inRunAhead = false →
    let legal := th.isScalar = true → scalarIllegal i = false
    (th.isScalar = true → scalarIllegal i = true → exec i s = .next (s.raise t .illegalOpcode 0)) ∧
    (legal → ∀ n, s.rangeBad th i = some n → exec i s = .next (s.raise t .regRange (BitVec.ofNat 64 n))) ∧
    (legal → s.rangeBad th i = none →
      (s.badPair th i = true → s.mmode = 2 → exec i s = .next (s.raise t .illegalPair 0)) ∧
      (s.badPair th i = true → s.mmode ≠ 2 → g.holds th.regs = false →
        exec i s = .next ((s.modCore th.core fun k => { k with linestat := k.linestat ||| 0x10000 }).advance t)) ∧
      (s.badPair th i = false → g.holds th.regs = false → exec i s = .next (s.advance t)) ∧
      (s.badPair th i = false → g.holds th.regs = true → ∀ n, s.needsPriv th i = some n →
        exec i s = .next (s.raise t .privilege (BitVec.ofNat 64 n)))) ∧
    (s.advance t).thread? t = some { th with pc := successor th.pc, arr := if th.pc.toNat % 8 < 4 then .inLine else .fall } ∧
    (∀ u, u ≠ t → (s.advance t).thread? u = s.thread? u)

/-- A cause of a group's thread at rung 0 goes to the group vector, else the team vector, else the context rung, else the partition rung; a scalar thread's goes to RUNGVEC2, or the partition rung when that is 0. Entry at the thread from outside handler mode writes TRAPPC, TRAPSRC, TRAPCAUSE and TRAPINFO, clears HFAULTSRC, sets HMODE, RUNG and VIA, starts the service timer, drops the reservation and continues at the vector with a target check; no other thread and no memory changes. From inside handler mode the saved addresses stay. A cause that a handler raises is in SERVICE mode delivered one rung up with VIA 3 and HFAULTSRC the instruction; in the other modes it is held in CAUSEPEND and the handler goes on. (R387, R388, R389, R391, R392, R49, R294) -/
def Obligations.TakingAnException : Prop :=
  (∀ (s : State) (c g k grp l : Nat) (th : Thread) (tm : Team), let t : Tid := .thr c g k grp l
    s.thread? t = some th → s.team? c g k = some tm →
    s.rungFor th 0 = (if tm.rungvec0 ≠ 0 then 0 else if tm.rungvec1 ≠ 0 then 1 else if s.contextServes c = true then 2 else 3) ∧
    s.rungFor th 1 = (if tm.rungvec1 ≠ 0 then 1 else if s.contextServes c = true then 2 else 3) ∧
    s.vectorOf th 0 = tm.rungvec0 ∧ s.vectorOf th 1 = tm.rungvec1) ∧
  (∀ (s : State) (core : Nat) (th : Thread) (x : Ctx), s.thread? (.scalar core) = some th → s.ctx? (s.ctxOf (.scalar core)) = some x →
    s.rungFor th 0 = (if x.rungvec2 = 0 then 3 else 2) ∧ s.vectorOf th 2 = x.rungvec2) ∧
  (∀ (s : State) (t : Tid) (th : Thread) (k : Nat) (c : Cause) (info pc src : DWord) (via : Nat), s.thread? t = some th → th.ops = [] →
    let r := s.rungFor th k
    let s' := s.deliverRaw t k c info pc src via
    r ≤ 1 ∨ (r = 2 ∧ th.isScalar = true) →
      s'.mem = s.mem ∧ s'.cores = s.cores ∧ s'.ctxs = s.ctxs ∧ s'.teams = s.teams ∧ s'.grids = s.grids ∧ (∀ u, u ≠ t → s'.thread? u = s.thread? u) ∧
      s'.thread? t = some { th with
        pc := s.vectorOf th r, arr := .checked, resv := none, wdStart := s.cycle, wdUsed := 0
        hold := false, wait := .none, woken := false, pend := 0, dest := [], destP := none
        h := { th.h with
          hmode := true, rung := BitVec.ofNat 2 r, via := BitVec.ofNat 2 via, cause := BitVec.ofNat 6 c.num, info
          trappc := if th.h.hmode = true then th.h.trappc else pc, src := if th.h.hmode = true then th.h.src else src
          hfaultsrc := if th.h.hmode = true then th.h.hfaultsrc else 0, entry := if th.h.hmode = true then th.h.entry else pc
          timer := some (s.cycle + s.serviceCycles (s.ctxOf t) r) } }) ∧
  (∀ (s : State) (t : Tid) (th : Thread) (c : Cause) (info : DWord), s.thread? t = some th → th.regions = [] →
    (th.h.hmode = false → s.raise t c info = s.deliverRaw t c.rung c info th.pc th.pc 0) ∧
    (th.h.hmode = true → s.mmode = 0 → s.raise t c info =
      (s.modThread t fun x => { x with h := { x.h with hfaultsrc := th.pc } }).deliverRaw t (max c.rung (th.h.rung.toNat + 1)) c info th.h.trappc th.h.src 3) ∧
    (th.h.hmode = true → s.mmode ≠ 0 → LanesDo [t] (fun x =>
      let h := if x.h.pend.getLsbD c.num = true then x.h
        else { x.h with pend := x.h.pend ||| 1#64 <<< c.num, infos := (c.num, info) :: x.h.infos.filter fun q => q.1 != c.num }
      { x.pass with h := { h with hfaultsrc := if x.h.hfaultsrc = 0 then x.pc else x.h.hfaultsrc } }) s (s.raise t c info)))

/-! ### Integer, address and predicate instructions (09) -/

/-- IADD and ISUB in each of their four modes, IADDC and ISUBB write the sum or difference of R178 and R179 in D, and the carry or borrow in E, in every lane whose guard is true, in the leading thread and its shadow; the pc advances and nothing else of the state changes. The multiply instructions write the low, high, multiply-add and wide results of R180 under the sign code, in every lane whose guard is true, in the leading thread and its shadow; every source is read before the first write; nothing else changes. (R178, R179, R180) -/
def Obligations.SumsAndProducts : Prop :=
  (∀ (g : Guard) (d a : XReg) (b : Src) (c e : PReg),
    Computes (.iadd g .wrap d a b) (fun r => r.set32 d (BitVec.ofNat 32 ((r.x32 a).toNat + (b.val r).toNat))) ∧
    Computes (.iadd g (.carry e) d a b) (fun r =>
      (r.set32 d (BitVec.ofNat 32 ((r.x32 a).toNat + (b.val r).toNat))).setP e (decide (2 ^ 32 ≤ (r.x32 a).toNat + (b.val r).toNat))) ∧
    Computes (.iadd g .sat d a b) (fun r =>
      r.set32 d (BitVec.ofInt 32 (min (max ((r.x32 a).toInt + (b.val r).toInt) (-2 ^ 31)) (2 ^ 31 - 1)))) ∧
    Computes (.iadd g .usat d a b) (fun r => r.set32 d (BitVec.ofNat 32 (min ((r.x32 a).toNat + (b.val r).toNat) (2 ^ 32 - 1)))) ∧
    Computes (.isub g .wrap d a b) (fun r => r.set32 d (BitVec.ofInt 32 ((r.x32 a).toNat - (b.val r).toNat))) ∧
    Computes (.isub g (.carry e) d a b) (fun r =>
      (r.set32 d (BitVec.ofInt 32 ((r.x32 a).toNat - (b.val r).toNat))).setP e (decide ((r.x32 a).toNat < (b.val r).toNat))) ∧
    Computes (.isub g .sat d a b) (fun r =>
      r.set32 d (BitVec.ofInt 32 (min (max ((r.x32 a).toInt - (b.val r).toInt) (-2 ^ 31)) (2 ^ 31 - 1)))) ∧
    Computes (.isub g .usat d a b) (fun r => r.set32 d (BitVec.ofNat 32 ((r.x32 a).toNat - (b.val r).toNat))) ∧
    Computes (.iaddc g d a b c e) (fun r =>
      (r.set32 d (BitVec.ofNat 32 ((r.x32 a).toNat + (b.val r).toNat + (r.pr c).toNat))).setP e
        (decide (2 ^ 32 ≤ (r.x32 a).toNat + (b.val r).toNat + (r.pr c).toNat))) ∧
    Computes (.isubb g d a b c e) (fun r =>
      (r.set32 d (BitVec.ofInt 32 ((r.x32 a).toNat - (b.val r).toNat - (r.pr c).toNat))).setP e
        (decide ((r.x32 a).toNat < (b.val r).toNat + (r.pr c).toNat)))) ∧
  (∀ (g : Guard) (sg : Sign) (d a : XReg) (b : Src) (c : XReg),
    Computes (.imul g d a b) (fun r => r.set32 d (BitVec.ofNat 32 ((r.x32 a).toNat * (b.val r).toNat))) ∧
    Computes (.imulh g sg d a b) (fun r =>
      r.set32 d (BitVec.ofInt 32 ((signA sg (r.x32 a) * signB sg (b.val r)) % 2 ^ 64 / 2 ^ 32))) ∧
    Computes (.imad g d a b c) (fun r => r.set32 d (BitVec.ofNat 32 ((r.x32 a).toNat * (b.val r).toNat + (r.x32 c).toNat))) ∧
    Computes (.imadw g sg d a b c) (fun r =>
      r.set64 d (BitVec.ofInt 64 ((signA sg (r.x32 a) * signB sg (b.val r) + (r.x64 c).toNat) % 2 ^ 64))))

/-- The minimum, maximum and absolute value of R182, the logic results of R183, the shifts and the rotation of R184 and the funnel shift of R185, counts of 32 and more included, are written in D in every lane whose guard is true, in the leading thread and its shadow; nothing else changes. CLZ, CLZ.S, POPC and BREV write the counts and the reversal of R186; BFX extracts and BFI inserts the field of R187, cut at bit 31 and empty when len is 0 or pos is 32 or more; in every lane whose guard is true, in the leading thread and its shadow; nothing else changes. (R182, R183, R184, R185, R186, R187) -/
def Obligations.LogicShiftsFields : Prop :=
  (∀ (g : Guard) (sg : Sign) (wrap : Bool) (d a a2 : XReg) (b : Src),
    Computes (.imin g sg d a b) (fun r => r.set32 d (if signA sg (r.x32 a) ≤ signB sg (b.val r) then r.x32 a else b.val r)) ∧
    Computes (.imax g sg d a b) (fun r => r.set32 d (if signA sg (r.x32 a) ≤ signB sg (b.val r) then b.val r else r.x32 a)) ∧
    Computes (.iabs g false d a) (fun r => r.set32 d (BitVec.ofNat 32 (r.x32 a).toInt.natAbs)) ∧
    Computes (.iabs g true d a) (fun r => r.set32 d (BitVec.ofNat 32 (min (r.x32 a).toInt.natAbs (2 ^ 31 - 1)))) ∧
    Computes (.and g d a b) (fun r => r.set32 d (r.x32 a &&& b.val r)) ∧
    Computes (.or g d a b) (fun r => r.set32 d (r.x32 a ||| b.val r)) ∧
    Computes (.xor g d a b) (fun r => r.set32 d (r.x32 a ^^^ b.val r)) ∧
    Computes (.andn g d a b) (fun r => r.set32 d (r.x32 a &&& ~~~(b.val r))) ∧
    Computes (.not g d a) (fun r => r.set32 d (~~~(r.x32 a))) ∧
    Computes (.shl g wrap d a b) (fun r =>
      let n := if wrap = true then (b.val r).toNat % 32 else (b.val r).toNat
      r.set32 d (if 32 ≤ n then 0 else BitVec.ofNat 32 ((r.x32 a).toNat * 2 ^ n))) ∧
    Computes (.shr g wrap d a b) (fun r =>
      let n := if wrap = true then (b.val r).toNat % 32 else (b.val r).toNat
      r.set32 d (if 32 ≤ n then 0 else BitVec.ofNat 32 ((r.x32 a).toNat / 2 ^ n))) ∧
    Computes (.sar g wrap d a b) (fun r =>
      let n := if wrap = true then (b.val r).toNat % 32 else (b.val r).toNat
      r.set32 d (BitVec.ofInt 32 ((r.x32 a).toInt / 2 ^ (min n 32)))) ∧
    Computes (.rotl g d a b) (fun r =>
      let n := (b.val r).toNat % 32
      r.set32 d ((r.x32 a <<< n) ||| (r.x32 a >>> (32 - n)))) ∧
    Computes (.funnel g wrap false d a a2 b) (fun r =>
      let n := if wrap = true then (b.val r).toNat % 32 else min (b.val r).toNat 32
      r.set32 d (BitVec.ofNat 32 (((r.x32 a).toNat * 2 ^ 32 + (r.x32 a2).toNat) * 2 ^ n % 2 ^ 64 / 2 ^ 32))) ∧
    Computes (.funnel g wrap true d a a2 b) (fun r =>
      let n := if wrap = true then (b.val r).toNat % 32 else min (b.val r).toNat 32
      r.set32 d (BitVec.ofNat 32 (((r.x32 a).toNat * 2 ^ 32 + (r.x32 a2).toNat) / 2 ^ n)))) ∧
  (∀ (g : Guard) (d a : XReg) (b : Src) (c : XReg),
    Computes (.clz g false d a) (fun r =>
      r.set32 d (if r.x32 a = 0 then 32 else BitVec.ofNat 32 (31 - Nat.log2 (r.x32 a).toNat))) ∧
    Computes (.clz g true d a) (fun r =>
      let m := if (r.x32 a).msb = true then ~~~(r.x32 a) else r.x32 a
      r.set32 d (if m = 0 then 31 else BitVec.ofNat 32 (30 - Nat.log2 m.toNat))) ∧
    Computes (.popc g d a) (fun r => r.set32 d (BitVec.ofNat 32 ((List.range 32).countP fun i => (r.x32 a).getLsbD i))) ∧
    Computes (.brev g d a) (fun r => r.set32 d (r.x32 a).reverse) ∧
    Computes (.bfx g false d a b) (fun r =>
      let pos := (b.val r).toNat % 256
      let len := (b.val r).toNat / 256 % 256
      r.set32 d (if len = 0 ∨ 32 ≤ pos then 0 else ((r.x32 a).extractLsb' pos (min (pos + len) 32 - pos)).setWidth 32)) ∧
    Computes (.bfx g true d a b) (fun r =>
      let pos := (b.val r).toNat % 256
      let len := (b.val r).toNat / 256 % 256
      r.set32 d (if len = 0 ∨ 32 ≤ pos then 0 else ((r.x32 a).extractLsb' pos (min (pos + len) 32 - pos)).signExtend 32)) ∧
    Computes (.bfi g d a b c) (fun r => r.set32 d (bfiRes (r.x32 a) (b.val r) (r.x32 c))) ∧
    ∀ (x y z : Word) (i : Nat), i < 32 → (bfiRes x y z).getLsbD i =
      if y.toNat % 256 ≤ i ∧ i < y.toNat % 256 + y.toNat / 256 % 256 then x.getLsbD (i - y.toNat % 256) else z.getLsbD i)

/-- ISETP compares under the condition and signedness and writes Pd and then Pe, folded or not (R188); SEL chooses by a predicate (R189); the four forms of MOV (R190) and LEA (R191) write their values; in every lane whose guard is true, in the leading thread and its shadow; nothing else changes. PLOP writes the truth-table bit of three predicates (R192); P2X writes a register whose bit i is P(32h + i), and X2P writes exactly the predicates whose mask bit is 1, a write to P0 being discarded (R193); PSET writes its three forms (R194); in every lane whose guard is true, in the leading thread and its shadow; nothing else changes. (R188, R189, R190, R191, R192, R193, R194) -/
def Obligations.ComparisonsMovesPredicates : Prop :=
  (∀ (g : Guard) (u : Bool) (cond : Cond) (p e q : PReg) (d a a2 : XReg) (b : Src) (v : Word) (n : BitVec 3),
    (let k := fun r : Regs =>
      let x : Int := if u = true then (r.x32 a).toNat else (r.x32 a).toInt
      let y : Int := if u = true then (b.val r).toNat else (b.val r).toInt
      match cond with
      | .eq => decide (x = y) | .ne => decide (x ≠ y) | .lt => decide (x < y)
      | .le => decide (x ≤ y) | .gt => decide (x > y) | .ge => decide (x ≥ y)
     Computes (.isetp g u .none cond p a b e) (fun r => (r.setP p (k r)).setP e (!k r)) ∧
     Computes (.isetp g u (.and q) cond p a b e) (fun r => (r.setP p (k r && r.pr q)).setP e (k r)) ∧
     Computes (.isetp g u (.or q) cond p a b e) (fun r => (r.setP p (k r || r.pr q)).setP e (k r)) ∧
     Computes (.isetp g u (.xor q) cond p a b e) (fun r => (r.setP p (k r ^^ r.pr q)).setP e (k r))) ∧
    Computes (.sel g d a b q) (fun r => if r.pr q = true then r.set32 d (r.x32 a) else r.set32 d (b.val r)) ∧
    Computes (.mov g d (.reg a)) (fun r => r.set32 d (r.x32 a)) ∧
    Computes (.mov g d (.imm v)) (fun r => r.set32 d v) ∧
    Computes (.mov g d (.reg64 a)) (fun r => r.set64 d (r.x64 a)) ∧
    Computes (.mov g d (.imm64 v)) (fun r => r.set64 d (BitVec.ofInt 64 v.toInt)) ∧
    Computes (.lea g true u d a a2 n v) (fun r =>
      r.set32 d (BitVec.ofInt 32 ((r.x32 a).toNat +
        (if u = true then ((r.x32 a2).toNat : Int) else (r.x32 a2).toInt) * 2 ^ n.toNat + v.toInt))) ∧
    Computes (.lea g false u d a a2 n v) (fun r =>
      r.set64 d (BitVec.ofInt 64 ((r.x64 a).toNat +
        (if u = true then ((r.x32 a2).toNat : Int) else (r.x32 a2).toInt) * 2 ^ n.toNat + v.toInt)))) ∧
  (∀ (g : Guard) (tab : BitVec 8) (h v : Bool) (p q1 q2 q3 : PReg) (d a : XReg) (mask : Word) (n : BitVec 5),
    Computes (.plop g tab p q1 q2 q3) (fun r =>
      r.setP p (tab.getLsbD (4 * (r.pr q1).toNat + 2 * (r.pr q2).toNat + (r.pr q3).toNat))) ∧
    (∃ w : Regs → Word, Computes (.p2x g h d) (fun r => r.set32 d (w r)) ∧
      ∀ r i, i < 32 → (w r).getLsbD i = r.pr (BitVec.ofNat 6 (32 * h.toNat + i))) ∧
    (∃ f : Regs → Regs, Computes (.x2p g h a mask) f ∧
      ∀ r, (f r).x = r.x ∧ (f r).bad = r.bad ∧ ∀ i, i < 64 → (f r).pr (BitVec.ofNat 6 i) =
        if i / 32 = h.toNat ∧ mask.getLsbD (i % 32) = true then i == 0 || (r.x32 a).getLsbD (i % 32)
        else r.pr (BitVec.ofNat 6 i)) ∧
    Computes (.pset g p (.imm v)) (fun r => r.setP p v) ∧
    Computes (.pset g p (.nz a)) (fun r => r.setP p (r.x32 a != 0)) ∧
    Computes (.pset g p (.bit a n)) (fun r => r.setP p ((r.x32 a).getLsbD n.toNat)))

/-! ### Floating point and conversion (10, 11) -/

/-- For FP32, FP16 and BF16, every mode, and every exact value ±v with v = m × 2^e not zero: with the exponent E and the unit 2^(E − p) of R200, n is v divided by the unit rounded to an integer in the mode; beyond the largest finite the result is that of Table 10.4 with OF and NX; otherwise it is the finite value n × unit with the sign of v, NX exactly when it differs from v, UF when v also lies below the smallest normal. (R200, R201) -/
def Obligations.RoundingFollowsExactSteps : Prop :=
  ∀ f ∈ [fF32, fF16, fBF16], ∀ (rm : RM) (neg : Bool) (m : Nat) (e : Int), m ≠ 0 →
    let v : ℚ := m * 2 ^ e
    let ex : Int := max (Int.log 2 v) (1 - f.bias)
    let unit : ℚ := 2 ^ (ex - f.p)
    let res := f.roundNum rm false neg m e
    ∃ n : Nat,
      (match rm with
        | .rne => |v / unit - n| ≤ 1 / 2 ∧ (|v / unit - n| = 1 / 2 → n % 2 = 0)
        | .rtz => (n : Int) = ⌊v / unit⌋
        | .rup => (n : Int) = if neg = true then ⌊v / unit⌋ else ⌈v / unit⌉
        | .rdn => (n : Int) = if neg = true then ⌈v / unit⌉ else ⌊v / unit⌋) ∧
      if valueOf (f.read f.maxCode) < n * unit then
        res.2 = fpxOF ||| fpxNX ∧
        f.read res.1 = (match rm with
          | .rne => .inf neg
          | .rtz => f.read (f.sign neg + f.maxCode)
          | .rup => if neg = true then f.read (f.sign neg + f.maxCode) else .inf neg
          | .rdn => if neg = true then .inf neg else f.read (f.sign neg + f.maxCode))
      else
        isNum (f.read res.1) = true ∧ (f.read res.1).neg? = neg ∧
        valueOf (f.read res.1) = (if neg = true then -1 else 1) * (n * unit) ∧
        res.2 = (if n * unit = v then 0 else if v < 2 ^ (1 - (f.bias : Int)) then fpxNX ||| fpxUF else fpxNX)

/-- Under FTZ a subnormal FP32 operand is read as zero of its sign and every other operand as it is; a non-zero FP32 result below 2^−126 becomes zero with its sign, with UF and NX; every other FP32 result, and every FP16 and BF16 result, is as without FTZ. (R203) -/
def Obligations.FlushToZeroIsFp32Only : Prop :=
  (∀ (a : Word), read32 true a =
    if 0 < a.toNat % 2 ^ 31 ∧ a.toNat % 2 ^ 31 < 2 ^ 23 then .num a.msb 0 (-149) else fF32.read a.toNat) ∧
  (∀ (rm : RM) (neg : Bool) (m : Nat) (e : Int), m ≠ 0 →
    (fF32.roundNum rm true neg m e =
      if (m : ℚ) * 2 ^ e < 2 ^ (-126 : Int) then (fF32.sign neg, fpxUF ||| fpxNX) else fF32.roundNum rm false neg m e) ∧
    fF16.roundNum rm true neg m e = fF16.roundNum rm false neg m e ∧
    fBF16.roundNum rm true neg m e = fBF16.roundNum rm false neg m e)

/-- On finite operands each of FADD, FSUB, FMUL and FFMA answers one rounding of a number whose value is exactly the sum, difference, product, or product plus addend of the values read; an exact zero sum is negative only when both addends are −0, or in RDN unless both are +0. (R213, R223, R200) -/
def Obligations.SumsAndProductsRoundedOnce : Prop :=
  ∀ (rm : RM) (ftz : Bool) (a b c : Word),
    let x := read32 ftz a
    let y := read32 ftz b
    let z := read32 ftz c
    isNum x = true → isNum y = true → isNum z = true →
    (∃ neg m e, fadd32 rm ftz a b = res32 (fF32.roundNum rm ftz neg m e) ∧ valueOf (.num neg m e) = valueOf x + valueOf y ∧
      (m = 0 → neg = (x.neg? && y.neg? && x.isZero && y.isZero || rm == .rdn && !(!x.neg? && !y.neg? && x.isZero && y.isZero)))) ∧
    (∃ neg m e, fsub32 rm ftz a b = res32 (fF32.roundNum rm ftz neg m e) ∧ valueOf (.num neg m e) = valueOf x - valueOf y) ∧
    (∃ neg m e, fmul32 rm ftz a b = res32 (fF32.roundNum rm ftz neg m e) ∧ valueOf (.num neg m e) = valueOf x * valueOf y ∧
      neg = (x.neg? != y.neg?)) ∧
    (∃ neg m e, ffma32 rm ftz a b c = res32 (fF32.roundNum rm ftz neg m e) ∧
      valueOf (.num neg m e) = valueOf x * valueOf y + valueOf z)

/-- FADD, FSUB, FMUL and FDIV with a NaN operand answer the canonical NaN, with NV exactly when a NaN operand is signalling; FMIN and FMAX likewise; ∞ − ∞, 0 × ∞, 0 ÷ 0 and ∞ ÷ ∞ answer the canonical NaN with NV; a finite non-zero value divided by zero answers ∞ with the XOR of the signs and DZ; FSQRT of a negative non-zero value answers the canonical NaN with NV. (R202, R224, R229) -/
def Obligations.NansInvalidsAndZeroDivisors : Prop :=
  ∀ (rm : RM) (ftz mx : Bool) (a b : Word),
    let x := read32 ftz a
    let y := read32 ftz b
    let sig : Fpx := if (x.isSig || y.isSig) = true then fpxNV else 0
    ((x.isNan || y.isNan) = true →
      fadd32 rm ftz a b = (0x7FC00000, sig) ∧ fsub32 rm ftz a b = (0x7FC00000, sig) ∧ fmul32 rm ftz a b = (0x7FC00000, sig) ∧
      fdiv32 rm ftz a b = (0x7FC00000, sig) ∧ fmm32 ftz mx a b = (0x7FC00000, sig)) ∧
    (∀ n, x = .inf n → y = .inf (!n) → fadd32 rm ftz a b = (0x7FC00000, fpxNV)) ∧
    (∀ n, x = .inf n → y = .inf n → fsub32 rm ftz a b = (0x7FC00000, fpxNV)) ∧
    (x.isZero = true → y.isInf = true → fmul32 rm ftz a b = (0x7FC00000, fpxNV)) ∧
    (x.isInf = true → y.isZero = true → fmul32 rm ftz a b = (0x7FC00000, fpxNV)) ∧
    (x.isZero = true → y.isZero = true → fdiv32 rm ftz a b = (0x7FC00000, fpxNV)) ∧
    (x.isInf = true → y.isInf = true → fdiv32 rm ftz a b = (0x7FC00000, fpxNV)) ∧
    (isNum x = true → x.isZero = false → y.isZero = true →
      fdiv32 rm ftz a b = (if (x.neg? != y.neg?) = true then 0xFF800000 else 0x7F800000, fpxDZ)) ∧
    (isNum x = true → x.isZero = false → x.neg? = true → special32 sqrtVal rm ftz a = (0x7FC00000, fpxNV))

/-- On numbers each condition of Table 11.2 holds as the order of their values has it, both zeros being equal, and the infinities lie outside them; with a NaN, EQ, LT, LE, GT, GE and NUM are false and NE and NAN true; NV is set when an operand is a signalling NaN, and by LT, LE, GT and GE when either operand is a NaN. (R225, R231) -/
def Obligations.FloatComparisons : Prop :=
  ∀ (x y : FVal),
    (isNum x = true → isNum y = true →
      fcondTest .eq x y = (decide (valueOf x = valueOf y), 0) ∧ fcondTest .ne x y = (decide (valueOf x ≠ valueOf y), 0) ∧
      fcondTest .lt x y = (decide (valueOf x < valueOf y), 0) ∧ fcondTest .le x y = (decide (valueOf x ≤ valueOf y), 0) ∧
      fcondTest .gt x y = (decide (valueOf x > valueOf y), 0) ∧ fcondTest .ge x y = (decide (valueOf x ≥ valueOf y), 0) ∧
      fcondTest .num x y = (true, 0) ∧ fcondTest .nan x y = (false, 0)) ∧
    ((x.isNan || y.isNan) = true →
      let nv : Fpx := if (x.isSig || y.isSig) = true then fpxNV else 0
      fcondTest .eq x y = (false, nv) ∧ fcondTest .ne x y = (true, nv) ∧ fcondTest .num x y = (false, nv) ∧
      fcondTest .nan x y = (true, nv) ∧ fcondTest .lt x y = (false, fpxNV) ∧ fcondTest .le x y = (false, fpxNV) ∧
      fcondTest .gt x y = (false, fpxNV) ∧ fcondTest .ge x y = (false, fpxNV)) ∧
    (∀ n, x = .inf n → y.isNan = false →
      fcondTest .eq x y = (decide (y = .inf n), 0) ∧ fcondTest .ne x y = (decide (y ≠ .inf n), 0) ∧
      fcondTest .lt x y = (n && decide (y ≠ .inf true), 0) ∧ fcondTest .le x y = (n || decide (y = .inf false), 0) ∧
      fcondTest .gt x y = (!n && decide (y ≠ .inf false), 0) ∧ fcondTest .ge x y = (!n || decide (y = .inf true), 0) ∧
      fcondTest .lt y x = (!n && decide (y ≠ .inf false), 0) ∧ fcondTest .gt y x = (n && decide (y ≠ .inf true), 0) ∧
      fcondTest .num x y = (true, 0) ∧ fcondTest .nan x y = (false, 0))

/-- FADD, FSUB, FMUL, FFMA, FMIN, FMAX, FSETP, FCLASS, PKADD, PKMUL, PKFMA, PKMIN, PKMAX, PKSETP, FSCALE, FRND, DOT2, F2I, I2F, F2F, PACKN, UNPACKN and BSCALE, performed by a thread, write the registers and predicates that their value function gives in the leading thread and its shadow, OR its FPX bits into the team's FPX (the scalar thread's into its own), FTZ in force by modifier or kernel, and the pc advances; nothing else of the state changes. (R222, R223, R224, R225, R203, R204, R205, R230, R231, R232, R234, R239) -/
def Obligations.FloatingPointInstructions : Prop :=
  ∀ (i : Instr) (f : Bool → Regs → Regs × Fpx), floatRule i = some f → ComputesF i f

/-- IDIV and IREM with the quotient and remainder truncated toward zero and R181's values for a zero divisor (48 cycles), FRCP, FRSQ, FSQRT, FEXP2 and FLOG2 (24), FSIN and FCOS (32) and FDIV (40) start a flag-setting operation that holds the result for D, in the leading thread and for its shadow, and the pc advances; D itself and everything else is unchanged until it completes. (R181, R229, R223, R50, R51, R52) -/
def Obligations.SpecialFunctionsAndDivision : Prop :=
  ∀ (g : Guard) (fs ftz u : Bool) (rm : RM) (d a : XReg) (b : Src),
    let x := fun r : Regs => if u = true then ((r.x32 a).toNat : Int) else (r.x32 a).toInt
    let y := fun r : Regs => if u = true then ((b.val r).toNat : Int) else (b.val r).toInt
    let sg : Sign := if u = true then .u else .s
    Starts (.idiv g fs sg d a b) fs 48 (fun _ r =>
      laterF d (if y r = 0 then 0xFFFFFFFF else BitVec.ofInt 32 ((x r).tdiv (y r)), 0)) ∧
    Starts (.irem g fs sg d a b) fs 48 (fun _ r =>
      laterF d (if y r = 0 then r.x32 a else BitVec.ofInt 32 ((x r).tmod (y r)), 0)) ∧
    Starts (.frcp g fs ftz rm d a) fs 24 (fun z r => laterF d (special32 rcpVal rm (ftz || z) (r.x32 a))) ∧
    Starts (.frsq g fs ftz rm d a) fs 24 (fun z r => laterF d (special32 rsqVal rm (ftz || z) (r.x32 a))) ∧
    Starts (.fsqrt g fs ftz rm d a) fs 24 (fun z r => laterF d (special32 sqrtVal rm (ftz || z) (r.x32 a))) ∧
    Starts (.fexp2 g fs ftz rm d a) fs 24 (fun z r => laterF d (special32 exp2Val rm (ftz || z) (r.x32 a))) ∧
    Starts (.flog2 g fs ftz rm d a) fs 24 (fun z r => laterF d (special32 log2Val rm (ftz || z) (r.x32 a))) ∧
    Starts (.fsin g fs ftz rm d a) fs 32 (fun z r => laterF d (special32 sinVal rm (ftz || z) (r.x32 a))) ∧
    Starts (.fcos g fs ftz rm d a) fs 32 (fun z r => laterF d (special32 cosVal rm (ftz || z) (r.x32 a))) ∧
    Starts (.fdiv g fs ftz rm d a b) fs 40 (fun z r => laterF d (fdiv32 rm (ftz || z) (r.x32 a) (b.val r)))

/-- FMTRD writes its grid's format-slot descriptor; QBLK and DQBLK, performed by a thread whose slot describes a block with an E2M1 format, write the codes and side word, or the elements, that R208 and R209 give, with their FPX bits, and with another slot they trap with FORMAT_SLOT; I2I writes the low bits extended, or with SAT the nearer bound with SAT and NX; nothing else changes where no trap is taken. (R233, R240, R241, R242, R208, R209) -/
def Obligations.BlocksFormatSlotsAndI2i : Prop :=
  ∀ (g : Guard) (ftz uin : Bool) (fmt : IFmt) (d a c : XReg) (k : FSlot) (tg : ITarget) (s : State) (t : Tid) (th : Thread),
    let slot := s.slotOf t k
    let z := ftz || s.ftzd t
    let q := fun r : Regs => quantise (slotSpec slot) (blockSources fmt z (r.xs a (if fmt = .f32 then 32 else 16)))
    let wrote := fun (i : Instr) (f : Regs → Regs × Fpx) => ∃ s', exec i s = .next s' ∧
      s' = { s with threads := s'.threads, teams := s'.teams } ∧
      s'.thread? t = some { th.advance with
        regs := (f th.regs).1, shadow := th.shadow.map fun r => (f r).1
        fpx := if th.isScalar = true then th.fpx ||| (f th.regs).2 else th.fpx } ∧
      (∀ u, u ≠ t → s'.thread? u = s.thread? u) ∧ FpxInto t (f th.regs).2 s s'
    (Lone s (.fmtrd g d k) t th → wrote (.fmtrd g d k) (fun r => (r.set32 d slot, 0))) ∧
    (Lone s (.qblk g ftz fmt d a c k) t th → slotE2m1 slot = true →
      wrote (.qblk g ftz fmt d a c k) (fun r =>
        ((r.setXs d.toNat (packCodes 4 (q r).1)).set32 c (BitVec.ofNat 32 (q r).2.1), (q r).2.2))) ∧
    (Lone s (.qblk g ftz fmt d a c k) t th → slotE2m1 slot = false →
      exec (.qblk g ftz fmt d a c k) s = .next (s.raise t .formatSlot (k.setWidth 64))) ∧
    (Lone s (.dqblk g ftz fmt d a c k) t th → slotE2m1 slot = true →
      wrote (.dqblk g ftz fmt d a c k) (fun r =>
        (r.setXs d.toNat (dequantise (slotSpec slot) z fmt (r.xs a 4) (r.x32 c)).1,
          (dequantise (slotSpec slot) z fmt (r.xs a 4) (r.x32 c)).2))) ∧
    (Lone s (.dqblk g ftz fmt d a c k) t th → slotE2m1 slot = false →
      exec (.dqblk g ftz fmt d a c k) s = .next (s.raise t .formatSlot (k.setWidth 64))) ∧
    (Lone s (.i2i g false uin tg d a) t th → wrote (.i2i g false uin tg d a) (fun r =>
      (r.set32 d (match tg with
        | .s8 => ((r.x32 a).setWidth 8).signExtend 32
        | .u8 => ((r.x32 a).setWidth 8).setWidth 32
        | .s16 => ((r.x32 a).setWidth 16).signExtend 32
        | .u16 => ((r.x32 a).setWidth 16).setWidth 32
        | .s32 | .u32 => r.x32 a), 0))) ∧
    (Lone s (.i2i g true uin tg d a) t th → wrote (.i2i g true uin tg d a) (fun r =>
      let v : Int := if uin = true then (r.x32 a).toNat else (r.x32 a).toInt
      let lo : Int := match tg with
        | .s8 => -128 | .s16 => -2 ^ 15 | .s32 => -2 ^ 31 | _ => 0
      let hi : Int := match tg with
        | .s8 => 127 | .u8 => 255 | .s16 => 2 ^ 15 - 1 | .u16 => 2 ^ 16 - 1 | .s32 => 2 ^ 31 - 1 | .u32 => 2 ^ 32 - 1
      (r.set32 d (BitVec.ofInt 32 (max lo (min v hi))), if lo ≤ v ∧ v ≤ hi then 0 else fpxSAT ||| fpxNX)))

/-! ### Control flow (08) -/

/-- BRA goes to BranchTarget, BRX and RET to the address in the pair A, CALL and CALLX write the sequential successor to the pair D, every source being read before, and go to their target; NOP only goes on; in every lane whose guard is true, the others going on; nothing else of the state changes. (R150, R152, R153, R165) -/
def Obligations.TransfersOfControl : Prop :=
  ∀ (g : Guard) (d a : XReg) (off : Word) (slot : Slot),
    let branch := fun th : Thread => BitVec.ofInt 64 ((th.pc.toNat / 64 * 64 : Nat) + off.toInt * 64 + slot.toNat)
    Computes (.nop g) (fun r => r) ∧
    Jumps (.bra g off slot) branch (fun _ r => r) ∧
    Jumps (.brx g a) (fun th => th.regs.x64 a) (fun _ r => r) ∧
    Jumps (.ret g a) (fun th => th.regs.x64 a) (fun _ r => r) ∧
    Jumps (.call g d off slot) branch (fun th r => r.set64 d (successor th.pc)) ∧
    Jumps (.callx g d a) (fun th => th.regs.x64 a) (fun th r => r.set64 d (successor th.pc))

/-- On a group of a team that is there: JSET writes MASK with v AND LIVE and leaves ARR unless the join is then satisfied with an arrival, when ARR becomes 0; JLEAVE takes the lanes out of MASK and ARR, with the same test; an arrival adds the lanes that MASK holds to ARR; Release sets ARR to 0, leaves MASK and sends one completion, as one release set, to each lane of ARR outside S that waits at the join with no completion on its way; LIVE and every other join stay as they are. (R156, R157, R158, R159, R160, R161, R162) -/
def Obligations.JoinUnitOperations : Prop :=
  ∀ (s : State) (c g k grp n : Nat) (v : Word) (tm : Team), s.team? c g k = some tm → grp < tm.groups.length →
    n < (tm.group grp).mask.length → n < (tm.group grp).arr.length →
    let x := s.groupOf c g k grp
    let waits := fun t : Tid => match s.thread? t with
      | some th => match th.wait with
        | .join j _ => j == n && th.pend != 0 && !th.woken
        | _ => false
      | none => false
    let same := fun s' : State => (s'.groupOf c g k grp).live = x.live ∧
      ∀ m, m ≠ n → (s'.groupOf c g k grp).maskOf m = x.maskOf m ∧ (s'.groupOf c g k grp).arrOf m = x.arrOf m
    (let s' := s.joinSet c g k grp n v
     (s'.groupOf c g k grp).maskOf n = v &&& x.live ∧
     (s'.groupOf c g k grp).arrOf n = (if x.arrOf n ≠ 0 ∧ (v &&& x.live) &&& ~~~(x.arrOf n) = 0 then 0 else x.arrOf n) ∧ same s') ∧
    (let s' := s.joinLeave c g k grp n v
     (s'.groupOf c g k grp).maskOf n = x.maskOf n &&& ~~~v ∧
     (s'.groupOf c g k grp).arrOf n =
       (if (x.maskOf n &&& ~~~v) &&& ~~~(x.arrOf n &&& ~~~v) = 0 then 0 else x.arrOf n &&& ~~~v) ∧ same s') ∧
    (let q := s.joinArrive c g k grp n v
     (q.1.groupOf c g k grp).maskOf n = x.maskOf n ∧ (q.1.groupOf c g k grp).arrOf n = x.arrOf n ||| (v &&& x.maskOf n) ∧ same q.1 ∧
     q.2.1 = v &&& x.maskOf n ∧
     q.2.2 = decide (v &&& x.maskOf n ≠ 0 ∧ x.maskOf n &&& ~~~(x.arrOf n ||| (v &&& x.maskOf n)) = 0)) ∧
    (let s' := s.joinRelease c g k grp n v
     (s'.groupOf c g k grp).maskOf n = x.maskOf n ∧ (s'.groupOf c g k grp).arrOf n = 0 ∧ same s' ∧
     s'.compl = s.compl ++ ((((List.range 32).filter fun l => (x.arrOf n).getLsbD l && !v.getLsbD l).map (Tid.thr c g k grp)).filter waits).map
       fun t => { t, xs := [], p := none, cause := none, set := some s.nextSeq })

/-- For a thread of a group that alone performs the instruction, outside regions and with its shadow in agreement: JSET performs the join unit's operation with the lane's bit, the immediate or the register; JLEAVE takes the lane out; JWAIT of a lane outside MASK only goes on; JWAIT that satisfies the join on the team's core releases the others and goes on; JWAIT that does not parks the thread as a JOIN record with one completion outstanding at its successor; EXIT takes the lane out of LIVE and of every join and ends the thread. (R157, R158, R159, R161, R164) -/
def Obligations.JoinInstructionsOfOneLane : Prop :=
  ∀ (s : State) (gd : Guard) (j : JReg) (m : Word) (a : XReg) (c g k grp l : Nat) (th : Thread),
    let t := Tid.thr c g k grp l
    let x := s.groupOf c g k grp
    let bit : Word := BitVec.ofNat 32 (2 ^ l)
    let n := j.toNat
    Quiet th →
    (Lone s (.jset gd j .issue) t th → exec (.jset gd j .issue) s = .next ((s.joinSet c g k grp n bit).advance t)) ∧
    (Lone s (.jset gd j (.imm m)) t th → exec (.jset gd j (.imm m)) s = .next ((s.joinSet c g k grp n m).advance t)) ∧
    (Lone s (.jset gd j (.reg a)) t th → exec (.jset gd j (.reg a)) s = .next ((s.joinSet c g k grp n (th.regs.x32 a)).advance t)) ∧
    (Lone s (.jleave gd j) t th → exec (.jleave gd j) s = .next ((s.joinLeave c g k grp n bit).advance t)) ∧
    (Lone s (.jwait gd j) t th → l < 32 → (x.maskOf n).getLsbD l = false →
      exec (.jwait gd j) s = .next ((s.joinArrive c g k grp n bit).1.advance t) ∧ bit &&& x.maskOf n = 0) ∧
    (Lone s (.jwait gd j) t th → l < 32 → (x.maskOf n).getLsbD l = true →
      (s.joinArrive c g k grp n bit).2.2 = true → th.core = th.home →
      exec (.jwait gd j) s = .next (((s.joinArrive c g k grp n bit).1.joinRelease c g k grp n bit).advance t)) ∧
    (Lone s (.jwait gd j) t th → l < 32 → (x.maskOf n).getLsbD l = true →
      (s.joinArrive c g k grp n bit).2.2 = false → MayPark s t th (s.standing th) →
      exec (.jwait gd j) s = .next ((s.joinArrive c g k grp n bit).1.park t (successor th.pc) (s.standing th) (.join n th.pc) 1 [] none)) ∧
    (Lone s (.exit gd) t th → exec (.exit gd) s = .next ((s.joinExit c g k grp bit).endThread t))

/-- BRK and TRAP of a thread outside handler mode and run-ahead deliver BREAKPOINT and SOFT_TRAP with the 16-bit code as information, the sequential successor as the address to return to and the instruction itself as the source; HINT of a thread with a live-range index that its kernel has, outside an aborted gang and with no pre-emption request covering it, or in handler mode, or the scalar thread's, only goes on; covered by a request, outside handler mode and regions, it hands the thread to the save engine as an extended record that resumes at the successor with the registers HINT names. (R166, R408, R399) -/
def Obligations.BreakpointsTrapsAndHints : Prop :=
  ∀ (s : State) (g : Guard) (code : BitVec 16) (plive : Bool) (range : BitVec 8) (live : DWord) (t : Tid) (th : Thread),
    (Lone s (.brk g code) t th → th.inRunAhead = false → th.h.hmode = false →
      exec (.brk g code) s = .next (s.deliver t 0 .breakpoint (code.setWidth 64) (successor th.pc) th.pc 0)) ∧
    (Lone s (.trap g code) t th → th.inRunAhead = false → th.h.hmode = false →
      exec (.trap g code) s = .next (s.deliver t 0 .softTrap (code.setWidth 64) (successor th.pc) th.pc 0)) ∧
    (Lone s (.hint g plive range live) t th →
      (range = 0xFF ∨ ∃ ker, s.kernelOf t = some ker ∧ range.toNat < ker.ranges.length) → s.gangAborted t = false →
      ((th.h.hmode = true ∨ th.isScalar = true ∨ s.covered t = false) →
        exec (.hint g plive range live) s = .next (s.advance t)) ∧
      (th.h.hmode = false → th.isScalar = false → s.covered t = true → th.regions = [] →
        exec (.hint g plive range live) s = .next (s.saveExtended t (successor th.pc) live plive
          (if range = 0xFF then none else some range.toNat) false)))

/-! ### Cross-lane instructions (12) -/

/-- For one cross-lane set with a participant: every source is read in every participant before any destination is written; SHFL reads Xa of the lane that its mode, segment width and amount name, with Pe 1, or its own Xc (FILL) or Xa with Pe 0; VOTE combines one predicate of every participant in its four forms; MATCH writes the mask of participants with the same value, or for ALL the mask of all or 0, with Pe; ELECT marks the lowest participant; LANEMASK writes its seven kinds; the shadows act on the shadows' registers; no other thread, and nothing else of the state, changes. (R248, R249, R250, R251, R252) -/
def Obligations.CrossLaneExchange : Prop :=
  ∀ (g : Guard) (fill : Option XReg) (wid : BitVec 3) (mode : ShflMode) (d a : XReg) (b : Src) (e pa : PReg)
      (neg w64 : Bool) (kind : LaneKind),
    let none0 : Bool → List (Nat × Regs) → Fpx := fun _ _ => 0
    let val := fun r : Regs => if w64 = true then (r.x64 a).toNat else (r.x32 a).toNat
    let least := fun p : List (Nat × Regs) => ((p.map (·.1)).min?).getD 0
    (wid.toNat ≤ 5 → SetDoes (.shfl g fill wid mode d a b e) (fun _ p lane r =>
      let n := (b.val r).toNat % 32
      let w := 2 ^ (5 - wid.toNat)
      let base := lane - lane % w
      let src := match mode with
        | .lane => some (base + n % w)
        | .back => if n ≤ lane ∧ base ≤ lane - n then some (lane - n) else none
        | .ahead => if lane + n < base + w then some (lane + n) else none
        | .mirror => some (base + ((lane - base) ^^^ (n % w)))
      match src.bind fun l => laneX p l a with
      | some v => (r.set32 d v).setP e true
      | none => (r.set32 d (match fill with
          | some c => r.x32 c
          | none => r.x32 a)).setP e false) none0) ∧
    SetDoes (.vote g neg (.every e) pa) (fun _ p _ r => r.setP e (p.all fun q => q.2.pr pa ^^ neg)) none0 ∧
    SetDoes (.vote g neg (.any e) pa) (fun _ p _ r => r.setP e (p.any fun q => q.2.pr pa ^^ neg)) none0 ∧
    SetDoes (.vote g neg (.same e) pa) (fun _ p _ r =>
      r.setP e (p.all (fun q => q.2.pr pa ^^ neg) || p.all fun q => !(q.2.pr pa ^^ neg))) none0 ∧
    SetDoes (.vote g neg (.mask d) pa) (fun _ p _ r =>
      r.set32 d (maskOfLanes ((p.filter fun q => q.2.pr pa ^^ neg).map (·.1)))) none0 ∧
    SetDoes (.matchx g w64 none d a) (fun _ p _ r =>
      r.set32 d (maskOfLanes ((p.filter fun q => val q.2 == val r).map (·.1)))) none0 ∧
    SetDoes (.matchx g w64 (some e) d a) (fun _ p _ r =>
      if (p.all fun q => val q.2 == val r) = true then (r.set32 d (maskOfLanes (p.map (·.1)))).setP e true
      else (r.set32 d 0).setP e false) none0 ∧
    SetDoes (.elect g none e) (fun _ p lane r => r.setP e (lane == least p)) none0 ∧
    SetDoes (.elect g (some d) e) (fun _ p lane r => (r.setP e (lane == least p)).set32 d (BitVec.ofNat 32 (least p))) none0 ∧
    SetDoes (.lanemask g kind d) (fun _ p lane r => r.set32 d (match kind with
      | .self => maskOfLanes [lane]
      | .below => maskOfLanes (List.range lane)
      | .thru => maskOfLanes (List.range (lane + 1))
      | .above => ~~~maskOfLanes (List.range (lane + 1))
      | .onward => ~~~maskOfLanes (List.range lane)
      | .parts => maskOfLanes (p.map (·.1))
      | .others => maskOfLanes ((p.map (·.1)).filter (· != lane)))) none0

/-- For one cross-lane set with a participant: REDUX writes in every participant the combination of the lane values in the tree of R214, the identity of Table 12.5 standing for a non-participant; SCAN writes the prefix of R215, over the values or with EXCL over the values moved one lane up, the first position's value as an operand reads: flushed under FTZ, a NaN canonical (R202, R203); both OR the FPX bits of every node into FPX; REDIX writes the value and index of an entry that no participant's entry precedes in the order of Table 12.6, the lower index winning among equals, and sets NV for a signalling NaN; no other thread, and nothing else of the state, changes. (R214, R215, R253, R254, R255, R256) -/
def Obligations.ReductionsAndScans : Prop :=
  ∀ (g : Guard) (ftz mx : Bool) (op : RedOp) (ty : RedixTy) (xi : Option XReg) (d a : XReg),
    let vals := fun (p : List (Nat × Regs)) (l : Nat) => (laneX p l a).getD (redIdentity op)
    let up := fun (p : List (Nat × Regs)) (l : Nat) => if l = 0 then redIdentity op else vals p (l - 1)
    let flags := fun (f : Word → Word → FRes) (v : Nat → Word) => (List.range 5).foldl (fun x k => x ||| prefixFlags f v k) 0
    SetDoes (.redux g ftz op d a) (fun z p _ r => r.set32 d (treeNode (redCombine op (ftz || z)) (vals p) 5 0).1)
      (fun z p => (treeNode (redCombine op (ftz || z)) (vals p) 5 0).2) ∧
    SetDoes (.scan g false ftz op d a) (fun z p lane r =>
        r.set32 d (if lane = 0 then scanOwn op (ftz || z) (vals p 0) else prefixAt (redCombine op (ftz || z)) (vals p) 5 lane))
      (fun z p => flags (redCombine op (ftz || z)) (vals p)) ∧
    SetDoes (.scan g true ftz op d a) (fun z p lane r =>
        r.set32 d (if lane = 0 then scanOwn op (ftz || z) (redIdentity op) else prefixAt (redCombine op (ftz || z)) (up p) 5 lane))
      (fun z p => flags (redCombine op (ftz || z)) (up p)) ∧
    (∀ (z : Bool) (v : Word), op = .fadd ∨ op = .fmin ∨ op = .fmax → scanOwn op z v = match read32 z v with
      | .nan _ => 0x7FC00000
      | .num n m _e => if m = 0 then (if n = true then 0x80000000 else 0) else v
      | .inf _ => v) ∧
    (∃ pick : Bool → List (Nat × Regs) → Word × Word,
      SetDoes (.redix g ftz xi mx ty d a) (fun z p _ r => r.setXs d.toNat [(pick z p).1, (pick z p).2])
        (fun _ p => if ty = .f32 ∧ ∃ q ∈ p, (fF32.read (q.2.x32 a).toNat).isSig = true then fpxNV else 0) ∧
      ∀ z p, p ≠ [] →
        let entry := fun q : Nat × Regs => (q.2.x32 a, match xi with
          | some b => q.2.x32 b
          | none => BitVec.ofNat 32 q.1)
        ∃ q ∈ p, pick z p = (redixOut ty (ftz || z) (entry q).1, (entry q).2) ∧
          ∀ q' ∈ p, redixBetter mx ty (ftz || z) (entry q').1 (entry q).1 = false ∧
            (redixBetter mx ty (ftz || z) (entry q).1 (entry q').1 = false → (entry q).2.toNat ≤ (entry q').2.toNat))

/-! ### Memory (13 to 15) -/

/-- On 4 bytes: ADD wraps, MIN and MAX compare signed, UMIN and UMAX unsigned, AND, OR, XOR and EXCH are those of the bits, INC gives 0 from the operand upwards and else one more, DEC gives the operand at 0 and above it and else one less, CAS gives its third operand where old equals the second, FADD, FMIN, FMAX and the packed additions are the instructions' results without flushing and rounded to nearest even; on 8 bytes: the integer ones; every result fits its size. (R310, R313, R224) -/
def Obligations.AtomicOperations : Prop :=
  (∀ (old b c : Word) (x : XReg),
    let new := fun op => BitVec.ofNat 32 (atomNew op 4 old.toNat b.toNat c.toNat)
    new .add = old + b ∧ new .min = (if b.slt old = true then b else old) ∧ new .max = (if old.slt b = true then b else old) ∧
    new .umin = (if b.ult old = true then b else old) ∧ new .umax = (if old.ult b = true then b else old) ∧
    new .and = old &&& b ∧ new .or = old ||| b ∧ new .xor = old ^^^ b ∧ new .exch = b ∧
    new .inc = (if b.ule old = true then 0 else old + 1) ∧
    new .dec = (if old = 0 ∨ b.ult old = true then b else old - 1) ∧
    new (.cas x) = (if old = b then c else old) ∧
    new .fadd = (fadd32 .rne false old b).1 ∧ new .fmin = (fmm32 false false old b).1 ∧ new .fmax = (fmm32 false true old b).1 ∧
    new .pkaddh = (pkadd32 false .rne old b).1 ∧ new .pkaddb = (pkadd32 true .rne old b).1 ∧
    ∀ op, atomNew op 4 old.toNat b.toNat c.toNat < 2 ^ 32) ∧
  ∀ (old b c : DWord) (x : XReg),
    let new := fun op => BitVec.ofNat 64 (atomNew op 8 old.toNat b.toNat c.toNat)
    new .add = old + b ∧ new .min = (if b.slt old = true then b else old) ∧ new .max = (if old.slt b = true then b else old) ∧
    new .umin = (if b.ult old = true then b else old) ∧ new .umax = (if old.ult b = true then b else old) ∧
    new .and = old &&& b ∧ new .or = old ||| b ∧ new .xor = old ^^^ b ∧ new .exch = b ∧
    new (.cas x) = (if old = b then c else old)

/-- LDS, STS and ATOMS raise AWAY_ACCESS on a core other than the team's, then MISALIGNED with the offset when it is no multiple of the size, then SCRATCH_RANGE when the bytes leave the team's scratchpad; LDC, ST, ATOMC, RED, CASC, LR and SC raise MISALIGNED with the address when it is no multiple of the size, then WINDOW_MISS when the context's windows, those that the thread's regions hold for it among them, do not translate it; in every such case nothing else of the instruction happens. An access that would end the segment of a thread that writes records, its core having room for the request, raises LIVE_LIMIT instead when the standing set and its destinations hold more than 16 registers, and POOL_FULL at the context rung when no level of the pool has room; nothing else of the access happens. (R306, R132, R259, R261, R129, R135) -/
def Obligations.AccessTraps : Prop :=
  (∀ (s : State) (t : Tid) (th : Thread) (g : Guard) (fs sx : Bool) (hint : BitVec 2) (sz : Size) (op : AtomOp) (d b c : XReg) (m : MemOp)
      (e : PReg) (i : Instr) (ctx : Ctx) (base size : Nat),
    let off := scratchOff th.regs m
    let va := effAddr th.regs m
    Lone s i t th →
    (i = .lds g fs sx sz d m ∨ i = .sts g fs sz d m ∨ i = .atoms g fs op sz d m b →
      (s.away th = true → exec i s = .next (s.raise t .awayAccess 0)) ∧
      (s.away th = false → s.scratchOf t = some (base, size) →
        (off % sz.bytes ≠ 0 → exec i s = .next (s.raise t .misaligned (BitVec.ofInt 64 off))) ∧
        (off % sz.bytes = 0 → (off < 0 ∨ (size : Int) < off + sz.bytes) →
          exec i s = .next (s.raise t .scratchRange (BitVec.ofInt 64 off))))) ∧
    (∀ p : Perm,
      (i = .ldc g sx hint sz d m ∨ i = .lr g sz d m) ∧ p = .read ∨
      (i = .st g hint sz d m ∨ i = .red g op sz d m ∨ i = .sc g sz d m e) ∧ p = .write ∨
      (i = .atomc g op sz d m b ∨ i = .casc g sz d m b c) ∧ p = .rmw →
      s.viewCtx th = some ctx →
      (va.toNat % sz.bytes ≠ 0 → exec i s = .next (s.raise t .misaligned va)) ∧
      (va.toNat % sz.bytes = 0 → translateVA ctx va sz.bytes p = none → exec i s = .next (s.raise t .windowMiss va)))) ∧
  (∀ (s : State) (t : Tid) (th : Thread) (g : Guard) (sx : Bool) (hint : BitVec 2) (sz : Size) (d : XReg) (m : MemOp) (ctx : Ctx)
      (q : Nat × Option Nat),
    let va := effAddr th.regs m
    let live := unionRegs (s.standing th) (destRegs d sz)
    Lone s (.ldc g sx hint sz d m) t th → Quiet th → th.inPlace = false → s.requestRoom th.core = true →
    s.ctx? (s.ctxOf t) = some ctx → va.toNat % sz.bytes = 0 → translateVA ctx va sz.bytes .read = some q →
    (16 < live.length → exec (.ldc g sx hint sz d m) s = .next (s.raise t .liveLimit 0)) ∧
    (live.length ≤ 16 → s.makeRoom th.core = none →
      exec (.ldc g sx hint sz d m) s = .next (s.deliver t 2 .poolFull 0 th.pc th.pc 0)))

/-- On the team's core, at an aligned offset inside the team's scratchpad, outside regions, with no earlier access or engine command to wait for, no uncorrectable word and no barrier object among the bytes: LDS begins a flag operation of bound 48 with the bytes as register words, little-endian, extended as the form says; STS writes the low bytes of its data registers there and begins one of bound 48 with no result; ATOMS writes the operation's new value and begins one of bound 96 with the old value; no other byte of memory and no register or flag changes. (R306, R308, R309, R310) -/
def Obligations.ScratchpadAccesses : Prop :=
  ∀ (s : State) (t : Tid) (th : Thread) (g : Guard) (fs sx : Bool) (sz : Size) (op : AtomOp) (d b : XReg) (m : MemOp) (base size : Nat),
    let off := scratchOff th.regs m
    let n := sz.bytes
    let a := base + off.toNat
    let k := s.core th.core
    let bytes := (List.range n).map fun j => k.scr.get (a + j)
    let dest := (List.range sz.regs).map fun j => d.toNat + j
    Quiet th → th.inject = none → Calm s t → s.away th = false → s.scratchOf t = some (base, size) →
    off % n = 0 → 0 ≤ off → off + n ≤ size → k.scr.wf = true → (∀ w ∈ k.scrBad, ¬ (4 * w < a + n ∧ a < 4 * w + 4)) →
    (Lone s (.lds g fs sx sz d m) t th → ∃ s', exec (.lds g fs sx sz d m) s = .next s' ∧
      Begins t fs 48 (dest.zip (loadWords n sx bytes)) [] s s') ∧
    ((∀ x, a ≤ x → x < a + n → s.isObj th.core (x / 16 * 16) = false) →
      (Lone s (.sts g fs sz d m) t th → ∃ s1 s', exec (.sts g fs sz d m) s = .next s' ∧
        ScratchWritten th.core a (storeBytes th.regs d sz) s s1 ∧ Begins t fs 48 [] [] s1 s') ∧
      (Lone s (.atoms g fs op sz d m b) t th → sz = .b4 ∨ sz = .b8 → ∃ s1 s', exec (.atoms g fs op sz d m b) s = .next s' ∧
        ScratchWritten th.core a (bytesOfNat n (atomNew op n (natOfBytes bytes) (dataNat th.regs b sz)
          (casOperand op th.regs sz))) s s1 ∧
        Begins t fs 96 (dest.zip (loadWords n false bytes)) [] s1 s'))

/-- At an aligned address that the windows translate with the permission it needs (read; for ATOMC and CASC read and write), outside regions, with no earlier side-log entry and no engine command: the segment ends with the standing set and the destination registers saved, one completion outstanding, resuming at the successor, and the access goes to the home, ATOMC's and CASC's with the operands as they stand; behind a side-log entry the access waits in the log instead. While the core has as many requests under way as Table 1.2 allows, the thread stays at the instruction. (R311, R313, R314, R272, R129, R133, R8) -/
def Obligations.LoadsAndAtomics : Prop :=
  ∀ (s : State) (t : Tid) (th : Thread) (g : Guard) (sx : Bool) (hint : BitVec 2) (sz : Size) (op : AtomOp) (d b c : XReg) (m : MemOp)
      (ctx : Ctx) (ia : Nat) (peer : Option Nat),
    let va := effAddr th.regs m
    let dest := destRegs d sz
    let live := unionRegs (s.standing th) dest
    let parked := s.park t (successor th.pc) live .memory 1 dest none
    let ask := parked.request t ia peer
    let wait := fun o : SideOp => parked.pushLog (parked.coreOf t) { t, ia, peer, op := o, held := false }
    let v := dataNat th.regs b sz
    s.ctx? (s.ctxOf t) = some ctx → va.toNat % sz.bytes = 0 → MayEnd s t th live → (∀ k ∈ s.cores, k.slots = []) →
    (s.requestRoom th.core = false →
      (translateVA ctx va sz.bytes .read = some (ia, peer) →
        (Lone s (.ldc g sx hint sz d m) t th → exec (.ldc g sx hint sz d m) s = .next s) ∧
        (Lone s (.lr g sz d m) t th → exec (.lr g sz d m) s = .next s)) ∧
      (translateVA ctx va sz.bytes .rmw = some (ia, peer) →
        (Lone s (.atomc g op sz d m b) t th → exec (.atomc g op sz d m b) s = .next s) ∧
        (Lone s (.casc g sz d m b c) t th → exec (.casc g sz d m b c) s = .next s))) ∧
    (s.requestRoom th.core = true → translateVA ctx va sz.bytes .read = some (ia, peer) →
      (parked.logging t = false →
        (Lone s (.ldc g sx hint sz d m) t th → exec (.ldc g sx hint sz d m) s = .next (ask (.load sz.bytes sx))) ∧
        (Lone s (.lr g sz d m) t th → exec (.lr g sz d m) s = .next (ask (.lr sz.bytes)))) ∧
      (parked.logging t = true →
        (Lone s (.ldc g sx hint sz d m) t th → exec (.ldc g sx hint sz d m) s = .next (wait (.load sz.bytes sx))) ∧
        (Lone s (.lr g sz d m) t th → exec (.lr g sz d m) s = .next (wait (.lr sz.bytes))))) ∧
    (s.requestRoom th.core = true → translateVA ctx va sz.bytes .rmw = some (ia, peer) →
      (parked.logging t = false →
        (Lone s (.atomc g op sz d m b) t th → exec (.atomc g op sz d m b) s = .next (ask (.atomic op sz.bytes v 0))) ∧
        (Lone s (.casc g sz d m b c) t th → exec (.casc g sz d m b c) s = .next (ask (.atomic (.cas 0) sz.bytes v (dataNat th.regs c sz))))) ∧
      (parked.logging t = true →
        (Lone s (.atomc g op sz d m b) t th → exec (.atomc g op sz d m b) s = .next (wait (.atomic op sz.bytes v 0))) ∧
        (Lone s (.casc g sz d m b c) t th → exec (.casc g sz d m b c) s = .next (wait (.atomic (.cas 0) sz.bytes v (dataNat th.regs c sz))))))

/-- A thread outside handler mode that is not the scalar thread and has no flag operation in flight, ending its segment with completions outstanding, becomes a parked record: every X register outside the live set reads 0, the others and the predicates keep their values, pc is the resume address, PEND, the wait kind and the destinations are as asked, the reservation, an armed injection and a guest block go, the record is team-bound exactly when it holds a tile or its kernel has scratchpad and LFREE is 0; a thread in a handler or the scalar thread keeps all its registers and its place, and issues nothing until the completions arrive; no other thread, no memory and no context, grid or team changes. (R129, R130, R131, R122, R143, R390, R294) -/
def Obligations.SegmentEnds : Prop :=
  ∀ (s : State) (t : Tid) (th : Thread) (resume : DWord) (live : List Nat) (wait : Wait) (pend : Nat) (dest : List Nat) (destP : Option Nat),
    s.thread? t = some th → th.ops = [] → pend ≠ 0 →
    let s' := s.park t resume live wait pend dest destP
    s' = { s with threads := s'.threads, cores := s'.cores } ∧
    (∀ u, u ≠ t → s'.thread? u = s.thread? u) ∧
    (∀ c, s'.core c = { s.core c with entries := (s'.core c).entries }) ∧
    ∃ x, s'.thread? t = some x ∧ x.pc = resume ∧ x.segpc = th.pc ∧ x.wait = wait ∧ x.pend = pend ∧ x.dest = dest ∧ x.destP = destP ∧
      x.resv = none ∧ x.inject = none ∧ x.regs.p = th.regs.p ∧ x.tile = th.tile ∧ x.h = th.h ∧ x.regions = th.regions ∧
      (th.inPlace = true → x.regs = th.regs ∧ x.shadow = th.shadow ∧ x.loc = th.loc ∧ x.hold = true ∧ s'.cores = s.cores) ∧
      (th.inPlace = false → x.loc = .parked ∧ x.hold = false ∧ x.guest = false ∧ x.level = 0 ∧ x.live = live ∧
        x.regs.x.length = th.regs.x.length ∧ x.shadow = th.shadow.map (fun r => r.keepOnly live) ∧
        (∀ n : Nat, getAt 0 x.regs.x n = if n ∈ live then getAt 0 th.regs.x n else 0) ∧
        (x.tb = true ↔ th.tile.isSome = true ∨ th.whole = true ∨
          ∃ ker, s.kernelOf t = some ker ∧ 0 < ker.scratch ∧ th.lfree = false) ∧
        ∀ c, ∀ e ∈ (s'.core c).entries, c = th.core → t ∉ e.ts)

/-- With no engine command under way and the IA mapped to module memory, a load answers its record with the bytes there as register words, or, when the line is poisoned or its check value is not that of the IA, with zeros and UNCORRECTABLE at the IA; no byte of memory changes; LR also places the thread's reservation on the line and moves the line's write lease to the thread's stack; an atomic on a sound line writes the operation's new value, sets DIRTY, clears other threads' reservations of the line and answers the old value; on another it writes nothing and answers zeros with UNCORRECTABLE. (R311, R313, R314, R278, R294, R267) -/
def Obligations.AccessesAtTheHome : Prop :=
  ∀ (s : State) (t : Tid) (th : Thread) (ia pa n b c : Nat) (sx : Bool) (op : AtomOp),
    s.thread? t = some th → (∀ k ∈ s.cores, k.slots = []) → s.mem.wf = true →
    let bytes := (List.range n).map fun j => s.mem.get (pa + j)
    let bad := s.lineBad ia pa
    let answer := fun (ws : List Word) => if bad = true
      then s.compl ++ [{ t, xs := th.dest.map fun r => (r, 0), p := none, cause := some (.uncorrectable, BitVec.ofNat 64 ia), set := none }]
      else s.compl ++ [{ t, xs := th.dest.zip ws, p := none, cause := none, set := none }]
    (s.route ia false = .to (.mem pa) →
      (let s' := s.request t ia none (.load n sx)
       s' = { s with tlb := s'.tlb, ticks := s'.ticks, threads := s'.threads, compl := answer (loadWords n sx bytes) } ∧
       (∃ p, s'.thread? t = some { th with pts := p }) ∧ ∀ u, u ≠ t → s'.thread? u = s.thread? u) ∧
      (let s' := s.request t ia none (.lr n)
       s' = { s with
         tlb := s'.tlb, ticks := s'.ticks, threads := s'.threads, compl := answer (loadWords n false bytes)
         leases := (ia / 64, s.dieOf th.core) :: s.leases.filter fun x => x.1 != ia / 64 } ∧
       (∃ p, s'.thread? t = some { th with pts := p, resv := some ⟨ia / 64, none, s.cycle⟩ }) ∧ ∀ u, u ≠ t → s'.thread? u = s.thread? u)) ∧
    (s.route ia true = .to (.mem pa) → n < 64 →
      let s' := s.request t ia none (.atomic op n b c)
      (bad = true → s' = { s with tlb := s'.tlb, compl := answer [] }) ∧
      (bad = false → s'.compl = answer (loadWords n false bytes) ∧
        LineWritten t ia pa (bytesOfNat n (atomNew op n (natOfBytes bytes) b c)) s { s' with compl := s.compl }))

/-- With no engine command under way, a load of system memory goes to its port and one through a PEER window or a KIND 2 leaf to its peer, the leaf's page marked dirty by an atomic, unless an active subscription serves it; LR and atomics go to the peer's unit, and in the system domain complete with ATOMIC_DOMAIN and zeros; an access that faults, or whose page migrates, is held at its home, a fault being reported unless one of its granule and kind has been while an access that faulted there is held. (R259, R267, R271, R274, R275, R296, R313, R320) -/
def Obligations.AccessesElsewhere : Prop :=
  ∀ (s : State) (t : Tid) (th : Thread) (ia n port addr mod : Nat) (sx : Bool) (o : HeldOp) (kind : FaultKind) (lvl : Nat) (e : DWord),
    s.thread? t = some th → (o = .lr n ∨ ∃ op b c, o = .atomic op n b c) → (∀ k ∈ s.cores, k.slots = []) → s.mem.wf = true →
    let told := s.holdsFault (ia / 4096) && s.reported.contains (ia / 4096, kind)
    let sent := fun (q : HeldOp) (dest : Dest) => s.out ++ [{ t, core := th.core, dest, op := q, seq := s.nextSeq, late := false }]
    let held := fun (q : HeldOp) (k : Option FaultKind) =>
      s.held ++ [{ who := .thread t, ctx := s.ctxOf t, ia, op := q, kind := k }]
    (s.route ia false = .to (.sys port addr) →
      s.request t ia none (.load n sx) =
        { s with out := sent (.load n sx) (.sys port addr), nextSeq := s.nextSeq + 1, tlb := (s.keepTranslation ia).tlb }) ∧
    (s.route ia (!o.isRead) = .to (.sys port addr) →
      s.request t ia none o = { s with compl := s.compl ++
        [{ t, xs := th.dest.map fun r => (r, 0), p := none, cause := some (.atomicDomain, BitVec.ofNat 64 ia), set := none }] }) ∧
    (let s' := s.request t ia (some mod) o
     s' = { s with out := sent o (.peer mod ia), nextSeq := s.nextSeq + 1, threads := s'.threads } ∧
     ∃ r, s'.thread? t = some { th with remote := r }) ∧
    (s.subFor t mod ia n = none →
      let s' := s.request t ia (some mod) (.load n sx)
      s' = { s with out := sent (.load n sx) (.peer mod ia), nextSeq := s.nextSeq + 1, threads := s'.threads }) ∧
    (∀ q, q = o ∨ (q = .load n sx ∧ s.subFor t mod addr n = none) → s.route ia (!q.isRead) = .to (.peer mod addr) →
      let s' := s.request t ia none q
      s' = { s with
        out := s.out ++ [{ t, core := th.core, dest := .peer mod addr, op := q, seq := s.nextSeq, hops := 1, late := false }]
        nextSeq := s.nextSeq + 1, threads := s'.threads, tlb := s'.tlb, mem := s'.mem } ∧
      (∀ x, s'.mem.get x = if q.isRead = true then s.mem.get x else dirtied s ia x) ∧
      ∃ r, s'.thread? t = some { th with remote := r }) ∧
    (∀ b, s.subFor t mod ia n = some b → b.active = true ∧ s.request t ia (some mod) (.load n sx) = { s with compl := s.compl ++
        [{ t, xs := th.dest.zip (loadWords n sx (b.copy.read ia n)), p := none, cause := none, set := none }] }) ∧
    (s.route ia (!o.isRead) = .blocked → s.request t ia none o = { s with held := held o none }) ∧
    (s.route ia (!o.isRead) = .fault kind lvl e →
      let s' := s.request t ia none o
      s' = { s with held := held o (some kind), reported := s'.reported, work := s'.work } ∧
      (told = true → s'.work = s.work ∧ s'.reported = s.reported) ∧
      (told = false → s'.work = s.work ++ [.fault (s.ctxOf t) (ia / 64 * 64) kind o.accKind lvl e] ∧ (ia / 4096, kind) ∈ s'.reported ∧
        ∀ r, r.1 ≠ ia / 4096 → (r ∈ s'.reported ↔ r ∈ s.reported)))

/-- At an aligned address that the windows translate with write permission, outside regions, with no earlier side-log entry and no engine command, the thread goes on at the successor and the write is performed: to module memory the data's bytes, for RED on a sound line the operation's new value, DIRTY set in the leaf and other threads' reservations cleared, no other byte changing; through a PEER window it is sent to the peer; while the core has as many requests under way as Table 1.2 allows the thread stays at the instruction; one that faults, or whose page migrates, enters the side log while the log has room, and behind an entry of the thread's it joins the log. (R312, R313, R271, R272, R278, R281, R296, R8) -/
def Obligations.StoresAndReductions : Prop :=
  ∀ (s : State) (t : Tid) (th : Thread) (g : Guard) (hint : BitVec 2) (sz : Size) (op : AtomOp) (d : XReg) (m : MemOp) (ctx : Ctx)
      (ia pa mod : Nat) (peer : Option Nat) (i : Instr) (e : Eff),
    let va := effAddr th.regs m
    let n := sz.bytes
    let k := th.core
    let data := storeBytes th.regs d sz
    let bytes := (List.range n).map fun j => s.mem.get (pa + j)
    let room := decide (((s.core k).sidelog.filter SideEnt.takesPlace).length < 256)
    let log := fun held : Bool => s.pushLog k { t, ia, peer, op := .write e, held }
    Lone s i t th → Quiet th → (∀ c ∈ s.cores, c.slots = []) → s.mem.wf = true →
    s.ctx? (s.ctxOf t) = some ctx → va.toNat % n = 0 → translateVA ctx va n .write = some (ia, peer) →
    (i = .st g hint sz d m ∧ e = .store ia peer data ∨ i = .red g op sz d m ∧ e = .red op ia peer n (dataNat th.regs d sz)) →
    (s.logging t = false → s.requestRoom k = false → (∃ x, peer = some x) ∨ s.route ia true = .to (.mem pa) → exec i s = .next s) ∧
    (s.logging t = false → s.requestRoom k = true → peer = none → s.route ia true = .to (.mem pa) →
      (i = .st g hint sz d m → ∃ s' : State, exec i s = .next (s'.advance t) ∧ LineWritten t ia pa data s s') ∧
      (i = .red g op sz d m → s.lineBad ia pa = true → ∃ s' : State, exec i s = .next (s'.advance t) ∧
        s' = { s with threads := s'.threads } ∧ ∀ u, s'.thread? u = s.thread? u) ∧
      (i = .red g op sz d m → s.lineBad ia pa = false → ∃ s' : State, exec i s = .next (s'.advance t) ∧
        LineWritten t ia pa (bytesOfNat n (atomNew op n (natOfBytes bytes) (dataNat th.regs d sz) 0)) s s')) ∧
    (s.logging t = false → s.requestRoom k = true → peer = some mod →
      exec i s = .next (State.advance { s with
        out := s.out ++ [{ t, core := k, dest := .peer mod ia, op := .write e, seq := s.nextSeq, late := false }]
        nextSeq := s.nextSeq + 1 } t)) ∧
    (s.logging t = false → room = true → peer = none → s.route ia true = .blocked → exec i s = .next ((log true).advance t)) ∧
    (s.logging t = false → room = true → peer = none → ∀ f l x, s.route ia true = .fault f l x →
      ∃ r w, exec i s = .next (State.advance { log true with reported := r, work := w } t) ∧
        ((s.holdsFault (ia / 4096) && s.reported.contains (ia / 4096, f)) = true → w = s.work) ∧
        ((s.holdsFault (ia / 4096) && s.reported.contains (ia / 4096, f)) = false →
          w = s.work ++ [.fault (s.ctxOf t) (ia / 64 * 64) f .store l x])) ∧
    (s.logging t = true → room = true → exec i s = .next ((log false).advance t)) ∧
    (s.logging t = true → room = false → exec i s = .next s)

/-- SC at an aligned address that the windows translate with write permission fails at once behind a side-log entry of the thread (its predicate 0, the reservation gone, the thread at the successor); otherwise, outside regions, it stays resident at the successor's address and issues nothing until its unit answers; the answer for a module-memory line on which the thread still holds its reservation writes the data, sets the predicate and clears the reservation; without the reservation, where the access faults, or in the system domain, it writes nothing and clears the predicate, the system domain raising ATOMIC_DOMAIN at the thread's next instruction. (R294, R306, R315, R324, R271, R272) -/
def Obligations.StoreConditional : Prop :=
  ∀ (s : State) (t : Tid) (th : Thread) (g : Guard) (sz : Size) (d : XReg) (m : MemOp) (e : PReg) (ctx : Ctx) (ia : Nat) (peer : Option Nat),
    let va := effAddr th.regs m
    let data := storeBytes th.regs d sz
    let wrote := fun (b : Bool) (x : Thread) =>
      { x with regs := x.regs.setP e b, shadow := x.shadow.map fun r => r.setP e b, resv := none }
    (Lone s (.sc g sz d m e) t th → Quiet th →
      s.ctx? (s.ctxOf t) = some ctx → va.toNat % sz.bytes = 0 → translateVA ctx va sz.bytes .write = some (ia, peer) →
      (s.logging t = true → ∃ s', exec (.sc g sz d m e) s = .next s' ∧ LanesDo [t] (fun x => wrote false x.advance) s s') ∧
      (s.logging t = false → ∃ s', exec (.sc g sz d m e) s = .next { s' with resWait := s.resWait ++ [.sc t ia peer data e.toNat] } ∧
        LanesDo [t] (fun x => { x.advance with hold := true, segpc := x.pc }) s s')) ∧
    (s.thread? t = some th → s.resWait.find? (ResWait.isSc t) = some (.sc t ia none data e.toNat) →
      (∀ k ∈ s.cores, k.slots = []) → s.mem.wf = true → ∃ s', exec (.scAnswer t) s = .next s' ∧
      (∀ pa, s.route ia true = .to (.mem pa) → s'.resWait = s.resWait.filter (fun w => !w.isSc t) ∧
        (s.holdsLine t (ia / 64) none = false → s'.mem = s.mem ∧ s'.thread? t = some { wrote false th with hold := false }) ∧
        (s.holdsLine t (ia / 64) none = true →
          (∀ x, s'.mem.get x = if pa ≤ x ∧ x < pa + data.length then data.getD (x - pa) 0 else dirtied s ia x) ∧
          ∃ p, s'.thread? t = some { wrote true th with hold := false, pts := p })) ∧
      (∀ port x, s.route ia true = .to (.sys port x) → s'.mem = s.mem ∧
        s'.thread? t = some { wrote false th with hold := false, next := some (.atomicDomain, BitVec.ofNat 64 ia) }) ∧
      ∀ f l x, s.route ia true = .fault f l x →
        s'.mem = s.mem ∧ s'.thread? t = some { wrote false th with hold := false } ∧
        ((s.holdsFault (ia / 4096) && s.reported.contains (ia / 4096, f)) = false →
          s'.work = s.work ++ [.fault (s.ctxOf t) (ia / 64 * 64) f .store l x]))

/-- Outside regions: FENCE with nothing outstanding in its domain only goes on, with something leaves a marker in the side log and goes on, and with the log full stays where it is; PREF only goes on, but for the lease and the translation a home keeps; SUBS writes 3 for a bad region, 2 when the window is no PEER window, 1 when the die's table is full, the entries that regions hold for it counted, and else adds an inactive subscription, asks its home for it and writes 0; UNSUB removes the context's subscriptions of the die that begin at the address; STM, the core having room for requests, sends one write to each member of its mask, in rising order, with the record's place and tag, and goes on; this module's own write it makes at once, only its arrival going out. (R317, R318, R319, R320, R322, R300) -/
def Obligations.FencesPrefetchSubscriptionsMulticast : Prop :=
  ∀ (s : State) (t : Tid) (th : Thread) (g : Guard) (dom : FenceDom) (lvl : PrefLevel) (sz : Size) (d b c : XReg) (m : MemOp) (ctx : Ctx),
    let va := effAddr th.regs m
    let k := th.core
    let die := s.dieOf k
    let len := (th.regs.x32 b).toNat
    let room := decide (((s.core k).sidelog.filter SideEnt.takesPlace).length < 256)
    let table := (s.die die).subs
    Quiet th → s.ctx? (s.ctxOf t) = some ctx →
    (Lone s (.fence g dom) t th →
      (s.domainBusy t dom = false → exec (.fence g dom) s = .next (s.advance t)) ∧
      (s.domainBusy t dom = true → room = true →
        exec (.fence g dom) s = .next ((s.pushLog k { t, ia := 0, peer := none, op := .marker dom, held := false }).advance t)) ∧
      (s.domainBusy t dom = true → room = false → exec (.fence g dom) s = .next s)) ∧
    (Lone s (.pref g lvl m) t th → ∃ s1 s', exec (.pref g lvl m) s = .next s' ∧ s1 = { s with tlb := s1.tlb, ticks := s1.ticks } ∧
      LanesDo [t] Thread.advance s1 s') ∧
    (Lone s (.subs g d m b) t th → s.logging t = false →
      let bad := va.toNat % 64 ≠ 0 ∨ len % 64 ≠ 0 ∨ len = 0 ∨ 2 ^ 20 < len
      let answers := fun (st : Word) (s1 : State) => ∃ s', exec (.subs g d m b) s = .next s' ∧
        LanesDo [t] (fun x => { x.advance with regs := x.regs.set32 d st, shadow := x.shadow.map fun r => r.set32 d st }) s1 s'
      (bad → answers 3 s) ∧
      (¬ bad → translateVA ctx va len .read = none → exec (.subs g d m b) s = .next (s.raise t .windowMiss va)) ∧
      ∀ ia peer, ¬ bad → translateVA ctx va len .read = some (ia, peer) →
        (peer = none → answers 2 s) ∧
        (∀ mod, peer = some mod → 256 ≤ s.subCount die → answers 1 s) ∧
        ∀ mod, peer = some mod → s.subCount die < 256 →
          ∃ s1, answers 0 s1 ∧ s1 = { s with dies := s1.dies, messages := s.messages ++ [HostMsg.subscribe die table.length mod] } ∧ (∀ n, n ≠ die → s1.die n = s.die n) ∧
            s1.die die = { s.die die with subs := table ++ [{ ctx := s.ctxOf t, ia, len, mod, active := false, copy := [] }] }) ∧
    (Lone s (.unsub g m) t th → s.logging t = false →
      (translateVA ctx va 1 .read = none → exec (.unsub g m) s = .next (s.advance t)) ∧
      ∀ ia peer, translateVA ctx va 1 .read = some (ia, peer) →
        ∃ s1 : State, exec (.unsub g m) s = .next (s1.advance t) ∧ s1 = { s with dies := s1.dies } ∧ (∀ n, n ≠ die → s1.die n = s.die n) ∧
          s1.die die = { s.die die with subs := table.filter fun x => !(x.ctx == s.ctxOf t && x.ia == ia) }) ∧
    (Lone s (.stm g sz d m b c) t th → s.logging t = false → s.requestRoom k = true → ∀ (ia pa base size : Nat) (peer : Option Nat),
      let off := (th.regs.x32 c).toNat
      let mask := th.regs.x64 b
      let bits := (List.range 64).filter fun i => mask.getLsbD i
      let live := fun j : Nat => (getAt 0 ctx.mcast j).getLsbD 31
      let module := fun j : Nat => (getAt 0 ctx.mcast j).toNat % 4096
      let own := bits.any fun j => live j && module j == s.modid
      let data := storeBytes th.regs d sz
      let tag := natOfBytes ((s.core k).scr.read (base + off + 8) 2)
      let sent := fun s1 : State => exec (.stm g sz d m b c) s = .next (State.advance { s1 with
        out := s.out ++ (bits.zip (seqFrom s.nextSeq bits.length)).map fun q =>
          { t, core := k
            dest := if live q.1 = false then .group else if module q.1 = s.modid then .mem 0 else .peer (module q.1) ia
            op := .write (.stm ia data (BitVec.ofNat 64 (2 ^ q.1)) (base + off) tag), seq := q.2, late := false }
        nextSeq := s.nextSeq + bits.length } t)
      va.toNat % sz.bytes = 0 → translateVA ctx va sz.bytes .write = some (ia, peer) →
      s.away th = false → s.scratchOf t = some (base, size) → off % 32 = 0 → off + 32 ≤ size →
      (own = false → sent s) ∧
      (own = true → s.route ia true = .to (.mem pa) → (∀ q ∈ s.cores, q.slots = []) → s.mem.wf = true →
        ∃ s1 : State, sent s1 ∧
          s1 = { s with
            mem := s1.mem, poison := s1.poison, lineIa := s1.lineIa, tlb := s1.tlb, ticks := s1.ticks, leases := s1.leases
            threads := s1.threads, messages := s1.messages } ∧
          (∀ u y, s.thread? u = some y → ∃ p r, s1.thread? u = some { y with pts := p, resv := r }) ∧
          ∀ x, s1.mem.get x = if pa ≤ x ∧ x < pa + data.length then data.getD (x - pa) 0 else dirtied s ia x))

/-! ### Engines, barriers and queues (16) -/

/-- A descriptor fails with ENGINE_FORMAT when a field that Tables 16.1 to 16.3 reserve or leave unused for its kind is not 0, a code is illegal, LEN or an alignment breaks Table 16.2, or BAR is neither none nor a multiple of 16; then with AWAY_ACCESS when it names scratchpad and the thread has none to name (or the thread is a scalar thread without a team); then with SCRATCH_RANGE and the offset when a scratchpad range, the barrier's 16 bytes among them, reaches past SCRATCH; then with WINDOW_MISS and the address when the windows do not translate the source, then the destination (GATH's source and SCAT's destination span NIDX elements); a range of no bytes is not checked (the model's choice, log 31); otherwise it is accepted with the addresses that the windows give. (R325, R326, R331) -/
def Obligations.DescriptorChecks : Prop :=
  ∀ (c : Option Ctx) (run : Option Nat) (away : Bool) (k : Nat) (d : EngDesc),
    let w := d.word
    let fl := d.word 7
    let len := d.word 4
    let elem := d.kind = .gath ∨ d.kind = .scat
    let sp := fl.testBit 0
    let dp := fl.testBit 1
    let size := 2 ^ (fl / 2 ^ 8 % 16)
    let format :=
      (sp = true → w 1 = 0) ∧ (dp = true → w 3 = 0) ∧ (w 5 = 0xFFFFFFFF ∨ w 5 % 16 = 0) ∧ fl / 2 ^ 12 % 16 = 0 ∧
      (¬ elem → fl / 2 ^ 16 % 2 ^ 16 = 0 ∧ (d.kind ≠ .coll → fl / 2 ^ 8 % 16 = 0)) ∧ (d.kind ≠ .coll → fl / 2 ^ 4 % 16 = 0) ∧
      (elem → fl / 2 ^ 8 % 16 ≤ 4 ∧ len % size = 0) ∧
      (d.kind = .cpy → w 6 = 0) ∧
      (d.kind = .fill → sp = false ∧ w 1 = 0 ∧ w 6 = 0 ∧ len % 4 = 0 ∧ w 2 % 4 = 0) ∧
      (d.kind = .cpyr → sp = false ∧ w 0 = 0 ∧ w 1 = 0 ∧ w 6 = 0 ∧ len = 128 * k) ∧
      (d.kind = .mxs → sp = false ∧ dp = true ∧ w 0 % 512 = 0 ∧ w 2 % 512 = 0 ∧ w 6 = 0 ∧ len % 512 = 0) ∧
      (d.kind = .coll → fl / 2 ^ 8 % 16 ≤ 3 ∧ fl / 2 ^ 4 % 16 ≤ 5 ∧ w 6 < 4 ∧ len % 4 = 0)
    let noTeam := away = true ∨ ((sp = true ∨ dp = true ∨ w 5 ≠ 0xFFFFFFFF ∨ elem) ∧ run = none)
    let from_ := if d.kind = .gath then w 6 * size else len
    let to_ := if d.kind = .scat then w 6 * size else len
    let ranges : List (Nat × Nat × Bool) :=
      (if sp = true then [(w 0, from_, true)] else []) ++ (if dp = true then [(w 2, to_, false)] else []) ++
      (if w 5 = 0xFFFFFFFF then [] else [(w 5, 16, false)]) ++
      (if elem then [(fl / 2 ^ 16 % 2 ^ 16 * 16, 4 * (len / size), decide (d.kind = .gath))] else [])
    let past := fun r : Nat × Nat × Bool => r.2.1 ≠ 0 ∧ run.getD 0 < r.1 + r.2.1
    let tr := fun (va : DWord) (n : Nat) (p : Perm) => if n = 0 then some (0, none) else c.bind fun c => translateVA c va n p
    let reads := d.kind ≠ .fill ∧ d.kind ≠ .cpyr ∧ sp = false
    let r := checkDesc c run away k d
    (¬ format → ∃ b, r = .error ⟨.engineFormat, 0, b⟩) ∧
    (format → noTeam → r = .error ⟨.awayAccess, 0, false⟩) ∧
    (format → ¬ noTeam → (∃ q ∈ ranges, past q) → ∃ q ∈ ranges, past q ∧ r = .error ⟨.scratchRange, BitVec.ofNat 64 q.1, q.2.2⟩) ∧
    (format → ¬ noTeam → (∀ q ∈ ranges, ¬ past q) →
      (reads → tr (d.va 0) from_ .read = none → r = .error ⟨.windowMiss, d.va 0, true⟩) ∧
      ((reads → tr (d.va 0) from_ .read ≠ none) → dp = false → tr (d.va 2) to_ .write = none → r = .error ⟨.windowMiss, d.va 2, false⟩) ∧
      ((reads → tr (d.va 0) from_ .read ≠ none) → (dp = false → tr (d.va 2) to_ .write ≠ none) →
        ∃ a b, r = .ok { d with srcIa := a, dstIa := b } ∧
          (reads → a = tr (d.va 0) from_ .read) ∧ (¬ reads → a = none) ∧
          (dp = false → b = tr (d.va 2) to_ .write) ∧ (dp = true → b = none)))

/-- A thread that performs one of them with a descriptor that fails raises the check's cause and issues nothing (every participant of a CPYR set does); with one that passes, outside regions and with nothing of the thread (for CPYR, of any participant) in the side log, the command is performed with the TAG that the object at BAR holds (none when BAR is none), and for CPYR with the lowest participant's descriptor and k registers of every participant; then every participant goes on at the successor; COLL first raises COLLECTIVE_EXCLUDED or GANG_ABORT where its membership or gang has dropped the thread; without a free slot nothing changes and the instruction is tried again. (R326, R327, R331, R334, R105, R376) -/
def Obligations.EngineCommands : Prop :=
  (∀ (s : State) (t : Tid) (th : Thread) (g : Guard) (a : XReg) (i : Instr) (kind : EngKind),
    (i = .cpy g a ∧ kind = .cpy ∨ i = .gath g a ∧ kind = .gath ∨ i = .scat g a ∧ kind = .scat ∨ i = .fill g a ∧ kind = .fill ∨
      i = .mxs g a ∧ kind = .mxs ∨ i = .coll g a ∧ kind = .coll) →
    Lone s i t th → Quiet th →
    let run := if s.away th = true then none else s.scratchOf t
    let r := checkDesc (s.ctx? (s.ctxOf t)) (run.map (·.2)) (th.isScalar && s.away th) 0 (descOf kind th.regs a)
    (∀ e, r = .error e → exec i s = .next (s.raise t e.cause e.info)) ∧
    (∀ d c x, r = .ok d → s.logging t = false → kind = .coll → s.collGate t (d.word 6 % 4) = some (c, x) →
      exec i s = .next (s.raise t c x)) ∧
    (∀ d, r = .ok d → Calm s t → (kind = .coll → s.collGate t (d.word 6 % 4) = none ∧ s.gangState t ≠ some .uncommitted) →
      let tag := d.bar.map fun b => natOfBytes ((s.core th.core).scr.read ((run.map (·.1)).getD 0 + b + 8) 2)
      exec i s = .next (State.advance (s.perform t (.command { d with tag })) t)) ∧
    (∀ d, r = .ok d → s.logging t = false → kind ≠ .coll → d.bar = none → s.freeSlot th.core = none → exec i s = .next s)) ∧
  ∀ (s : State) (t : Tid) (th : Thread) (rest : List Tid) (g : Guard) (a b : XReg) (k : BitVec 4),
    let i : Instr := .cpyr g a b k
    let n := k.toNat + 1
    s.issue = t :: rest → Ready s i → OneSet s →
    (∀ u ∈ s.issue, ∃ x, s.thread? u = some x ∧ performs i x = true ∧ Quiet x) → s.thread? t = some th →
    let run := if s.away th = true then none else s.scratchOf t
    let r := checkDesc (s.ctx? (s.ctxOf t)) (run.map (·.2)) (th.isScalar && s.away th) n (descOf .cpyr th.regs a)
    (∀ e, r = .error e → exec i s = .next (s.issue.foldl (fun s u => s.raise u e.cause e.info) s)) ∧
    (∀ d, r = .ok d → Calm s t → (∀ u ∈ s.issue, s.logging u = false) →
      let tag := d.bar.map fun x => natOfBytes ((s.core th.core).scr.read ((run.map (·.1)).getD 0 + x + 8) 2)
      let regs := s.issue.map fun u => (Tid.lane u, (s.regsOf false u).xs b n)
      exec i s = .next (s.issue.foldl State.advance (s.perform t (.command { d with tag, regs }))))

/-- A command issued while none is under way takes slot 0 of the core in RUNNING, with the issuer, the team's run, the issuer's tick and the cycle, every thread losing its reservation of a destination line; one that delivers no byte ends at once and, with EVQ 0, posts nothing. A FILL into scratchpad with no barrier, alone in the module, writes at its next line write the bytes of that line in the order of its pattern, no other byte of the scratchpad changing, and remembers the line, or ends with status 0 when it was the last; a FILL to memory whose next line faults stalls there, the access held at its home for XRESOLVE, and writes nothing. (R326, R327, R328, R330, R339, R272, R294) -/
def Obligations.CommandsRun : Prop :=
  (∀ (s : State) (t : Tid) (th : Thread) (d : EngDesc),
    s.thread? t = some th → (∀ k ∈ s.cores, k.slots = []) → d.kind ≠ .coll →
    let tm := s.teamOf t
    let team := if th.core = th.home ∨ th.isScalar = true then tm else none
    let c : Command :=
      { slot := 0, ctx := s.ctxOf t, grid := (tm.map (·.grid)).getD (Tid.gridNum t), team := team.map (·.num), who := t, tslot := s.tslot th, q := none
        d, done := [], discarded := false, st := .running, coll := none, result := none, dropped := false, buffer := []
        scr := (team.map (·.scr)).getD 0, arrived := 0, seq := s.nextSeq, pts := th.pts, since := s.cycle }
    let s' := s.perform t (.command d)
    (d.total ≠ 0 →
      s' = { s with nextSeq := s.nextSeq + 1, cores := s'.cores, threads := s'.threads } ∧
      (∀ k, s'.core k = { s.core k with slots := if k = th.core then [c] else (s.core k).slots }) ∧
      ∀ u x, s.thread? u = some x → ∃ v, s'.thread? u = some { x with resv := v } ∧ (v = none ∨ v = x.resv) ∧
        ∀ ia p y, d.kind = .cpy → d.dstSp = false → d.dstIa = some (ia, p) → x.resv = some y →
          (y.peer = p → 64 * y.line < ia + d.len → ia < 64 * y.line + 64 → v = none) ∧
          (v = none → ∃ a, ia ≤ a ∧ a < ia + d.len ∧ s.endLine (.ia p) (a / 64) = s.endLine (.ia y.peer) y.line)) ∧
    (d.total = 0 → d.evq = false →
      s' = { s with nextSeq := s.nextSeq + 1, cores := s'.cores, held := s.held.filter fun h => h.who != .engine th.core 0 } ∧
      ∀ k, s'.core k = s.core k)) ∧
  ∀ (s : State) (core slot u : Nat) (c : Command),
    s.commands = [(core, c)] → s.command? core slot = some c → c.st = .running → c.d.kind = .fill → c.d.bar = none → c.d.evq = false →
    c.discarded = false → c.dropped = false → c.nextUnit s core = some u → s.held = [] →
    let dst := c.dstBase
    let lo := max dst (64 * u)
    let hi := min (dst + c.d.len) (64 * u + 64)
    (c.d.dstSp = true → (s.core core).scr.wf = true → (∀ x, s.isObj core x = false) →
      ∃ s', exec (.engineLineWrite core slot) s = .next s' ∧ s' = { s with cores := s'.cores } ∧
        (∀ x, (s'.core core).scr.get x = if lo ≤ x ∧ x < hi then BitVec.ofNat 8 (c.d.word 0 / 2 ^ (8 * ((x - dst) % 4)))
          else (s.core core).scr.get x) ∧
        (s'.command? core slot = none ∨ s'.command? core slot = some { c with done := u :: c.done, arrived := c.arrived + (hi - lo) })) ∧
    (c.d.dstSp = false → ∀ ia k l e, c.d.dstIa = some (ia, none) → s.route lo true = .fault k l e →
      ∃ s', exec (.engineLineFault core slot) s = .next s' ∧
        s' = { s with cores := s'.cores, held := s'.held, reported := s'.reported, work := s'.work } ∧
        s'.command? core slot = some { c with st := .stalled lo true } ∧
        s'.held = [{ who := .engine core slot, ctx := c.ctx, ia := lo, op := .engine true, kind := some k }])

/-- On the team's core, with an offset that is a multiple of 16 and 16 bytes inside the team's scratchpad, outside regions and with nothing to wait for: BINIT raises ENGINE_FORMAT when bits 31 to 17 of its tag word are not 0 and else sets TARGET, TAG and FLAGS with ARRIVED and STATUS 0 in one write and goes on; BARR makes one arrival without a tag check and goes on; BWAIT goes on when the object is released for its tag and else ends its segment, waiting for the tag with one completion outstanding and resuming at the successor, PARKED one higher. (R338, R335, R306) -/
def Obligations.BarrierInstructions : Prop :=
  ∀ (s : State) (t : Tid) (th : Thread) (g : Guard) (m : MemOp) (b c : XReg) (base size : Nat),
    let off := scratchOff th.regs m
    let k := th.core
    let a := base + off.toNat
    let n := (th.regs.x32 b).toNat
    let w := (th.regs.x32 c).toNat
    let v := s.objAt k a
    Quiet th → Calm s t → s.away th = false → s.scratchOf t = some (base, size) → off % 16 = 0 → 0 ≤ off → off + 16 ≤ size →
    (Lone s (.binit g m b c) t th →
      (w / 2 ^ 17 ≠ 0 → exec (.binit g m b c) s = .next (s.raise t .engineFormat 0)) ∧
      (w / 2 ^ 17 = 0 → exec (.binit g m b c) s = .next ((s.binitAt k a n (w % 2 ^ 16) (w / 2 ^ 16)).advance t))) ∧
    (Lone s (.barr g m b) t th → exec (.barr g m b) s = .next ((s.arrive k a n none 0).1.advance t)) ∧
    (Lone s (.bwait g m b) t th →
      let tag := n % 2 ^ 16
      let released := v / 2 ^ 64 % 2 ^ 16 = tag ∧ v % 2 ^ 32 ≤ v / 2 ^ 32 % 2 ^ 32
      (released → exec (.bwait g m b) s = .next (s.advance t)) ∧
      (¬ released → MayEnd s t th (unionRegs (s.standing th) []) →
        exec (.bwait g m b) s = .next ((s.park t (successor th.pc) (unionRegs (s.standing th) []) (.barrier a tag) 1 [] none).scrRaw
          k (a + 12) (bytesOfNat 4 (v / 2 ^ 96 % 2 ^ 32 + 1)))))

/-- An arrival whose tag is not the object's changes nothing and does not count; any other adds its bytes to ARRIVED modulo 2^32 and writes its code to a STATUS of 0. BINIT writes TARGET, ARRIVED 0, TAG, STATUS 0 and FLAGS. Both leave PARKED and every other byte; afterwards, while ARRIVED is below TARGET nothing else happens; once it is not, and RELPOST is 0, every record of the run's own team that waits on the object for its tag gets a completion, all in one release set in ascending lane order, PARKED falls by their number, and no other thread changes. (R335, R336, R337, R338) -/
def Obligations.BarrierObjects : Prop :=
  ∀ (s : State) (core off bytes code target tag flags : Nat) (et : Option Nat), (s.core core).scr.wf = true → off % 16 = 0 →
    let old := fun i n => natOfBytes ((s.core core).scr.read (off + i) n)
    let woke := fun tg : Nat => (s.threads.filter fun x => s.waitsOn x core off == some tg).map (·.id)
    -- the object's twelve bytes after the write, and what follows
    let becomes := fun (tgt arr tg st fl : Nat) (s' : State) =>
      let new := bytesOfNat 12 (tgt + arr * 2 ^ 32 + tg * 2 ^ 64 + st * 2 ^ 80 + fl * 2 ^ 88)
      (arr < tgt ∨ fl % 2 = 0 →
        (∀ c, s'.core c = { s.core c with scr := (s'.core c).scr, scrBad := (s'.core c).scrBad, objs := (s'.core c).objs }) ∧
        ∀ c, c ≠ core → s'.core c = s.core c) ∧
      (∀ x, x < off + 12 ∨ off + 16 ≤ x → (s'.core core).scr.get x = if off ≤ x ∧ x < off + 12 then new.getD (x - off) 0 else (s.core core).scr.get x) ∧
      (arr < tgt → s' = { s with cores := s'.cores } ∧ (s'.core core).scr.read (off + 12) 4 = (s.core core).scr.read (off + 12) 4) ∧
      (tgt ≤ arr → fl % 2 = 0 →
        s' = { s with cores := s'.cores, threads := s'.threads, compl := s'.compl, nextSeq := s'.nextSeq } ∧
        s'.compl = s.compl ++ (sortLanes (woke tg)).map (fun t => { t, xs := [], p := none, cause := none, set := some s.nextSeq }) ∧
        (woke tg ≠ [] → (s'.core core).scr.read (off + 12) 4 = bytesOfNat 4 (old 12 4 - (woke tg).length)) ∧
        ∀ u x, s.thread? u = some x → s'.thread? u = some (if u ∈ woke tg then { x with woken := true } else x))
    (∀ x, et = some x → x ≠ old 8 2 → s.arrive core off bytes et code = (s, false)) ∧
    ((et = none ∨ et = some (old 8 2)) → code < 256 → (s.arrive core off bytes et code).2 = true ∧
      becomes (old 0 4) ((old 4 4 + bytes) % 2 ^ 32) (old 8 2) (if code ≠ 0 ∧ old 10 1 = 0 then code else old 10 1) (old 11 1)
        (s.arrive core off bytes et code).1) ∧
    (target < 2 ^ 32 → tag < 2 ^ 16 → flags < 256 → becomes target 0 tag 0 flags (s.binitAt core off target tag flags))

/-- On the team's core a queue bound NONE raises QUEUE_UNBOUND with its number. On a bound queue, outside regions and with nothing of the thread in the side log: QPUSH begins a flag operation of bound 24 whose predicate is 1 when the push side had fewer than 16 entries, the entry then standing last in it (in the one FIFO of a LOOP queue), and else 0 with the queue unchanged; QPOP and QPOP.NB take the oldest result-side entry into eight registers, QPOP.NB with its predicate 1; on an empty result side QPOP ends its segment waiting for the queue with the eight registers as destinations, and QPOP.NB writes zeros and 0; QSTAT writes both occupancies and KIND; nothing else changes. (R341, R342, R130) -/
def Obligations.QueueInstructions : Prop :=
  ∀ (s : State) (t : Tid) (th : Thread) (g : Guard) (fs : Bool) (q : QReg) (d a : XReg) (e : PReg) (tm : Team),
    let tq := tm.queue q.toNat
    let loop := tq.kind = 7
    let dest := seqFrom d.toNat 8
    let queues := fun tq' : TQueue => s.modTeam tm.ctx tm.grid tm.num fun x => { x with queues := setAt x.queues q.toNat tq' }
    let wrote := fun (ws : List Word) (p : Option Bool) (x : Thread) =>
      let put := fun r : Regs => match p with
        | some b => (r.setXs d.toNat ws).setP e b
        | none => r.setXs d.toNat ws
      { x.advance with regs := put x.regs, shadow := x.shadow.map put }
    Quiet th → s.away th = false → s.teamOf t = some tm → s.team? tm.ctx tm.grid tm.num = some tm → s.logging t = false →
    (tq.kind = 0 → ∀ i, (i = .qpush g fs q a e ∨ i = .qpop g d q ∨ i = .qpopNb g d q e ∨ i = .qstat g d q) → Lone s i t th →
      exec i s = .next (s.raise t .queueUnbound (q.setWidth 64))) ∧
    (tq.kind ≠ 0 →
      (Lone s (.qpush g fs q a e) t th →
        let n := if loop then tq.result.length else tq.push.length
        let own := if loop then [] else [pusherWord t]
        (16 ≤ n → ∃ s', exec (.qpush g fs q a e) s = .next s' ∧ Begins t fs 24 [] [(e.toNat, false)] s s') ∧
        (n < 16 → s.queuePopper tm.ctx tm.grid tm.num q.toNat = none →
          ∃ s', exec (.qpush g fs q a e) s = .next s' ∧ Begins t fs 24 [] [(e.toNat, true)]
            (s.modTeam tm.ctx tm.grid tm.num fun x =>
              let y := x.queue q.toNat
              { x with queues := setAt x.queues q.toNat (if y.kind = 7 then { y with result := y.result ++ [th.regs.xs a 8 ++ own] }
                else { y with push := y.push ++ [th.regs.xs a 8 ++ own] }) }) s')) ∧
      (∀ x rest, tq.result = x :: rest →
        (Lone s (.qpop g d q) t th → ∃ s', exec (.qpop g d q) s = .next s' ∧
          LanesDo [t] (wrote x none) (queues { tq with result := rest }) s') ∧
        (Lone s (.qpopNb g d q e) t th → ∃ s', exec (.qpopNb g d q e) s = .next s' ∧
          LanesDo [t] (wrote x (some true)) (queues { tq with result := rest }) s')) ∧
      (tq.result = [] →
        (Lone s (.qpop g d q) t th → MayEnd s t th (unionRegs (s.standing th) dest) →
          exec (.qpop g d q) s = .next (s.park t (successor th.pc) (unionRegs (s.standing th) dest) (.queue q.toNat) 1 dest none)) ∧
        (Lone s (.qpopNb g d q e) t th → ∃ s', exec (.qpopNb g d q e) s = .next s' ∧
          LanesDo [t] (wrote (List.replicate 8 0) (some false)) s s')) ∧
      (Lone s (.qstat g d q) t th → ∃ s', exec (.qstat g d q) s = .next s' ∧
        let v := BitVec.ofNat 32 ((if loop then tq.result.length else tq.push.length) + tq.result.length * 2 ^ 8 + tq.kind * 2 ^ 16)
        LanesDo [t] (fun x => { x.advance with regs := x.regs.set32 d v, shadow := x.shadow.map fun r => r.set32 d v }) s s'))

/-! ### Matrix instructions (17) -/

/-- When an issue is whole quarters of one group that all perform a quarter instruction (MMAQ, MMAZ, TALLOC, TLD, TST, TZERO, TSPILL, TFILL, FRAGS, TSIG), with MMAQ's and MMAZ's B-source quarter among them: if no quarter has a cause, each quarter acts in ascending order with its own lanes and those of its B source; else the first cause of the lowest failing quarter is raised in every participant and no quarter acts. A lane of a quarter that is not whole, the missing lanes being alive, stays where it is and nothing happens; one whose missing lane has exited takes MATRIX_QUARTER with the quarter's number. (R345, R346) -/
def Obligations.QuarterInstructions : Prop :=
  ∀ (s : State) (i : Instr) (bq : Option Nat) (causes : State → List Tid → Option (Cause × DWord)) (act : State → List Tid → List Tid → State),
    quarterForm i = some (bq, causes, act) →
    (∀ (qs : List Nat) (lanes : Nat → List Tid), Quarters s i qs lanes → (∀ p, bq = some p → p ∈ qs) →
      ((∀ q ∈ qs, causes s (lanes q) = none) →
        exec i s = .next (qs.foldl (fun s q => act s (lanes q) (lanes (bq.getD q))) s)) ∧
      (∀ q c x, q ∈ qs → causes s (lanes q) = some (c, x) → (∀ p ∈ qs, p < q → causes s (lanes p) = none) →
        exec i s = .next (s.issue.foldl (fun s t => s.raise t c x) s))) ∧
    ∀ (c g k grp l : Nat) (th : Thread), l < 32 → (bq = none ∨ bq = some (l / 8)) → Lone s i (.thr c g k grp l) th → s.away th = false →
      let gone := fun n : Nat => !(s.groupOf c g k grp).live.getLsbD n
      ((∀ n, n / 8 = l / 8 → n ≠ l → gone n = false) → exec i s = .next s) ∧
      ((∃ n, n / 8 = l / 8 ∧ n ≠ l ∧ gone n = true) →
        exec i s = .next (s.raise (.thr c g k grp l) .matrixQuarter (BitVec.ofNat 64 (l / 8))))

/-- For one whole quarter none of whose lanes holds an allocation, outside redundant mode: TALLOC takes the lowest even unit with n free units from it, so that the quarter's eight lanes hold them, and writes that unit with its predicate 1, or writes 0xFFFFFFFF with 0 and allocates nothing when there is none. TFREE raises TILE_STATE in a thread that holds no allocation and AWAY_ACCESS on another core than its team's; else, outside regions, the thread drops its hold and goes on, the units staying with the other holders, or, when it was the last holder, returning to the store with zero bytes. (R358, R359, R349, R132) -/
def Obligations.TilesAllocatedAndFreed : Prop :=
  (∀ (s : State) (g : Guard) (d : XReg) (e : PReg) (n : BitVec 11) (q core : Nat) (lanes : Nat → List Tid),
    let i : Instr := .talloc g d e n
    let ts := lanes q
    let free := fun u : Nat => u % 2 = 0 ∧ u + n.toNat ≤ 16384 ∧ ∀ al ∈ (s.core core).allocs,
      (u + n.toNat ≤ al.unit ∨ al.unit + al.n ≤ u) ∧ ∀ v, al.shadow = some v → u + n.toNat ≤ v ∨ v + al.n ≤ u
    let answers := fun (v : Word) (ok : Bool) (unit : Option Nat) (s1 : State) => ∃ s', exec i s = .next s' ∧
      LanesDo ts (fun th =>
        let put := fun r : Regs => (r.set32 d v).setP e ok
        { th.advance with regs := put th.regs, shadow := th.shadow.map put, tile := unit }) s1 s'
    Quarters s i [q] lanes → 1 ≤ n.toNat →
    (∀ t ∈ ts, ∀ th, s.thread? t = some th → th.home = core ∧ th.shadow = none ∧ th.tile = none) →
    ((∀ u, ¬ free u) → answers 0xFFFFFFFF false none s) ∧
    ∀ u, free u → (∀ w, w < u → ¬ free w) → ∃ s1 : State, answers (BitVec.ofNat 32 u) true (some u) s1 ∧
      s1 = { s with cores := s1.cores } ∧ (∀ c, c ≠ core → s1.core c = s.core c) ∧
      s1.core core = { s.core core with allocs := (s.core core).allocs ++ [{ unit := u, n := n.toNat, holders := ts, shadow := none }] }) ∧
  ∀ (s : State) (t : Tid) (th : Thread) (g : Guard), Lone s (.tfree g) t th → Quiet th →
    (s.away th = true → exec (.tfree g) s = .next (s.raise t .awayAccess 0)) ∧
    (s.away th = false → th.tile = none → exec (.tfree g) s = .next (s.raise t .tileState 0)) ∧
    (s.away th = false → th.tile ≠ none → ∀ al, (s.core th.home).allocs = [al] → t ∈ al.holders → (s.core th.home).acc.wf = true →
      ∃ s1 s', exec (.tfree g) s = .next s' ∧ LanesDo [t] (fun x => { x.advance with tile := none }) s1 s' ∧
        s1 = { s with cores := s1.cores } ∧ (∀ c, c ≠ th.home → s1.core c = s.core c) ∧
        ((∃ u ∈ al.holders, u ≠ t) →
          s1.core th.home = { s.core th.home with allocs := [{ al with holders := al.holders.filter (· != t) }] }) ∧
        ((∀ u ∈ al.holders, u = t) →
          s1.core th.home = { s.core th.home with allocs := [], acc := (s1.core th.home).acc, accBad := (s1.core th.home).accBad } ∧
          ∀ x, (s1.core th.home).acc.get x =
            if 512 * al.unit ≤ x ∧ x < 512 * (al.unit + al.n) ∨
              (∃ v, al.shadow = some v ∧ 512 * v ≤ x ∧ x < 512 * (v + al.n)) then 0 else (s.core th.home).acc.get x))

/-- With a handle that names units inside the quarter's allocation and, for the scratchpad forms, an image offset that is a multiple of 64 inside the team's scratchpad, outside regions, with nothing to wait for and nothing uncorrectable: TZERO writes zero bytes into the tile and its shadow copy; TLD and TFILL copy the image's bytes there, TST writes the image whose elements are the tile's under the image format, TSPILL the units' bytes; FRAGS begins with each lane's two rows in the result format as its registers, TSIG with the CRC-32C of the tile's bytes; each begins an operation of its bound (32, 48, 192, 48, 192, 32, 64) in the eight lanes, with the FPX bits of its roundings, and nothing else changes. (R360, R361, R362, R363, R348, R353) -/
def Obligations.TileMoves : Prop :=
  ∀ (s : State) (g : Guard) (fs : Bool) (f res : IFmt) (img : ImgFmt) (d a : XReg) (m : MemOp) (n : BitVec 3)
      (q core h base size : Nat) (lanes : Nat → List Tid) (al : Alloc),
    let ts := lanes q
    let k := s.core core
    let u := if f = .f32 then 2 else 1
    let w := if f = .f32 then 4 else 2
    let tile := fun at_ : Nat => k.acc.read (512 * at_) (512 * u)
    let elems := fun at_ : Nat => (List.range 256).map fun j => fieldAt (tile at_) (w * j) w
    let off : Int := match ts with
      | t :: _ => scratchOff (s.regsOf false t) m
      | [] => 0
    let image := base + off.toNat
    let fits := fun bytes : Nat => off % 64 = 0 ∧ 0 ≤ off ∧ off + bytes ≤ size
    let none0 : Nat → List Word := fun _ => []
    let flags := fun rs : List (Nat × Fpx) => rs.foldl (fun x r => x ||| r.2) (0 : Fpx)
    (∀ t ∈ ts, ∀ th, s.thread? t = some th → th.core = core ∧ Calm s t) → (∀ t ∈ ts, s.scratchOf t = some (base, size)) →
    k.scrBad = [] → k.accBad = [] → k.acc.wf = true → k.scr.wf = true → (∀ x, s.isObj core x = false) →
    (HoldsTile s ts al h u (decide (f = .f32)) d →
      (Quarters s (.tzero g fs f d) [q] lanes → ∃ s1 s', exec (.tzero g fs f d) s = .next s' ∧
        TileWritten core al h (List.replicate (512 * u) 0) (List.replicate (512 * u) 0) s s1 ∧ QuarterBegins ts fs 32 d none0 none0 0 s1 s') ∧
      (Quarters s (.tld g fs f d m) [q] lanes → fits (512 * u) → ∃ s1 s', exec (.tld g fs f d m) s = .next s' ∧
        TileWritten core al h (k.scr.read image (512 * u)) (k.scr.read image (512 * u)) s s1 ∧ QuarterBegins ts fs 48 d none0 none0 0 s1 s') ∧
      (Quarters s (.tst g fs img f d m) [q] lanes → al.shadow = none → fits (256 * imgBytes img f) →
        let out := (elems h).map (imgElem img f)
        ∃ s1 s', exec (.tst g fs img f d m) s = .next s' ∧
          ScratchWritten core image (out.flatMap fun o => bytesOfNat (imgBytes img f) o.1) s s1 ∧
          QuarterBegins ts fs 48 d none0 none0 (flags out) s1 s')) ∧
    (HoldsTile s ts al h (n.toNat + 1) false d → fits (512 * (n.toNat + 1)) →
      (Quarters s (.tfill g fs d m n) [q] lanes → ∃ s1 s', exec (.tfill g fs d m n) s = .next s' ∧
        TileWritten core al h (k.scr.read image (512 * (n.toNat + 1))) (k.scr.read image (512 * (n.toNat + 1))) s s1 ∧
        QuarterBegins ts fs 192 d none0 none0 0 s1 s') ∧
      (Quarters s (.tspill g fs d m n) [q] lanes → al.shadow = none → ∃ s1 s', exec (.tspill g fs d m n) s = .next s' ∧
        ScratchWritten core image (k.acc.read (512 * h) (512 * (n.toNat + 1))) s s1 ∧ QuarterBegins ts fs 192 d none0 none0 0 s1 s')) ∧
    (HoldsTile s ts al h u (decide (f = .f32)) a →
      (Quarters s (.frags g fs res f d a) [q] lanes → al.shadow = none →
        let out := (elems h).map (fragElem res f)
        let v := fun j : Nat => (out.map (·.1)).getD j 0
        let rows := fun l : Nat => if res = .f32 then (List.range 32).map fun j => BitVec.ofNat 32 (v (32 * l + j))
          else (List.range 16).map fun j => BitVec.ofNat 32 (v (32 * l + 2 * j) + v (32 * l + 2 * j + 1) * 2 ^ 16)
        ∃ s', exec (.frags g fs res f d a) s = .next s' ∧ ∃ vs, QuarterBegins ts fs 32 d rows vs (flags out) s s') ∧
      (Quarters s (.tsig g fs f d a) [q] lanes → al.shadow = none →
        let sig := fun _ : Nat => [crc32c (tile h)]
        ∃ s', exec (.tsig g fs f d a) s = .next s' ∧ QuarterBegins ts fs 64 d sig sig 0 s s'))

/-- On a complete quarter whose slot has a pair of Table 17.2 and whose handle names an accumulation tile, nothing uncorrectable: element (i, j) of the new tile is the rounding, RNE to the accumulation format, of the old element (−0 for MMAZ) plus the products of A row i, from lane i ÷ 2 of the quarter, and B column j, from lane j ÷ 2 of the B-source quarter, negated with NEG; when all values are finite that sum is exact; the tile is written whole with the operation's bound (128 for FP32 accumulation, else 96), the FPX bits of all elements in the operation, and no register and nothing else changes. A slot with another pair raises FORMAT_SLOT. (R352, R353, R355, R356, R346, R216) -/
def Obligations.MatrixProducts : Prop :=
  (∀ (s : State) (g : Guard) (fs zero neg : Bool) (acc : IFmt) (d a b c : XReg) (fk : FSlot) (q p core h w kk : Nat)
      (lanes : Nat → List Tid) (al : Alloc),
    let ts := lanes q
    let k := s.core core
    let u := if acc = .f32 then 2 else 1
    let n := if acc = .f32 then 4 else 2
    let slot := s.slotOf ((lanes q).headD (.scalar 0)) fk
    let row := fun (fmt : Nat) (base side : XReg) (qq i : Nat) =>
      (fragRow slot fmt w kk (s.regsOf false ((lanes qq).getD (i / 2) (.scalar 0))) base side (i % 2)).vals
    let old := fun j : Nat => if zero = true then (Fmt.ofI acc).read (Fmt.sign (Fmt.ofI acc) true) else (Fmt.ofI acc).read (fieldAt (k.acc.read (512 * h) (512 * u)) (n * j) n)
    let elem := fun j : Nat => mmaElem acc (slotA slot == 6) neg (row (slotA slot) a c q (j / 16)) (row (slotB slot) b (c + 1) p (j % 16)) (old j)
    let new := (List.range 256).map elem
    Quarters s (if zero = true then .mmaz g fs neg acc d a b c fk none else .mmaq g fs neg acc d a b c fk none) [q] lanes →
    (∀ t ∈ ts, ∀ th, s.thread? t = some th → th.core = core ∧ th.home = core) → HoldsTile s ts al h u (decide (acc = .f32)) d → al.shadow = none →
    k.accBad = [] → k.acc.wf = true → (∀ t ∈ lanes q ++ lanes p, (s.regsOf false t).bad = []) → pairShape slot = some (w, kk) →
    (∃ s1, TileWritten core al h (new.flatMap fun e => bytesOfNat n e.1) [] s s1 ∧
      QuarterBegins ts fs (if acc = .f32 then 128 else 96) d (fun _ => []) (fun _ => []) (new.foldl (fun x e => x ||| e.2) 0) s1
        (State.mmaQuarter fs zero neg acc d a b c fk s ts (lanes p))) ∧
    (zero = false → ∀ bq, (bq = none ∨ bq = some (BitVec.ofNat 2 q)) → Quarters s (.mmaq g fs neg acc d a b c fk bq) [q] lanes →
      exec (.mmaq g fs neg acc d a b c fk bq) s = .next (State.mmaQuarter fs false neg acc d a b c fk s ts ts)) ∧
    (zero = true → ∀ bq, (bq = none ∨ bq = some (BitVec.ofNat 2 q)) → Quarters s (.mmaz g fs neg acc d a b c fk bq) [q] lanes →
      exec (.mmaz g fs neg acc d a b c fk bq) s = .next (State.mmaQuarter fs true neg acc d a b c fk s ts ts))) ∧
  (∀ (acc : IFmt) (int neg : Bool) (xs ys : List FVal) (c : FVal), xs.length = ys.length →
    (∀ v ∈ c :: (xs ++ ys), isNum v = true) →
    ∃ sg m e, mmaElem acc int neg xs ys c = (Fmt.ofI acc).roundNum .rne false sg m e ∧
      valueOf (.num sg m e) = valueOf c + (if neg = true then -1 else 1) * ((xs.zip ys).map fun r => valueOf r.1 * valueOf r.2).sum) ∧
  ∀ (s : State) (i : Instr) (q : Nat) (lanes : Nat → List Tid) (g : Guard) (fs neg : Bool) (acc : IFmt) (d a b c : XReg) (fk : FSlot),
    (i = .mmaq g fs neg acc d a b c fk none ∨ i = .mmaz g fs neg acc d a b c fk none) → Quarters s i [q] lanes →
    pairShape (s.slotOf ((lanes q).headD (.scalar 0)) fk) = none →
    exec i s = .next (s.issue.foldl (fun s t => s.raise t .formatSlot (fk.setWidth 64)) s)

/-! ### Collectives and group loads (18) -/

/-- A lane that performs one raises, in order, HANDLER_COLLECTIVE in a handler, GROUP_UNDEFINED, GROUP_NOT_MEMBER, COLLECTIVE_EXCLUDED or GANG_ABORT, each with the index, where its membership or core group says so, and nothing else happens to it; on an uncommitted gang it parks until the gang is settled. Otherwise, outside regions, it arrives at its instance with its value, target, successor and address, and then either runs ahead (on its team's core, CBR always, CSYNC and GBAR with .RA) at the predicted address, its standing registers and predicates being the snapshot, or ends its segment waiting for the instance; a lane with a shadow whose arrival would complete a group contribution that the shadows' differs from mismatches instead. A lane whose guard is false arrives with the identity when it may and goes on. Contributions that this completes are sent. (R377, R378, R379, R383, R374, R105) -/
def Obligations.CollectivesArrive : Prop :=
  ∀ (s : State) (cx g tm grp l : Nat) (th : Thread) (gd : Guard) (all pt ra : Bool) (pa : PReg) (m : MReg) (cg : CGReg) (off : Word) (slot : Slot)
      (i : Instr) (kind : CollKind) (value : Regs → Bool) (target : DWord) (taken ahead : Bool),
    let t : Tid := .thr cx g tm grp l
    (i = .cbr gd all pt pa m off slot ∧ kind = (if all = true then .all m.toNat else .any m.toNat) ∧ value = (fun r => r.pr pa) ∧
        target = branchTarget th.pc off slot ∧ taken = pt ∧ ahead = true ∨
      i = .csync gd ra m ∧ kind = .csync m.toNat ∧ value = (fun _ => false) ∧ target = successor th.pc ∧ taken = false ∧ ahead = ra ∨
      i = .gbar gd ra cg ∧ kind = .gbar cg.toNat ∧ value = (fun _ => false) ∧ target = successor th.pc ∧ taken = false ∧ ahead = ra) →
    Quiet th →
    let idx := BitVec.ofNat 64 kind.index
    let raised := fun c : Cause => exec i s = .next (s.raise t c idx).contribute
    (Lone s i t th →
      (th.h.hmode = true → raised .handlerCollective) ∧
      (th.h.hmode = false → ∀ gr, s.grid? cx g = some gr →
        (∀ k, kind.member = some k →
          let d := getAt 0 gr.mdef k
          let mine := grp < 32 ∧ d.getLsbD grp = true ∧ grp < gr.kernel.groups
          (d.getLsbD 63 = false → raised .groupUndefined) ∧
          (d.getLsbD 63 = true → ¬ mine → raised .groupNotMember) ∧
          (d.getLsbD 63 = true → mine → gr.excluded k tm grp = true → raised .collectiveExcluded)) ∧
        (∀ c v, s.collCause th kind = some (c, v) → exec i s = .next (s.raise t c v).contribute)) ∧
      (s.collCause th kind = none → s.gangState t = some .uncommitted → exec i s = .next (s.gangPark t).contribute) ∧
      (s.collCause th kind = none → s.gangState t ≠ some .uncommitted → th.shadow ≠ none → s.contribSame kind value [t] [] t = false →
        exec i s = .next (s.mismatch t false 0).1.contribute) ∧
      (s.collCause th kind = none → s.gangState t ≠ some .uncommitted → th.shadow = none ∨ s.contribSame kind value [t] [] t = true →
        let a : Arrived :=
          { team := tm, group := grp, lane := l, value := value th.regs, guard := true, target, succ := successor th.pc, at_ := th.pc
            twin := value th.regs }
        let q := s.arriveAt cx g kind a
        (ahead = true → th.core = th.home → exec i s = .next (q.1.startAhead t q.2 target taken).contribute ∧
          (th.ops = [] → ∃ x, (q.1.startAhead t q.2 target taken).thread? t = some x ∧ x.pc = (if taken = true then target else successor th.pc) ∧
            x.regs = th.regs ∧ ∃ r, x.regions = [r] ∧ r.ahead = some (q.2, target, successor th.pc, x.pc, 0) ∧ r.preds = th.regs.p ∧
              r.kept = (s.standing th).map fun n => (n, getAt 0 th.regs.x n))) ∧
        ((ahead = false ∨ th.core ≠ th.home) → MayEnd s t th (s.standing th) →
          exec i s = .next (q.1.park t (successor th.pc) (s.standing th) (.cbr q.2) 1 [] none).contribute))) ∧
    (s.issue = [t] → s.thread? t = some th → Clean s i th → performs i th = false → i.guard?.isSome = true → th.h.hmode = false →
      exec i s = .next ((s.arriveFalse t kind th.pc).advance t).contribute)

/-- The outcome of an ANY instance is true when some contribution of this or another module is, of an ALL instance when all are, and a rendezvous has none. COLLECTIVE_RESOLVE, with every live member's contribution in hand and the gang committed, ends the instance, a contribution of another kind making it a mismatch, and hands every arrived lane its address: the target when the outcome is true, else the successor; COLLECTIVE_TIMEOUT, once the time since the first contribution has passed (a recovering member still to answer pauses it), first drops the member groups that have not contributed, here and at the other members, and raises EPOCH, or logs a GBAR's first missing rank; an event whose condition is not met changes nothing. A lane that waits parked resumes there with one completion; with no detected error pending, a resident lane that ran ahead elsewhere goes to the right address with its snapshot, every other register 0, and nothing held; one that ran ahead there, with nothing held or read, goes on with its region closed. (R375, R376, R378, R381, R382, R444) -/
def Obligations.CollectiveOutcomes : Prop :=
  (∀ (i : Inst) (remote : List Bool),
    let all := (i.contributed.map fun q => i.groupValue q.1 q.2) ++ remote
    (∀ m, i.kind = .any m → (i.outcome remote = true ↔ true ∈ all)) ∧
    (∀ m, i.kind = .all m → (i.outcome remote = true ↔ false ∉ all)) ∧
    (∀ m, i.kind = .csync m ∨ i.kind = .gbar m → i.outcome remote = false)) ∧
  (∀ (s : State) (c g n : Nat) (gr : Grid) (i : Inst) (remote : List (Nat × CollKind × Bool)),
    s.inst? c g n = some (gr, i) →
    let new := remote.filter fun q => (gr.awaited i).contains q.1 && !(i.remote.any fun x => x.1 == q.1)
    let all : Inst := { i with remote := i.remote ++ new, mismatch := i.mismatch || new.any fun q => q.2.1 != i.kind }
    let values := fun j : Inst => (j.remote.filter fun q => (gr.awaited i).contains q.1).map (·.2.2)
    let ready := gr.gangOk = true ∧ s.localDone gr i = true ∧ (∀ r ∈ gr.awaited i, r ∈ all.remote.map (·.1)) ∧ i.since ≠ none
    let missing := (gr.awaited i).filter fun r => !(i.remote.any fun x => x.1 == r)
    let pause := missing ≠ [] ∧ s.gangRecovers gr = true
    let drop := fun m : Nat => s.modGrid gr.ctx gr.num fun x => x.setLive m fun v =>
      { v with droppedGroups := v.droppedGroups ++ (s.missingGroups gr i m ++ gr.unstarted m)
               peerDrops := v.peerDrops ++ missing.map (fun r => (r, allGroups)), epoch := v.epoch + 1 }
    (ready → exec (.collectiveResolve c g n remote) s = .next (s.resolveInst c g all (values all))) ∧
    (¬ ready → exec (.collectiveResolve c g n remote) s = .next s) ∧
    (∀ a, i.since = some a → gr.gangOk = true →
      (s.cycle < a + s.collCycles gr.ctx ∨ pause → exec (.collectiveTimeout c g n) s = .next s) ∧
      (a + s.collCycles gr.ctx ≤ s.cycle → ¬ pause →
        (∀ m, i.kind.member = some m → exec (.collectiveTimeout c g n) s = .next ((drop m).resolveInst c g i (values i))) ∧
        (i.kind.member = none → exec (.collectiveTimeout c g n) s = .next ((s.logMissing gr i).resolveInst c g i []))))) ∧
  ∀ (s : State) (c g tm grp l : Nat) (gr : Grid) (i : Inst) (a : Arrived) (remote : List Bool) (th : Thread),
    let t : Tid := .thr c g tm grp l
    let to_ := if i.outcome remote = true then a.target else a.succ
    let s' := s.resolveInst c g i remote
    s.grid? c g = some gr → i.arrived = [a] → a.team = tm → a.group = grp → a.lane = l → a.guard = true → i.mismatch = false →
    (∀ m, i.kind.member = some m → gr.excluded m tm grp = false) → s.thread? t = some th → th.ops = [] →
    (th.wait = .cbr i.key → th.pend ≠ 0 → th.regions = [] → (th.loc = .saved → ∀ k ∈ s.cores, k.slots = []) →
      (∃ v, s'.thread? t = some { th with pc := to_, arr := .checked, tpc := some to_, resv := v } ∧ (th.loc ≠ .saved → v = th.resv)) ∧
      s'.compl = s.compl ++ [{ t, xs := [], p := none, cause := none, set := none }]) ∧
    (∀ r suc tgt pred k, th.loc = .resident → th.detected = none → th.regions = [r] → r.ahead = some (i.key, tgt, suc, pred, k) → r.units = [] → r.allocs = [] → r.rest = [] →
      (pred ≠ to_ → ∃ x, s'.thread? t = some x ∧ x.pc = to_ ∧ x.regions = [] ∧ x.hold = false ∧ x.resv = none ∧ x.regs.p = r.preds ∧
        (∀ n, (∀ q ∈ r.kept, q.1 ≠ n) → getAt 0 x.regs.x n = 0) ∧
        (∀ n v, r.kept = [(n, v)] → n < th.regs.x.length → getAt 0 x.regs.x n = v)) ∧
      (pred = to_ → r.held = [] → r.reads = [] → s.unanswered t = false →
        s'.thread? t = some { th with regions := [], hold := false }))

/-- LDG raises AWAY_ACCESS on another core than its team's, GROUP_UNDEFINED with the index for an undefined core group, the checks of LDS for its own offset, and GANG_ABORT when the table spans modules and the gang has aborted; else, outside regions, it ends its segment with its registers and its predicate as destinations and sends its request, with the table as it stands, to the members, or stays where it is while the core has no room for a request. MBRD writes the word its selector names: EPOCH; live member groups, at most 2^32 − 1; the live modules with this module's rank; whether the thread's group and this module are live members; 0 for an undefined membership; a thread without a grid raises AWAY_ACCESS. (R367, R368, R384, R105, R8) -/
def Obligations.GroupLoads : Prop :=
  ∀ (s : State) (t : Tid) (th : Thread) (gd : Guard) (op : LdgOp) (ty : LdgTy) (sz : Size) (d : XReg) (m : MemOp) (cg : CGReg) (e : PReg)
      (sel : MbrdSel) (mr : MReg) (base size : Nat) (table : List Word),
    let i : Instr := .ldg gd op ty sz d m cg e
    let off := scratchOff th.regs m
    let dest := if op = .mini then [d.toNat, d.toNat + 1] else destRegs d sz
    let live := unionRegs (s.standing th) dest
    Quiet th →
    (Lone s i t th →
      (s.away th = true → exec i s = .next (s.raise t .awayAccess 0)) ∧
      (s.away th = false → s.cgOf t cg.toNat = none → exec i s = .next (s.raise t .groupUndefined (cg.setWidth 64))) ∧
      (s.away th = false → s.cgOf t cg.toNat = some table → s.scratchOf t = some (base, size) →
        (off % sz.bytes ≠ 0 → exec i s = .next (s.raise t .misaligned (BitVec.ofInt 64 off))) ∧
        (off % sz.bytes = 0 → (off < 0 ∨ (size : Int) < off + sz.bytes) → exec i s = .next (s.raise t .scratchRange (BitVec.ofInt 64 off))) ∧
        (off % sz.bytes = 0 → 0 ≤ off → off + sz.bytes ≤ size →
          let out := spansModules s.modid table = true ∧ s.gangState t = some .aborted
          (out → exec i s = .next (s.raise t .gangAbort 0)) ∧
          (¬ out → s.requestRoom th.core = false → exec i s = .next s) ∧
          (¬ out → s.requestRoom th.core = true → MayEnd s t th live →
            let p := s.park t (successor th.pc) live .group 1 dest (some e.toNat)
            exec i s = .next { p with
              out := p.out ++ [{ t, core := p.coreOf t, dest := .group, op := .ldg op ty sz.bytes off.toNat table, seq := p.nextSeq, late := false }]
              nextSeq := p.nextSeq + 1 })))) ∧
    (Lone s (.mbrd gd sel d mr) t th →
      (s.gridOf t = none → exec (.mbrd gd sel d mr) s = .next (s.raise t .awayAccess 0)) ∧
      ∀ gr, s.gridOf t = some gr →
        let k := mr.toNat
        let defined := (getAt 0 gr.mdef k).getLsbD 63 = true
        let writes := fun v : Word => ∃ s', exec (.mbrd gd sel d mr) s = .next s' ∧
          LanesDo [t] (fun x => { x.advance with regs := x.regs.set32 d v, shadow := x.shadow.map fun r => r.set32 d v }) s s'
        (¬ defined → writes 0) ∧
        (defined → sel = .epoch → writes (gr.liveOf k).epoch) ∧
        (defined → sel = .groups → gr.gangWide k = false → writes (BitVec.ofNat 32 (min (s.liveGroups gr k) (2 ^ 32 - 1)))) ∧
        (defined → sel = .mods → writes (BitVec.ofNat 32 ((gr.moduleCount k - (gr.liveOf k).droppedMods.length) * 2 ^ 16 + gr.rank k))) ∧
        ∀ c g tm grp l, t = .thr c g tm grp l → defined → sel = .self →
          writes (BitVec.ofNat 32 ((if gr.memberGroup k grp = true ∧ gr.excluded k tm grp = false then 1 else 0) +
            (if gr.modDropped k = true then 0 else 2) + 4)))

/-! ### Segments, launches and events (7, 5, 6) -/

/-- In a handler each raises HANDLER_STATE; SEG and FWD raise LIVE_INDEX with the index when the kernel has no live list there of the count they state (in a kernel of 256 registers the byte after a list may be X255's own). Else, where the segment may end: SEG makes the list the standing set, with its LFREE, and the thread a ready record at the target that keeps just those registers; YIELD ends the segment at its target with the standing set; FWD, outside the domain or with an entry in the side log, makes it a ready record at the successor on its own core, and otherwise a ready record without team state goes to the mailbox of the die its register names, as one entry, when that has room. (R146, R147, R148, R128, R272) -/
def Obligations.NamedSegmentEnds : Prop :=
  ∀ (s : State) (t : Tid) (th : Thread) (g : Guard) (free : Bool) (b : XReg) (d : BitVec 8) (n : BitVec 4) (off : Word) (slot : Slot) (live : List Nat),
    let list := fun l : List Nat => ∃ k e, s.kernelOf t = some k ∧ k.liveEntry d.toNat = some e ∧
      (e.length = n.toNat + 1 ∧ l = e ∨ e.length = n.toNat ∧ k.regs = 32 ∧ l = e ++ [255])
    let target := branchTarget th.pc off slot
    let die := (th.regs.x32 b).toNat % 32
    let set := fun f : Bool => s.setStanding t d.toNat live f
    Quiet th →
    (∀ i, (i = .seg g free d n off slot ∨ i = .yield g off slot ∨ i = .fwd g (some b) d n) → Lone s i t th → th.h.hmode = true →
      exec i s = .next (s.raise t .handlerState 0)) ∧
    (∀ i, (i = .seg g free d n off slot ∨ i = .fwd g (some b) d n) → Lone s i t th → th.h.hmode = false → (∀ l, ¬ list l) →
      exec i s = .next (s.raise t .liveIndex (d.setWidth 64))) ∧
    (th.h.hmode = false → list live → MayEnd s t th live →
      (Lone s (.seg g free d n off slot) t th →
        exec (.seg g free d n off slot) s = .next ((set free).park t target live .none 0 [] none)) ∧
      (Lone s (.fwd g (some b) d n) t th → (s.logging t = true ∨ s.domainDie t die = false) →
        exec (.fwd g (some b) d n) s = .next ((set true).park t (successor th.pc) live .none 0 [] none)) ∧
      (Lone s (.fwd g (some b) d n) t th → s.logging t = false → s.domainDie t die = true → s.recordRoom die = true →
        th.isScalar = false → th.tile = none → th.whole = false → th.ops = [] → s.covered t = false →
        ∃ s', exec (.fwd g (some b) d n) s = .next s' ∧
          (s'.die die).mailbox = (s.die die).mailbox ++ [.records (s.ctxOf t) [t] s.cycle] ∧
          ∃ x, s'.thread? t = some x ∧ x.loc = .offered die ∧ x.pc = successor th.pc ∧ x.live = live ∧ x.pend = 0 ∧ x.ready = s.ready ∧
            x.lsv = true ∧ x.livesel = d.toNat ∧ x.lfree = true)) ∧
    (Lone s (.yield g off slot) t th → th.h.hmode = false → MayEnd s t th (unionRegs (s.standing th) []) →
      exec (.yield g off slot) s = .next (s.park t target (unionRegs (s.standing th) []) .none 0 [] none)) ∧
    ∀ die' s0, Lone s (.fwd g none d n) t th → s.anyDie (s.ctxOf t) = (die', s0) → th.h.hmode = false → list live →
      MayEnd s t th live → s.logging t = true →
      exec (.fwd g none d n) s = .next ((s0.setStanding t d.toNat live true).park t (successor th.pc) live .none 0 [] none)

/-- LAUNCH raises MISALIGNED or WINDOW_MISS with the address of its record; outside regions and with nothing in the side log it either submits within the core, when its record lies in this module's memory, its lines hit and the context has room, writing the status that the submission gives, or ends its segment with its register as destination and asks for the record where it lies; while the core has no room for a request it stays at the instruction. SPAWN sends its 64 bytes to its own die when the mailbox there has room, writing the status and then posting the entry that follows it; MBOX never does so within the core: outside the domain it ends its segment with status 4, else its packet goes to the die's mailbox; SPAWN without room goes the same way. A submission whose WAITMASK the event vector does not hold waits in the context with status 1; one that it holds is read at once, status 0. (R99, R97, R118, R119, R96, R124, R296, R8) -/
def Obligations.LaunchSpawnMbox : Prop :=
  ∀ (s : State) (t : Tid) (th : Thread) (g : Guard) (loc : Bool) (d a b : XReg) (m : MemOp) (c : Ctx),
    let va := effAddr th.regs m
    let pkt := bytesOfWords (th.regs.xs a 16)
    let die := (th.regs.x32 b).toNat % 32
    let live := unionRegs (s.standing th) [d.toNat]
    let parked := fun x : State => x.park t (successor th.pc) (unionRegs (x.standing th) [d.toNat]) .task 1 [d.toNat] none
    let asks := fun (x : State) (dest : Dest) (o : Eff) =>
      { x with out := x.out ++ [{ t, core := x.coreOf t, dest, op := .write o, seq := x.nextSeq, late := false }], nextSeq := x.nextSeq + 1 }
    Quiet th → s.ctx? (s.ctxOf t) = some c →
    (Lone s (.launch g loc d m) t th →
      (va.toNat % 256 ≠ 0 → exec (.launch g loc d m) s = .next (s.raise t .misaligned va)) ∧
      (va.toNat % 256 = 0 → translateVA c va 256 .read = none → exec (.launch g loc d m) s = .next (s.raise t .windowMiss va)) ∧
      (∀ ia peer k s1, va.toNat % 256 = 0 → translateVA c va 256 .read = some (ia, peer) → s.logging t = false → s.choice = (k, s1) →
        let f := s1.fetchRecord t c va
        let away := k % 2 = 1 ∨ s.recordHere ia peer = false ∨ ∀ bs, f.2 ≠ .bytes bs
        let p := parked s1
        (s.requestRoom th.core = false → exec (.launch g loc d m) s = .next s) ∧
        (∀ bs x, s.requestRoom th.core = true → s.recordHere ia peer = true → f.2 = .bytes bs → k % 2 = 0 → f.1.submitsBehind t = false → f.1.launchRoom c.id = true →
          f.1.thread? t = some x → x.regions = [] →
          exec (.launch g loc d m) s = .next ((f.1.submit x va bs loc).1.writeD t d (BitVec.ofNat 32 (f.1.submit x va bs loc).2))) ∧
        (s.requestRoom th.core = true → away → MayEnd s1 t th live →
          ((∀ n x, p.recordDest ia peer ≠ .peer n x) →
            exec (.launch g loc d m) s = .next (asks p (p.recordDest ia peer) (.launch va [] loc))) ∧
          ∀ n x, p.recordDest ia peer = .peer n x → ∃ r, exec (.launch g loc d m) s =
            .next ((asks p (.peer n x) (.launch va [] loc)).modThread t fun x => { x with remote := r })))) ∧
    (Lone s (.spawn g d a) t th → s.logging t = false →
      let own := s.dieOf th.core
      let q := s.sendTask th.core th pkt own
      (s.submitsBehind t = false → s.taskRoom own = true →
        exec (.spawn g d a) s = .next (q.2.2.foldl (fun s x => s.postEvent x.1 x.2) (q.1.writeD t d (BitVec.ofNat 32 q.2.1)))) ∧
      (s.taskRoom own = false ∨ s.submitsBehind t = true → MayEnd s t th live → exec (.spawn g d a) s = .next (asks (parked s) .group (.task pkt own)))) ∧
    (Lone s (.mbox g d a b) t th → s.logging t = false → MayEnd s t th live →
      let inside := die < 24 ∧ c.placedom.getLsbD die = true
      (¬ inside → exec (.mbox g d a b) s = .next { parked s with
        compl := (parked s).compl ++ [{ t, xs := [(d.toNat, 4)], p := none, cause := none, set := none }] }) ∧
      (inside → exec (.mbox g d a b) s = .next (asks (parked s) .group (.task pkt die)))) ∧
    (∀ (bs : List Byte),
      let w := (Record.ofBytes bs).waitmask
      let q := s.submit th va bs loc
      th.id = t → c.id = s.ctxOf t →
      (w &&& ~~~c.events ≠ 0 → q.2 = 1 ∧ q.1 = s.modCtx c.id fun x => { x with waiting := x.waiting ++
        [{ who := .thread th.core (s.tslot th) (Tid.group t) (Tid.lane t) va, va, body := bs, waitmask := w
           loc := if loc = true then some (s.dieOf th.core) else none, noDies := c.noDies }] }) ∧
      (w &&& ~~~c.events = 0 → q.2 = 0))

/-- The set is the bit of the immediate, the bit of the register's low 8 bits, or the register's word at bits 32k upward. Outside regions and with nothing in the side log: EVSET ORs it into the context's vector with the wake-ups and submissions that follow, EVCLR removes it, an empty set does neither, and the thread goes on. EVWAIT ends its segment; when the vector holds the whole set it completes at once, else it waits for the set. EVQPOP and EVQPOP.NB take the context's oldest entry of the core's event queue into four registers; on none EVQPOP ends its segment waiting for one and EVQPOP.NB writes zeros. Setting bits changes no other bit; a thread whose set is now held completes once and leaves its wait. (R102, R103, R104, R95, R123, R125) -/
def Obligations.EventInstructions : Prop :=
  (∀ (r : Regs) (n : BitVec 8) (a : XReg) (k : BitVec 3) (j : Nat), j < 256 →
    ((EvForm.mask (.imm n) r).getLsbD j = decide (j = n.toNat)) ∧
    ((EvForm.mask (.reg a) r).getLsbD j = decide (j = (r.x32 a).toNat % 256)) ∧
    ((EvForm.mask (.mask a k) r).getLsbD j = (decide (j / 32 = k.toNat) && (r.x32 a).getLsbD (j % 32)))) ∧
  (∀ (s : State) (t : Tid) (th : Thread) (g : Guard) (f : EvForm) (d : XReg) (c : Ctx),
    let m := EvForm.mask f th.regs
    let id := s.ctxOf t
    let dest := seqFrom d.toNat 4
    let queue := (s.core th.core).evq
    let wrote := fun (ws : List Word) (x : Thread) =>
      { x.advance with regs := x.regs.setXs d.toNat ws, shadow := x.shadow.map fun r => r.setXs d.toNat ws }
    Quiet th → s.ctx? id = some c → s.logging t = false →
    (Lone s (.evset g f) t th → exec (.evset g f) s = .next (if m = 0 then s.advance t else (s.evSet id m).advance t)) ∧
    (Lone s (.evclr g f) t th → exec (.evclr g f) s = .next (if m = 0 then s.advance t else
      (s.modCtx id fun x => { x with events := x.events &&& ~~~m }).advance t)) ∧
    (Lone s (.evwait g f) t th → MayEnd s t th (unionRegs (s.standing th) []) →
      let p := s.park t (successor th.pc) (unionRegs (s.standing th) []) (.event m) 1 [] none
      (m &&& ~~~c.events ≠ 0 → exec (.evwait g f) s = .next p) ∧
      (m &&& ~~~c.events = 0 → ∃ s', exec (.evwait g f) s = .next s' ∧ s'.compl = p.compl ++ [{ t, xs := [], p := none, cause := none, set := none }] ∧
        ∀ x, p.thread? t = some x → s'.thread? t = some { x with woken := true })) ∧
    (∀ e q, popEv queue id = (some e, q) → ∀ i, (i = .evqpop g d ∨ i = .evqpopNb g d) → Lone s i t th →
      ∃ s', exec i s = .next s' ∧ LanesDo [t] (wrote e.words) (s.modCore th.core fun k => { k with evq := q }) s') ∧
    ((∀ e ∈ queue, e.ctx ≠ id) →
      (Lone s (.evqpop g d) t th → MayEnd s t th (unionRegs (s.standing th) dest) →
        exec (.evqpop g d) s = .next (s.park t (successor th.pc) (unionRegs (s.standing th) dest) .evq 1 dest none)) ∧
      (Lone s (.evqpopNb g d) t th → ∃ s', exec (.evqpopNb g d) s = .next s' ∧ LanesDo [t] (wrote [0, 0, 0, 0]) s s'))) ∧
  (∀ (q : List EvEntry) (id : Nat) (e : EvEntry), (∀ x ∈ q, x.ctx ≠ id) → e.ctx = id → ∀ rest, popEv (q ++ e :: rest) id = (some e, q ++ rest)) ∧
  ∀ (s : State) (id : Nat) (m : EvMask) (c : Ctx), s.ctx? id = some c → c.id = id → c.waiting = [] → c.queues = [] → m ≠ 0 →
    let s' := s.evSet id m
    let woken := fun x : Thread => s.ctxOf x.id = id ∧ x.pend ≠ 0 ∧ x.woken = false ∧ ∃ w, x.wait = .event w ∧ w &&& ~~~(c.events ||| m) = 0
    (∃ c', s'.ctx? id = some c' ∧ c'.events = c.events ||| m) ∧
    (∀ t x, s.thread? t = some x → (∀ y ∈ s.threads, y.id = t → y = x) → (woken x → s'.thread? t = some { x with woken := true } ∧
        ∃ k ∈ s'.compl, k.t = t) ∧
      (¬ woken x → s'.thread? t = some x))

/-! ### Recovery regions, error log, system registers and control (20, 19, 21) -/

/-- In a handler each raises HANDLER_STATE; RBEGIN with four open regions, and the others with none, raise RGN_NEST. Else RBEGIN opens a region with its address, its abort target, the pending attempt count, which it writes, and the predicates; RKEEP adds to the innermost region's snapshot the values of those registers it does not hold yet, in a PARTIAL region nothing, and at a total above 64 commits early instead; REND of an inner region joins what it holds to the enclosing one, of the outermost waits for its commit; RABORT restores the innermost region's registers and predicates and goes to the abort target, in a PARTIAL region it closes the regions and raises RGN_PARTIAL_ERROR. REGION_COMMIT_DONE with nothing held and the read marks still true closes the region; with a mark that no longer holds and fewer than three attempts behind it the snapshot returns, the conflict is logged, and the thread is at the RBEGIN with the count one higher. (R412, R414, R415, R416, R417, R419) -/
def Obligations.RegionInstructions : Prop :=
  ∀ (s : State) (t : Tid) (th : Thread) (g : Guard) (d a : XReg) (n : BitVec 4) (off : Word) (slot : Slot),
    let one := fun (i : Instr) (f : Thread → Thread) => ∃ s', exec i s = .next s' ∧ LanesDo [t] f s s'
    let more := (seqFrom a.toNat (n.toNat + 1)).filter fun r => !((th.regions.headD (th.newRegion 0)).kept.any fun q => q.1 == r)
    let kept := (th.regions.map fun r => r.kept.length).sum
    (∀ i, i = .rbegin g d off slot ∨ i = .rkeep g a n ∨ i = .rend g ∨ i = .rabort g → Lone s i t th → th.h.hmode = true →
      exec i s = .next (s.raise t .handlerState 0)) ∧
    (∀ i, (i = .rbegin g d off slot ∧ th.depth = 4) ∨ ((i = .rkeep g a n ∨ i = .rend g ∨ i = .rabort g) ∧ th.depth = 0) →
      Lone s i t th → th.h.hmode = false → exec i s = .next (s.raise t .rgnNest 0)) ∧
    (th.h.hmode = false →
      (Lone s (.rbegin g d off slot) t th → th.depth ≠ 4 →
        let k := match th.attempt with
          | some (x, y, k) => if x = th.pc ∧ y = th.depth then k else 0
          | none => 0
        one (.rbegin g d off slot) fun x =>
          { x.advance with
            regs := x.regs.set32 d (BitVec.ofNat 32 k), shadow := x.shadow.map fun r => r.set32 d (BitVec.ofNat 32 k)
            regions := { start := x.pc, abort := branchTarget x.pc off slot, attempt := k, preds := x.regs.p, kept := [], held := [], reads := []
                         units := [], allocs := [], partial_ := false, ahead := none } :: x.regions
            attempt := match x.attempt with
              | some (x', y, k') => if x' = x.pc ∧ y = x.depth then none else some (x', y, k')
              | none => none }) ∧
      (∀ r rest, th.regions = r :: rest → th.depth ≠ 0 →
        (Lone s (.rkeep g a n) t th →
          (r.partial_ = true → one (.rkeep g a n) Thread.advance) ∧
          (r.partial_ = false → kept + more.length ≤ 64 → one (.rkeep g a n) fun x =>
            { x.advance with regions := { r with kept := r.kept ++ more.map fun y => (y, getAt 0 x.regs.x y) } :: rest }) ∧
          (r.partial_ = false → 64 < kept + more.length → exec (.rkeep g a n) s = .next (s.settleRegions t).1)) ∧
        (Lone s (.rend g) t th →
          (∀ o rest', 1 < th.depth → rest = o :: rest' → one (.rend g) fun x =>
            { x.advance with regions := { o with held := o.held ++ r.held, reads := o.reads ++ r.reads } :: rest' }) ∧
          (th.depth = 1 → ∃ s', exec (.rend g) s = .next { s' with resWait := s.resWait ++ [.commit t] } ∧
            LanesDo [t] (fun x => { x.advance with hold := true, segpc := x.pc }) s s')) ∧
        (Lone s (.rabort g) t th →
          (r.partial_ = true → exec (.rabort g) s = .next ((s.closeRegions t).raise t .rgnPartialError 0)) ∧
          (r.partial_ = false → th.ops = [] → r.units = [] → r.allocs = [] → s.held = [] → ∃ s', exec (.rabort g) s = .next s' ∧
            s'.mem = s.mem ∧ s'.thread? t = some { th with
              pc := r.abort, arr := .checked, regions := rest
              regs := { th.regs.putAll r.kept [] with p := r.preds }
              shadow := th.shadow.map fun x => { x.putAll r.kept [] with p := r.preds } })))) ∧
    (s.thread? t = some th → s.resWait = [.commit t] → th.inRunAhead = false → s.held = [] → ∀ r, th.regions = [r] → r.partial_ = false → r.held = [] → r.rest = [] →
      (r.reads.all (s.markHolds th.core) = true → ∃ s', exec (.regionCommitDone t) s = .next { s' with resWait := [] } ∧
        LanesDo [t] (fun x => { x with hold := false, regions := [] }) s s') ∧
      (r.reads.all (s.markHolds th.core) = false → r.attempt < 3 → th.ops = [] → r.units = [] → r.allocs = [] →
        ∃ s', exec (.regionCommitDone t) s = .next s' ∧ s'.mem = s.mem ∧ s'.resWait = [] ∧ ∃ x, s'.thread? t = some x ∧
          x.pc = r.start ∧ x.regions = [] ∧ x.hold = false ∧ x.attempt = some (r.start, 0, r.attempt + 1) ∧
          x.regs = { th.regs.putAll r.kept [] with p := r.preds } ∧
          ((s.core th.core).errlog = [] → (s'.core th.core).errlog = [s.errEntry th 5 1 r.attempt 0])))

/-- ERRLOG.POP, outside regions and with nothing in the side log, takes the context's oldest entry of the core's log into four registers, zeros on none; ERRLOG.STAT writes the number of entries, of dropped ones (each at most 255), the mode, the depth and PARTIAL; ERRLOG.INJ arms its kind in BRINGUP and TEST, for kinds 0 and 1, and only goes on otherwise. SRD writes the register's value, its low 32 bits or 64. SWR performs the write and goes on; a write of TRAPRES waits for the writer's side-log entries, and one of TEAMRESTORE for room in the mailbox of its die, the latter the model's choice (log 58). SRD and SWR reach the registers of Table 19.16: those listed here read as the state holds them, and a write changes exactly the register, under its fields' access codes. (R409, R421, R422, R205) -/
def Obligations.ErrorLogAndSystemRegisters : Prop :=
  (∀ (s : State) (t : Tid) (th : Thread) (g : Guard) (d a : XReg) (w : Bool) (n : BitVec 12) (kind : BitVec 2),
    let id := s.ctxOf t
    let core := s.core th.core
    let one := fun (i : Instr) (f : Thread → Thread) (s1 : State) => ∃ s', exec i s = .next s' ∧ LanesDo [t] f s1 s'
    let wrote := fun (ws : List Word) (x : Thread) =>
      { x.advance with regs := x.regs.setXs d.toNat ws, shadow := x.shadow.map fun r => r.setXs d.toNat ws }
    (Lone s (.errlogPop g d) t th → th.regions = [] → s.logging t = false →
      (∀ e q, popErr core.errlog id = (some e, q) → one (.errlogPop g d) (wrote e.words) (s.modCore th.core fun k => { k with errlog := q })) ∧
      ((∀ e ∈ core.errlog, e.ctx ≠ id) → one (.errlogPop g d) (wrote [0, 0, 0, 0]) s)) ∧
    (Lone s (.errlogStat g d) t th → core.dropped = [] → ∀ c, s.ctx? id = some c →
      let v := BitVec.ofNat 32 ((if th.regions.any (·.partial_) = true then 2 ^ 20 else 0) + th.depth * 2 ^ 17 + (if c.redundant = true then 2 ^ 16 else 0) +
        min (core.errlog.filter fun e => e.ctx == id).length 255)
      one (.errlogStat g d) (fun x => { x.advance with regs := x.regs.set32 d v, shadow := x.shadow.map fun r => r.set32 d v }) s) ∧
    (Lone s (.errlogInj g kind) t th → one (.errlogInj g kind) (fun x =>
      { x.advance with inject := if (s.mmode = 1 ∨ s.mmode = 2) ∧ kind.toNat < 2 then some kind.toNat else x.inject }) s) ∧
    (Lone s (.srd g w d n) t th →
      let v := s.sysRead t n.toNat
      let put := fun r : Regs => if w = true then r.set64 d (BitVec.ofNat 64 v) else r.set32 d (BitVec.ofNat 32 v)
      one (.srd g w d n) (fun x => { x.advance with regs := put x.regs, shadow := x.shadow.map put }) s) ∧
    (Lone s (.swr g w a n) t th → Quiet th →
      let v := if w = true then th.regs.x64 a else (th.regs.x32 a).setWidth 64
      let waits := (n = 0x029 ∧ s.logging t = true) ∨ (n = 0x02B ∧ s.domainDie t (bitsOf v.toNat 52 5) = true ∧ s.taskRoom (bitsOf v.toNat 52 5) = false)
      (waits → exec (.swr g w a n) s = .next s) ∧ (¬ waits → exec (.swr g w a n) s = .next ((s.sysWrite t n.toNat v).advance t)))) ∧
  ∀ (s : State) (t : Tid) (th : Thread) (c : Ctx) (v : DWord), s.thread? t = some th → s.ctx? (s.ctxOf t) = some c → c.id = s.ctxOf t →
    let k := s.core th.core
    let lo := v.toNat % 2 ^ 32
    s.sysRead t 0x000 = Tid.lane t ∧ s.sysRead t 0x001 = Tid.group t ∧ s.sysRead t 0x008 = s.cycle % 2 ^ 64 ∧
    s.sysRead t 0x009 = s.epoch % 2 ^ 16 * 2 ^ 48 + th.pts % 2 ^ 48 ∧ s.sysRead t 0x00B = k.linestat.toNat ∧ s.sysRead t 0x00C = k.materr.toNat ∧
    s.sysRead t 0x010 = th.h.cause.toNat ∧ s.sysRead t 0x012 = th.h.trappc.toNat ∧ s.sysRead t 0x013 = th.h.src.toNat ∧
    s.sysRead t 0x014 = th.h.info.toNat ∧ s.sysRead t 0x015 = th.h.pend.toNat ∧ s.sysRead t 0x016 = th.h.hfaultsrc.toNat ∧
    s.sysRead t 0x018 = s.mmode.toNat ∧ s.sysRead t 0x020 = c.placedom.toNat ∧ s.sysRead t 0x029 = 0 ∧ s.sysRead t 0x032 = c.rungvec2.toNat ∧
    (∀ m tg r lane, t = .thr (s.ctxOf t) m tg r lane → ∀ tm, s.team? (s.ctxOf t) m tg = some tm → s.sysRead t 0x00A = tm.fpx.toNat) ∧
    (∀ m tg r lane, t = .thr (s.ctxOf t) m tg r lane →
      s.sysWrite t 0x00A v = s.modTeam (s.ctxOf t) m tg fun tm => { tm with fpx := tm.fpx &&& ~~~(v.setWidth 7) }) ∧
    s.sysWrite t 0x00B v = s.modCore th.core (fun k =>
      let kept := if k.linestat.getLsbD 16 = true ∧ v.getLsbD 16 = false then 2 ^ 16 else 0
      { k with linestat := BitVec.ofNat 32 (kept + v.toNat % 2 ^ 16) }) ∧
    s.sysWrite t 0x015 v = s.modThread t (fun x => { x with h := { x.h with pend := x.h.pend &&& ~~~v } }) ∧
    s.sysWrite t 0x020 v = s.modCtx c.id (fun x => { x with placedom := BitVec.ofNat 32 (lo % 2 ^ 24) }) ∧
    s.sysWrite t 0x023 v = s.modCtx c.id (fun x => { x with ctxsched := BitVec.ofNat 32 (max 64 (lo % 2 ^ 16) + lo / 2 ^ 16 % 2 ^ 8 * 2 ^ 16) }) ∧
    s.sysWrite t 0x024 v = s.modCtx c.id (fun x => { x with ctxcoll := BitVec.ofNat 32 (max 1 (lo % 2 ^ 24)) }) ∧
    s.sysWrite t 0x032 v = s.modCtx c.id (fun x => { x with rungvec2 := v }) ∧
    (th.h.join = none → s.sysWrite t 0x012 v = s.modThread t (fun x => { x with h := { x.h with trappc := v } })) ∧
    (∀ n : Nat, (0x000 ≤ n ∧ n ≤ 0x009) ∨ (0x010 ≤ n ∧ n ≤ 0x011) ∨ n = 0x013 ∨ n = 0x014 ∨ n = 0x018 ∨ n = 0x021 → s.sysWrite t n v = s)

/-- TRET and ESC outside a handler, and HALT inside one, raise HANDLER_STATE. TRET with no cause pending and no join to return to leaves handler mode for TRAPPC; with a cause pending it delivers the lowest instead. ESC delivers the cause being served one rung up. WINSET with a bad window raises WINDOW_FORMAT; else WINSET and WINSET.CLR, outside regions and with nothing in the side log, write the window, the thread staying until WINSET_PROPAGATED, which lets it go on. HALT ends the thread's grid with status OK, HALT.ERR with GRID_KILLED: its threads and teams are gone and no other grid's thread changes. CKPT answers 2 without a reserved area, 1 while a checkpoint is under way, and else suspends the thread and begins to quiesce. (R410, R411, R263, R428, R429, R433) -/
def Obligations.HandlersWindowsHaltAndCheckpoint : Prop :=
  (∀ (s : State) (t : Tid) (th : Thread) (g : Guard) (err : Bool) (w : WReg) (a d : XReg),
    let v := windowWords th.regs a
    let winset := fun f : Window → Window => s.modCtx (s.ctxOf t) fun c =>
      { c with windows := setAt c.windows w.toNat (f (getAt ⟨0, 0, 0, 0⟩ c.windows w.toNat)) }
    let waits := fun (i : Instr) (s1 : State) => ∃ s', exec i s = .next { s' with resWait := s.resWait ++ [.winset t] } ∧
      LanesDo [t] (fun x => { x.advance with hold := true, segpc := x.pc }) s1 s'
    let writes := fun (i : Instr) (n : Word) => ∃ s', exec i s = .next s' ∧
      LanesDo [t] (fun x => { x.advance with regs := x.regs.set32 d n, shadow := x.shadow.map fun r => r.set32 d n }) s s'
    (∀ i, (i = .tret g ∨ i = .esc g) ∧ th.h.hmode = false ∨ i = .halt g err ∧ th.h.hmode = true → Lone s i t th →
      exec i s = .next (s.raise t .handlerState 0)) ∧
    (Lone s (.tret g) t th → th.h.hmode = true →
      (th.h.pend = 0 → th.h.join = none → ∃ s', exec (.tret g) s = .next s' ∧ LanesDo [t] (fun x =>
        { x with
          pc := x.h.trappc, arr := if x.h.trappc = x.h.entry then .unchecked else .checked, wdStart := s.cycle, wdUsed := 0
          h := { x.h with hmode := false, rung := 0, via := 0, timer := none } }) s s') ∧
      (∀ n, n < 45 → th.h.pend.getLsbD n = true → (∀ k, k < n → th.h.pend.getLsbD k = false) → ∃ s1,
        exec (.tret g) s = .next (s1.deliver t th.h.rung.toNat (causeOf n) (th.h.infoOf n) th.h.trappc th.h.src 3) ∧
        LanesDo [t] (fun x =>
          { x with h := { x.h with pend := x.h.pend &&& ~~~(1#64 <<< n), infos := x.h.infos.filter fun y => y.1 != n } }) s s1)) ∧
    (Lone s (.esc g) t th → th.h.hmode = true → exec (.esc g) s =
      .next (s.deliver t (th.h.rung.toNat + 1) (causeOf th.h.cause.toNat) th.h.info th.h.trappc th.h.src 1)) ∧
    (Quiet th → s.logging t = false →
      (Lone s (.winset g w a) t th →
        let ok := windowFormat s.modid (getAt 0 v 0) (getAt 0 v 1) (getAt 0 v 2) (getAt 0 v 3)
        (ok = false → exec (.winset g w a) s = .next (s.raise t .windowFormat 0)) ∧
        (ok = true → waits (.winset g w a) (winset fun _ => ⟨getAt 0 v 0, getAt 0 v 1, getAt 0 v 2, getAt 0 v 3⟩))) ∧
      (Lone s (.winsetClr g w) t th → waits (.winsetClr g w) (winset fun x => { x with ctl := x.ctl &&& 0x7FFFFFFFFFFFFFFF })) ∧
      (Lone s (.ckpt g d) t th →
        (s.ckpt.rsv = false → writes (.ckpt g d) 2) ∧
        (s.ckpt.rsv = true → s.ckpt.state ≠ 0 → writes (.ckpt g d) 1) ∧
        (s.ckpt.rsv = true → s.ckpt.state = 0 → exec (.ckpt g d) s = .next { s.park t (successor th.pc) [] .task 1 [d.toNat] none with
          messages := s.messages ++ [.flood .recovering]
          ckpt := { s.ckpt with state := 1, waiter := some (t, d.toNat), cycle := s.cycle } }))) ∧
    (s.resWait = [.winset t] → ∃ s', exec (.winsetPropagated t) s = .next { s' with resWait := [] } ∧
      LanesDo [t] (fun x => { x with hold := false }) s s') ∧
    (s.resWait.contains (.winset t) = false → exec (.winsetPropagated t) s = .next s)) ∧
  ∀ (s : State) (c gn tm grp l : Nat) (th : Thread) (g : Guard) (err : Bool) (gr : Grid),
    let t : Tid := .thr c gn tm grp l
    Lone s (.halt g err) t th → Quiet th → th.h.hmode = false → s.grid? c gn = some gr → gr.ended = none → (∀ k ∈ s.cores, k.slots = []) →
    ∃ s', exec (.halt g err) s = .next s' ∧ (∀ u, inGrid c gn u = true → s'.thread? u = none) ∧
      (∀ u, inGrid c gn u = false → s'.thread? u = s.thread? u) ∧ (∀ x ∈ s'.teams, ¬ (x.ctx = c ∧ x.grid = gn)) ∧
      (∀ c' k n, ¬ (c' = c ∧ k = gn) → s'.team? c' k n = s.team? c' k n) ∧ s'.mem = s.mem ∧
      ∃ gr', s'.grid? c gn = some gr' ∧ gr'.ended = some (if err = true then 4 else 0) ∧ gr'.insts = []

/-! ### Events of the module (02, 05, 06) -/

/-- A file that is no ELF file reports BAD_ELF; an image whose checks fail reports the status of the first one; both change nothing else; one whose checks pass, that has code and tables only and needs no relocation, lies at its address and its kernels are known. A new queue is IDLE with indices 0. NOTIFY writes WRIDX; an index more than the ring's size ahead of RDIDX stops an IDLE or FETCH queue with QUEUE_INDEX, else an IDLE queue with unread slots fetches. QRESET of a queue with no packet read, that waits at none, sets all its indices, ERRCODE 0 and IDLE. A well-formed NOP, EVOP or BARRIER packet alone in its queue has its header cleared and both indices pass it; EVOP sets or clears its mask in the event vector; a BARRIER whose mask is not set puts the queue in HOLD, and the poll after it is set goes on. A LAUNCH packet with an eligible record that passes its checks adds a grid with that record and kernel and frees its five slots; one that is not eligible waits. A malformed header puts the queue in ERROR. A team with no thread, command, side-log or queue entry left retires; another does not. (R22, R34, R85, R87, R89, R90, R91, R92, R95, R96, R426, R23) -/
def Obligations.QueuesAndImages : Prop :=
  (∀ (s : State) (c base : Nat) (k : Ctx) (file : List Byte) (room : Bool), s.ctx? c = some k →
    let load := exec (.imageLoad c ⟨base, file, room⟩) s
    (file.length < 64 ∨ fieldAt file 0 4 ≠ 0x464C457F → load = .next { s with messages := s.messages ++ [.loadStatus c 1] }) ∧
    ∀ f, parseElf base file = some f →
      (loadCheck f ≠ 0 → load = .next { s with messages := s.messages ++ [.loadStatus c (loadCheck f)] }) ∧
      (loadCheck f = 0 → f.relocs = [] → f.data = [] → f.code.length % 64 = 0 → ImageFile.block f ≠ [] →
        (room = false → load = .next { s with messages := s.messages ++ [.loadStatus c 6] }) ∧
        (room = true → ∀ ia s1, translateVA k (BitVec.ofNat 64 base) (ImageFile.block f).length .fetch = some (ia, none) →
          s.iaWrite ia (ImageFile.block f) = some s1 → load = .next
            { s1.modCtx c (fun k => { k with images := { base, kernels := f.entries.map (kernelAt f) } :: k.images }) with
              messages := s1.messages ++ [.loadStatus c 0] }))) ∧
  (∀ (s : State) (c q base n : Nat) (host : Bool), s.queue? c q = none →
    exec (.queueCreate c q base n host) s = .next (s.modCtx c fun k => { k with queues := k.queues ++
      [{ id := q, base, sizeLog := n, inHost := host, wridx := 0, rdidx := 0, next := 0, errcode := 0, state := .idle, packets := [] }] })) ∧
  (∀ (s : State) (c q : Nat) (k : Ctx) (x : UQueue) (w : Word), s.ctx? c = some k → s.queue? c q = some x →
    let leaves := fun (i : Instr) (y : UQueue) => ∃ s', exec i s = .next s' ∧ s'.queue? c q = some y ∧
      (∀ r, r ≠ q → s'.queue? c r = s.queue? c r) ∧ s'.threads = s.threads ∧ s'.mem = s.mem
    leaves (.notifyWrite c q w)
      (if (x.state = .idle ∨ x.state = .fetch) ∧ 2 ^ x.sizeLog < (w - x.rdidx).toNat then { x with wridx := w, state := .error, errcode := 8 }
       else { x with wridx := w, state := if x.state = .idle ∧ x.rdidx ≠ w then .fetch else x.state }) ∧
    (x.packets = [] → s.waitingLaunch c q x = false → leaves (.qreset c q w) { x with wridx := w, rdidx := w, next := w, errcode := 0, state := .idle }) ∧
    (x.packets = [] → x.state = .fetch → x.next ≠ x.wridx → x.sizeLog ≤ 16 → k.dying = false → s.stop.state = 0 → s.ckpt.state ≤ 1 →
      x.inHost = true ∨ (∀ k ∈ s.cores, k.slots = []) → ∀ hb bs, (s.ringRead x x.next.toNat 0 8).2 = .ok hb → (s.ringRead x x.next.toNat 0 64).2 = .ok bs →
      let h := natOfBytes hb
      let kind := h / 16 % 16
      let s1 := (s.ringRead x x.next.toNat 0 64).1
      h % 2 = 1 →
      (packetHeaderOk h = false → kind ≠ 1 → kind ≠ 2 → kind ≠ 3 → leaves (.nopPacket c q) { x with state := .error, errcode := 5 }) ∧
      (packetHeaderOk h = true → headOk k kind bs = true → s.packetWhole x h = true → kind ≠ 1 → fieldAt bs 8 8 = 0 → k.waiting = [] →
        s1.ringOpen x x.next.toNat = true →
        let mask := maskOfBytes ((bs.drop 16).take 32)
        let passed := fun (i : Instr) (v : EvMask) => ∃ s', exec i s = .next s' ∧ s'.mem = (if x.inHost = true then s.mem else (s1.iaWrite1 .io (x.addr x.next.toNat 0) (List.replicate 8 0)).1.mem) ∧
          s'.queue? c q = some { x with rdidx := x.next + 1, next := x.next + 1, state := if x.next + 1 = x.wridx then .idle else .fetch } ∧
          (s'.ctx? c).map (·.events) = some v
        (kind = 0 → passed (.nopPacket c q) k.events ∧ passed (.cpSlotPoll c q) k.events) ∧
        (kind = 2 → passed (.evopPacket c q) (if h.testBit 9 = true then k.events &&& ~~~mask else k.events ||| mask)) ∧
        (kind = 3 → (mask &&& ~~~k.events = 0 → passed (.barrierPacket c q) k.events) ∧
          (mask &&& ~~~k.events ≠ 0 → ∃ s' y, exec (.barrierPacket c q) s = .next s' ∧ s'.queue? c q = some y ∧
            y.state = .hold ∧ y.next = x.next + 1 ∧ y.rdidx = x.next + 1 ∧ y.packets.length = 1))) ∧
      (packetHeaderOk h = true → headOk k kind bs = true → s.packetWhole x h = true → kind = 1 → k.waiting = [] →
        ∀ rec_, (s.packetRecord x x.next.toNat).2 = .ok rec_ →
        let r := Record.ofBytes rec_
        (∀ ker, k.noDies = false → recordOk s k rec_ = true → k.kernel? r.kentry = some ker → (ker.redreq = true → k.redundant = true) →
          r.waitmask &&& ~~~k.events = 0 →
          ∃ s' g y, exec (.launchPacket c q) s = .next s' ∧ s'.grids = s.grids ++ [g] ∧ g.ctx = c ∧ g.num = s.freeGrid c ∧ g.record = r ∧ g.kernel = ker ∧
            g.nextTeam = 0 ∧ g.ended = none ∧ s'.queue? c q = some y ∧ y.rdidx = x.next + 5 ∧ y.next = x.next + 5) ∧
        (r.waitmask &&& ~~~k.events ≠ 0 → ∃ s' y w, exec (.launchPacket c q) s = .next s' ∧ s'.queue? c q = some y ∧ y.rdidx = x.rdidx ∧
          y.next = x.next + 5 ∧ s'.grids = s.grids ∧ (s'.ctx? c).map (·.waiting) = some [w] ∧ w.body = rec_ ∧ w.waitmask = r.waitmask))) ∧
    (∀ p, x.state = .hold → x.packets = [p] → p.kind = 3 → p.freed = true → p.sig = 0 →
      (p.mask &&& ~~~k.events ≠ 0 → leaves (.cpSlotPoll c q) x) ∧
      (p.mask &&& ~~~k.events = 0 → x.next = x.wridx → leaves (.cpSlotPoll c q) { x with state := .idle, packets := [], rdidx := x.next }))) ∧
  (∀ (s : State) (c g n : Nat) (tm : Team), s.team? c g n = some tm →
    (s.teamOver tm = false → exec (.teamRetire c g n) s = .next s) ∧
    (s.teamOver tm = true → ∃ s', exec (.teamRetire c g n) s = .next s' ∧ s'.team? c g n = none ∧ s'.threads = s.threads ∧
      (s'.grid? c g).map (·.retired) = (s.grid? c g).map (fun gr => gr.retired + 1)))

/-- At rank 0 an acknowledgement that agrees is recorded, the last one commits the gang and tells the members, one that does not agree or comes late aborts it; a settled gang answers a late acknowledgement with its abort or not at all. A member settles as it is told, or aborts when twice the deadline has passed; rank 0 aborts when the deadline has. A pick with nothing to place does nothing; a grid's pick, with room in the record pool, starts its next team: a run of scratchpad that reads 0, every lane live, no join armed, the handlers' vectors, threads at the entry with the arguments in X0 to X15; a pick of forwarded records gives them the core. An overdue start with no core that admits it reserves a core that fewest retirements open. A task packet that passes its checks adds a grid bound to its die and completes its thread's status register with 0. A binding, on a core of a die of the context's domain, gives the core's scalar thread a fresh thread at the kernel's entry. (R105, R28, R107, R110, R111, R112, R113, R116, R119, R121, R143) -/
def Obligations.GangsAndPlacement : Prop :=
  (∀ (s : State) (c g rank size : Nat) (mdefs : List DWord) (gr : Grid) (x : Gang), s.grid? c g = some gr → gr.gang = some x →
    let told := fun (i : Instr) (y : Gang) (m : List HostMsg) => ∃ s', exec i s = .next s' ∧ s'.gangOf c g = some y ∧ s'.messages = s.messages ++ m ∧
      s'.mem = s.mem ∧ s'.threads = s.threads
    let ack := Instr.gangAck c g rank size mdefs
    let bad := size ≠ x.size ∨ x.size ≤ rank ∨ rank ∈ x.acks ∨ mdefs ≠ gr.mdef ∨ x.since + x.deadline * Config.cyclesPerUs < s.cycle
    let late := fun n : Nat => x.since + n * x.deadline * Config.cyclesPerUs ≤ s.cycle
    (x.rank ≠ 0 ∨ x.state = .committed → exec ack s = .next s) ∧
    (x.rank = 0 → x.state = .aborted → exec ack s = .next { s with messages := s.messages ++ [.gangAbort c g] }) ∧
    (x.rank = 0 → x.state = .uncommitted →
      (bad → told ack { x with state := .aborted } [.gangAbort c g]) ∧
      (¬ bad → x.acks.length + 1 ≠ x.size → told ack { x with acks := x.acks ++ [rank] } []) ∧
      (¬ bad → x.acks.length + 1 = x.size → told ack { x with acks := x.acks ++ [rank], state := .committed } [.gangCommit c g]) ∧
      exec (.gangCommit c g) s = .next s ∧ exec (.gangAbort c g) s = .next s ∧ exec (.gangReplyTimeout c g) s = .next s ∧
      (¬ late 1 → exec (.gangDeadlineExpiry c g) s = .next s) ∧
      (late 1 → (∀ p ∈ s.peers, p.state = .recovering → peerMember p x.id = false) → told (.gangDeadlineExpiry c g) { x with state := .aborted } [.gangAbort c g])) ∧
    (x.rank ≠ 0 → x.state = .uncommitted →
      told (.gangCommit c g) { x with state := .committed } [] ∧ told (.gangAbort c g) { x with state := .aborted } [] ∧
      exec (.gangDeadlineExpiry c g) s = .next s ∧ (¬ late 2 → exec (.gangReplyTimeout c g) s = .next s) ∧
      (late 2 → (∀ p ∈ s.peers, p.state = .recovering → peerMember p x.id = false) → told (.gangReplyTimeout c g) { x with state := .aborted } []))) ∧
  (∀ (s : State) (core : Nat), s.stop.state = 0 →
    (s.pick core = none → exec (.dispatchPick core) s = .next s) ∧
    (∀ e c g gr k scr, s.pick core = some e → e.ref = .start (.grid c g) → s.grid? c g = some gr → s.ctx? c = some k →
      scratchRun ((s.teamsOn core).map s.runOf) gr.kernel.scratch = some scr → (s.core core).scr.wf = true →
      (∀ th ∈ s.threads, inTeam c g gr.nextTeam th.id = false) → (s.startTeam gr k core scr).isSome = true →
      ∃ s' tm, exec (.dispatchPick core) s = .next s' ∧ s'.teams = s.teams ++ [tm] ∧ tm.ctx = c ∧ tm.grid = g ∧ tm.num = gr.nextTeam ∧
        tm.core = core ∧ tm.scr = scr ∧ tm.fpx = 0 ∧
        tm.groups = List.replicate gr.kernel.groups ⟨0xFFFFFFFF, List.replicate 8 0, List.replicate 8 0⟩ ∧
        tm.rungvec0 = (if gr.kernel.ghoff = 0x80000000 then 0 else gr.kernel.entry + gr.kernel.ghoff.signExtend 64 * 64) ∧
        tm.rungvec1 = (if gr.kernel.thoff = 0x80000000 then 0 else gr.kernel.entry + gr.kernel.thoff.signExtend 64 * 64) ∧
        (s'.grid? c g).map (·.nextTeam) = some (gr.nextTeam + 1) ∧
        (∀ a, (s'.core core).scr.get a = if scr ≤ a ∧ a < scr + gr.kernel.scratch then 0 else (s.core core).scr.get a) ∧
        ∀ grp l, grp < gr.kernel.groups → l < 32 → ∃ th, s'.thread? (.thr c g gr.nextTeam grp l) = some th ∧ th.core = core ∧
          th.pc = gr.kernel.entry ∧ th.nregs = gr.kernel.regsOf grp ∧ th.regs.p = 1 ∧
          ∀ n, n < th.nregs → getAt 0 th.regs.x n = if n < 16 then getAt 0 gr.record.args n else 0) ∧
    (∀ e c ts a, s.pick core = some e → e.ref = .records c ts a → ((s.dropMail (s.dieOf core) (.records c ts a)).placeRecordsOn core ts).isSome = true →
      ∃ s', exec (.dispatchPick core) s = .next s' ∧ s'.mem = s.mem ∧ ∀ t ∈ ts, ∀ th, s.thread? t = some th →
        ∃ th', s'.thread? t = some th' ∧ th'.core = core ∧ th'.regs = th.regs ∧ th'.pc = th.pc)) ∧
  (∀ (s : State) (d : Nat),
    (s.wantsCore d = none → exec (.coreReservation d) s = .next s) ∧
    ∀ r n, s.wantsCore d = some (r, n) → (∃ k ∈ s.coresOf d, (s.retireCount k n).isSome = true) →
      ∃ s' core m, exec (.coreReservation d) s = .next s' ∧ core ∈ s.coresOf d ∧ s.retireCount core n = some m ∧
        (∀ k ∈ s.coresOf d, ∀ m', s.retireCount k n = some m' → m ≤ m') ∧ (s'.die d).reserve = some (core, r) ∧
        ∀ d', d' ≠ d → s'.die d' = s.die d') ∧
  (∀ (s : State) (n : Nat),
    (s.taskReady n = none → exec (.taskPacketArrival n) s = .next s) ∧
    ∀ o pkt die th k ker, s.taskReady n = some (o, pkt, die) → s.thread? o.t = some th → s.ctx? (s.ctxOf o.t) = some k →
      k.kernel? (BitVec.ofNat 64 (fieldAt pkt 0 8)) = some ker → taskOk k pkt = true → (ker.redreq = true → k.redundant = true) →
      ∃ s' g, exec (.taskPacketArrival n) s = .next s' ∧ s'.grids = s.grids ++ [g] ∧ g.ctx = k.id ∧ g.kernel = ker ∧ g.mailbox = some die ∧
        g.dies = BitVec.ofNat 32 (2 ^ die) ∧ g.record.nteams = fieldAt pkt 8 4 ∧ g.record.args.take 8 = wordsOfBytes 8 (pkt.drop 32) ∧
        s'.compl = s.compl ∧ (th.pend = 1 → th.loc ≠ .resident → ∃ x, s'.thread? o.t = some x ∧ x.pend = 0 ∧
          x.regs = th.regs.putAll (th.dest.map fun d => (d, 0)) [] ∧ x.pc = th.pc)) ∧
  ∀ (s : State) (core c : Nat) (entry : DWord) (team : Option (Nat × Nat)) (runtime : Bool) (k : Ctx) (ker : Kernel),
    s.ctx? c = some k → k.kernel? entry = some ker → core < s.ncore → 0 < ker.regs →
    (core ∉ s.domainCores c → exec (.scalarThreadBind core c entry team runtime) s = .next s) ∧
    (core ∈ s.domainCores c → ∃ s' th, exec (.scalarThreadBind core c entry team runtime) s = .next s' ∧ (s'.core core).bind = some ⟨c, entry, team, runtime⟩ ∧
      s'.thread? (.scalar core) = some th ∧ th.pc = entry ∧ th.loc = .resident ∧ th.nregs = 8 * ker.regs ∧
      th.regs = { x := List.replicate (8 * ker.regs) 0, p := 1, bad := [] } ∧ th.h.hmode = false ∧ th.hold = false ∧
      ∀ u, u ≠ .scalar core → s'.thread? u = s.thread? u)

/-- A line that its core holds with good parity starts when its word and target pass, and waits while a flag of its WAIT is pending; else WINDOW_MISS, ILLEGAL_LINE or ILLEGAL_TARGET. An operation that completes writes its registers, predicates and sticky bits and clears its flag; one of a matrix quarter completes with those of all its participants. A completion writes its data and lowers PEND; at zero a resident thread goes on and a parked record is ready. A bin whose oldest record is AGELIM old drains as one, when it can, into the entry of its key where all its lanes are free, or into an entry of its own. A handler's write of TRAPPC, the service timeout (one rung up, VIA 2), the watchdog, a reservation 4,096 cycles old and an advance of PTS act on their thread alone; a remote wait past its deadline completes with REMOTE_TIMEOUT. TRAPRES.RESUME brings a thread back with its record's registers outside handler mode, to its core, where the record pool has room, and does nothing for a lost record, KILL ends its grid, ESCALATE and the entry's timeout hand its cause to the partition rung. An event that does not apply changes nothing. (R47, R51, R53, R133, R137, R392, R395, R405, R406, R294, R284, R167) -/
def Obligations.EventsOfThreads : Prop :=
  (∀ (s : State) (t : Tid) (th : Thread) (k : Ctx), s.thread? t = some th → s.ctx? (s.ctxOf t) = some k →
    let alone := fun (i : Instr) (f : Thread → Thread) => ∃ s', exec i s = .next s' ∧ LanesDo [t] f s s'
    let quiet := th.loc = .resident ∧ th.hold = false ∧ th.stalled = false ∧ th.due = false
    (quiet → th.arr = .checked ∨ th.arr = .unchecked ∨ th.arr = .fall → ∀ kv, s.viewCtx th = some kv →
      (translateVA kv (th.pc &&& ~~~0x3F#64) 64 .fetch = none → exec (.lineStart t) s = .next (s.raise t .windowMiss (th.pc &&& ~~~0x3F#64))) ∧
      (∀ ia peer l, translateVA kv (th.pc &&& ~~~0x3F#64) 64 .fetch = some (ia, peer) → (s.core th.core).cached ia = some l → lineParity l = true →
        let w := lineWord l
        let illegal := w.getLsbD 29 = true ∨ (12 ≤ wordSETA w ∧ wordSETA w ≤ 14) ∨ (12 ≤ wordSETB w ∧ wordSETB w ≤ 14)
        let target := th.pc.toNat % 64 < 5 ∧ (th.arr = .checked → w.getLsbD (th.pc.toNat % 64) = true)
        (illegal → exec (.lineStart t) s = .next (s.raise t .illegalLine 0)) ∧
        (¬ illegal → ¬ target → exec (.lineStart t) s = .next (s.raise t .illegalTarget 0)) ∧
        (¬ illegal → target → alone (.lineStart t) fun x =>
          { x with line := l, arr := if (∀ o ∈ x.ops, ∀ n, o.flag = some n → n < 12 → w.getLsbD (9 + n) = false) then .inLine else .waiting }))) ∧
    (quiet → th.arr = .waiting → th.waitClear th.line = true → alone (.lineStart t) fun x => { x with arr := .inLine }) ∧
    (th.arr = .inLine → exec (.lineStart t) s = .next s) ∧
    (∀ n o, th.ops[n]? = some o → o.batch = 0 → ∃ s', exec (.flagOperationComplete t n none) s = .next s' ∧ FpxInto t o.fpx s s' ∧
      s' = { s with threads := s'.threads, teams := s'.teams } ∧ (∀ u, u ≠ t → s'.thread? u = s.thread? u) ∧
      s'.thread? t = some { th with
        regs := th.regs.putAll o.xs o.ps, shadow := th.shadow.map fun r => r.putAll o.shadowXs o.shadowPs, ops := th.ops.eraseIdx n
        fpx := if th.isScalar = true then th.fpx ||| o.fpx else th.fpx }) ∧
    (∀ n o, th.ops[n]? = some o → o.batch ≠ 0 → ∃ s', exec (.flagOperationComplete t n none) s = .next s' ∧
      s' = { s with threads := s'.threads, teams := s'.teams } ∧
      ∀ u y, s.thread? u = some y → ∃ y', s'.thread? u = some y' ∧
        ((∀ q ∈ y.ops, q.batch ≠ o.batch) → y' = y) ∧
        (∀ j q, y.ops[j]? = some q → q.batch = o.batch → (∀ i p, y.ops[i]? = some p → p.batch = o.batch → i = j) →
          y' = { y with
            regs := y.regs.putAll q.xs q.ps, shadow := y.shadow.map fun r => r.putAll q.shadowXs q.shadowPs, ops := y.ops.eraseIdx j
            fpx := if y.isScalar = true then y.fpx ||| q.fpx else y.fpx })) ∧
    (∀ n o rs, th.ops[n]? = some o → alone (.flagOperationComplete t n (some rs)) fun x =>
      { x with regs := x.regs.putAll (o.xs.filter fun q => rs.contains q.1) [],
               shadow := x.shadow.map fun r => r.putAll (o.shadowXs.filter fun q => rs.contains q.1) [] }) ∧
    (∀ v, (th.h.hmode = false → exec (.trappcWrite t v) s = .next s) ∧
      (th.h.hmode = true → th.h.join = none → alone (.trappcWrite t v) fun x => { x with h := { x.h with trappc := v } })) ∧
    (th.h.hmode = false ∨ (∃ d, th.h.timer = some d ∧ s.cycle < d) → exec (.serviceTimeout t) s = .next s) ∧
    (th.h.hmode = true → th.loc = .resident → th.regions = [] → ∀ d, th.h.timer = some d → d ≤ s.cycle → exec (.serviceTimeout t) s =
      .next (s.deliverRaw t (th.h.rung.toNat + 1) (causeOf th.h.cause.toNat) th.h.info th.h.trappc th.h.src 2)) ∧
    (let used := th.wdUsed + (s.cycle - th.wdStart)
     let due := th.loc = .resident ∧ th.isScalar = false ∧ th.hold = false ∧ 2 ^ (k.ctxwdog.toNat / 2 ^ 18 % 64) ≤ used
     (¬ due → exec (.watchdog t) s = .next s) ∧
     (due → th.h.hmode = false → th.regions = [] → exec (.watchdog t) s =
       .next (s.deliverRaw t 0 .watchdog (BitVec.ofNat 64 used) th.pc th.pc 0))) ∧
    (th.remote = none → th.wait ≠ .group → exec (.remoteWaitTimeout t) s = .next s) ∧
    (∀ d m, th.remote = some (d, m) → th.wait = .memory → th.pend ≠ 0 → d ≤ s.cycle → (s.peer m).state ≠ .recovering →
      ∃ s', exec (.remoteWaitTimeout t) s = .next s' ∧ s'.thread? t = some { th with remote := none } ∧ s'.mem = s.mem ∧ s'.compl = s.compl ++
        [{ t, xs := th.dest.map fun x => (x, 0), p := none, cause := some (.remoteTimeout, BitVec.ofNat 64 m), set := none }]) ∧
    alone (.ptsAdvance t) (fun x => { x with pts := x.pts + 1 }) ∧
    alone (.reservationExpire t) (fun x => { x with resv := match x.resv with
      | some v => if v.since + 4096 ≤ s.cycle then none else some v
      | none => none })) ∧
  (∀ (s : State) (n : Nat), s.compl[n]? = none → exec (.recordCompletion n) s = .next s) ∧
  (∀ (s : State) (n : Nat) (q : Completion) (th : Thread), s.compl[n]? = some q → q.set = none → s.thread? q.t = some th →
    let put := fun r : Regs => r.putAll q.xs q.p.toList
    let got := { th with regs := put th.regs, shadow := th.shadow.map put, pend := th.pend - 1, tpend := th.tpend.or q.cause }
    ∃ s', exec (.recordCompletion n) s = .next s' ∧ s'.compl = s.compl.eraseIdx n ∧ (th.loc ≠ .saved → s'.mem = s.mem) ∧
      (th.pend = 0 → s'.thread? q.t = some th) ∧ (2 ≤ th.pend → s'.thread? q.t = some got) ∧
      (th.pend = 1 → th.loc = .resident → s'.thread? q.t = some { got with hold := false, wait := .none, woken := false, remote := none }) ∧
      (th.pend = 1 → th.loc = .saved → s'.thread? q.t = some { got with ready := s.cycle % 2 ^ 32, woken := false }) ∧
      (th.pend = 1 → th.loc = .parked → ∃ x, s'.thread? q.t = some x ∧ ((x.loc = .parked ∧ x.wait = th.wait) ∨ (x.loc = .resident ∧ x.wait = .none)) ∧ x.pend = 0 ∧
        x.ready = s.cycle % 2 ^ 32 ∧ x.regs = got.regs ∧ x.pc = th.pc ∧ x.tpend = got.tpend)) ∧
  (∀ (s : State) (core n : Nat),
    ((s.core core).bin? n = none → exec (.regulatorDrain core n) s = .next s) ∧
    ∀ b, (s.core core).bin? n = some b →
      (s.regulatorDue b = false → exec (.regulatorDrain core n) s = .next s) ∧
      (s.regulatorDue b = true → s.drainStuck core b.places = false → ∀ t ts th, b.places = t :: ts → s.thread? t = some th →
        let fits := fun e : EscEntry => e.ctx = Tid.ctxNum t ∧ e.grid = Tid.gridNum t ∧ e.pc = th.pc ∧ ∀ u ∈ b.places, ∀ v ∈ e.ts, Tid.lane u ≠ Tid.lane v
        ∃ s', exec (.regulatorDrain core n) s = .next s' ∧
          ((∀ e ∈ (s.core core).entries, ¬ fits e) →
            (s'.core core).entries = (s.core core).entries ++ [{ ctx := Tid.ctxNum t, grid := Tid.gridNum t, pc := th.pc, ts := b.places }]) ∧
          (∀ pre e post, (s.core core).entries = pre ++ e :: post → fits e → (∀ q ∈ pre ++ post, ¬ fits q) →
            (s'.core core).entries = pre ++ { e with ts := e.ts ++ b.places } :: post) ∧
          ∀ u ∈ b.places, ∀ x, s.thread? u = some x → ∃ y, s'.thread? u = some y ∧ y.loc = .resident ∧ y.regs = x.regs ∧ y.pc = x.pc)) ∧
  ∀ (s : State) (c e : Nat),
    (s.ringEntry? c e = none → exec (.trapresResume c e) s = .next s ∧ exec (.trapresKill c e) s = .next s ∧
      exec (.trapresEscalate c e) s = .next s ∧ exec (.ringEntryTimeout c e) s = .next s) ∧
    ∀ r, s.ringEntry? c e = some r →
      let up := fun i => ∃ s', exec i s = .next s' ∧ s'.ringEntry? c e = none ∧ s'.threads = s.threads ∧ s'.mem = s.mem ∧
        s'.work = s.work ++ [.partition r.cause r.info c (r.t.map Tid.gridNum) none none]
      up (.trapresEscalate c e) ∧ (r.deadline ≤ s.cycle → up (.ringEntryTimeout c e)) ∧
      (s.cycle < r.deadline → exec (.ringEntryTimeout c e) s = .next s) ∧
      (∀ t gr, r.t = some t → s.grid? c (Tid.gridNum t) = some gr → gr.ended = none → (∀ k ∈ s.cores, k.slots = []) →
        ∃ s', exec (.trapresKill c e) s = .next s' ∧ s'.ringEntry? c e = none ∧ (s'.grid? c (Tid.gridNum t)).map (·.ended) = some (some 4) ∧
          ∀ u, inGrid c (Tid.gridNum t) u = true → s'.thread? u = none) ∧
      (r.cause = .recordLost → exec (.trapresResume c e) s = .next s) ∧
      (∀ t th tm base quads s1 s2, r.t = some t → r.cause ≠ .recordLost → s.thread? t = some th → s.teamOf t = some tm → tm.saved = none →
        tm.preempt = false → s.choices = [] → (∀ k ∈ s.cores, k.slots = []) → (∀ core, s.records0 core < 1024) →
        s.iaRead th.saveAt 8 256 = some (s1, base) →
        s1.iaRead (th.saveAt + 256) 40 (16 * (quadsOf (BitVec.ofNat 64 (fieldAt base 0x80 8))).length) = some (s2, quads) →
        let new := th.fromExtended base quads
        ∃ s' x, exec (.trapresResume c e) s = .next s' ∧ s'.ringEntry? c e = none ∧ s'.thread? t = some x ∧
          (new.tb = true ∨ (s.logging t = false ∧ th.home ∈ s.domainCores (s.ctxOf t)) → x.core = th.home) ∧
          (new.tb = false → s.logging t = true → x.core = th.core) ∧
          (x.loc = .parked ∨ x.loc = .resident) ∧ x.pc = BitVec.ofNat 64 (fieldAt base 0 8) ∧ x.regs = new.regs ∧
          x.h.hmode = false ∧ x.h.trappc = BitVec.ofNat 64 (fieldAt base 0x88 8) ∧ x.pend = th.pend)

/-! ### Translation, faults and migration (13, 14) -/

/-- A store to XROOT keeps its defined fields; XINVAL drops exactly the kept translations that meet its range. XRESOLVE tries each held access of the granule again, and its reports may come again; with ABANDON a held access completes with PAGE_FAULT at the granule, a held write of the side log goes, and its resident thread takes PAGE_FAULT at its next instruction; accesses of another granule stay. The side log performs the first entry of a thread, or holds it when it faults; a fence marker goes once its domain's accesses are over. A migration sets BLK in every copy of the leaf and is BUSY, or FAILED when the new leaf has another size or the walk faults; its end writes the new leaf into the copies, the frame copied, or the old one back where the copy failed or met an uncorrectable error, and the channel is DONE or FAILED. A rebase takes one amount from every tick and raises EPOCH. That an abandoned read leaves its destination registers as saved is the model's reading (log 32). (R269, R270, R271, R272, R273, R274, R286, R317) -/
def Obligations.TranslationFaultsAndMigration : Prop :=
  (∀ (s : State) (v : DWord),
    let lo := v.toNat / 2 ^ 12 % 2 ^ 40 * 2 ^ 12
    let n := 2 ^ (12 + min 20 (v.toNat % 32))
    (∃ x : DWord, exec (.xrootWrite v) s = .next { s with xroot := x } ∧ ∀ i, x.getLsbD i = (v.getLsbD i && decide (i = 0 ∨ 7 ≤ i ∧ i ≤ 51))) ∧
    ∃ s', exec (.xinval v) s = .next s' ∧ s' = { s with tlb := s'.tlb } ∧
      ∀ x, x ∈ s'.tlb ↔ x ∈ s.tlb ∧ (x.2.1 + 2 ^ x.2.2.1 ≤ lo ∨ lo + n ≤ x.2.1)) ∧
  (∀ (s : State) (t : Tid) (h : HeldAcc) (g g' : Nat), s.held = [h] → h.who = .thread t → h.kind.isSome = true → h.ia / 4096 = g → g' ≠ g →
    (∀ k ∈ s.cores, k.sidelog = []) →
    let forgot := fun (x : Nat) (hs : List HeldAcc) => { s with held := hs, reported := s.reported.filter fun r => r.1 != x }
    let ends := fun (c : Option (Cause × DWord)) =>
      .next { forgot g [] with compl := s.compl ++ [{ t, xs := [], p := none, cause := c, set := none }] }
    (h.op.bytes ≠ 0 → (∀ n, h.op ≠ .barRead n) → exec (.xresolve g) s = .next ((forgot g []).request t h.ia none h.op)) ∧
    (∀ va d, h.op = .fetch va → s.routeAll h.ia false = .to d → exec (.xresolve g) s = ends none) ∧
    exec (.xresolveAbandon g) s = ends (some (.pageFault, BitVec.ofNat 64 (4096 * g))) ∧
    exec (.xresolve g') s = .next (forgot g' [h]) ∧ exec (.xresolveAbandon g') s = .next (forgot g' [h])) ∧
  (∀ (s : State) (k : Core) (e : SideEnt) (w : Eff) (th : Thread) (g : Nat),
    s.held = [] → s.cores = [k] → k.sidelog = [e] → e.op = .write w → e.ia / 4096 = g → s.thread? e.t = some th → th.loc = .resident →
    let forgot := { s with reported := s.reported.filter fun r => r.1 != g }
    exec (.xresolve g) s = .next { forgot with cores := [{ k with sidelog := [{ e with held := false }] }] } ∧
    ∃ s', exec (.xresolveAbandon g) s = .next s' ∧ LanesDo [e.t] (fun x =>
      { x with next := some (x.next.getD (.pageFault, BitVec.ofNat 64 (4096 * g))) }) { forgot with cores := [{ k with sidelog := [] }] } s') ∧
  (∀ (s : State) (core ia pa : Nat) (e : SideEnt) (rest : List SideEnt), (s.core core).sidelog = e :: rest →
    (e.held = false → (∀ k ∈ s.cores, k.slots = []) →
      (∀ o, e.request? = some o → exec (.sideLogPerform core) s = .next ((s.dropLog core e).request e.t e.ia e.peer o)) ∧
      ∀ data : List Byte, e.ia = ia →
        (∀ m, e.peer = some m → e.op = .write (.store ia (some m) data) → exec (.sideLogPerform core) s = .next (State.dropLog { s with
          out := s.out ++ [{ t := e.t, core, dest := .peer m ia, op := .write (.store ia (some m) data), seq := s.nextSeq, late := false }]
          nextSeq := s.nextSeq + 1 } core e)) ∧
        (e.peer = none → e.op = .write (.store ia none data) → data.length < 64 → s.mem.wf = true → s.route ia true = .to (.mem pa) →
          ∃ s1 : State, exec (.sideLogPerform core) s = .next (s1.dropLog core e) ∧ LineWritten e.t ia pa data s s1) ∧
        (e.peer = none → e.op = .write (.store ia none data) → ∀ f l x, s.route ia true = .fault f l x →
          let told := s.holdsFault (ia / 4096) && s.reported.contains (ia / 4096, f)
          ∃ s', exec (.sideLogPerform core) s = .next s' ∧ s' = { s with cores := s'.cores, reported := s'.reported, work := s'.work } ∧
            (s'.core core).sidelog = (e :: rest).map (fun y => if y = e then { y with held := true } else y) ∧
            (told = false → s'.work = s.work ++ [.fault (s.ctxOf e.t) (ia / 64 * 64) f .store l x]) ∧ (told = true → s'.work = s.work))) ∧
    ∀ d, e.op = .marker d → (∀ o ∈ s.out, o.t = e.t → o.inDom d = false) → exec (.fenceMarkerPerform core) s = .next (s.dropLog core e)) ∧
  (∀ (s : State) (c : Nat) (dst : DWord), c < s.migs.length →
    let m := s.mig c
    let page := m.src.toNat % 2 ^ 52
    let leaf := fun (copies : List Nat) (e : DWord) (other : Nat → Byte) (x : Nat) =>
      match copies.find? fun a => decide (a ≤ x) && decide (x < a + 8) with
      | some a => BitVec.ofNat 8 (e.toNat / 2 ^ (8 * (x - a)))
      | none => other x
    let found := walkFrom s.mem (m.src.toNat % 2 ^ 52) (s.xroot.toNat / 2 ^ 7 % 2 ^ 45 * 128) 0 5
    let leaves := fun (i : Instr) (y : Mig) (s' : State) => exec i s = .next s' ∧ s'.mig c = y ∧ (∀ d, d ≠ c → s'.mig d = s.mig d) ∧
      s' = { s with mem := s'.mem, tlb := s'.tlb, poison := s'.poison, lineIa := s'.lineIa, migs := s'.migs }
    (m.stat = 1 → exec (.migrationStart c dst) s = .next s) ∧
    (m.stat ≠ 1 → ∀ ok, exec (.migrationCopyDone c ok) s = .next s) ∧
    (m.stat ≠ 1 → ((∃ k l e, found = .fault k l e) ∨ ∃ e l a, found = .leaf e l a ∧ sameSizeLeaf dst l e = false) →
      ∃ s', leaves (.migrationStart c dst) { m with dst, stat := 3 } s' ∧ s'.mem = s.mem ∧ s'.tlb = s.tlb) ∧
    (m.stat ≠ 1 → s.mem.wf = true → ∀ e l a n, found = .leaf e l a → sameSizeLeaf dst l e = true → leafSize e = some n →
      ∃ s', leaves (.migrationStart c dst) { m with dst, stat := 1, page := page / 2 ^ n * 2 ^ n, old := e, new := dst } s' ∧
        ∀ x, s'.mem.get x = leaf (leafCopies page n l a) (e ||| 0x40) s.mem.get x) ∧
    (m.stat = 1 → s.held = [] → (∀ k ∈ s.cores, k.sidelog = []) → s.mem.wf = true → ∀ n, leafSize m.old = some n →
      let copies := s.copiesOf m.page
      (∃ s', leaves (.migrationCopyDone c false) { m with stat := 3 } s' ∧ ∀ x, s'.mem.get x = leaf copies m.old s.mem.get x) ∧
      (s.frameBad m.page m.old n = true → ∃ s', leaves (.migrationCopyDone c true) { m with stat := 3 } s' ∧
        ∀ x, s'.mem.get x = leaf copies m.old s.mem.get x) ∧
      (leafKind m.old = 0 → leafKind m.new = 0 → s.frameBad m.page m.old n = false →
        let from_ := leafBase m.old n
        let to_ := leafBase m.new n
        ∃ s', leaves (.migrationCopyDone c true) { m with stat := 2 } s' ∧
          ∀ x, s'.mem.get x = leaf copies (m.new &&& ~~~0x40#64) (fun x => if to_ ≤ x ∧ x < to_ + 2 ^ n then s.mem.get (from_ + (x - to_)) else s.mem.get x) x))) ∧
  ∀ (s : State) (n : Nat),
    (s.topTick < 2 ^ 47 → exec (.tickRebase n) s = .next s) ∧
    (2 ^ 47 ≤ s.topTick → ∃ s', exec (.tickRebase n) s = .next s' ∧
      s' = { s with epoch := (s.epoch + 1) % 2 ^ 16, threads := s.threads.map fun x => { x with pts := x.pts - n }
                    ticks := s.ticks.map fun x => (x.1, x.2.1 - n, x.2.2 - n), agents := s.agents.map fun x => (x.1, x.2 - n), cores := s'.cores } ∧
      ∀ k, s'.core k = { s.core k with slots := (s.core k).slots.map fun q => { q with pts := q.pts - n } })

/-! ### The host, peers and links (21) -/

/-- What the host reads and writes: functions 0 to 23 answer zeros before a good boot; function 24 shows the stop report and APERd and takes a write of APERd, which keeps its defined fields while the function is CONFIG_UNLOCKED; BAR2 of a placed aperture reads and writes module memory; a doorbell page shows WRIDX and takes NOTIFY or QRESET. A host access behind a held host write that comes before it waits. A doorbell page answers in the function of the die that hosts its context alone. A peer's request is performed once and answered, an error where the line does not verify; a fifth forward faults with BAD_ENTRY. A write is sent to the line's subscribers. A subscription becomes active with the region's bytes, or not, and the oldest write that its home multicast changes its bytes inside the region. A member's write of a multicast store arrives, or fails with code 7. A link that faults retrains, trains or dies, passes its three rounds and comes back by the management core's act, each with its flood; a flit retry changes nothing. A load outstanding to a peer that becomes unreachable, or is lost with its link, completes with zeros and REMOTE_TIMEOUT, one to a lost CXL device with zeros and UNCORRECTABLE. An update sets the peer's state and moves paused deadlines on. Each event changes nothing where it does not apply. The answer of a BAR read as a message and the loss of a request as an open choice are the model's (log 4, log 8, log 11, log 40). (R89, R91, R275, R278, R291, R298, R320, R322, R437, R439, R442, R443) -/
def Obligations.HostPeersAndLinks : Prop :=
  (∀ (s : State) (fn bar off n d : Nat) (data : List Byte), d < 24 →
    let later := fun op : HeldOp => .next { s with held := s.held ++ [{ who := .bar fn, ctx := 0, ia := 0, op, kind := none }] }
    ((∃ h ∈ s.held, holdsBack fn false h = true) → exec (.hostBarRead fn bar off n) s = later (.hostRead bar off n)) ∧
    ((∃ h ∈ s.held, holdsBack fn true h = true) → exec (.hostBarWrite fn bar off data) s = later (.hostWrite bar off data))) ∧
  (∀ (s : State) (fn bar off n d : Nat) (data : List Byte), d < 24 → (∀ f w, ∀ h ∈ s.held, holdsBack f w h = false) →
    let told := fun (fn bar off : Nat) (bs : List Byte) => .next { s with messages := s.messages ++ [.readDone fn bar off bs] }
    (fn < 24 → s.booted = true → s.enumerated = false →
      exec (.hostBarRead fn bar off n) s = told fn bar off (List.replicate n 0) ∧ exec (.hostBarWrite fn bar off data) s = .next s) ∧
    exec (.hostBarRead 24 0 0 4) s = told 24 0 0 (bytesOfNat 4 s.stop.state) ∧
    exec (.hostBarRead 24 0 (0x1000 + 8 * d) 8) s = told 24 0 (0x1000 + 8 * d) (bytesOfNat 8 (getAt 0 s.apers d).toNat) ∧
    (s.stop.state = 0 → data.length = 8 →
      exec (.hostBarWrite 24 0 (0x1000 + 8 * d) data) s = .next { s with work := s.work ++ [.event (.aperWrite d (dwordOfBytes data))] }) ∧
    ∀ v : DWord,
      ((s.func d).tdisp = .unlocked → ∃ x : DWord, exec (.aperWrite d v) s = .next { s with apers := setAt s.apers d x } ∧
        ∀ i, x.getLsbD i = (v.getLsbD i && decide (i = 63 ∨ 36 ≤ i ∧ i ≤ 51))) ∧
      ((s.func d).tdisp ≠ .unlocked → exec (.aperWrite d v) s = .next s)) ∧
  (∀ (s : State) (fn off n pa : Nat) (data : List Byte), fn < 24 → s.enumerated = true → s.stop.state = 0 → s.held = [] →
    (∀ k ∈ s.cores, k.slots = []) →
    let a := getAt 0 s.apers fn
    let ia := a.toNat / 2 ^ 36 % 2 ^ 16 * 2 ^ 36 + off % 2 ^ 36
    (a.getLsbD 63 = false →
      exec (.hostBarRead fn 2 off n) s = .next { s with messages := s.messages ++ [.readDone fn 2 off (List.replicate n 0)] } ∧
      exec (.hostBarWrite fn 2 off data) s = .next s) ∧
    (a.getLsbD 63 = true →
      (s.route ia false = .to (.mem pa) → ∃ s', exec (.hostBarRead fn 2 off n) s = .next s' ∧
        s' = { s with tlb := s'.tlb, ticks := s'.ticks, agents := s'.agents, messages := s.messages ++
          [.readDone fn 2 (ia % 2 ^ 36) (if s.lineBad ia pa = true then List.replicate n 0 else s.mem.read pa n)] }) ∧
      (s.route ia true = .to (.mem pa) → s.mem.wf = true → data.length < 64 → ∃ s', exec (.hostBarWrite fn 2 off data) s = .next s' ∧
        s' = { s with mem := s'.mem, poison := s'.poison, lineIa := s'.lineIa, tlb := s'.tlb, ticks := s'.ticks, leases := s'.leases
                      agents := s'.agents, threads := s'.threads, messages := s.messages ++ subWrites s ia data } ∧
        (∀ x, s'.mem.get x = if pa ≤ x ∧ x < pa + data.length then data.getD (x - pa) 0 else dirtied s ia x) ∧
        ∀ u th, s.thread? u = some th → s'.thread? u = some { th with resv := match th.resv with
          | some v => if v.line = ia / 64 ∧ v.peer = none then none else some v
          | none => none })) ∧
    ∀ (c q : Nat) (k : Ctx) (x : UQueue), q < 2 ^ 16 → s.ctx? c = some k → s.queue? c q = some x →
      let page := 4096 * (2 ^ 16 * c + q)
      let told := fun bs : List Byte => .next { s with messages := s.messages ++ [.readDone fn 0 page bs] }
      (k.host ≠ fn → exec (.hostBarRead fn 0 page 8) s = told (List.replicate 8 0) ∧ exec (.hostBarWrite fn 0 page data) s = .next s) ∧
      (k.host = fn → exec (.hostBarRead fn 0 page 8) s = told (bytesOfNat 8 x.wridx.toNat)) ∧
      (k.host = fn → data.length = 8 → exec (.hostBarWrite fn 0 page data) s = .next { s with work := s.work ++ [.event (
        if (natOfBytes data).testBit 63 = true then .qreset c q (wordOfBytes (data.take 4)) else .notifyWrite c q (wordOfBytes (data.take 4)))] })) ∧
  (∀ (s : State) (src seq hops ia n pa : Nat) (req : FabricReq),
    ((src, seq) ∈ s.seen ∨ s.stop.state ≠ 0 → exec (.fabricRequest src seq ⟨hops, req⟩) s = .next s) ∧
    ((src, seq) ∉ s.seen → s.stop.state = 0 → (∀ k ∈ s.cores, k.slots = []) →
      let answers := fun (i : FabricReq) (ms : List HostMsg) (s' : State) =>
        exec (.fabricRequest src seq ⟨hops, i⟩) s = .next s' ∧ s'.seen = (src, seq) :: s.seen ∧ s'.messages = s.messages ++ ms
      (s.route ia false = .to (.mem pa) → ∃ s', s'.mem = s.mem ∧
        answers (.read ia n) [if s.lineBad ia pa = true then .fabricBad src seq else .fabricReply src seq (s.mem.read pa n)] s') ∧
      (s.route ia false = .to (.peer n pa) → 4 ≤ hops → ∃ s', s'.mem = s.mem ∧ exec (.fabricRequest src seq ⟨hops, .read ia n⟩) s = .next s' ∧
        s'.held = s.held ++ [{ who := .fabric src seq hops, ctx := 0, ia, op := .barRead n, kind := some .badEntry }]) ∧
      (∀ data : List Byte, s.route ia true = .to (.mem pa) → s.mem.wf = true → ∃ s',
        answers (.write ia data) (subWrites s ia data ++ [.fabricReply src seq []]) s' ∧ ∀ x, s'.mem.get x = if pa ≤ x ∧ x < pa + data.length then data.getD (x - pa) 0 else dirtied s ia x))) ∧
  (∀ (s : State) (die n ia : Nat) (data : List Byte) (b : Sub), (s.die die).subs[n]? = some b →
    let becomes := fun (i : Instr) (y : Sub) => ∃ s', exec i s = .next s' ∧ s' = { s with dies := s'.dies } ∧
      (∀ d, d ≠ die → s'.die d = s.die d) ∧ s'.die die = { s.die die with subs := (s.die die).subs.set n y }
    (s.peerDead b.mod = true → exec (.subsActivate die n) s = .next s) ∧
    (s.peerDead b.mod = false → (s.peer b.mod).mem.wf = true → ∃ m : Memory, becomes (.subsActivate die n) { b with active := true, pending := [], copy := m } ∧
      m.wf = true ∧ ∀ x, m.get x = if b.ia ≤ x ∧ x < b.ia + b.len then (s.peer b.mod).mem.get x else 0) ∧
    becomes (.subsRefuse die n) { b with active := false, copy := [], pending := [] } ∧
    (b.active = false ∨ b.pending.head? ≠ some (ia, data) → becomes (.subsMulticast die n ia data) b) ∧
    (∀ rest, b.active = true → b.pending = (ia, data) :: rest → b.copy.wf = true →
      ∃ m : Memory, becomes (.subsMulticast die n ia data) { b with pending := rest, copy := m } ∧
      ∀ x, m.get x = if ia ≤ x ∧ x < ia + data.length ∧ b.ia ≤ x ∧ x < b.ia + b.len then data.getD (x - ia) 0 else b.copy.get x)) ∧
  (∀ (s : State) (n ia m off tag i : Nat) (o : OutReq) (data : List Byte), s.out = [o] → o.seq = n → i < 64 →
    o.op = .write (.stm ia data (BitVec.ofNat 64 (2 ^ i)) off tag) → o.dest = .peer m ia → m ≠ s.modid →
    (∀ k ∈ s.cores, k.slots = []) →
    let s0 := { s with out := [] }
    let failed := natOfBytes (s.scrRead o.core (off + 16) 8).1
    (s.objAt o.core off / 2 ^ 64 % 2 ^ 16 = tag → exec (.stmMemberArrival n false) s =
      .next ((s0.scrRaw o.core (off + 16) (bytesOfNat 8 (failed ||| 2 ^ i))).arrive o.core off data.length (some tag) 7).1) ∧
    (o.late = false → s.peerDead m = false → exec (.stmMemberArrival n true) s = .next (((((s0.setPeer { s.peer m with
      mem := (s.peer m).mem.write ia data }).queueSubs m ia data).clearResv (ia / 64) (some m) (some o.t)).arrive o.core off data.length (some tag) 0).1)) ∧
    (∀ k, k ≠ n → ∀ ok, exec (.stmMemberArrival k ok) s = .next s)) ∧
  (∀ (s : State) (p rev : Nat), p < s.links.length → s.out = [] → (∀ k ∈ s.cores, k.slots = []) → (∀ d ∈ s.dies, d.subs = []) →
    let l := s.link p
    let becomes := fun (y : Link) (m : List HostMsg) => .next { s with links := setAt s.links p y, messages := s.messages ++ m }
    let up := fun ls : List Link => ls.any fun y => y.state == .up
    let past := fun k : Nat => l.since + k * (50 * Config.cyclesPerUs) ≤ s.cycle
    let dead := fun r : Option Nat => becomes { l with state := .dead 0, since := s.cycle, rev := r } [.linkFlood p false]
    let round := fun (i : Instr) (k : Nat) => (l.state = .dead k → past (k + 1) → exec i s = becomes { l with state := .dead (k + 1) } []) ∧
      (l.state ≠ .dead k ∨ ¬ past (k + 1) → exec i s = .next s)
    (l.state = .up → let y : Link := { l with state := .retrain, since := s.cycle }
      exec (.linkFault p) s = becomes y (if up (setAt s.links p y) = true then [] else [.flood .recovering])) ∧
    (l.state ≠ .up → exec (.linkFault p) s = .next s) ∧
    (l.state = .retrain → exec (.linkTrained p (some rev)) s = becomes ⟨.up, s.cycle, some rev⟩ (if up s.links = true then [] else [.flood .up]) ∧
      exec (.linkTrained p none) s = dead none ∧ (past 1 → exec (.retrainRoundExpiry p) s = dead l.rev)) ∧
    (l.state ≠ .retrain → exec (.linkTrained p (some rev)) s = .next s ∧ exec (.linkTrained p none) s = .next s) ∧
    (l.state ≠ .retrain ∨ ¬ past 1 → exec (.retrainRoundExpiry p) s = .next s) ∧
    round (.deadRoundOne p) 0 ∧ round (.deadRoundTwo p) 1 ∧ round (.deadRoundThree p) 2 ∧
    (∀ k, l.state = .dead k → exec (.linkRetrainedByManagement p) s = becomes { l with state := .up, since := s.cycle } [.linkFlood p true]) ∧
    ((∀ k, l.state ≠ .dead k) → exec (.linkRetrainedByManagement p) s = .next s) ∧
    exec (.flitCrcRetry p) s = .next s) ∧
  (∀ (s : State) (p m ia n k : Nat) (sx : Bool) (o : OutReq) (th : Thread) (cs : List Nat), s.thread? o.t = some th → s.out = [o] → o.late = false →
    o.op = .load n sx → (∀ c ∈ s.cores, c.slots = []) → (∀ d ∈ s.dies, d.subs = []) →
    let ends := fun (i : Instr) (c : Cause) (info : Nat) => ∃ s', exec i s = .next s' ∧ s'.out = [] ∧ s'.mem = s.mem ∧ s'.threads = s.threads ∧ s'.compl =
      s.compl ++ [{ t := o.t, xs := th.dest.map fun r => (r, 0), p := none, cause := some (c, BitVec.ofNat 64 info), set := none }]
    let past := fun k : Nat => (s.link p).since + k * (50 * Config.cyclesPerUs) ≤ s.cycle
    (o.dest = .sys p ia → ends (.cxlDeviceLost p) .uncorrectable ia) ∧
    (o.dest = .peer m ia →
      ((s.peer m).state ≠ .recovering → ends (.linkStateUpdate m .dead) .remoteTimeout m) ∧
      (p < s.links.length → (s.link p).state = .retrain → past 1 → (∀ q, q ≠ p → q < s.links.length → ∃ r, (s.link q).state = .dead r) →
        ends (.retrainRoundExpiry p) .remoteTimeout m) ∧
      (p < s.links.length → (s.link p).state = .dead 2 → past 3 → s.choices = k :: cs → k % 2 = 1 → ends (.deadRoundThree p) .remoteTimeout m))) ∧
  ∀ (s : State) (m port : Nat) (st : PeerState),
    (s.out = [] → port ∉ s.lostPorts → exec (.cxlDeviceLost port) s = .next { s with lostPorts := port :: s.lostPorts }) ∧
    (st ≠ .dead →
      let q := s.peer m
      let n := s.cycle - q.since
      ∃ s', exec (.linkStateUpdate m st) s = .next s' ∧ s' = { s with peers := s'.peers, threads := s'.threads, grids := s'.grids } ∧
        s'.peer m = { q with state := st, since := if st = .recovering ∧ q.state = .recovering then q.since else s.cycle } ∧
        (∀ k, k ≠ m → s'.peer k = s.peer k) ∧
        (q.state ≠ .recovering ∨ st = .recovering → s'.threads = s.threads ∧ s'.grids = s.grids) ∧
        (q.state = .recovering → st ≠ .recovering → ∀ u th, s.thread? u = some th → th.wait ≠ .group →
          s'.thread? u = some { th with remote := th.remote.map fun r => if r.2 = m then (r.1 + n, r.2) else r }))

/-! ### Stops, resets and services (19, 21) -/

/-- A cause of the module rung, a partition action that lasts longer than RUNGTO3 among them, begins a stop: the report holds the cause, its information, the cycle in which it was raised and the number of grids that run, the links are told, and every grid ends with GRID_KILLED; a module that stops already is unchanged. A lost die takes with it the grids that had work there; a function-level reset also brings its cores and die back to reset and puts the function into ERROR. A module reset verifies the images in order and leaves the reset state but for memories, devices, peers and fuses. Measurements, a challenge, a key exchange, MODID, a context's creation with its reset values and its destruction with CANCELLED, and the moves of TDISP are as stated. A checkpoint's copy puts the HBM's quarters into the windows and completes CKPT with 0, or 4 on a fault, and a restore brings them back. A write of CGDEF takes the table that the lines hold, or clears V where one faults, does not verify or holds a reserved bit. What a module reset keeps, what a challenge and a key exchange answer and the moves of TDISP are the model's (log 13, log 47, log 48). (R13, R365, R396, R423, R428, R430, R434, R435, R436, R438, R446, R447) -/
def Obligations.StopsResetsAndServices : Prop :=
  (∀ (s : State) (n : Nat) (info : DWord),
    (∀ a ∈ s.parts, a.cause = causeOf n → a.info = info → s.cycle ≤ a.since + s.serviceCycles a.ctx 3) →
      exec (.partitionTimeout n info) s = .next s) ∧
  (∀ (s : State) (d n since : Nat) (info : DWord) (i : Instr) (c : Cause) (x : DWord),
    (i = .thermalCritical d ∧ c = .thermalCritical ∧ x = BitVec.ofNat 64 d ∧ since = s.cycle ∨
      i = .powerFault ∧ c = .powerFault ∧ x = 0 ∧ since = s.cycle ∨
      i = .partitionTimeout n info ∧ c = causeOf n ∧ x = info ∧ (s.partLate n info).map (·.since) = some since) →
    (s.stop.state ≠ 0 → exec i s = .next s) ∧
    (s.stop.state = 0 → (∀ k ∈ s.cores, k.slots = []) → (∀ c, c < 4 → (s.mig c).stat ≠ 1) →
      ∃ s', exec i s = .next s' ∧ s'.mem = s.mem ∧ s'.messages = s.messages ++ [.flood .dead] ∧
        s'.stop = { state := 1, cause := c.num, info := x, cycle := since, grids := (s.grids.filter fun g => g.ended.isNone).length, sigfail := 0 } ∧
        ∀ cx g gr, s.grid? cx g = some gr → gr.ended = none →
          (s'.grid? cx g).map (·.ended) = some (some stGridKilled) ∧ ∀ u, inGrid cx g u = true → s'.thread? u = none)) ∧
  (∀ (s : State) (d : Nat), (∀ k ∈ s.cores, k.slots = []) → d < 24 →
    let takes := fun s' : State => s'.mem = s.mem ∧ ∀ gr ∈ s.gridsOnDie d, s.grid? gr.ctx gr.num = some gr → gr.ended = none →
      (s'.grid? gr.ctx gr.num).map (·.ended) = some (some stGridKilled) ∧ ∀ u, inGrid gr.ctx gr.num u = true → s'.thread? u = none
    (∃ s', exec (.dieLost d) s = .next s' ∧ takes s' ∧ (s'.die d).lost = true ∧ (s'.die d).mailbox = [] ∧ (s'.die d).subs = []) ∧
    (∃ s', exec (.functionLevelReset d) s = .next s' ∧ takes s' ∧ s'.die d = Die.reset d ∧ (∀ k ∈ s.coresOf d, s'.core k = Core.reset k) ∧
      ∀ f ∈ s'.funcs, f.id = d → f.tdisp = .error ∧ f.keys = false) ∧
    ∃ s', exec (.functionLevelReset 24) s = .next s' ∧ s' = { s with apers := List.replicate 24 0, funcs := s'.funcs } ∧
      s'.funcs = s.funcs.map fun f => if f.id = 24 then { f with keys := false } else f) ∧
  (∀ (s : State) (images : List FwImage),
    let good := (images.takeWhile fun i => i.signed && decide (Config.minSecurityVersion ≤ i.version)).take 38
    exec (.moduleReset images) s = .next { State.reset with
      disabled := s.disabled, mem := s.mem, poison := s.poison, lineIa := s.lineIa, sysMem := s.sysMem, lostPorts := s.lostPorts, peers := s.peers
      inbox := s.inbox, choices := s.choices, freeCount := s.freeCount
      measured := (good.map fun i => some i.digest) ++ List.replicate (38 - good.length) none
      booted := true, enumerated := decide (good.length = 38), messages := s.messages ++ if good.length = 38 then [] else [.bootAuth] }) ∧
  (∀ (s : State) (nonce fn c die : Nat) (v : BitVec 12) (red : Bool) (st : Tdisp),
    let told := fun (x : State) (m : HostMsg) => .next { x with messages := s.messages ++ [m] }
    let func := fun f : Func → Func => { s with funcs := s.funcs.map fun x => if x.id = fn then f x else x }
    exec .getMeasurements s = told s (.measurements s.measured) ∧
    (∃ sig, exec (.challenge nonce) s = told s (.challengeAnswer nonce sig)) ∧
    exec (.keyExchange fn) s = told (func fun f => { f with keys := true }) (.sessionKey fn) ∧
    (s.ctxs = [] → exec (.modidWrite v) s = .next { s with modid := v.toNat }) ∧
    (s.ctxs ≠ [] → exec (.modidWrite v) s = .next s) ∧
    (∀ k, s.ctx? c = some k → exec (.contextCreate c ⟨red, die⟩) s = .next s) ∧
    (s.ctx? c = none → ∃ k, exec (.contextCreate c ⟨red, die⟩) s = .next { s with ctxs := s.ctxs ++ [k] } ∧ k.id = c ∧ k.redundant = red ∧ k.host = die ∧ k.events = 0 ∧
      (∀ w ∈ k.windows, w = ⟨0, 0, 0, 0⟩) ∧ k.placedom = 0x00FFFFFF ∧ k.ctxsched = 0x00200800 ∧ k.ctxcoll = 200 ∧ k.rungvec2 = 0 ∧
      k.rungto = [100, 1000, 10000, 100000] ∧ k.queues = [] ∧ k.images = []) ∧
    exec (.tdispRequest fn st) s = .next (func fun f => { f with tdisp :=
      if st = .unlocked ∨ f.tdisp = .unlocked ∧ st = .locked ∨ f.tdisp = .locked ∧ st = .run then st else f.tdisp })) ∧
  (∀ (s : State) (c : Nat) (k : Ctx), s.ctx? c = some k → k.queues = [] → k.waiting = [] → (∀ k ∈ s.cores, k.slots = []) →
    ∃ s', exec (.contextDestroy c) s = .next s' ∧ s'.mem = s.mem ∧ (∃ x, s'.ctx? c = some x ∧ x.dying = true) ∧
      (∀ n, (s'.core n).evq = (s.core n).evq.filter (·.ctx != c)) ∧
      ∀ g gr, s.grid? c g = some gr → gr.ended = none →
        (s'.grid? c g).map (·.ended) = some (some stCancelled) ∧ ∀ u, inGrid c g u = true → s'.thread? u = none) ∧
  (∀ (s : State),
    let window := fun d : Nat => 0x10000000000 + d * 2 ^ 39 + 0x4C00000000
    let quarter := 0x3000000000
    let resumes := fun (i : Instr) (st : Nat) (s' : State) => exec i s = .next s' ∧ s'.ckpt.state = 0 ∧ s'.ckpt.lastst = st ∧
      s'.ckpt.seq = s.ckpt.seq + 1 ∧ s'.ckpt.waiter = none ∧ s'.messages = s.messages ++ [.flood .up] ∧
      s'.compl = s.compl ++ (match s.ckpt.waiter with
        | some (t, d) => [{ t, xs := [(d, BitVec.ofNat 32 st)], p := none, cause := none, set := none }]
        | none => [])
    (s.ckpt.state ≠ 1 ∨ (∃ m ∈ s.migs, m.stat = 1) → exec .ckptQuiesced s = .next s) ∧
    (s.ckpt.state = 1 → (∀ m ∈ s.migs, m.stat ≠ 1) → (∀ th ∈ s.threads, th.ops = []) →
      exec .ckptQuiesced s = .next { s with ckpt := { s.ckpt with state := 2, tick := s.topTick } }) ∧
    (s.ckpt.state ≠ 2 → ∀ b, exec (.ckptCopyDone b) s = .next s) ∧
    (s.ckpt.state = 2 → (∃ s', resumes (.ckptCopyDone true) 4 s' ∧ s'.mem = s.mem) ∧
      (s.poison = [] → (∀ k ∈ s.cores, k.accBad = []) → s.mem.wf = true → ∃ s', resumes (.ckptCopyDone false) 0 s' ∧
        (∀ x, x < 0xC000000000 → s'.mem.get x = s.mem.get x) ∧
        ∀ d o, d < 4 → o < quarter → s'.mem.get (window d + 0x1000 + o) = s.mem.get (d * quarter + o))) ∧
    (s.ctxs ≠ [] → exec .checkpointRestore s = .next s) ∧
    (s.ctxs = [] → s.mem.wf = true → (∀ d, d < 4 → headerGood (s.mem.read (window d) 64) d = true) →
      ∃ s', exec .checkpointRestore s = .next s' ∧ s'.threads = s.threads ∧
        ∀ d o, d < 4 → o < quarter → s'.mem.get (d * quarter + o) = s.mem.get (window d + 0x1000 + o))) ∧
  ∀ (s : State) (c k : Nat) (v : DWord), (∀ k ∈ s.cores, k.slots = []) →
    let n := v.toNat / 2 ^ 46 % 2 ^ 13
    let at_ := v.toNat % 2 ^ 46 * 64
    let fields := v &&& 0x87FFFFFFFFFFFFFF
    let becomes := fun (s : State) (d : DWord) (table : List Word) =>
      (.next (s.modCtx c fun x => { x with cgdef := setAt x.cgdef k d, cgtab := setAt x.cgtab k table }) : Host.Outcome State Fault Refusal)
    let written := exec (.cgdefWrite c k v) s
    let void := fields &&& 0x7FFFFFFFFFFFFFFF
    let read := s.tableBytes at_ ((4 * n + 63) / 64)
    (v.getLsbD 63 = false → written = becomes s fields []) ∧
    (v.getLsbD 63 = true → n = 0 ∨ 4224 < n → written = becomes s void []) ∧
    (v.getLsbD 63 = true → n ≠ 0 → n ≤ 4224 →
      read.1 = { s with tlb := read.1.tlb, ticks := read.1.ticks, agents := read.1.agents } ∧
      (read.2 = none → written = becomes read.1 void []) ∧
      ∀ bs, read.2 = some bs →
        let table := wordsOfBytes n bs
        ((∀ w ∈ table, w.toNat / 2 ^ 25 % 2 ^ 6 = 0) → written = becomes read.1 fields table) ∧
        ((∃ w ∈ table, w.toNat / 2 ^ 25 % 2 ^ 6 ≠ 0) → written = becomes read.1 void [])) ∧
    ∀ ia pa f l e,
      (s.route ia false = .to (.mem pa) → (s.tableBytes ia 1).2 = if s.lineBad ia pa = true then none else some (s.mem.read pa 64)) ∧
      (s.route ia false = .fault f l e → (s.tableBytes ia 1).2 = none)

/-! ### Pre-emption and engine queues (19, 16) -/

/-- A pre-emption request under way ignores another write; a write without REQ keeps its fields and STATE; with REQ = 1 it is DRAINING, its deadline runs, every covered team is asked, a parked or offered thread of theirs is SAVED, a resident one goes on without its reservation, and every other thread stays. A deadline that has not passed changes nothing; one that has saves a covered resident thread whole at its pc. A covered team with all its threads saved is written as a block that begins with the fields of Table 19.12 and leaves its core, or, with no room, SAVE_FAULT goes to the partition rung; a team not ready stays. A write of TEAMRESTORE keeps DIE and, when its block names a saved team and the die belongs to the context and has room, puts the restore in that die's mailbox, once. An engine takes the oldest push entry of a queue: a checked one runs in the lowest free slot, an erroneous one ends with code 1 or 2. A COLL waits for its members' answers, and drops none before its timeout; that of a grid of one module has its own bytes as its result. (R341, R334, R369, R398, R399, R401, R402, R403) -/
def Obligations.PreemptionAndEngineQueues : Prop :=
  (∀ (s : State) (c : Nat) (v : DWord) (k : Ctx), s.ctx? c = some k →
    let stateOf := fun w : DWord => w.toNat / 2 ^ 60 % 4
    let kept := fun w : DWord => ∀ i, i < 60 → w.getLsbD i = (v.getLsbD i && decide (i < 56 ∨ i = 59))
    let i : Instr := .preemptRequest c v
    let asked := fun tm : Team => tm.ctx = c ∧ tm.saved = none ∧ tm.preempt = false ∧ v.getLsbD (32 + s.dieOf tm.core) = true ∧
      (v.getLsbD 59 = true ∨ tm.grid = v.toNat % 2 ^ 32) ∧ ∃ gr, s.grid? c tm.grid = some gr ∧ gr.ended = none
    (stateOf k.preemptctl = 1 → exec i s = .next s) ∧
    (stateOf k.preemptctl ≠ 1 → v.toNat / 2 ^ 62 ≠ 1 → ∃ s' w, exec i s = .next s' ∧ s' = { s with ctxs := s'.ctxs } ∧
      s'.ctx? c = some { k with preemptctl := w } ∧ stateOf w = stateOf k.preemptctl ∧ kept w) ∧
    (stateOf k.preemptctl ≠ 1 → v.toNat / 2 ^ 62 = 1 → ∃ s' w, exec i s = .next s' ∧ s'.mem = s.mem ∧
      s'.ctx? c = some { k with preemptctl := w, preDeadline := some (s.cycle + k.ctxwdog.toNat / 2 ^ 24 % 256 * 1100) } ∧ stateOf w = 1 ∧ kept w ∧
      (∀ g n tm, s.team? c g n = some tm → asked tm → (s'.team? c g n).map (·.preempt) = some true ∧
        ∀ t th, s.thread? t = some th → inTeam c g n t = true → th.regions = [] → th.ops = [] →
          (th.loc = .resident → s'.thread? t = some { th with resv := none }) ∧
          (∀ d, th.loc = .parked ∨ th.loc = .offered d → s'.thread? t = some (if th.whole = true then
              { th with loc := .saved, resv := none, ext := true, regmap := allQuads th.nregs, plive := true, guest := false }
            else { th with loc := .saved, resv := none, guest := false }))) ∧
      ∀ t, (∀ tm ∈ s.teams, asked tm → inTeam c tm.grid tm.num t = false) → s'.thread? t = s.thread? t)) ∧
  (∀ (s : State) (c : Nat) (k : Ctx), s.ctx? c = some k →
    let late := k.preemptctl.toNat / 2 ^ 60 % 4 = 1 ∧ ∃ d, k.preDeadline = some d ∧ d ≤ s.cycle
    (¬ late → exec (.preemptDeadline c) s = .next s) ∧
    ∀ th, late → (s.threads.filter fun x => s.covered x.id && s.ctxOf x.id == c) = [th] → th.loc = .resident → th.regions = [] → th.ops = [] → th.due = false →
      s.resWait = [] → (∀ k ∈ s.cores, k.slots = []) →
      ∃ s' x, exec (.preemptDeadline c) s = .next s' ∧ s'.mem = s.mem ∧ s'.thread? th.id = some x ∧ x.loc = .saved ∧ x.whole = true ∧ x.ext = true ∧
        x.pc = th.pc ∧ x.resv = none ∧ x.regs.p = th.regs.p ∧ (∀ n, n < th.nregs → n < 256 → getAt 0 x.regs.x n = getAt 0 th.regs.x n) ∧
        ∀ u, u ≠ th.id → s'.thread? u = s.thread? u) ∧
  (∀ (s : State) (c g t : Nat) (tm : Team) (gr : Grid), s.team? c g t = some tm → s.grid? c g = some gr → (∀ k ∈ s.cores, k.slots = []) →
    let mine := fun x : Thread => inTeam c g t x.id = true
    let ready := tm.preempt = true ∧ (∃ x ∈ s.threads, mine x) ∧ ∀ x ∈ s.threads, mine x → x.loc = .saved
    let b := s.saveBlock tm gr.kernel
    (¬ ready → exec (.teamSave c g t) s = .next s) ∧
    (ready → s.saveBytes c b = none → exec (.teamSave c g t) s = .next { s with work := s.work ++ [.partition .saveFault 0 c (some g) none none] }) ∧
    (ready → ∀ s1 ia, s.saveBytes c b = some (s1, ia) → ∃ s' x, exec (.teamSave c g t) s = .next s' ∧ s'.team? c g t = some x ∧
      x.saved = some (ia, tm.core) ∧ x.preempt = false ∧ x.groups = tm.groups ∧ x.queues = tm.queues ∧
      ∀ a ∈ x.allocs, a ∉ (s'.core tm.core).allocs) ∧
    fieldAt b 0 4 = 0x42535446 ∧ fieldAt b 4 4 = g % 2 ^ 32 ∧ fieldAt b 8 4 = t % 2 ^ 32 ∧ fieldAt b 0xC 4 = tm.core % 2 ^ 32 ∧
    fieldAt b 0x10 8 = gr.kernel.entry.toNat ∧ fieldAt b 0x18 4 = tm.fpx.toNat ∧ fieldAt b 0x20 4 = (s.teamRecords tm).length % 2 ^ 32) ∧
  (∀ (s : State) (c : Nat) (v : DWord) (k : Ctx),
    let die := v.toNat / 2 ^ 52 % 32
    let ia := v.toNat / 2 ^ 6 % 2 ^ 46 * 64
    let s1 := s.modCtx c fun x => { x with teamrestore := v &&& 0x01F0000000000000 }
    s.ctx? c = some k →
    (s1.blockTeam c ia = none → exec (.teamRestore c v) s = .next s1) ∧
    ∀ tm, s1.blockTeam c ia = some tm →
      let may := k.placedom.getLsbD die = true ∧ die < 24 ∧ s1.taskRoom die = true ∧ ∀ d ∈ s.dies, ∀ m ∈ d.mailbox, m.restores c tm.grid tm.num = false
      (¬ may → exec (.teamRestore c v) s = .next s1) ∧
      (may → ∀ a core, tm.saved = some (a, core) → exec (.teamRestore c v) s =
        .next ((s1.modTeam c tm.grid tm.num fun x => { x with saved := some (ia, core) }).modDie die fun d =>
          { d with mailbox := d.mailbox ++ [.restore c tm.grid tm.num s.cycle] }))) ∧
  (∀ (s : State) (c g t q : Nat),
    let i : Instr := .engineQueueTake c g t q
    (s.queueHead c g t q = none → exec i s = .next s) ∧
    ∀ tm kind e slot, s.queueHead c g t q = some (tm, kind, e) → s.freeSlot tm.core = some slot →
      let d : EngDesc := { kind, w := e.take 8, srcIa := none, dstIa := none, tag := none, regs := [] }
      let found := checkDesc (s.ctx? c) (some (((s.grid? c g).map (·.kernel.scratch)).getD 0)) false 0 d
      let who := tm.pusher e
      let tslot := if Tid.isScalar who then 127 else tm.tslot
      (∀ d', found = .ok d' → d'.bar = none → kind ≠ .coll → d'.total ≠ 0 →
        ∃ s' x cmd, exec i s = .next s' ∧ s'.mem = s.mem ∧ s'.team? c g t = some x ∧ (x.queue q).push = (tm.queue q).push.drop 1 ∧
          (x.queue q).result = (tm.queue q).result ∧ (s'.core tm.core).slots = (s.core tm.core).slots ++ [cmd] ∧ cmd.slot = slot ∧ cmd.d = d' ∧
          cmd.who = who ∧ cmd.tslot = tslot ∧ cmd.q = some q ∧ cmd.st = .running ∧ cmd.done = []) ∧
      (∀ err, found = .error err → s.queuePopper c g t q = none → (tm.queue q).result.length < 16 →
        ∃ s' x, exec i s = .next s' ∧ s'.mem = s.mem ∧ s'.team? c g t = some x ∧ (x.queue q).push = (tm.queue q).push.drop 1 ∧
          let ended : EvEntry :=
            { ctx := c, kind := kindEngine, status := if err.src = true then 1 else 2, tag := 0, data := BitVec.ofNat 64 (d.word 5), tslot
              group := Tid.group who, lane := Tid.lane who }
          (x.queue q).result = (tm.queue q).result ++ if d.evq || d.evqErr then [ended.words ++ [0, 0, 0, 0]] else [])) ∧
  ∀ (s : State) (core slot : Nat) (remote : List CollPart) (dropped : List Nat),
    (s.collWaits core slot = none → exec (.collResult core slot remote dropped) s = .next s) ∧
    ∀ c m gr, s.collWaits core slot = some (c, m, gr) →
      ((∃ r ∈ gr.remoteRanks m, r ∉ (gr.liveOf m).droppedMods ∧ (r ∉ dropped ∨ s.collLate gr c remote = false) ∧ ∀ q ∈ remote, q.rank ≠ r) → exec (.collResult core slot remote dropped) s = .next s) ∧
      (gr.gang = none → s.commands = [(core, c)] → c.d.srcSp = true → c.buffer = [] → (s.core core).scrBad = [] →
        let n := c.d.len / 4
        let own := (s.core core).scr.read (c.scr + c.d.word 0) c.d.len
        ∃ s' x, exec (.collResult core slot [] []) s = .next s' ∧ s'.mem = s.mem ∧ (s'.core core).scr = (s.core core).scr ∧
          s'.command? core slot = some x ∧ x.d = c.d ∧ x.done = c.done ∧
          x.result = some (bytesOfWords (combineMembers c.d.collOp c.d.collTy n [wordsOfBytes n own])))
end

