-- ==== Sys2Proof/Laws/Decode.lean ====
section
/-! SUPPORT. The word of an instruction and its fields determine each other (Table 3.6), and decoding an encoded instruction comes down to its parser. -/

namespace Sys2Proof

theorem append_high {n m : Nat} (x : BitVec n) (y : BitVec m) (k w : Nat) :
    (x ++ y).extractLsb' (m + k) w = x.extractLsb' k w := by
  apply BitVec.eq_of_getLsbD_eq
  intro i hi
  have h : ¬ m + k + i < m := by omega
  have e : m + k + i - m = k + i := by omega
  simp [BitVec.getLsbD_extractLsb', BitVec.getLsbD_append, h, e]

theorem append_low {n m : Nat} (x : BitVec n) (y : BitVec m) : (x ++ y).extractLsb' 0 m = y := by
  apply BitVec.eq_of_getLsbD_eq
  intro i hi
  simp [BitVec.getLsbD_append, hi]

theorem append_bit {n m : Nat} (x : BitVec n) (y : BitVec m) (k : Nat) : (x ++ y).getLsbD (m + k) = x.getLsbD k := by
  have h : ¬ m + k < m := by omega
  have e : m + k - m = k := by omega
  simp [BitVec.getLsbD_append, h, e]

theorem append_ofBool {n : Nat} (x : BitVec n) (b : Bool) : (x ++ BitVec.ofBool b).getLsbD 0 = b := by
  rw [BitVec.getLsbD_append]
  cases b <;> simp

theorem Fields.ofBits_toBits (f : Fields) : Fields.ofBits f.toBits = f := by
  obtain ⟨op, grd, gn, fs, sub, d, a, b, c, e, imm⟩ := f
  simp only [Fields.ofBits, Fields.toBits, Fields.mk.injEq]
  refine ⟨?_, ?_, ?_, ?_, ?_, ?_, ?_, ?_, ?_, ?_, ?_⟩
  · refine (append_high _ imm 56 8).trans ((append_high _ e 48 8).trans ((append_high _ c 40 8).trans ((append_high _ b 32 8).trans
      ((append_high _ a 24 8).trans ((append_high _ d 16 8).trans ((append_high _ sub 8 8).trans
      ((append_high _ (BitVec.ofBool fs) 7 8).trans ((append_high _ (BitVec.ofBool gn) 6 8).trans ((append_high op grd 0 8).trans ?_)))))))))
    exact BitVec.extractLsb'_eq_self
  · refine (append_high _ imm 50 6).trans ((append_high _ e 42 6).trans ((append_high _ c 34 6).trans ((append_high _ b 26 6).trans
      ((append_high _ a 18 6).trans ((append_high _ d 10 6).trans ((append_high _ sub 2 6).trans
      ((append_high _ (BitVec.ofBool fs) 1 6).trans ((append_high _ (BitVec.ofBool gn) 0 6).trans ?_))))))))
    exact append_low op grd
  · refine (append_bit _ imm 49).trans ((append_bit _ e 41).trans ((append_bit _ c 33).trans ((append_bit _ b 25).trans
      ((append_bit _ a 17).trans ((append_bit _ d 9).trans ((append_bit _ sub 1).trans ((append_bit _ (BitVec.ofBool fs) 0).trans ?_)))))))
    exact append_ofBool _ gn
  · refine (append_bit _ imm 48).trans ((append_bit _ e 40).trans ((append_bit _ c 32).trans ((append_bit _ b 24).trans
      ((append_bit _ a 16).trans ((append_bit _ d 8).trans ((append_bit _ sub 0).trans ?_))))))
    exact append_ofBool _ fs
  · refine (append_high _ imm 40 8).trans ((append_high _ e 32 8).trans ((append_high _ c 24 8).trans ((append_high _ b 16 8).trans
      ((append_high _ a 8 8).trans ((append_high _ d 0 8).trans ?_)))))
    exact append_low _ sub
  · refine (append_high _ imm 32 8).trans ((append_high _ e 24 8).trans ((append_high _ c 16 8).trans ((append_high _ b 8 8).trans
      ((append_high _ a 0 8).trans ?_))))
    exact append_low _ d
  · refine (append_high _ imm 24 8).trans ((append_high _ e 16 8).trans ((append_high _ c 8 8).trans ((append_high _ b 0 8).trans ?_)))
    exact append_low _ a
  · refine (append_high _ imm 16 8).trans ((append_high _ e 8 8).trans ((append_high _ c 0 8).trans ?_))
    exact append_low _ b
  · refine (append_high _ imm 8 8).trans ((append_high _ e 0 8).trans ?_)
    exact append_low _ c
  · refine (append_high _ imm 0 8).trans ?_
    exact append_low _ e
  · exact append_low _ imm

theorem append_get {n m : Nat} (x : BitVec n) (y : BitVec m) (i : Nat) :
    (x ++ y).getLsbD i = if i < m then y.getLsbD i else x.getLsbD (i - m) := by
  rw [BitVec.getLsbD_append]

theorem extract_get {n : Nat} (w : BitVec n) (k l i : Nat) (h : i < l) : (w.extractLsb' k l).getLsbD i = w.getLsbD (k + i) := by
  simp [h]

theorem ofBool_get (b : Bool) : (BitVec.ofBool b).getLsbD 0 = b := by cases b <;> rfl

theorem Fields.toBits_ofBits (w : Code) : (Fields.ofBits w).toBits = w := by
  apply BitVec.eq_of_getLsbD_eq
  intro i hi
  unfold Fields.toBits
  refine (append_get _ (Fields.ofBits w).imm i).trans ?_
  by_cases h0 : i < 32
  · rw [if_pos h0]
    refine (extract_get w 0 32 _ h0).trans ?_
    congr 1
    omega
  rw [if_neg h0]
  refine (append_get _ (Fields.ofBits w).e (i - 32)).trans ?_
  by_cases h32 : i - 32 < 8
  · rw [if_pos h32]
    refine (extract_get w 32 8 _ h32).trans ?_
    congr 1
    omega
  rw [if_neg h32]
  rw [show i - 32 - 8 = i - 40 by omega]
  refine (append_get _ (Fields.ofBits w).c (i - 40)).trans ?_
  by_cases h40 : i - 40 < 8
  · rw [if_pos h40]
    refine (extract_get w 40 8 _ h40).trans ?_
    congr 1
    omega
  rw [if_neg h40]
  rw [show i - 40 - 8 = i - 48 by omega]
  refine (append_get _ (Fields.ofBits w).b (i - 48)).trans ?_
  by_cases h48 : i - 48 < 8
  · rw [if_pos h48]
    refine (extract_get w 48 8 _ h48).trans ?_
    congr 1
    omega
  rw [if_neg h48]
  rw [show i - 48 - 8 = i - 56 by omega]
  refine (append_get _ (Fields.ofBits w).a (i - 56)).trans ?_
  by_cases h56 : i - 56 < 8
  · rw [if_pos h56]
    refine (extract_get w 56 8 _ h56).trans ?_
    congr 1
    omega
  rw [if_neg h56]
  rw [show i - 56 - 8 = i - 64 by omega]
  refine (append_get _ (Fields.ofBits w).d (i - 64)).trans ?_
  by_cases h64 : i - 64 < 8
  · rw [if_pos h64]
    refine (extract_get w 64 8 _ h64).trans ?_
    congr 1
    omega
  rw [if_neg h64]
  rw [show i - 64 - 8 = i - 72 by omega]
  refine (append_get _ (Fields.ofBits w).sub (i - 72)).trans ?_
  by_cases h72 : i - 72 < 8
  · rw [if_pos h72]
    refine (extract_get w 72 8 _ h72).trans ?_
    congr 1
    omega
  rw [if_neg h72]
  rw [show i - 72 - 8 = i - 80 by omega]
  refine (append_get _ (BitVec.ofBool (Fields.ofBits w).fs) (i - 80)).trans ?_
  by_cases h80 : i - 80 < 1
  · have e : i = 80 := by omega
    subst e
    rw [if_pos h80]
    exact ofBool_get _
  rw [if_neg h80]
  rw [show i - 80 - 1 = i - 81 by omega]
  refine (append_get _ (BitVec.ofBool (Fields.ofBits w).gn) (i - 81)).trans ?_
  by_cases h81 : i - 81 < 1
  · have e : i = 81 := by omega
    subst e
    rw [if_pos h81]
    exact ofBool_get _
  rw [if_neg h81]
  rw [show i - 81 - 1 = i - 82 by omega]
  refine (append_get _ (Fields.ofBits w).grd (i - 82)).trans ?_
  by_cases h82 : i - 82 < 6
  · rw [if_pos h82]
    refine (extract_get w 82 6 _ h82).trans ?_
    congr 1
    omega
  rw [if_neg h82]
  rw [show i - 82 - 6 = i - 88 by omega]
  refine (extract_get w 88 8 _ (by omega)).trans ?_
  congr 1
  omega

/-- Decoding an encoded instruction comes down to the parser of its opcode. -/
theorem decode_toBits {i : Instr} {f : Fields} (hf : i.toFields = some f) (hw : i.wellFormed = true)
    (hp : parse f = some (some i)) : decode f.toBits = .ok i := by
  unfold decode decodeFields
  rw [Fields.ofBits_toBits, hp]
  simp [hf, hw]

/-- What decodes to an instruction is that instruction's encoding. -/
theorem toFields_of_decode {w : Code} {i : Instr} (h : decode w = .ok i) : i.toFields = some (.ofBits w) ∧ i.wellFormed = true := by
  unfold decode decodeFields at h
  split at h
  · cases h
  · cases h
  · rename_i k _
    split at h
    · split at h
      · cases h
        exact ⟨‹_›, ‹_›⟩
      · cases h
    · cases h

end Sys2Proof
end

