-- ==== Sys2Proof/Laws/Parse.lean ====
section
/-! SUPPORT. The parser of each opcode (Table 3.9): what a field set of that opcode names. -/

namespace Sys2Proof

theorem parse_00 (f : Fields) (h : f.op = 0x00#8) : parse f = some (some (.nop f.g)) := by
  unfold parse parseControl
  rw [h]
  rfl

theorem parse_01 (f : Fields) (h : f.op = 0x01#8) : parse f = some (some (.bra f.g f.imm f.slot)) := by
  unfold parse parseControl
  rw [h]
  rfl

theorem parse_02 (f : Fields) (h : f.op = 0x02#8) : parse f = some (some (.brx f.g f.a)) := by
  unfold parse parseControl
  rw [h]
  rfl

theorem parse_03 (f : Fields) (h : f.op = 0x03#8) : parse f = some (some (.call f.g f.d f.imm f.slot)) := by
  unfold parse parseControl
  rw [h]
  rfl

theorem parse_04 (f : Fields) (h : f.op = 0x04#8) : parse f = some (some (.callx f.g f.d f.a)) := by
  unfold parse parseControl
  rw [h]
  rfl

theorem parse_05 (f : Fields) (h : f.op = 0x05#8) : parse f = some (some (.ret f.g f.a)) := by
  unfold parse parseControl
  rw [h]
  rfl

theorem parse_06 (f : Fields) (h : f.op = 0x06#8) : parse f = some ((JVal.ofCode f.a f.imm (f.code 0 2)).map (.jset f.g (f.d.setWidth 3))) := by
  unfold parse parseControl
  rw [h]
  rfl

theorem parse_07 (f : Fields) (h : f.op = 0x07#8) : parse f = some (some (.jwait f.g (f.d.setWidth 3))) := by
  unfold parse parseControl
  rw [h]
  rfl

theorem parse_08 (f : Fields) (h : f.op = 0x08#8) : parse f = some (some (.jleave f.g (f.d.setWidth 3))) := by
  unfold parse parseControl
  rw [h]
  rfl

theorem parse_09 (f : Fields) (h : f.op = 0x09#8) : parse f = some (some (.exit f.g)) := by
  unfold parse parseControl
  rw [h]
  rfl

theorem parse_0A (f : Fields) (h : f.op = 0x0A#8) : parse f = some (some (.brk f.g (f.imm.setWidth 16))) := by
  unfold parse parseControl
  rw [h]
  rfl

theorem parse_0B (f : Fields) (h : f.op = 0x0B#8) : parse f = some (some (.trap f.g (f.imm.setWidth 16))) := by
  unfold parse parseControl
  rw [h]
  rfl

theorem parse_0C (f : Fields) (h : f.op = 0x0C#8) : parse f = some (some (.hint f.g (f.bit 0) f.d (f.a ++ f.b ++ f.c ++ f.e ++ f.imm))) := by
  unfold parse parseControl
  rw [h]
  rfl

theorem parse_10 (f : Fields) (h : f.op = 0x10#8) : parse f = some (some (.iadd f.g f.addMode f.d f.a f.bsrc)) := by
  unfold parse parseInteger
  rw [h]
  rfl

theorem parse_11 (f : Fields) (h : f.op = 0x11#8) : parse f = some (some (.isub f.g f.addMode f.d f.a f.bsrc)) := by
  unfold parse parseInteger
  rw [h]
  rfl

theorem parse_12 (f : Fields) (h : f.op = 0x12#8) : parse f = some (some (.iaddc f.g f.d f.a f.bsrc f.pc f.pe)) := by
  unfold parse parseInteger
  rw [h]
  rfl

theorem parse_13 (f : Fields) (h : f.op = 0x13#8) : parse f = some (some (.isubb f.g f.d f.a f.bsrc f.pc f.pe)) := by
  unfold parse parseInteger
  rw [h]
  rfl

theorem parse_14 (f : Fields) (h : f.op = 0x14#8) : parse f = some (some (.imul f.g f.d f.a f.bsrc)) := by
  unfold parse parseInteger
  rw [h]
  rfl

theorem parse_15 (f : Fields) (h : f.op = 0x15#8) : parse f = some (f.sign.map fun sg => .imulh f.g sg f.d f.a f.bsrc) := by
  unfold parse parseInteger
  rw [h]
  rfl

theorem parse_16 (f : Fields) (h : f.op = 0x16#8) : parse f = some (some (.imad f.g f.d f.a f.bsrc f.c)) := by
  unfold parse parseInteger
  rw [h]
  rfl

theorem parse_17 (f : Fields) (h : f.op = 0x17#8) : parse f = some (f.sign.map fun sg => .imadw f.g sg f.d f.a f.bsrc f.c) := by
  unfold parse parseInteger
  rw [h]
  rfl

theorem parse_18 (f : Fields) (h : f.op = 0x18#8) : parse f = some (f.sign.map fun sg => .idiv f.g f.fs sg f.d f.a f.bsrc) := by
  unfold parse parseInteger
  rw [h]
  rfl

theorem parse_19 (f : Fields) (h : f.op = 0x19#8) : parse f = some (f.sign.map fun sg => .irem f.g f.fs sg f.d f.a f.bsrc) := by
  unfold parse parseInteger
  rw [h]
  rfl

theorem parse_1A (f : Fields) (h : f.op = 0x1A#8) : parse f = some (f.sign.map fun sg => .imin f.g sg f.d f.a f.bsrc) := by
  unfold parse parseInteger
  rw [h]
  rfl

theorem parse_1B (f : Fields) (h : f.op = 0x1B#8) : parse f = some (f.sign.map fun sg => .imax f.g sg f.d f.a f.bsrc) := by
  unfold parse parseInteger
  rw [h]
  rfl

theorem parse_1C (f : Fields) (h : f.op = 0x1C#8) : parse f = some (some (.iabs f.g (f.bit 0) f.d f.a)) := by
  unfold parse parseInteger
  rw [h]
  rfl

theorem parse_1D (f : Fields) (h : f.op = 0x1D#8) : parse f = some (some (.and f.g f.d f.a f.bsrc)) := by
  unfold parse parseInteger
  rw [h]
  rfl

theorem parse_1E (f : Fields) (h : f.op = 0x1E#8) : parse f = some (some (.or f.g f.d f.a f.bsrc)) := by
  unfold parse parseInteger
  rw [h]
  rfl

theorem parse_1F (f : Fields) (h : f.op = 0x1F#8) : parse f = some (some (.xor f.g f.d f.a f.bsrc)) := by
  unfold parse parseInteger
  rw [h]
  rfl

theorem parse_20 (f : Fields) (h : f.op = 0x20#8) : parse f = some (some (.andn f.g f.d f.a f.bsrc)) := by
  unfold parse parseInteger
  rw [h]
  rfl

theorem parse_21 (f : Fields) (h : f.op = 0x21#8) : parse f = some (some (.not f.g f.d f.a)) := by
  unfold parse parseInteger
  rw [h]
  rfl

theorem parse_22 (f : Fields) (h : f.op = 0x22#8) : parse f = some (some (.shl f.g (f.bit 0) f.d f.a f.bsrc)) := by
  unfold parse parseInteger
  rw [h]
  rfl

theorem parse_23 (f : Fields) (h : f.op = 0x23#8) : parse f = some (some (.shr f.g (f.bit 0) f.d f.a f.bsrc)) := by
  unfold parse parseInteger
  rw [h]
  rfl

theorem parse_24 (f : Fields) (h : f.op = 0x24#8) : parse f = some (some (.sar f.g (f.bit 0) f.d f.a f.bsrc)) := by
  unfold parse parseInteger
  rw [h]
  rfl

theorem parse_25 (f : Fields) (h : f.op = 0x25#8) : parse f = some (some (.rotl f.g f.d f.a f.bsrc)) := by
  unfold parse parseInteger
  rw [h]
  rfl

theorem parse_26 (f : Fields) (h : f.op = 0x26#8) : parse f = some (some (.funnel f.g (f.bit 1) (f.bit 0) f.d f.a f.b f.csrc)) := by
  unfold parse parseInteger
  rw [h]
  rfl

theorem parse_27 (f : Fields) (h : f.op = 0x27#8) : parse f = some (some (.clz f.g (f.bit 0) f.d f.a)) := by
  unfold parse parseInteger
  rw [h]
  rfl

theorem parse_28 (f : Fields) (h : f.op = 0x28#8) : parse f = some (some (.popc f.g f.d f.a)) := by
  unfold parse parseInteger
  rw [h]
  rfl

theorem parse_29 (f : Fields) (h : f.op = 0x29#8) : parse f = some (some (.brev f.g f.d f.a)) := by
  unfold parse parseInteger
  rw [h]
  rfl

theorem parse_2A (f : Fields) (h : f.op = 0x2A#8) : parse f = some (some (.bfx f.g (f.bit 0) f.d f.a f.bsrc)) := by
  unfold parse parseInteger
  rw [h]
  rfl

theorem parse_2B (f : Fields) (h : f.op = 0x2B#8) : parse f = some (some (.bfi f.g f.d f.a f.bsrc f.c)) := by
  unfold parse parseInteger
  rw [h]
  rfl

theorem parse_2C (f : Fields) (h : f.op = 0x2C#8) : parse f = some ((Cond.ofCode (f.code 0 3)).map fun k => .isetp f.g (f.bit 6) (.ofCode f.c (f.code 4 2)) k f.pd f.a f.bsrc f.pe) := by
  unfold parse parseInteger
  rw [h]
  rfl

theorem parse_2D (f : Fields) (h : f.op = 0x2D#8) : parse f = some (some (.sel f.g f.d f.a f.bsrc f.pc)) := by
  unfold parse parseInteger
  rw [h]
  rfl

theorem parse_2E (f : Fields) (h : f.op = 0x2E#8) : parse f = some (some (.mov f.g f.d (.ofCode f.a f.imm (f.code 0 2)))) := by
  unfold parse parseInteger
  rw [h]
  rfl

theorem parse_2F (f : Fields) (h : f.op = 0x2F#8) : parse f = some (some (.lea f.g (f.bit 1) (f.bit 0) f.d f.a f.b (f.e.setWidth 3) f.imm)) := by
  unfold parse parseInteger
  rw [h]
  rfl

theorem parse_30 (f : Fields) (h : f.op = 0x30#8) : parse f = some (some (.plop f.g f.sub f.pd f.pa f.pb f.pc)) := by
  unfold parse parseInteger
  rw [h]
  rfl

theorem parse_31 (f : Fields) (h : f.op = 0x31#8) : parse f = some (some (.p2x f.g (f.bit 0) f.d)) := by
  unfold parse parseInteger
  rw [h]
  rfl

theorem parse_32 (f : Fields) (h : f.op = 0x32#8) : parse f = some (some (.x2p f.g (f.bit 0) f.a f.imm)) := by
  unfold parse parseInteger
  rw [h]
  rfl

theorem parse_33 (f : Fields) (h : f.op = 0x33#8) : parse f = some ((PsetForm.ofCode f.a f.imm (f.code 0 2)).map (.pset f.g f.pd)) := by
  unfold parse parseInteger
  rw [h]
  rfl

theorem parse_38 (f : Fields) (h : f.op = 0x38#8) : parse f = some (some (.fadd f.g (f.bit 2) f.rm f.d f.a f.bsrc)) := by
  unfold parse parseFloat
  rw [h]
  rfl

theorem parse_39 (f : Fields) (h : f.op = 0x39#8) : parse f = some (some (.fsub f.g (f.bit 2) f.rm f.d f.a f.bsrc)) := by
  unfold parse parseFloat
  rw [h]
  rfl

theorem parse_3A (f : Fields) (h : f.op = 0x3A#8) : parse f = some (some (.fmul f.g (f.bit 2) f.rm f.d f.a f.bsrc)) := by
  unfold parse parseFloat
  rw [h]
  rfl

theorem parse_3B (f : Fields) (h : f.op = 0x3B#8) : parse f = some (some (.ffma f.g (f.bit 2) f.rm f.d f.a f.bsrc f.c)) := by
  unfold parse parseFloat
  rw [h]
  rfl

theorem parse_3C (f : Fields) (h : f.op = 0x3C#8) : parse f = some (some (.fmin f.g (f.bit 2) f.d f.a f.bsrc)) := by
  unfold parse parseFloat
  rw [h]
  rfl

theorem parse_3D (f : Fields) (h : f.op = 0x3D#8) : parse f = some (some (.fmax f.g (f.bit 2) f.d f.a f.bsrc)) := by
  unfold parse parseFloat
  rw [h]
  rfl

theorem parse_3E (f : Fields) (h : f.op = 0x3E#8) : parse f = some (some (.fsetp f.g (f.bit 6) (.ofCode f.c (f.code 4 2)) (.ofCode (f.code 0 3)) f.pd f.a f.bsrc f.pe)) := by
  unfold parse parseFloat
  rw [h]
  rfl

theorem parse_3F (f : Fields) (h : f.op = 0x3F#8) : parse f = some ((FSrc.ofCode (f.bit 2) (f.code 0 2)).map fun s => .fclass f.g s f.d f.a) := by
  unfold parse parseFloat
  rw [h]
  rfl

theorem parse_40 (f : Fields) (h : f.op = 0x40#8) : parse f = some (some (.frcp f.g f.fs (f.bit 2) f.rm f.d f.a)) := by
  unfold parse parseFloat
  rw [h]
  rfl

theorem parse_41 (f : Fields) (h : f.op = 0x41#8) : parse f = some (some (.frsq f.g f.fs (f.bit 2) f.rm f.d f.a)) := by
  unfold parse parseFloat
  rw [h]
  rfl

theorem parse_42 (f : Fields) (h : f.op = 0x42#8) : parse f = some (some (.fsqrt f.g f.fs (f.bit 2) f.rm f.d f.a)) := by
  unfold parse parseFloat
  rw [h]
  rfl

theorem parse_43 (f : Fields) (h : f.op = 0x43#8) : parse f = some (some (.fexp2 f.g f.fs (f.bit 2) f.rm f.d f.a)) := by
  unfold parse parseFloat
  rw [h]
  rfl

theorem parse_44 (f : Fields) (h : f.op = 0x44#8) : parse f = some (some (.flog2 f.g f.fs (f.bit 2) f.rm f.d f.a)) := by
  unfold parse parseFloat
  rw [h]
  rfl

theorem parse_45 (f : Fields) (h : f.op = 0x45#8) : parse f = some (some (.fsin f.g f.fs (f.bit 2) f.rm f.d f.a)) := by
  unfold parse parseFloat
  rw [h]
  rfl

theorem parse_46 (f : Fields) (h : f.op = 0x46#8) : parse f = some (some (.fcos f.g f.fs (f.bit 2) f.rm f.d f.a)) := by
  unfold parse parseFloat
  rw [h]
  rfl

theorem parse_47 (f : Fields) (h : f.op = 0x47#8) : parse f = some (some (.fdiv f.g f.fs (f.bit 2) f.rm f.d f.a f.bsrc)) := by
  unfold parse parseFloat
  rw [h]
  rfl

theorem parse_48 (f : Fields) (h : f.op = 0x48#8) : parse f = some (some (.pkadd f.g (f.bit 3) f.rm f.d f.a f.bsrc)) := by
  unfold parse parseFloat
  rw [h]
  rfl

theorem parse_49 (f : Fields) (h : f.op = 0x49#8) : parse f = some (some (.pkmul f.g (f.bit 3) f.rm f.d f.a f.bsrc)) := by
  unfold parse parseFloat
  rw [h]
  rfl

theorem parse_4A (f : Fields) (h : f.op = 0x4A#8) : parse f = some (some (.pkfma f.g (f.bit 3) f.rm f.d f.a f.bsrc f.c)) := by
  unfold parse parseFloat
  rw [h]
  rfl

theorem parse_4B (f : Fields) (h : f.op = 0x4B#8) : parse f = some (some (.pkmin f.g (f.bit 3) f.d f.a f.bsrc)) := by
  unfold parse parseFloat
  rw [h]
  rfl

theorem parse_4C (f : Fields) (h : f.op = 0x4C#8) : parse f = some (some (.pkmax f.g (f.bit 3) f.d f.a f.bsrc)) := by
  unfold parse parseFloat
  rw [h]
  rfl

theorem parse_4D (f : Fields) (h : f.op = 0x4D#8) : parse f = some (some (.pksetp f.g (f.bit 3) (.ofCode (f.code 0 3)) f.pd f.a f.bsrc f.pe)) := by
  unfold parse parseFloat
  rw [h]
  rfl

theorem parse_4E (f : Fields) (h : f.op = 0x4E#8) : parse f = some (some (.fscale f.g (f.bit 2) f.rm f.d f.a f.bsrc)) := by
  unfold parse parseFloat
  rw [h]
  rfl

theorem parse_4F (f : Fields) (h : f.op = 0x4F#8) : parse f = some (some (.frnd f.g (f.bit 2) f.rm f.d f.a)) := by
  unfold parse parseFloat
  rw [h]
  rfl

theorem parse_50 (f : Fields) (h : f.op = 0x50#8) : parse f = some (some (.dot2 f.g (f.bit 3) (f.bit 2) f.rm f.d f.a f.bsrc f.c)) := by
  unfold parse parseFloat
  rw [h]
  rfl

theorem parse_51 (f : Fields) (h : f.op = 0x51#8) : parse f = some (some (.fmtrd f.g f.d f.k3)) := by
  unfold parse parseFloat
  rw [h]
  rfl

theorem parse_60 (f : Fields) (h : f.op = 0x60#8) : parse f = some ((FSrc.ofCode (f.bit 4) (f.code 2 2)).map fun s => .f2i f.g (f.bit 6) (f.bit 5) s f.rm f.d f.a) := by
  unfold parse parseConvert
  rw [h]
  rfl

theorem parse_61 (f : Fields) (h : f.op = 0x61#8) : parse f = some ((IFmt.ofCode (f.code 2 2)).map fun r => .i2f f.g (f.bit 5) r f.rm f.d f.a) := by
  unfold parse parseConvert
  rw [h]
  rfl

theorem parse_62 (f : Fields) (h : f.op = 0x62#8) : parse f = some ((IFmt.ofCode (f.code 4 2)).bind fun r => (FSrc.ofCode (f.bit 6) (f.code 2 2)).map fun s => .f2f f.g (f.bit 7) r s f.rm f.d f.a) := by
  unfold parse parseConvert
  rw [h]
  rfl

theorem parse_63 (f : Fields) (h : f.op = 0x63#8) : parse f = some ((NFmt.ofCode (f.code 2 3)).map fun n => .packn f.g (f.bit 5) n f.rm f.d f.a f.b) := by
  unfold parse parseConvert
  rw [h]
  rfl

theorem parse_64 (f : Fields) (h : f.op = 0x64#8) : parse f = some ((NFmt.ofCode (f.code 2 3)).map fun n => .unpackn f.g n f.d f.a) := by
  unfold parse parseConvert
  rw [h]
  rfl

theorem parse_65 (f : Fields) (h : f.op = 0x65#8) : parse f = some (some (.bscale f.g (f.bit 3) (f.bit 2) f.rm f.d f.a f.b (f.e.setWidth 2))) := by
  unfold parse parseConvert
  rw [h]
  rfl

theorem parse_66 (f : Fields) (h : f.op = 0x66#8) : parse f = some ((IFmt.ofCode (f.code 0 2)).map fun s => .qblk f.g (f.bit 2) s f.d f.a f.c f.k3) := by
  unfold parse parseConvert
  rw [h]
  rfl

theorem parse_67 (f : Fields) (h : f.op = 0x67#8) : parse f = some ((IFmt.ofCode (f.code 0 2)).map fun s => .dqblk f.g (f.bit 2) s f.d f.a f.c f.k3) := by
  unfold parse parseConvert
  rw [h]
  rfl

theorem parse_68 (f : Fields) (h : f.op = 0x68#8) : parse f = some ((ITarget.ofCode (f.code 0 3)).map fun t => .i2i f.g (f.bit 4) (f.bit 3) t f.d f.a) := by
  unfold parse parseConvert
  rw [h]
  rfl

theorem parse_70 (f : Fields) (h : f.op = 0x70#8) : parse f = some (some (.shfl f.g (if f.bit 5 then some f.c else none) (BitVec.ofNat 3 (f.code 2 3)) (.ofCode (f.code 0 2)) f.d f.a f.bsrc f.pe)) := by
  unfold parse parseLane
  rw [h]
  rfl

theorem parse_71 (f : Fields) (h : f.op = 0x71#8) : parse f = some (some (.vote f.g (f.bit 2) (.ofCode f.d (f.code 0 2)) f.pa)) := by
  unfold parse parseLane
  rw [h]
  rfl

theorem parse_72 (f : Fields) (h : f.op = 0x72#8) : parse f = some (some (.matchx f.g (f.bit 1) (if f.bit 0 then some f.pe else none) f.d f.a)) := by
  unfold parse parseLane
  rw [h]
  rfl

theorem parse_73 (f : Fields) (h : f.op = 0x73#8) : parse f = some ((RedOp.ofCode (f.code 0 4)).map fun o => .redux f.g (f.bit 4) o f.d f.a) := by
  unfold parse parseLane
  rw [h]
  rfl

theorem parse_74 (f : Fields) (h : f.op = 0x74#8) : parse f = some ((RedixTy.ofCode (f.code 0 2)).map fun t => .redix f.g (f.bit 4) (if f.bit 3 then some f.b else none) (f.bit 2) t f.d f.a) := by
  unfold parse parseLane
  rw [h]
  rfl

theorem parse_75 (f : Fields) (h : f.op = 0x75#8) : parse f = some ((RedOp.ofCode (f.code 0 4)).map fun o => .scan f.g (f.bit 5) (f.bit 4) o f.d f.a) := by
  unfold parse parseLane
  rw [h]
  rfl

theorem parse_76 (f : Fields) (h : f.op = 0x76#8) : parse f = some (some (.elect f.g (if f.bit 0 then some f.d else none) f.pe)) := by
  unfold parse parseLane
  rw [h]
  rfl

theorem parse_77 (f : Fields) (h : f.op = 0x77#8) : parse f = some ((LaneKind.ofCode (f.code 0 3)).map fun k => .lanemask f.g k f.d) := by
  unfold parse parseLane
  rw [h]
  rfl

theorem parse_80 (f : Fields) (h : f.op = 0x80#8) : parse f = some (f.size.map fun z => .lds f.g f.fs (f.bit 5) z f.d f.m) := by
  unfold parse parseMemory
  rw [h]
  rfl

theorem parse_81 (f : Fields) (h : f.op = 0x81#8) : parse f = some (f.size.map fun z => .sts f.g f.fs z f.d f.m) := by
  unfold parse parseMemory
  rw [h]
  rfl

theorem parse_82 (f : Fields) (h : f.op = 0x82#8) : parse f = some (f.size.bind fun z => (AtomOp.ofCode f.c f.e.toNat).map fun o => .atoms f.g f.fs o z f.d f.m f.b) := by
  unfold parse parseMemory
  rw [h]
  rfl

theorem parse_83 (f : Fields) (h : f.op = 0x83#8) : parse f = some (f.size.map fun z => .ldc f.g (f.bit 5) (BitVec.ofNat 2 (f.code 3 2)) z f.d f.m) := by
  unfold parse parseMemory
  rw [h]
  rfl

theorem parse_84 (f : Fields) (h : f.op = 0x84#8) : parse f = some (f.size.map fun z => .st f.g (BitVec.ofNat 2 (f.code 3 2)) z f.d f.m) := by
  unfold parse parseMemory
  rw [h]
  rfl

theorem parse_85 (f : Fields) (h : f.op = 0x85#8) : parse f = some (f.size.bind fun z => (AtomOp.ofCode f.c f.e.toNat).map fun o => .atomc f.g o z f.d f.m f.b) := by
  unfold parse parseMemory
  rw [h]
  rfl

theorem parse_86 (f : Fields) (h : f.op = 0x86#8) : parse f = some (f.size.bind fun z => (AtomOp.ofCode f.c f.e.toNat).map fun o => .red f.g o z f.d f.m) := by
  unfold parse parseMemory
  rw [h]
  rfl

theorem parse_87 (f : Fields) (h : f.op = 0x87#8) : parse f = some (f.size.map fun z => .casc f.g z f.d f.m f.b f.c) := by
  unfold parse parseMemory
  rw [h]
  rfl

theorem parse_88 (f : Fields) (h : f.op = 0x88#8) : parse f = some (f.size.map fun z => .lr f.g z f.d f.m) := by
  unfold parse parseMemory
  rw [h]
  rfl

theorem parse_89 (f : Fields) (h : f.op = 0x89#8) : parse f = some (f.size.map fun z => .sc f.g z f.d f.m f.pe) := by
  unfold parse parseMemory
  rw [h]
  rfl

theorem parse_8A (f : Fields) (h : f.op = 0x8A#8) : parse f = some ((FenceDom.ofCode (f.code 0 2)).map (.fence f.g)) := by
  unfold parse parseMemory
  rw [h]
  rfl

theorem parse_8B (f : Fields) (h : f.op = 0x8B#8) : parse f = some ((PrefLevel.ofCode (f.code 3 2)).map fun l => .pref f.g l f.m) := by
  unfold parse parseMemory
  rw [h]
  rfl

theorem parse_8C (f : Fields) (h : f.op = 0x8C#8) : parse f = some (some (.subs f.g f.d f.m f.b)) := by
  unfold parse parseMemory
  rw [h]
  rfl

theorem parse_8D (f : Fields) (h : f.op = 0x8D#8) : parse f = some (some (.unsub f.g f.m)) := by
  unfold parse parseMemory
  rw [h]
  rfl

theorem parse_8E (f : Fields) (h : f.op = 0x8E#8) : parse f = some (f.size.map fun z => .stm f.g z f.d f.m f.b f.c) := by
  unfold parse parseMemory
  rw [h]
  rfl

theorem parse_A0 (f : Fields) (h : f.op = 0xA0#8) : parse f = some (some (.cpy f.g f.a)) := by
  unfold parse parseEngine
  rw [h]
  rfl

theorem parse_A1 (f : Fields) (h : f.op = 0xA1#8) : parse f = some (some (.gath f.g f.a)) := by
  unfold parse parseEngine
  rw [h]
  rfl

theorem parse_A2 (f : Fields) (h : f.op = 0xA2#8) : parse f = some (some (.scat f.g f.a)) := by
  unfold parse parseEngine
  rw [h]
  rfl

theorem parse_A3 (f : Fields) (h : f.op = 0xA3#8) : parse f = some (some (.binit f.g f.m f.b f.c)) := by
  unfold parse parseEngine
  rw [h]
  rfl

theorem parse_A4 (f : Fields) (h : f.op = 0xA4#8) : parse f = some (some (.barr f.g f.m f.b)) := by
  unfold parse parseEngine
  rw [h]
  rfl

theorem parse_A5 (f : Fields) (h : f.op = 0xA5#8) : parse f = some (some (.bwait f.g f.m f.b)) := by
  unfold parse parseEngine
  rw [h]
  rfl

theorem parse_A6 (f : Fields) (h : f.op = 0xA6#8) : parse f = some (some (.qpush f.g f.fs (f.d.setWidth 4) f.a f.pe)) := by
  unfold parse parseEngine
  rw [h]
  rfl

theorem parse_A7 (f : Fields) (h : f.op = 0xA7#8) : parse f = some (some (if f.bit 0 then .qpopNb f.g f.d (f.a.setWidth 4) f.pe else .qpop f.g f.d (f.a.setWidth 4))) := by
  unfold parse parseEngine
  rw [h]
  rfl

theorem parse_A8 (f : Fields) (h : f.op = 0xA8#8) : parse f = some (some (.qstat f.g f.d (f.a.setWidth 4))) := by
  unfold parse parseEngine
  rw [h]
  rfl

theorem parse_A9 (f : Fields) (h : f.op = 0xA9#8) : parse f = some (some (.fill f.g f.a)) := by
  unfold parse parseEngine
  rw [h]
  rfl

theorem parse_AA (f : Fields) (h : f.op = 0xAA#8) : parse f = some (some (.cpyr f.g f.a f.b (f.e.setWidth 4))) := by
  unfold parse parseEngine
  rw [h]
  rfl

theorem parse_AB (f : Fields) (h : f.op = 0xAB#8) : parse f = some (some (.mxs f.g f.a)) := by
  unfold parse parseEngine
  rw [h]
  rfl

theorem parse_AC (f : Fields) (h : f.op = 0xAC#8) : parse f = some (some (.coll f.g f.a)) := by
  unfold parse parseEngine
  rw [h]
  rfl

theorem parse_B0 (f : Fields) (h : f.op = 0xB0#8) : parse f = some ((IFmt.ofCode (f.code 0 2)).map fun t => .mmaq f.g f.fs (f.bit 2) t f.d f.a f.b f.c f.k3 (if f.e.getLsbD 3 then some (f.e.extractLsb' 4 2) else none)) := by
  unfold parse parseMatrix
  rw [h]
  rfl

theorem parse_B1 (f : Fields) (h : f.op = 0xB1#8) : parse f = some ((IFmt.ofCode (f.code 0 2)).map fun t => .mmaz f.g f.fs (f.bit 2) t f.d f.a f.b f.c f.k3 (if f.e.getLsbD 3 then some (f.e.extractLsb' 4 2) else none)) := by
  unfold parse parseMatrix
  rw [h]
  rfl

theorem parse_B2 (f : Fields) (h : f.op = 0xB2#8) : parse f = some (some (.talloc f.g f.d f.pe (f.imm.setWidth 11))) := by
  unfold parse parseMatrix
  rw [h]
  rfl

theorem parse_B3 (f : Fields) (h : f.op = 0xB3#8) : parse f = some (some (.tfree f.g)) := by
  unfold parse parseMatrix
  rw [h]
  rfl

theorem parse_B4 (f : Fields) (h : f.op = 0xB4#8) : parse f = some ((IFmt.ofCode (f.code 0 2)).map fun t => .tld f.g f.fs t f.d f.m) := by
  unfold parse parseMatrix
  rw [h]
  rfl

theorem parse_B5 (f : Fields) (h : f.op = 0xB5#8) : parse f = some ((IFmt.ofCode (f.code 0 2)).bind fun t => (ImgFmt.ofCode (f.code 2 3)).map fun i => .tst f.g f.fs i t f.d f.m) := by
  unfold parse parseMatrix
  rw [h]
  rfl

theorem parse_B6 (f : Fields) (h : f.op = 0xB6#8) : parse f = some ((IFmt.ofCode (f.code 0 2)).map fun t => .tzero f.g f.fs t f.d) := by
  unfold parse parseMatrix
  rw [h]
  rfl

theorem parse_B7 (f : Fields) (h : f.op = 0xB7#8) : parse f = some (some (.tspill f.g f.fs f.d f.m f.k3)) := by
  unfold parse parseMatrix
  rw [h]
  rfl

theorem parse_B8 (f : Fields) (h : f.op = 0xB8#8) : parse f = some (some (.tfill f.g f.fs f.d f.m f.k3)) := by
  unfold parse parseMatrix
  rw [h]
  rfl

theorem parse_B9 (f : Fields) (h : f.op = 0xB9#8) : parse f = some ((IFmt.ofCode (f.code 0 2)).bind fun t => (IFmt.ofCode (f.code 2 2)).map fun r => .frags f.g f.fs r t f.d f.a) := by
  unfold parse parseMatrix
  rw [h]
  rfl

theorem parse_BA (f : Fields) (h : f.op = 0xBA#8) : parse f = some ((IFmt.ofCode (f.code 0 2)).map fun t => .tsig f.g f.fs t f.d f.a) := by
  unfold parse parseMatrix
  rw [h]
  rfl

theorem parse_C0 (f : Fields) (h : f.op = 0xC0#8) : parse f = some (f.size.bind fun z => (LdgOp.ofCode (f.code 5 3)).map fun o => .ldg f.g o (.ofCode (f.code 3 2)) z f.d f.m (f.b.setWidth 2) f.pe) := by
  unfold parse parseGroup
  rw [h]
  rfl

theorem parse_C1 (f : Fields) (h : f.op = 0xC1#8) : parse f = some (some (.cbr f.g (f.bit 0) (f.bit 1) f.pa (f.b.setWidth 2) f.imm f.slot)) := by
  unfold parse parseGroup
  rw [h]
  rfl

theorem parse_C2 (f : Fields) (h : f.op = 0xC2#8) : parse f = some (some (.csync f.g (f.bit 0) (f.a.setWidth 2))) := by
  unfold parse parseGroup
  rw [h]
  rfl

theorem parse_C3 (f : Fields) (h : f.op = 0xC3#8) : parse f = some (some (.mbrd f.g (.ofCode (f.code 0 2)) f.d (f.a.setWidth 2))) := by
  unfold parse parseGroup
  rw [h]
  rfl

theorem parse_C4 (f : Fields) (h : f.op = 0xC4#8) : parse f = some (some (.gbar f.g (f.bit 0) (f.a.setWidth 2))) := by
  unfold parse parseGroup
  rw [h]
  rfl

theorem parse_D0 (f : Fields) (h : f.op = 0xD0#8) : parse f = some (some (.seg f.g (f.bit 0) f.d (f.e.extractLsb' 3 4) f.imm f.slot)) := by
  unfold parse parseLaunch
  rw [h]
  rfl

theorem parse_D1 (f : Fields) (h : f.op = 0xD1#8) : parse f = some (some (.yield f.g f.imm f.slot)) := by
  unfold parse parseLaunch
  rw [h]
  rfl

theorem parse_D2 (f : Fields) (h : f.op = 0xD2#8) : parse f = some (some (.launch f.g (f.bit 0) f.d f.m)) := by
  unfold parse parseLaunch
  rw [h]
  rfl

theorem parse_D3 (f : Fields) (h : f.op = 0xD3#8) : parse f = some (some (.spawn f.g f.d f.a)) := by
  unfold parse parseLaunch
  rw [h]
  rfl

theorem parse_D4 (f : Fields) (h : f.op = 0xD4#8) : parse f = some (some (.fwd f.g (if f.bit 0 then none else some f.b) f.d (f.e.extractLsb' 3 4))) := by
  unfold parse parseLaunch
  rw [h]
  rfl

theorem parse_D5 (f : Fields) (h : f.op = 0xD5#8) : parse f = some (some (.mbox f.g f.d f.a f.b)) := by
  unfold parse parseLaunch
  rw [h]
  rfl

theorem parse_D6 (f : Fields) (h : f.op = 0xD6#8) : parse f = some ((EvForm.ofCode f.a f.imm (f.code 0 2)).map (.evset f.g)) := by
  unfold parse parseLaunch
  rw [h]
  rfl

theorem parse_D7 (f : Fields) (h : f.op = 0xD7#8) : parse f = some ((EvForm.ofCode f.a f.imm (f.code 0 2)).map (.evclr f.g)) := by
  unfold parse parseLaunch
  rw [h]
  rfl

theorem parse_D8 (f : Fields) (h : f.op = 0xD8#8) : parse f = some ((EvForm.ofCode f.a f.imm (f.code 0 2)).map (.evwait f.g)) := by
  unfold parse parseLaunch
  rw [h]
  rfl

theorem parse_D9 (f : Fields) (h : f.op = 0xD9#8) : parse f = some (some (if f.bit 0 then .evqpopNb f.g f.d else .evqpop f.g f.d)) := by
  unfold parse parseLaunch
  rw [h]
  rfl

theorem parse_E0 (f : Fields) (h : f.op = 0xE0#8) : parse f = some (some (.rbegin f.g f.d f.imm f.slot)) := by
  unfold parse parseSystem
  rw [h]
  rfl

theorem parse_E1 (f : Fields) (h : f.op = 0xE1#8) : parse f = some (some (.rkeep f.g f.a (f.e.setWidth 4))) := by
  unfold parse parseSystem
  rw [h]
  rfl

theorem parse_E2 (f : Fields) (h : f.op = 0xE2#8) : parse f = some (some (.rend f.g)) := by
  unfold parse parseSystem
  rw [h]
  rfl

theorem parse_E3 (f : Fields) (h : f.op = 0xE3#8) : parse f = some (some (.rabort f.g)) := by
  unfold parse parseSystem
  rw [h]
  rfl

theorem parse_E4 (f : Fields) (h : f.op = 0xE4#8) : parse f = match f.code 0 2 with | 0 => some (some (.errlogPop f.g f.d)) | 1 => some (some (.errlogStat f.g f.d)) | 2 => some (some (.errlogInj f.g (f.imm.setWidth 2))) | _ => some none := by
  unfold parse parseSystem
  rw [h]
  rfl

theorem parse_E8 (f : Fields) (h : f.op = 0xE8#8) : parse f = some (some (.srd f.g (f.bit 0) f.d (f.imm.setWidth 12))) := by
  unfold parse parseSystem
  rw [h]
  rfl

theorem parse_E9 (f : Fields) (h : f.op = 0xE9#8) : parse f = some (some (.swr f.g (f.bit 0) f.a (f.imm.setWidth 12))) := by
  unfold parse parseSystem
  rw [h]
  rfl

theorem parse_EA (f : Fields) (h : f.op = 0xEA#8) : parse f = some (some (.tret f.g)) := by
  unfold parse parseSystem
  rw [h]
  rfl

theorem parse_EB (f : Fields) (h : f.op = 0xEB#8) : parse f = some (some (.esc f.g)) := by
  unfold parse parseSystem
  rw [h]
  rfl

theorem parse_EC (f : Fields) (h : f.op = 0xEC#8) : parse f = some (some (if f.bit 0 then .winsetClr f.g (f.d.setWidth 3) else .winset f.g (f.d.setWidth 3) f.a)) := by
  unfold parse parseSystem
  rw [h]
  rfl

theorem parse_ED (f : Fields) (h : f.op = 0xED#8) : parse f = some (some (.halt f.g (f.bit 0))) := by
  unfold parse parseSystem
  rw [h]
  rfl

theorem parse_EE (f : Fields) (h : f.op = 0xEE#8) : parse f = some (some (.ckpt f.g f.d)) := by
  unfold parse parseSystem
  rw [h]
  rfl

end Sys2Proof
end

