-- ==== Sys2Proof/Laws/Codes.lean ====
section
/-! SUPPORT. The codes of the fields: their ranges, and that reading a code gives back what wrote it. -/

namespace Sys2Proof

theorem RM.code_lt (x : RM) : x.code < 4 := by cases x <;> simp [RM.code]
theorem Cond.code_lt (x : Cond) : x.code < 6 := by cases x <;> simp [Cond.code]
theorem FCond.code_lt (x : FCond) : x.code < 8 := by cases x <;> simp [FCond.code]
theorem Fold.code_lt (x : Fold) : x.code < 4 := by cases x <;> simp [Fold.code]
theorem IFmt.code_lt (x : IFmt) : x.code < 3 := by cases x <;> simp [IFmt.code]
theorem FSrc.code_lt (x : FSrc) : x.code < 3 := by cases x <;> simp [FSrc.code]
theorem NFmt.code_lt (x : NFmt) : x.code < 7 := by cases x <;> simp [NFmt.code]
theorem ITarget.code_lt (x : ITarget) : x.code < 6 := by cases x <;> simp [ITarget.code]
theorem ShflMode.code_lt (x : ShflMode) : x.code < 4 := by cases x <;> simp [ShflMode.code]
theorem VoteForm.code_lt (x : VoteForm) : x.code < 4 := by cases x <;> simp [VoteForm.code]
theorem LaneKind.code_lt (x : LaneKind) : x.code < 7 := by cases x <;> simp [LaneKind.code]
theorem RedOp.code_lt (x : RedOp) : x.code < 13 := by cases x <;> simp [RedOp.code]
theorem RedixTy.code_lt (x : RedixTy) : x.code < 3 := by cases x <;> simp [RedixTy.code]
theorem Size.code_lt (x : Size) : x.code < 5 := by cases x <;> simp [Size.code]
theorem AtomOp.code_lt (x : AtomOp) : x.code < 17 := by cases x <;> simp [AtomOp.code]
theorem FenceDom.code_lt (x : FenceDom) : x.code < 4 := by cases x <;> simp [FenceDom.code]
theorem PrefLevel.code_lt (x : PrefLevel) : x.code < 3 := by cases x <;> simp [PrefLevel.code]
theorem LdgOp.code_lt (x : LdgOp) : x.code < 7 := by cases x <;> simp [LdgOp.code]
theorem LdgTy.code_lt (x : LdgTy) : x.code < 4 := by cases x <;> simp [LdgTy.code]
theorem MbrdSel.code_lt (x : MbrdSel) : x.code < 4 := by cases x <;> simp [MbrdSel.code]
theorem ImgFmt.code_lt (x : ImgFmt) : x.code < 6 := by cases x <;> simp [ImgFmt.code]
theorem EvForm.code_lt (x : EvForm) : x.code < 3 := by cases x <;> simp [EvForm.code]
theorem Sign.code_lt (x : Sign) : x.code < 3 := by cases x <;> simp [Sign.code]
theorem JVal.code_lt (x : JVal) : x.code < 3 := by cases x <;> simp [JVal.code]
theorem MovForm.code_lt (x : MovForm) : x.code < 4 := by cases x <;> simp [MovForm.code]
theorem PsetForm.code_lt (x : PsetForm) : x.code < 3 := by cases x <;> simp [PsetForm.code]
theorem AddMode.code_lt (x : AddMode) : x.code < 4 := by cases x <;> simp [AddMode.code]

theorem RM.ofCode_code (x : RM) : RM.ofCode x.code = x := by cases x <;> rfl
theorem Cond.ofCode_code (x : Cond) : Cond.ofCode x.code = some x := by cases x <;> rfl
theorem FCond.ofCode_code (x : FCond) : FCond.ofCode x.code = x := by cases x <;> rfl
theorem IFmt.ofCode_code (x : IFmt) : IFmt.ofCode x.code = some x := by cases x <;> rfl
theorem NFmt.ofCode_code (x : NFmt) : NFmt.ofCode x.code = some x := by cases x <;> rfl
theorem ITarget.ofCode_code (x : ITarget) : ITarget.ofCode x.code = some x := by cases x <;> rfl
theorem ShflMode.ofCode_code (x : ShflMode) : ShflMode.ofCode x.code = x := by cases x <;> rfl
theorem LaneKind.ofCode_code (x : LaneKind) : LaneKind.ofCode x.code = some x := by cases x <;> rfl
theorem RedOp.ofCode_code (x : RedOp) : RedOp.ofCode x.code = some x := by cases x <;> rfl
theorem RedixTy.ofCode_code (x : RedixTy) : RedixTy.ofCode x.code = some x := by cases x <;> rfl
theorem Size.ofCode_code (x : Size) : Size.ofCode x.code = some x := by cases x <;> rfl
theorem FenceDom.ofCode_code (x : FenceDom) : FenceDom.ofCode x.code = some x := by cases x <;> rfl
theorem PrefLevel.ofCode_code (x : PrefLevel) : PrefLevel.ofCode x.code = some x := by cases x <;> rfl
theorem LdgOp.ofCode_code (x : LdgOp) : LdgOp.ofCode x.code = some x := by cases x <;> rfl
theorem LdgTy.ofCode_code (x : LdgTy) : LdgTy.ofCode x.code = x := by cases x <;> rfl
theorem MbrdSel.ofCode_code (x : MbrdSel) : MbrdSel.ofCode x.code = x := by cases x <;> rfl
theorem ImgFmt.ofCode_code (x : ImgFmt) : ImgFmt.ofCode x.code = some x := by cases x <;> rfl
theorem Sign.ofCode_code (x : Sign) : Sign.ofCode x.code = some x := by cases x <;> rfl
theorem p8_back (p : PReg) : (p8 p).setWidth 6 = p := by simp [p8]
theorem FSrc.ofCode_code (x : FSrc) : FSrc.ofCode x.h x.code = some x := by cases x <;> simp [FSrc.ofCode, FSrc.code, FSrc.h]
theorem Fold.ofCode_code (x : Fold) : Fold.ofCode x.pc x.code = x := by cases x <;> simp [Fold.ofCode, Fold.code, Fold.pc]
theorem VoteForm.ofCode_code (x : VoteForm) : VoteForm.ofCode x.dest x.code = x := by
  cases x <;> simp [VoteForm.ofCode, VoteForm.code, VoteForm.dest]
theorem AtomOp.ofCode_code (x : AtomOp) : AtomOp.ofCode x.c x.code = some x := by cases x <;> rfl
theorem AtomOp.code_back (x : AtomOp) : (BitVec.ofNat 8 x.code).toNat = x.code := by cases x <;> rfl
theorem EvForm.ofCode_code (x : EvForm) : EvForm.ofCode x.a x.imm32 x.code = some x := by
  cases x <;> simp [EvForm.ofCode, EvForm.code, EvForm.a, EvForm.imm32]
theorem JVal.ofCode_code (x : JVal) : JVal.ofCode x.a x.v x.code = some x := by cases x <;> rfl
theorem MovForm.ofCode_code (x : MovForm) : MovForm.ofCode x.a x.v x.code = x := by cases x <;> rfl
theorem PsetForm.ofCode_code (x : PsetForm) : PsetForm.ofCode x.a x.v x.code = some x := by
  rcases x with (_ | _) | _ | _ <;> simp [PsetForm.ofCode, PsetForm.code, PsetForm.a, PsetForm.v]
theorem Src.ofI_self (x : Src) : Src.ofI x.i x.r x.v = x := by cases x <;> rfl
theorem opt_self {α : Type} (x : Option α) (d : α) : (if x.isSome then some (x.getD d) else none) = x := by cases x <;> rfl
theorem ofNat_back {n : Nat} (x : BitVec n) : BitVec.ofNat n x.toNat = x := by simp
theorem bq_self (k : FSlot) (bq : Option (BitVec 2)) (e : BitVec 8)
    (h : e = (0 : BitVec 2) ++ bq.getD 0 ++ BitVec.ofBool bq.isSome ++ k) :
    (if e.getLsbD 3 = true then some (e.extractLsb' 4 2) else none) = bq := by
  have hb : e.getLsbD 3 = bq.isSome := by
    rw [h]
    exact (append_bit _ k 0).trans (append_ofBool _ _)
  have hq : e.extractLsb' 4 2 = bq.getD 0 := by
    rw [h]
    exact (append_high _ k 1 2).trans ((append_high _ (BitVec.ofBool bq.isSome) 0 2).trans (append_low _ _))
  rw [hb, hq]
  cases bq <;> rfl
theorem bits_self (l : DWord) : (l.extractLsb' 56 8 ++ l.extractLsb' 48 8 ++ l.extractLsb' 40 8 ++ l.extractLsb' 32 8 ++
    l.extractLsb' 0 32 : BitVec 64) = l := by
  apply BitVec.eq_of_getLsbD_eq
  intro i hi
  refine (append_get _ (l.extractLsb' 0 32) i).trans ?_
  by_cases h0 : i < 32
  · rw [if_pos h0, extract_get _ _ _ _ h0, Nat.zero_add]
  rw [if_neg h0]
  refine (append_get _ (l.extractLsb' 32 8) _).trans ?_
  by_cases h1 : i - 32 < 8
  · rw [if_pos h1, extract_get _ _ _ _ h1]
    congr 1
    omega
  rw [if_neg h1]
  refine (append_get _ (l.extractLsb' 40 8) _).trans ?_
  by_cases h2 : i - 32 - 8 < 8
  · rw [if_pos h2, extract_get _ _ _ _ h2]
    congr 1
    omega
  rw [if_neg h2]
  refine (append_get _ (l.extractLsb' 48 8) _).trans ?_
  by_cases h3 : i - 32 - 8 - 8 < 8
  · rw [if_pos h3, extract_get _ _ _ _ h3]
    congr 1
    omega
  rw [if_neg h3, extract_get _ _ _ _ (by omega)]
  congr 1
  omega
theorem optNone_self {α : Type} (x : Option α) (d : α) : (if x.isNone then none else some (x.getD d)) = x := by cases x <;> rfl

theorem Fields.code_of {f : Fields} {n : Nat} (h : f.sub = BitVec.ofNat 8 n) (k m : Nat) : f.code k m = n % 256 / 2 ^ k % 2 ^ m := by
  unfold Fields.code
  rw [h]
  simp [BitVec.toNat_ofNat]

theorem Fields.bit_of {f : Fields} {n : Nat} (h : f.sub = BitVec.ofNat 8 n) (k : Nat) :
    f.bit k = decide (n % 256 / 2 ^ k % 2 = 1) := by
  unfold Fields.bit
  rw [h, BitVec.getLsbD, BitVec.toNat_ofNat, Nat.testBit_eq_decide_div_mod_eq]

/-- Decoding what encodes gives the instruction back: every operand at every value its encoding admits. -/
def Laws.RoundTrip.Statement (i : Instr) : Prop :=
  i.wellFormed = true → ∀ w, encode i = some w → decode w = .ok i

theorem Laws.RoundTrip.of_parse {i : Instr} (h : i.wellFormed = true → ∀ f, i.toFields = some f → parse f = some (some i)) :
    Laws.RoundTrip.Statement i := by
  intro hw w he
  unfold encode at he
  cases hf : i.toFields with
  | none => simp [hf] at he
  | some f =>
    simp only [hf, Option.map_some, Option.some.injEq] at he
    rw [← he]
    exact decode_toBits hf hw (h hw f hf)

theorem Laws.RoundTrip.of_event {i : Instr} (h : i.toFields = none) : Laws.RoundTrip.Statement i := by
  intro _ w he
  simp [encode, h] at he

end Sys2Proof
end

