-- ==== Sys2Proof/Laws/State.lean ====
section
/-! SUPPORT. What an update of one part of the state leaves alone: one lemma per field and update. -/

namespace Sys2Proof.Machine

open Sys2Proof

@[simp] theorem State.modThread_cycle (s : State) (t : Tid) (f : Thread → Thread) : (s.modThread t f).cycle = s.cycle := rfl
@[simp] theorem State.modThread_epoch (s : State) (t : Tid) (f : Thread → Thread) : (s.modThread t f).epoch = s.epoch := rfl
@[simp] theorem State.modThread_mmode (s : State) (t : Tid) (f : Thread → Thread) : (s.modThread t f).mmode = s.mmode := rfl
@[simp] theorem State.modThread_modid (s : State) (t : Tid) (f : Thread → Thread) : (s.modThread t f).modid = s.modid := rfl
@[simp] theorem State.modThread_disabled (s : State) (t : Tid) (f : Thread → Thread) : (s.modThread t f).disabled = s.disabled := rfl
@[simp] theorem State.modThread_mem (s : State) (t : Tid) (f : Thread → Thread) : (s.modThread t f).mem = s.mem := rfl
@[simp] theorem State.modThread_poison (s : State) (t : Tid) (f : Thread → Thread) : (s.modThread t f).poison = s.poison := rfl
@[simp] theorem State.modThread_lineIa (s : State) (t : Tid) (f : Thread → Thread) : (s.modThread t f).lineIa = s.lineIa := rfl
@[simp] theorem State.modThread_agents (s : State) (t : Tid) (f : Thread → Thread) : (s.modThread t f).agents = s.agents := rfl
@[simp] theorem State.modThread_leases (s : State) (t : Tid) (f : Thread → Thread) : (s.modThread t f).leases = s.leases := rfl
@[simp] theorem State.modThread_subscribers (s : State) (t : Tid) (f : Thread → Thread) : (s.modThread t f).subscribers = s.subscribers := rfl
@[simp] theorem State.modThread_parts (s : State) (t : Tid) (f : Thread → Thread) : (s.modThread t f).parts = s.parts := rfl
@[simp] theorem State.modThread_budget (s : State) (t : Tid) (f : Thread → Thread) : (s.modThread t f).budget = s.budget := rfl
@[simp] theorem State.modThread_sysMem (s : State) (t : Tid) (f : Thread → Thread) : (s.modThread t f).sysMem = s.sysMem := rfl
@[simp] theorem State.modThread_lostPorts (s : State) (t : Tid) (f : Thread → Thread) : (s.modThread t f).lostPorts = s.lostPorts := rfl
@[simp] theorem State.modThread_peers (s : State) (t : Tid) (f : Thread → Thread) : (s.modThread t f).peers = s.peers := rfl
@[simp] theorem State.modThread_xroot (s : State) (t : Tid) (f : Thread → Thread) : (s.modThread t f).xroot = s.xroot := rfl
@[simp] theorem State.modThread_tlb (s : State) (t : Tid) (f : Thread → Thread) : (s.modThread t f).tlb = s.tlb := rfl
@[simp] theorem State.modThread_ticks (s : State) (t : Tid) (f : Thread → Thread) : (s.modThread t f).ticks = s.ticks := rfl
@[simp] theorem State.modThread_held (s : State) (t : Tid) (f : Thread → Thread) : (s.modThread t f).held = s.held := rfl
@[simp] theorem State.modThread_reported (s : State) (t : Tid) (f : Thread → Thread) : (s.modThread t f).reported = s.reported := rfl
@[simp] theorem State.modThread_migs (s : State) (t : Tid) (f : Thread → Thread) : (s.modThread t f).migs = s.migs := rfl
@[simp] theorem State.modThread_ckpt (s : State) (t : Tid) (f : Thread → Thread) : (s.modThread t f).ckpt = s.ckpt := rfl
@[simp] theorem State.modThread_apers (s : State) (t : Tid) (f : Thread → Thread) : (s.modThread t f).apers = s.apers := rfl
@[simp] theorem State.modThread_funcs (s : State) (t : Tid) (f : Thread → Thread) : (s.modThread t f).funcs = s.funcs := rfl
@[simp] theorem State.modThread_measured (s : State) (t : Tid) (f : Thread → Thread) : (s.modThread t f).measured = s.measured := rfl
@[simp] theorem State.modThread_booted (s : State) (t : Tid) (f : Thread → Thread) : (s.modThread t f).booted = s.booted := rfl
@[simp] theorem State.modThread_enumerated (s : State) (t : Tid) (f : Thread → Thread) : (s.modThread t f).enumerated = s.enumerated := rfl
@[simp] theorem State.modThread_stop (s : State) (t : Tid) (f : Thread → Thread) : (s.modThread t f).stop = s.stop := rfl
@[simp] theorem State.modThread_links (s : State) (t : Tid) (f : Thread → Thread) : (s.modThread t f).links = s.links := rfl
@[simp] theorem State.modThread_seen (s : State) (t : Tid) (f : Thread → Thread) : (s.modThread t f).seen = s.seen := rfl
@[simp] theorem State.modThread_withhold (s : State) (t : Tid) (f : Thread → Thread) : (s.modThread t f).withhold = s.withhold := rfl
@[simp] theorem State.modThread_ctxs (s : State) (t : Tid) (f : Thread → Thread) : (s.modThread t f).ctxs = s.ctxs := rfl
@[simp] theorem State.modThread_grids (s : State) (t : Tid) (f : Thread → Thread) : (s.modThread t f).grids = s.grids := rfl
@[simp] theorem State.modThread_teams (s : State) (t : Tid) (f : Thread → Thread) : (s.modThread t f).teams = s.teams := rfl
@[simp] theorem State.modThread_cores (s : State) (t : Tid) (f : Thread → Thread) : (s.modThread t f).cores = s.cores := rfl
@[simp] theorem State.modThread_dies (s : State) (t : Tid) (f : Thread → Thread) : (s.modThread t f).dies = s.dies := rfl
@[simp] theorem State.modThread_compl (s : State) (t : Tid) (f : Thread → Thread) : (s.modThread t f).compl = s.compl := rfl
@[simp] theorem State.modThread_out (s : State) (t : Tid) (f : Thread → Thread) : (s.modThread t f).out = s.out := rfl
@[simp] theorem State.modThread_nextSeq (s : State) (t : Tid) (f : Thread → Thread) : (s.modThread t f).nextSeq = s.nextSeq := rfl
@[simp] theorem State.modThread_resWait (s : State) (t : Tid) (f : Thread → Thread) : (s.modThread t f).resWait = s.resWait := rfl
@[simp] theorem State.modThread_messages (s : State) (t : Tid) (f : Thread → Thread) : (s.modThread t f).messages = s.messages := rfl
@[simp] theorem State.modThread_work (s : State) (t : Tid) (f : Thread → Thread) : (s.modThread t f).work = s.work := rfl
@[simp] theorem State.modThread_inbox (s : State) (t : Tid) (f : Thread → Thread) : (s.modThread t f).inbox = s.inbox := rfl
@[simp] theorem State.modThread_choices (s : State) (t : Tid) (f : Thread → Thread) : (s.modThread t f).choices = s.choices := rfl
@[simp] theorem State.modThread_issue (s : State) (t : Tid) (f : Thread → Thread) : (s.modThread t f).issue = s.issue := rfl
@[simp] theorem State.modThread_turn (s : State) (t : Tid) (f : Thread → Thread) : (s.modThread t f).turn = s.turn := rfl
@[simp] theorem State.modThread_freeCount (s : State) (t : Tid) (f : Thread → Thread) : (s.modThread t f).freeCount = s.freeCount := rfl

@[simp] theorem State.dropThread_cycle (s : State) (t : Tid) : (s.dropThread t).cycle = s.cycle := rfl
@[simp] theorem State.dropThread_epoch (s : State) (t : Tid) : (s.dropThread t).epoch = s.epoch := rfl
@[simp] theorem State.dropThread_mmode (s : State) (t : Tid) : (s.dropThread t).mmode = s.mmode := rfl
@[simp] theorem State.dropThread_modid (s : State) (t : Tid) : (s.dropThread t).modid = s.modid := rfl
@[simp] theorem State.dropThread_disabled (s : State) (t : Tid) : (s.dropThread t).disabled = s.disabled := rfl
@[simp] theorem State.dropThread_mem (s : State) (t : Tid) : (s.dropThread t).mem = s.mem := rfl
@[simp] theorem State.dropThread_poison (s : State) (t : Tid) : (s.dropThread t).poison = s.poison := rfl
@[simp] theorem State.dropThread_lineIa (s : State) (t : Tid) : (s.dropThread t).lineIa = s.lineIa := rfl
@[simp] theorem State.dropThread_agents (s : State) (t : Tid) : (s.dropThread t).agents = s.agents := rfl
@[simp] theorem State.dropThread_leases (s : State) (t : Tid) : (s.dropThread t).leases = s.leases := rfl
@[simp] theorem State.dropThread_subscribers (s : State) (t : Tid) : (s.dropThread t).subscribers = s.subscribers := rfl
@[simp] theorem State.dropThread_parts (s : State) (t : Tid) : (s.dropThread t).parts = s.parts := rfl
@[simp] theorem State.dropThread_budget (s : State) (t : Tid) : (s.dropThread t).budget = s.budget := rfl
@[simp] theorem State.dropThread_sysMem (s : State) (t : Tid) : (s.dropThread t).sysMem = s.sysMem := rfl
@[simp] theorem State.dropThread_lostPorts (s : State) (t : Tid) : (s.dropThread t).lostPorts = s.lostPorts := rfl
@[simp] theorem State.dropThread_peers (s : State) (t : Tid) : (s.dropThread t).peers = s.peers := rfl
@[simp] theorem State.dropThread_xroot (s : State) (t : Tid) : (s.dropThread t).xroot = s.xroot := rfl
@[simp] theorem State.dropThread_tlb (s : State) (t : Tid) : (s.dropThread t).tlb = s.tlb := rfl
@[simp] theorem State.dropThread_ticks (s : State) (t : Tid) : (s.dropThread t).ticks = s.ticks := rfl
@[simp] theorem State.dropThread_held (s : State) (t : Tid) : (s.dropThread t).held = s.held := rfl
@[simp] theorem State.dropThread_reported (s : State) (t : Tid) : (s.dropThread t).reported = s.reported := rfl
@[simp] theorem State.dropThread_migs (s : State) (t : Tid) : (s.dropThread t).migs = s.migs := rfl
@[simp] theorem State.dropThread_ckpt (s : State) (t : Tid) : (s.dropThread t).ckpt = s.ckpt := rfl
@[simp] theorem State.dropThread_apers (s : State) (t : Tid) : (s.dropThread t).apers = s.apers := rfl
@[simp] theorem State.dropThread_funcs (s : State) (t : Tid) : (s.dropThread t).funcs = s.funcs := rfl
@[simp] theorem State.dropThread_measured (s : State) (t : Tid) : (s.dropThread t).measured = s.measured := rfl
@[simp] theorem State.dropThread_booted (s : State) (t : Tid) : (s.dropThread t).booted = s.booted := rfl
@[simp] theorem State.dropThread_enumerated (s : State) (t : Tid) : (s.dropThread t).enumerated = s.enumerated := rfl
@[simp] theorem State.dropThread_stop (s : State) (t : Tid) : (s.dropThread t).stop = s.stop := rfl
@[simp] theorem State.dropThread_links (s : State) (t : Tid) : (s.dropThread t).links = s.links := rfl
@[simp] theorem State.dropThread_seen (s : State) (t : Tid) : (s.dropThread t).seen = s.seen := rfl
@[simp] theorem State.dropThread_withhold (s : State) (t : Tid) : (s.dropThread t).withhold = s.withhold := rfl
@[simp] theorem State.dropThread_ctxs (s : State) (t : Tid) : (s.dropThread t).ctxs = s.ctxs := rfl
@[simp] theorem State.dropThread_grids (s : State) (t : Tid) : (s.dropThread t).grids = s.grids := rfl
@[simp] theorem State.dropThread_teams (s : State) (t : Tid) : (s.dropThread t).teams = s.teams := rfl
@[simp] theorem State.dropThread_cores (s : State) (t : Tid) : (s.dropThread t).cores = s.cores := rfl
@[simp] theorem State.dropThread_dies (s : State) (t : Tid) : (s.dropThread t).dies = s.dies := rfl
@[simp] theorem State.dropThread_compl (s : State) (t : Tid) : (s.dropThread t).compl = s.compl := rfl
@[simp] theorem State.dropThread_out (s : State) (t : Tid) : (s.dropThread t).out = s.out := rfl
@[simp] theorem State.dropThread_nextSeq (s : State) (t : Tid) : (s.dropThread t).nextSeq = s.nextSeq := rfl
@[simp] theorem State.dropThread_resWait (s : State) (t : Tid) : (s.dropThread t).resWait = s.resWait := rfl
@[simp] theorem State.dropThread_messages (s : State) (t : Tid) : (s.dropThread t).messages = s.messages := rfl
@[simp] theorem State.dropThread_work (s : State) (t : Tid) : (s.dropThread t).work = s.work := rfl
@[simp] theorem State.dropThread_inbox (s : State) (t : Tid) : (s.dropThread t).inbox = s.inbox := rfl
@[simp] theorem State.dropThread_choices (s : State) (t : Tid) : (s.dropThread t).choices = s.choices := rfl
@[simp] theorem State.dropThread_issue (s : State) (t : Tid) : (s.dropThread t).issue = s.issue := rfl
@[simp] theorem State.dropThread_turn (s : State) (t : Tid) : (s.dropThread t).turn = s.turn := rfl
@[simp] theorem State.dropThread_freeCount (s : State) (t : Tid) : (s.dropThread t).freeCount = s.freeCount := rfl

@[simp] theorem State.advance_cycle (s : State) (t : Tid) : (s.advance t).cycle = s.cycle := rfl
@[simp] theorem State.advance_epoch (s : State) (t : Tid) : (s.advance t).epoch = s.epoch := rfl
@[simp] theorem State.advance_mmode (s : State) (t : Tid) : (s.advance t).mmode = s.mmode := rfl
@[simp] theorem State.advance_modid (s : State) (t : Tid) : (s.advance t).modid = s.modid := rfl
@[simp] theorem State.advance_disabled (s : State) (t : Tid) : (s.advance t).disabled = s.disabled := rfl
@[simp] theorem State.advance_mem (s : State) (t : Tid) : (s.advance t).mem = s.mem := rfl
@[simp] theorem State.advance_poison (s : State) (t : Tid) : (s.advance t).poison = s.poison := rfl
@[simp] theorem State.advance_lineIa (s : State) (t : Tid) : (s.advance t).lineIa = s.lineIa := rfl
@[simp] theorem State.advance_agents (s : State) (t : Tid) : (s.advance t).agents = s.agents := rfl
@[simp] theorem State.advance_leases (s : State) (t : Tid) : (s.advance t).leases = s.leases := rfl
@[simp] theorem State.advance_subscribers (s : State) (t : Tid) : (s.advance t).subscribers = s.subscribers := rfl
@[simp] theorem State.advance_parts (s : State) (t : Tid) : (s.advance t).parts = s.parts := rfl
@[simp] theorem State.advance_budget (s : State) (t : Tid) : (s.advance t).budget = s.budget := rfl
@[simp] theorem State.advance_sysMem (s : State) (t : Tid) : (s.advance t).sysMem = s.sysMem := rfl
@[simp] theorem State.advance_lostPorts (s : State) (t : Tid) : (s.advance t).lostPorts = s.lostPorts := rfl
@[simp] theorem State.advance_peers (s : State) (t : Tid) : (s.advance t).peers = s.peers := rfl
@[simp] theorem State.advance_xroot (s : State) (t : Tid) : (s.advance t).xroot = s.xroot := rfl
@[simp] theorem State.advance_tlb (s : State) (t : Tid) : (s.advance t).tlb = s.tlb := rfl
@[simp] theorem State.advance_ticks (s : State) (t : Tid) : (s.advance t).ticks = s.ticks := rfl
@[simp] theorem State.advance_held (s : State) (t : Tid) : (s.advance t).held = s.held := rfl
@[simp] theorem State.advance_reported (s : State) (t : Tid) : (s.advance t).reported = s.reported := rfl
@[simp] theorem State.advance_migs (s : State) (t : Tid) : (s.advance t).migs = s.migs := rfl
@[simp] theorem State.advance_ckpt (s : State) (t : Tid) : (s.advance t).ckpt = s.ckpt := rfl
@[simp] theorem State.advance_apers (s : State) (t : Tid) : (s.advance t).apers = s.apers := rfl
@[simp] theorem State.advance_funcs (s : State) (t : Tid) : (s.advance t).funcs = s.funcs := rfl
@[simp] theorem State.advance_measured (s : State) (t : Tid) : (s.advance t).measured = s.measured := rfl
@[simp] theorem State.advance_booted (s : State) (t : Tid) : (s.advance t).booted = s.booted := rfl
@[simp] theorem State.advance_enumerated (s : State) (t : Tid) : (s.advance t).enumerated = s.enumerated := rfl
@[simp] theorem State.advance_stop (s : State) (t : Tid) : (s.advance t).stop = s.stop := rfl
@[simp] theorem State.advance_links (s : State) (t : Tid) : (s.advance t).links = s.links := rfl
@[simp] theorem State.advance_seen (s : State) (t : Tid) : (s.advance t).seen = s.seen := rfl
@[simp] theorem State.advance_withhold (s : State) (t : Tid) : (s.advance t).withhold = s.withhold := rfl
@[simp] theorem State.advance_ctxs (s : State) (t : Tid) : (s.advance t).ctxs = s.ctxs := rfl
@[simp] theorem State.advance_grids (s : State) (t : Tid) : (s.advance t).grids = s.grids := rfl
@[simp] theorem State.advance_teams (s : State) (t : Tid) : (s.advance t).teams = s.teams := rfl
@[simp] theorem State.advance_cores (s : State) (t : Tid) : (s.advance t).cores = s.cores := rfl
@[simp] theorem State.advance_dies (s : State) (t : Tid) : (s.advance t).dies = s.dies := rfl
@[simp] theorem State.advance_compl (s : State) (t : Tid) : (s.advance t).compl = s.compl := rfl
@[simp] theorem State.advance_out (s : State) (t : Tid) : (s.advance t).out = s.out := rfl
@[simp] theorem State.advance_nextSeq (s : State) (t : Tid) : (s.advance t).nextSeq = s.nextSeq := rfl
@[simp] theorem State.advance_resWait (s : State) (t : Tid) : (s.advance t).resWait = s.resWait := rfl
@[simp] theorem State.advance_messages (s : State) (t : Tid) : (s.advance t).messages = s.messages := rfl
@[simp] theorem State.advance_work (s : State) (t : Tid) : (s.advance t).work = s.work := rfl
@[simp] theorem State.advance_inbox (s : State) (t : Tid) : (s.advance t).inbox = s.inbox := rfl
@[simp] theorem State.advance_choices (s : State) (t : Tid) : (s.advance t).choices = s.choices := rfl
@[simp] theorem State.advance_issue (s : State) (t : Tid) : (s.advance t).issue = s.issue := rfl
@[simp] theorem State.advance_turn (s : State) (t : Tid) : (s.advance t).turn = s.turn := rfl
@[simp] theorem State.advance_freeCount (s : State) (t : Tid) : (s.advance t).freeCount = s.freeCount := rfl

@[simp] theorem State.modCtx_cycle (s : State) (c : Nat) (f : Ctx → Ctx) : (s.modCtx c f).cycle = s.cycle := rfl
@[simp] theorem State.modCtx_epoch (s : State) (c : Nat) (f : Ctx → Ctx) : (s.modCtx c f).epoch = s.epoch := rfl
@[simp] theorem State.modCtx_mmode (s : State) (c : Nat) (f : Ctx → Ctx) : (s.modCtx c f).mmode = s.mmode := rfl
@[simp] theorem State.modCtx_modid (s : State) (c : Nat) (f : Ctx → Ctx) : (s.modCtx c f).modid = s.modid := rfl
@[simp] theorem State.modCtx_disabled (s : State) (c : Nat) (f : Ctx → Ctx) : (s.modCtx c f).disabled = s.disabled := rfl
@[simp] theorem State.modCtx_mem (s : State) (c : Nat) (f : Ctx → Ctx) : (s.modCtx c f).mem = s.mem := rfl
@[simp] theorem State.modCtx_poison (s : State) (c : Nat) (f : Ctx → Ctx) : (s.modCtx c f).poison = s.poison := rfl
@[simp] theorem State.modCtx_lineIa (s : State) (c : Nat) (f : Ctx → Ctx) : (s.modCtx c f).lineIa = s.lineIa := rfl
@[simp] theorem State.modCtx_agents (s : State) (c : Nat) (f : Ctx → Ctx) : (s.modCtx c f).agents = s.agents := rfl
@[simp] theorem State.modCtx_leases (s : State) (c : Nat) (f : Ctx → Ctx) : (s.modCtx c f).leases = s.leases := rfl
@[simp] theorem State.modCtx_subscribers (s : State) (c : Nat) (f : Ctx → Ctx) : (s.modCtx c f).subscribers = s.subscribers := rfl
@[simp] theorem State.modCtx_parts (s : State) (c : Nat) (f : Ctx → Ctx) : (s.modCtx c f).parts = s.parts := rfl
@[simp] theorem State.modCtx_budget (s : State) (c : Nat) (f : Ctx → Ctx) : (s.modCtx c f).budget = s.budget := rfl
@[simp] theorem State.modCtx_sysMem (s : State) (c : Nat) (f : Ctx → Ctx) : (s.modCtx c f).sysMem = s.sysMem := rfl
@[simp] theorem State.modCtx_lostPorts (s : State) (c : Nat) (f : Ctx → Ctx) : (s.modCtx c f).lostPorts = s.lostPorts := rfl
@[simp] theorem State.modCtx_peers (s : State) (c : Nat) (f : Ctx → Ctx) : (s.modCtx c f).peers = s.peers := rfl
@[simp] theorem State.modCtx_xroot (s : State) (c : Nat) (f : Ctx → Ctx) : (s.modCtx c f).xroot = s.xroot := rfl
@[simp] theorem State.modCtx_tlb (s : State) (c : Nat) (f : Ctx → Ctx) : (s.modCtx c f).tlb = s.tlb := rfl
@[simp] theorem State.modCtx_ticks (s : State) (c : Nat) (f : Ctx → Ctx) : (s.modCtx c f).ticks = s.ticks := rfl
@[simp] theorem State.modCtx_held (s : State) (c : Nat) (f : Ctx → Ctx) : (s.modCtx c f).held = s.held := rfl
@[simp] theorem State.modCtx_reported (s : State) (c : Nat) (f : Ctx → Ctx) : (s.modCtx c f).reported = s.reported := rfl
@[simp] theorem State.modCtx_migs (s : State) (c : Nat) (f : Ctx → Ctx) : (s.modCtx c f).migs = s.migs := rfl
@[simp] theorem State.modCtx_ckpt (s : State) (c : Nat) (f : Ctx → Ctx) : (s.modCtx c f).ckpt = s.ckpt := rfl
@[simp] theorem State.modCtx_apers (s : State) (c : Nat) (f : Ctx → Ctx) : (s.modCtx c f).apers = s.apers := rfl
@[simp] theorem State.modCtx_funcs (s : State) (c : Nat) (f : Ctx → Ctx) : (s.modCtx c f).funcs = s.funcs := rfl
@[simp] theorem State.modCtx_measured (s : State) (c : Nat) (f : Ctx → Ctx) : (s.modCtx c f).measured = s.measured := rfl
@[simp] theorem State.modCtx_booted (s : State) (c : Nat) (f : Ctx → Ctx) : (s.modCtx c f).booted = s.booted := rfl
@[simp] theorem State.modCtx_enumerated (s : State) (c : Nat) (f : Ctx → Ctx) : (s.modCtx c f).enumerated = s.enumerated := rfl
@[simp] theorem State.modCtx_stop (s : State) (c : Nat) (f : Ctx → Ctx) : (s.modCtx c f).stop = s.stop := rfl
@[simp] theorem State.modCtx_links (s : State) (c : Nat) (f : Ctx → Ctx) : (s.modCtx c f).links = s.links := rfl
@[simp] theorem State.modCtx_seen (s : State) (c : Nat) (f : Ctx → Ctx) : (s.modCtx c f).seen = s.seen := rfl
@[simp] theorem State.modCtx_withhold (s : State) (c : Nat) (f : Ctx → Ctx) : (s.modCtx c f).withhold = s.withhold := rfl
@[simp] theorem State.modCtx_grids (s : State) (c : Nat) (f : Ctx → Ctx) : (s.modCtx c f).grids = s.grids := rfl
@[simp] theorem State.modCtx_teams (s : State) (c : Nat) (f : Ctx → Ctx) : (s.modCtx c f).teams = s.teams := rfl
@[simp] theorem State.modCtx_threads (s : State) (c : Nat) (f : Ctx → Ctx) : (s.modCtx c f).threads = s.threads := rfl
@[simp] theorem State.modCtx_cores (s : State) (c : Nat) (f : Ctx → Ctx) : (s.modCtx c f).cores = s.cores := rfl
@[simp] theorem State.modCtx_dies (s : State) (c : Nat) (f : Ctx → Ctx) : (s.modCtx c f).dies = s.dies := rfl
@[simp] theorem State.modCtx_compl (s : State) (c : Nat) (f : Ctx → Ctx) : (s.modCtx c f).compl = s.compl := rfl
@[simp] theorem State.modCtx_out (s : State) (c : Nat) (f : Ctx → Ctx) : (s.modCtx c f).out = s.out := rfl
@[simp] theorem State.modCtx_nextSeq (s : State) (c : Nat) (f : Ctx → Ctx) : (s.modCtx c f).nextSeq = s.nextSeq := rfl
@[simp] theorem State.modCtx_resWait (s : State) (c : Nat) (f : Ctx → Ctx) : (s.modCtx c f).resWait = s.resWait := rfl
@[simp] theorem State.modCtx_messages (s : State) (c : Nat) (f : Ctx → Ctx) : (s.modCtx c f).messages = s.messages := rfl
@[simp] theorem State.modCtx_work (s : State) (c : Nat) (f : Ctx → Ctx) : (s.modCtx c f).work = s.work := rfl
@[simp] theorem State.modCtx_inbox (s : State) (c : Nat) (f : Ctx → Ctx) : (s.modCtx c f).inbox = s.inbox := rfl
@[simp] theorem State.modCtx_choices (s : State) (c : Nat) (f : Ctx → Ctx) : (s.modCtx c f).choices = s.choices := rfl
@[simp] theorem State.modCtx_issue (s : State) (c : Nat) (f : Ctx → Ctx) : (s.modCtx c f).issue = s.issue := rfl
@[simp] theorem State.modCtx_turn (s : State) (c : Nat) (f : Ctx → Ctx) : (s.modCtx c f).turn = s.turn := rfl
@[simp] theorem State.modCtx_freeCount (s : State) (c : Nat) (f : Ctx → Ctx) : (s.modCtx c f).freeCount = s.freeCount := rfl

@[simp] theorem State.modGrid_cycle (s : State) (c g : Nat) (f : Grid → Grid) : (s.modGrid c g f).cycle = s.cycle := rfl
@[simp] theorem State.modGrid_epoch (s : State) (c g : Nat) (f : Grid → Grid) : (s.modGrid c g f).epoch = s.epoch := rfl
@[simp] theorem State.modGrid_mmode (s : State) (c g : Nat) (f : Grid → Grid) : (s.modGrid c g f).mmode = s.mmode := rfl
@[simp] theorem State.modGrid_modid (s : State) (c g : Nat) (f : Grid → Grid) : (s.modGrid c g f).modid = s.modid := rfl
@[simp] theorem State.modGrid_disabled (s : State) (c g : Nat) (f : Grid → Grid) : (s.modGrid c g f).disabled = s.disabled := rfl
@[simp] theorem State.modGrid_mem (s : State) (c g : Nat) (f : Grid → Grid) : (s.modGrid c g f).mem = s.mem := rfl
@[simp] theorem State.modGrid_poison (s : State) (c g : Nat) (f : Grid → Grid) : (s.modGrid c g f).poison = s.poison := rfl
@[simp] theorem State.modGrid_lineIa (s : State) (c g : Nat) (f : Grid → Grid) : (s.modGrid c g f).lineIa = s.lineIa := rfl
@[simp] theorem State.modGrid_agents (s : State) (c g : Nat) (f : Grid → Grid) : (s.modGrid c g f).agents = s.agents := rfl
@[simp] theorem State.modGrid_leases (s : State) (c g : Nat) (f : Grid → Grid) : (s.modGrid c g f).leases = s.leases := rfl
@[simp] theorem State.modGrid_subscribers (s : State) (c g : Nat) (f : Grid → Grid) : (s.modGrid c g f).subscribers = s.subscribers := rfl
@[simp] theorem State.modGrid_parts (s : State) (c g : Nat) (f : Grid → Grid) : (s.modGrid c g f).parts = s.parts := rfl
@[simp] theorem State.modGrid_budget (s : State) (c g : Nat) (f : Grid → Grid) : (s.modGrid c g f).budget = s.budget := rfl
@[simp] theorem State.modGrid_sysMem (s : State) (c g : Nat) (f : Grid → Grid) : (s.modGrid c g f).sysMem = s.sysMem := rfl
@[simp] theorem State.modGrid_lostPorts (s : State) (c g : Nat) (f : Grid → Grid) : (s.modGrid c g f).lostPorts = s.lostPorts := rfl
@[simp] theorem State.modGrid_peers (s : State) (c g : Nat) (f : Grid → Grid) : (s.modGrid c g f).peers = s.peers := rfl
@[simp] theorem State.modGrid_xroot (s : State) (c g : Nat) (f : Grid → Grid) : (s.modGrid c g f).xroot = s.xroot := rfl
@[simp] theorem State.modGrid_tlb (s : State) (c g : Nat) (f : Grid → Grid) : (s.modGrid c g f).tlb = s.tlb := rfl
@[simp] theorem State.modGrid_ticks (s : State) (c g : Nat) (f : Grid → Grid) : (s.modGrid c g f).ticks = s.ticks := rfl
@[simp] theorem State.modGrid_held (s : State) (c g : Nat) (f : Grid → Grid) : (s.modGrid c g f).held = s.held := rfl
@[simp] theorem State.modGrid_reported (s : State) (c g : Nat) (f : Grid → Grid) : (s.modGrid c g f).reported = s.reported := rfl
@[simp] theorem State.modGrid_migs (s : State) (c g : Nat) (f : Grid → Grid) : (s.modGrid c g f).migs = s.migs := rfl
@[simp] theorem State.modGrid_ckpt (s : State) (c g : Nat) (f : Grid → Grid) : (s.modGrid c g f).ckpt = s.ckpt := rfl
@[simp] theorem State.modGrid_apers (s : State) (c g : Nat) (f : Grid → Grid) : (s.modGrid c g f).apers = s.apers := rfl
@[simp] theorem State.modGrid_funcs (s : State) (c g : Nat) (f : Grid → Grid) : (s.modGrid c g f).funcs = s.funcs := rfl
@[simp] theorem State.modGrid_measured (s : State) (c g : Nat) (f : Grid → Grid) : (s.modGrid c g f).measured = s.measured := rfl
@[simp] theorem State.modGrid_booted (s : State) (c g : Nat) (f : Grid → Grid) : (s.modGrid c g f).booted = s.booted := rfl
@[simp] theorem State.modGrid_enumerated (s : State) (c g : Nat) (f : Grid → Grid) : (s.modGrid c g f).enumerated = s.enumerated := rfl
@[simp] theorem State.modGrid_stop (s : State) (c g : Nat) (f : Grid → Grid) : (s.modGrid c g f).stop = s.stop := rfl
@[simp] theorem State.modGrid_links (s : State) (c g : Nat) (f : Grid → Grid) : (s.modGrid c g f).links = s.links := rfl
@[simp] theorem State.modGrid_seen (s : State) (c g : Nat) (f : Grid → Grid) : (s.modGrid c g f).seen = s.seen := rfl
@[simp] theorem State.modGrid_withhold (s : State) (c g : Nat) (f : Grid → Grid) : (s.modGrid c g f).withhold = s.withhold := rfl
@[simp] theorem State.modGrid_ctxs (s : State) (c g : Nat) (f : Grid → Grid) : (s.modGrid c g f).ctxs = s.ctxs := rfl
@[simp] theorem State.modGrid_teams (s : State) (c g : Nat) (f : Grid → Grid) : (s.modGrid c g f).teams = s.teams := rfl
@[simp] theorem State.modGrid_threads (s : State) (c g : Nat) (f : Grid → Grid) : (s.modGrid c g f).threads = s.threads := rfl
@[simp] theorem State.modGrid_cores (s : State) (c g : Nat) (f : Grid → Grid) : (s.modGrid c g f).cores = s.cores := rfl
@[simp] theorem State.modGrid_dies (s : State) (c g : Nat) (f : Grid → Grid) : (s.modGrid c g f).dies = s.dies := rfl
@[simp] theorem State.modGrid_compl (s : State) (c g : Nat) (f : Grid → Grid) : (s.modGrid c g f).compl = s.compl := rfl
@[simp] theorem State.modGrid_out (s : State) (c g : Nat) (f : Grid → Grid) : (s.modGrid c g f).out = s.out := rfl
@[simp] theorem State.modGrid_nextSeq (s : State) (c g : Nat) (f : Grid → Grid) : (s.modGrid c g f).nextSeq = s.nextSeq := rfl
@[simp] theorem State.modGrid_resWait (s : State) (c g : Nat) (f : Grid → Grid) : (s.modGrid c g f).resWait = s.resWait := rfl
@[simp] theorem State.modGrid_messages (s : State) (c g : Nat) (f : Grid → Grid) : (s.modGrid c g f).messages = s.messages := rfl
@[simp] theorem State.modGrid_work (s : State) (c g : Nat) (f : Grid → Grid) : (s.modGrid c g f).work = s.work := rfl
@[simp] theorem State.modGrid_inbox (s : State) (c g : Nat) (f : Grid → Grid) : (s.modGrid c g f).inbox = s.inbox := rfl
@[simp] theorem State.modGrid_choices (s : State) (c g : Nat) (f : Grid → Grid) : (s.modGrid c g f).choices = s.choices := rfl
@[simp] theorem State.modGrid_issue (s : State) (c g : Nat) (f : Grid → Grid) : (s.modGrid c g f).issue = s.issue := rfl
@[simp] theorem State.modGrid_turn (s : State) (c g : Nat) (f : Grid → Grid) : (s.modGrid c g f).turn = s.turn := rfl
@[simp] theorem State.modGrid_freeCount (s : State) (c g : Nat) (f : Grid → Grid) : (s.modGrid c g f).freeCount = s.freeCount := rfl

@[simp] theorem State.modTeam_cycle (s : State) (c g k : Nat) (f : Team → Team) : (s.modTeam c g k f).cycle = s.cycle := rfl
@[simp] theorem State.modTeam_epoch (s : State) (c g k : Nat) (f : Team → Team) : (s.modTeam c g k f).epoch = s.epoch := rfl
@[simp] theorem State.modTeam_mmode (s : State) (c g k : Nat) (f : Team → Team) : (s.modTeam c g k f).mmode = s.mmode := rfl
@[simp] theorem State.modTeam_modid (s : State) (c g k : Nat) (f : Team → Team) : (s.modTeam c g k f).modid = s.modid := rfl
@[simp] theorem State.modTeam_disabled (s : State) (c g k : Nat) (f : Team → Team) : (s.modTeam c g k f).disabled = s.disabled := rfl
@[simp] theorem State.modTeam_mem (s : State) (c g k : Nat) (f : Team → Team) : (s.modTeam c g k f).mem = s.mem := rfl
@[simp] theorem State.modTeam_poison (s : State) (c g k : Nat) (f : Team → Team) : (s.modTeam c g k f).poison = s.poison := rfl
@[simp] theorem State.modTeam_lineIa (s : State) (c g k : Nat) (f : Team → Team) : (s.modTeam c g k f).lineIa = s.lineIa := rfl
@[simp] theorem State.modTeam_agents (s : State) (c g k : Nat) (f : Team → Team) : (s.modTeam c g k f).agents = s.agents := rfl
@[simp] theorem State.modTeam_leases (s : State) (c g k : Nat) (f : Team → Team) : (s.modTeam c g k f).leases = s.leases := rfl
@[simp] theorem State.modTeam_subscribers (s : State) (c g k : Nat) (f : Team → Team) : (s.modTeam c g k f).subscribers = s.subscribers := rfl
@[simp] theorem State.modTeam_parts (s : State) (c g k : Nat) (f : Team → Team) : (s.modTeam c g k f).parts = s.parts := rfl
@[simp] theorem State.modTeam_budget (s : State) (c g k : Nat) (f : Team → Team) : (s.modTeam c g k f).budget = s.budget := rfl
@[simp] theorem State.modTeam_sysMem (s : State) (c g k : Nat) (f : Team → Team) : (s.modTeam c g k f).sysMem = s.sysMem := rfl
@[simp] theorem State.modTeam_lostPorts (s : State) (c g k : Nat) (f : Team → Team) : (s.modTeam c g k f).lostPorts = s.lostPorts := rfl
@[simp] theorem State.modTeam_peers (s : State) (c g k : Nat) (f : Team → Team) : (s.modTeam c g k f).peers = s.peers := rfl
@[simp] theorem State.modTeam_xroot (s : State) (c g k : Nat) (f : Team → Team) : (s.modTeam c g k f).xroot = s.xroot := rfl
@[simp] theorem State.modTeam_tlb (s : State) (c g k : Nat) (f : Team → Team) : (s.modTeam c g k f).tlb = s.tlb := rfl
@[simp] theorem State.modTeam_ticks (s : State) (c g k : Nat) (f : Team → Team) : (s.modTeam c g k f).ticks = s.ticks := rfl
@[simp] theorem State.modTeam_held (s : State) (c g k : Nat) (f : Team → Team) : (s.modTeam c g k f).held = s.held := rfl
@[simp] theorem State.modTeam_reported (s : State) (c g k : Nat) (f : Team → Team) : (s.modTeam c g k f).reported = s.reported := rfl
@[simp] theorem State.modTeam_migs (s : State) (c g k : Nat) (f : Team → Team) : (s.modTeam c g k f).migs = s.migs := rfl
@[simp] theorem State.modTeam_ckpt (s : State) (c g k : Nat) (f : Team → Team) : (s.modTeam c g k f).ckpt = s.ckpt := rfl
@[simp] theorem State.modTeam_apers (s : State) (c g k : Nat) (f : Team → Team) : (s.modTeam c g k f).apers = s.apers := rfl
@[simp] theorem State.modTeam_funcs (s : State) (c g k : Nat) (f : Team → Team) : (s.modTeam c g k f).funcs = s.funcs := rfl
@[simp] theorem State.modTeam_measured (s : State) (c g k : Nat) (f : Team → Team) : (s.modTeam c g k f).measured = s.measured := rfl
@[simp] theorem State.modTeam_booted (s : State) (c g k : Nat) (f : Team → Team) : (s.modTeam c g k f).booted = s.booted := rfl
@[simp] theorem State.modTeam_enumerated (s : State) (c g k : Nat) (f : Team → Team) : (s.modTeam c g k f).enumerated = s.enumerated := rfl
@[simp] theorem State.modTeam_stop (s : State) (c g k : Nat) (f : Team → Team) : (s.modTeam c g k f).stop = s.stop := rfl
@[simp] theorem State.modTeam_links (s : State) (c g k : Nat) (f : Team → Team) : (s.modTeam c g k f).links = s.links := rfl
@[simp] theorem State.modTeam_seen (s : State) (c g k : Nat) (f : Team → Team) : (s.modTeam c g k f).seen = s.seen := rfl
@[simp] theorem State.modTeam_withhold (s : State) (c g k : Nat) (f : Team → Team) : (s.modTeam c g k f).withhold = s.withhold := rfl
@[simp] theorem State.modTeam_ctxs (s : State) (c g k : Nat) (f : Team → Team) : (s.modTeam c g k f).ctxs = s.ctxs := rfl
@[simp] theorem State.modTeam_grids (s : State) (c g k : Nat) (f : Team → Team) : (s.modTeam c g k f).grids = s.grids := rfl
@[simp] theorem State.modTeam_threads (s : State) (c g k : Nat) (f : Team → Team) : (s.modTeam c g k f).threads = s.threads := rfl
@[simp] theorem State.modTeam_cores (s : State) (c g k : Nat) (f : Team → Team) : (s.modTeam c g k f).cores = s.cores := rfl
@[simp] theorem State.modTeam_dies (s : State) (c g k : Nat) (f : Team → Team) : (s.modTeam c g k f).dies = s.dies := rfl
@[simp] theorem State.modTeam_compl (s : State) (c g k : Nat) (f : Team → Team) : (s.modTeam c g k f).compl = s.compl := rfl
@[simp] theorem State.modTeam_out (s : State) (c g k : Nat) (f : Team → Team) : (s.modTeam c g k f).out = s.out := rfl
@[simp] theorem State.modTeam_nextSeq (s : State) (c g k : Nat) (f : Team → Team) : (s.modTeam c g k f).nextSeq = s.nextSeq := rfl
@[simp] theorem State.modTeam_resWait (s : State) (c g k : Nat) (f : Team → Team) : (s.modTeam c g k f).resWait = s.resWait := rfl
@[simp] theorem State.modTeam_messages (s : State) (c g k : Nat) (f : Team → Team) : (s.modTeam c g k f).messages = s.messages := rfl
@[simp] theorem State.modTeam_work (s : State) (c g k : Nat) (f : Team → Team) : (s.modTeam c g k f).work = s.work := rfl
@[simp] theorem State.modTeam_inbox (s : State) (c g k : Nat) (f : Team → Team) : (s.modTeam c g k f).inbox = s.inbox := rfl
@[simp] theorem State.modTeam_choices (s : State) (c g k : Nat) (f : Team → Team) : (s.modTeam c g k f).choices = s.choices := rfl
@[simp] theorem State.modTeam_issue (s : State) (c g k : Nat) (f : Team → Team) : (s.modTeam c g k f).issue = s.issue := rfl
@[simp] theorem State.modTeam_turn (s : State) (c g k : Nat) (f : Team → Team) : (s.modTeam c g k f).turn = s.turn := rfl
@[simp] theorem State.modTeam_freeCount (s : State) (c g k : Nat) (f : Team → Team) : (s.modTeam c g k f).freeCount = s.freeCount := rfl

@[simp] theorem State.modCore_cycle (s : State) (c : Nat) (f : Core → Core) : (s.modCore c f).cycle = s.cycle := by unfold State.modCore; split <;> rfl
@[simp] theorem State.modCore_epoch (s : State) (c : Nat) (f : Core → Core) : (s.modCore c f).epoch = s.epoch := by unfold State.modCore; split <;> rfl
@[simp] theorem State.modCore_mmode (s : State) (c : Nat) (f : Core → Core) : (s.modCore c f).mmode = s.mmode := by unfold State.modCore; split <;> rfl
@[simp] theorem State.modCore_modid (s : State) (c : Nat) (f : Core → Core) : (s.modCore c f).modid = s.modid := by unfold State.modCore; split <;> rfl
@[simp] theorem State.modCore_disabled (s : State) (c : Nat) (f : Core → Core) : (s.modCore c f).disabled = s.disabled := by unfold State.modCore; split <;> rfl
@[simp] theorem State.modCore_mem (s : State) (c : Nat) (f : Core → Core) : (s.modCore c f).mem = s.mem := by unfold State.modCore; split <;> rfl
@[simp] theorem State.modCore_poison (s : State) (c : Nat) (f : Core → Core) : (s.modCore c f).poison = s.poison := by unfold State.modCore; split <;> rfl
@[simp] theorem State.modCore_lineIa (s : State) (c : Nat) (f : Core → Core) : (s.modCore c f).lineIa = s.lineIa := by unfold State.modCore; split <;> rfl
@[simp] theorem State.modCore_agents (s : State) (c : Nat) (f : Core → Core) : (s.modCore c f).agents = s.agents := by unfold State.modCore; split <;> rfl
@[simp] theorem State.modCore_leases (s : State) (c : Nat) (f : Core → Core) : (s.modCore c f).leases = s.leases := by unfold State.modCore; split <;> rfl
@[simp] theorem State.modCore_subscribers (s : State) (c : Nat) (f : Core → Core) : (s.modCore c f).subscribers = s.subscribers := by unfold State.modCore; split <;> rfl
@[simp] theorem State.modCore_parts (s : State) (c : Nat) (f : Core → Core) : (s.modCore c f).parts = s.parts := by unfold State.modCore; split <;> rfl
@[simp] theorem State.modCore_budget (s : State) (c : Nat) (f : Core → Core) : (s.modCore c f).budget = s.budget := by unfold State.modCore; split <;> rfl
@[simp] theorem State.modCore_sysMem (s : State) (c : Nat) (f : Core → Core) : (s.modCore c f).sysMem = s.sysMem := by unfold State.modCore; split <;> rfl
@[simp] theorem State.modCore_lostPorts (s : State) (c : Nat) (f : Core → Core) : (s.modCore c f).lostPorts = s.lostPorts := by unfold State.modCore; split <;> rfl
@[simp] theorem State.modCore_peers (s : State) (c : Nat) (f : Core → Core) : (s.modCore c f).peers = s.peers := by unfold State.modCore; split <;> rfl
@[simp] theorem State.modCore_xroot (s : State) (c : Nat) (f : Core → Core) : (s.modCore c f).xroot = s.xroot := by unfold State.modCore; split <;> rfl
@[simp] theorem State.modCore_tlb (s : State) (c : Nat) (f : Core → Core) : (s.modCore c f).tlb = s.tlb := by unfold State.modCore; split <;> rfl
@[simp] theorem State.modCore_ticks (s : State) (c : Nat) (f : Core → Core) : (s.modCore c f).ticks = s.ticks := by unfold State.modCore; split <;> rfl
@[simp] theorem State.modCore_held (s : State) (c : Nat) (f : Core → Core) : (s.modCore c f).held = s.held := by unfold State.modCore; split <;> rfl
@[simp] theorem State.modCore_reported (s : State) (c : Nat) (f : Core → Core) : (s.modCore c f).reported = s.reported := by unfold State.modCore; split <;> rfl
@[simp] theorem State.modCore_migs (s : State) (c : Nat) (f : Core → Core) : (s.modCore c f).migs = s.migs := by unfold State.modCore; split <;> rfl
@[simp] theorem State.modCore_ckpt (s : State) (c : Nat) (f : Core → Core) : (s.modCore c f).ckpt = s.ckpt := by unfold State.modCore; split <;> rfl
@[simp] theorem State.modCore_apers (s : State) (c : Nat) (f : Core → Core) : (s.modCore c f).apers = s.apers := by unfold State.modCore; split <;> rfl
@[simp] theorem State.modCore_funcs (s : State) (c : Nat) (f : Core → Core) : (s.modCore c f).funcs = s.funcs := by unfold State.modCore; split <;> rfl
@[simp] theorem State.modCore_measured (s : State) (c : Nat) (f : Core → Core) : (s.modCore c f).measured = s.measured := by unfold State.modCore; split <;> rfl
@[simp] theorem State.modCore_booted (s : State) (c : Nat) (f : Core → Core) : (s.modCore c f).booted = s.booted := by unfold State.modCore; split <;> rfl
@[simp] theorem State.modCore_enumerated (s : State) (c : Nat) (f : Core → Core) : (s.modCore c f).enumerated = s.enumerated := by unfold State.modCore; split <;> rfl
@[simp] theorem State.modCore_stop (s : State) (c : Nat) (f : Core → Core) : (s.modCore c f).stop = s.stop := by unfold State.modCore; split <;> rfl
@[simp] theorem State.modCore_links (s : State) (c : Nat) (f : Core → Core) : (s.modCore c f).links = s.links := by unfold State.modCore; split <;> rfl
@[simp] theorem State.modCore_seen (s : State) (c : Nat) (f : Core → Core) : (s.modCore c f).seen = s.seen := by unfold State.modCore; split <;> rfl
@[simp] theorem State.modCore_withhold (s : State) (c : Nat) (f : Core → Core) : (s.modCore c f).withhold = s.withhold := by unfold State.modCore; split <;> rfl
@[simp] theorem State.modCore_ctxs (s : State) (c : Nat) (f : Core → Core) : (s.modCore c f).ctxs = s.ctxs := by unfold State.modCore; split <;> rfl
@[simp] theorem State.modCore_grids (s : State) (c : Nat) (f : Core → Core) : (s.modCore c f).grids = s.grids := by unfold State.modCore; split <;> rfl
@[simp] theorem State.modCore_teams (s : State) (c : Nat) (f : Core → Core) : (s.modCore c f).teams = s.teams := by unfold State.modCore; split <;> rfl
@[simp] theorem State.modCore_threads (s : State) (c : Nat) (f : Core → Core) : (s.modCore c f).threads = s.threads := by unfold State.modCore; split <;> rfl
@[simp] theorem State.modCore_dies (s : State) (c : Nat) (f : Core → Core) : (s.modCore c f).dies = s.dies := by unfold State.modCore; split <;> rfl
@[simp] theorem State.modCore_compl (s : State) (c : Nat) (f : Core → Core) : (s.modCore c f).compl = s.compl := by unfold State.modCore; split <;> rfl
@[simp] theorem State.modCore_out (s : State) (c : Nat) (f : Core → Core) : (s.modCore c f).out = s.out := by unfold State.modCore; split <;> rfl
@[simp] theorem State.modCore_nextSeq (s : State) (c : Nat) (f : Core → Core) : (s.modCore c f).nextSeq = s.nextSeq := by unfold State.modCore; split <;> rfl
@[simp] theorem State.modCore_resWait (s : State) (c : Nat) (f : Core → Core) : (s.modCore c f).resWait = s.resWait := by unfold State.modCore; split <;> rfl
@[simp] theorem State.modCore_messages (s : State) (c : Nat) (f : Core → Core) : (s.modCore c f).messages = s.messages := by unfold State.modCore; split <;> rfl
@[simp] theorem State.modCore_work (s : State) (c : Nat) (f : Core → Core) : (s.modCore c f).work = s.work := by unfold State.modCore; split <;> rfl
@[simp] theorem State.modCore_inbox (s : State) (c : Nat) (f : Core → Core) : (s.modCore c f).inbox = s.inbox := by unfold State.modCore; split <;> rfl
@[simp] theorem State.modCore_choices (s : State) (c : Nat) (f : Core → Core) : (s.modCore c f).choices = s.choices := by unfold State.modCore; split <;> rfl
@[simp] theorem State.modCore_issue (s : State) (c : Nat) (f : Core → Core) : (s.modCore c f).issue = s.issue := by unfold State.modCore; split <;> rfl
@[simp] theorem State.modCore_turn (s : State) (c : Nat) (f : Core → Core) : (s.modCore c f).turn = s.turn := by unfold State.modCore; split <;> rfl
@[simp] theorem State.modCore_freeCount (s : State) (c : Nat) (f : Core → Core) : (s.modCore c f).freeCount = s.freeCount := by unfold State.modCore; split <;> rfl

@[simp] theorem State.modDie_cycle (s : State) (d : Nat) (f : Die → Die) : (s.modDie d f).cycle = s.cycle := by unfold State.modDie; split <;> rfl
@[simp] theorem State.modDie_epoch (s : State) (d : Nat) (f : Die → Die) : (s.modDie d f).epoch = s.epoch := by unfold State.modDie; split <;> rfl
@[simp] theorem State.modDie_mmode (s : State) (d : Nat) (f : Die → Die) : (s.modDie d f).mmode = s.mmode := by unfold State.modDie; split <;> rfl
@[simp] theorem State.modDie_modid (s : State) (d : Nat) (f : Die → Die) : (s.modDie d f).modid = s.modid := by unfold State.modDie; split <;> rfl
@[simp] theorem State.modDie_disabled (s : State) (d : Nat) (f : Die → Die) : (s.modDie d f).disabled = s.disabled := by unfold State.modDie; split <;> rfl
@[simp] theorem State.modDie_mem (s : State) (d : Nat) (f : Die → Die) : (s.modDie d f).mem = s.mem := by unfold State.modDie; split <;> rfl
@[simp] theorem State.modDie_poison (s : State) (d : Nat) (f : Die → Die) : (s.modDie d f).poison = s.poison := by unfold State.modDie; split <;> rfl
@[simp] theorem State.modDie_lineIa (s : State) (d : Nat) (f : Die → Die) : (s.modDie d f).lineIa = s.lineIa := by unfold State.modDie; split <;> rfl
@[simp] theorem State.modDie_agents (s : State) (d : Nat) (f : Die → Die) : (s.modDie d f).agents = s.agents := by unfold State.modDie; split <;> rfl
@[simp] theorem State.modDie_leases (s : State) (d : Nat) (f : Die → Die) : (s.modDie d f).leases = s.leases := by unfold State.modDie; split <;> rfl
@[simp] theorem State.modDie_subscribers (s : State) (d : Nat) (f : Die → Die) : (s.modDie d f).subscribers = s.subscribers := by unfold State.modDie; split <;> rfl
@[simp] theorem State.modDie_parts (s : State) (d : Nat) (f : Die → Die) : (s.modDie d f).parts = s.parts := by unfold State.modDie; split <;> rfl
@[simp] theorem State.modDie_budget (s : State) (d : Nat) (f : Die → Die) : (s.modDie d f).budget = s.budget := by unfold State.modDie; split <;> rfl
@[simp] theorem State.modDie_sysMem (s : State) (d : Nat) (f : Die → Die) : (s.modDie d f).sysMem = s.sysMem := by unfold State.modDie; split <;> rfl
@[simp] theorem State.modDie_lostPorts (s : State) (d : Nat) (f : Die → Die) : (s.modDie d f).lostPorts = s.lostPorts := by unfold State.modDie; split <;> rfl
@[simp] theorem State.modDie_peers (s : State) (d : Nat) (f : Die → Die) : (s.modDie d f).peers = s.peers := by unfold State.modDie; split <;> rfl
@[simp] theorem State.modDie_xroot (s : State) (d : Nat) (f : Die → Die) : (s.modDie d f).xroot = s.xroot := by unfold State.modDie; split <;> rfl
@[simp] theorem State.modDie_tlb (s : State) (d : Nat) (f : Die → Die) : (s.modDie d f).tlb = s.tlb := by unfold State.modDie; split <;> rfl
@[simp] theorem State.modDie_ticks (s : State) (d : Nat) (f : Die → Die) : (s.modDie d f).ticks = s.ticks := by unfold State.modDie; split <;> rfl
@[simp] theorem State.modDie_held (s : State) (d : Nat) (f : Die → Die) : (s.modDie d f).held = s.held := by unfold State.modDie; split <;> rfl
@[simp] theorem State.modDie_reported (s : State) (d : Nat) (f : Die → Die) : (s.modDie d f).reported = s.reported := by unfold State.modDie; split <;> rfl
@[simp] theorem State.modDie_migs (s : State) (d : Nat) (f : Die → Die) : (s.modDie d f).migs = s.migs := by unfold State.modDie; split <;> rfl
@[simp] theorem State.modDie_ckpt (s : State) (d : Nat) (f : Die → Die) : (s.modDie d f).ckpt = s.ckpt := by unfold State.modDie; split <;> rfl
@[simp] theorem State.modDie_apers (s : State) (d : Nat) (f : Die → Die) : (s.modDie d f).apers = s.apers := by unfold State.modDie; split <;> rfl
@[simp] theorem State.modDie_funcs (s : State) (d : Nat) (f : Die → Die) : (s.modDie d f).funcs = s.funcs := by unfold State.modDie; split <;> rfl
@[simp] theorem State.modDie_measured (s : State) (d : Nat) (f : Die → Die) : (s.modDie d f).measured = s.measured := by unfold State.modDie; split <;> rfl
@[simp] theorem State.modDie_booted (s : State) (d : Nat) (f : Die → Die) : (s.modDie d f).booted = s.booted := by unfold State.modDie; split <;> rfl
@[simp] theorem State.modDie_enumerated (s : State) (d : Nat) (f : Die → Die) : (s.modDie d f).enumerated = s.enumerated := by unfold State.modDie; split <;> rfl
@[simp] theorem State.modDie_stop (s : State) (d : Nat) (f : Die → Die) : (s.modDie d f).stop = s.stop := by unfold State.modDie; split <;> rfl
@[simp] theorem State.modDie_links (s : State) (d : Nat) (f : Die → Die) : (s.modDie d f).links = s.links := by unfold State.modDie; split <;> rfl
@[simp] theorem State.modDie_seen (s : State) (d : Nat) (f : Die → Die) : (s.modDie d f).seen = s.seen := by unfold State.modDie; split <;> rfl
@[simp] theorem State.modDie_withhold (s : State) (d : Nat) (f : Die → Die) : (s.modDie d f).withhold = s.withhold := by unfold State.modDie; split <;> rfl
@[simp] theorem State.modDie_ctxs (s : State) (d : Nat) (f : Die → Die) : (s.modDie d f).ctxs = s.ctxs := by unfold State.modDie; split <;> rfl
@[simp] theorem State.modDie_grids (s : State) (d : Nat) (f : Die → Die) : (s.modDie d f).grids = s.grids := by unfold State.modDie; split <;> rfl
@[simp] theorem State.modDie_teams (s : State) (d : Nat) (f : Die → Die) : (s.modDie d f).teams = s.teams := by unfold State.modDie; split <;> rfl
@[simp] theorem State.modDie_threads (s : State) (d : Nat) (f : Die → Die) : (s.modDie d f).threads = s.threads := by unfold State.modDie; split <;> rfl
@[simp] theorem State.modDie_cores (s : State) (d : Nat) (f : Die → Die) : (s.modDie d f).cores = s.cores := by unfold State.modDie; split <;> rfl
@[simp] theorem State.modDie_compl (s : State) (d : Nat) (f : Die → Die) : (s.modDie d f).compl = s.compl := by unfold State.modDie; split <;> rfl
@[simp] theorem State.modDie_out (s : State) (d : Nat) (f : Die → Die) : (s.modDie d f).out = s.out := by unfold State.modDie; split <;> rfl
@[simp] theorem State.modDie_nextSeq (s : State) (d : Nat) (f : Die → Die) : (s.modDie d f).nextSeq = s.nextSeq := by unfold State.modDie; split <;> rfl
@[simp] theorem State.modDie_resWait (s : State) (d : Nat) (f : Die → Die) : (s.modDie d f).resWait = s.resWait := by unfold State.modDie; split <;> rfl
@[simp] theorem State.modDie_messages (s : State) (d : Nat) (f : Die → Die) : (s.modDie d f).messages = s.messages := by unfold State.modDie; split <;> rfl
@[simp] theorem State.modDie_work (s : State) (d : Nat) (f : Die → Die) : (s.modDie d f).work = s.work := by unfold State.modDie; split <;> rfl
@[simp] theorem State.modDie_inbox (s : State) (d : Nat) (f : Die → Die) : (s.modDie d f).inbox = s.inbox := by unfold State.modDie; split <;> rfl
@[simp] theorem State.modDie_choices (s : State) (d : Nat) (f : Die → Die) : (s.modDie d f).choices = s.choices := by unfold State.modDie; split <;> rfl
@[simp] theorem State.modDie_issue (s : State) (d : Nat) (f : Die → Die) : (s.modDie d f).issue = s.issue := by unfold State.modDie; split <;> rfl
@[simp] theorem State.modDie_turn (s : State) (d : Nat) (f : Die → Die) : (s.modDie d f).turn = s.turn := by unfold State.modDie; split <;> rfl
@[simp] theorem State.modDie_freeCount (s : State) (d : Nat) (f : Die → Die) : (s.modDie d f).freeCount = s.freeCount := by unfold State.modDie; split <;> rfl

end Sys2Proof.Machine
end

