-- ==== Sys2Proof/Laws/Threads.lean ====
section
/-! SUPPORT. Looking up a thread, a context, a grid, a team or a core after an update, and what an issue of one thread does (R6). -/

namespace Sys2Proof.Machine

open Sys2Proof Sys2Proof.Safety

/-! ### Lists -/

theorem find_map_hit {α : Type} (p q : α → Bool) (f : α → α) (x : α) (l : List α)
    (h : l.find? p = some x) (hq : ∀ y, p y = false → q (f y) = false) (hx : q (f x) = true) :
    (l.map f).find? q = some (f x) := by
  induction l with
  | nil => cases h
  | cons y l ih =>
    by_cases hy : p y = true
    · simp only [List.find?_cons, hy, Option.some.injEq] at h
      subst h
      simp [hx]
    · simp only [Bool.not_eq_true] at hy
      simp only [List.find?_cons, hy] at h
      simp only [List.map_cons, List.find?_cons, hq y hy]
      exact ih h

theorem find_map_same {α : Type} (q : α → Bool) (f : α → α) (l : List α)
    (h : ∀ y ∈ l, f y = y ∨ (q y = false ∧ q (f y) = false)) : (l.map f).find? q = l.find? q := by
  induction l with
  | nil => rfl
  | cons y l ih =>
    have h' := ih fun z hz => h z (List.mem_cons_of_mem _ hz)
    rcases h y (List.mem_cons_self) with e | ⟨e1, e2⟩
    · simp only [List.map_cons, List.find?_cons, e, h']
    · simp only [List.map_cons, List.find?_cons, e1, e2, h']

/-! ### Threads -/

theorem thread?_id {s : State} {t : Tid} {th : Thread} (h : s.thread? t = some th) : th.id = t := by
  have := List.find?_some h
  simpa using this

/-- The thread that an update names, if the update keeps its name. -/
theorem thread?_modThread_self {s : State} {t : Tid} {th : Thread} {f : Thread → Thread}
    (h : s.thread? t = some th) (hf : (f th).id = t) : (s.modThread t f).thread? t = some (f th) := by
  have hid := thread?_id h
  unfold State.thread? at h ⊢
  unfold State.modThread
  have := find_map_hit (fun x => x.id == t) (fun x => x.id == t) (fun x => if x.id = t then f x else x) th s.threads h
    (by
      intro y hy
      simp only [beq_eq_false_iff_ne] at hy
      simp [hy])
    (by simp [hid, hf])
  simpa [hid] using this

/-- Another thread is as before. -/
theorem thread?_modThread_other {s : State} {t u : Tid} {f : Thread → Thread}
    (hf : ∀ x, (f x).id = x.id) (h : u ≠ t) : (s.modThread t f).thread? u = s.thread? u := by
  unfold State.thread? State.modThread
  apply find_map_same
  intro y _
  by_cases hy : y.id = t
  · right
    refine ⟨?_, ?_⟩
    · simpa [hy] using fun e => h e.symm
    · simp only [hy, if_true, hf]
      simpa using fun e => h e.symm
  · left
    simp [hy]

theorem modThread_modThread (s : State) (t : Tid) (f g : Thread → Thread) (hf : ∀ x, (f x).id = x.id) :
    (s.modThread t f).modThread t g = s.modThread t fun x => g (f x) := by
  unfold State.modThread
  simp only [List.map_map, State.mk.injEq, true_and, and_true]
  apply List.map_congr_left
  intro x _
  by_cases h : x.id = t <;> simp [h, hf]

@[simp] theorem Thread.advance_id (th : Thread) : th.advance.id = th.id := rfl
@[simp] theorem Thread.transfer_id (th : Thread) (d : DWord) (c : Bool) : (th.transfer d c).id = th.id := rfl
@[simp] theorem Thread.advance_regs (th : Thread) : th.advance.regs = th.regs := rfl
@[simp] theorem Thread.advance_pc (th : Thread) : th.advance.pc = succPc th.pc := rfl
@[simp] theorem Thread.transfer_pc (th : Thread) (d : DWord) (c : Bool) : (th.transfer d c).pc = d := rfl
@[simp] theorem Thread.transfer_regs (th : Thread) (d : DWord) (c : Bool) : (th.transfer d c).regs = th.regs := rfl

theorem thread?_advance_self {s : State} {t : Tid} {th : Thread} (h : s.thread? t = some th) :
    (s.advance t).thread? t = some th.advance :=
  thread?_modThread_self h (by simpa using thread?_id h)

theorem thread?_advance_other {s : State} {t u : Tid} (h : u ≠ t) : (s.advance t).thread? u = s.thread? u :=
  thread?_modThread_other (fun _ => rfl) h

/-! ### Contexts, grids, teams, cores -/

theorem ctx?_id {s : State} {c : Nat} {x : Ctx} (h : s.ctx? c = some x) : x.id = c := by
  simpa using List.find?_some h

theorem ctx?_modCtx_self {s : State} {c : Nat} {x : Ctx} {f : Ctx → Ctx}
    (h : s.ctx? c = some x) (hf : (f x).id = c) : (s.modCtx c f).ctx? c = some (f x) := by
  have hid := ctx?_id h
  unfold State.ctx? at h ⊢
  unfold State.modCtx
  have := find_map_hit (fun x => x.id == c) (fun x => x.id == c) (fun x => if x.id = c then f x else x) x s.ctxs h
    (by
      intro y hy
      simp only [beq_eq_false_iff_ne] at hy
      simp [hy])
    (by simp [hid, hf])
  simpa [hid] using this

theorem ctx?_modCtx_other {s : State} {c d : Nat} {f : Ctx → Ctx}
    (hf : ∀ x, (f x).id = x.id) (h : d ≠ c) : (s.modCtx c f).ctx? d = s.ctx? d := by
  unfold State.ctx? State.modCtx
  apply find_map_same
  intro y _
  by_cases hy : y.id = c
  · right
    refine ⟨?_, ?_⟩
    · simpa [hy] using fun e => h e.symm
    · simp only [hy, if_true, hf]
      simpa using fun e => h e.symm
  · left
    simp [hy]

theorem core_modCore_self (s : State) (c : Nat) (f : Core → Core) (hf : ∀ x, (f x).id = x.id) :
    (s.modCore c f).core c = f (s.core c) := by
  unfold State.core State.modCore
  cases h : s.cores.find? fun x => x.id == c with
  | none =>
    have hn : (s.cores.any fun x => x.id == c) = false := by
      rw [List.any_eq_false]
      intro x hx
      have := List.find?_eq_none.mp h x hx
      simpa using this
    have hc : (f (Core.reset c)).id = c := hf _
    simp [hn, List.find?_append, h, hc]
  | some x =>
    have hx : x.id = c := by simpa using List.find?_some h
    have hn : (s.cores.any fun x => x.id == c) = true :=
      List.any_eq_true.mpr ⟨x, List.mem_of_find?_eq_some h, by simp [hx]⟩
    have := find_map_hit (fun x => x.id == c) (fun x => x.id == c) (fun x => if x.id = c then f x else x) x s.cores h
      (by
        intro y hy
        simp only [beq_eq_false_iff_ne] at hy
        simp [hy])
      (by simp [hx, hf])
    simp [hn, this, hx]

theorem core_modCore_other (s : State) (c d : Nat) (f : Core → Core) (hf : ∀ x, (f x).id = x.id) (h : d ≠ c) :
    (s.modCore c f).core d = s.core d := by
  unfold State.core State.modCore
  split
  · congr 1
    apply find_map_same
    intro y _
    by_cases hy : y.id = c
    · right
      refine ⟨?_, ?_⟩
      · simpa [hy] using fun e => h e.symm
      · simp only [hy, if_true, hf]
        simpa using fun e => h e.symm
    · left
      simp [hy]
  · have hc : (f (Core.reset c)).id = c := hf _
    have : ((f (Core.reset c)).id == d) = false := by
      simp [hc]
      exact fun e => h e.symm
    simp [List.find?_append, this]

/-! ### An issue of one thread (R6) -/

theorem enterOne_go {s : State} {i : Instr} {t : Tid} {th : Thread} {g : Guard} (ht : s.thread? t = some th)
    (hc : Clean s i th) (hg : i.guard? = some g) (hh : g.holds th.regs = true) : s.enterOne i t = (s, .go) := by
  unfold State.enterOne
  simp only [ht, hc.legal, hc.range, hc.pair, hg, hh, hc.priv, hc.ahead, Thread.countAhead, Bool.false_and,
    Bool.false_eq_true, if_false, Bool.not_true]

theorem enterOne_skip {s : State} {i : Instr} {t : Tid} {th : Thread} {g : Guard} (ht : s.thread? t = some th)
    (hc : Clean s i th) (hg : i.guard? = some g) (hh : g.holds th.regs = false) : s.enterOne i t = (s, .skip) := by
  unfold State.enterOne
  simp only [ht, hc.legal, hc.range, hc.pair, hg, hh, hc.ahead, Thread.countAhead, Bool.false_and,
    Bool.false_eq_true, if_false, Bool.not_false, if_true]

/-- One thread whose guard is true: the body runs for it. -/
theorem run_lone {s : State} {i : Instr} {t : Tid} {th : Thread} (h : Lone s i t th)
    (body : State → Tid → State) : s.run i body = .next (body s t) := by
  obtain ⟨g, hg, hh⟩ := h.holds
  unfold State.run
  simp [h.issue, State.enterAll, enterOne_go h.thread h.clean hg hh]

theorem runAll_lone {s : State} {i : Instr} {t : Tid} {th : Thread} (h : Lone s i t th)
    (body : State → List Tid → State) : s.runAll i body = .next (body s [t]) := by
  obtain ⟨g, hg, hh⟩ := h.holds
  unfold State.runAll
  simp [h.issue, State.enterAll, enterOne_go h.thread h.clean hg hh]

/-- The lanes whose guard is true, and those whose guard is false, when every check of R6 passes. -/
def lanesWhere (s : State) (i : Instr) (b : Bool) (ts : List Tid) : List Tid :=
  ts.filter fun t => match s.thread? t with
    | some th => performs i th == b
    | none => false

theorem enterAll_ready {s : State} {i : Instr} (hg : ∃ g, i.guard? = some g) (ts : List Tid)
    (h : ∀ t ∈ ts, ∃ th, s.thread? t = some th ∧ Clean s i th) :
    State.enterAll i s ts = (s, lanesWhere s i true ts, lanesWhere s i false ts) := by
  induction ts with
  | nil => rfl
  | cons t ts ih =>
    obtain ⟨th, ht, hc⟩ := h t List.mem_cons_self
    obtain ⟨g, hg'⟩ := hg
    have ih := ih fun u hu => h u (List.mem_cons_of_mem _ hu)
    by_cases hh : g.holds th.regs = true
    · simp [State.enterAll, enterOne_go ht hc hg' hh, ih, lanesWhere, ht, performs, hg', hh]
    · simp only [Bool.not_eq_true] at hh
      simp [State.enterAll, enterOne_skip ht hc hg' hh, ih, lanesWhere, ht, performs, hg', hh]

theorem run_ready {s : State} {i : Instr} (h : Ready s i) (body : State → Tid → State) :
    s.run i body = .next ((lanesWhere s i true s.issue).foldl body ((lanesWhere s i false s.issue).foldl State.advance s)) := by
  unfold State.run
  rw [enterAll_ready h.code s.issue h.clean]

theorem runAll_ready {s : State} {i : Instr} (h : Ready s i) (body : State → List Tid → State) :
    s.runAll i body = .next (body ((lanesWhere s i false s.issue).foldl State.advance s) (lanesWhere s i true s.issue)) := by
  unfold State.runAll
  rw [enterAll_ready h.code s.issue h.clean]

/-! ### Several lanes, one after another -/

theorem rest_trans {a b c : State} (h1 : b = { a with threads := b.threads }) (h2 : c = { b with threads := c.threads }) :
    c = { a with threads := c.threads } :=
  h2.trans (by rw [h1])

theorem lanesDo_nil (s : State) (act : Thread → Thread) : LanesDo [] act s s :=
  ⟨rfl, fun _ h => by simp at h, fun _ _ => rfl⟩

/-- What one lane does at a time, all the lanes of a list do. -/
theorem foldl_lanes {act : Thread → Thread} {body : State → Tid → State} (ts : List Tid) (s : State)
    (hb : ∀ s1 t th, t ∈ ts → s1 = { s with threads := s1.threads } → s1.thread? t = some th → LanesDo [t] act s1 (body s1 t))
    (hn : ts.Nodup) (he : ∀ t ∈ ts, ∃ th, s.thread? t = some th) : LanesDo ts act s (ts.foldl body s) := by
  induction ts generalizing s with
  | nil => exact lanesDo_nil s act
  | cons t ts ih =>
    obtain ⟨th, ht⟩ := he t List.mem_cons_self
    have h1 := hb s t th List.mem_cons_self rfl ht
    have hn' := List.nodup_cons.mp hn
    have keep : ∀ u, u ∈ ts → (body s t).thread? u = s.thread? u := fun u hu =>
      h1.others u (by
        simp only [List.mem_singleton]
        intro e
        exact hn'.1 (e ▸ hu))
    have h2 := ih (body s t) (fun s1 u x hu hr => hb s1 u x (List.mem_cons_of_mem _ hu) (rest_trans h1.rest hr)) hn'.2 (fun u hu => by
      obtain ⟨x, hx⟩ := he u (List.mem_cons_of_mem _ hu)
      exact ⟨x, by rw [keep u hu, hx]⟩)
    refine ⟨?_, ?_, ?_⟩
    · exact rest_trans h1.rest h2.rest
    · intro u hu x hx
      rw [List.foldl_cons]
      rcases List.mem_cons.mp hu with e | hu'
      · subst e
        rw [h2.others u hn'.1]
        exact h1.lane u (by simp) x hx
      · exact h2.lane u hu' x (by rw [keep u hu', hx])
    · intro u hu
      rw [List.foldl_cons, h2.others u fun h => hu (List.mem_cons_of_mem _ h)]
      exact h1.others u (by
        simp only [List.mem_singleton]
        exact fun e => hu (e ▸ List.mem_cons_self))

theorem advance_lane {s : State} {t : Tid} {th : Thread} (h : s.thread? t = some th) :
    LanesDo [t] Thread.advance s (s.advance t) :=
  ⟨rfl, fun u hu x hx => by
      simp only [List.mem_singleton] at hu
      subst hu
      exact thread?_advance_self hx,
    fun u hu => thread?_advance_other (by simpa using hu)⟩

/-- An issue in which each lane that performs the instruction acts on itself alone. -/
theorem run_lanes {s : State} {i : Instr} {act : Thread → Thread} {body : State → Tid → State} (h : Ready s i)
    (hb : ∀ s1 t th, s1 = { s with threads := s1.threads } → s1.thread? t = some th → LanesDo [t] act s1 (body s1 t)) :
    ∃ s', s.run i body = .next s' ∧
      LanesDo s.issue (fun th => if performs i th = true then act th else th.advance) s s' := by
  refine ⟨_, run_ready h body, ?_⟩
  have hsub : ∀ b t, t ∈ lanesWhere s i b s.issue → t ∈ s.issue := fun b t ht => (List.mem_filter.mp ht).1
  have hex : ∀ t ∈ s.issue, ∃ th, s.thread? t = some th := fun t ht => by
    obtain ⟨th, h1, _⟩ := h.clean t ht
    exact ⟨th, h1⟩
  have hno := foldl_lanes (act := Thread.advance) (body := State.advance) (lanesWhere s i false s.issue) s
    (fun s1 t th _ _ ht => advance_lane ht) (h.once.filter _) (fun t ht => hex t (hsub _ t ht))
  have hdis : ∀ t, t ∈ lanesWhere s i true s.issue → t ∉ lanesWhere s i false s.issue := by
    intro t h1 h2
    have a := (List.mem_filter.mp h1).2
    have b := (List.mem_filter.mp h2).2
    obtain ⟨th, ht⟩ := hex t (hsub _ t h1)
    simp only [ht, beq_iff_eq] at a b
    rw [a] at b
    cases b
  have hyes := foldl_lanes (act := act) (body := body) (lanesWhere s i true s.issue)
    ((lanesWhere s i false s.issue).foldl State.advance s) (fun s1 t th _ hr ht => hb s1 t th (rest_trans hno.rest hr) ht) (h.once.filter _)
    (fun t ht => by
      obtain ⟨th, h1⟩ := hex t (hsub _ t ht)
      exact ⟨th, by rw [hno.others t (hdis t ht), h1]⟩)
  refine ⟨?_, ?_, ?_⟩
  · exact rest_trans hno.rest hyes.rest
  · intro t ht th hth
    by_cases hp : performs i th = true
    · have hm : t ∈ lanesWhere s i true s.issue := List.mem_filter.mpr ⟨ht, by simp [hth, hp]⟩
      simp only [hp, if_true]
      exact hyes.lane t hm th (by rw [hno.others t (hdis t hm), hth])
    · have hm : t ∈ lanesWhere s i false s.issue := List.mem_filter.mpr ⟨ht, by simpa [hth] using hp⟩
      have hm' : t ∉ lanesWhere s i true s.issue := fun h' => hdis t h' hm
      simp only [hp]
      rw [hyes.others t hm']
      exact hno.lane t hm th hth
  · intro u hu
    rw [hyes.others u fun h' => hu (hsub _ u h'), hno.others u fun h' => hu (hsub _ u h')]

/-! ### Register instructions -/

theorem compute_eq {s : State} {t : Tid} {th : Thread} (ht : s.thread? t = some th) (f : Regs → Regs × Fpx) :
    s.compute f t =
      let s' := s.modThread t fun x => { x.advance with regs := (f th.regs).1, shadow := x.shadow.map fun r => (f r).1 }
      if (f th.regs).2 = 0 then s' else s'.setFpx t (f th.regs).2 := by
  unfold State.compute
  simp only [ht]

/-- A register instruction without FPX flags does what its function gives, in every lane. -/
theorem computes_of {i : Instr} {f' : Regs → Regs × Fpx} {f : Regs → Regs}
    (h : ∀ s, exec i s = s.run i fun s t => s.compute f' t) (hf : ∀ r, f' r = (f r, 0)) : Computes i f := by
  intro s hs
  obtain ⟨s', h1, h2⟩ := run_lanes (act := fun th => { th.advance with regs := f th.regs, shadow := th.shadow.map f })
    (body := fun s t => s.compute f' t) hs (by
      intro s t th _ ht
      have hid : th.advance.id = t := by simpa using thread?_id ht
      rw [compute_eq ht]
      simp only [hf, if_true]
      refine ⟨rfl, ?_, ?_⟩
      · intro u hu x hx
        simp only [List.mem_singleton] at hu
        subst hu
        rw [ht] at hx
        cases hx
        exact thread?_modThread_self ht hid
      · intro u hu
        exact thread?_modThread_other (fun _ => rfl) (by simpa using hu))
  exact ⟨s', (h s).trans h1, h2⟩

end Sys2Proof.Machine
end

