-- ==== Sys2Proof/Laws/Compute.lean ====
section
/-! SUPPORT. What a register instruction with FPX bits does, and what a flag-setting operation leaves waiting. -/

namespace Sys2Proof.Machine

open Sys2Proof Sys2Proof.Safety

/-! ### FPX (R204) -/

theorem team?_modTeam_self {s : State} {c g k : Nat} {f : Team → Team} (hf : ∀ x, (f x).ctx = x.ctx ∧ (f x).grid = x.grid ∧ (f x).num = x.num) :
    (s.modTeam c g k f).team? c g k = (s.team? c g k).map f := by
  unfold State.team? State.modTeam
  simp only
  induction s.teams with
  | nil => rfl
  | cons x l ih =>
    by_cases hx : x.ctx = c ∧ x.grid = g ∧ x.num = k
    · obtain ⟨h1, h2, h3⟩ := hx
      simp [h1, h2, h3, hf]
    · have e : (x.ctx == c && x.grid == g && x.num == k) = false := by
        simpa [Bool.and_eq_false_iff, not_and_or, or_assoc] using hx
      simp only [List.map_cons, hx, if_false, List.find?_cons, e]
      exact ih

theorem team?_modTeam_other {s : State} {c g k c' g' k' : Nat} {f : Team → Team}
    (hf : ∀ x, (f x).ctx = x.ctx ∧ (f x).grid = x.grid ∧ (f x).num = x.num) (h : ¬ (c' = c ∧ g' = g ∧ k' = k)) :
    (s.modTeam c g k f).team? c' g' k' = s.team? c' g' k' := by
  unfold State.team? State.modTeam
  apply find_map_same
  intro y _
  by_cases hy : y.ctx = c ∧ y.grid = g ∧ y.num = k
  · right
    obtain ⟨h1, h2, h3⟩ := hy
    have : (c == c' && g == g' && k == k') = false := by
      rw [Bool.eq_false_iff]
      intro e
      simp only [Bool.and_eq_true, beq_iff_eq] at e
      exact h ⟨e.1.1.symm, e.1.2.symm, e.2.symm⟩
    simp [h1, h2, h3, hf, this]
  · left
    simp [hy]

theorem setFpx_into (s : State) (t : Tid) (x : Fpx) : FpxInto t x s (s.setFpx t x) := by
  cases t with
  | thr c g k r l =>
    intro c' g' k'
    by_cases h : c' = c ∧ g' = g ∧ k' = k
    · obtain ⟨rfl, rfl, rfl⟩ := h
      simp only [and_self, if_true]
      exact team?_modTeam_self fun _ => ⟨rfl, rfl, rfl⟩
    · rw [if_neg h]
      exact team?_modTeam_other (fun _ => ⟨rfl, rfl, rfl⟩) h
  | scalar k => rfl

theorem fpxInto_zero (s : State) (t : Tid) : FpxInto t 0 s s := by
  cases t with
  | thr c g k r l =>
    intro c' g' k'
    have e : (fun tm : Team => { tm with fpx := tm.fpx ||| 0 }) = id := by
      funext tm
      show { tm with fpx := tm.fpx ||| 0 } = tm
      rw [show tm.fpx ||| 0 = tm.fpx from BitVec.or_zero]
    rw [e]
    simp
  | scalar k => rfl

/-- A register instruction with its FPX bits does what its function gives. -/
theorem computesF_of {i : Instr} {f : Bool → Regs → Regs × Fpx} (f' : Bool → Regs → Regs × Fpx)
    (h : ∀ s, exec i s = s.run i fun s t => s.compute (f' (s.ftzd t)) t) (hf : ∀ z r, f' z r = f z r) : ComputesF i f := by
  have : f' = f := by
    funext z r
    exact hf z r
  subst this
  intro s t th hs z
  have hid := thread?_id hs.thread
  have ha : th.advance.id = t := by simpa using hid
  rw [h, run_lone hs, compute_eq hs.thread]
  refine ⟨_, rfl, ?_⟩
  have h1 : (s.modThread t fun x =>
      { x.advance with regs := (f' z th.regs).1, shadow := x.shadow.map fun r => (f' z r).1 }).thread? t =
      some { th.advance with regs := (f' z th.regs).1, shadow := th.shadow.map fun r => (f' z r).1 } :=
    thread?_modThread_self hs.thread ha
  simp only []
  split
  case isTrue h0 =>
    have h0 : (f' z th.regs).2 = 0 := h0
    have e : (if th.isScalar = true then th.fpx ||| (f' z th.regs).2 else th.fpx) = th.fpx := by
      rw [h0]
      split
      · exact BitVec.or_zero
      · rfl
    rw [e, h0]
    exact ⟨rfl, h1, fun u hu => thread?_modThread_other (fun _ => rfl) hu, fpxInto_zero _ _⟩
  case isFalse h0 =>
    have h2 := setFpx_into (s.modThread t fun x =>
      { x.advance with regs := (f' z th.regs).1, shadow := x.shadow.map fun r => (f' z r).1 }) t (f' z th.regs).2
    cases t with
    | thr c g k r l =>
      have hsc : th.isScalar = false := by
        unfold Thread.isScalar
        rw [hid]
        rfl
      rw [hsc]
      exact ⟨rfl, h1, fun u hu => thread?_modThread_other (fun _ => rfl) hu, h2⟩
    | scalar k =>
      have hsc : th.isScalar = true := by
        unfold Thread.isScalar
        rw [hid]
        rfl
      rw [hsc]
      refine ⟨rfl, ?_, fun u hu => ?_, h2⟩
      · exact thread?_modThread_self h1 ha
      · refine Eq.trans (b := (s.modThread (.scalar k) fun x =>
          { x.advance with regs := (f' z th.regs).1, shadow := x.shadow.map fun r => (f' z r).1 }).thread? u) ?_ ?_
        · exact thread?_modThread_other (fun _ => rfl) hu
        · exact thread?_modThread_other (fun _ => rfl) hu

/-- A flag-setting operation of one lane. -/
theorem starts_of {i : Instr} {fs : Bool} {b : Nat} {f : Bool → Regs → List (Nat × Word) × List (Nat × Bool) × Fpx}
    (h : ∀ s, exec i s = s.run i fun s t => s.startOp t fs b (f (s.ftzd t))) : Starts i fs b f := by
  intro s hs
  obtain ⟨s', h1, h2⟩ := run_lanes (act := fun th => 
      let sel := if fs = true then wordSETB (lineWord th.line) else wordSETA (lineWord th.line)
      let q := f (s.ftzd th.id) th.regs
      let q' := match th.shadow with
        | some r => f (s.ftzd th.id) r
        | none => ([], [], 0)
      { th.advance with ops := th.ops ++
          [{ flag := if sel < 12 then some sel else none, xs := q.1, ps := q.2.1, shadowXs := q'.1, shadowPs := q'.2.1, fpx := q.2.2, bound := b }] })
    (body := fun s t => s.startOp t fs b (f (s.ftzd t))) hs (by
      intro s1 t th hr ht
      have hid : th.id = t := thread?_id ht
      have hz : s1.ftzd t = s.ftzd t := by rw [hr]; rfl
      refine ⟨rfl, ?_, ?_⟩
      · intro u hu x hx
        simp only [List.mem_singleton] at hu
        subst hu
        rw [ht] at hx
        cases hx
        show State.thread? (State.modThread _ _ _) _ = _
        rw [thread?_modThread_self ht (by exact hid), hz, hid]
        all_goals rfl
      · intro u hu
        exact thread?_modThread_other (fun _ => rfl) (by simpa using hu))
  exact ⟨s', (h s).trans h1, h2⟩

end Sys2Proof.Machine
end

