-- ==== Sys2Proof/Laws/Memory.lean ====
section
/-! SUPPORT. The byte memories: every operation keeps the canonical form; what a read gives after a write; equal bytes, equal memories. -/

namespace Sys2Proof.Machine

open Sys2Proof

theorem wfFrom_mono {lo lo' : Nat} {m : Memory} (h : lo' ≤ lo) (w : Memory.wfFrom lo m = true) : Memory.wfFrom lo' m = true := by
  cases m with
  | nil => rfl
  | cons c m =>
    obtain ⟨k, v⟩ := c
    simp only [Memory.wfFrom, Bool.and_eq_true, decide_eq_true_eq] at w ⊢
    exact ⟨⟨by omega, w.1.2⟩, w.2⟩

theorem get_below {lo a : Nat} {m : Memory} (w : Memory.wfFrom lo m = true) (h : a < lo) : m.get a = Memory.unlisted := by
  cases m with
  | nil => rfl
  | cons c m =>
    obtain ⟨k, v⟩ := c
    simp only [Memory.wfFrom, Bool.and_eq_true, decide_eq_true_eq] at w
    simp only [Memory.get]
    rw [if_neg (by omega), if_pos (by omega)]

theorem put_wfFrom {lo a : Nat} (b : Byte) {m : Memory} (w : Memory.wfFrom lo m = true) (h : lo ≤ a) :
    Memory.wfFrom lo (m.put a b) = true := by
  induction m generalizing lo with
  | nil =>
    simp only [Memory.put]
    split
    · rfl
    · rename_i hb; simp [Memory.wfFrom, h, hb]
  | cons c m ih =>
    obtain ⟨k, v⟩ := c
    have w' := w
    simp only [Memory.wfFrom, Bool.and_eq_true, decide_eq_true_eq] at w'
    obtain ⟨⟨hlo, hv⟩, hm⟩ := w'
    simp only [Memory.put]
    split
    · split
      · exact w
      · rename_i hb
        simp only [Memory.wfFrom, Bool.and_eq_true, decide_eq_true_eq]
        exact ⟨⟨h, by simpa using hb⟩, ⟨by omega, hv⟩, hm⟩
    · split
      · split
        · exact wfFrom_mono (by omega) hm
        · rename_i hb
          simp only [Memory.wfFrom, Bool.and_eq_true, decide_eq_true_eq]
          exact ⟨⟨hlo, by simpa using hb⟩, hm⟩
      · simp only [Memory.wfFrom, Bool.and_eq_true, decide_eq_true_eq]
        exact ⟨⟨hlo, hv⟩, ih hm (by omega)⟩

/-- Writing one byte keeps the canonical form. -/
theorem put_wf {m : Memory} (w : m.wf = true) (a : Nat) (b : Byte) : (m.put a b).wf = true := put_wfFrom b w (Nat.zero_le a)

/-- Writing bytes keeps the canonical form. -/
theorem write_wf {m : Memory} (w : m.wf = true) (a : Nat) (bs : List Byte) : (m.write a bs).wf = true := by
  induction bs generalizing m a with
  | nil => exact w
  | cons b bs ih => exact ih (put_wf w a b) (a + 1)

theorem filter_wfFrom (p : Host.Cell → Bool) {lo : Nat} {m : Memory} (w : Memory.wfFrom lo m = true) :
    Memory.wfFrom lo (m.filter p) = true := by
  induction m generalizing lo with
  | nil => rfl
  | cons c m ih =>
    obtain ⟨k, v⟩ := c
    simp only [Memory.wfFrom, Bool.and_eq_true, decide_eq_true_eq] at w
    rw [List.filter_cons]
    split
    · simp only [Memory.wfFrom, Bool.and_eq_true, decide_eq_true_eq]
      exact ⟨w.1, ih w.2⟩
    · exact wfFrom_mono (by omega) (ih w.2)

/-- Clearing a range keeps the canonical form. -/
theorem clear_wf {m : Memory} (w : m.wf = true) (a n : Nat) : (m.clear a n).wf = true := filter_wfFrom _ w

theorem get_putFrom {lo a : Nat} (b : Byte) {m : Memory} (w : Memory.wfFrom lo m = true) (x : Nat) :
    (m.put a b).get x = if x = a then b else m.get x := by
  induction m generalizing lo with
  | nil =>
    simp only [Memory.put]
    split
    · rename_i hb; simp only [Memory.get]; split <;> simp_all
    · simp only [Memory.get]; split <;> simp_all
  | cons c m ih =>
    obtain ⟨k, v⟩ := c
    have w' := w
    simp only [Memory.wfFrom, Bool.and_eq_true, decide_eq_true_eq] at w'
    obtain ⟨⟨hlo, hv⟩, hm⟩ := w'
    simp only [Memory.put]
    split
    · split
      · rename_i hak hb
        split
        · subst_vars; simp only [Memory.get]; rw [if_neg (by omega), if_pos (by omega)]
        · rfl
      · rename_i hak hb
        simp only [Memory.get]
        split
        · rfl
        · split
          · rw [if_neg (by omega), if_pos (by omega)]
          · rfl
    · split
      · split
        · rename_i h1 h2 hb
          subst h2
          by_cases hx : x = a
          · rw [if_pos hx, hb]; subst hx; exact get_below hm (by omega)
          · rw [if_neg hx]; simp only [Memory.get, if_neg hx]
            split
            · exact get_below hm (by omega)
            · rfl
        · rename_i h1 h2 hb
          subst h2
          simp only [Memory.get]
          by_cases hx : x = a <;> simp [hx]
      · rename_i h1 h2
        simp only [Memory.get]
        by_cases hx : x = k
        · simp [hx]; intro h; omega
        · simp only [if_neg hx]
          split
          · rw [if_neg (by omega)]
          · exact ih hm

/-- One byte read after one byte written. -/
theorem get_put {m : Memory} (w : m.wf = true) (a : Nat) (b : Byte) (x : Nat) :
    (m.put a b).get x = if x = a then b else m.get x := get_putFrom b w x

/-- A byte read after bytes written: the written one inside, the old one outside. -/
theorem get_write {m : Memory} (w : m.wf = true) (a : Nat) (bs : List Byte) (x : Nat) :
    (m.write a bs).get x = if a ≤ x ∧ x < a + bs.length then bs.getD (x - a) 0 else m.get x := by
  induction bs generalizing m a with
  | nil => simp only [Memory.write, List.length_nil]; rw [if_neg (by omega)]
  | cons b bs ih =>
    simp only [Memory.write, List.length_cons]
    rw [ih (put_wf w a b), get_put w]
    by_cases h1 : x = a
    · subst h1; rw [if_neg (by omega), if_pos rfl, if_pos (by omega)]; simp
    · rw [if_neg h1]
      by_cases h2 : a ≤ x ∧ x < a + (bs.length + 1)
      · rw [if_pos (by omega), if_pos h2]
        have : x - a = (x - (a + 1)) + 1 := by omega
        rw [this, List.getD_cons_succ]
      · rw [if_neg (by omega), if_neg h2]

/-- The bytes just written read back. -/
theorem read_write {m : Memory} (w : m.wf = true) (a : Nat) (bs : List Byte) : (m.write a bs).read a bs.length = bs := by
  have key : ∀ (n k : Nat), k + n ≤ bs.length → Memory.read (m.write a bs) (a + k) n = (bs.drop k).take n := by
    intro n
    induction n with
    | zero => intro k _; simp [Memory.read]
    | succ n ih =>
      intro k hk
      have h2 : k < bs.length := by omega
      simp only [Memory.read]
      rw [show a + k + 1 = a + (k + 1) from by omega, ih (k + 1) (by omega), get_write w, if_pos (by omega)]
      rw [List.drop_eq_getElem_cons h2, List.take_succ_cons]
      congr 1
      rw [show a + k - a = k from by omega]
      simp [List.getD_eq_getElem?_getD, h2]
  have := key bs.length 0 (by omega)
  simpa using this

theorem wfFrom_ext {lo : Nat} {m m' : Memory} (w : Memory.wfFrom lo m = true) (w' : Memory.wfFrom lo m' = true)
    (h : ∀ x, m.get x = m'.get x) : m = m' := by
  induction m generalizing lo m' with
  | nil =>
    cases m' with
    | nil => rfl
    | cons c m' =>
      obtain ⟨k, v⟩ := c
      simp only [Memory.wfFrom, Bool.and_eq_true] at w'
      have := h k
      simp only [Memory.get, if_pos] at this
      exact absurd this.symm (by simpa using w'.1.2)
  | cons c m ih =>
    obtain ⟨k, v⟩ := c
    have w0 := w
    simp only [Memory.wfFrom, Bool.and_eq_true, decide_eq_true_eq] at w
    cases m' with
    | nil =>
      have := h k
      simp only [Memory.get, if_pos] at this
      exact absurd this (by simpa using w.1.2)
    | cons c' m' =>
      obtain ⟨k', v'⟩ := c'
      simp only [Memory.wfFrom, Bool.and_eq_true, decide_eq_true_eq] at w'
      have hk : k = k' := by
        rcases Nat.lt_trichotomy k k' with hlt | heq | hgt
        · have := h k
          simp only [Memory.get, if_pos] at this
          rw [if_neg (by omega), if_pos hlt] at this
          exact absurd this (by simpa using w.1.2)
        · exact heq
        · have := h k'
          simp only [Memory.get, if_pos] at this
          rw [if_neg (by omega), if_pos hgt] at this
          exact absurd this.symm (by simpa using w'.1.2)
      subst hk
      have hv : v = v' := by
        have := h k
        simpa [Memory.get] using this
      subst hv
      congr 1
      refine ih w.2 w'.2 ?_
      intro x
      by_cases hx : x < k + 1
      · rw [get_below w.2 hx, get_below w'.2 hx]
      · have := h x
        simp only [Memory.get] at this
        rwa [if_neg (by omega), if_neg (by omega), if_neg (by omega), if_neg (by omega)] at this

/-- Memories in the canonical form that read alike are equal. -/
theorem memory_ext {m m' : Memory} (w : m.wf = true) (w' : m'.wf = true) (h : ∀ x, m.get x = m'.get x) : m = m' := wfFrom_ext w w' h

/-- The memories of the machine after reset are in the canonical form. -/
theorem reset_memOk : Safety.memOk State.reset = true := by decide

end Sys2Proof.Machine
end

