-- ==== Sys2Proof/Laws/Effects.lean ====
section
/-! SUPPORT. What the shared operations of an instruction do in the plain case: compares, emitted effects, segment ends, recalls. -/

namespace Sys2Proof.Machine

open Sys2Proof Sys2Proof.Safety

theorem quiet_ahead {th : Thread} (q : Quiet th) : th.inRunAhead = false := by simp [Thread.inRunAhead, q.regions]
theorem quiet_region {th : Thread} (q : Quiet th) : th.inRegion = false := by simp [Thread.inRegion, q.regions]
theorem quiet_shadow {th : Thread} (q : Quiet th) : State.shadowOf th = th.regs := by
  rcases q.shadow with h | h <;> simp [State.shadowOf, h]

/-- A compare that agrees goes on. -/
theorem mismatch_quiet {s : State} {t : Tid} {th : Thread} (ht : s.thread? t = some th) (q : Quiet th) (loc : DWord) :
    s.mismatch t true loc = (s, false) := by
  have h := q.inject
  simp [State.mismatch, ht, h]

theorem compared_quiet {s : State} {t : Tid} {th : Thread} (ht : s.thread? t = some th) (q : Quiet th) {same : Bool} (hs : same = true)
    (loc : DWord) (k : State → State) : s.compared t same loc k = k s := by
  subst hs; simp [State.compared, mismatch_quiet ht q]

/-- Outside regions an effect that can be performed is performed at once. -/
theorem emitThen_done {s : State} {t : Tid} {th : Thread} (ht : s.thread? t = some th) (q : Quiet th) {e : Eff}
    (hp : s.prepare t e = (s, true)) (k : State → State) : s.emitThen t e k = k (s.perform t e) := by
  simp [State.emitThen, State.emit, ht, quiet_region q, hp]

/-- Outside regions an effect that cannot be performed stalls the thread. -/
theorem emitThen_stall {s : State} {t : Tid} {th : Thread} (ht : s.thread? t = some th) (q : Quiet th) {e : Eff}
    (hp : s.prepare t e = (s, false)) (k : State → State) : s.emitThen t e k = s := by
  simp [State.emitThen, State.emit, ht, quiet_region q, hp]

theorem regionRead_quiet {s : State} {t : Tid} {th : Thread} (ht : s.thread? t = some th) (q : Quiet th) (m : ReadMark) :
    s.regionRead t m = (s, true) := by simp [State.regionRead, ht, quiet_region q]

theorem noCommands {s : State} (h : ∀ k ∈ s.cores, k.slots = []) : (s.cores.all fun k => k.slots.isEmpty) = true := by
  simp only [List.all_eq_true]; intro k hk; simp [h k hk]

/-- With no engine command there is nothing to recall. -/
theorem recall_none {s : State} (h : ∀ k ∈ s.cores, k.slots = []) (core : Nat) (sp : Space) (line : Nat) :
    s.recall core sp line = (s, true) := by
  simp [State.recall, State.recallBefore, State.owed, noCommands h]

theorem clearLines_none {s : State} (h : ∀ k ∈ s.cores, k.slots = []) (t : Tid) (core : Nat) (sp : Space) (lines : List Nat) :
    s.clearLines t core sp lines = (s, true) := by
  simp [State.clearLines, noCommands h]

theorem coreOf_thread {s : State} {t : Tid} {th : Thread} (ht : s.thread? t = some th) : s.coreOf t = th.core := by
  simp [State.coreOf, ht]

/-- A segment that may end ends. -/
theorem segReady_ok {s : State} {t : Tid} {th : Thread} {live : List Nat} (ht : s.thread? t = some th) (h : MayEnd s t th live) (c : Bool) :
    s.segReady t live c = (s, true) := by
  have hs : s.settleRegions t = (s, true) := by simp [State.settleRegions, ht, h.quiet.regions]
  rcases h.room with hp | ⟨h1, h2, _⟩
  · simp [State.segReady, ht, quiet_ahead h.quiet, hp, hs]
  · have hm : s.makeRoom th.core = some s := by simp only [State.makeRoom]; rw [if_pos h2]
    have : ¬ 16 < live.length := by omega
    simp only [State.segReady, ht, quiet_ahead h.quiet, hs, hm, this, decide_false, Bool.and_false]
    cases th.inPlace <;> simp

theorem endSegment_ok {s : State} {t : Tid} {th : Thread} {live : List Nat} (ht : s.thread? t = some th) (h : MayEnd s t th live)
    (resume : DWord) (wait : Wait) (pend : Nat) (dest : List Nat) (destP : Option Nat) :
    s.endSegment t resume live wait pend dest destP = s.park t resume live wait pend dest destP := by
  rcases h.room with hp | ⟨_, _, h3⟩
  · simp [State.endSegment, ht, hp]
  · simp [State.endSegment, ht, h3]

theorem segEnd_ok {s : State} {t : Tid} {th : Thread} {extra : List Nat} (ht : s.thread? t = some th)
    (h : MayEnd s t th (unionRegs (s.standing th) extra)) (resume : DWord) (wait : Wait) (pend : Nat) (dest : List Nat) (destP : Option Nat) :
    s.segEnd t resume extra wait pend dest destP = (s.park t resume (unionRegs (s.standing th) extra) wait pend dest destP, true) := by
  simp [State.segEnd, ht, segReady_ok ht h, endSegment_ok ht h]

theorem succ_successor (pc : DWord) : succPc pc = Safety.successor pc := by
  unfold succPc Safety.successor pcSlot pcLine
  split
  · rfl
  · apply BitVec.eq_of_toNat_eq
    have h : (pc &&& ~~~0x3F#64).toNat = pc.toNat / 64 * 64 := by
      have e : pc &&& ~~~0x3F#64 = (pc >>> 6) <<< 6 := by
        ext i hi
        simp only [BitVec.getElem_and, BitVec.getElem_shiftLeft, BitVec.getElem_not]
        by_cases h6 : i < 6
        · have : (0x3F#64)[i] = true := by
            rw [← BitVec.getLsbD_eq_getElem]
            have : i = 0 ∨ i = 1 ∨ i = 2 ∨ i = 3 ∨ i = 4 ∨ i = 5 := by omega
            rcases this with h | h | h | h | h | h <;> subst h <;> rfl
          simp [this, h6]
        · have : (0x3F#64)[i] = false := by
            rw [← BitVec.getLsbD_eq_getElem]
            simp [BitVec.getLsbD_ofNat]
            intro _
            exact Nat.testBit_lt_two_pow (Nat.lt_of_lt_of_le (by decide : 63 < 2 ^ 6) (Nat.pow_le_pow_right (by decide) (by omega)))
          simp [this, h6, BitVec.getLsbD_eq_getElem, hi, show 6 + (i - 6) = i by omega]
      rw [e]
      simp only [BitVec.toNat_shiftLeft, BitVec.toNat_ushiftRight, Nat.shiftLeft_eq, Nat.shiftRight_eq_div_pow]
      have := pc.isLt
      omega
    rw [BitVec.toNat_add, h, BitVec.toNat_ofNat]
    rfl

end Sys2Proof.Machine
end

