-- ==== Sys2Proof/Laws/Lines.lean ====
section
/-! SUPPORT. What a write of scratchpad bytes and a write of one line at its home do, each once for all its callers. -/

namespace Sys2Proof.Machine

open Sys2Proof Sys2Proof.Safety

/-! ### Bytes -/

theorem seqFrom_map (a n : Nat) : seqFrom a n = (List.range n).map fun j => a + j := by
  induction n generalizing a with
  | zero => rfl
  | succ n ih =>
    simp only [seqFrom, ih, List.range_succ_eq_map, List.map_cons, List.map_map, Nat.add_zero]
    congr 1
    apply List.map_congr_left
    intro j _
    simp only [Function.comp]
    omega

theorem read_map (m : Memory) (a n : Nat) : m.read a n = (List.range n).map fun j => m.get (a + j) := by
  induction n generalizing a with
  | zero => rfl
  | succ n ih =>
    simp only [Memory.read, ih, List.range_succ_eq_map, List.map_cons, List.map_map, Nat.add_zero]
    congr 1
    apply List.map_congr_left
    intro j _
    simp only [Function.comp]
    congr 1
    omega

theorem bytesOfNat_length (n v : Nat) : (bytesOfNat n v).length = n := by
  induction n generalizing v with
  | zero => rfl
  | succ n ih => simp [bytesOfNat, ih]

/-- Bytes, their number, and the bytes again. -/
theorem bytes_natOfBytes (l : List Byte) : bytesOfNat l.length (natOfBytes l) = l := by
  induction l with
  | nil => rfl
  | cons b l ih =>
    have hb := b.isLt
    simp only [List.length_cons, natOfBytes, bytesOfNat]
    have h1 : (b.toNat + 256 * natOfBytes l) / 256 = natOfBytes l := by omega
    rw [h1, ih]
    congr 1
    apply BitVec.eq_of_toNat_eq
    simp only [BitVec.toNat_ofNat]
    omega

/-! ### Scratchpad -/

theorem maskParked_none {s : State} {core : Nat} (a : Nat) (data : List Byte)
    (h : ∀ x, a ≤ x → x < a + data.length → s.isObj core (x / 16 * 16) = false) : s.maskParked core a data = data := by
  induction data generalizing a with
  | nil => rfl
  | cons b bs ih =>
    simp only [State.maskParked]
    rw [ih (a + 1) (fun x h1 h2 => h x (by omega) (by simp only [List.length_cons]; omega))]
    rw [h a (by omega) (by simp)]
    simp

theorem blocksMet_none {s : State} {core : Nat} (a : Nat) (data : List Byte)
    (h : ∀ x, a ≤ x → x < a + data.length → s.isObj core (x / 16 * 16) = false) :
    (blocksMet a data.length).filter (s.isObj core) = [] := by
  rw [List.filter_eq_nil_iff]
  intro o ho
  unfold blocksMet at ho
  split at ho
  · simp at ho
  · rename_i hn
    simp only [List.mem_filter, List.mem_map, decide_eq_true_eq] at ho
    obtain ⟨⟨q, hq, rfl⟩, hlt⟩ := ho
    have hq' : a / 16 ≤ q ∧ q < a / 16 + ((a + data.length - 1) / 16 - a / 16 + 1) := by
      clear hlt
      generalize (a + data.length - 1) / 16 - a / 16 + 1 = n at hq
      generalize a / 16 = c at hq ⊢
      induction n generalizing c with
      | zero => simp [seqFrom] at hq
      | succ n ih =>
        simp only [seqFrom, List.mem_cons] at hq
        rcases hq with rfl | hq
        · omega
        · have := ih _ hq; omega
    have hx := h (max a (q * 16)) (by omega) (by omega)
    have : max a (q * 16) / 16 * 16 = q * 16 := by
      rcases le_total a (q * 16) with h1 | h1
      · rw [max_eq_right h1]; omega
      · rw [max_eq_left h1]; omega
    rw [this] at hx
    simp [hx]

/-- Bytes that touch no barrier object go to the scratchpad, and nothing else happens. -/
theorem scrWrite_written {s : State} {core off : Nat} {data : List Byte} (w : (s.core core).scr.wf = true)
    (h : ∀ x, off ≤ x → x < off + data.length → s.isObj core (x / 16 * 16) = false) :
    ScratchWritten core off data s (s.scrWrite core off data) := by
  have e : s.scrWrite core off data = s.scrRaw core off data := by
    simp only [State.scrWrite, maskParked_none off data h, blocksMet_none off data h, List.foldl_nil]
  rw [e]
  have hself := core_modCore_self s core (fun c => { c with
    scr := c.scr.write off data
    scrBad := c.scrBad.filter fun w => !(decide (off ≤ 4 * w) && decide (4 * w + 4 ≤ off + data.length)) }) (fun _ => rfl)
  have hother := fun d (hd : d ≠ core) => core_modCore_other s core d (fun c => { c with
    scr := c.scr.write off data
    scrBad := c.scrBad.filter fun w => !(decide (off ≤ 4 * w) && decide (4 * w + 4 ≤ off + data.length)) }) (fun _ => rfl) hd
  refine ⟨?_, ?_, ?_, ?_⟩
  · simp only [State.scrRaw, State.modCore]; split <;> rfl
  · intro c
    by_cases hc : c = core
    · subst hc; simp only [State.scrRaw]; rw [hself]
    · simp only [State.scrRaw]; rw [hother c hc]
  · intro c x
    by_cases hc : c = core
    · subst hc; simp only [State.scrRaw]; rw [hself]; simp only [get_write w]; simp
    · simp only [State.scrRaw]; rw [hother c hc]; rw [if_neg (by tauto)]
  · intro c x
    by_cases hc : c = core
    · subst hc; simp only [State.scrRaw]; rw [hself]; simp; omega
    · simp only [State.scrRaw]; rw [hother c hc]; simp [hc]

/-- A flag operation whose results are known begins. -/
theorem begins_startWith {s : State} {t : Tid} (fs : Bool) (b : Nat) (xs : List (Nat × Word)) :
    Begins t fs b xs [] s (s.startWith t fs b xs) := by
  unfold Begins State.startWith State.startOp
  refine ⟨rfl, ?_, ?_⟩
  · intro u hu x hx
    simp only [List.mem_singleton] at hu
    subst hu
    refine (thread?_modThread_self hx ?_).trans ?_
    · cases hsh : x.shadow <;> (have e := thread?_id hx; exact e)
    · cases hsh : x.shadow <;> simp
  · intro u hu
    simp only [List.mem_singleton] at hu
    refine thread?_modThread_other (fun x => ?_) hu
    cases hsh : x.shadow <;> rfl

/-! ### One line at its home -/

theorem walk_keepTranslation (s : State) (ia : Nat) : (s.keepTranslation ia).walk ia = s.walk ia := by
  unfold State.keepTranslation
  split
  · rename_i e l a hw
    dsimp only
    split
    · rfl
    · rename_i hany
      have hx : s.xroot.getLsbD 0 = true := by
        by_contra hc
        simp only [State.walk, if_neg hc] at hw
        exact absurd hw (by simp)
      rw [hw]
      simp only [State.walk, hx, if_true]
      rw [List.find?_cons_of_pos]
      simp [keptBy, Nat.mul_div_cancel _ (Nat.two_pow_pos _)]
  · rfl

theorem keepTranslation_rest (s : State) (ia : Nat) : s.keepTranslation ia = { s with tlb := (s.keepTranslation ia).tlb } := by
  unfold State.keepTranslation
  split
  · dsimp only; split <;> rfl
  · rfl

theorem keepTranslation_mem (s : State) (ia : Nat) : (s.keepTranslation ia).mem = s.mem := by rw [keepTranslation_rest]

theorem markDirty_rest (s : State) (ia : Nat) : s.markDirty ia = { s with mem := (s.markDirty ia).mem, tlb := (s.markDirty ia).tlb } := by
  unfold State.markDirty
  split
  · split <;> rfl
  · rfl

/-- The home's first write sets one bit. -/
theorem get_markDirty {s : State} (w : s.mem.wf = true) (ia x : Nat) : (s.markDirty ia).mem.get x = dirtied s ia x := by
  unfold State.markDirty dirtied
  cases s.walk ia with
  | leaf e l a =>
    dsimp only
    by_cases h : e.getLsbD 5 = true
    · rw [if_pos h, if_neg (by simp [h])]
    · rw [if_neg h]
      show (s.mem.put a _).get x = _
      rw [get_put w]
      by_cases hx : x = a
      · rw [if_pos hx, if_pos ⟨hx, by simpa using h⟩, hx]
      · rw [if_neg hx, if_neg (fun q => hx q.1)]
  | fault k l e => rfl

theorem markDirty_wf {s : State} (w : s.mem.wf = true) (ia : Nat) : (s.markDirty ia).mem.wf = true := by
  unfold State.markDirty
  split
  · split
    · exact w
    · exact put_wf w _ _
  · exact w

theorem find_map_id (f : Thread → Thread) (hf : ∀ x, (f x).id = x.id) (u : Tid) (l : List Thread) :
    (l.map f).find? (fun x => x.id == u) = (l.find? fun x => x.id == u).map f := by
  rw [List.find?_map]
  congr 2
  funext x
  simp [hf]

theorem takeLease_eq (s : State) (line : Nat) (b : Option Tid) : s.takeLease line b =
    { s with leases := s.leases.filter fun x => x.1 != line || some x.2 == (b.bind s.thread?).map fun th => s.dieOf th.core } := by
  unfold State.takeLease
  split
  · rename_i h
    rw [List.isEmpty_iff] at h
    obtain ⟨⟩ := s
    simp only at h
    subst h
    rfl
  · rfl

theorem multicast_eq (s : State) (ia : Nat) (data : List Byte) : s.multicast ia data =
    { s with messages := s.messages ++ ((s.subscribers.filter fun b => decide (b.ia ≤ ia) && decide (ia < b.ia + b.len)).map fun b =>
      HostMsg.subsWrite b.src b.n ia data) } := by
  unfold State.multicast
  split
  · rename_i h
    rw [List.isEmpty_iff] at h
    have : ((s.subscribers.filter fun b => decide (b.ia ≤ ia) && decide (ia < b.ia + b.len)).map fun b =>
        HostMsg.subsWrite b.src b.n ia data) = [] := by rw [h]; rfl
    rw [this, List.append_nil]
  · rfl

/-- The thread keeps everything but a reservation of the line, which goes unless the write is its own. -/
theorem thread?_clearResv (s : State) (line : Nat) (peer : Option Nat) (b : Option Tid) (u : Tid) :
    (s.clearResv line peer b).thread? u = (s.thread? u).map fun th => { th with
      resv := match th.resv with
        | some v => if v.line = line ∧ v.peer = peer ∧ some th.id ≠ b then none else some v
        | none => none } := by
  simp only [State.clearResv, State.thread?]
  rw [find_map_id _ (by intro x; split; split <;> rfl; rfl)]
  congr 1
  funext th
  cases hr : th.resv with
  | none => simp only []; rw [← hr]
  | some v =>
    simp only []
    split
    · rfl
    · rw [← hr]

/-- What a write of less than a line by a thread does at its home. -/
theorem writeLine_written {s : State} {t : Tid} {ia pa : Nat} (p0 : Nat) {data : List Byte} (w : s.mem.wf = true) (hn : data.length < 64) :
    LineWritten t ia pa data s ((s.writeLine ia pa p0 data (some t)).1.modThread t fun th =>
      { th with pts := (s.writeLine ia pa p0 data (some t)).2 }) := by
  have hk := keepTranslation_mem s ia
  have hd : ∀ x, ((s.keepTranslation ia).markDirty ia).mem.get x = dirtied s ia x := by
    intro x
    rw [get_markDirty (by rw [hk]; exact w)]
    unfold dirtied
    rw [walk_keepTranslation, hk]
  have hw : ((s.keepTranslation ia).markDirty ia).mem.wf = true := markDirty_wf (by rw [hk]; exact w) ia
  generalize h1 : (s.keepTranslation ia).markDirty ia = s1 at hd hw
  have e1 : s1 = { s with mem := s1.mem, tlb := s1.tlb } := by
    rw [← h1, markDirty_rest, keepTranslation_rest]
  have ht : ∀ u, s1.thread? u = s.thread? u := by intro u; rw [e1]; rfl
  have hdie : ∀ c, s1.dieOf c = s.dieOf c := by intro c; rw [e1]; rfl
  have hl : (State.takeLease (s1.clearResv (ia / 64) none (some t)) (ia / 64) (some t)).leases =
      s.leases.filter fun x => x.1 != ia / 64 || some x.2 == (s.thread? t).map fun th => s.dieOf th.core := by
    rw [takeLease_eq]
    have : (Option.bind (some t) (s1.clearResv (ia / 64) none (some t)).thread?).map
        (fun th => (s1.clearResv (ia / 64) none (some t)).dieOf th.core) = (s.thread? t).map fun th => s.dieOf th.core := by
      simp only [Option.bind_some, thread?_clearResv, ht, Option.map_map]
      congr 1
      funext th
      exact hdie th.core
    dsimp only
    rw [this, e1]
    rfl
  refine ⟨?_, ?_, ?_, ?_, ?_, ?_, ?_⟩
  · simp only [State.writeLine, h1, multicast_eq, takeLease_eq, State.writePA, State.tickW, State.setTicks, State.clearResv, State.modThread]
    rw [e1]
  · intro l
    simp only [State.writeLine, h1, multicast_eq, takeLease_eq, State.writePA, State.tickW, State.setTicks, State.clearResv, State.modThread_poison]
    rw [if_neg (by omega)]
    split
    · rw [e1]; tauto
    · simp only [List.mem_cons]
      have : s1.poison = s.poison := by rw [e1]
      rw [this]; tauto
  · simp only [State.writeLine, h1, multicast_eq, takeLease_eq, State.writePA, State.tickW, State.setTicks, State.clearResv, State.modThread_lineIa]
    rw [e1]
  · rw [← hl]
    simp only [State.writeLine, h1, multicast_eq, State.writePA, State.tickW, State.setTicks, State.modThread_leases]
  · simp only [State.writeLine, h1, multicast_eq, takeLease_eq, State.writePA, State.tickW, State.setTicks, State.clearResv, State.modThread_messages]
    rw [e1]
    rfl
  · intro x
    have : ((s.writeLine ia pa p0 data (some t)).1.modThread t fun th =>
      { th with pts := (s.writeLine ia pa p0 data (some t)).2 }).mem = s1.mem.write pa data := by
      simp only [State.writeLine, h1, multicast_eq, takeLease_eq, State.writePA, State.tickW, State.setTicks, State.clearResv, State.modThread_mem]
    rw [this, get_write hw, hd]
  · intro u th hu
    refine ⟨(s.writeLine ia pa p0 data (some t)).2, ?_⟩
    have hid := thread?_id hu
    subst hid
    have h2 : ((s.writeLine ia pa p0 data (some t)).1).thread? th.id = some { th with
        resv := match th.resv with
          | some v => if v.line = ia / 64 ∧ v.peer = none ∧ th.id ≠ t then none else some v
          | none => none } := by
      have : ((s.writeLine ia pa p0 data (some t)).1).thread? th.id = (s1.clearResv (ia / 64) none (some t)).thread? th.id := by
        simp only [State.writeLine, h1, multicast_eq, takeLease_eq, State.writePA, State.tickW, State.setTicks]
        rfl
      rw [this, thread?_clearResv, ht, hu]
      simp only [Option.map_some, ne_eq, Option.some.injEq]
    by_cases hut : th.id = t
    · subst hut
      rw [if_pos (rfl : th.id = th.id)]
      exact thread?_modThread_self h2 rfl
    · rw [if_neg hut]
      exact (thread?_modThread_other (f := fun x => { x with pts := (s.writeLine ia pa p0 data (some t)).2 }) (fun _ => rfl) hut).trans h2

end Sys2Proof.Machine
end

