-- ==== Sys2Proof/Laws/PerInstr.lean ====
section
/-! SUPPORT. Decode and encode agree, instruction by instruction (Tables 3.6 and 3.9 and the encoding tables of each chapter). -/

namespace Sys2Proof.Laws.RoundTrip

open Sys2Proof

set_option linter.unusedSimpArgs false
set_option linter.unnecessarySeqFocus false

theorem nop (g : Guard) : Statement (.nop g) := by
  apply of_parse
  intro _ f hf
  replace hf : Fields.base 0x00 g = f := Option.some.inj hf
  have e0 : f.g = g := by
    subst hf
    rfl
  rw [parse_00 f (by subst hf; rfl)]
  simp only [e0]

theorem bra (g : Guard) (off : Word) (s : Slot) : Statement (.bra g off s) := by
  apply of_parse
  intro _ f hf
  replace hf : { Fields.base 0x01 g with e := s.setWidth 8, imm := off } = f := Option.some.inj hf
  have e0 : f.g = g := by
    subst hf
    rfl
  have e1 : f.imm = off := by
    subst hf
    rfl
  have e2 : f.slot = s := by
    unfold Fields.slot
    subst hf
    show BitVec.setWidth 3 (BitVec.setWidth 8 s) = s
    simp
  rw [parse_01 f (by subst hf; rfl)]
  simp only [e0, e1, e2]

theorem brx (g : Guard) (a : XReg) : Statement (.brx g a) := by
  apply of_parse
  intro _ f hf
  replace hf : { Fields.base 0x02 g with a } = f := Option.some.inj hf
  have e0 : f.g = g := by
    subst hf
    rfl
  have e1 : f.a = a := by
    subst hf
    rfl
  rw [parse_02 f (by subst hf; rfl)]
  simp only [e0, e1]

theorem call (g : Guard) (d : XReg) (off : Word) (s : Slot) : Statement (.call g d off s) := by
  apply of_parse
  intro _ f hf
  replace hf : { Fields.base 0x03 g with d, e := s.setWidth 8, imm := off } = f := Option.some.inj hf
  have e0 : f.g = g := by
    subst hf
    rfl
  have e1 : f.d = d := by
    subst hf
    rfl
  have e2 : f.imm = off := by
    subst hf
    rfl
  have e3 : f.slot = s := by
    unfold Fields.slot
    subst hf
    show BitVec.setWidth 3 (BitVec.setWidth 8 s) = s
    simp
  rw [parse_03 f (by subst hf; rfl)]
  simp only [e0, e1, e2, e3]

theorem callx (g : Guard) (d : XReg) (a : XReg) : Statement (.callx g d a) := by
  apply of_parse
  intro _ f hf
  replace hf : { Fields.base 0x04 g with d, a } = f := Option.some.inj hf
  have e0 : f.g = g := by
    subst hf
    rfl
  have e1 : f.d = d := by
    subst hf
    rfl
  have e2 : f.a = a := by
    subst hf
    rfl
  rw [parse_04 f (by subst hf; rfl)]
  simp only [e0, e1, e2]

theorem ret (g : Guard) (a : XReg) : Statement (.ret g a) := by
  apply of_parse
  intro _ f hf
  replace hf : { Fields.base 0x05 g with a } = f := Option.some.inj hf
  have e0 : f.g = g := by
    subst hf
    rfl
  have e1 : f.a = a := by
    subst hf
    rfl
  rw [parse_05 f (by subst hf; rfl)]
  simp only [e0, e1]

theorem jset (g : Guard) (j : JReg) (v : JVal) : Statement (.jset g j v) := by
  apply of_parse
  intro _ f hf
  replace hf : { Fields.base 0x06 g v.code with d := j.setWidth 8, a := v.a, imm := v.v } = f := Option.some.inj hf
  have hs : f.sub = BitVec.ofNat 8 (v.code) := by subst hf; rfl
  have e0 : f.g = g := by
    subst hf
    rfl
  have e1 : f.d.setWidth 3 = j := by
    subst hf
    show BitVec.setWidth 3 (BitVec.setWidth 8 j) = j
    simp
  have hc02 : f.code 0 2 = v.code := by
    rw [Fields.code_of hs]
    have := JVal.code_lt v
    omega
  have e2 : JVal.ofCode f.a f.imm (f.code 0 2) = some v := by
    rw [show f.a = v.a by subst hf; rfl]
    rw [show f.imm = v.v by subst hf; rfl]
    rw [hc02]
    exact JVal.ofCode_code _
  rw [parse_06 f (by subst hf; rfl)]
  simp only [e0, e1, e2, Option.map_some]

theorem jwait (g : Guard) (j : JReg) : Statement (.jwait g j) := by
  apply of_parse
  intro _ f hf
  replace hf : { Fields.base 0x07 g with d := j.setWidth 8 } = f := Option.some.inj hf
  have e0 : f.g = g := by
    subst hf
    rfl
  have e1 : f.d.setWidth 3 = j := by
    subst hf
    show BitVec.setWidth 3 (BitVec.setWidth 8 j) = j
    simp
  rw [parse_07 f (by subst hf; rfl)]
  simp only [e0, e1]

theorem jleave (g : Guard) (j : JReg) : Statement (.jleave g j) := by
  apply of_parse
  intro _ f hf
  replace hf : { Fields.base 0x08 g with d := j.setWidth 8 } = f := Option.some.inj hf
  have e0 : f.g = g := by
    subst hf
    rfl
  have e1 : f.d.setWidth 3 = j := by
    subst hf
    show BitVec.setWidth 3 (BitVec.setWidth 8 j) = j
    simp
  rw [parse_08 f (by subst hf; rfl)]
  simp only [e0, e1]

theorem exit (g : Guard) : Statement (.exit g) := by
  apply of_parse
  intro _ f hf
  replace hf : Fields.base 0x09 g = f := Option.some.inj hf
  have e0 : f.g = g := by
    subst hf
    rfl
  rw [parse_09 f (by subst hf; rfl)]
  simp only [e0]

theorem brk (g : Guard) (code : BitVec 16) : Statement (.brk g code) := by
  apply of_parse
  intro _ f hf
  replace hf : { Fields.base 0x0A g with imm := code.setWidth 32 } = f := Option.some.inj hf
  have e0 : f.g = g := by
    subst hf
    rfl
  have e1 : f.imm.setWidth 16 = code := by
    subst hf
    show BitVec.setWidth 16 (BitVec.setWidth 32 code) = code
    simp
  rw [parse_0A f (by subst hf; rfl)]
  simp only [e0, e1]

theorem trap (g : Guard) (code : BitVec 16) : Statement (.trap g code) := by
  apply of_parse
  intro _ f hf
  replace hf : { Fields.base 0x0B g with imm := code.setWidth 32 } = f := Option.some.inj hf
  have e0 : f.g = g := by
    subst hf
    rfl
  have e1 : f.imm.setWidth 16 = code := by
    subst hf
    show BitVec.setWidth 16 (BitVec.setWidth 32 code) = code
    simp
  rw [parse_0B f (by subst hf; rfl)]
  simp only [e0, e1]

theorem hint (g : Guard) (p : Bool) (r : BitVec 8) (l : DWord) : Statement (.hint g p r l) := by
  apply of_parse
  intro _ f hf
  replace hf : { Fields.base 0x0C g (subBit p 0) with d := r, a := l.extractLsb' 56 8, b := l.extractLsb' 48 8, c := l.extractLsb' 40 8, e := l.extractLsb' 32 8, imm := l.extractLsb' 0 32 } = f := Option.some.inj hf
  have hs : f.sub = BitVec.ofNat 8 ((subBit p 0)) := by subst hf; rfl
  have e0 : f.g = g := by
    subst hf
    rfl
  have hb0 : f.bit 0 = p := by
    rw [Fields.bit_of hs]
    cases p <;> simp only [subBit, if_true, if_false, Bool.false_eq_true, decide_eq_true_eq, decide_eq_false_iff_not] <;> omega
  have e2 : f.d = r := by
    subst hf
    rfl
  have e3 : f.a ++ f.b ++ f.c ++ f.e ++ f.imm = l := by
    subst hf
    change (l.extractLsb' 56 8 ++ l.extractLsb' 48 8 ++ l.extractLsb' 40 8 ++ l.extractLsb' 32 8 ++ l.extractLsb' 0 32 : BitVec 64) = l
    exact bits_self l
  rw [parse_0C f (by subst hf; rfl)]
  simp only [e0, hb0, e2, e3]

theorem iadd (g : Guard) (m : AddMode) (d : XReg) (a : XReg) (b : Src) : Statement (.iadd g m d a b) := by
  apply of_parse
  intro _ f hf
  replace hf : Fields.dab 0x10 g m.code d a b 0 m.pe = f := Option.some.inj hf
  have hs : f.sub = BitVec.ofNat 8 (subBit b.i 7 + m.code) := by subst hf; rfl
  have e0 : f.g = g := by
    subst hf
    rfl
  have hc02 : f.code 0 2 = m.code := by
    rw [Fields.code_of hs]
    have := AddMode.code_lt m
    generalize b.i = b0
    cases b0 <;> simp only [subBit, if_true, if_false, Bool.false_eq_true] <;> omega
  have e1 : f.addMode = m := by
    unfold Fields.addMode
    rw [hc02]
    have he : f.e = m.pe := by subst hf; rfl
    unfold Fields.pe
    rw [he]
    cases m <;> simp [AddMode.code, AddMode.pe]
  have e2 : f.d = d := by
    subst hf
    rfl
  have e3 : f.a = a := by
    subst hf
    rfl
  have hb7 : f.bit 7 = b.i := by
    rw [Fields.bit_of hs]
    have := AddMode.code_lt m
    generalize b.i = b0
    cases b0 <;> simp only [subBit, if_true, if_false, Bool.false_eq_true, decide_eq_true_eq, decide_eq_false_iff_not] <;> omega
  have e4 : f.bsrc = b := by
    unfold Fields.bsrc
    have h7 : f.sub.getLsbD 7 = b.i := hb7
    rw [h7]
    have e1 : f.b = b.r := by subst hf; rfl
    have e2 : f.imm = b.v := by subst hf; rfl
    rw [e1, e2]
    exact Src.ofI_self _
  rw [parse_10 f (by subst hf; rfl)]
  simp only [e0, e1, e2, e3, e4]

theorem isub (g : Guard) (m : AddMode) (d : XReg) (a : XReg) (b : Src) : Statement (.isub g m d a b) := by
  apply of_parse
  intro _ f hf
  replace hf : Fields.dab 0x11 g m.code d a b 0 m.pe = f := Option.some.inj hf
  have hs : f.sub = BitVec.ofNat 8 (subBit b.i 7 + m.code) := by subst hf; rfl
  have e0 : f.g = g := by
    subst hf
    rfl
  have hc02 : f.code 0 2 = m.code := by
    rw [Fields.code_of hs]
    have := AddMode.code_lt m
    generalize b.i = b0
    cases b0 <;> simp only [subBit, if_true, if_false, Bool.false_eq_true] <;> omega
  have e1 : f.addMode = m := by
    unfold Fields.addMode
    rw [hc02]
    have he : f.e = m.pe := by subst hf; rfl
    unfold Fields.pe
    rw [he]
    cases m <;> simp [AddMode.code, AddMode.pe]
  have e2 : f.d = d := by
    subst hf
    rfl
  have e3 : f.a = a := by
    subst hf
    rfl
  have hb7 : f.bit 7 = b.i := by
    rw [Fields.bit_of hs]
    have := AddMode.code_lt m
    generalize b.i = b0
    cases b0 <;> simp only [subBit, if_true, if_false, Bool.false_eq_true, decide_eq_true_eq, decide_eq_false_iff_not] <;> omega
  have e4 : f.bsrc = b := by
    unfold Fields.bsrc
    have h7 : f.sub.getLsbD 7 = b.i := hb7
    rw [h7]
    have e1 : f.b = b.r := by subst hf; rfl
    have e2 : f.imm = b.v := by subst hf; rfl
    rw [e1, e2]
    exact Src.ofI_self _
  rw [parse_11 f (by subst hf; rfl)]
  simp only [e0, e1, e2, e3, e4]

theorem iaddc (g : Guard) (d : XReg) (a : XReg) (b : Src) (c : PReg) (e : PReg) : Statement (.iaddc g d a b c e) := by
  apply of_parse
  intro _ f hf
  replace hf : Fields.dab 0x12 g 0 d a b (p8 c) (p8 e) = f := Option.some.inj hf
  have hs : f.sub = BitVec.ofNat 8 (subBit b.i 7 + 0) := by subst hf; rfl
  have e0 : f.g = g := by
    subst hf
    rfl
  have e1 : f.d = d := by
    subst hf
    rfl
  have e2 : f.a = a := by
    subst hf
    rfl
  have hb7 : f.bit 7 = b.i := by
    rw [Fields.bit_of hs]
    generalize b.i = b0
    cases b0 <;> simp only [subBit, if_true, if_false, Bool.false_eq_true, decide_eq_true_eq, decide_eq_false_iff_not] <;> omega
  have e3 : f.bsrc = b := by
    unfold Fields.bsrc
    have h7 : f.sub.getLsbD 7 = b.i := hb7
    rw [h7]
    have e1 : f.b = b.r := by subst hf; rfl
    have e2 : f.imm = b.v := by subst hf; rfl
    rw [e1, e2]
    exact Src.ofI_self _
  have e4 : f.pc = c := by
    unfold Fields.pc
    subst hf
    exact p8_back _
  have e5 : f.pe = e := by
    unfold Fields.pe
    subst hf
    exact p8_back _
  rw [parse_12 f (by subst hf; rfl)]
  simp only [e0, e1, e2, e3, e4, e5]

theorem isubb (g : Guard) (d : XReg) (a : XReg) (b : Src) (c : PReg) (e : PReg) : Statement (.isubb g d a b c e) := by
  apply of_parse
  intro _ f hf
  replace hf : Fields.dab 0x13 g 0 d a b (p8 c) (p8 e) = f := Option.some.inj hf
  have hs : f.sub = BitVec.ofNat 8 (subBit b.i 7 + 0) := by subst hf; rfl
  have e0 : f.g = g := by
    subst hf
    rfl
  have e1 : f.d = d := by
    subst hf
    rfl
  have e2 : f.a = a := by
    subst hf
    rfl
  have hb7 : f.bit 7 = b.i := by
    rw [Fields.bit_of hs]
    generalize b.i = b0
    cases b0 <;> simp only [subBit, if_true, if_false, Bool.false_eq_true, decide_eq_true_eq, decide_eq_false_iff_not] <;> omega
  have e3 : f.bsrc = b := by
    unfold Fields.bsrc
    have h7 : f.sub.getLsbD 7 = b.i := hb7
    rw [h7]
    have e1 : f.b = b.r := by subst hf; rfl
    have e2 : f.imm = b.v := by subst hf; rfl
    rw [e1, e2]
    exact Src.ofI_self _
  have e4 : f.pc = c := by
    unfold Fields.pc
    subst hf
    exact p8_back _
  have e5 : f.pe = e := by
    unfold Fields.pe
    subst hf
    exact p8_back _
  rw [parse_13 f (by subst hf; rfl)]
  simp only [e0, e1, e2, e3, e4, e5]

theorem imul (g : Guard) (d : XReg) (a : XReg) (b : Src) : Statement (.imul g d a b) := by
  apply of_parse
  intro _ f hf
  replace hf : Fields.dab 0x14 g 0 d a b = f := Option.some.inj hf
  have hs : f.sub = BitVec.ofNat 8 (subBit b.i 7 + 0) := by subst hf; rfl
  have e0 : f.g = g := by
    subst hf
    rfl
  have e1 : f.d = d := by
    subst hf
    rfl
  have e2 : f.a = a := by
    subst hf
    rfl
  have hb7 : f.bit 7 = b.i := by
    rw [Fields.bit_of hs]
    generalize b.i = b0
    cases b0 <;> simp only [subBit, if_true, if_false, Bool.false_eq_true, decide_eq_true_eq, decide_eq_false_iff_not] <;> omega
  have e3 : f.bsrc = b := by
    unfold Fields.bsrc
    have h7 : f.sub.getLsbD 7 = b.i := hb7
    rw [h7]
    have e1 : f.b = b.r := by subst hf; rfl
    have e2 : f.imm = b.v := by subst hf; rfl
    rw [e1, e2]
    exact Src.ofI_self _
  rw [parse_14 f (by subst hf; rfl)]
  simp only [e0, e1, e2, e3]

theorem imulh (g : Guard) (sg : Sign) (d : XReg) (a : XReg) (b : Src) : Statement (.imulh g sg d a b) := by
  apply of_parse
  intro _ f hf
  replace hf : Fields.dab 0x15 g sg.code d a b = f := Option.some.inj hf
  have hs : f.sub = BitVec.ofNat 8 (subBit b.i 7 + sg.code) := by subst hf; rfl
  have e0 : f.g = g := by
    subst hf
    rfl
  have hc02 : f.code 0 2 = sg.code := by
    rw [Fields.code_of hs]
    have := Sign.code_lt sg
    generalize b.i = b0
    cases b0 <;> simp only [subBit, if_true, if_false, Bool.false_eq_true] <;> omega
  have e1 : f.sign = some sg := by
    unfold Fields.sign
    rw [hc02]
    exact Sign.ofCode_code _
  have e2 : f.d = d := by
    subst hf
    rfl
  have e3 : f.a = a := by
    subst hf
    rfl
  have hb7 : f.bit 7 = b.i := by
    rw [Fields.bit_of hs]
    have := Sign.code_lt sg
    generalize b.i = b0
    cases b0 <;> simp only [subBit, if_true, if_false, Bool.false_eq_true, decide_eq_true_eq, decide_eq_false_iff_not] <;> omega
  have e4 : f.bsrc = b := by
    unfold Fields.bsrc
    have h7 : f.sub.getLsbD 7 = b.i := hb7
    rw [h7]
    have e1 : f.b = b.r := by subst hf; rfl
    have e2 : f.imm = b.v := by subst hf; rfl
    rw [e1, e2]
    exact Src.ofI_self _
  rw [parse_15 f (by subst hf; rfl)]
  simp only [e0, e1, e2, e3, e4, Option.map_some]

theorem imad (g : Guard) (d : XReg) (a : XReg) (b : Src) (c : XReg) : Statement (.imad g d a b c) := by
  apply of_parse
  intro _ f hf
  replace hf : Fields.dab 0x16 g 0 d a b c = f := Option.some.inj hf
  have hs : f.sub = BitVec.ofNat 8 (subBit b.i 7 + 0) := by subst hf; rfl
  have e0 : f.g = g := by
    subst hf
    rfl
  have e1 : f.d = d := by
    subst hf
    rfl
  have e2 : f.a = a := by
    subst hf
    rfl
  have hb7 : f.bit 7 = b.i := by
    rw [Fields.bit_of hs]
    generalize b.i = b0
    cases b0 <;> simp only [subBit, if_true, if_false, Bool.false_eq_true, decide_eq_true_eq, decide_eq_false_iff_not] <;> omega
  have e3 : f.bsrc = b := by
    unfold Fields.bsrc
    have h7 : f.sub.getLsbD 7 = b.i := hb7
    rw [h7]
    have e1 : f.b = b.r := by subst hf; rfl
    have e2 : f.imm = b.v := by subst hf; rfl
    rw [e1, e2]
    exact Src.ofI_self _
  have e4 : f.c = c := by
    subst hf
    rfl
  rw [parse_16 f (by subst hf; rfl)]
  simp only [e0, e1, e2, e3, e4]

theorem imadw (g : Guard) (sg : Sign) (d : XReg) (a : XReg) (b : Src) (c : XReg) : Statement (.imadw g sg d a b c) := by
  apply of_parse
  intro _ f hf
  replace hf : Fields.dab 0x17 g sg.code d a b c = f := Option.some.inj hf
  have hs : f.sub = BitVec.ofNat 8 (subBit b.i 7 + sg.code) := by subst hf; rfl
  have e0 : f.g = g := by
    subst hf
    rfl
  have hc02 : f.code 0 2 = sg.code := by
    rw [Fields.code_of hs]
    have := Sign.code_lt sg
    generalize b.i = b0
    cases b0 <;> simp only [subBit, if_true, if_false, Bool.false_eq_true] <;> omega
  have e1 : f.sign = some sg := by
    unfold Fields.sign
    rw [hc02]
    exact Sign.ofCode_code _
  have e2 : f.d = d := by
    subst hf
    rfl
  have e3 : f.a = a := by
    subst hf
    rfl
  have hb7 : f.bit 7 = b.i := by
    rw [Fields.bit_of hs]
    have := Sign.code_lt sg
    generalize b.i = b0
    cases b0 <;> simp only [subBit, if_true, if_false, Bool.false_eq_true, decide_eq_true_eq, decide_eq_false_iff_not] <;> omega
  have e4 : f.bsrc = b := by
    unfold Fields.bsrc
    have h7 : f.sub.getLsbD 7 = b.i := hb7
    rw [h7]
    have e1 : f.b = b.r := by subst hf; rfl
    have e2 : f.imm = b.v := by subst hf; rfl
    rw [e1, e2]
    exact Src.ofI_self _
  have e5 : f.c = c := by
    subst hf
    rfl
  rw [parse_17 f (by subst hf; rfl)]
  simp only [e0, e1, e2, e3, e4, e5, Option.map_some]

theorem idiv (g : Guard) (fs : Bool) (sg : Sign) (d : XReg) (a : XReg) (b : Src) : Statement (.idiv g fs sg d a b) := by
  apply of_parse
  intro _ f hf
  replace hf : Fields.dab 0x18 g sg.code d a b 0 0 fs = f := Option.some.inj hf
  have hs : f.sub = BitVec.ofNat 8 (subBit b.i 7 + sg.code) := by subst hf; rfl
  have e0 : f.g = g := by
    subst hf
    rfl
  have e1 : f.fs = fs := by
    subst hf
    rfl
  have hc02 : f.code 0 2 = sg.code := by
    rw [Fields.code_of hs]
    have := Sign.code_lt sg
    generalize b.i = b0
    cases b0 <;> simp only [subBit, if_true, if_false, Bool.false_eq_true] <;> omega
  have e2 : f.sign = some sg := by
    unfold Fields.sign
    rw [hc02]
    exact Sign.ofCode_code _
  have e3 : f.d = d := by
    subst hf
    rfl
  have e4 : f.a = a := by
    subst hf
    rfl
  have hb7 : f.bit 7 = b.i := by
    rw [Fields.bit_of hs]
    have := Sign.code_lt sg
    generalize b.i = b0
    cases b0 <;> simp only [subBit, if_true, if_false, Bool.false_eq_true, decide_eq_true_eq, decide_eq_false_iff_not] <;> omega
  have e5 : f.bsrc = b := by
    unfold Fields.bsrc
    have h7 : f.sub.getLsbD 7 = b.i := hb7
    rw [h7]
    have e1 : f.b = b.r := by subst hf; rfl
    have e2 : f.imm = b.v := by subst hf; rfl
    rw [e1, e2]
    exact Src.ofI_self _
  rw [parse_18 f (by subst hf; rfl)]
  simp only [e0, e1, e2, e3, e4, e5, Option.map_some]

theorem irem (g : Guard) (fs : Bool) (sg : Sign) (d : XReg) (a : XReg) (b : Src) : Statement (.irem g fs sg d a b) := by
  apply of_parse
  intro _ f hf
  replace hf : Fields.dab 0x19 g sg.code d a b 0 0 fs = f := Option.some.inj hf
  have hs : f.sub = BitVec.ofNat 8 (subBit b.i 7 + sg.code) := by subst hf; rfl
  have e0 : f.g = g := by
    subst hf
    rfl
  have e1 : f.fs = fs := by
    subst hf
    rfl
  have hc02 : f.code 0 2 = sg.code := by
    rw [Fields.code_of hs]
    have := Sign.code_lt sg
    generalize b.i = b0
    cases b0 <;> simp only [subBit, if_true, if_false, Bool.false_eq_true] <;> omega
  have e2 : f.sign = some sg := by
    unfold Fields.sign
    rw [hc02]
    exact Sign.ofCode_code _
  have e3 : f.d = d := by
    subst hf
    rfl
  have e4 : f.a = a := by
    subst hf
    rfl
  have hb7 : f.bit 7 = b.i := by
    rw [Fields.bit_of hs]
    have := Sign.code_lt sg
    generalize b.i = b0
    cases b0 <;> simp only [subBit, if_true, if_false, Bool.false_eq_true, decide_eq_true_eq, decide_eq_false_iff_not] <;> omega
  have e5 : f.bsrc = b := by
    unfold Fields.bsrc
    have h7 : f.sub.getLsbD 7 = b.i := hb7
    rw [h7]
    have e1 : f.b = b.r := by subst hf; rfl
    have e2 : f.imm = b.v := by subst hf; rfl
    rw [e1, e2]
    exact Src.ofI_self _
  rw [parse_19 f (by subst hf; rfl)]
  simp only [e0, e1, e2, e3, e4, e5, Option.map_some]

theorem imin (g : Guard) (sg : Sign) (d : XReg) (a : XReg) (b : Src) : Statement (.imin g sg d a b) := by
  apply of_parse
  intro _ f hf
  replace hf : Fields.dab 0x1A g sg.code d a b = f := Option.some.inj hf
  have hs : f.sub = BitVec.ofNat 8 (subBit b.i 7 + sg.code) := by subst hf; rfl
  have e0 : f.g = g := by
    subst hf
    rfl
  have hc02 : f.code 0 2 = sg.code := by
    rw [Fields.code_of hs]
    have := Sign.code_lt sg
    generalize b.i = b0
    cases b0 <;> simp only [subBit, if_true, if_false, Bool.false_eq_true] <;> omega
  have e1 : f.sign = some sg := by
    unfold Fields.sign
    rw [hc02]
    exact Sign.ofCode_code _
  have e2 : f.d = d := by
    subst hf
    rfl
  have e3 : f.a = a := by
    subst hf
    rfl
  have hb7 : f.bit 7 = b.i := by
    rw [Fields.bit_of hs]
    have := Sign.code_lt sg
    generalize b.i = b0
    cases b0 <;> simp only [subBit, if_true, if_false, Bool.false_eq_true, decide_eq_true_eq, decide_eq_false_iff_not] <;> omega
  have e4 : f.bsrc = b := by
    unfold Fields.bsrc
    have h7 : f.sub.getLsbD 7 = b.i := hb7
    rw [h7]
    have e1 : f.b = b.r := by subst hf; rfl
    have e2 : f.imm = b.v := by subst hf; rfl
    rw [e1, e2]
    exact Src.ofI_self _
  rw [parse_1A f (by subst hf; rfl)]
  simp only [e0, e1, e2, e3, e4, Option.map_some]

theorem imax (g : Guard) (sg : Sign) (d : XReg) (a : XReg) (b : Src) : Statement (.imax g sg d a b) := by
  apply of_parse
  intro _ f hf
  replace hf : Fields.dab 0x1B g sg.code d a b = f := Option.some.inj hf
  have hs : f.sub = BitVec.ofNat 8 (subBit b.i 7 + sg.code) := by subst hf; rfl
  have e0 : f.g = g := by
    subst hf
    rfl
  have hc02 : f.code 0 2 = sg.code := by
    rw [Fields.code_of hs]
    have := Sign.code_lt sg
    generalize b.i = b0
    cases b0 <;> simp only [subBit, if_true, if_false, Bool.false_eq_true] <;> omega
  have e1 : f.sign = some sg := by
    unfold Fields.sign
    rw [hc02]
    exact Sign.ofCode_code _
  have e2 : f.d = d := by
    subst hf
    rfl
  have e3 : f.a = a := by
    subst hf
    rfl
  have hb7 : f.bit 7 = b.i := by
    rw [Fields.bit_of hs]
    have := Sign.code_lt sg
    generalize b.i = b0
    cases b0 <;> simp only [subBit, if_true, if_false, Bool.false_eq_true, decide_eq_true_eq, decide_eq_false_iff_not] <;> omega
  have e4 : f.bsrc = b := by
    unfold Fields.bsrc
    have h7 : f.sub.getLsbD 7 = b.i := hb7
    rw [h7]
    have e1 : f.b = b.r := by subst hf; rfl
    have e2 : f.imm = b.v := by subst hf; rfl
    rw [e1, e2]
    exact Src.ofI_self _
  rw [parse_1B f (by subst hf; rfl)]
  simp only [e0, e1, e2, e3, e4, Option.map_some]

theorem iabs (g : Guard) (sat : Bool) (d : XReg) (a : XReg) : Statement (.iabs g sat d a) := by
  apply of_parse
  intro _ f hf
  replace hf : { Fields.base 0x1C g (subBit sat 0) with d, a } = f := Option.some.inj hf
  have hs : f.sub = BitVec.ofNat 8 ((subBit sat 0)) := by subst hf; rfl
  have e0 : f.g = g := by
    subst hf
    rfl
  have hb0 : f.bit 0 = sat := by
    rw [Fields.bit_of hs]
    cases sat <;> simp only [subBit, if_true, if_false, Bool.false_eq_true, decide_eq_true_eq, decide_eq_false_iff_not] <;> omega
  have e2 : f.d = d := by
    subst hf
    rfl
  have e3 : f.a = a := by
    subst hf
    rfl
  rw [parse_1C f (by subst hf; rfl)]
  simp only [e0, hb0, e2, e3]

theorem and (g : Guard) (d : XReg) (a : XReg) (b : Src) : Statement (.and g d a b) := by
  apply of_parse
  intro _ f hf
  replace hf : Fields.dab 0x1D g 0 d a b = f := Option.some.inj hf
  have hs : f.sub = BitVec.ofNat 8 (subBit b.i 7 + 0) := by subst hf; rfl
  have e0 : f.g = g := by
    subst hf
    rfl
  have e1 : f.d = d := by
    subst hf
    rfl
  have e2 : f.a = a := by
    subst hf
    rfl
  have hb7 : f.bit 7 = b.i := by
    rw [Fields.bit_of hs]
    generalize b.i = b0
    cases b0 <;> simp only [subBit, if_true, if_false, Bool.false_eq_true, decide_eq_true_eq, decide_eq_false_iff_not] <;> omega
  have e3 : f.bsrc = b := by
    unfold Fields.bsrc
    have h7 : f.sub.getLsbD 7 = b.i := hb7
    rw [h7]
    have e1 : f.b = b.r := by subst hf; rfl
    have e2 : f.imm = b.v := by subst hf; rfl
    rw [e1, e2]
    exact Src.ofI_self _
  rw [parse_1D f (by subst hf; rfl)]
  simp only [e0, e1, e2, e3]

theorem or (g : Guard) (d : XReg) (a : XReg) (b : Src) : Statement (.or g d a b) := by
  apply of_parse
  intro _ f hf
  replace hf : Fields.dab 0x1E g 0 d a b = f := Option.some.inj hf
  have hs : f.sub = BitVec.ofNat 8 (subBit b.i 7 + 0) := by subst hf; rfl
  have e0 : f.g = g := by
    subst hf
    rfl
  have e1 : f.d = d := by
    subst hf
    rfl
  have e2 : f.a = a := by
    subst hf
    rfl
  have hb7 : f.bit 7 = b.i := by
    rw [Fields.bit_of hs]
    generalize b.i = b0
    cases b0 <;> simp only [subBit, if_true, if_false, Bool.false_eq_true, decide_eq_true_eq, decide_eq_false_iff_not] <;> omega
  have e3 : f.bsrc = b := by
    unfold Fields.bsrc
    have h7 : f.sub.getLsbD 7 = b.i := hb7
    rw [h7]
    have e1 : f.b = b.r := by subst hf; rfl
    have e2 : f.imm = b.v := by subst hf; rfl
    rw [e1, e2]
    exact Src.ofI_self _
  rw [parse_1E f (by subst hf; rfl)]
  simp only [e0, e1, e2, e3]

theorem xor (g : Guard) (d : XReg) (a : XReg) (b : Src) : Statement (.xor g d a b) := by
  apply of_parse
  intro _ f hf
  replace hf : Fields.dab 0x1F g 0 d a b = f := Option.some.inj hf
  have hs : f.sub = BitVec.ofNat 8 (subBit b.i 7 + 0) := by subst hf; rfl
  have e0 : f.g = g := by
    subst hf
    rfl
  have e1 : f.d = d := by
    subst hf
    rfl
  have e2 : f.a = a := by
    subst hf
    rfl
  have hb7 : f.bit 7 = b.i := by
    rw [Fields.bit_of hs]
    generalize b.i = b0
    cases b0 <;> simp only [subBit, if_true, if_false, Bool.false_eq_true, decide_eq_true_eq, decide_eq_false_iff_not] <;> omega
  have e3 : f.bsrc = b := by
    unfold Fields.bsrc
    have h7 : f.sub.getLsbD 7 = b.i := hb7
    rw [h7]
    have e1 : f.b = b.r := by subst hf; rfl
    have e2 : f.imm = b.v := by subst hf; rfl
    rw [e1, e2]
    exact Src.ofI_self _
  rw [parse_1F f (by subst hf; rfl)]
  simp only [e0, e1, e2, e3]

theorem andn (g : Guard) (d : XReg) (a : XReg) (b : Src) : Statement (.andn g d a b) := by
  apply of_parse
  intro _ f hf
  replace hf : Fields.dab 0x20 g 0 d a b = f := Option.some.inj hf
  have hs : f.sub = BitVec.ofNat 8 (subBit b.i 7 + 0) := by subst hf; rfl
  have e0 : f.g = g := by
    subst hf
    rfl
  have e1 : f.d = d := by
    subst hf
    rfl
  have e2 : f.a = a := by
    subst hf
    rfl
  have hb7 : f.bit 7 = b.i := by
    rw [Fields.bit_of hs]
    generalize b.i = b0
    cases b0 <;> simp only [subBit, if_true, if_false, Bool.false_eq_true, decide_eq_true_eq, decide_eq_false_iff_not] <;> omega
  have e3 : f.bsrc = b := by
    unfold Fields.bsrc
    have h7 : f.sub.getLsbD 7 = b.i := hb7
    rw [h7]
    have e1 : f.b = b.r := by subst hf; rfl
    have e2 : f.imm = b.v := by subst hf; rfl
    rw [e1, e2]
    exact Src.ofI_self _
  rw [parse_20 f (by subst hf; rfl)]
  simp only [e0, e1, e2, e3]

theorem not (g : Guard) (d : XReg) (a : XReg) : Statement (.not g d a) := by
  apply of_parse
  intro _ f hf
  replace hf : { Fields.base 0x21 g with d, a } = f := Option.some.inj hf
  have e0 : f.g = g := by
    subst hf
    rfl
  have e1 : f.d = d := by
    subst hf
    rfl
  have e2 : f.a = a := by
    subst hf
    rfl
  rw [parse_21 f (by subst hf; rfl)]
  simp only [e0, e1, e2]

theorem shl (g : Guard) (w : Bool) (d : XReg) (a : XReg) (b : Src) : Statement (.shl g w d a b) := by
  apply of_parse
  intro _ f hf
  replace hf : Fields.dab 0x22 g (subBit w 0) d a b = f := Option.some.inj hf
  have hs : f.sub = BitVec.ofNat 8 (subBit b.i 7 + (subBit w 0)) := by subst hf; rfl
  have e0 : f.g = g := by
    subst hf
    rfl
  have hb0 : f.bit 0 = w := by
    rw [Fields.bit_of hs]
    generalize b.i = b0
    cases b0 <;> cases w <;> simp only [subBit, if_true, if_false, Bool.false_eq_true, decide_eq_true_eq, decide_eq_false_iff_not] <;> omega
  have e2 : f.d = d := by
    subst hf
    rfl
  have e3 : f.a = a := by
    subst hf
    rfl
  have hb7 : f.bit 7 = b.i := by
    rw [Fields.bit_of hs]
    generalize b.i = b0
    cases b0 <;> cases w <;> simp only [subBit, if_true, if_false, Bool.false_eq_true, decide_eq_true_eq, decide_eq_false_iff_not] <;> omega
  have e4 : f.bsrc = b := by
    unfold Fields.bsrc
    have h7 : f.sub.getLsbD 7 = b.i := hb7
    rw [h7]
    have e1 : f.b = b.r := by subst hf; rfl
    have e2 : f.imm = b.v := by subst hf; rfl
    rw [e1, e2]
    exact Src.ofI_self _
  rw [parse_22 f (by subst hf; rfl)]
  simp only [e0, hb0, e2, e3, e4]

theorem shr (g : Guard) (w : Bool) (d : XReg) (a : XReg) (b : Src) : Statement (.shr g w d a b) := by
  apply of_parse
  intro _ f hf
  replace hf : Fields.dab 0x23 g (subBit w 0) d a b = f := Option.some.inj hf
  have hs : f.sub = BitVec.ofNat 8 (subBit b.i 7 + (subBit w 0)) := by subst hf; rfl
  have e0 : f.g = g := by
    subst hf
    rfl
  have hb0 : f.bit 0 = w := by
    rw [Fields.bit_of hs]
    generalize b.i = b0
    cases b0 <;> cases w <;> simp only [subBit, if_true, if_false, Bool.false_eq_true, decide_eq_true_eq, decide_eq_false_iff_not] <;> omega
  have e2 : f.d = d := by
    subst hf
    rfl
  have e3 : f.a = a := by
    subst hf
    rfl
  have hb7 : f.bit 7 = b.i := by
    rw [Fields.bit_of hs]
    generalize b.i = b0
    cases b0 <;> cases w <;> simp only [subBit, if_true, if_false, Bool.false_eq_true, decide_eq_true_eq, decide_eq_false_iff_not] <;> omega
  have e4 : f.bsrc = b := by
    unfold Fields.bsrc
    have h7 : f.sub.getLsbD 7 = b.i := hb7
    rw [h7]
    have e1 : f.b = b.r := by subst hf; rfl
    have e2 : f.imm = b.v := by subst hf; rfl
    rw [e1, e2]
    exact Src.ofI_self _
  rw [parse_23 f (by subst hf; rfl)]
  simp only [e0, hb0, e2, e3, e4]

theorem sar (g : Guard) (w : Bool) (d : XReg) (a : XReg) (b : Src) : Statement (.sar g w d a b) := by
  apply of_parse
  intro _ f hf
  replace hf : Fields.dab 0x24 g (subBit w 0) d a b = f := Option.some.inj hf
  have hs : f.sub = BitVec.ofNat 8 (subBit b.i 7 + (subBit w 0)) := by subst hf; rfl
  have e0 : f.g = g := by
    subst hf
    rfl
  have hb0 : f.bit 0 = w := by
    rw [Fields.bit_of hs]
    generalize b.i = b0
    cases b0 <;> cases w <;> simp only [subBit, if_true, if_false, Bool.false_eq_true, decide_eq_true_eq, decide_eq_false_iff_not] <;> omega
  have e2 : f.d = d := by
    subst hf
    rfl
  have e3 : f.a = a := by
    subst hf
    rfl
  have hb7 : f.bit 7 = b.i := by
    rw [Fields.bit_of hs]
    generalize b.i = b0
    cases b0 <;> cases w <;> simp only [subBit, if_true, if_false, Bool.false_eq_true, decide_eq_true_eq, decide_eq_false_iff_not] <;> omega
  have e4 : f.bsrc = b := by
    unfold Fields.bsrc
    have h7 : f.sub.getLsbD 7 = b.i := hb7
    rw [h7]
    have e1 : f.b = b.r := by subst hf; rfl
    have e2 : f.imm = b.v := by subst hf; rfl
    rw [e1, e2]
    exact Src.ofI_self _
  rw [parse_24 f (by subst hf; rfl)]
  simp only [e0, hb0, e2, e3, e4]

theorem rotl (g : Guard) (d : XReg) (a : XReg) (b : Src) : Statement (.rotl g d a b) := by
  apply of_parse
  intro _ f hf
  replace hf : Fields.dab 0x25 g 0 d a b = f := Option.some.inj hf
  have hs : f.sub = BitVec.ofNat 8 (subBit b.i 7 + 0) := by subst hf; rfl
  have e0 : f.g = g := by
    subst hf
    rfl
  have e1 : f.d = d := by
    subst hf
    rfl
  have e2 : f.a = a := by
    subst hf
    rfl
  have hb7 : f.bit 7 = b.i := by
    rw [Fields.bit_of hs]
    generalize b.i = b0
    cases b0 <;> simp only [subBit, if_true, if_false, Bool.false_eq_true, decide_eq_true_eq, decide_eq_false_iff_not] <;> omega
  have e3 : f.bsrc = b := by
    unfold Fields.bsrc
    have h7 : f.sub.getLsbD 7 = b.i := hb7
    rw [h7]
    have e1 : f.b = b.r := by subst hf; rfl
    have e2 : f.imm = b.v := by subst hf; rfl
    rw [e1, e2]
    exact Src.ofI_self _
  rw [parse_25 f (by subst hf; rfl)]
  simp only [e0, e1, e2, e3]

theorem funnel (g : Guard) (w : Bool) (r : Bool) (d : XReg) (a : XReg) (b : XReg) (c : Src) : Statement (.funnel g w r d a b c) := by
  apply of_parse
  intro _ f hf
  replace hf : { Fields.base 0x26 g (subBit c.i 7 + subBit w 1 + subBit r 0) with d, a, b, c := c.r, imm := c.v } = f := Option.some.inj hf
  have hs : f.sub = BitVec.ofNat 8 ((subBit c.i 7 + subBit w 1 + subBit r 0)) := by subst hf; rfl
  have e0 : f.g = g := by
    subst hf
    rfl
  have hb1 : f.bit 1 = w := by
    rw [Fields.bit_of hs]
    generalize c.i = b0
    cases b0 <;> cases w <;> cases r <;> simp only [subBit, if_true, if_false, Bool.false_eq_true, decide_eq_true_eq, decide_eq_false_iff_not] <;> omega
  have hb0 : f.bit 0 = r := by
    rw [Fields.bit_of hs]
    generalize c.i = b0
    cases b0 <;> cases w <;> cases r <;> simp only [subBit, if_true, if_false, Bool.false_eq_true, decide_eq_true_eq, decide_eq_false_iff_not] <;> omega
  have e3 : f.d = d := by
    subst hf
    rfl
  have e4 : f.a = a := by
    subst hf
    rfl
  have e5 : f.b = b := by
    subst hf
    rfl
  have hb7 : f.bit 7 = c.i := by
    rw [Fields.bit_of hs]
    generalize c.i = b0
    cases b0 <;> cases w <;> cases r <;> simp only [subBit, if_true, if_false, Bool.false_eq_true, decide_eq_true_eq, decide_eq_false_iff_not] <;> omega
  have e6 : f.csrc = c := by
    unfold Fields.csrc
    have h7 : f.sub.getLsbD 7 = c.i := hb7
    rw [h7]
    have e1 : f.c = c.r := by subst hf; rfl
    have e2 : f.imm = c.v := by subst hf; rfl
    rw [e1, e2]
    exact Src.ofI_self _
  rw [parse_26 f (by subst hf; rfl)]
  simp only [e0, hb1, hb0, e3, e4, e5, e6]

theorem clz (g : Guard) (s : Bool) (d : XReg) (a : XReg) : Statement (.clz g s d a) := by
  apply of_parse
  intro _ f hf
  replace hf : { Fields.base 0x27 g (subBit s 0) with d, a } = f := Option.some.inj hf
  have hs : f.sub = BitVec.ofNat 8 ((subBit s 0)) := by subst hf; rfl
  have e0 : f.g = g := by
    subst hf
    rfl
  have hb0 : f.bit 0 = s := by
    rw [Fields.bit_of hs]
    cases s <;> simp only [subBit, if_true, if_false, Bool.false_eq_true, decide_eq_true_eq, decide_eq_false_iff_not] <;> omega
  have e2 : f.d = d := by
    subst hf
    rfl
  have e3 : f.a = a := by
    subst hf
    rfl
  rw [parse_27 f (by subst hf; rfl)]
  simp only [e0, hb0, e2, e3]

theorem popc (g : Guard) (d : XReg) (a : XReg) : Statement (.popc g d a) := by
  apply of_parse
  intro _ f hf
  replace hf : { Fields.base 0x28 g with d, a } = f := Option.some.inj hf
  have e0 : f.g = g := by
    subst hf
    rfl
  have e1 : f.d = d := by
    subst hf
    rfl
  have e2 : f.a = a := by
    subst hf
    rfl
  rw [parse_28 f (by subst hf; rfl)]
  simp only [e0, e1, e2]

theorem brev (g : Guard) (d : XReg) (a : XReg) : Statement (.brev g d a) := by
  apply of_parse
  intro _ f hf
  replace hf : { Fields.base 0x29 g with d, a } = f := Option.some.inj hf
  have e0 : f.g = g := by
    subst hf
    rfl
  have e1 : f.d = d := by
    subst hf
    rfl
  have e2 : f.a = a := by
    subst hf
    rfl
  rw [parse_29 f (by subst hf; rfl)]
  simp only [e0, e1, e2]

theorem bfx (g : Guard) (s : Bool) (d : XReg) (a : XReg) (b : Src) : Statement (.bfx g s d a b) := by
  apply of_parse
  intro _ f hf
  replace hf : Fields.dab 0x2A g (subBit s 0) d a b = f := Option.some.inj hf
  have hs : f.sub = BitVec.ofNat 8 (subBit b.i 7 + (subBit s 0)) := by subst hf; rfl
  have e0 : f.g = g := by
    subst hf
    rfl
  have hb0 : f.bit 0 = s := by
    rw [Fields.bit_of hs]
    generalize b.i = b0
    cases b0 <;> cases s <;> simp only [subBit, if_true, if_false, Bool.false_eq_true, decide_eq_true_eq, decide_eq_false_iff_not] <;> omega
  have e2 : f.d = d := by
    subst hf
    rfl
  have e3 : f.a = a := by
    subst hf
    rfl
  have hb7 : f.bit 7 = b.i := by
    rw [Fields.bit_of hs]
    generalize b.i = b0
    cases b0 <;> cases s <;> simp only [subBit, if_true, if_false, Bool.false_eq_true, decide_eq_true_eq, decide_eq_false_iff_not] <;> omega
  have e4 : f.bsrc = b := by
    unfold Fields.bsrc
    have h7 : f.sub.getLsbD 7 = b.i := hb7
    rw [h7]
    have e1 : f.b = b.r := by subst hf; rfl
    have e2 : f.imm = b.v := by subst hf; rfl
    rw [e1, e2]
    exact Src.ofI_self _
  rw [parse_2A f (by subst hf; rfl)]
  simp only [e0, hb0, e2, e3, e4]

theorem bfi (g : Guard) (d : XReg) (a : XReg) (b : Src) (c : XReg) : Statement (.bfi g d a b c) := by
  apply of_parse
  intro _ f hf
  replace hf : Fields.dab 0x2B g 0 d a b c = f := Option.some.inj hf
  have hs : f.sub = BitVec.ofNat 8 (subBit b.i 7 + 0) := by subst hf; rfl
  have e0 : f.g = g := by
    subst hf
    rfl
  have e1 : f.d = d := by
    subst hf
    rfl
  have e2 : f.a = a := by
    subst hf
    rfl
  have hb7 : f.bit 7 = b.i := by
    rw [Fields.bit_of hs]
    generalize b.i = b0
    cases b0 <;> simp only [subBit, if_true, if_false, Bool.false_eq_true, decide_eq_true_eq, decide_eq_false_iff_not] <;> omega
  have e3 : f.bsrc = b := by
    unfold Fields.bsrc
    have h7 : f.sub.getLsbD 7 = b.i := hb7
    rw [h7]
    have e1 : f.b = b.r := by subst hf; rfl
    have e2 : f.imm = b.v := by subst hf; rfl
    rw [e1, e2]
    exact Src.ofI_self _
  have e4 : f.c = c := by
    subst hf
    rfl
  rw [parse_2B f (by subst hf; rfl)]
  simp only [e0, e1, e2, e3, e4]

theorem isetp (g : Guard) (u : Bool) (fold : Fold) (cond : Cond) (d : PReg) (a : XReg) (b : Src) (e : PReg) : Statement (.isetp g u fold cond d a b e) := by
  apply of_parse
  intro _ f hf
  replace hf : Fields.dab 0x2C g (subBit u 6 + 16 * fold.code + cond.code) (p8 d) a b fold.pc (p8 e) = f := Option.some.inj hf
  have hs : f.sub = BitVec.ofNat 8 (subBit b.i 7 + (subBit u 6 + 16 * fold.code + cond.code)) := by subst hf; rfl
  have e0 : f.g = g := by
    subst hf
    rfl
  have hb6 : f.bit 6 = u := by
    rw [Fields.bit_of hs]
    have := Fold.code_lt fold
    have := Cond.code_lt cond
    generalize b.i = b0
    cases b0 <;> cases u <;> simp only [subBit, if_true, if_false, Bool.false_eq_true, decide_eq_true_eq, decide_eq_false_iff_not] <;> omega
  have hc42 : f.code 4 2 = fold.code := by
    rw [Fields.code_of hs]
    have := Fold.code_lt fold
    have := Cond.code_lt cond
    generalize b.i = b0
    cases b0 <;> cases u <;> simp only [subBit, if_true, if_false, Bool.false_eq_true] <;> omega
  have e2 : Fold.ofCode f.c (f.code 4 2) = fold := by
    rw [show f.c = fold.pc by subst hf; rfl]
    rw [hc42]
    exact Fold.ofCode_code _
  have hc03 : f.code 0 3 = cond.code := by
    rw [Fields.code_of hs]
    have := Fold.code_lt fold
    have := Cond.code_lt cond
    generalize b.i = b0
    cases b0 <;> cases u <;> simp only [subBit, if_true, if_false, Bool.false_eq_true] <;> omega
  have e3 : Cond.ofCode (f.code 0 3) = some cond := by
    rw [hc03]
    exact Cond.ofCode_code _
  have e4 : f.pd = d := by
    unfold Fields.pd
    subst hf
    exact p8_back _
  have e5 : f.a = a := by
    subst hf
    rfl
  have hb7 : f.bit 7 = b.i := by
    rw [Fields.bit_of hs]
    have := Fold.code_lt fold
    have := Cond.code_lt cond
    generalize b.i = b0
    cases b0 <;> cases u <;> simp only [subBit, if_true, if_false, Bool.false_eq_true, decide_eq_true_eq, decide_eq_false_iff_not] <;> omega
  have e6 : f.bsrc = b := by
    unfold Fields.bsrc
    have h7 : f.sub.getLsbD 7 = b.i := hb7
    rw [h7]
    have e1 : f.b = b.r := by subst hf; rfl
    have e2 : f.imm = b.v := by subst hf; rfl
    rw [e1, e2]
    exact Src.ofI_self _
  have e7 : f.pe = e := by
    unfold Fields.pe
    subst hf
    exact p8_back _
  rw [parse_2C f (by subst hf; rfl)]
  simp only [e0, hb6, e2, e3, e4, e5, e6, e7, Option.map_some]

theorem sel (g : Guard) (d : XReg) (a : XReg) (b : Src) (c : PReg) : Statement (.sel g d a b c) := by
  apply of_parse
  intro _ f hf
  replace hf : Fields.dab 0x2D g 0 d a b (p8 c) = f := Option.some.inj hf
  have hs : f.sub = BitVec.ofNat 8 (subBit b.i 7 + 0) := by subst hf; rfl
  have e0 : f.g = g := by
    subst hf
    rfl
  have e1 : f.d = d := by
    subst hf
    rfl
  have e2 : f.a = a := by
    subst hf
    rfl
  have hb7 : f.bit 7 = b.i := by
    rw [Fields.bit_of hs]
    generalize b.i = b0
    cases b0 <;> simp only [subBit, if_true, if_false, Bool.false_eq_true, decide_eq_true_eq, decide_eq_false_iff_not] <;> omega
  have e3 : f.bsrc = b := by
    unfold Fields.bsrc
    have h7 : f.sub.getLsbD 7 = b.i := hb7
    rw [h7]
    have e1 : f.b = b.r := by subst hf; rfl
    have e2 : f.imm = b.v := by subst hf; rfl
    rw [e1, e2]
    exact Src.ofI_self _
  have e4 : f.pc = c := by
    unfold Fields.pc
    subst hf
    exact p8_back _
  rw [parse_2D f (by subst hf; rfl)]
  simp only [e0, e1, e2, e3, e4]

theorem mov (g : Guard) (d : XReg) (v : MovForm) : Statement (.mov g d v) := by
  apply of_parse
  intro _ f hf
  replace hf : { Fields.base 0x2E g v.code with d, a := v.a, imm := v.v } = f := Option.some.inj hf
  have hs : f.sub = BitVec.ofNat 8 (v.code) := by subst hf; rfl
  have e0 : f.g = g := by
    subst hf
    rfl
  have e1 : f.d = d := by
    subst hf
    rfl
  have hc02 : f.code 0 2 = v.code := by
    rw [Fields.code_of hs]
    have := MovForm.code_lt v
    omega
  have e2 : MovForm.ofCode f.a f.imm (f.code 0 2) = v := by
    rw [show f.a = v.a by subst hf; rfl]
    rw [show f.imm = v.v by subst hf; rfl]
    rw [hc02]
    exact MovForm.ofCode_code _
  rw [parse_2E f (by subst hf; rfl)]
  simp only [e0, e1, e2]

theorem lea (g : Guard) (w : Bool) (u : Bool) (d : XReg) (a : XReg) (b : XReg) (sh : BitVec 3) (off : Word) : Statement (.lea g w u d a b sh off) := by
  apply of_parse
  intro _ f hf
  replace hf : { Fields.base 0x2F g (subBit w 1 + subBit u 0) with d, a, b, e := sh.setWidth 8, imm := off } = f := Option.some.inj hf
  have hs : f.sub = BitVec.ofNat 8 ((subBit w 1 + subBit u 0)) := by subst hf; rfl
  have e0 : f.g = g := by
    subst hf
    rfl
  have hb1 : f.bit 1 = w := by
    rw [Fields.bit_of hs]
    cases w <;> cases u <;> simp only [subBit, if_true, if_false, Bool.false_eq_true, decide_eq_true_eq, decide_eq_false_iff_not] <;> omega
  have hb0 : f.bit 0 = u := by
    rw [Fields.bit_of hs]
    cases w <;> cases u <;> simp only [subBit, if_true, if_false, Bool.false_eq_true, decide_eq_true_eq, decide_eq_false_iff_not] <;> omega
  have e3 : f.d = d := by
    subst hf
    rfl
  have e4 : f.a = a := by
    subst hf
    rfl
  have e5 : f.b = b := by
    subst hf
    rfl
  have e6 : f.e.setWidth 3 = sh := by
    subst hf
    show BitVec.setWidth 3 (BitVec.setWidth 8 sh) = sh
    simp
  have e7 : f.imm = off := by
    subst hf
    rfl
  rw [parse_2F f (by subst hf; rfl)]
  simp only [e0, hb1, hb0, e3, e4, e5, e6, e7]

theorem plop (g : Guard) (tab : BitVec 8) (d : PReg) (a : PReg) (b : PReg) (c : PReg) : Statement (.plop g tab d a b c) := by
  apply of_parse
  intro _ f hf
  replace hf : { Fields.base 0x30 g with sub := tab, d := p8 d, a := p8 a, b := p8 b, c := p8 c } = f := Option.some.inj hf
  have e0 : f.g = g := by
    subst hf
    rfl
  have e1 : f.sub = tab := by
    subst hf
    rfl
  have e2 : f.pd = d := by
    unfold Fields.pd
    subst hf
    exact p8_back _
  have e3 : f.pa = a := by
    unfold Fields.pa
    subst hf
    exact p8_back _
  have e4 : f.pb = b := by
    unfold Fields.pb
    subst hf
    exact p8_back _
  have e5 : f.pc = c := by
    unfold Fields.pc
    subst hf
    exact p8_back _
  rw [parse_30 f (by subst hf; rfl)]
  simp only [e0, e1, e2, e3, e4, e5]

theorem p2x (g : Guard) (h : Bool) (d : XReg) : Statement (.p2x g h d) := by
  apply of_parse
  intro _ f hf
  replace hf : { Fields.base 0x31 g (subBit h 0) with d } = f := Option.some.inj hf
  have hs : f.sub = BitVec.ofNat 8 ((subBit h 0)) := by subst hf; rfl
  have e0 : f.g = g := by
    subst hf
    rfl
  have hb0 : f.bit 0 = h := by
    rw [Fields.bit_of hs]
    cases h <;> simp only [subBit, if_true, if_false, Bool.false_eq_true, decide_eq_true_eq, decide_eq_false_iff_not] <;> omega
  have e2 : f.d = d := by
    subst hf
    rfl
  rw [parse_31 f (by subst hf; rfl)]
  simp only [e0, hb0, e2]

theorem x2p (g : Guard) (h : Bool) (a : XReg) (mask : Word) : Statement (.x2p g h a mask) := by
  apply of_parse
  intro _ f hf
  replace hf : { Fields.base 0x32 g (subBit h 0) with a, imm := mask } = f := Option.some.inj hf
  have hs : f.sub = BitVec.ofNat 8 ((subBit h 0)) := by subst hf; rfl
  have e0 : f.g = g := by
    subst hf
    rfl
  have hb0 : f.bit 0 = h := by
    rw [Fields.bit_of hs]
    cases h <;> simp only [subBit, if_true, if_false, Bool.false_eq_true, decide_eq_true_eq, decide_eq_false_iff_not] <;> omega
  have e2 : f.a = a := by
    subst hf
    rfl
  have e3 : f.imm = mask := by
    subst hf
    rfl
  rw [parse_32 f (by subst hf; rfl)]
  simp only [e0, hb0, e2, e3]

theorem pset (g : Guard) (d : PReg) (v : PsetForm) : Statement (.pset g d v) := by
  apply of_parse
  intro _ f hf
  replace hf : { Fields.base 0x33 g v.code with d := p8 d, a := v.a, imm := v.v } = f := Option.some.inj hf
  have hs : f.sub = BitVec.ofNat 8 (v.code) := by subst hf; rfl
  have e0 : f.g = g := by
    subst hf
    rfl
  have e1 : f.pd = d := by
    unfold Fields.pd
    subst hf
    exact p8_back _
  have hc02 : f.code 0 2 = v.code := by
    rw [Fields.code_of hs]
    have := PsetForm.code_lt v
    omega
  have e2 : PsetForm.ofCode f.a f.imm (f.code 0 2) = some v := by
    rw [show f.a = v.a by subst hf; rfl]
    rw [show f.imm = v.v by subst hf; rfl]
    rw [hc02]
    exact PsetForm.ofCode_code _
  rw [parse_33 f (by subst hf; rfl)]
  simp only [e0, e1, e2, Option.map_some]

theorem fadd (g : Guard) (z : Bool) (rm : RM) (d : XReg) (a : XReg) (b : Src) : Statement (.fadd g z rm d a b) := by
  apply of_parse
  intro _ f hf
  replace hf : Fields.dab 0x38 g (subBit z 2 + rm.code) d a b = f := Option.some.inj hf
  have hs : f.sub = BitVec.ofNat 8 (subBit b.i 7 + (subBit z 2 + rm.code)) := by subst hf; rfl
  have e0 : f.g = g := by
    subst hf
    rfl
  have hb2 : f.bit 2 = z := by
    rw [Fields.bit_of hs]
    have := RM.code_lt rm
    generalize b.i = b0
    cases b0 <;> cases z <;> simp only [subBit, if_true, if_false, Bool.false_eq_true, decide_eq_true_eq, decide_eq_false_iff_not] <;> omega
  have hc02 : f.code 0 2 = rm.code := by
    rw [Fields.code_of hs]
    have := RM.code_lt rm
    generalize b.i = b0
    cases b0 <;> cases z <;> simp only [subBit, if_true, if_false, Bool.false_eq_true] <;> omega
  have e2 : f.rm = rm := by
    unfold Fields.rm
    rw [hc02]
    exact RM.ofCode_code _
  have e3 : f.d = d := by
    subst hf
    rfl
  have e4 : f.a = a := by
    subst hf
    rfl
  have hb7 : f.bit 7 = b.i := by
    rw [Fields.bit_of hs]
    have := RM.code_lt rm
    generalize b.i = b0
    cases b0 <;> cases z <;> simp only [subBit, if_true, if_false, Bool.false_eq_true, decide_eq_true_eq, decide_eq_false_iff_not] <;> omega
  have e5 : f.bsrc = b := by
    unfold Fields.bsrc
    have h7 : f.sub.getLsbD 7 = b.i := hb7
    rw [h7]
    have e1 : f.b = b.r := by subst hf; rfl
    have e2 : f.imm = b.v := by subst hf; rfl
    rw [e1, e2]
    exact Src.ofI_self _
  rw [parse_38 f (by subst hf; rfl)]
  simp only [e0, hb2, e2, e3, e4, e5]

theorem fsub (g : Guard) (z : Bool) (rm : RM) (d : XReg) (a : XReg) (b : Src) : Statement (.fsub g z rm d a b) := by
  apply of_parse
  intro _ f hf
  replace hf : Fields.dab 0x39 g (subBit z 2 + rm.code) d a b = f := Option.some.inj hf
  have hs : f.sub = BitVec.ofNat 8 (subBit b.i 7 + (subBit z 2 + rm.code)) := by subst hf; rfl
  have e0 : f.g = g := by
    subst hf
    rfl
  have hb2 : f.bit 2 = z := by
    rw [Fields.bit_of hs]
    have := RM.code_lt rm
    generalize b.i = b0
    cases b0 <;> cases z <;> simp only [subBit, if_true, if_false, Bool.false_eq_true, decide_eq_true_eq, decide_eq_false_iff_not] <;> omega
  have hc02 : f.code 0 2 = rm.code := by
    rw [Fields.code_of hs]
    have := RM.code_lt rm
    generalize b.i = b0
    cases b0 <;> cases z <;> simp only [subBit, if_true, if_false, Bool.false_eq_true] <;> omega
  have e2 : f.rm = rm := by
    unfold Fields.rm
    rw [hc02]
    exact RM.ofCode_code _
  have e3 : f.d = d := by
    subst hf
    rfl
  have e4 : f.a = a := by
    subst hf
    rfl
  have hb7 : f.bit 7 = b.i := by
    rw [Fields.bit_of hs]
    have := RM.code_lt rm
    generalize b.i = b0
    cases b0 <;> cases z <;> simp only [subBit, if_true, if_false, Bool.false_eq_true, decide_eq_true_eq, decide_eq_false_iff_not] <;> omega
  have e5 : f.bsrc = b := by
    unfold Fields.bsrc
    have h7 : f.sub.getLsbD 7 = b.i := hb7
    rw [h7]
    have e1 : f.b = b.r := by subst hf; rfl
    have e2 : f.imm = b.v := by subst hf; rfl
    rw [e1, e2]
    exact Src.ofI_self _
  rw [parse_39 f (by subst hf; rfl)]
  simp only [e0, hb2, e2, e3, e4, e5]

theorem fmul (g : Guard) (z : Bool) (rm : RM) (d : XReg) (a : XReg) (b : Src) : Statement (.fmul g z rm d a b) := by
  apply of_parse
  intro _ f hf
  replace hf : Fields.dab 0x3A g (subBit z 2 + rm.code) d a b = f := Option.some.inj hf
  have hs : f.sub = BitVec.ofNat 8 (subBit b.i 7 + (subBit z 2 + rm.code)) := by subst hf; rfl
  have e0 : f.g = g := by
    subst hf
    rfl
  have hb2 : f.bit 2 = z := by
    rw [Fields.bit_of hs]
    have := RM.code_lt rm
    generalize b.i = b0
    cases b0 <;> cases z <;> simp only [subBit, if_true, if_false, Bool.false_eq_true, decide_eq_true_eq, decide_eq_false_iff_not] <;> omega
  have hc02 : f.code 0 2 = rm.code := by
    rw [Fields.code_of hs]
    have := RM.code_lt rm
    generalize b.i = b0
    cases b0 <;> cases z <;> simp only [subBit, if_true, if_false, Bool.false_eq_true] <;> omega
  have e2 : f.rm = rm := by
    unfold Fields.rm
    rw [hc02]
    exact RM.ofCode_code _
  have e3 : f.d = d := by
    subst hf
    rfl
  have e4 : f.a = a := by
    subst hf
    rfl
  have hb7 : f.bit 7 = b.i := by
    rw [Fields.bit_of hs]
    have := RM.code_lt rm
    generalize b.i = b0
    cases b0 <;> cases z <;> simp only [subBit, if_true, if_false, Bool.false_eq_true, decide_eq_true_eq, decide_eq_false_iff_not] <;> omega
  have e5 : f.bsrc = b := by
    unfold Fields.bsrc
    have h7 : f.sub.getLsbD 7 = b.i := hb7
    rw [h7]
    have e1 : f.b = b.r := by subst hf; rfl
    have e2 : f.imm = b.v := by subst hf; rfl
    rw [e1, e2]
    exact Src.ofI_self _
  rw [parse_3A f (by subst hf; rfl)]
  simp only [e0, hb2, e2, e3, e4, e5]

theorem ffma (g : Guard) (z : Bool) (rm : RM) (d : XReg) (a : XReg) (b : Src) (c : XReg) : Statement (.ffma g z rm d a b c) := by
  apply of_parse
  intro _ f hf
  replace hf : Fields.dab 0x3B g (subBit z 2 + rm.code) d a b c = f := Option.some.inj hf
  have hs : f.sub = BitVec.ofNat 8 (subBit b.i 7 + (subBit z 2 + rm.code)) := by subst hf; rfl
  have e0 : f.g = g := by
    subst hf
    rfl
  have hb2 : f.bit 2 = z := by
    rw [Fields.bit_of hs]
    have := RM.code_lt rm
    generalize b.i = b0
    cases b0 <;> cases z <;> simp only [subBit, if_true, if_false, Bool.false_eq_true, decide_eq_true_eq, decide_eq_false_iff_not] <;> omega
  have hc02 : f.code 0 2 = rm.code := by
    rw [Fields.code_of hs]
    have := RM.code_lt rm
    generalize b.i = b0
    cases b0 <;> cases z <;> simp only [subBit, if_true, if_false, Bool.false_eq_true] <;> omega
  have e2 : f.rm = rm := by
    unfold Fields.rm
    rw [hc02]
    exact RM.ofCode_code _
  have e3 : f.d = d := by
    subst hf
    rfl
  have e4 : f.a = a := by
    subst hf
    rfl
  have hb7 : f.bit 7 = b.i := by
    rw [Fields.bit_of hs]
    have := RM.code_lt rm
    generalize b.i = b0
    cases b0 <;> cases z <;> simp only [subBit, if_true, if_false, Bool.false_eq_true, decide_eq_true_eq, decide_eq_false_iff_not] <;> omega
  have e5 : f.bsrc = b := by
    unfold Fields.bsrc
    have h7 : f.sub.getLsbD 7 = b.i := hb7
    rw [h7]
    have e1 : f.b = b.r := by subst hf; rfl
    have e2 : f.imm = b.v := by subst hf; rfl
    rw [e1, e2]
    exact Src.ofI_self _
  have e6 : f.c = c := by
    subst hf
    rfl
  rw [parse_3B f (by subst hf; rfl)]
  simp only [e0, hb2, e2, e3, e4, e5, e6]

theorem fmin (g : Guard) (z : Bool) (d : XReg) (a : XReg) (b : Src) : Statement (.fmin g z d a b) := by
  apply of_parse
  intro _ f hf
  replace hf : Fields.dab 0x3C g (subBit z 2) d a b = f := Option.some.inj hf
  have hs : f.sub = BitVec.ofNat 8 (subBit b.i 7 + (subBit z 2)) := by subst hf; rfl
  have e0 : f.g = g := by
    subst hf
    rfl
  have hb2 : f.bit 2 = z := by
    rw [Fields.bit_of hs]
    generalize b.i = b0
    cases b0 <;> cases z <;> simp only [subBit, if_true, if_false, Bool.false_eq_true, decide_eq_true_eq, decide_eq_false_iff_not] <;> omega
  have e2 : f.d = d := by
    subst hf
    rfl
  have e3 : f.a = a := by
    subst hf
    rfl
  have hb7 : f.bit 7 = b.i := by
    rw [Fields.bit_of hs]
    generalize b.i = b0
    cases b0 <;> cases z <;> simp only [subBit, if_true, if_false, Bool.false_eq_true, decide_eq_true_eq, decide_eq_false_iff_not] <;> omega
  have e4 : f.bsrc = b := by
    unfold Fields.bsrc
    have h7 : f.sub.getLsbD 7 = b.i := hb7
    rw [h7]
    have e1 : f.b = b.r := by subst hf; rfl
    have e2 : f.imm = b.v := by subst hf; rfl
    rw [e1, e2]
    exact Src.ofI_self _
  rw [parse_3C f (by subst hf; rfl)]
  simp only [e0, hb2, e2, e3, e4]

theorem fmax (g : Guard) (z : Bool) (d : XReg) (a : XReg) (b : Src) : Statement (.fmax g z d a b) := by
  apply of_parse
  intro _ f hf
  replace hf : Fields.dab 0x3D g (subBit z 2) d a b = f := Option.some.inj hf
  have hs : f.sub = BitVec.ofNat 8 (subBit b.i 7 + (subBit z 2)) := by subst hf; rfl
  have e0 : f.g = g := by
    subst hf
    rfl
  have hb2 : f.bit 2 = z := by
    rw [Fields.bit_of hs]
    generalize b.i = b0
    cases b0 <;> cases z <;> simp only [subBit, if_true, if_false, Bool.false_eq_true, decide_eq_true_eq, decide_eq_false_iff_not] <;> omega
  have e2 : f.d = d := by
    subst hf
    rfl
  have e3 : f.a = a := by
    subst hf
    rfl
  have hb7 : f.bit 7 = b.i := by
    rw [Fields.bit_of hs]
    generalize b.i = b0
    cases b0 <;> cases z <;> simp only [subBit, if_true, if_false, Bool.false_eq_true, decide_eq_true_eq, decide_eq_false_iff_not] <;> omega
  have e4 : f.bsrc = b := by
    unfold Fields.bsrc
    have h7 : f.sub.getLsbD 7 = b.i := hb7
    rw [h7]
    have e1 : f.b = b.r := by subst hf; rfl
    have e2 : f.imm = b.v := by subst hf; rfl
    rw [e1, e2]
    exact Src.ofI_self _
  rw [parse_3D f (by subst hf; rfl)]
  simp only [e0, hb2, e2, e3, e4]

theorem fsetp (g : Guard) (z : Bool) (fold : Fold) (cond : FCond) (d : PReg) (a : XReg) (b : Src) (e : PReg) : Statement (.fsetp g z fold cond d a b e) := by
  apply of_parse
  intro _ f hf
  replace hf : Fields.dab 0x3E g (subBit z 6 + 16 * fold.code + cond.code) (p8 d) a b fold.pc (p8 e) = f := Option.some.inj hf
  have hs : f.sub = BitVec.ofNat 8 (subBit b.i 7 + (subBit z 6 + 16 * fold.code + cond.code)) := by subst hf; rfl
  have e0 : f.g = g := by
    subst hf
    rfl
  have hb6 : f.bit 6 = z := by
    rw [Fields.bit_of hs]
    have := Fold.code_lt fold
    have := FCond.code_lt cond
    generalize b.i = b0
    cases b0 <;> cases z <;> simp only [subBit, if_true, if_false, Bool.false_eq_true, decide_eq_true_eq, decide_eq_false_iff_not] <;> omega
  have hc42 : f.code 4 2 = fold.code := by
    rw [Fields.code_of hs]
    have := Fold.code_lt fold
    have := FCond.code_lt cond
    generalize b.i = b0
    cases b0 <;> cases z <;> simp only [subBit, if_true, if_false, Bool.false_eq_true] <;> omega
  have e2 : Fold.ofCode f.c (f.code 4 2) = fold := by
    rw [show f.c = fold.pc by subst hf; rfl]
    rw [hc42]
    exact Fold.ofCode_code _
  have hc03 : f.code 0 3 = cond.code := by
    rw [Fields.code_of hs]
    have := Fold.code_lt fold
    have := FCond.code_lt cond
    generalize b.i = b0
    cases b0 <;> cases z <;> simp only [subBit, if_true, if_false, Bool.false_eq_true] <;> omega
  have e3 : FCond.ofCode (f.code 0 3) = cond := by
    rw [hc03]
    exact FCond.ofCode_code _
  have e4 : f.pd = d := by
    unfold Fields.pd
    subst hf
    exact p8_back _
  have e5 : f.a = a := by
    subst hf
    rfl
  have hb7 : f.bit 7 = b.i := by
    rw [Fields.bit_of hs]
    have := Fold.code_lt fold
    have := FCond.code_lt cond
    generalize b.i = b0
    cases b0 <;> cases z <;> simp only [subBit, if_true, if_false, Bool.false_eq_true, decide_eq_true_eq, decide_eq_false_iff_not] <;> omega
  have e6 : f.bsrc = b := by
    unfold Fields.bsrc
    have h7 : f.sub.getLsbD 7 = b.i := hb7
    rw [h7]
    have e1 : f.b = b.r := by subst hf; rfl
    have e2 : f.imm = b.v := by subst hf; rfl
    rw [e1, e2]
    exact Src.ofI_self _
  have e7 : f.pe = e := by
    unfold Fields.pe
    subst hf
    exact p8_back _
  rw [parse_3E f (by subst hf; rfl)]
  simp only [e0, hb6, e2, e3, e4, e5, e6, e7]

theorem fclass (g : Guard) (s : FSrc) (d : XReg) (a : XReg) : Statement (.fclass g s d a) := by
  apply of_parse
  intro _ f hf
  replace hf : { Fields.base 0x3F g (subBit s.h 2 + s.code) with d, a } = f := Option.some.inj hf
  have hs : f.sub = BitVec.ofNat 8 ((subBit s.h 2 + s.code)) := by subst hf; rfl
  have e0 : f.g = g := by
    subst hf
    rfl
  have hb2 : f.bit 2 = s.h := by
    rw [Fields.bit_of hs]
    have := FSrc.code_lt s
    generalize s.h = b0
    cases b0 <;> simp only [subBit, if_true, if_false, Bool.false_eq_true, decide_eq_true_eq, decide_eq_false_iff_not] <;> omega
  have hc02 : f.code 0 2 = s.code := by
    rw [Fields.code_of hs]
    have := FSrc.code_lt s
    generalize s.h = b0
    cases b0 <;> simp only [subBit, if_true, if_false, Bool.false_eq_true] <;> omega
  have e1 : FSrc.ofCode (f.bit 2) (f.code 0 2) = some s := by
    rw [hb2]
    rw [hc02]
    exact FSrc.ofCode_code _
  have e2 : f.d = d := by
    subst hf
    rfl
  have e3 : f.a = a := by
    subst hf
    rfl
  rw [parse_3F f (by subst hf; rfl)]
  simp only [e0, e1, e2, e3, Option.map_some]

theorem frcp (g : Guard) (fs : Bool) (z : Bool) (rm : RM) (d : XReg) (a : XReg) : Statement (.frcp g fs z rm d a) := by
  apply of_parse
  intro _ f hf
  replace hf : { Fields.base 0x40 g (subBit z 2 + rm.code) fs with d, a } = f := Option.some.inj hf
  have hs : f.sub = BitVec.ofNat 8 ((subBit z 2 + rm.code)) := by subst hf; rfl
  have e0 : f.g = g := by
    subst hf
    rfl
  have e1 : f.fs = fs := by
    subst hf
    rfl
  have hb2 : f.bit 2 = z := by
    rw [Fields.bit_of hs]
    have := RM.code_lt rm
    cases z <;> simp only [subBit, if_true, if_false, Bool.false_eq_true, decide_eq_true_eq, decide_eq_false_iff_not] <;> omega
  have hc02 : f.code 0 2 = rm.code := by
    rw [Fields.code_of hs]
    have := RM.code_lt rm
    cases z <;> simp only [subBit, if_true, if_false, Bool.false_eq_true] <;> omega
  have e3 : f.rm = rm := by
    unfold Fields.rm
    rw [hc02]
    exact RM.ofCode_code _
  have e4 : f.d = d := by
    subst hf
    rfl
  have e5 : f.a = a := by
    subst hf
    rfl
  rw [parse_40 f (by subst hf; rfl)]
  simp only [e0, e1, hb2, e3, e4, e5]

theorem frsq (g : Guard) (fs : Bool) (z : Bool) (rm : RM) (d : XReg) (a : XReg) : Statement (.frsq g fs z rm d a) := by
  apply of_parse
  intro _ f hf
  replace hf : { Fields.base 0x41 g (subBit z 2 + rm.code) fs with d, a } = f := Option.some.inj hf
  have hs : f.sub = BitVec.ofNat 8 ((subBit z 2 + rm.code)) := by subst hf; rfl
  have e0 : f.g = g := by
    subst hf
    rfl
  have e1 : f.fs = fs := by
    subst hf
    rfl
  have hb2 : f.bit 2 = z := by
    rw [Fields.bit_of hs]
    have := RM.code_lt rm
    cases z <;> simp only [subBit, if_true, if_false, Bool.false_eq_true, decide_eq_true_eq, decide_eq_false_iff_not] <;> omega
  have hc02 : f.code 0 2 = rm.code := by
    rw [Fields.code_of hs]
    have := RM.code_lt rm
    cases z <;> simp only [subBit, if_true, if_false, Bool.false_eq_true] <;> omega
  have e3 : f.rm = rm := by
    unfold Fields.rm
    rw [hc02]
    exact RM.ofCode_code _
  have e4 : f.d = d := by
    subst hf
    rfl
  have e5 : f.a = a := by
    subst hf
    rfl
  rw [parse_41 f (by subst hf; rfl)]
  simp only [e0, e1, hb2, e3, e4, e5]

theorem fsqrt (g : Guard) (fs : Bool) (z : Bool) (rm : RM) (d : XReg) (a : XReg) : Statement (.fsqrt g fs z rm d a) := by
  apply of_parse
  intro _ f hf
  replace hf : { Fields.base 0x42 g (subBit z 2 + rm.code) fs with d, a } = f := Option.some.inj hf
  have hs : f.sub = BitVec.ofNat 8 ((subBit z 2 + rm.code)) := by subst hf; rfl
  have e0 : f.g = g := by
    subst hf
    rfl
  have e1 : f.fs = fs := by
    subst hf
    rfl
  have hb2 : f.bit 2 = z := by
    rw [Fields.bit_of hs]
    have := RM.code_lt rm
    cases z <;> simp only [subBit, if_true, if_false, Bool.false_eq_true, decide_eq_true_eq, decide_eq_false_iff_not] <;> omega
  have hc02 : f.code 0 2 = rm.code := by
    rw [Fields.code_of hs]
    have := RM.code_lt rm
    cases z <;> simp only [subBit, if_true, if_false, Bool.false_eq_true] <;> omega
  have e3 : f.rm = rm := by
    unfold Fields.rm
    rw [hc02]
    exact RM.ofCode_code _
  have e4 : f.d = d := by
    subst hf
    rfl
  have e5 : f.a = a := by
    subst hf
    rfl
  rw [parse_42 f (by subst hf; rfl)]
  simp only [e0, e1, hb2, e3, e4, e5]

theorem fexp2 (g : Guard) (fs : Bool) (z : Bool) (rm : RM) (d : XReg) (a : XReg) : Statement (.fexp2 g fs z rm d a) := by
  apply of_parse
  intro _ f hf
  replace hf : { Fields.base 0x43 g (subBit z 2 + rm.code) fs with d, a } = f := Option.some.inj hf
  have hs : f.sub = BitVec.ofNat 8 ((subBit z 2 + rm.code)) := by subst hf; rfl
  have e0 : f.g = g := by
    subst hf
    rfl
  have e1 : f.fs = fs := by
    subst hf
    rfl
  have hb2 : f.bit 2 = z := by
    rw [Fields.bit_of hs]
    have := RM.code_lt rm
    cases z <;> simp only [subBit, if_true, if_false, Bool.false_eq_true, decide_eq_true_eq, decide_eq_false_iff_not] <;> omega
  have hc02 : f.code 0 2 = rm.code := by
    rw [Fields.code_of hs]
    have := RM.code_lt rm
    cases z <;> simp only [subBit, if_true, if_false, Bool.false_eq_true] <;> omega
  have e3 : f.rm = rm := by
    unfold Fields.rm
    rw [hc02]
    exact RM.ofCode_code _
  have e4 : f.d = d := by
    subst hf
    rfl
  have e5 : f.a = a := by
    subst hf
    rfl
  rw [parse_43 f (by subst hf; rfl)]
  simp only [e0, e1, hb2, e3, e4, e5]

theorem flog2 (g : Guard) (fs : Bool) (z : Bool) (rm : RM) (d : XReg) (a : XReg) : Statement (.flog2 g fs z rm d a) := by
  apply of_parse
  intro _ f hf
  replace hf : { Fields.base 0x44 g (subBit z 2 + rm.code) fs with d, a } = f := Option.some.inj hf
  have hs : f.sub = BitVec.ofNat 8 ((subBit z 2 + rm.code)) := by subst hf; rfl
  have e0 : f.g = g := by
    subst hf
    rfl
  have e1 : f.fs = fs := by
    subst hf
    rfl
  have hb2 : f.bit 2 = z := by
    rw [Fields.bit_of hs]
    have := RM.code_lt rm
    cases z <;> simp only [subBit, if_true, if_false, Bool.false_eq_true, decide_eq_true_eq, decide_eq_false_iff_not] <;> omega
  have hc02 : f.code 0 2 = rm.code := by
    rw [Fields.code_of hs]
    have := RM.code_lt rm
    cases z <;> simp only [subBit, if_true, if_false, Bool.false_eq_true] <;> omega
  have e3 : f.rm = rm := by
    unfold Fields.rm
    rw [hc02]
    exact RM.ofCode_code _
  have e4 : f.d = d := by
    subst hf
    rfl
  have e5 : f.a = a := by
    subst hf
    rfl
  rw [parse_44 f (by subst hf; rfl)]
  simp only [e0, e1, hb2, e3, e4, e5]

theorem fsin (g : Guard) (fs : Bool) (z : Bool) (rm : RM) (d : XReg) (a : XReg) : Statement (.fsin g fs z rm d a) := by
  apply of_parse
  intro _ f hf
  replace hf : { Fields.base 0x45 g (subBit z 2 + rm.code) fs with d, a } = f := Option.some.inj hf
  have hs : f.sub = BitVec.ofNat 8 ((subBit z 2 + rm.code)) := by subst hf; rfl
  have e0 : f.g = g := by
    subst hf
    rfl
  have e1 : f.fs = fs := by
    subst hf
    rfl
  have hb2 : f.bit 2 = z := by
    rw [Fields.bit_of hs]
    have := RM.code_lt rm
    cases z <;> simp only [subBit, if_true, if_false, Bool.false_eq_true, decide_eq_true_eq, decide_eq_false_iff_not] <;> omega
  have hc02 : f.code 0 2 = rm.code := by
    rw [Fields.code_of hs]
    have := RM.code_lt rm
    cases z <;> simp only [subBit, if_true, if_false, Bool.false_eq_true] <;> omega
  have e3 : f.rm = rm := by
    unfold Fields.rm
    rw [hc02]
    exact RM.ofCode_code _
  have e4 : f.d = d := by
    subst hf
    rfl
  have e5 : f.a = a := by
    subst hf
    rfl
  rw [parse_45 f (by subst hf; rfl)]
  simp only [e0, e1, hb2, e3, e4, e5]

theorem fcos (g : Guard) (fs : Bool) (z : Bool) (rm : RM) (d : XReg) (a : XReg) : Statement (.fcos g fs z rm d a) := by
  apply of_parse
  intro _ f hf
  replace hf : { Fields.base 0x46 g (subBit z 2 + rm.code) fs with d, a } = f := Option.some.inj hf
  have hs : f.sub = BitVec.ofNat 8 ((subBit z 2 + rm.code)) := by subst hf; rfl
  have e0 : f.g = g := by
    subst hf
    rfl
  have e1 : f.fs = fs := by
    subst hf
    rfl
  have hb2 : f.bit 2 = z := by
    rw [Fields.bit_of hs]
    have := RM.code_lt rm
    cases z <;> simp only [subBit, if_true, if_false, Bool.false_eq_true, decide_eq_true_eq, decide_eq_false_iff_not] <;> omega
  have hc02 : f.code 0 2 = rm.code := by
    rw [Fields.code_of hs]
    have := RM.code_lt rm
    cases z <;> simp only [subBit, if_true, if_false, Bool.false_eq_true] <;> omega
  have e3 : f.rm = rm := by
    unfold Fields.rm
    rw [hc02]
    exact RM.ofCode_code _
  have e4 : f.d = d := by
    subst hf
    rfl
  have e5 : f.a = a := by
    subst hf
    rfl
  rw [parse_46 f (by subst hf; rfl)]
  simp only [e0, e1, hb2, e3, e4, e5]

theorem fdiv (g : Guard) (fs : Bool) (z : Bool) (rm : RM) (d : XReg) (a : XReg) (b : Src) : Statement (.fdiv g fs z rm d a b) := by
  apply of_parse
  intro _ f hf
  replace hf : Fields.dab 0x47 g (subBit z 2 + rm.code) d a b 0 0 fs = f := Option.some.inj hf
  have hs : f.sub = BitVec.ofNat 8 (subBit b.i 7 + (subBit z 2 + rm.code)) := by subst hf; rfl
  have e0 : f.g = g := by
    subst hf
    rfl
  have e1 : f.fs = fs := by
    subst hf
    rfl
  have hb2 : f.bit 2 = z := by
    rw [Fields.bit_of hs]
    have := RM.code_lt rm
    generalize b.i = b0
    cases b0 <;> cases z <;> simp only [subBit, if_true, if_false, Bool.false_eq_true, decide_eq_true_eq, decide_eq_false_iff_not] <;> omega
  have hc02 : f.code 0 2 = rm.code := by
    rw [Fields.code_of hs]
    have := RM.code_lt rm
    generalize b.i = b0
    cases b0 <;> cases z <;> simp only [subBit, if_true, if_false, Bool.false_eq_true] <;> omega
  have e3 : f.rm = rm := by
    unfold Fields.rm
    rw [hc02]
    exact RM.ofCode_code _
  have e4 : f.d = d := by
    subst hf
    rfl
  have e5 : f.a = a := by
    subst hf
    rfl
  have hb7 : f.bit 7 = b.i := by
    rw [Fields.bit_of hs]
    have := RM.code_lt rm
    generalize b.i = b0
    cases b0 <;> cases z <;> simp only [subBit, if_true, if_false, Bool.false_eq_true, decide_eq_true_eq, decide_eq_false_iff_not] <;> omega
  have e6 : f.bsrc = b := by
    unfold Fields.bsrc
    have h7 : f.sub.getLsbD 7 = b.i := hb7
    rw [h7]
    have e1 : f.b = b.r := by subst hf; rfl
    have e2 : f.imm = b.v := by subst hf; rfl
    rw [e1, e2]
    exact Src.ofI_self _
  rw [parse_47 f (by subst hf; rfl)]
  simp only [e0, e1, hb2, e3, e4, e5, e6]

theorem pkadd (g : Guard) (bf : Bool) (rm : RM) (d : XReg) (a : XReg) (b : Src) : Statement (.pkadd g bf rm d a b) := by
  apply of_parse
  intro _ f hf
  replace hf : Fields.dab 0x48 g (subBit bf 3 + rm.code) d a b = f := Option.some.inj hf
  have hs : f.sub = BitVec.ofNat 8 (subBit b.i 7 + (subBit bf 3 + rm.code)) := by subst hf; rfl
  have e0 : f.g = g := by
    subst hf
    rfl
  have hb3 : f.bit 3 = bf := by
    rw [Fields.bit_of hs]
    have := RM.code_lt rm
    generalize b.i = b0
    cases b0 <;> cases bf <;> simp only [subBit, if_true, if_false, Bool.false_eq_true, decide_eq_true_eq, decide_eq_false_iff_not] <;> omega
  have hc02 : f.code 0 2 = rm.code := by
    rw [Fields.code_of hs]
    have := RM.code_lt rm
    generalize b.i = b0
    cases b0 <;> cases bf <;> simp only [subBit, if_true, if_false, Bool.false_eq_true] <;> omega
  have e2 : f.rm = rm := by
    unfold Fields.rm
    rw [hc02]
    exact RM.ofCode_code _
  have e3 : f.d = d := by
    subst hf
    rfl
  have e4 : f.a = a := by
    subst hf
    rfl
  have hb7 : f.bit 7 = b.i := by
    rw [Fields.bit_of hs]
    have := RM.code_lt rm
    generalize b.i = b0
    cases b0 <;> cases bf <;> simp only [subBit, if_true, if_false, Bool.false_eq_true, decide_eq_true_eq, decide_eq_false_iff_not] <;> omega
  have e5 : f.bsrc = b := by
    unfold Fields.bsrc
    have h7 : f.sub.getLsbD 7 = b.i := hb7
    rw [h7]
    have e1 : f.b = b.r := by subst hf; rfl
    have e2 : f.imm = b.v := by subst hf; rfl
    rw [e1, e2]
    exact Src.ofI_self _
  rw [parse_48 f (by subst hf; rfl)]
  simp only [e0, hb3, e2, e3, e4, e5]

theorem pkmul (g : Guard) (bf : Bool) (rm : RM) (d : XReg) (a : XReg) (b : Src) : Statement (.pkmul g bf rm d a b) := by
  apply of_parse
  intro _ f hf
  replace hf : Fields.dab 0x49 g (subBit bf 3 + rm.code) d a b = f := Option.some.inj hf
  have hs : f.sub = BitVec.ofNat 8 (subBit b.i 7 + (subBit bf 3 + rm.code)) := by subst hf; rfl
  have e0 : f.g = g := by
    subst hf
    rfl
  have hb3 : f.bit 3 = bf := by
    rw [Fields.bit_of hs]
    have := RM.code_lt rm
    generalize b.i = b0
    cases b0 <;> cases bf <;> simp only [subBit, if_true, if_false, Bool.false_eq_true, decide_eq_true_eq, decide_eq_false_iff_not] <;> omega
  have hc02 : f.code 0 2 = rm.code := by
    rw [Fields.code_of hs]
    have := RM.code_lt rm
    generalize b.i = b0
    cases b0 <;> cases bf <;> simp only [subBit, if_true, if_false, Bool.false_eq_true] <;> omega
  have e2 : f.rm = rm := by
    unfold Fields.rm
    rw [hc02]
    exact RM.ofCode_code _
  have e3 : f.d = d := by
    subst hf
    rfl
  have e4 : f.a = a := by
    subst hf
    rfl
  have hb7 : f.bit 7 = b.i := by
    rw [Fields.bit_of hs]
    have := RM.code_lt rm
    generalize b.i = b0
    cases b0 <;> cases bf <;> simp only [subBit, if_true, if_false, Bool.false_eq_true, decide_eq_true_eq, decide_eq_false_iff_not] <;> omega
  have e5 : f.bsrc = b := by
    unfold Fields.bsrc
    have h7 : f.sub.getLsbD 7 = b.i := hb7
    rw [h7]
    have e1 : f.b = b.r := by subst hf; rfl
    have e2 : f.imm = b.v := by subst hf; rfl
    rw [e1, e2]
    exact Src.ofI_self _
  rw [parse_49 f (by subst hf; rfl)]
  simp only [e0, hb3, e2, e3, e4, e5]

theorem pkfma (g : Guard) (bf : Bool) (rm : RM) (d : XReg) (a : XReg) (b : Src) (c : XReg) : Statement (.pkfma g bf rm d a b c) := by
  apply of_parse
  intro _ f hf
  replace hf : Fields.dab 0x4A g (subBit bf 3 + rm.code) d a b c = f := Option.some.inj hf
  have hs : f.sub = BitVec.ofNat 8 (subBit b.i 7 + (subBit bf 3 + rm.code)) := by subst hf; rfl
  have e0 : f.g = g := by
    subst hf
    rfl
  have hb3 : f.bit 3 = bf := by
    rw [Fields.bit_of hs]
    have := RM.code_lt rm
    generalize b.i = b0
    cases b0 <;> cases bf <;> simp only [subBit, if_true, if_false, Bool.false_eq_true, decide_eq_true_eq, decide_eq_false_iff_not] <;> omega
  have hc02 : f.code 0 2 = rm.code := by
    rw [Fields.code_of hs]
    have := RM.code_lt rm
    generalize b.i = b0
    cases b0 <;> cases bf <;> simp only [subBit, if_true, if_false, Bool.false_eq_true] <;> omega
  have e2 : f.rm = rm := by
    unfold Fields.rm
    rw [hc02]
    exact RM.ofCode_code _
  have e3 : f.d = d := by
    subst hf
    rfl
  have e4 : f.a = a := by
    subst hf
    rfl
  have hb7 : f.bit 7 = b.i := by
    rw [Fields.bit_of hs]
    have := RM.code_lt rm
    generalize b.i = b0
    cases b0 <;> cases bf <;> simp only [subBit, if_true, if_false, Bool.false_eq_true, decide_eq_true_eq, decide_eq_false_iff_not] <;> omega
  have e5 : f.bsrc = b := by
    unfold Fields.bsrc
    have h7 : f.sub.getLsbD 7 = b.i := hb7
    rw [h7]
    have e1 : f.b = b.r := by subst hf; rfl
    have e2 : f.imm = b.v := by subst hf; rfl
    rw [e1, e2]
    exact Src.ofI_self _
  have e6 : f.c = c := by
    subst hf
    rfl
  rw [parse_4A f (by subst hf; rfl)]
  simp only [e0, hb3, e2, e3, e4, e5, e6]

theorem pkmin (g : Guard) (bf : Bool) (d : XReg) (a : XReg) (b : Src) : Statement (.pkmin g bf d a b) := by
  apply of_parse
  intro _ f hf
  replace hf : Fields.dab 0x4B g (subBit bf 3) d a b = f := Option.some.inj hf
  have hs : f.sub = BitVec.ofNat 8 (subBit b.i 7 + (subBit bf 3)) := by subst hf; rfl
  have e0 : f.g = g := by
    subst hf
    rfl
  have hb3 : f.bit 3 = bf := by
    rw [Fields.bit_of hs]
    generalize b.i = b0
    cases b0 <;> cases bf <;> simp only [subBit, if_true, if_false, Bool.false_eq_true, decide_eq_true_eq, decide_eq_false_iff_not] <;> omega
  have e2 : f.d = d := by
    subst hf
    rfl
  have e3 : f.a = a := by
    subst hf
    rfl
  have hb7 : f.bit 7 = b.i := by
    rw [Fields.bit_of hs]
    generalize b.i = b0
    cases b0 <;> cases bf <;> simp only [subBit, if_true, if_false, Bool.false_eq_true, decide_eq_true_eq, decide_eq_false_iff_not] <;> omega
  have e4 : f.bsrc = b := by
    unfold Fields.bsrc
    have h7 : f.sub.getLsbD 7 = b.i := hb7
    rw [h7]
    have e1 : f.b = b.r := by subst hf; rfl
    have e2 : f.imm = b.v := by subst hf; rfl
    rw [e1, e2]
    exact Src.ofI_self _
  rw [parse_4B f (by subst hf; rfl)]
  simp only [e0, hb3, e2, e3, e4]

theorem pkmax (g : Guard) (bf : Bool) (d : XReg) (a : XReg) (b : Src) : Statement (.pkmax g bf d a b) := by
  apply of_parse
  intro _ f hf
  replace hf : Fields.dab 0x4C g (subBit bf 3) d a b = f := Option.some.inj hf
  have hs : f.sub = BitVec.ofNat 8 (subBit b.i 7 + (subBit bf 3)) := by subst hf; rfl
  have e0 : f.g = g := by
    subst hf
    rfl
  have hb3 : f.bit 3 = bf := by
    rw [Fields.bit_of hs]
    generalize b.i = b0
    cases b0 <;> cases bf <;> simp only [subBit, if_true, if_false, Bool.false_eq_true, decide_eq_true_eq, decide_eq_false_iff_not] <;> omega
  have e2 : f.d = d := by
    subst hf
    rfl
  have e3 : f.a = a := by
    subst hf
    rfl
  have hb7 : f.bit 7 = b.i := by
    rw [Fields.bit_of hs]
    generalize b.i = b0
    cases b0 <;> cases bf <;> simp only [subBit, if_true, if_false, Bool.false_eq_true, decide_eq_true_eq, decide_eq_false_iff_not] <;> omega
  have e4 : f.bsrc = b := by
    unfold Fields.bsrc
    have h7 : f.sub.getLsbD 7 = b.i := hb7
    rw [h7]
    have e1 : f.b = b.r := by subst hf; rfl
    have e2 : f.imm = b.v := by subst hf; rfl
    rw [e1, e2]
    exact Src.ofI_self _
  rw [parse_4C f (by subst hf; rfl)]
  simp only [e0, hb3, e2, e3, e4]

theorem pksetp (g : Guard) (bf : Bool) (cond : FCond) (d : PReg) (a : XReg) (b : Src) (e : PReg) : Statement (.pksetp g bf cond d a b e) := by
  apply of_parse
  intro _ f hf
  replace hf : Fields.dab 0x4D g (subBit bf 3 + cond.code) (p8 d) a b 0 (p8 e) = f := Option.some.inj hf
  have hs : f.sub = BitVec.ofNat 8 (subBit b.i 7 + (subBit bf 3 + cond.code)) := by subst hf; rfl
  have e0 : f.g = g := by
    subst hf
    rfl
  have hb3 : f.bit 3 = bf := by
    rw [Fields.bit_of hs]
    have := FCond.code_lt cond
    generalize b.i = b0
    cases b0 <;> cases bf <;> simp only [subBit, if_true, if_false, Bool.false_eq_true, decide_eq_true_eq, decide_eq_false_iff_not] <;> omega
  have hc03 : f.code 0 3 = cond.code := by
    rw [Fields.code_of hs]
    have := FCond.code_lt cond
    generalize b.i = b0
    cases b0 <;> cases bf <;> simp only [subBit, if_true, if_false, Bool.false_eq_true] <;> omega
  have e2 : FCond.ofCode (f.code 0 3) = cond := by
    rw [hc03]
    exact FCond.ofCode_code _
  have e3 : f.pd = d := by
    unfold Fields.pd
    subst hf
    exact p8_back _
  have e4 : f.a = a := by
    subst hf
    rfl
  have hb7 : f.bit 7 = b.i := by
    rw [Fields.bit_of hs]
    have := FCond.code_lt cond
    generalize b.i = b0
    cases b0 <;> cases bf <;> simp only [subBit, if_true, if_false, Bool.false_eq_true, decide_eq_true_eq, decide_eq_false_iff_not] <;> omega
  have e5 : f.bsrc = b := by
    unfold Fields.bsrc
    have h7 : f.sub.getLsbD 7 = b.i := hb7
    rw [h7]
    have e1 : f.b = b.r := by subst hf; rfl
    have e2 : f.imm = b.v := by subst hf; rfl
    rw [e1, e2]
    exact Src.ofI_self _
  have e6 : f.pe = e := by
    unfold Fields.pe
    subst hf
    exact p8_back _
  rw [parse_4D f (by subst hf; rfl)]
  simp only [e0, hb3, e2, e3, e4, e5, e6]

theorem fscale (g : Guard) (z : Bool) (rm : RM) (d : XReg) (a : XReg) (b : Src) : Statement (.fscale g z rm d a b) := by
  apply of_parse
  intro _ f hf
  replace hf : Fields.dab 0x4E g (subBit z 2 + rm.code) d a b = f := Option.some.inj hf
  have hs : f.sub = BitVec.ofNat 8 (subBit b.i 7 + (subBit z 2 + rm.code)) := by subst hf; rfl
  have e0 : f.g = g := by
    subst hf
    rfl
  have hb2 : f.bit 2 = z := by
    rw [Fields.bit_of hs]
    have := RM.code_lt rm
    generalize b.i = b0
    cases b0 <;> cases z <;> simp only [subBit, if_true, if_false, Bool.false_eq_true, decide_eq_true_eq, decide_eq_false_iff_not] <;> omega
  have hc02 : f.code 0 2 = rm.code := by
    rw [Fields.code_of hs]
    have := RM.code_lt rm
    generalize b.i = b0
    cases b0 <;> cases z <;> simp only [subBit, if_true, if_false, Bool.false_eq_true] <;> omega
  have e2 : f.rm = rm := by
    unfold Fields.rm
    rw [hc02]
    exact RM.ofCode_code _
  have e3 : f.d = d := by
    subst hf
    rfl
  have e4 : f.a = a := by
    subst hf
    rfl
  have hb7 : f.bit 7 = b.i := by
    rw [Fields.bit_of hs]
    have := RM.code_lt rm
    generalize b.i = b0
    cases b0 <;> cases z <;> simp only [subBit, if_true, if_false, Bool.false_eq_true, decide_eq_true_eq, decide_eq_false_iff_not] <;> omega
  have e5 : f.bsrc = b := by
    unfold Fields.bsrc
    have h7 : f.sub.getLsbD 7 = b.i := hb7
    rw [h7]
    have e1 : f.b = b.r := by subst hf; rfl
    have e2 : f.imm = b.v := by subst hf; rfl
    rw [e1, e2]
    exact Src.ofI_self _
  rw [parse_4E f (by subst hf; rfl)]
  simp only [e0, hb2, e2, e3, e4, e5]

theorem frnd (g : Guard) (z : Bool) (rm : RM) (d : XReg) (a : XReg) : Statement (.frnd g z rm d a) := by
  apply of_parse
  intro _ f hf
  replace hf : { Fields.base 0x4F g (subBit z 2 + rm.code) with d, a } = f := Option.some.inj hf
  have hs : f.sub = BitVec.ofNat 8 ((subBit z 2 + rm.code)) := by subst hf; rfl
  have e0 : f.g = g := by
    subst hf
    rfl
  have hb2 : f.bit 2 = z := by
    rw [Fields.bit_of hs]
    have := RM.code_lt rm
    cases z <;> simp only [subBit, if_true, if_false, Bool.false_eq_true, decide_eq_true_eq, decide_eq_false_iff_not] <;> omega
  have hc02 : f.code 0 2 = rm.code := by
    rw [Fields.code_of hs]
    have := RM.code_lt rm
    cases z <;> simp only [subBit, if_true, if_false, Bool.false_eq_true] <;> omega
  have e2 : f.rm = rm := by
    unfold Fields.rm
    rw [hc02]
    exact RM.ofCode_code _
  have e3 : f.d = d := by
    subst hf
    rfl
  have e4 : f.a = a := by
    subst hf
    rfl
  rw [parse_4F f (by subst hf; rfl)]
  simp only [e0, hb2, e2, e3, e4]

theorem dot2 (g : Guard) (bf : Bool) (z : Bool) (rm : RM) (d : XReg) (a : XReg) (b : Src) (c : XReg) : Statement (.dot2 g bf z rm d a b c) := by
  apply of_parse
  intro _ f hf
  replace hf : Fields.dab 0x50 g (subBit bf 3 + subBit z 2 + rm.code) d a b c = f := Option.some.inj hf
  have hs : f.sub = BitVec.ofNat 8 (subBit b.i 7 + (subBit bf 3 + subBit z 2 + rm.code)) := by subst hf; rfl
  have e0 : f.g = g := by
    subst hf
    rfl
  have hb3 : f.bit 3 = bf := by
    rw [Fields.bit_of hs]
    have := RM.code_lt rm
    generalize b.i = b0
    cases b0 <;> cases bf <;> cases z <;> simp only [subBit, if_true, if_false, Bool.false_eq_true, decide_eq_true_eq, decide_eq_false_iff_not] <;> omega
  have hb2 : f.bit 2 = z := by
    rw [Fields.bit_of hs]
    have := RM.code_lt rm
    generalize b.i = b0
    cases b0 <;> cases bf <;> cases z <;> simp only [subBit, if_true, if_false, Bool.false_eq_true, decide_eq_true_eq, decide_eq_false_iff_not] <;> omega
  have hc02 : f.code 0 2 = rm.code := by
    rw [Fields.code_of hs]
    have := RM.code_lt rm
    generalize b.i = b0
    cases b0 <;> cases bf <;> cases z <;> simp only [subBit, if_true, if_false, Bool.false_eq_true] <;> omega
  have e3 : f.rm = rm := by
    unfold Fields.rm
    rw [hc02]
    exact RM.ofCode_code _
  have e4 : f.d = d := by
    subst hf
    rfl
  have e5 : f.a = a := by
    subst hf
    rfl
  have hb7 : f.bit 7 = b.i := by
    rw [Fields.bit_of hs]
    have := RM.code_lt rm
    generalize b.i = b0
    cases b0 <;> cases bf <;> cases z <;> simp only [subBit, if_true, if_false, Bool.false_eq_true, decide_eq_true_eq, decide_eq_false_iff_not] <;> omega
  have e6 : f.bsrc = b := by
    unfold Fields.bsrc
    have h7 : f.sub.getLsbD 7 = b.i := hb7
    rw [h7]
    have e1 : f.b = b.r := by subst hf; rfl
    have e2 : f.imm = b.v := by subst hf; rfl
    rw [e1, e2]
    exact Src.ofI_self _
  have e7 : f.c = c := by
    subst hf
    rfl
  rw [parse_50 f (by subst hf; rfl)]
  simp only [e0, hb3, hb2, e3, e4, e5, e6, e7]

theorem fmtrd (g : Guard) (d : XReg) (k : FSlot) : Statement (.fmtrd g d k) := by
  apply of_parse
  intro _ f hf
  replace hf : { Fields.base 0x51 g with d, e := k.setWidth 8 } = f := Option.some.inj hf
  have e0 : f.g = g := by
    subst hf
    rfl
  have e1 : f.d = d := by
    subst hf
    rfl
  have e2 : f.k3 = k := by
    unfold Fields.k3
    subst hf
    show BitVec.setWidth 3 (BitVec.setWidth 8 k) = k
    simp
  rw [parse_51 f (by subst hf; rfl)]
  simp only [e0, e1, e2]

theorem f2i (g : Guard) (z : Bool) (u : Bool) (s : FSrc) (rm : RM) (d : XReg) (a : XReg) : Statement (.f2i g z u s rm d a) := by
  apply of_parse
  intro _ f hf
  replace hf : { Fields.base 0x60 g (subBit z 6 + subBit u 5 + subBit s.h 4 + 4 * s.code + rm.code) with d, a } = f := Option.some.inj hf
  have hs : f.sub = BitVec.ofNat 8 ((subBit z 6 + subBit u 5 + subBit s.h 4 + 4 * s.code + rm.code)) := by subst hf; rfl
  have e0 : f.g = g := by
    subst hf
    rfl
  have hb6 : f.bit 6 = z := by
    rw [Fields.bit_of hs]
    have := FSrc.code_lt s
    have := RM.code_lt rm
    generalize s.h = b0
    cases b0 <;> cases z <;> cases u <;> simp only [subBit, if_true, if_false, Bool.false_eq_true, decide_eq_true_eq, decide_eq_false_iff_not] <;> omega
  have hb5 : f.bit 5 = u := by
    rw [Fields.bit_of hs]
    have := FSrc.code_lt s
    have := RM.code_lt rm
    generalize s.h = b0
    cases b0 <;> cases z <;> cases u <;> simp only [subBit, if_true, if_false, Bool.false_eq_true, decide_eq_true_eq, decide_eq_false_iff_not] <;> omega
  have hb4 : f.bit 4 = s.h := by
    rw [Fields.bit_of hs]
    have := FSrc.code_lt s
    have := RM.code_lt rm
    generalize s.h = b0
    cases b0 <;> cases z <;> cases u <;> simp only [subBit, if_true, if_false, Bool.false_eq_true, decide_eq_true_eq, decide_eq_false_iff_not] <;> omega
  have hc22 : f.code 2 2 = s.code := by
    rw [Fields.code_of hs]
    have := FSrc.code_lt s
    have := RM.code_lt rm
    generalize s.h = b0
    cases b0 <;> cases z <;> cases u <;> simp only [subBit, if_true, if_false, Bool.false_eq_true] <;> omega
  have e3 : FSrc.ofCode (f.bit 4) (f.code 2 2) = some s := by
    rw [hb4]
    rw [hc22]
    exact FSrc.ofCode_code _
  have hc02 : f.code 0 2 = rm.code := by
    rw [Fields.code_of hs]
    have := FSrc.code_lt s
    have := RM.code_lt rm
    generalize s.h = b0
    cases b0 <;> cases z <;> cases u <;> simp only [subBit, if_true, if_false, Bool.false_eq_true] <;> omega
  have e4 : f.rm = rm := by
    unfold Fields.rm
    rw [hc02]
    exact RM.ofCode_code _
  have e5 : f.d = d := by
    subst hf
    rfl
  have e6 : f.a = a := by
    subst hf
    rfl
  rw [parse_60 f (by subst hf; rfl)]
  simp only [e0, hb6, hb5, e3, e4, e5, e6, Option.map_some]

theorem i2f (g : Guard) (u : Bool) (r : IFmt) (rm : RM) (d : XReg) (a : XReg) : Statement (.i2f g u r rm d a) := by
  apply of_parse
  intro _ f hf
  replace hf : { Fields.base 0x61 g (subBit u 5 + 4 * r.code + rm.code) with d, a } = f := Option.some.inj hf
  have hs : f.sub = BitVec.ofNat 8 ((subBit u 5 + 4 * r.code + rm.code)) := by subst hf; rfl
  have e0 : f.g = g := by
    subst hf
    rfl
  have hb5 : f.bit 5 = u := by
    rw [Fields.bit_of hs]
    have := IFmt.code_lt r
    have := RM.code_lt rm
    cases u <;> simp only [subBit, if_true, if_false, Bool.false_eq_true, decide_eq_true_eq, decide_eq_false_iff_not] <;> omega
  have hc22 : f.code 2 2 = r.code := by
    rw [Fields.code_of hs]
    have := IFmt.code_lt r
    have := RM.code_lt rm
    cases u <;> simp only [subBit, if_true, if_false, Bool.false_eq_true] <;> omega
  have e2 : IFmt.ofCode (f.code 2 2) = some r := by
    rw [hc22]
    exact IFmt.ofCode_code _
  have hc02 : f.code 0 2 = rm.code := by
    rw [Fields.code_of hs]
    have := IFmt.code_lt r
    have := RM.code_lt rm
    cases u <;> simp only [subBit, if_true, if_false, Bool.false_eq_true] <;> omega
  have e3 : f.rm = rm := by
    unfold Fields.rm
    rw [hc02]
    exact RM.ofCode_code _
  have e4 : f.d = d := by
    subst hf
    rfl
  have e5 : f.a = a := by
    subst hf
    rfl
  rw [parse_61 f (by subst hf; rfl)]
  simp only [e0, hb5, e2, e3, e4, e5, Option.map_some]

theorem f2f (g : Guard) (z : Bool) (r : IFmt) (s : FSrc) (rm : RM) (d : XReg) (a : XReg) : Statement (.f2f g z r s rm d a) := by
  apply of_parse
  intro _ f hf
  replace hf : { Fields.base 0x62 g (subBit z 7 + subBit s.h 6 + 16 * r.code + 4 * s.code + rm.code) with d, a } = f := Option.some.inj hf
  have hs : f.sub = BitVec.ofNat 8 ((subBit z 7 + subBit s.h 6 + 16 * r.code + 4 * s.code + rm.code)) := by subst hf; rfl
  have e0 : f.g = g := by
    subst hf
    rfl
  have hb7 : f.bit 7 = z := by
    rw [Fields.bit_of hs]
    have := IFmt.code_lt r
    have := FSrc.code_lt s
    have := RM.code_lt rm
    generalize s.h = b0
    cases b0 <;> cases z <;> simp only [subBit, if_true, if_false, Bool.false_eq_true, decide_eq_true_eq, decide_eq_false_iff_not] <;> omega
  have hc42 : f.code 4 2 = r.code := by
    rw [Fields.code_of hs]
    have := IFmt.code_lt r
    have := FSrc.code_lt s
    have := RM.code_lt rm
    generalize s.h = b0
    cases b0 <;> cases z <;> simp only [subBit, if_true, if_false, Bool.false_eq_true] <;> omega
  have e2 : IFmt.ofCode (f.code 4 2) = some r := by
    rw [hc42]
    exact IFmt.ofCode_code _
  have hb6 : f.bit 6 = s.h := by
    rw [Fields.bit_of hs]
    have := IFmt.code_lt r
    have := FSrc.code_lt s
    have := RM.code_lt rm
    generalize s.h = b0
    cases b0 <;> cases z <;> simp only [subBit, if_true, if_false, Bool.false_eq_true, decide_eq_true_eq, decide_eq_false_iff_not] <;> omega
  have hc22 : f.code 2 2 = s.code := by
    rw [Fields.code_of hs]
    have := IFmt.code_lt r
    have := FSrc.code_lt s
    have := RM.code_lt rm
    generalize s.h = b0
    cases b0 <;> cases z <;> simp only [subBit, if_true, if_false, Bool.false_eq_true] <;> omega
  have e3 : FSrc.ofCode (f.bit 6) (f.code 2 2) = some s := by
    rw [hb6]
    rw [hc22]
    exact FSrc.ofCode_code _
  have hc02 : f.code 0 2 = rm.code := by
    rw [Fields.code_of hs]
    have := IFmt.code_lt r
    have := FSrc.code_lt s
    have := RM.code_lt rm
    generalize s.h = b0
    cases b0 <;> cases z <;> simp only [subBit, if_true, if_false, Bool.false_eq_true] <;> omega
  have e4 : f.rm = rm := by
    unfold Fields.rm
    rw [hc02]
    exact RM.ofCode_code _
  have e5 : f.d = d := by
    subst hf
    rfl
  have e6 : f.a = a := by
    subst hf
    rfl
  rw [parse_62 f (by subst hf; rfl)]
  simp only [e0, hb7, e2, e3, e4, e5, e6, Option.map_some, Option.bind_some]

theorem packn (g : Guard) (z : Bool) (v : NFmt) (rm : RM) (d : XReg) (a : XReg) (b : XReg) : Statement (.packn g z v rm d a b) := by
  apply of_parse
  intro _ f hf
  replace hf : { Fields.base 0x63 g (subBit z 5 + 4 * v.code + rm.code) with d, a, b } = f := Option.some.inj hf
  have hs : f.sub = BitVec.ofNat 8 ((subBit z 5 + 4 * v.code + rm.code)) := by subst hf; rfl
  have e0 : f.g = g := by
    subst hf
    rfl
  have hb5 : f.bit 5 = z := by
    rw [Fields.bit_of hs]
    have := NFmt.code_lt v
    have := RM.code_lt rm
    cases z <;> simp only [subBit, if_true, if_false, Bool.false_eq_true, decide_eq_true_eq, decide_eq_false_iff_not] <;> omega
  have hc23 : f.code 2 3 = v.code := by
    rw [Fields.code_of hs]
    have := NFmt.code_lt v
    have := RM.code_lt rm
    cases z <;> simp only [subBit, if_true, if_false, Bool.false_eq_true] <;> omega
  have e2 : NFmt.ofCode (f.code 2 3) = some v := by
    rw [hc23]
    exact NFmt.ofCode_code _
  have hc02 : f.code 0 2 = rm.code := by
    rw [Fields.code_of hs]
    have := NFmt.code_lt v
    have := RM.code_lt rm
    cases z <;> simp only [subBit, if_true, if_false, Bool.false_eq_true] <;> omega
  have e3 : f.rm = rm := by
    unfold Fields.rm
    rw [hc02]
    exact RM.ofCode_code _
  have e4 : f.d = d := by
    subst hf
    rfl
  have e5 : f.a = a := by
    subst hf
    rfl
  have e6 : f.b = b := by
    subst hf
    rfl
  rw [parse_63 f (by subst hf; rfl)]
  simp only [e0, hb5, e2, e3, e4, e5, e6, Option.map_some]

theorem unpackn (g : Guard) (v : NFmt) (d : XReg) (a : XReg) : Statement (.unpackn g v d a) := by
  apply of_parse
  intro _ f hf
  replace hf : { Fields.base 0x64 g (4 * v.code) with d, a } = f := Option.some.inj hf
  have hs : f.sub = BitVec.ofNat 8 ((4 * v.code)) := by subst hf; rfl
  have e0 : f.g = g := by
    subst hf
    rfl
  have hc23 : f.code 2 3 = v.code := by
    rw [Fields.code_of hs]
    have := NFmt.code_lt v
    omega
  have e1 : NFmt.ofCode (f.code 2 3) = some v := by
    rw [hc23]
    exact NFmt.ofCode_code _
  have e2 : f.d = d := by
    subst hf
    rfl
  have e3 : f.a = a := by
    subst hf
    rfl
  rw [parse_64 f (by subst hf; rfl)]
  simp only [e0, e1, e2, e3, Option.map_some]

theorem bscale (g : Guard) (inv : Bool) (z : Bool) (rm : RM) (d : XReg) (a : XReg) (b : XReg) (k : BitVec 2) : Statement (.bscale g inv z rm d a b k) := by
  apply of_parse
  intro _ f hf
  replace hf : { Fields.base 0x65 g (subBit inv 3 + subBit z 2 + rm.code) with d, a, b, e := k.setWidth 8 } = f := Option.some.inj hf
  have hs : f.sub = BitVec.ofNat 8 ((subBit inv 3 + subBit z 2 + rm.code)) := by subst hf; rfl
  have e0 : f.g = g := by
    subst hf
    rfl
  have hb3 : f.bit 3 = inv := by
    rw [Fields.bit_of hs]
    have := RM.code_lt rm
    cases inv <;> cases z <;> simp only [subBit, if_true, if_false, Bool.false_eq_true, decide_eq_true_eq, decide_eq_false_iff_not] <;> omega
  have hb2 : f.bit 2 = z := by
    rw [Fields.bit_of hs]
    have := RM.code_lt rm
    cases inv <;> cases z <;> simp only [subBit, if_true, if_false, Bool.false_eq_true, decide_eq_true_eq, decide_eq_false_iff_not] <;> omega
  have hc02 : f.code 0 2 = rm.code := by
    rw [Fields.code_of hs]
    have := RM.code_lt rm
    cases inv <;> cases z <;> simp only [subBit, if_true, if_false, Bool.false_eq_true] <;> omega
  have e3 : f.rm = rm := by
    unfold Fields.rm
    rw [hc02]
    exact RM.ofCode_code _
  have e4 : f.d = d := by
    subst hf
    rfl
  have e5 : f.a = a := by
    subst hf
    rfl
  have e6 : f.b = b := by
    subst hf
    rfl
  have e7 : f.e.setWidth 2 = k := by
    subst hf
    show BitVec.setWidth 2 (BitVec.setWidth 8 k) = k
    simp
  rw [parse_65 f (by subst hf; rfl)]
  simp only [e0, hb3, hb2, e3, e4, e5, e6, e7]

theorem qblk (g : Guard) (z : Bool) (s : IFmt) (d : XReg) (a : XReg) (c : XReg) (k : FSlot) : Statement (.qblk g z s d a c k) := by
  apply of_parse
  intro _ f hf
  replace hf : { Fields.base 0x66 g (subBit z 2 + s.code) with d, a, c, e := k.setWidth 8 } = f := Option.some.inj hf
  have hs : f.sub = BitVec.ofNat 8 ((subBit z 2 + s.code)) := by subst hf; rfl
  have e0 : f.g = g := by
    subst hf
    rfl
  have hb2 : f.bit 2 = z := by
    rw [Fields.bit_of hs]
    have := IFmt.code_lt s
    cases z <;> simp only [subBit, if_true, if_false, Bool.false_eq_true, decide_eq_true_eq, decide_eq_false_iff_not] <;> omega
  have hc02 : f.code 0 2 = s.code := by
    rw [Fields.code_of hs]
    have := IFmt.code_lt s
    cases z <;> simp only [subBit, if_true, if_false, Bool.false_eq_true] <;> omega
  have e2 : IFmt.ofCode (f.code 0 2) = some s := by
    rw [hc02]
    exact IFmt.ofCode_code _
  have e3 : f.d = d := by
    subst hf
    rfl
  have e4 : f.a = a := by
    subst hf
    rfl
  have e5 : f.c = c := by
    subst hf
    rfl
  have e6 : f.k3 = k := by
    unfold Fields.k3
    subst hf
    show BitVec.setWidth 3 (BitVec.setWidth 8 k) = k
    simp
  rw [parse_66 f (by subst hf; rfl)]
  simp only [e0, hb2, e2, e3, e4, e5, e6, Option.map_some]

theorem dqblk (g : Guard) (z : Bool) (r : IFmt) (d : XReg) (a : XReg) (c : XReg) (k : FSlot) : Statement (.dqblk g z r d a c k) := by
  apply of_parse
  intro _ f hf
  replace hf : { Fields.base 0x67 g (subBit z 2 + r.code) with d, a, c, e := k.setWidth 8 } = f := Option.some.inj hf
  have hs : f.sub = BitVec.ofNat 8 ((subBit z 2 + r.code)) := by subst hf; rfl
  have e0 : f.g = g := by
    subst hf
    rfl
  have hb2 : f.bit 2 = z := by
    rw [Fields.bit_of hs]
    have := IFmt.code_lt r
    cases z <;> simp only [subBit, if_true, if_false, Bool.false_eq_true, decide_eq_true_eq, decide_eq_false_iff_not] <;> omega
  have hc02 : f.code 0 2 = r.code := by
    rw [Fields.code_of hs]
    have := IFmt.code_lt r
    cases z <;> simp only [subBit, if_true, if_false, Bool.false_eq_true] <;> omega
  have e2 : IFmt.ofCode (f.code 0 2) = some r := by
    rw [hc02]
    exact IFmt.ofCode_code _
  have e3 : f.d = d := by
    subst hf
    rfl
  have e4 : f.a = a := by
    subst hf
    rfl
  have e5 : f.c = c := by
    subst hf
    rfl
  have e6 : f.k3 = k := by
    unfold Fields.k3
    subst hf
    show BitVec.setWidth 3 (BitVec.setWidth 8 k) = k
    simp
  rw [parse_67 f (by subst hf; rfl)]
  simp only [e0, hb2, e2, e3, e4, e5, e6, Option.map_some]

theorem i2i (g : Guard) (sat : Bool) (uin : Bool) (t : ITarget) (d : XReg) (a : XReg) : Statement (.i2i g sat uin t d a) := by
  apply of_parse
  intro _ f hf
  replace hf : { Fields.base 0x68 g (subBit sat 4 + subBit uin 3 + t.code) with d, a } = f := Option.some.inj hf
  have hs : f.sub = BitVec.ofNat 8 ((subBit sat 4 + subBit uin 3 + t.code)) := by subst hf; rfl
  have e0 : f.g = g := by
    subst hf
    rfl
  have hb4 : f.bit 4 = sat := by
    rw [Fields.bit_of hs]
    have := ITarget.code_lt t
    cases sat <;> cases uin <;> simp only [subBit, if_true, if_false, Bool.false_eq_true, decide_eq_true_eq, decide_eq_false_iff_not] <;> omega
  have hb3 : f.bit 3 = uin := by
    rw [Fields.bit_of hs]
    have := ITarget.code_lt t
    cases sat <;> cases uin <;> simp only [subBit, if_true, if_false, Bool.false_eq_true, decide_eq_true_eq, decide_eq_false_iff_not] <;> omega
  have hc03 : f.code 0 3 = t.code := by
    rw [Fields.code_of hs]
    have := ITarget.code_lt t
    cases sat <;> cases uin <;> simp only [subBit, if_true, if_false, Bool.false_eq_true] <;> omega
  have e3 : ITarget.ofCode (f.code 0 3) = some t := by
    rw [hc03]
    exact ITarget.ofCode_code _
  have e4 : f.d = d := by
    subst hf
    rfl
  have e5 : f.a = a := by
    subst hf
    rfl
  rw [parse_68 f (by subst hf; rfl)]
  simp only [e0, hb4, hb3, e3, e4, e5, Option.map_some]

theorem shfl (g : Guard) (fl : Option XReg) (wid : BitVec 3) (mode : ShflMode) (d : XReg) (a : XReg) (b : Src) (e : PReg) : Statement (.shfl g fl wid mode d a b e) := by
  apply of_parse
  intro _ f hf
  replace hf : Fields.dab 0x70 g (subBit fl.isSome 5 + 4 * wid.toNat + mode.code) d a b (fl.getD 0) (p8 e) = f := Option.some.inj hf
  have hs : f.sub = BitVec.ofNat 8 (subBit b.i 7 + (subBit fl.isSome 5 + 4 * wid.toNat + mode.code)) := by subst hf; rfl
  have e0 : f.g = g := by
    subst hf
    rfl
  have hb5 : f.bit 5 = fl.isSome := by
    rw [Fields.bit_of hs]
    have := wid.isLt
    have := ShflMode.code_lt mode
    generalize b.i = b0
    generalize fl.isSome = b1
    cases b0 <;> cases b1 <;> simp only [subBit, if_true, if_false, Bool.false_eq_true, decide_eq_true_eq, decide_eq_false_iff_not] <;> omega
  have e1 : (if f.bit 5 = true then some f.c else none) = fl := by
    rw [hb5, show f.c = fl.getD 0 by subst hf; rfl]
    exact opt_self _ _
  have hc23 : f.code 2 3 = wid.toNat := by
    rw [Fields.code_of hs]
    have := wid.isLt
    have := ShflMode.code_lt mode
    generalize b.i = b0
    generalize fl.isSome = b1
    cases b0 <;> cases b1 <;> simp only [subBit, if_true, if_false, Bool.false_eq_true] <;> omega
  have e2 : BitVec.ofNat 3 (f.code 2 3) = wid := by
    rw [hc23]
    exact ofNat_back _
  have hc02 : f.code 0 2 = mode.code := by
    rw [Fields.code_of hs]
    have := wid.isLt
    have := ShflMode.code_lt mode
    generalize b.i = b0
    generalize fl.isSome = b1
    cases b0 <;> cases b1 <;> simp only [subBit, if_true, if_false, Bool.false_eq_true] <;> omega
  have e3 : ShflMode.ofCode (f.code 0 2) = mode := by
    rw [hc02]
    exact ShflMode.ofCode_code _
  have e4 : f.d = d := by
    subst hf
    rfl
  have e5 : f.a = a := by
    subst hf
    rfl
  have hb7 : f.bit 7 = b.i := by
    rw [Fields.bit_of hs]
    have := wid.isLt
    have := ShflMode.code_lt mode
    generalize b.i = b0
    generalize fl.isSome = b1
    cases b0 <;> cases b1 <;> simp only [subBit, if_true, if_false, Bool.false_eq_true, decide_eq_true_eq, decide_eq_false_iff_not] <;> omega
  have e6 : f.bsrc = b := by
    unfold Fields.bsrc
    have h7 : f.sub.getLsbD 7 = b.i := hb7
    rw [h7]
    have e1 : f.b = b.r := by subst hf; rfl
    have e2 : f.imm = b.v := by subst hf; rfl
    rw [e1, e2]
    exact Src.ofI_self _
  have e7 : f.pe = e := by
    unfold Fields.pe
    subst hf
    exact p8_back _
  rw [parse_70 f (by subst hf; rfl)]
  simp only [e0, e1, e2, e3, e4, e5, e6, e7]

theorem vote (g : Guard) (neg : Bool) (v : VoteForm) (a : PReg) : Statement (.vote g neg v a) := by
  apply of_parse
  intro _ f hf
  replace hf : { Fields.base 0x71 g (subBit neg 2 + v.code) with d := v.dest, a := p8 a } = f := Option.some.inj hf
  have hs : f.sub = BitVec.ofNat 8 ((subBit neg 2 + v.code)) := by subst hf; rfl
  have e0 : f.g = g := by
    subst hf
    rfl
  have hb2 : f.bit 2 = neg := by
    rw [Fields.bit_of hs]
    have := VoteForm.code_lt v
    cases neg <;> simp only [subBit, if_true, if_false, Bool.false_eq_true, decide_eq_true_eq, decide_eq_false_iff_not] <;> omega
  have hc02 : f.code 0 2 = v.code := by
    rw [Fields.code_of hs]
    have := VoteForm.code_lt v
    cases neg <;> simp only [subBit, if_true, if_false, Bool.false_eq_true] <;> omega
  have e2 : VoteForm.ofCode f.d (f.code 0 2) = v := by
    rw [show f.d = v.dest by subst hf; rfl]
    rw [hc02]
    exact VoteForm.ofCode_code _
  have e3 : f.pa = a := by
    unfold Fields.pa
    subst hf
    exact p8_back _
  rw [parse_71 f (by subst hf; rfl)]
  simp only [e0, hb2, e2, e3]

theorem matchx (g : Guard) (w : Bool) (all : Option PReg) (d : XReg) (a : XReg) : Statement (.matchx g w all d a) := by
  apply of_parse
  intro _ f hf
  replace hf : { Fields.base 0x72 g (subBit w 1 + subBit all.isSome 0) with d, a, e := p8 (all.getD 0) } = f := Option.some.inj hf
  have hs : f.sub = BitVec.ofNat 8 ((subBit w 1 + subBit all.isSome 0)) := by subst hf; rfl
  have e0 : f.g = g := by
    subst hf
    rfl
  have hb1 : f.bit 1 = w := by
    rw [Fields.bit_of hs]
    generalize all.isSome = b0
    cases b0 <;> cases w <;> simp only [subBit, if_true, if_false, Bool.false_eq_true, decide_eq_true_eq, decide_eq_false_iff_not] <;> omega
  have hb0 : f.bit 0 = all.isSome := by
    rw [Fields.bit_of hs]
    generalize all.isSome = b0
    cases b0 <;> cases w <;> simp only [subBit, if_true, if_false, Bool.false_eq_true, decide_eq_true_eq, decide_eq_false_iff_not] <;> omega
  have e2 : (if f.bit 0 = true then some f.pe else none) = all := by
    rw [hb0]
    have he : f.pe = all.getD 0 := by unfold Fields.pe; subst hf; exact p8_back _
    rw [he]
    exact opt_self _ _
  have e3 : f.d = d := by
    subst hf
    rfl
  have e4 : f.a = a := by
    subst hf
    rfl
  rw [parse_72 f (by subst hf; rfl)]
  simp only [e0, hb1, e2, e3, e4]

theorem redux (g : Guard) (z : Bool) (op : RedOp) (d : XReg) (a : XReg) : Statement (.redux g z op d a) := by
  apply of_parse
  intro _ f hf
  replace hf : { Fields.base 0x73 g (subBit z 4 + op.code) with d, a } = f := Option.some.inj hf
  have hs : f.sub = BitVec.ofNat 8 ((subBit z 4 + op.code)) := by subst hf; rfl
  have e0 : f.g = g := by
    subst hf
    rfl
  have hb4 : f.bit 4 = z := by
    rw [Fields.bit_of hs]
    have := RedOp.code_lt op
    cases z <;> simp only [subBit, if_true, if_false, Bool.false_eq_true, decide_eq_true_eq, decide_eq_false_iff_not] <;> omega
  have hc04 : f.code 0 4 = op.code := by
    rw [Fields.code_of hs]
    have := RedOp.code_lt op
    cases z <;> simp only [subBit, if_true, if_false, Bool.false_eq_true] <;> omega
  have e2 : RedOp.ofCode (f.code 0 4) = some op := by
    rw [hc04]
    exact RedOp.ofCode_code _
  have e3 : f.d = d := by
    subst hf
    rfl
  have e4 : f.a = a := by
    subst hf
    rfl
  rw [parse_73 f (by subst hf; rfl)]
  simp only [e0, hb4, e2, e3, e4, Option.map_some]

theorem redix (g : Guard) (z : Bool) (xi : Option XReg) (mx : Bool) (ty : RedixTy) (d : XReg) (a : XReg) : Statement (.redix g z xi mx ty d a) := by
  apply of_parse
  intro _ f hf
  replace hf : { Fields.base 0x74 g (subBit z 4 + subBit xi.isSome 3 + subBit mx 2 + ty.code) with d, a, b := xi.getD 0 } = f := Option.some.inj hf
  have hs : f.sub = BitVec.ofNat 8 ((subBit z 4 + subBit xi.isSome 3 + subBit mx 2 + ty.code)) := by subst hf; rfl
  have e0 : f.g = g := by
    subst hf
    rfl
  have hb4 : f.bit 4 = z := by
    rw [Fields.bit_of hs]
    have := RedixTy.code_lt ty
    generalize xi.isSome = b0
    cases b0 <;> cases z <;> cases mx <;> simp only [subBit, if_true, if_false, Bool.false_eq_true, decide_eq_true_eq, decide_eq_false_iff_not] <;> omega
  have hb3 : f.bit 3 = xi.isSome := by
    rw [Fields.bit_of hs]
    have := RedixTy.code_lt ty
    generalize xi.isSome = b0
    cases b0 <;> cases z <;> cases mx <;> simp only [subBit, if_true, if_false, Bool.false_eq_true, decide_eq_true_eq, decide_eq_false_iff_not] <;> omega
  have e2 : (if f.bit 3 = true then some f.b else none) = xi := by
    rw [hb3, show f.b = xi.getD 0 by subst hf; rfl]
    exact opt_self _ _
  have hb2 : f.bit 2 = mx := by
    rw [Fields.bit_of hs]
    have := RedixTy.code_lt ty
    generalize xi.isSome = b0
    cases b0 <;> cases z <;> cases mx <;> simp only [subBit, if_true, if_false, Bool.false_eq_true, decide_eq_true_eq, decide_eq_false_iff_not] <;> omega
  have hc02 : f.code 0 2 = ty.code := by
    rw [Fields.code_of hs]
    have := RedixTy.code_lt ty
    generalize xi.isSome = b0
    cases b0 <;> cases z <;> cases mx <;> simp only [subBit, if_true, if_false, Bool.false_eq_true] <;> omega
  have e4 : RedixTy.ofCode (f.code 0 2) = some ty := by
    rw [hc02]
    exact RedixTy.ofCode_code _
  have e5 : f.d = d := by
    subst hf
    rfl
  have e6 : f.a = a := by
    subst hf
    rfl
  rw [parse_74 f (by subst hf; rfl)]
  simp only [e0, hb4, e2, hb2, e4, e5, e6, Option.map_some]

theorem scan (g : Guard) (x : Bool) (z : Bool) (op : RedOp) (d : XReg) (a : XReg) : Statement (.scan g x z op d a) := by
  apply of_parse
  intro _ f hf
  replace hf : { Fields.base 0x75 g (subBit x 5 + subBit z 4 + op.code) with d, a } = f := Option.some.inj hf
  have hs : f.sub = BitVec.ofNat 8 ((subBit x 5 + subBit z 4 + op.code)) := by subst hf; rfl
  have e0 : f.g = g := by
    subst hf
    rfl
  have hb5 : f.bit 5 = x := by
    rw [Fields.bit_of hs]
    have := RedOp.code_lt op
    cases x <;> cases z <;> simp only [subBit, if_true, if_false, Bool.false_eq_true, decide_eq_true_eq, decide_eq_false_iff_not] <;> omega
  have hb4 : f.bit 4 = z := by
    rw [Fields.bit_of hs]
    have := RedOp.code_lt op
    cases x <;> cases z <;> simp only [subBit, if_true, if_false, Bool.false_eq_true, decide_eq_true_eq, decide_eq_false_iff_not] <;> omega
  have hc04 : f.code 0 4 = op.code := by
    rw [Fields.code_of hs]
    have := RedOp.code_lt op
    cases x <;> cases z <;> simp only [subBit, if_true, if_false, Bool.false_eq_true] <;> omega
  have e3 : RedOp.ofCode (f.code 0 4) = some op := by
    rw [hc04]
    exact RedOp.ofCode_code _
  have e4 : f.d = d := by
    subst hf
    rfl
  have e5 : f.a = a := by
    subst hf
    rfl
  rw [parse_75 f (by subst hf; rfl)]
  simp only [e0, hb5, hb4, e3, e4, e5, Option.map_some]

theorem elect (g : Guard) (w : Option XReg) (e : PReg) : Statement (.elect g w e) := by
  apply of_parse
  intro _ f hf
  replace hf : { Fields.base 0x76 g (subBit w.isSome 0) with d := w.getD 0, e := p8 e } = f := Option.some.inj hf
  have hs : f.sub = BitVec.ofNat 8 ((subBit w.isSome 0)) := by subst hf; rfl
  have e0 : f.g = g := by
    subst hf
    rfl
  have hb0 : f.bit 0 = w.isSome := by
    rw [Fields.bit_of hs]
    generalize w.isSome = b0
    cases b0 <;> simp only [subBit, if_true, if_false, Bool.false_eq_true, decide_eq_true_eq, decide_eq_false_iff_not] <;> omega
  have e1 : (if f.bit 0 = true then some f.d else none) = w := by
    rw [hb0, show f.d = w.getD 0 by subst hf; rfl]
    exact opt_self _ _
  have e2 : f.pe = e := by
    unfold Fields.pe
    subst hf
    exact p8_back _
  rw [parse_76 f (by subst hf; rfl)]
  simp only [e0, e1, e2]

theorem lanemask (g : Guard) (k : LaneKind) (d : XReg) : Statement (.lanemask g k d) := by
  apply of_parse
  intro _ f hf
  replace hf : { Fields.base 0x77 g k.code with d } = f := Option.some.inj hf
  have hs : f.sub = BitVec.ofNat 8 (k.code) := by subst hf; rfl
  have e0 : f.g = g := by
    subst hf
    rfl
  have hc03 : f.code 0 3 = k.code := by
    rw [Fields.code_of hs]
    have := LaneKind.code_lt k
    omega
  have e1 : LaneKind.ofCode (f.code 0 3) = some k := by
    rw [hc03]
    exact LaneKind.ofCode_code _
  have e2 : f.d = d := by
    subst hf
    rfl
  rw [parse_77 f (by subst hf; rfl)]
  simp only [e0, e1, e2, Option.map_some]

theorem lds (g : Guard) (fs : Bool) (sx : Bool) (sz : Size) (d : XReg) (m : MemOp) : Statement (.lds g fs sx sz d m) := by
  apply of_parse
  intro _ f hf
  replace hf : Fields.mem 0x80 g (subBit sx 5 + sz.code) d m 0 0 0 fs = f := Option.some.inj hf
  have hs : f.sub = BitVec.ofNat 8 ((subBit sx 5 + sz.code)) := by subst hf; rfl
  have e0 : f.g = g := by
    subst hf
    rfl
  have e1 : f.fs = fs := by
    subst hf
    rfl
  have hb5 : f.bit 5 = sx := by
    rw [Fields.bit_of hs]
    have := Size.code_lt sz
    cases sx <;> simp only [subBit, if_true, if_false, Bool.false_eq_true, decide_eq_true_eq, decide_eq_false_iff_not] <;> omega
  have hc03 : f.code 0 3 = sz.code := by
    rw [Fields.code_of hs]
    have := Size.code_lt sz
    cases sx <;> simp only [subBit, if_true, if_false, Bool.false_eq_true] <;> omega
  have e3 : f.size = some sz := by
    unfold Fields.size
    rw [hc03]
    exact Size.ofCode_code _
  have e4 : f.d = d := by
    subst hf
    rfl
  have e5 : f.m = m := by
    unfold Fields.m
    subst hf
    rfl
  rw [parse_80 f (by subst hf; rfl)]
  simp only [e0, e1, hb5, e3, e4, e5, Option.map_some]

theorem sts (g : Guard) (fs : Bool) (sz : Size) (d : XReg) (m : MemOp) : Statement (.sts g fs sz d m) := by
  apply of_parse
  intro _ f hf
  replace hf : Fields.mem 0x81 g sz.code d m 0 0 0 fs = f := Option.some.inj hf
  have hs : f.sub = BitVec.ofNat 8 (sz.code) := by subst hf; rfl
  have e0 : f.g = g := by
    subst hf
    rfl
  have e1 : f.fs = fs := by
    subst hf
    rfl
  have hc03 : f.code 0 3 = sz.code := by
    rw [Fields.code_of hs]
    have := Size.code_lt sz
    omega
  have e2 : f.size = some sz := by
    unfold Fields.size
    rw [hc03]
    exact Size.ofCode_code _
  have e3 : f.d = d := by
    subst hf
    rfl
  have e4 : f.m = m := by
    unfold Fields.m
    subst hf
    rfl
  rw [parse_81 f (by subst hf; rfl)]
  simp only [e0, e1, e2, e3, e4, Option.map_some]

theorem atoms (g : Guard) (fs : Bool) (op : AtomOp) (sz : Size) (d : XReg) (m : MemOp) (b : XReg) : Statement (.atoms g fs op sz d m b) := by
  apply of_parse
  intro _ f hf
  replace hf : Fields.mem 0x82 g sz.code d m b op.c (BitVec.ofNat 8 op.code) fs = f := Option.some.inj hf
  have hs : f.sub = BitVec.ofNat 8 (sz.code) := by subst hf; rfl
  have e0 : f.g = g := by
    subst hf
    rfl
  have e1 : f.fs = fs := by
    subst hf
    rfl
  have e2 : AtomOp.ofCode f.c f.e.toNat = some op := by
    rw [show f.c = op.c by subst hf; rfl]
    have he : f.e = BitVec.ofNat 8 op.code := by subst hf; rfl
    rw [he, AtomOp.code_back]
    exact AtomOp.ofCode_code _
  have hc03 : f.code 0 3 = sz.code := by
    rw [Fields.code_of hs]
    have := Size.code_lt sz
    omega
  have e3 : f.size = some sz := by
    unfold Fields.size
    rw [hc03]
    exact Size.ofCode_code _
  have e4 : f.d = d := by
    subst hf
    rfl
  have e5 : f.m = m := by
    unfold Fields.m
    subst hf
    rfl
  have e6 : f.b = b := by
    subst hf
    rfl
  rw [parse_82 f (by subst hf; rfl)]
  simp only [e0, e1, e2, e3, e4, e5, e6, Option.map_some, Option.bind_some]

theorem ldc (g : Guard) (sx : Bool) (h : BitVec 2) (sz : Size) (d : XReg) (m : MemOp) : Statement (.ldc g sx h sz d m) := by
  apply of_parse
  intro _ f hf
  replace hf : Fields.mem 0x83 g (subBit sx 5 + 8 * h.toNat + sz.code) d m = f := Option.some.inj hf
  have hs : f.sub = BitVec.ofNat 8 ((subBit sx 5 + 8 * h.toNat + sz.code)) := by subst hf; rfl
  have e0 : f.g = g := by
    subst hf
    rfl
  have hb5 : f.bit 5 = sx := by
    rw [Fields.bit_of hs]
    have := h.isLt
    have := Size.code_lt sz
    cases sx <;> simp only [subBit, if_true, if_false, Bool.false_eq_true, decide_eq_true_eq, decide_eq_false_iff_not] <;> omega
  have hc32 : f.code 3 2 = h.toNat := by
    rw [Fields.code_of hs]
    have := h.isLt
    have := Size.code_lt sz
    cases sx <;> simp only [subBit, if_true, if_false, Bool.false_eq_true] <;> omega
  have e2 : BitVec.ofNat 2 (f.code 3 2) = h := by
    rw [hc32]
    exact ofNat_back _
  have hc03 : f.code 0 3 = sz.code := by
    rw [Fields.code_of hs]
    have := h.isLt
    have := Size.code_lt sz
    cases sx <;> simp only [subBit, if_true, if_false, Bool.false_eq_true] <;> omega
  have e3 : f.size = some sz := by
    unfold Fields.size
    rw [hc03]
    exact Size.ofCode_code _
  have e4 : f.d = d := by
    subst hf
    rfl
  have e5 : f.m = m := by
    unfold Fields.m
    subst hf
    rfl
  rw [parse_83 f (by subst hf; rfl)]
  simp only [e0, hb5, e2, e3, e4, e5, Option.map_some]

theorem st (g : Guard) (h : BitVec 2) (sz : Size) (d : XReg) (m : MemOp) : Statement (.st g h sz d m) := by
  apply of_parse
  intro _ f hf
  replace hf : Fields.mem 0x84 g (8 * h.toNat + sz.code) d m = f := Option.some.inj hf
  have hs : f.sub = BitVec.ofNat 8 ((8 * h.toNat + sz.code)) := by subst hf; rfl
  have e0 : f.g = g := by
    subst hf
    rfl
  have hc32 : f.code 3 2 = h.toNat := by
    rw [Fields.code_of hs]
    have := h.isLt
    have := Size.code_lt sz
    omega
  have e1 : BitVec.ofNat 2 (f.code 3 2) = h := by
    rw [hc32]
    exact ofNat_back _
  have hc03 : f.code 0 3 = sz.code := by
    rw [Fields.code_of hs]
    have := h.isLt
    have := Size.code_lt sz
    omega
  have e2 : f.size = some sz := by
    unfold Fields.size
    rw [hc03]
    exact Size.ofCode_code _
  have e3 : f.d = d := by
    subst hf
    rfl
  have e4 : f.m = m := by
    unfold Fields.m
    subst hf
    rfl
  rw [parse_84 f (by subst hf; rfl)]
  simp only [e0, e1, e2, e3, e4, Option.map_some]

theorem atomc (g : Guard) (op : AtomOp) (sz : Size) (d : XReg) (m : MemOp) (b : XReg) : Statement (.atomc g op sz d m b) := by
  apply of_parse
  intro _ f hf
  replace hf : Fields.mem 0x85 g sz.code d m b op.c (BitVec.ofNat 8 op.code) = f := Option.some.inj hf
  have hs : f.sub = BitVec.ofNat 8 (sz.code) := by subst hf; rfl
  have e0 : f.g = g := by
    subst hf
    rfl
  have e1 : AtomOp.ofCode f.c f.e.toNat = some op := by
    rw [show f.c = op.c by subst hf; rfl]
    have he : f.e = BitVec.ofNat 8 op.code := by subst hf; rfl
    rw [he, AtomOp.code_back]
    exact AtomOp.ofCode_code _
  have hc03 : f.code 0 3 = sz.code := by
    rw [Fields.code_of hs]
    have := Size.code_lt sz
    omega
  have e2 : f.size = some sz := by
    unfold Fields.size
    rw [hc03]
    exact Size.ofCode_code _
  have e3 : f.d = d := by
    subst hf
    rfl
  have e4 : f.m = m := by
    unfold Fields.m
    subst hf
    rfl
  have e5 : f.b = b := by
    subst hf
    rfl
  rw [parse_85 f (by subst hf; rfl)]
  simp only [e0, e1, e2, e3, e4, e5, Option.map_some, Option.bind_some]

theorem red (g : Guard) (op : AtomOp) (sz : Size) (d : XReg) (m : MemOp) : Statement (.red g op sz d m) := by
  apply of_parse
  intro _ f hf
  replace hf : Fields.mem 0x86 g sz.code d m 0 op.c (BitVec.ofNat 8 op.code) = f := Option.some.inj hf
  have hs : f.sub = BitVec.ofNat 8 (sz.code) := by subst hf; rfl
  have e0 : f.g = g := by
    subst hf
    rfl
  have e1 : AtomOp.ofCode f.c f.e.toNat = some op := by
    rw [show f.c = op.c by subst hf; rfl]
    have he : f.e = BitVec.ofNat 8 op.code := by subst hf; rfl
    rw [he, AtomOp.code_back]
    exact AtomOp.ofCode_code _
  have hc03 : f.code 0 3 = sz.code := by
    rw [Fields.code_of hs]
    have := Size.code_lt sz
    omega
  have e2 : f.size = some sz := by
    unfold Fields.size
    rw [hc03]
    exact Size.ofCode_code _
  have e3 : f.d = d := by
    subst hf
    rfl
  have e4 : f.m = m := by
    unfold Fields.m
    subst hf
    rfl
  rw [parse_86 f (by subst hf; rfl)]
  simp only [e0, e1, e2, e3, e4, Option.map_some, Option.bind_some]

theorem casc (g : Guard) (sz : Size) (d : XReg) (m : MemOp) (b : XReg) (c : XReg) : Statement (.casc g sz d m b c) := by
  apply of_parse
  intro _ f hf
  replace hf : Fields.mem 0x87 g sz.code d m b c = f := Option.some.inj hf
  have hs : f.sub = BitVec.ofNat 8 (sz.code) := by subst hf; rfl
  have e0 : f.g = g := by
    subst hf
    rfl
  have hc03 : f.code 0 3 = sz.code := by
    rw [Fields.code_of hs]
    have := Size.code_lt sz
    omega
  have e1 : f.size = some sz := by
    unfold Fields.size
    rw [hc03]
    exact Size.ofCode_code _
  have e2 : f.d = d := by
    subst hf
    rfl
  have e3 : f.m = m := by
    unfold Fields.m
    subst hf
    rfl
  have e4 : f.b = b := by
    subst hf
    rfl
  have e5 : f.c = c := by
    subst hf
    rfl
  rw [parse_87 f (by subst hf; rfl)]
  simp only [e0, e1, e2, e3, e4, e5, Option.map_some]

theorem lr (g : Guard) (sz : Size) (d : XReg) (m : MemOp) : Statement (.lr g sz d m) := by
  apply of_parse
  intro _ f hf
  replace hf : Fields.mem 0x88 g sz.code d m = f := Option.some.inj hf
  have hs : f.sub = BitVec.ofNat 8 (sz.code) := by subst hf; rfl
  have e0 : f.g = g := by
    subst hf
    rfl
  have hc03 : f.code 0 3 = sz.code := by
    rw [Fields.code_of hs]
    have := Size.code_lt sz
    omega
  have e1 : f.size = some sz := by
    unfold Fields.size
    rw [hc03]
    exact Size.ofCode_code _
  have e2 : f.d = d := by
    subst hf
    rfl
  have e3 : f.m = m := by
    unfold Fields.m
    subst hf
    rfl
  rw [parse_88 f (by subst hf; rfl)]
  simp only [e0, e1, e2, e3, Option.map_some]

theorem sc (g : Guard) (sz : Size) (d : XReg) (m : MemOp) (e : PReg) : Statement (.sc g sz d m e) := by
  apply of_parse
  intro _ f hf
  replace hf : Fields.mem 0x89 g sz.code d m 0 0 (p8 e) = f := Option.some.inj hf
  have hs : f.sub = BitVec.ofNat 8 (sz.code) := by subst hf; rfl
  have e0 : f.g = g := by
    subst hf
    rfl
  have hc03 : f.code 0 3 = sz.code := by
    rw [Fields.code_of hs]
    have := Size.code_lt sz
    omega
  have e1 : f.size = some sz := by
    unfold Fields.size
    rw [hc03]
    exact Size.ofCode_code _
  have e2 : f.d = d := by
    subst hf
    rfl
  have e3 : f.m = m := by
    unfold Fields.m
    subst hf
    rfl
  have e4 : f.pe = e := by
    unfold Fields.pe
    subst hf
    exact p8_back _
  rw [parse_89 f (by subst hf; rfl)]
  simp only [e0, e1, e2, e3, e4, Option.map_some]

theorem fence (g : Guard) (dom : FenceDom) : Statement (.fence g dom) := by
  apply of_parse
  intro _ f hf
  replace hf : Fields.base 0x8A g dom.code = f := Option.some.inj hf
  have hs : f.sub = BitVec.ofNat 8 (dom.code) := by subst hf; rfl
  have e0 : f.g = g := by
    subst hf
    rfl
  have hc02 : f.code 0 2 = dom.code := by
    rw [Fields.code_of hs]
    have := FenceDom.code_lt dom
    omega
  have e1 : FenceDom.ofCode (f.code 0 2) = some dom := by
    rw [hc02]
    exact FenceDom.ofCode_code _
  rw [parse_8A f (by subst hf; rfl)]
  simp only [e0, e1, Option.map_some]

theorem pref (g : Guard) (l : PrefLevel) (m : MemOp) : Statement (.pref g l m) := by
  apply of_parse
  intro _ f hf
  replace hf : Fields.mem 0x8B g (8 * l.code) 0 m = f := Option.some.inj hf
  have hs : f.sub = BitVec.ofNat 8 ((8 * l.code)) := by subst hf; rfl
  have e0 : f.g = g := by
    subst hf
    rfl
  have hc32 : f.code 3 2 = l.code := by
    rw [Fields.code_of hs]
    have := PrefLevel.code_lt l
    omega
  have e1 : PrefLevel.ofCode (f.code 3 2) = some l := by
    rw [hc32]
    exact PrefLevel.ofCode_code _
  have e2 : f.m = m := by
    unfold Fields.m
    subst hf
    rfl
  rw [parse_8B f (by subst hf; rfl)]
  simp only [e0, e1, e2, Option.map_some]

theorem subs (g : Guard) (d : XReg) (m : MemOp) (b : XReg) : Statement (.subs g d m b) := by
  apply of_parse
  intro _ f hf
  replace hf : Fields.mem 0x8C g 0 d m b = f := Option.some.inj hf
  have e0 : f.g = g := by
    subst hf
    rfl
  have e1 : f.d = d := by
    subst hf
    rfl
  have e2 : f.m = m := by
    unfold Fields.m
    subst hf
    rfl
  have e3 : f.b = b := by
    subst hf
    rfl
  rw [parse_8C f (by subst hf; rfl)]
  simp only [e0, e1, e2, e3]

theorem unsub (g : Guard) (m : MemOp) : Statement (.unsub g m) := by
  apply of_parse
  intro _ f hf
  replace hf : Fields.mem 0x8D g 0 0 m = f := Option.some.inj hf
  have e0 : f.g = g := by
    subst hf
    rfl
  have e1 : f.m = m := by
    unfold Fields.m
    subst hf
    rfl
  rw [parse_8D f (by subst hf; rfl)]
  simp only [e0, e1]

theorem stm (g : Guard) (sz : Size) (d : XReg) (m : MemOp) (b : XReg) (c : XReg) : Statement (.stm g sz d m b c) := by
  apply of_parse
  intro _ f hf
  replace hf : Fields.mem 0x8E g sz.code d m b c = f := Option.some.inj hf
  have hs : f.sub = BitVec.ofNat 8 (sz.code) := by subst hf; rfl
  have e0 : f.g = g := by
    subst hf
    rfl
  have hc03 : f.code 0 3 = sz.code := by
    rw [Fields.code_of hs]
    have := Size.code_lt sz
    omega
  have e1 : f.size = some sz := by
    unfold Fields.size
    rw [hc03]
    exact Size.ofCode_code _
  have e2 : f.d = d := by
    subst hf
    rfl
  have e3 : f.m = m := by
    unfold Fields.m
    subst hf
    rfl
  have e4 : f.b = b := by
    subst hf
    rfl
  have e5 : f.c = c := by
    subst hf
    rfl
  rw [parse_8E f (by subst hf; rfl)]
  simp only [e0, e1, e2, e3, e4, e5, Option.map_some]

theorem cpy (g : Guard) (a : XReg) : Statement (.cpy g a) := by
  apply of_parse
  intro _ f hf
  replace hf : { Fields.base 0xA0 g with a } = f := Option.some.inj hf
  have e0 : f.g = g := by
    subst hf
    rfl
  have e1 : f.a = a := by
    subst hf
    rfl
  rw [parse_A0 f (by subst hf; rfl)]
  simp only [e0, e1]

theorem gath (g : Guard) (a : XReg) : Statement (.gath g a) := by
  apply of_parse
  intro _ f hf
  replace hf : { Fields.base 0xA1 g with a } = f := Option.some.inj hf
  have e0 : f.g = g := by
    subst hf
    rfl
  have e1 : f.a = a := by
    subst hf
    rfl
  rw [parse_A1 f (by subst hf; rfl)]
  simp only [e0, e1]

theorem scat (g : Guard) (a : XReg) : Statement (.scat g a) := by
  apply of_parse
  intro _ f hf
  replace hf : { Fields.base 0xA2 g with a } = f := Option.some.inj hf
  have e0 : f.g = g := by
    subst hf
    rfl
  have e1 : f.a = a := by
    subst hf
    rfl
  rw [parse_A2 f (by subst hf; rfl)]
  simp only [e0, e1]

theorem binit (g : Guard) (m : MemOp) (b : XReg) (c : XReg) : Statement (.binit g m b c) := by
  apply of_parse
  intro _ f hf
  replace hf : Fields.mem 0xA3 g 0 0 m b c = f := Option.some.inj hf
  have e0 : f.g = g := by
    subst hf
    rfl
  have e1 : f.m = m := by
    unfold Fields.m
    subst hf
    rfl
  have e2 : f.b = b := by
    subst hf
    rfl
  have e3 : f.c = c := by
    subst hf
    rfl
  rw [parse_A3 f (by subst hf; rfl)]
  simp only [e0, e1, e2, e3]

theorem barr (g : Guard) (m : MemOp) (b : XReg) : Statement (.barr g m b) := by
  apply of_parse
  intro _ f hf
  replace hf : Fields.mem 0xA4 g 0 0 m b = f := Option.some.inj hf
  have e0 : f.g = g := by
    subst hf
    rfl
  have e1 : f.m = m := by
    unfold Fields.m
    subst hf
    rfl
  have e2 : f.b = b := by
    subst hf
    rfl
  rw [parse_A4 f (by subst hf; rfl)]
  simp only [e0, e1, e2]

theorem bwait (g : Guard) (m : MemOp) (b : XReg) : Statement (.bwait g m b) := by
  apply of_parse
  intro _ f hf
  replace hf : Fields.mem 0xA5 g 0 0 m b = f := Option.some.inj hf
  have e0 : f.g = g := by
    subst hf
    rfl
  have e1 : f.m = m := by
    unfold Fields.m
    subst hf
    rfl
  have e2 : f.b = b := by
    subst hf
    rfl
  rw [parse_A5 f (by subst hf; rfl)]
  simp only [e0, e1, e2]

theorem qpush (g : Guard) (fs : Bool) (q : QReg) (a : XReg) (e : PReg) : Statement (.qpush g fs q a e) := by
  apply of_parse
  intro _ f hf
  replace hf : { Fields.base 0xA6 g 0 fs with d := q.setWidth 8, a, e := p8 e } = f := Option.some.inj hf
  have e0 : f.g = g := by
    subst hf
    rfl
  have e1 : f.fs = fs := by
    subst hf
    rfl
  have e2 : f.d.setWidth 4 = q := by
    subst hf
    show BitVec.setWidth 4 (BitVec.setWidth 8 q) = q
    simp
  have e3 : f.a = a := by
    subst hf
    rfl
  have e4 : f.pe = e := by
    unfold Fields.pe
    subst hf
    exact p8_back _
  rw [parse_A6 f (by subst hf; rfl)]
  simp only [e0, e1, e2, e3, e4]

theorem qpop (g : Guard) (d : XReg) (q : QReg) : Statement (.qpop g d q) := by
  apply of_parse
  intro _ f hf
  replace hf : { Fields.base 0xA7 g with d, a := q.setWidth 8 } = f := Option.some.inj hf
  have hs : f.sub = BitVec.ofNat 8 (0) := by subst hf; rfl
  have e0 : f.g = g := by
    subst hf
    rfl
  have e1 : f.d = d := by
    subst hf
    rfl
  have e2 : f.a.setWidth 4 = q := by
    subst hf
    show BitVec.setWidth 4 (BitVec.setWidth 8 q) = q
    simp
  have hb0 : f.bit 0 = false := by
    rw [Fields.bit_of hs]
    rfl
  rw [parse_A7 f (by subst hf; rfl)]
  simp only [e0, e1, e2, hb0, if_true, if_false, Bool.false_eq_true]

theorem qpopNb (g : Guard) (d : XReg) (q : QReg) (e : PReg) : Statement (.qpopNb g d q e) := by
  apply of_parse
  intro _ f hf
  replace hf : { Fields.base 0xA7 g 1 with d, a := q.setWidth 8, e := p8 e } = f := Option.some.inj hf
  have hs : f.sub = BitVec.ofNat 8 (1) := by subst hf; rfl
  have e0 : f.g = g := by
    subst hf
    rfl
  have e1 : f.d = d := by
    subst hf
    rfl
  have e2 : f.a.setWidth 4 = q := by
    subst hf
    show BitVec.setWidth 4 (BitVec.setWidth 8 q) = q
    simp
  have e3 : f.pe = e := by
    unfold Fields.pe
    subst hf
    exact p8_back _
  have hb0 : f.bit 0 = true := by
    rw [Fields.bit_of hs]
    rfl
  rw [parse_A7 f (by subst hf; rfl)]
  simp only [e0, e1, e2, e3, hb0, if_true, if_false, Bool.false_eq_true]

theorem qstat (g : Guard) (d : XReg) (q : QReg) : Statement (.qstat g d q) := by
  apply of_parse
  intro _ f hf
  replace hf : { Fields.base 0xA8 g with d, a := q.setWidth 8 } = f := Option.some.inj hf
  have e0 : f.g = g := by
    subst hf
    rfl
  have e1 : f.d = d := by
    subst hf
    rfl
  have e2 : f.a.setWidth 4 = q := by
    subst hf
    show BitVec.setWidth 4 (BitVec.setWidth 8 q) = q
    simp
  rw [parse_A8 f (by subst hf; rfl)]
  simp only [e0, e1, e2]

theorem fill (g : Guard) (a : XReg) : Statement (.fill g a) := by
  apply of_parse
  intro _ f hf
  replace hf : { Fields.base 0xA9 g with a } = f := Option.some.inj hf
  have e0 : f.g = g := by
    subst hf
    rfl
  have e1 : f.a = a := by
    subst hf
    rfl
  rw [parse_A9 f (by subst hf; rfl)]
  simp only [e0, e1]

theorem cpyr (g : Guard) (a : XReg) (b : XReg) (k : BitVec 4) : Statement (.cpyr g a b k) := by
  apply of_parse
  intro _ f hf
  replace hf : { Fields.base 0xAA g with a, b, e := k.setWidth 8 } = f := Option.some.inj hf
  have e0 : f.g = g := by
    subst hf
    rfl
  have e1 : f.a = a := by
    subst hf
    rfl
  have e2 : f.b = b := by
    subst hf
    rfl
  have e3 : f.e.setWidth 4 = k := by
    subst hf
    show BitVec.setWidth 4 (BitVec.setWidth 8 k) = k
    simp
  rw [parse_AA f (by subst hf; rfl)]
  simp only [e0, e1, e2, e3]

theorem mxs (g : Guard) (a : XReg) : Statement (.mxs g a) := by
  apply of_parse
  intro _ f hf
  replace hf : { Fields.base 0xAB g with a } = f := Option.some.inj hf
  have e0 : f.g = g := by
    subst hf
    rfl
  have e1 : f.a = a := by
    subst hf
    rfl
  rw [parse_AB f (by subst hf; rfl)]
  simp only [e0, e1]

theorem coll (g : Guard) (a : XReg) : Statement (.coll g a) := by
  apply of_parse
  intro _ f hf
  replace hf : { Fields.base 0xAC g with a } = f := Option.some.inj hf
  have e0 : f.g = g := by
    subst hf
    rfl
  have e1 : f.a = a := by
    subst hf
    rfl
  rw [parse_AC f (by subst hf; rfl)]
  simp only [e0, e1]

theorem mmaq (g : Guard) (fs : Bool) (neg : Bool) (acc : IFmt) (d : XReg) (a : XReg) (b : XReg) (c : XReg) (k : FSlot) (bq : Option (BitVec 2)) : Statement (.mmaq g fs neg acc d a b c k bq) := by
  apply of_parse
  intro _ f hf
  replace hf : Instr.toFields.mma 0xB0 g fs neg acc d a b c k bq = f := Option.some.inj hf
  have hs : f.sub = BitVec.ofNat 8 (subBit neg 2 + acc.code) := by subst hf; rfl
  have e0 : f.g = g := by
    subst hf
    rfl
  have e1 : f.fs = fs := by
    subst hf
    rfl
  have hb2 : f.bit 2 = neg := by
    rw [Fields.bit_of hs]
    have := IFmt.code_lt acc
    cases neg <;> simp only [subBit, if_true, if_false, Bool.false_eq_true, decide_eq_true_eq, decide_eq_false_iff_not] <;> omega
  have hc02 : f.code 0 2 = acc.code := by
    rw [Fields.code_of hs]
    have := IFmt.code_lt acc
    cases neg <;> simp only [subBit, if_true, if_false, Bool.false_eq_true] <;> omega
  have e3 : IFmt.ofCode (f.code 0 2) = some acc := by
    rw [hc02]
    exact IFmt.ofCode_code _
  have e4 : f.d = d := by
    subst hf
    rfl
  have e5 : f.a = a := by
    subst hf
    rfl
  have e6 : f.b = b := by
    subst hf
    rfl
  have e7 : f.c = c := by
    subst hf
    rfl
  have e8 : f.k3 = k := by
    unfold Fields.k3
    subst hf
    show BitVec.setWidth 3 ((0 : BitVec 2) ++ bq.getD 0 ++ BitVec.ofBool bq.isSome ++ k) = k
    apply BitVec.eq_of_getLsbD_eq
    intro i hi
    rw [BitVec.getLsbD_setWidth, BitVec.getLsbD_append]
    simp [hi]
  have e9 : (if f.e.getLsbD 3 = true then some (f.e.extractLsb' 4 2) else none) = bq := by
    exact bq_self k bq f.e (by subst hf; rfl)
  rw [parse_B0 f (by subst hf; rfl)]
  simp only [e0, e1, hb2, e3, e4, e5, e6, e7, e8, e9, Option.map_some]

theorem mmaz (g : Guard) (fs : Bool) (neg : Bool) (acc : IFmt) (d : XReg) (a : XReg) (b : XReg) (c : XReg) (k : FSlot) (bq : Option (BitVec 2)) : Statement (.mmaz g fs neg acc d a b c k bq) := by
  apply of_parse
  intro _ f hf
  replace hf : Instr.toFields.mma 0xB1 g fs neg acc d a b c k bq = f := Option.some.inj hf
  have hs : f.sub = BitVec.ofNat 8 (subBit neg 2 + acc.code) := by subst hf; rfl
  have e0 : f.g = g := by
    subst hf
    rfl
  have e1 : f.fs = fs := by
    subst hf
    rfl
  have hb2 : f.bit 2 = neg := by
    rw [Fields.bit_of hs]
    have := IFmt.code_lt acc
    cases neg <;> simp only [subBit, if_true, if_false, Bool.false_eq_true, decide_eq_true_eq, decide_eq_false_iff_not] <;> omega
  have hc02 : f.code 0 2 = acc.code := by
    rw [Fields.code_of hs]
    have := IFmt.code_lt acc
    cases neg <;> simp only [subBit, if_true, if_false, Bool.false_eq_true] <;> omega
  have e3 : IFmt.ofCode (f.code 0 2) = some acc := by
    rw [hc02]
    exact IFmt.ofCode_code _
  have e4 : f.d = d := by
    subst hf
    rfl
  have e5 : f.a = a := by
    subst hf
    rfl
  have e6 : f.b = b := by
    subst hf
    rfl
  have e7 : f.c = c := by
    subst hf
    rfl
  have e8 : f.k3 = k := by
    unfold Fields.k3
    subst hf
    show BitVec.setWidth 3 ((0 : BitVec 2) ++ bq.getD 0 ++ BitVec.ofBool bq.isSome ++ k) = k
    apply BitVec.eq_of_getLsbD_eq
    intro i hi
    rw [BitVec.getLsbD_setWidth, BitVec.getLsbD_append]
    simp [hi]
  have e9 : (if f.e.getLsbD 3 = true then some (f.e.extractLsb' 4 2) else none) = bq := by
    exact bq_self k bq f.e (by subst hf; rfl)
  rw [parse_B1 f (by subst hf; rfl)]
  simp only [e0, e1, hb2, e3, e4, e5, e6, e7, e8, e9, Option.map_some]

theorem talloc (g : Guard) (d : XReg) (e : PReg) (n : BitVec 11) : Statement (.talloc g d e n) := by
  apply of_parse
  intro _ f hf
  replace hf : { Fields.base 0xB2 g with d, e := p8 e, imm := n.setWidth 32 } = f := Option.some.inj hf
  have e0 : f.g = g := by
    subst hf
    rfl
  have e1 : f.d = d := by
    subst hf
    rfl
  have e2 : f.pe = e := by
    unfold Fields.pe
    subst hf
    exact p8_back _
  have e3 : f.imm.setWidth 11 = n := by
    subst hf
    show BitVec.setWidth 11 (BitVec.setWidth 32 n) = n
    simp
  rw [parse_B2 f (by subst hf; rfl)]
  simp only [e0, e1, e2, e3]

theorem tfree (g : Guard) : Statement (.tfree g) := by
  apply of_parse
  intro _ f hf
  replace hf : Fields.base 0xB3 g = f := Option.some.inj hf
  have e0 : f.g = g := by
    subst hf
    rfl
  rw [parse_B3 f (by subst hf; rfl)]
  simp only [e0]

theorem tld (g : Guard) (fs : Bool) (t : IFmt) (d : XReg) (m : MemOp) : Statement (.tld g fs t d m) := by
  apply of_parse
  intro _ f hf
  replace hf : Fields.mem 0xB4 g t.code d m 0 0 0 fs = f := Option.some.inj hf
  have hs : f.sub = BitVec.ofNat 8 (t.code) := by subst hf; rfl
  have e0 : f.g = g := by
    subst hf
    rfl
  have e1 : f.fs = fs := by
    subst hf
    rfl
  have hc02 : f.code 0 2 = t.code := by
    rw [Fields.code_of hs]
    have := IFmt.code_lt t
    omega
  have e2 : IFmt.ofCode (f.code 0 2) = some t := by
    rw [hc02]
    exact IFmt.ofCode_code _
  have e3 : f.d = d := by
    subst hf
    rfl
  have e4 : f.m = m := by
    unfold Fields.m
    subst hf
    rfl
  rw [parse_B4 f (by subst hf; rfl)]
  simp only [e0, e1, e2, e3, e4, Option.map_some]

theorem tst (g : Guard) (fs : Bool) (img : ImgFmt) (t : IFmt) (d : XReg) (m : MemOp) : Statement (.tst g fs img t d m) := by
  apply of_parse
  intro _ f hf
  replace hf : Fields.mem 0xB5 g (4 * img.code + t.code) d m 0 0 0 fs = f := Option.some.inj hf
  have hs : f.sub = BitVec.ofNat 8 ((4 * img.code + t.code)) := by subst hf; rfl
  have e0 : f.g = g := by
    subst hf
    rfl
  have e1 : f.fs = fs := by
    subst hf
    rfl
  have hc23 : f.code 2 3 = img.code := by
    rw [Fields.code_of hs]
    have := ImgFmt.code_lt img
    have := IFmt.code_lt t
    omega
  have e2 : ImgFmt.ofCode (f.code 2 3) = some img := by
    rw [hc23]
    exact ImgFmt.ofCode_code _
  have hc02 : f.code 0 2 = t.code := by
    rw [Fields.code_of hs]
    have := ImgFmt.code_lt img
    have := IFmt.code_lt t
    omega
  have e3 : IFmt.ofCode (f.code 0 2) = some t := by
    rw [hc02]
    exact IFmt.ofCode_code _
  have e4 : f.d = d := by
    subst hf
    rfl
  have e5 : f.m = m := by
    unfold Fields.m
    subst hf
    rfl
  rw [parse_B5 f (by subst hf; rfl)]
  simp only [e0, e1, e2, e3, e4, e5, Option.map_some, Option.bind_some]

theorem tzero (g : Guard) (fs : Bool) (t : IFmt) (d : XReg) : Statement (.tzero g fs t d) := by
  apply of_parse
  intro _ f hf
  replace hf : { Fields.base 0xB6 g t.code fs with d } = f := Option.some.inj hf
  have hs : f.sub = BitVec.ofNat 8 (t.code) := by subst hf; rfl
  have e0 : f.g = g := by
    subst hf
    rfl
  have e1 : f.fs = fs := by
    subst hf
    rfl
  have hc02 : f.code 0 2 = t.code := by
    rw [Fields.code_of hs]
    have := IFmt.code_lt t
    omega
  have e2 : IFmt.ofCode (f.code 0 2) = some t := by
    rw [hc02]
    exact IFmt.ofCode_code _
  have e3 : f.d = d := by
    subst hf
    rfl
  rw [parse_B6 f (by subst hf; rfl)]
  simp only [e0, e1, e2, e3, Option.map_some]

theorem tspill (g : Guard) (fs : Bool) (d : XReg) (m : MemOp) (n : BitVec 3) : Statement (.tspill g fs d m n) := by
  apply of_parse
  intro _ f hf
  replace hf : Fields.mem 0xB7 g 0 d m 0 0 (n.setWidth 8) fs = f := Option.some.inj hf
  have e0 : f.g = g := by
    subst hf
    rfl
  have e1 : f.fs = fs := by
    subst hf
    rfl
  have e2 : f.d = d := by
    subst hf
    rfl
  have e3 : f.m = m := by
    unfold Fields.m
    subst hf
    rfl
  have e4 : f.k3 = n := by
    unfold Fields.k3
    subst hf
    show BitVec.setWidth 3 (BitVec.setWidth 8 n) = n
    simp
  rw [parse_B7 f (by subst hf; rfl)]
  simp only [e0, e1, e2, e3, e4]

theorem tfill (g : Guard) (fs : Bool) (d : XReg) (m : MemOp) (n : BitVec 3) : Statement (.tfill g fs d m n) := by
  apply of_parse
  intro _ f hf
  replace hf : Fields.mem 0xB8 g 0 d m 0 0 (n.setWidth 8) fs = f := Option.some.inj hf
  have e0 : f.g = g := by
    subst hf
    rfl
  have e1 : f.fs = fs := by
    subst hf
    rfl
  have e2 : f.d = d := by
    subst hf
    rfl
  have e3 : f.m = m := by
    unfold Fields.m
    subst hf
    rfl
  have e4 : f.k3 = n := by
    unfold Fields.k3
    subst hf
    show BitVec.setWidth 3 (BitVec.setWidth 8 n) = n
    simp
  rw [parse_B8 f (by subst hf; rfl)]
  simp only [e0, e1, e2, e3, e4]

theorem frags (g : Guard) (fs : Bool) (res : IFmt) (t : IFmt) (d : XReg) (a : XReg) : Statement (.frags g fs res t d a) := by
  apply of_parse
  intro _ f hf
  replace hf : { Fields.base 0xB9 g (4 * res.code + t.code) fs with d, a } = f := Option.some.inj hf
  have hs : f.sub = BitVec.ofNat 8 ((4 * res.code + t.code)) := by subst hf; rfl
  have e0 : f.g = g := by
    subst hf
    rfl
  have e1 : f.fs = fs := by
    subst hf
    rfl
  have hc22 : f.code 2 2 = res.code := by
    rw [Fields.code_of hs]
    have := IFmt.code_lt res
    have := IFmt.code_lt t
    omega
  have e2 : IFmt.ofCode (f.code 2 2) = some res := by
    rw [hc22]
    exact IFmt.ofCode_code _
  have hc02 : f.code 0 2 = t.code := by
    rw [Fields.code_of hs]
    have := IFmt.code_lt res
    have := IFmt.code_lt t
    omega
  have e3 : IFmt.ofCode (f.code 0 2) = some t := by
    rw [hc02]
    exact IFmt.ofCode_code _
  have e4 : f.d = d := by
    subst hf
    rfl
  have e5 : f.a = a := by
    subst hf
    rfl
  rw [parse_B9 f (by subst hf; rfl)]
  simp only [e0, e1, e2, e3, e4, e5, Option.map_some, Option.bind_some]

theorem tsig (g : Guard) (fs : Bool) (t : IFmt) (d : XReg) (a : XReg) : Statement (.tsig g fs t d a) := by
  apply of_parse
  intro _ f hf
  replace hf : { Fields.base 0xBA g t.code fs with d, a } = f := Option.some.inj hf
  have hs : f.sub = BitVec.ofNat 8 (t.code) := by subst hf; rfl
  have e0 : f.g = g := by
    subst hf
    rfl
  have e1 : f.fs = fs := by
    subst hf
    rfl
  have hc02 : f.code 0 2 = t.code := by
    rw [Fields.code_of hs]
    have := IFmt.code_lt t
    omega
  have e2 : IFmt.ofCode (f.code 0 2) = some t := by
    rw [hc02]
    exact IFmt.ofCode_code _
  have e3 : f.d = d := by
    subst hf
    rfl
  have e4 : f.a = a := by
    subst hf
    rfl
  rw [parse_BA f (by subst hf; rfl)]
  simp only [e0, e1, e2, e3, e4, Option.map_some]

theorem ldg (g : Guard) (op : LdgOp) (ty : LdgTy) (sz : Size) (d : XReg) (m : MemOp) (cg : CGReg) (e : PReg) : Statement (.ldg g op ty sz d m cg e) := by
  apply of_parse
  intro _ f hf
  replace hf : Fields.mem 0xC0 g (32 * op.code + 8 * ty.code + sz.code) d m (cg.setWidth 8) 0 (p8 e) = f := Option.some.inj hf
  have hs : f.sub = BitVec.ofNat 8 ((32 * op.code + 8 * ty.code + sz.code)) := by subst hf; rfl
  have e0 : f.g = g := by
    subst hf
    rfl
  have hc53 : f.code 5 3 = op.code := by
    rw [Fields.code_of hs]
    have := LdgOp.code_lt op
    have := LdgTy.code_lt ty
    have := Size.code_lt sz
    omega
  have e1 : LdgOp.ofCode (f.code 5 3) = some op := by
    rw [hc53]
    exact LdgOp.ofCode_code _
  have hc32 : f.code 3 2 = ty.code := by
    rw [Fields.code_of hs]
    have := LdgOp.code_lt op
    have := LdgTy.code_lt ty
    have := Size.code_lt sz
    omega
  have e2 : LdgTy.ofCode (f.code 3 2) = ty := by
    rw [hc32]
    exact LdgTy.ofCode_code _
  have hc03 : f.code 0 3 = sz.code := by
    rw [Fields.code_of hs]
    have := LdgOp.code_lt op
    have := LdgTy.code_lt ty
    have := Size.code_lt sz
    omega
  have e3 : f.size = some sz := by
    unfold Fields.size
    rw [hc03]
    exact Size.ofCode_code _
  have e4 : f.d = d := by
    subst hf
    rfl
  have e5 : f.m = m := by
    unfold Fields.m
    subst hf
    rfl
  have e6 : f.b.setWidth 2 = cg := by
    subst hf
    show BitVec.setWidth 2 (BitVec.setWidth 8 cg) = cg
    simp
  have e7 : f.pe = e := by
    unfold Fields.pe
    subst hf
    exact p8_back _
  rw [parse_C0 f (by subst hf; rfl)]
  simp only [e0, e1, e2, e3, e4, e5, e6, e7, Option.map_some, Option.bind_some]

theorem cbr (g : Guard) (all : Bool) (pt : Bool) (a : PReg) (m : MReg) (off : Word) (s : Slot) : Statement (.cbr g all pt a m off s) := by
  apply of_parse
  intro _ f hf
  replace hf : { Fields.base 0xC1 g (subBit all 0 + subBit pt 1) with a := p8 a, b := m.setWidth 8, e := s.setWidth 8, imm := off } = f := Option.some.inj hf
  have hs : f.sub = BitVec.ofNat 8 ((subBit all 0 + subBit pt 1)) := by subst hf; rfl
  have e0 : f.g = g := by
    subst hf
    rfl
  have hb0 : f.bit 0 = all := by
    rw [Fields.bit_of hs]
    cases all <;> cases pt <;> simp only [subBit, if_true, if_false, Bool.false_eq_true, decide_eq_true_eq, decide_eq_false_iff_not] <;> omega
  have hb1 : f.bit 1 = pt := by
    rw [Fields.bit_of hs]
    cases all <;> cases pt <;> simp only [subBit, if_true, if_false, Bool.false_eq_true, decide_eq_true_eq, decide_eq_false_iff_not] <;> omega
  have e3 : f.pa = a := by
    unfold Fields.pa
    subst hf
    exact p8_back _
  have e4 : f.b.setWidth 2 = m := by
    subst hf
    show BitVec.setWidth 2 (BitVec.setWidth 8 m) = m
    simp
  have e5 : f.imm = off := by
    subst hf
    rfl
  have e6 : f.slot = s := by
    unfold Fields.slot
    subst hf
    show BitVec.setWidth 3 (BitVec.setWidth 8 s) = s
    simp
  rw [parse_C1 f (by subst hf; rfl)]
  simp only [e0, hb0, hb1, e3, e4, e5, e6]

theorem csync (g : Guard) (ra : Bool) (m : MReg) : Statement (.csync g ra m) := by
  apply of_parse
  intro _ f hf
  replace hf : { Fields.base 0xC2 g (subBit ra 0) with a := m.setWidth 8 } = f := Option.some.inj hf
  have hs : f.sub = BitVec.ofNat 8 ((subBit ra 0)) := by subst hf; rfl
  have e0 : f.g = g := by
    subst hf
    rfl
  have hb0 : f.bit 0 = ra := by
    rw [Fields.bit_of hs]
    cases ra <;> simp only [subBit, if_true, if_false, Bool.false_eq_true, decide_eq_true_eq, decide_eq_false_iff_not] <;> omega
  have e2 : f.a.setWidth 2 = m := by
    subst hf
    show BitVec.setWidth 2 (BitVec.setWidth 8 m) = m
    simp
  rw [parse_C2 f (by subst hf; rfl)]
  simp only [e0, hb0, e2]

theorem mbrd (g : Guard) (sl : MbrdSel) (d : XReg) (m : MReg) : Statement (.mbrd g sl d m) := by
  apply of_parse
  intro _ f hf
  replace hf : { Fields.base 0xC3 g sl.code with d, a := m.setWidth 8 } = f := Option.some.inj hf
  have hs : f.sub = BitVec.ofNat 8 (sl.code) := by subst hf; rfl
  have e0 : f.g = g := by
    subst hf
    rfl
  have hc02 : f.code 0 2 = sl.code := by
    rw [Fields.code_of hs]
    have := MbrdSel.code_lt sl
    omega
  have e1 : MbrdSel.ofCode (f.code 0 2) = sl := by
    rw [hc02]
    exact MbrdSel.ofCode_code _
  have e2 : f.d = d := by
    subst hf
    rfl
  have e3 : f.a.setWidth 2 = m := by
    subst hf
    show BitVec.setWidth 2 (BitVec.setWidth 8 m) = m
    simp
  rw [parse_C3 f (by subst hf; rfl)]
  simp only [e0, e1, e2, e3]

theorem gbar (g : Guard) (ra : Bool) (cg : CGReg) : Statement (.gbar g ra cg) := by
  apply of_parse
  intro _ f hf
  replace hf : { Fields.base 0xC4 g (subBit ra 0) with a := cg.setWidth 8 } = f := Option.some.inj hf
  have hs : f.sub = BitVec.ofNat 8 ((subBit ra 0)) := by subst hf; rfl
  have e0 : f.g = g := by
    subst hf
    rfl
  have hb0 : f.bit 0 = ra := by
    rw [Fields.bit_of hs]
    cases ra <;> simp only [subBit, if_true, if_false, Bool.false_eq_true, decide_eq_true_eq, decide_eq_false_iff_not] <;> omega
  have e2 : f.a.setWidth 2 = cg := by
    subst hf
    show BitVec.setWidth 2 (BitVec.setWidth 8 cg) = cg
    simp
  rw [parse_C4 f (by subst hf; rfl)]
  simp only [e0, hb0, e2]

theorem seg (g : Guard) (free : Bool) (d : BitVec 8) (n : BitVec 4) (off : Word) (s : Slot) : Statement (.seg g free d n off s) := by
  apply of_parse
  intro _ f hf
  replace hf : { Fields.base 0xD0 g (subBit free 0) with d, e := (0 : BitVec 1) ++ n ++ s, imm := off } = f := Option.some.inj hf
  have hs : f.sub = BitVec.ofNat 8 ((subBit free 0)) := by subst hf; rfl
  have e0 : f.g = g := by
    subst hf
    rfl
  have hb0 : f.bit 0 = free := by
    rw [Fields.bit_of hs]
    cases free <;> simp only [subBit, if_true, if_false, Bool.false_eq_true, decide_eq_true_eq, decide_eq_false_iff_not] <;> omega
  have e2 : f.d = d := by
    subst hf
    rfl
  have e3 : f.e.extractLsb' 3 4 = n := by
    subst hf
    exact (append_high _ s 0 4).trans (append_low _ n)
  have e4 : f.imm = off := by
    subst hf
    rfl
  have e5 : f.slot = s := by
    unfold Fields.slot
    subst hf
    show BitVec.setWidth 3 ((0 : BitVec 1) ++ n ++ s) = s
    apply BitVec.eq_of_getLsbD_eq
    intro i hi
    rw [BitVec.getLsbD_setWidth, BitVec.getLsbD_append]
    simp [hi]
  rw [parse_D0 f (by subst hf; rfl)]
  simp only [e0, hb0, e2, e3, e4, e5]

theorem yield (g : Guard) (off : Word) (s : Slot) : Statement (.yield g off s) := by
  apply of_parse
  intro _ f hf
  replace hf : { Fields.base 0xD1 g with e := s.setWidth 8, imm := off } = f := Option.some.inj hf
  have e0 : f.g = g := by
    subst hf
    rfl
  have e1 : f.imm = off := by
    subst hf
    rfl
  have e2 : f.slot = s := by
    unfold Fields.slot
    subst hf
    show BitVec.setWidth 3 (BitVec.setWidth 8 s) = s
    simp
  rw [parse_D1 f (by subst hf; rfl)]
  simp only [e0, e1, e2]

theorem launch (g : Guard) (loc : Bool) (d : XReg) (m : MemOp) : Statement (.launch g loc d m) := by
  apply of_parse
  intro _ f hf
  replace hf : Fields.mem 0xD2 g (subBit loc 0) d m = f := Option.some.inj hf
  have hs : f.sub = BitVec.ofNat 8 ((subBit loc 0)) := by subst hf; rfl
  have e0 : f.g = g := by
    subst hf
    rfl
  have hb0 : f.bit 0 = loc := by
    rw [Fields.bit_of hs]
    cases loc <;> simp only [subBit, if_true, if_false, Bool.false_eq_true, decide_eq_true_eq, decide_eq_false_iff_not] <;> omega
  have e2 : f.d = d := by
    subst hf
    rfl
  have e3 : f.m = m := by
    unfold Fields.m
    subst hf
    rfl
  rw [parse_D2 f (by subst hf; rfl)]
  simp only [e0, hb0, e2, e3]

theorem spawn (g : Guard) (d : XReg) (a : XReg) : Statement (.spawn g d a) := by
  apply of_parse
  intro _ f hf
  replace hf : { Fields.base 0xD3 g with d, a } = f := Option.some.inj hf
  have e0 : f.g = g := by
    subst hf
    rfl
  have e1 : f.d = d := by
    subst hf
    rfl
  have e2 : f.a = a := by
    subst hf
    rfl
  rw [parse_D3 f (by subst hf; rfl)]
  simp only [e0, e1, e2]

theorem fwd (g : Guard) (b : Option XReg) (d : BitVec 8) (n : BitVec 4) : Statement (.fwd g b d n) := by
  apply of_parse
  intro _ f hf
  replace hf : { Fields.base 0xD4 g (subBit b.isNone 0) with d, b := b.getD 0, e := (0 : BitVec 1) ++ n ++ (0 : BitVec 3) } = f := Option.some.inj hf
  have hs : f.sub = BitVec.ofNat 8 ((subBit b.isNone 0)) := by subst hf; rfl
  have e0 : f.g = g := by
    subst hf
    rfl
  have hb0 : f.bit 0 = b.isNone := by
    rw [Fields.bit_of hs]
    generalize b.isNone = b0
    cases b0 <;> simp only [subBit, if_true, if_false, Bool.false_eq_true, decide_eq_true_eq, decide_eq_false_iff_not] <;> omega
  have e1 : (if f.bit 0 = true then none else some f.b) = b := by
    rw [hb0, show f.b = b.getD 0 by subst hf; rfl]
    exact optNone_self _ _
  have e2 : f.d = d := by
    subst hf
    rfl
  have e3 : f.e.extractLsb' 3 4 = n := by
    subst hf
    exact (append_high _ (0 : BitVec 3) 0 4).trans (append_low _ n)
  rw [parse_D4 f (by subst hf; rfl)]
  simp only [e0, e1, e2, e3]

theorem mbox (g : Guard) (d : XReg) (a : XReg) (b : XReg) : Statement (.mbox g d a b) := by
  apply of_parse
  intro _ f hf
  replace hf : { Fields.base 0xD5 g with d, a, b } = f := Option.some.inj hf
  have e0 : f.g = g := by
    subst hf
    rfl
  have e1 : f.d = d := by
    subst hf
    rfl
  have e2 : f.a = a := by
    subst hf
    rfl
  have e3 : f.b = b := by
    subst hf
    rfl
  rw [parse_D5 f (by subst hf; rfl)]
  simp only [e0, e1, e2, e3]

theorem evset (g : Guard) (v : EvForm) : Statement (.evset g v) := by
  apply of_parse
  intro _ f hf
  replace hf : { Fields.base 0xD6 g v.code with a := v.a, imm := v.imm32 } = f := Option.some.inj hf
  have hs : f.sub = BitVec.ofNat 8 (v.code) := by subst hf; rfl
  have e0 : f.g = g := by
    subst hf
    rfl
  have hc02 : f.code 0 2 = v.code := by
    rw [Fields.code_of hs]
    have := EvForm.code_lt v
    omega
  have e1 : EvForm.ofCode f.a f.imm (f.code 0 2) = some v := by
    rw [show f.a = v.a by subst hf; rfl]
    rw [show f.imm = v.imm32 by subst hf; rfl]
    rw [hc02]
    exact EvForm.ofCode_code _
  rw [parse_D6 f (by subst hf; rfl)]
  simp only [e0, e1, Option.map_some]

theorem evclr (g : Guard) (v : EvForm) : Statement (.evclr g v) := by
  apply of_parse
  intro _ f hf
  replace hf : { Fields.base 0xD7 g v.code with a := v.a, imm := v.imm32 } = f := Option.some.inj hf
  have hs : f.sub = BitVec.ofNat 8 (v.code) := by subst hf; rfl
  have e0 : f.g = g := by
    subst hf
    rfl
  have hc02 : f.code 0 2 = v.code := by
    rw [Fields.code_of hs]
    have := EvForm.code_lt v
    omega
  have e1 : EvForm.ofCode f.a f.imm (f.code 0 2) = some v := by
    rw [show f.a = v.a by subst hf; rfl]
    rw [show f.imm = v.imm32 by subst hf; rfl]
    rw [hc02]
    exact EvForm.ofCode_code _
  rw [parse_D7 f (by subst hf; rfl)]
  simp only [e0, e1, Option.map_some]

theorem evwait (g : Guard) (v : EvForm) : Statement (.evwait g v) := by
  apply of_parse
  intro _ f hf
  replace hf : { Fields.base 0xD8 g v.code with a := v.a, imm := v.imm32 } = f := Option.some.inj hf
  have hs : f.sub = BitVec.ofNat 8 (v.code) := by subst hf; rfl
  have e0 : f.g = g := by
    subst hf
    rfl
  have hc02 : f.code 0 2 = v.code := by
    rw [Fields.code_of hs]
    have := EvForm.code_lt v
    omega
  have e1 : EvForm.ofCode f.a f.imm (f.code 0 2) = some v := by
    rw [show f.a = v.a by subst hf; rfl]
    rw [show f.imm = v.imm32 by subst hf; rfl]
    rw [hc02]
    exact EvForm.ofCode_code _
  rw [parse_D8 f (by subst hf; rfl)]
  simp only [e0, e1, Option.map_some]

theorem evqpop (g : Guard) (d : XReg) : Statement (.evqpop g d) := by
  apply of_parse
  intro _ f hf
  replace hf : { Fields.base 0xD9 g with d } = f := Option.some.inj hf
  have hs : f.sub = BitVec.ofNat 8 (0) := by subst hf; rfl
  have e0 : f.g = g := by
    subst hf
    rfl
  have e1 : f.d = d := by
    subst hf
    rfl
  have hb0 : f.bit 0 = false := by
    rw [Fields.bit_of hs]
    rfl
  rw [parse_D9 f (by subst hf; rfl)]
  simp only [e0, e1, hb0, if_true, if_false, Bool.false_eq_true]

theorem evqpopNb (g : Guard) (d : XReg) : Statement (.evqpopNb g d) := by
  apply of_parse
  intro _ f hf
  replace hf : { Fields.base 0xD9 g 1 with d } = f := Option.some.inj hf
  have hs : f.sub = BitVec.ofNat 8 (1) := by subst hf; rfl
  have e0 : f.g = g := by
    subst hf
    rfl
  have e1 : f.d = d := by
    subst hf
    rfl
  have hb0 : f.bit 0 = true := by
    rw [Fields.bit_of hs]
    rfl
  rw [parse_D9 f (by subst hf; rfl)]
  simp only [e0, e1, hb0, if_true, if_false, Bool.false_eq_true]

theorem rbegin (g : Guard) (d : XReg) (off : Word) (s : Slot) : Statement (.rbegin g d off s) := by
  apply of_parse
  intro _ f hf
  replace hf : { Fields.base 0xE0 g with d, e := s.setWidth 8, imm := off } = f := Option.some.inj hf
  have e0 : f.g = g := by
    subst hf
    rfl
  have e1 : f.d = d := by
    subst hf
    rfl
  have e2 : f.imm = off := by
    subst hf
    rfl
  have e3 : f.slot = s := by
    unfold Fields.slot
    subst hf
    show BitVec.setWidth 3 (BitVec.setWidth 8 s) = s
    simp
  rw [parse_E0 f (by subst hf; rfl)]
  simp only [e0, e1, e2, e3]

theorem rkeep (g : Guard) (a : XReg) (n : BitVec 4) : Statement (.rkeep g a n) := by
  apply of_parse
  intro _ f hf
  replace hf : { Fields.base 0xE1 g with a, e := n.setWidth 8 } = f := Option.some.inj hf
  have e0 : f.g = g := by
    subst hf
    rfl
  have e1 : f.a = a := by
    subst hf
    rfl
  have e2 : f.e.setWidth 4 = n := by
    subst hf
    show BitVec.setWidth 4 (BitVec.setWidth 8 n) = n
    simp
  rw [parse_E1 f (by subst hf; rfl)]
  simp only [e0, e1, e2]

theorem rend (g : Guard) : Statement (.rend g) := by
  apply of_parse
  intro _ f hf
  replace hf : Fields.base 0xE2 g = f := Option.some.inj hf
  have e0 : f.g = g := by
    subst hf
    rfl
  rw [parse_E2 f (by subst hf; rfl)]
  simp only [e0]

theorem rabort (g : Guard) : Statement (.rabort g) := by
  apply of_parse
  intro _ f hf
  replace hf : Fields.base 0xE3 g = f := Option.some.inj hf
  have e0 : f.g = g := by
    subst hf
    rfl
  rw [parse_E3 f (by subst hf; rfl)]
  simp only [e0]

theorem errlogPop (g : Guard) (d : XReg) : Statement (.errlogPop g d) := by
  apply of_parse
  intro _ f hf
  replace hf : { Fields.base 0xE4 g with d } = f := Option.some.inj hf
  have hs : f.sub = BitVec.ofNat 8 (0) := by subst hf; rfl
  have e0 : f.g = g := by
    subst hf
    rfl
  have e1 : f.d = d := by
    subst hf
    rfl
  have hc : f.code 0 2 = 0 := by
    rw [Fields.code_of hs]
    rfl
  rw [parse_E4 f (by subst hf; rfl)]
  simp only [e0, e1, hc]

theorem errlogStat (g : Guard) (d : XReg) : Statement (.errlogStat g d) := by
  apply of_parse
  intro _ f hf
  replace hf : { Fields.base 0xE4 g 1 with d } = f := Option.some.inj hf
  have hs : f.sub = BitVec.ofNat 8 (1) := by subst hf; rfl
  have e0 : f.g = g := by
    subst hf
    rfl
  have e1 : f.d = d := by
    subst hf
    rfl
  have hc : f.code 0 2 = 1 := by
    rw [Fields.code_of hs]
    rfl
  rw [parse_E4 f (by subst hf; rfl)]
  simp only [e0, e1, hc]

theorem errlogInj (g : Guard) (k : BitVec 2) : Statement (.errlogInj g k) := by
  apply of_parse
  intro _ f hf
  replace hf : { Fields.base 0xE4 g 2 with imm := k.setWidth 32 } = f := Option.some.inj hf
  have hs : f.sub = BitVec.ofNat 8 (2) := by subst hf; rfl
  have e0 : f.g = g := by
    subst hf
    rfl
  have e1 : f.imm.setWidth 2 = k := by
    subst hf
    show BitVec.setWidth 2 (BitVec.setWidth 32 k) = k
    simp
  have hc : f.code 0 2 = 2 := by
    rw [Fields.code_of hs]
    rfl
  rw [parse_E4 f (by subst hf; rfl)]
  simp only [e0, e1, hc]

theorem srd (g : Guard) (w : Bool) (d : XReg) (n : BitVec 12) : Statement (.srd g w d n) := by
  apply of_parse
  intro _ f hf
  replace hf : { Fields.base 0xE8 g (subBit w 0) with d, imm := n.setWidth 32 } = f := Option.some.inj hf
  have hs : f.sub = BitVec.ofNat 8 ((subBit w 0)) := by subst hf; rfl
  have e0 : f.g = g := by
    subst hf
    rfl
  have hb0 : f.bit 0 = w := by
    rw [Fields.bit_of hs]
    cases w <;> simp only [subBit, if_true, if_false, Bool.false_eq_true, decide_eq_true_eq, decide_eq_false_iff_not] <;> omega
  have e2 : f.d = d := by
    subst hf
    rfl
  have e3 : f.imm.setWidth 12 = n := by
    subst hf
    show BitVec.setWidth 12 (BitVec.setWidth 32 n) = n
    simp
  rw [parse_E8 f (by subst hf; rfl)]
  simp only [e0, hb0, e2, e3]

theorem swr (g : Guard) (w : Bool) (a : XReg) (n : BitVec 12) : Statement (.swr g w a n) := by
  apply of_parse
  intro _ f hf
  replace hf : { Fields.base 0xE9 g (subBit w 0) with a, imm := n.setWidth 32 } = f := Option.some.inj hf
  have hs : f.sub = BitVec.ofNat 8 ((subBit w 0)) := by subst hf; rfl
  have e0 : f.g = g := by
    subst hf
    rfl
  have hb0 : f.bit 0 = w := by
    rw [Fields.bit_of hs]
    cases w <;> simp only [subBit, if_true, if_false, Bool.false_eq_true, decide_eq_true_eq, decide_eq_false_iff_not] <;> omega
  have e2 : f.a = a := by
    subst hf
    rfl
  have e3 : f.imm.setWidth 12 = n := by
    subst hf
    show BitVec.setWidth 12 (BitVec.setWidth 32 n) = n
    simp
  rw [parse_E9 f (by subst hf; rfl)]
  simp only [e0, hb0, e2, e3]

theorem tret (g : Guard) : Statement (.tret g) := by
  apply of_parse
  intro _ f hf
  replace hf : Fields.base 0xEA g = f := Option.some.inj hf
  have e0 : f.g = g := by
    subst hf
    rfl
  rw [parse_EA f (by subst hf; rfl)]
  simp only [e0]

theorem esc (g : Guard) : Statement (.esc g) := by
  apply of_parse
  intro _ f hf
  replace hf : Fields.base 0xEB g = f := Option.some.inj hf
  have e0 : f.g = g := by
    subst hf
    rfl
  rw [parse_EB f (by subst hf; rfl)]
  simp only [e0]

theorem winset (g : Guard) (w : WReg) (a : XReg) : Statement (.winset g w a) := by
  apply of_parse
  intro _ f hf
  replace hf : { Fields.base 0xEC g with d := w.setWidth 8, a } = f := Option.some.inj hf
  have hs : f.sub = BitVec.ofNat 8 (0) := by subst hf; rfl
  have e0 : f.g = g := by
    subst hf
    rfl
  have e1 : f.d.setWidth 3 = w := by
    subst hf
    show BitVec.setWidth 3 (BitVec.setWidth 8 w) = w
    simp
  have e2 : f.a = a := by
    subst hf
    rfl
  have hb0 : f.bit 0 = false := by
    rw [Fields.bit_of hs]
    rfl
  rw [parse_EC f (by subst hf; rfl)]
  simp only [e0, e1, e2, hb0, if_true, if_false, Bool.false_eq_true]

theorem winsetClr (g : Guard) (w : WReg) : Statement (.winsetClr g w) := by
  apply of_parse
  intro _ f hf
  replace hf : { Fields.base 0xEC g 1 with d := w.setWidth 8 } = f := Option.some.inj hf
  have hs : f.sub = BitVec.ofNat 8 (1) := by subst hf; rfl
  have e0 : f.g = g := by
    subst hf
    rfl
  have e1 : f.d.setWidth 3 = w := by
    subst hf
    show BitVec.setWidth 3 (BitVec.setWidth 8 w) = w
    simp
  have hb0 : f.bit 0 = true := by
    rw [Fields.bit_of hs]
    rfl
  rw [parse_EC f (by subst hf; rfl)]
  simp only [e0, e1, hb0, if_true, if_false, Bool.false_eq_true]

theorem halt (g : Guard) (err : Bool) : Statement (.halt g err) := by
  apply of_parse
  intro _ f hf
  replace hf : Fields.base 0xED g (subBit err 0) = f := Option.some.inj hf
  have hs : f.sub = BitVec.ofNat 8 ((subBit err 0)) := by subst hf; rfl
  have e0 : f.g = g := by
    subst hf
    rfl
  have hb0 : f.bit 0 = err := by
    rw [Fields.bit_of hs]
    cases err <;> simp only [subBit, if_true, if_false, Bool.false_eq_true, decide_eq_true_eq, decide_eq_false_iff_not] <;> omega
  rw [parse_ED f (by subst hf; rfl)]
  simp only [e0, hb0]

theorem ckpt (g : Guard) (d : XReg) : Statement (.ckpt g d) := by
  apply of_parse
  intro _ f hf
  replace hf : { Fields.base 0xEE g with d } = f := Option.some.inj hf
  have e0 : f.g = g := by
    subst hf
    rfl
  have e1 : f.d = d := by
    subst hf
    rfl
  rw [parse_EE f (by subst hf; rfl)]
  simp only [e0, e1]

theorem imageLoad (ctx : Nat) (load : FileLoad) : Statement (.imageLoad ctx load) := of_event rfl
theorem lineStart (t : Tid) : Statement (.lineStart t) := of_event rfl
theorem flagOperationComplete (t : Tid) (k : Nat) (early : Option (List Nat)) : Statement (.flagOperationComplete t k early) := of_event rfl
theorem notifyWrite (ctx : Nat) (q : Nat) (wridx : Word) : Statement (.notifyWrite ctx q wridx) := of_event rfl
theorem qreset (ctx : Nat) (q : Nat) (wridx : Word) : Statement (.qreset ctx q wridx) := of_event rfl
theorem cpSlotPoll (ctx : Nat) (q : Nat) : Statement (.cpSlotPoll ctx q) := of_event rfl
theorem nopPacket (ctx : Nat) (q : Nat) : Statement (.nopPacket ctx q) := of_event rfl
theorem launchPacket (ctx : Nat) (q : Nat) : Statement (.launchPacket ctx q) := of_event rfl
theorem evopPacket (ctx : Nat) (q : Nat) : Statement (.evopPacket ctx q) := of_event rfl
theorem barrierPacket (ctx : Nat) (q : Nat) : Statement (.barrierPacket ctx q) := of_event rfl
theorem teamRetire (ctx : Nat) (grid : Nat) (team : Nat) : Statement (.teamRetire ctx grid team) := of_event rfl
theorem gangAck (ctx : Nat) (grid : Nat) (rank : Nat) (size : Nat) (mdefs : List DWord) : Statement (.gangAck ctx grid rank size mdefs) := of_event rfl
theorem gangCommit (ctx : Nat) (grid : Nat) : Statement (.gangCommit ctx grid) := of_event rfl
theorem gangAbort (ctx : Nat) (grid : Nat) : Statement (.gangAbort ctx grid) := of_event rfl
theorem gangDeadlineExpiry (ctx : Nat) (grid : Nat) : Statement (.gangDeadlineExpiry ctx grid) := of_event rfl
theorem gangReplyTimeout (ctx : Nat) (grid : Nat) : Statement (.gangReplyTimeout ctx grid) := of_event rfl
theorem dispatchPick (core : Nat) : Statement (.dispatchPick core) := of_event rfl
theorem coreReservation (die : Nat) : Statement (.coreReservation die) := of_event rfl
theorem taskPacketArrival (n : Nat) : Statement (.taskPacketArrival n) := of_event rfl
theorem scalarThreadBind (core : Nat) (ctx : Nat) (entry : DWord) (team : Option (Nat × Nat)) (runtime : Bool) : Statement (.scalarThreadBind core ctx entry team runtime) := of_event rfl
theorem recordCompletion (n : Nat) : Statement (.recordCompletion n) := of_event rfl
theorem regulatorDrain (core : Nat) (bin : Nat) : Statement (.regulatorDrain core bin) := of_event rfl
theorem trappcWrite (t : Tid) (v : DWord) : Statement (.trappcWrite t v) := of_event rfl
theorem serviceTimeout (t : Tid) : Statement (.serviceTimeout t) := of_event rfl
theorem trapresResume (ctx : Nat) (entry : Nat) : Statement (.trapresResume ctx entry) := of_event rfl
theorem trapresKill (ctx : Nat) (entry : Nat) : Statement (.trapresKill ctx entry) := of_event rfl
theorem trapresEscalate (ctx : Nat) (entry : Nat) : Statement (.trapresEscalate ctx entry) := of_event rfl
theorem ringEntryTimeout (ctx : Nat) (entry : Nat) : Statement (.ringEntryTimeout ctx entry) := of_event rfl
theorem partitionTimeout (cause : Nat) (info : DWord) : Statement (.partitionTimeout cause info) := of_event rfl
theorem dieLost (die : Nat) : Statement (.dieLost die) := of_event rfl
theorem thermalCritical (die : Nat) : Statement (.thermalCritical die) := of_event rfl
theorem powerFault : Statement (.powerFault) := of_event rfl
theorem preemptRequest (ctx : Nat) (v : DWord) : Statement (.preemptRequest ctx v) := of_event rfl
theorem preemptDeadline (ctx : Nat) : Statement (.preemptDeadline ctx) := of_event rfl
theorem teamSave (ctx : Nat) (grid : Nat) (team : Nat) : Statement (.teamSave ctx grid team) := of_event rfl
theorem teamRestore (ctx : Nat) (v : DWord) : Statement (.teamRestore ctx v) := of_event rfl
theorem watchdog (t : Tid) : Statement (.watchdog t) := of_event rfl
theorem remoteWaitTimeout (t : Tid) : Statement (.remoteWaitTimeout t) := of_event rfl
theorem xrootWrite (v : DWord) : Statement (.xrootWrite v) := of_event rfl
theorem xinval (v : DWord) : Statement (.xinval v) := of_event rfl
theorem xresolve (granule : Nat) : Statement (.xresolve granule) := of_event rfl
theorem xresolveAbandon (granule : Nat) : Statement (.xresolveAbandon granule) := of_event rfl
theorem migrationStart (c : Nat) (dst : DWord) : Statement (.migrationStart c dst) := of_event rfl
theorem migrationCopyDone (c : Nat) (ok : Bool) : Statement (.migrationCopyDone c ok) := of_event rfl
theorem sideLogPerform (core : Nat) : Statement (.sideLogPerform core) := of_event rfl
theorem fenceMarkerPerform (core : Nat) : Statement (.fenceMarkerPerform core) := of_event rfl
theorem ptsAdvance (t : Tid) : Statement (.ptsAdvance t) := of_event rfl
theorem tickRebase (by_ : Nat) : Statement (.tickRebase by_) := of_event rfl
theorem reservationExpire (t : Tid) : Statement (.reservationExpire t) := of_event rfl
theorem hostBarRead (fn : Nat) (bar : Nat) (off : Nat) (size : Nat) : Statement (.hostBarRead fn bar off size) := of_event rfl
theorem hostBarWrite (fn : Nat) (bar : Nat) (off : Nat) (data : List Byte) : Statement (.hostBarWrite fn bar off data) := of_event rfl
theorem aperWrite (d : Nat) (v : DWord) : Statement (.aperWrite d v) := of_event rfl
theorem fabricRequest (src seq : Nat) (ask : FabricAsk) : Statement (.fabricRequest src seq ask) := of_event rfl
theorem subsActivate (die : Nat) (n : Nat) : Statement (.subsActivate die n) := of_event rfl
theorem subsRefuse (die : Nat) (n : Nat) : Statement (.subsRefuse die n) := of_event rfl
theorem subsMulticast (die : Nat) (n : Nat) (ia : Nat) (data : List Byte) : Statement (.subsMulticast die n ia data) := of_event rfl
theorem stmMemberArrival (n : Nat) (ok : Bool) : Statement (.stmMemberArrival n ok) := of_event rfl
theorem engineQueueTake (ctx : Nat) (grid : Nat) (team : Nat) (q : Nat) : Statement (.engineQueueTake ctx grid team q) := of_event rfl
theorem engineLineWrite (core : Nat) (slot : Nat) : Statement (.engineLineWrite core slot) := of_event rfl
theorem engineLineFault (core : Nat) (slot : Nat) : Statement (.engineLineFault core slot) := of_event rfl
theorem collResult (core : Nat) (slot : Nat) (remote : List CollPart) (dropped : List Nat) : Statement (.collResult core slot remote dropped) := of_event rfl
theorem collectiveResolve (ctx : Nat) (grid : Nat) (n : Nat) (remote : List (Nat × CollKind × Bool)) : Statement (.collectiveResolve ctx grid n remote) := of_event rfl
theorem collectiveTimeout (ctx : Nat) (grid : Nat) (n : Nat) : Statement (.collectiveTimeout ctx grid n) := of_event rfl
theorem ckptQuiesced : Statement (.ckptQuiesced) := of_event rfl
theorem ckptCopyDone (farFault : Bool) : Statement (.ckptCopyDone farFault) := of_event rfl
theorem linkFault (port : Nat) : Statement (.linkFault port) := of_event rfl
theorem linkTrained (port : Nat) (rev : Option Nat) : Statement (.linkTrained port rev) := of_event rfl
theorem retrainRoundExpiry (port : Nat) : Statement (.retrainRoundExpiry port) := of_event rfl
theorem deadRoundOne (port : Nat) : Statement (.deadRoundOne port) := of_event rfl
theorem deadRoundTwo (port : Nat) : Statement (.deadRoundTwo port) := of_event rfl
theorem deadRoundThree (port : Nat) : Statement (.deadRoundThree port) := of_event rfl
theorem linkRetrainedByManagement (port : Nat) : Statement (.linkRetrainedByManagement port) := of_event rfl
theorem linkStateUpdate (modid : Nat) (st : PeerState) : Statement (.linkStateUpdate modid st) := of_event rfl
theorem cgdefWrite (ctx : Nat) (k : Nat) (v : DWord) : Statement (.cgdefWrite ctx k v) := of_event rfl
theorem scAnswer (t : Tid) : Statement (.scAnswer t) := of_event rfl
theorem regionCommitDone (t : Tid) : Statement (.regionCommitDone t) := of_event rfl
theorem winsetPropagated (t : Tid) : Statement (.winsetPropagated t) := of_event rfl
theorem functionLevelReset (fn : Nat) : Statement (.functionLevelReset fn) := of_event rfl
theorem cxlDeviceLost (port : Nat) : Statement (.cxlDeviceLost port) := of_event rfl
theorem moduleReset (images : List FwImage) : Statement (.moduleReset images) := of_event rfl
theorem getMeasurements : Statement (.getMeasurements) := of_event rfl
theorem challenge (nonce : Nat) : Statement (.challenge nonce) := of_event rfl
theorem keyExchange (fn : Nat) : Statement (.keyExchange fn) := of_event rfl
theorem modidWrite (v : BitVec 12) : Statement (.modidWrite v) := of_event rfl
theorem contextCreate (ctx : Nat) (form : CtxForm) : Statement (.contextCreate ctx form) := of_event rfl
theorem contextDestroy (ctx : Nat) : Statement (.contextDestroy ctx) := of_event rfl
theorem tdispRequest (fn : Nat) (st : Tdisp) : Statement (.tdispRequest fn st) := of_event rfl
theorem checkpointRestore : Statement (.checkpointRestore) := of_event rfl
theorem queueCreate (ctx : Nat) (q : Nat) (base : Nat) (sizeLog : Nat) (inHost : Bool) : Statement (.queueCreate ctx q base sizeLog inHost) := of_event rfl
theorem flitCrcRetry (port : Nat) : Statement (.flitCrcRetry port) := of_event rfl
end Sys2Proof.Laws.RoundTrip
end

