-- ==== Sys2Proof/Tests/Slice0.lean ====
section
/-! SUPPORT. Tests of the model's own work: words written out from the spec's encodings, refusals of ill-formed terms, one step of an instruction with a result that the spec states, and a witness of every statement's premises. -/

namespace Sys2Proof.Tests

set_option maxRecDepth 8000
set_option Elab.async false

open Sys2Proof Sys2Proof.Machine Sys2Proof.Safety

/-! ### Small states -/

/-- The guard @P0. -/
def always : Guard := ⟨0, false⟩

/-- A resident thread of 32 registers on a lane of group 0. -/
def lane (l : Nat) (x : List Word) (p : DWord) : Thread :=
  { wordThread 0 0 with id := .thr 0 0 0 0 l, nregs := 32, regs := { x := x ++ List.replicate (32 - x.length) 0, p, bad := [] } }

/-- Windows of the tests' context: window 0 local, all permissions, IA 0; window 1 through PEER to module 5. -/
def testCtx : Ctx :=
  { wordCtx with windows := [⟨0, 0xF000, 0, 0x8000000000000007⟩, ⟨0x10000, 0x1F000, 0, 0x8000000000050107⟩] ++ List.replicate 6 ⟨0, 0, 0, 0⟩ }

/-- The machine with these threads in one entry, about to issue together. IA page 0 lies at frame 0, page 1 in host memory, page 2 migrates, page 3 is write-protected, page 4 is not present. -/
def world (ths : List Thread) : State :=
  { State.reset.runningWord 0 with
    threads := ths, issue := ths.map (·.id), ctxs := [testCtx]
    teams := [{ wordTeam with groups := [{ Group.reset with live := maskOfLanes (ths.map (·.lane)) }] }]
    cores := [{ Core.reset 0 with entries := [{ ctx := 0, grid := 0, pc := wordPc, ts := ths.map (·.id) }] }]
    xroot := 1, tlb := (List.range 4).flatMap fun d => [(d, 0, 12, 1, 4, 0x900), (d, 0x1000, 12, 5, 4, 0x908), (d, 0x2000, 12, 0x41, 4, 0x910), (d, 0x3000, 12, 0x11, 4, 0x918)] }

/-- Thread 0: X1 16, X2:X3 0x40, X4:X5 0x100, X6:X7 0x10040 (through PEER), X8:X9 0x4000 (not present), X10:X11 0x1000 (host), X12:X13 0xFF000 (no window), X14 5. -/
def one : Thread := lane 0 [0, 16, 0x40, 0, 0x100, 0, 0x10040, 0, 0x4000, 0, 0x1000, 0, 0xFF000, 0, 5] 1

/-- It alone. -/
def solo : State := world [one]

/-- Two lanes; lane 1 has P1 set. -/
def duo : State := world [lane 0 [7, 3, 0xFFFFFFFF, 2, 64] 1, lane 1 [9, 5, 6, 2, 65] 3]

/-- The lanes of quarter `q`. -/
def quarter (q : Nat) : List Tid := (List.range 8).map fun l => .thr 0 0 0 0 (8 * q + l)

/-- Quarter 0 with a tile of two units at unit 4, its handle in X4, and room for an image at X2. -/
def quad : State :=
  let s := world ((List.range 8).map fun l => { lane l [0, 16, 64, 0, 4, 1, 2, 3] 1 with tile := some 4 })
  { s with cores := s.cores.map fun k => { k with allocs := [{ unit := 4, n := 2, holders := quarter 0, shadow := none }] } }

/-- Quarter 0 without a tile. -/
def bare : State := world ((List.range 8).map fun l => lane l [0, 16, 64] 1)

/-- The value of a register of a lane after a step. -/
def after (r : Result) (l : Nat) (n : XReg) : Option Word :=
  match r with
  | .next s => (s.thread? (.thr 0 0 0 0 l)).map fun th => th.regs.x32 n
  | _ => none

/-- Predicates of a lane after a step. -/
def predsAfter (r : Result) (l : Nat) : Option DWord :=
  match r with
  | .next s => (s.thread? (.thr 0 0 0 0 l)).map fun th => th.regs.p
  | _ => none

/-- Something read of the thread on lane 0 after a step. -/
def of0 {α : Type} (r : Result) (f : Thread → α) : Option α :=
  match r with
  | .next s => (s.thread? wordTid).map f
  | _ => none

/-- Something read of the state after a step. -/
def ofS {α : Type} (r : Result) (f : State → α) : Option α :=
  match r with
  | .next s => some (f s)
  | _ => none

/-! ### Deciding the premises of the statements -/

def cleanB (s : State) (i : Instr) (th : Thread) : Bool :=
  !(th.isScalar && scalarIllegal i) && (s.rangeBad th i).isNone && !s.badPair th i && !th.inRunAhead && (s.needsPriv th i).isNone

theorem clean_of {s : State} {i : Instr} {th : Thread} (h : cleanB s i th = true) : Clean s i th := by
  simp only [cleanB, Bool.and_eq_true, Bool.not_eq_true', Option.isNone_iff_eq_none] at h
  exact ⟨h.1.1.1.1, h.1.1.1.2, h.1.1.2, h.1.2, h.2⟩

def loneB (s : State) (i : Instr) (t : Tid) (th : Thread) : Bool :=
  decide (s.issue = [t]) && decide (s.thread? t = some th) && cleanB s i th && performs i th

theorem lone_of {s : State} {i : Instr} {t : Tid} {th : Thread} (h : loneB s i t th = true) : Lone s i t th := by
  simp only [loneB, Bool.and_eq_true, decide_eq_true_eq, performs] at h
  obtain ⟨⟨⟨h1, h2⟩, h3⟩, h4⟩ := h
  refine ⟨h1, h2, clean_of h3, ?_⟩
  cases hg : i.guard? with
  | none => simp [hg] at h4
  | some g => exact ⟨g, rfl, by simpa [hg] using h4⟩

theorem lones_of {s : State} {t : Tid} {th : Thread} (l : List Instr) (h : (l.all fun i => loneB s i t th) = true) :
    ∀ i ∈ l, Lone s i t th := fun i hi => lone_of (List.all_eq_true.mp h i hi)

/-- Every thread of the issue satisfies `p`. -/
def eachB (s : State) (p : Thread → Bool) : Bool := s.issue.all fun t => match s.thread? t with
  | some th => p th
  | none => false

theorem each_of {s : State} {p : Thread → Bool} (h : eachB s p = true) : ∀ t ∈ s.issue, ∃ th, s.thread? t = some th ∧ p th = true := by
  intro t ht
  have := List.all_eq_true.mp h t ht
  cases hs : s.thread? t with
  | none => simp [hs] at this
  | some th => exact ⟨th, rfl, by simpa [hs] using this⟩

theorem all_of {s : State} {p : Thread → Bool} (h : eachB s p = true) {t : Tid} {th : Thread} (ht : t ∈ s.issue)
    (hs : s.thread? t = some th) : p th = true := by
  obtain ⟨x, hx, hp⟩ := each_of h t ht
  rw [hs] at hx
  cases hx
  exact hp

def readyB (s : State) (i : Instr) : Bool := decide s.issue.Nodup && eachB s (cleanB s i) && i.guard?.isSome

theorem ready_of {s : State} {i : Instr} (h : readyB s i = true) : Ready s i := by
  simp only [readyB, Bool.and_eq_true, decide_eq_true_eq] at h
  obtain ⟨⟨h1, h2⟩, h3⟩ := h
  exact ⟨h1, fun t ht => (each_of h2 t ht).imp fun _ q => ⟨q.1, clean_of q.2⟩, Option.isSome_iff_exists.mp h3⟩

theorem oneSet_of {s : State} (ls : List Nat) (h : s.issue = ls.map (Tid.thr 0 0 0 0)) (hl : ls.all (decide <| · < 32) = true)
    (hm : eachB s (fun th => !th.h.hmode) = true) : OneSet s := by
  refine ⟨?_, ?_, ?_⟩
  · rw [h]
    simpa [Tid.lane] using hl
  · rw [h]
    simp [sameGroup]
  · intro t ht u hu x y hx hy
    have a := all_of hm ht hx
    have b := all_of hm hu hy
    simp_all

def quietB (th : Thread) : Bool :=
  decide (th.regions = []) && decide (th.shadow = none ∨ th.shadow = some th.regs) && decide (th.inject ≠ some 0)

theorem quiet_of {th : Thread} (h : quietB th = true) : Quiet th := by
  simp only [quietB, Bool.and_eq_true, decide_eq_true_eq] at h
  exact ⟨h.1.1, h.1.2, h.2⟩

theorem quarters_of {s : State} {i : Instr} {qs : List Nat} (h1 : s.issue = qs.flatMap quarter) (h2 : qs.Pairwise (· < ·) ∧ ∀ q ∈ qs, q < 4)
    (h3 : eachB s (fun th => cleanB s i th && performs i th && quietB th && !s.away th) = true)
    (h4 : eachB s (fun th => !th.h.hmode) = true) : Quarters s i qs quarter := by
  refine ⟨h1, h2, ⟨0, 0, 0, 0, fun _ => rfl⟩, ?_, ?_⟩
  · intro t ht
    obtain ⟨th, a, b⟩ := each_of h3 t ht
    simp only [Bool.and_eq_true, Bool.not_eq_true'] at b
    exact ⟨th, a, clean_of b.1.1.1, b.1.1.2, quiet_of b.1.2, b.2⟩
  · intro t ht u hu x y hx hy
    have a := all_of h4 ht hx
    have b := all_of h4 hu hy
    simp_all

theorem one_quiet : Quiet one := quiet_of (by decide)
theorem solo_calm : Calm solo wordTid := ⟨by decide, by decide⟩
theorem solo_mayEnd (live : List Nat) (h : live.length ≤ 16) : MayEnd solo wordTid one live :=
  ⟨one_quiet, .inr ⟨h, by decide, by decide⟩⟩
theorem solo_mayPark (live : List Nat) (h : live.length ≤ 16) : MayPark solo wordTid one live :=
  ⟨one_quiet, rfl, rfl, h, by decide, rfl, by decide⟩

/-! ### Decoding: words written out from the encoding tables, lowest byte first -/

/-- Byte 11 is OP, byte 10 the guard, byte 9 SUB, bytes 8 to 4 D, A, B, C, E, bytes 3 to 0 the immediate (Table 3.6). -/
theorem test_decode_control :
    decode (codeOfBytes [0, 0, 0, 0, 0, 0, 0, 0, 0, 0, 0, 0x09]) = .ok (.exit ⟨0, false⟩) ∧
    decode (codeOfBytes [0x02, 0, 0, 0, 0, 0, 0, 0, 0, 0, 0x16, 0x01]) = .ok (.bra ⟨5, true⟩ 2 0) ∧
    decode (codeOfBytes [0x21, 0, 0, 0, 0, 0, 0, 0, 0, 0, 0x04, 0x0B]) = .ok (.trap ⟨1, false⟩ 0x21) := by decide

theorem test_decode_scratchpad :
    decode (codeOfBytes [0x10, 0, 0, 0, 0, 0, 0, 2, 8, 2, 0, 0x80]) = .ok (.lds ⟨0, false⟩ false false .b4 8 ⟨2, 16⟩) ∧
    decode (codeOfBytes [0x14, 0, 0, 0, 0, 0, 0, 2, 9, 2, 1, 0x80]) = .ok (.lds ⟨0, false⟩ true false .b4 9 ⟨2, 20⟩) := by decide

theorem test_decode_segments :
    decode (codeOfBytes [1, 0, 0, 0, 8, 0, 0, 0, 0, 1, 0, 0xD0]) = .ok (.seg ⟨0, false⟩ true 0 1 1 0) ∧
    decode (codeOfBytes [0, 0, 0, 0, 0, 0, 0, 0, 1, 1, 0, 0xD4]) = .ok (.fwd ⟨0, false⟩ none 1 0) := by decide

theorem test_decode_launches_events :
    decode (codeOfBytes [0, 0, 0, 0, 0, 0, 0, 2, 4, 0, 0, 0xD2]) = .ok (.launch ⟨0, false⟩ false 4 ⟨2, 0⟩) ∧
    decode (codeOfBytes [0, 0, 0, 0, 0, 0, 0, 0x20, 0x14, 0, 0, 0xD3]) = .ok (.spawn ⟨0, false⟩ 20 32) ∧
    decode (codeOfBytes [5, 0, 0, 0, 0, 0, 0, 0, 0, 0, 0, 0xD8]) = .ok (.evwait ⟨0, false⟩ (.imm 5)) ∧
    decode (codeOfBytes [6, 0, 0, 0, 0, 0, 0, 0, 0, 0, 0, 0xD6]) = .ok (.evset ⟨0, false⟩ (.imm 6)) := by decide

theorem test_decode_system :
    decode (codeOfBytes [0x12, 0, 0, 0, 0, 0, 0, 6, 0, 1, 0, 0xE9]) = .ok (.swr ⟨0, false⟩ true 6 0x12) ∧
    decode (codeOfBytes [0, 0, 0, 0, 0, 0, 0, 0, 0, 0, 0, 0xEA]) = .ok (.tret ⟨0, false⟩) ∧
    decode (codeOfBytes [0, 0, 0, 0, 0, 0, 0, 0x10, 2, 0, 0, 0xEC]) = .ok (.winset ⟨0, false⟩ 2 16) := by decide

theorem test_decode_families :
    decode (codeOfBytes [0, 0, 0, 0, 2, 0, 2, 0, 4, 1, 0, 0x10]) = .ok (.iadd ⟨0, false⟩ (.carry 2) 4 0 (.reg 2)) ∧
    decode (codeOfBytes [0, 0, 0, 0, 0, 0, 9, 0x0D, 0x0E, 0, 0, 0x3A]) = .ok (.fmul ⟨0, false⟩ false .rne 14 13 (.reg 9)) ∧
    decode (codeOfBytes [0, 0, 0, 0, 0, 0, 0, 2, 6, 0x20, 4, 0x75]) = .ok (.scan ⟨1, false⟩ true false .add 6 2) ∧
    decode (codeOfBytes [0, 0, 0, 0, 0, 0, 0, 0x0A, 2, 3, 0x16, 0x84]) = .ok (.st ⟨5, true⟩ 0 .b8 2 ⟨10, 0⟩) ∧
    decode (codeOfBytes [0, 0, 0, 0, 0, 6, 5, 4, 0, 0, 4, 0xA3]) = .ok (.binit ⟨1, false⟩ ⟨4, 0⟩ 5 6) ∧
    decode (codeOfBytes [0, 0, 0, 0, 8, 0x30, 0x20, 0x10, 8, 2, 0, 0xB0]) = .ok (.mmaq ⟨0, false⟩ false false .bf16 8 16 32 48 0 (some 0)) ∧
    decode (codeOfBytes [0, 0, 0, 0, 2, 0, 0, 0x14, 0, 0x62, 0, 0xC0]) = .ok (.ldg ⟨0, false⟩ .mini .s32 .b4 0 ⟨20, 0⟩ 0 2) ∧
    decode (codeOfBytes [2, 0, 0, 0, 0, 0, 0, 0, 9, 0, 0, 0xE0]) = .ok (.rbegin ⟨0, false⟩ 9 2 0) := by decide

/-- Unassigned opcodes, unused bits, undefined codes and operands outside their limits decode to nothing (R60): OP 0xFF, EXIT with an immediate bit, LDS with size code 5, CALL with an odd pair, BRA with slot 5. -/
theorem test_decode_refuses :
    decode (codeOfBytes [0, 0, 0, 0, 0, 0, 0, 0, 0, 0, 0, 0xFF]) = .error .unassigned ∧
    decode (codeOfBytes [1, 0, 0, 0, 0, 0, 0, 0, 0, 0, 0, 0x09]) = .error .unusedBits ∧
    decode (codeOfBytes [0, 0, 0, 0, 0, 0, 0, 2, 8, 5, 0, 0x80]) = .error .badCode ∧
    decode (codeOfBytes [2, 0, 0, 0, 0, 0, 0, 0, 5, 0, 0, 0x03]) = .error .illFormed ∧
    decode (codeOfBytes [2, 0, 0, 0, 5, 0, 0, 0, 0, 0, 0, 0x01]) = .error .illFormed := by decide

/-- The words of Tables 11.7, 12.7 and 17.6. -/
theorem test_decode_examples :
    decode (codeOfBytes [0, 0, 0, 0, 0, 0, 0, 4, 8, 0x0C, 0, 0x64]) = .ok (.unpackn ⟨0, false⟩ .e4m3 8 4) ∧
    decode (codeOfBytes [0, 0, 0, 0, 0, 0, 0, 0x0A, 0x0C, 1, 0, 0x60]) = .ok (.f2i ⟨0, false⟩ false false .f32 .rtz 12 10) ∧
    decode (codeOfBytes [0, 0, 0, 0, 0, 0, 0, 2, 4, 1, 4, 0x74]) = .ok (.redix ⟨1, false⟩ false none false .u32 4 2) ∧
    decode (codeOfBytes [1, 0, 0, 0, 2, 0, 0, 2, 7, 0x82, 4, 0x70]) = .ok (.shfl ⟨1, false⟩ none 0 .ahead 7 2 (.imm 1) 2) ∧
    decode (codeOfBytes [0, 0, 0, 0, 0, 0, 0, 0, 8, 5, 4, 0x77]) = .ok (.lanemask ⟨1, false⟩ .parts 8) ∧
    decode (codeOfBytes [1, 0, 0, 0, 1, 0, 0, 0, 8, 0, 0, 0xB2]) = .ok (.talloc ⟨0, false⟩ 8 1 1) ∧
    decode (codeOfBytes [0, 0, 0, 0, 0, 0, 0, 0, 8, 2, 0, 0xB6]) = .ok (.tzero ⟨0, false⟩ false .bf16 8) ∧
    decode (codeOfBytes [0, 0, 0, 0, 0, 0, 0, 2, 8, 2, 0, 0xB5]) = .ok (.tst ⟨0, false⟩ false .tile .bf16 8 ⟨2, 0⟩) ∧
    decode (codeOfBytes [0, 0, 0, 0, 0, 0, 0, 0, 0, 2, 0, 0xE4]) = .ok (.errlogInj ⟨0, false⟩ 0) := by decide

/-! ### Well-formedness: a term that each check refuses -/

theorem test_ill_formed_control :
    (Instr.bra always 0 5).wellFormed = false ∧ (Instr.yield always 0 5).wellFormed = false ∧ (Instr.brx always 3).wellFormed = false ∧
    (Instr.ret always 1).wellFormed = false ∧ (Instr.call always 5 0 0).wellFormed = false ∧ (Instr.call always 4 0 7).wellFormed = false ∧
    (Instr.callx always 3 4).wellFormed = false ∧ (Instr.callx always 4 3).wellFormed = false := by decide

theorem test_ill_formed_integer :
    (Instr.imadw always .u 5 1 (.reg 2) 4).wellFormed = false ∧ (Instr.imadw always .u 4 1 (.reg 2) 5).wellFormed = false ∧
    (Instr.idiv always false .su 4 1 (.reg 2)).wellFormed = false ∧ (Instr.irem always false .su 4 1 (.reg 2)).wellFormed = false ∧
    (Instr.imin always .su 4 1 (.reg 2)).wellFormed = false ∧ (Instr.imax always .su 4 1 (.reg 2)).wellFormed = false ∧
    (Instr.mov always 4 (.reg64 3)).wellFormed = false ∧ (Instr.mov always 3 (.imm64 1)).wellFormed = false ∧
    (Instr.lea always false false 3 4 5 0 0).wellFormed = false ∧ (Instr.lea always false false 4 3 5 0 0).wellFormed = false := by decide

theorem test_ill_formed_conversion :
    (Instr.packn always false .i8 .rne 4 2 0).wellFormed = false ∧ (Instr.packn always false .i8 .rne 4 4 1).wellFormed = false ∧
    (Instr.unpackn always .f16 3 1).wellFormed = false ∧ (Instr.unpackn always .e4m3 6 1).wellFormed = false ∧
    (Instr.qblk always false .f32 2 32 1 0).wellFormed = false ∧ (Instr.qblk always false .f32 4 32 7 0).wellFormed = false ∧
    (Instr.dqblk always false .f32 32 2 1 0).wellFormed = false := by decide

theorem test_ill_formed_cross_lane :
    (Instr.shfl always none 6 .lane 1 2 (.reg 3) 1).wellFormed = false ∧ (Instr.shfl always none 0 .lane 1 2 (.imm 32) 1).wellFormed = false ∧
    (Instr.matchx always true none 1 3).wellFormed = false ∧ (Instr.redux always true .add 1 2).wellFormed = false ∧
    (Instr.scan always false true .pkaddh 1 2).wellFormed = false ∧ (Instr.redix always false none true .s32 3 2).wellFormed = false ∧
    (Instr.redix always true none true .u32 4 2).wellFormed = false := by decide

theorem test_ill_formed_memory :
    (Instr.lds always false false .b8 3 ⟨2, 0⟩).wellFormed = false ∧ (Instr.lds always false true .b4 3 ⟨2, 0⟩).wellFormed = false ∧
    (Instr.sts always false .b16 6 ⟨2, 0⟩).wellFormed = false ∧ (Instr.atoms always false .fadd .b8 4 ⟨2, 0⟩ 6).wellFormed = false ∧
    (Instr.atoms always false .add .b8 4 ⟨2, 0⟩ 7).wellFormed = false ∧ (Instr.atoms always false (.cas 5) .b8 4 ⟨2, 0⟩ 6).wellFormed = false ∧
    (Instr.ldc always false 0 .b4 4 ⟨3, 0⟩).wellFormed = false ∧ (Instr.st always 0 .b8 5 ⟨2, 0⟩).wellFormed = false ∧
    (Instr.atomc always (.cas 0) .b4 4 ⟨2, 0⟩ 6).wellFormed = false ∧ (Instr.red always .exch .b4 4 ⟨2, 0⟩).wellFormed = false ∧
    (Instr.casc always .b16 4 ⟨2, 0⟩ 8 12).wellFormed = false ∧ (Instr.lr always .b2 4 ⟨2, 0⟩).wellFormed = false ∧
    (Instr.sc always .b1 4 ⟨2, 0⟩ 1).wellFormed = false ∧ (Instr.pref always .l2 ⟨3, 0⟩).wellFormed = false ∧
    (Instr.unsub always ⟨3, 0⟩).wellFormed = false ∧ (Instr.subs always 4 ⟨3, 0⟩ 5).wellFormed = false ∧
    (Instr.launch always false 4 ⟨3, 0⟩).wellFormed = false ∧ (Instr.stm always .b4 4 ⟨2, 0⟩ 7 9).wellFormed = false := by decide

theorem test_ill_formed_bases :
    (Instr.cpy always 4).wellFormed = false ∧ (Instr.cpyr always 4 8 0).wellFormed = false ∧ (Instr.qpush always false 0 4 1).wellFormed = false ∧
    (Instr.qpop always 4 0).wellFormed = false ∧ (Instr.qpopNb always 4 0 1).wellFormed = false ∧ (Instr.winset always 0 4).wellFormed = false ∧
    (Instr.talloc always 4 1 0).wellFormed = false ∧ (Instr.talloc always 4 1 1025).wellFormed = false ∧
    (Instr.ldg always .mini .f16x2 .b4 4 ⟨2, 0⟩ 0 1).wellFormed = false ∧ (Instr.ldg always .mini .s32 .b4 5 ⟨2, 0⟩ 0 1).wellFormed = false ∧
    (Instr.ldg always .add .s32 .b8 5 ⟨2, 0⟩ 0 1).wellFormed = false ∧ (Instr.cbr always false false 1 0 0 5).wellFormed = false ∧
    (Instr.seg always false 0 0 0 5).wellFormed = false ∧ (Instr.spawn always 4 8).wellFormed = false ∧ (Instr.mbox always 4 8 1).wellFormed = false ∧
    (Instr.evqpop always 2).wellFormed = false ∧ (Instr.evqpopNb always 2).wellFormed = false ∧ (Instr.errlogPop always 2).wellFormed = false ∧
    (Instr.rbegin always 1 0 5).wellFormed = false ∧ (Instr.srd always true 4 0x00A).wellFormed = false ∧
    (Instr.srd always true 3 0x008).wellFormed = false ∧ (Instr.swr always false 4 0x00E).wellFormed = false := by decide

theorem test_ill_formed_events :
    (Instr.lineStart (.thr 0 0 0 32 0)).wellFormed = false ∧ (Instr.serviceTimeout (.scalar 4224)).wellFormed = false ∧
    (Instr.imageLoad 0 ⟨32, [], true⟩).wellFormed = false ∧ (Instr.dispatchPick 4224).wellFormed = false ∧
    (Instr.regulatorDrain 0 64).wellFormed = false ∧ (Instr.engineLineWrite 0 64).wellFormed = false ∧ (Instr.engineQueueTake 0 0 0 16).wellFormed = false ∧
    (Instr.dieLost 24).wellFormed = false ∧ (Instr.aperWrite 24 0).wellFormed = false ∧ (Instr.thermalCritical 37).wellFormed = false ∧
    (Instr.migrationStart 4 0).wellFormed = false ∧ (Instr.xresolve (2 ^ 40)).wellFormed = false ∧ (Instr.hostBarRead 25 0 0 4).wellFormed = false ∧
    (Instr.hostBarRead 0 1 0 4).wellFormed = false ∧ (Instr.hostBarWrite 0 0 2 [0, 0, 0, 0]).wellFormed = false ∧
    (Instr.hostBarWrite 0 0 0 [0, 0, 0]).wellFormed = false ∧ (Instr.functionLevelReset 25).wellFormed = false ∧ (Instr.cxlDeviceLost 0).wellFormed = false ∧
    (Instr.linkFault 16).wellFormed = false ∧ (Instr.linkStateUpdate 4096 .up).wellFormed = false ∧ (Instr.cgdefWrite 0 4 0).wellFormed = false ∧
    (Instr.queueCreate 0 0 64 4 false).wellFormed = false ∧ (Instr.queueCreate 0 0 4096 3 false).wellFormed = false ∧
    (Instr.queueCreate 0 0 4096 17 false).wellFormed = false ∧ (Instr.fabricRequest 0 0 ⟨0, .read 60 8⟩).wellFormed = false ∧
    (Instr.fabricRequest 0 0 ⟨0, .atomic .add 2 4 0 0⟩).wellFormed = false ∧ (Instr.fabricRequest 0 0 ⟨0, .write 0 []⟩).wellFormed = false ∧ (Instr.fabricRequest 0 0 ⟨5, .read 0 4⟩).wellFormed = false ∧
    (Instr.contextCreate 0 ⟨false, 24⟩).wellFormed = false ∧
    (Instr.partitionTimeout 45 0).wellFormed = false := by decide

/-! ### Witnesses: states and operands that meet the premises of each statement -/

/-- AStepRunsTheDecodedInstruction: withFetchWord of IADD X4, X1, X1, whose word the encoding gives. -/
theorem witness_step :
    let s := State.reset.withFetchWord 96 (codeOfBytes [0, 0, 0, 0, 0, 0, 1, 1, 4, 0, 0, 0x10]).toNat
    s.work = [] ∧ s.inbox = [] ∧ decode (BitVec.ofNat 96 (codeOfBytes [0, 0, 0, 0, 0, 0, 1, 1, 4, 0, 0, 0x10]).toNat) = .ok (.iadd always .wrap 4 1 (.reg 1)) ∧
    (match s.pickPlan with
      | (s1, some (.issue 0 [t])) => decide (t = wordTid) && (s1.thread? t).any fun th =>
          decode (th.line.extractLsb' (96 * (th.pc.toNat % 8)) 96) == .ok (.iadd always .wrap 4 1 (.reg 1))
      | _ => false) = true := by decide +kernel

/-- The same with a word that decodes to nothing. -/
theorem witness_step_illegal :
    let s := State.reset.withFetchWord 96 (255 * 2 ^ 88)
    s.work = [] ∧ s.inbox = [] ∧ (match s.pickPlan with
      | (s1, some (.issue 0 [t])) => (s1.thread? t).any fun th => decode (th.line.extractLsb' (96 * (th.pc.toNat % 8)) 96) == .error .unassigned
      | _ => false) = true := by decide +kernel

theorem witness_encoding : (Instr.iadd always .wrap 255 255 (.imm 0xFFFFFFFF)).wellFormed = true ∧
    (encode (.iadd always .wrap 255 255 (.imm 0xFFFFFFFF))).isSome = true ∧ (encode (.lineStart (.scalar 0))).isSome = false := by decide

theorem witness_registers : (31 : XReg).toNat < one.regs.x.length ∧ (30 : XReg).toNat % 2 = 0 ∧ (30 : XReg).toNat + 1 < one.regs.x.length ∧
    (63 : PReg) ≠ 0 := by decide

/-- A scalar thread bound to core 0, about to issue. -/
def scalarWorld (runtime : Bool) : State :=
  let s := world [{ one with id := .scalar 0 }]
  { s with cores := s.cores.map fun k => { k with bind := some ⟨0, wordPc, some (0, 0), runtime⟩ } }

/-- A slot paired with its neighbour, both NOPs of one class: HALT is no legal first half. -/
def paired : Thread := { one with line := BitVec.ofNat 512 (2 ^ (480 + 5)) }

/-- ChecksOfAnIssue: the scalar thread's illegal instruction, register 32 of 32, a refused pair, a false guard, a privileged instruction. -/
theorem witness_checks :
    ((scalarWorld false).issue = [.scalar 0] ∧ Thread.isScalar { one with id := Tid.scalar 0 } = true ∧ scalarIllegal (.jwait always 0) = true ∧
      Instr.cls (.jwait always 0) ≠ .mtx) ∧
    (solo.issue = [wordTid] ∧ solo.thread? wordTid = some one ∧ one.inRunAhead = false ∧ solo.rangeBad one (.mov always 32 (.imm 0)) = some 32) ∧
    ((world [paired]).badPair paired (.exit always) = true ∧ (world [paired]).rangeBad paired (.exit always) = none ∧ paired.inRunAhead = false) ∧
    (solo.badPair one (.nop ⟨1, false⟩) = false ∧ Guard.holds ⟨1, false⟩ one.regs = false) ∧
    (solo.needsPriv one (.winsetClr always 0) = some 0 ∧ Guard.holds always one.regs = true) := by decide +kernel

/-- The thread in a handler of the team rung. -/
def handling : Thread := { one with h := { Handler.reset with hmode := true, rung := 1, trappc := 0x1001, src := 0x1001 } }

/-- TakingAnException: group and scalar threads; causes outside and inside a handler, in BRINGUP and in SERVICE. -/
theorem witness_exception :
    (solo.thread? wordTid = some one ∧ (solo.team? 0 0 0).isSome = true ∧ one.ops = [] ∧ one.regions = [] ∧ one.h.hmode = false) ∧
    ((scalarWorld false).thread? (.scalar 0) = some { one with id := .scalar 0 } ∧ ((scalarWorld false).ctx? ((scalarWorld false).ctxOf (.scalar 0))).isSome = true) ∧
    (State.rungFor { solo with teams := [{ wordTeam with rungvec0 := 0x2000 }] } one 0 = 0) ∧
    (State.rungFor { solo with ctxs := [{ testCtx with rungvec2 := 0x2000 }] } { one with id := .scalar 0 } 2 = 2) ∧
    ((world [handling]).thread? wordTid = some handling ∧ handling.h.hmode = true ∧ (world [handling]).mmode ≠ 0 ∧
      State.mmode { world [handling] with mmode := 0 } = 0) := by decide +kernel

/-- Register instructions: two lanes, the second with a true P1. -/
theorem witness_computes :
    ∀ i ∈ [Instr.iadd ⟨1, false⟩ (.carry 2) 4 0 (.reg 1), .isub always .sat 4 0 (.imm 5), .iaddc always 4 0 (.reg 1) 1 2, .isubb always 4 0 (.reg 1) 1 2,
      .imul always 4 0 (.reg 1), .imulh always .su 4 0 (.reg 1), .imad always 4 0 (.reg 1) 2, .imadw always .s 4 0 (.reg 1) 30,
      .imin always .s 4 0 (.reg 1), .shl always false 31 0 (.imm 32), .funnel always true false 4 0 1 (.reg 2), .bfx always true 4 0 (.reg 1),
      .bfi always 4 0 (.reg 1) 2, .isetp ⟨1, true⟩ true (.xor 3) .lt 4 0 (.reg 1) 5, .sel always 4 0 (.reg 1) 1, .mov always 30 (.imm64 0x80000000),
      .lea always false true 30 28 2 7 0x80000000, .plop always 0x96 3 1 2 0, .p2x always true 4, .x2p always false 4 0xFFFFFFFF, .pset always 63 (.bit 4 31),
      .nop ⟨1, false⟩, .bra ⟨1, false⟩ 0xFFFFFFFF 4, .brx always 30, .ret always 30, .call always 30 0 0, .callx always 30 30,
      .idiv ⟨1, false⟩ true .s 4 0 (.reg 1), .fdiv always false true .rdn 4 0 (.imm 0), .fsin always true false .rne 4 0], Ready duo i := by
  intro i hi
  refine ready_of (List.all_eq_true.mp (?_ : List.all _ (readyB duo) = true) i hi)
  decide +kernel

theorem witness_rounding : fF32 ∈ [fF32, fF16, fBF16] ∧ (3 : Nat) ≠ 0 := by simp

/-- Numbers, a signalling and a quiet NaN, infinities and zeros among FP32 codes. -/
theorem witness_float_operands :
    isNum (read32 false 1) = true ∧ isNum (read32 true 0x7F7FFFFF) = true ∧ (read32 false 0x7F800001).isSig = true ∧ (read32 false 0x7FC00000).isNan = true ∧
    read32 false 0x7F800000 = .inf false ∧ read32 false 0xFF800000 = .inf (!false) ∧ (read32 true 1).isZero = true ∧ (read32 false 0x80000000).isZero = true ∧
    (read32 false 0xBF800000).isZero = false ∧ (read32 false 0xBF800000).neg? = true ∧ isNum (read32 false 0xBF800000) = true := by decide +kernel

theorem witness_float : ∀ i ∈ [Instr.fadd always false .rne 4 0 (.reg 1), .fsub always true .rup 4 0 (.imm 1), .fmul always false .rtz 4 0 (.reg 1),
      .ffma always false .rdn 4 0 (.reg 1) 2, .fmin always false 4 0 (.reg 1), .fmax always false 4 0 (.reg 1),
      .fsetp always false (.and 1) .lt 1 0 (.reg 1) 2, .fclass always (.f16 true) 4 0, .pkadd always false .rne 4 0 (.reg 1), .pkmul always true .rne 4 0 (.reg 1),
      .pkfma always false .rne 4 0 (.reg 1) 2, .pkmin always false 4 0 (.reg 1), .pkmax always true 4 0 (.reg 1), .pksetp always false .eq 1 0 (.reg 1) 2,
      .fscale always false .rne 4 0 (.reg 1), .frnd always false .rne 4 0, .dot2 always true false .rne 4 0 (.reg 1) 2, .f2i always false true .f32 .rtz 4 0,
      .i2f always true .f16 .rne 4 0, .f2f always false .bf16 .f32 .rne 4 0, .packn always false .i8 .rne 4 8 0, .unpackn always .e4m3 8 0,
      .bscale always true false .rne 4 0 1 3], Lone solo i wordTid one ∧ (floatRule i).isSome = true := by
  intro i hi
  have h := List.all_eq_true.mp (?_ : List.all _ (fun i => loneB solo i wordTid one && (floatRule i).isSome) = true) i hi
  · simp only [Bool.and_eq_true] at h
    exact ⟨lone_of h.1, h.2⟩
  · decide +kernel

/-- Format slot 0 holds 0; slot 1 describes E2M1 blocks. -/
def formats : State := { solo with grids := [{ wordGrid with record := { wordRecord with fslots := setAt wordRecord.fslots 1 0x555 } }] }

theorem witness_blocks :
    Lone formats (.fmtrd always 31 7) wordTid one ∧ Lone formats (.qblk always false .f16 28 8 0 1) wordTid one ∧ slotE2m1 (formats.slotOf wordTid 1) = true ∧
    Lone formats (.qblk always false .f16 28 8 0 0) wordTid one ∧ slotE2m1 (formats.slotOf wordTid 0) = false ∧
    Lone formats (.dqblk always false .f16 16 4 0 1) wordTid one ∧ Lone formats (.dqblk always false .f16 16 4 0 0) wordTid one ∧
    Lone formats (.i2i always true true .s8 4 5) wordTid one := by
  refine ⟨lone_of ?_, lone_of ?_, ?_, lone_of ?_, ?_, lone_of ?_, lone_of ?_, lone_of ?_⟩ <;> decide +kernel

/-- Lane 0 among joins: join 1 waits for lanes 0 and 1 and lane 1 has arrived; join 2 waits for both and none has. -/
def joins : State := { solo with teams := [{ wordTeam with groups := [{ live := 3, mask := [0, 3, 3, 0, 0, 0, 0, 0], arr := [0, 2, 0, 0, 0, 0, 0, 0] }] }] }

theorem witness_join_unit : (solo.team? 0 0 0).isSome = true ∧ 0 < (solo.groupOf 0 0 0 0).mask.length ∧ 7 < (solo.groupOf 0 0 0 0).arr.length := by decide

/-- A lane outside MASK, one that satisfies its join, one that does not. -/
theorem witness_joins :
    Quiet one ∧ Lone joins (.jset always 0 .issue) wordTid one ∧ Lone joins (.jset always 7 (.imm 3)) wordTid one ∧ Lone joins (.jset always 7 (.reg 1)) wordTid one ∧
    Lone joins (.jleave always 1) wordTid one ∧ Lone joins (.exit always) wordTid one ∧
    Lone joins (.jwait always 0) wordTid one ∧ ((joins.groupOf 0 0 0 0).maskOf 0).getLsbD 0 = false ∧
    Lone joins (.jwait always 1) wordTid one ∧ ((joins.groupOf 0 0 0 0).maskOf 1).getLsbD 0 = true ∧ (joins.joinArrive 0 0 0 0 1 1).2.2 = true ∧ one.core = one.home ∧
    Lone joins (.jwait always 2) wordTid one ∧ ((joins.groupOf 0 0 0 0).maskOf 2).getLsbD 0 = true ∧ (joins.joinArrive 0 0 0 0 2 1).2.2 = false ∧
    MayPark joins wordTid one (joins.standing one) := by
  refine ⟨one_quiet, lone_of ?_, lone_of ?_, lone_of ?_, lone_of ?_, lone_of ?_, lone_of ?_, ?_, lone_of ?_, ?_, ?_, ?_, lone_of ?_, ?_, ?_,
    ⟨one_quiet, rfl, rfl, ?_, ?_, rfl, ?_⟩⟩ <;> decide +kernel

/-- The team covered by a pre-emption request. -/
def asked : State := { solo with teams := [{ wordTeam with preempt := true }] }

theorem witness_breakpoints :
    Lone solo (.brk always 0xFFFF) wordTid one ∧ Lone solo (.trap always 0) wordTid one ∧ one.inRunAhead = false ∧ one.h.hmode = false ∧
    Lone solo (.hint always true 0xFF 1) wordTid one ∧ solo.gangAborted wordTid = false ∧ solo.covered wordTid = false ∧
    Lone asked (.hint always false 0xFF 1) wordTid one ∧ asked.gangAborted wordTid = false ∧ asked.covered wordTid = true ∧ one.isScalar = false := by
  refine ⟨lone_of ?_, lone_of ?_, ?_, ?_, lone_of ?_, ?_, ?_, lone_of ?_, ?_, ?_, ?_⟩ <;> decide +kernel

/-- One cross-lane set of two lanes, of which only lane 1 performs under @P1. -/
theorem witness_cross_lane :
    OneSet duo ∧ wordTid ∈ duo.issue ∧
    ∀ i ∈ [Instr.shfl ⟨1, false⟩ (some 5) 5 .mirror 4 0 (.imm 31) 2, .vote always true (.mask 4) 1, .matchx always true (some 3) 4 2, .elect always (some 4) 3,
      .lanemask always .others 4, .redux always false .add 4 0, .scan always true false .umax 4 0, .redix always false (some 2) true .s32 4 0],
      Ready duo i ∧ participants duo i false ≠ [] := by
  refine ⟨oneSet_of [0, 1] (by decide) (by decide) (by decide +kernel), by decide, ?_⟩
  intro i hi
  have h := List.all_eq_true.mp (?_ : List.all _ (fun i => readyB duo i && !(participants duo i false).isEmpty) = true) i hi
  · simp only [Bool.and_eq_true, Bool.not_eq_true', List.isEmpty_eq_false_iff] at h
    exact ⟨ready_of h.1, h.2⟩
  · decide +kernel

/-- A scratchpad access on another core, misaligned, at the first offset past the run and below it; a global one misaligned and outside the windows; seventeen registers to save. -/
theorem witness_access_traps :
    (∀ i ∈ [Instr.lds always false false .b4 4 ⟨1, 1⟩, .sts always false .b4 4 ⟨1, 496⟩, .atoms always false .add .b4 4 ⟨0, 0xFFFFFFFC⟩ 5,
      .ldc always false 0 .b8 4 ⟨2, 4⟩, .st always 0 .b4 4 ⟨12, 0⟩, .casc always .b4 4 ⟨2, 1⟩ 5 6, .ldc always false 0 .b4 31 ⟨2, 0⟩], Lone solo i wordTid one) ∧
    (∀ i ∈ [Instr.lds always false false .b4 4 ⟨1, 0⟩], Lone (world [{ one with home := 1 }]) i wordTid { one with home := 1 }) ∧
    State.away solo { one with home := 1 } = true ∧ solo.away one = false ∧ solo.scratchOf wordTid = some (0, 512) ∧
    scratchOff one.regs ⟨1, 1⟩ % 4 ≠ 0 ∧ scratchOff one.regs ⟨1, 496⟩ = 512 ∧ scratchOff one.regs ⟨0, 0xFFFFFFFC⟩ = -4 ∧
    (effAddr one.regs ⟨2, 4⟩).toNat % 8 ≠ 0 ∧ solo.ctx? (solo.ctxOf wordTid) = some testCtx ∧
    translateVA testCtx (effAddr one.regs ⟨12, 0⟩) 4 .write = none ∧ translateVA testCtx (effAddr one.regs ⟨2, 0⟩) 4 .read = some (0x40, none) ∧
    (unionRegs (solo.standing one) (destRegs 31 .b4)).length = 17 ∧ one.inPlace = false :=
  ⟨lones_of _ (by decide +kernel), lones_of _ (by decide +kernel), by decide +kernel⟩

/-- A core's pool full at level 0, with no units and no room behind. -/
def fullPool : State :=
  { solo with
    threads := one :: List.replicate 1024 { one with id := .thr 0 0 0 0 1, loc := .parked }
    dies := [{ Die.reset 0 with units := 0 }] }

theorem witness_pool_full : Lone fullPool (.ldc always false 0 .b4 4 ⟨2, 0⟩) wordTid one ∧ (fullPool.makeRoom 0).isNone = true ∧
    (unionRegs (fullPool.standing one) (destRegs 4 .b4)).length ≤ 16 := by
  refine ⟨lone_of ?_, ?_, ?_⟩ <;> decide +kernel

/-- The last four bytes of the run. -/
theorem witness_scratchpad :
    (∀ i ∈ [Instr.lds always true false .b4 4 ⟨1, 492⟩, .sts always false .b4 4 ⟨1, 492⟩, .atoms always false (.cas 5) .b4 4 ⟨1, 492⟩ 6], Lone solo i wordTid one) ∧
    Quiet one ∧ Calm solo wordTid ∧ one.inject = none ∧ solo.away one = false ∧ solo.scratchOf wordTid = some (0, 512) ∧ scratchOff one.regs ⟨1, 492⟩ + 4 = 512 ∧
    (solo.core 0).scr.wf = true ∧ (solo.core 0).scrBad = [] ∧ (∀ x, solo.isObj 0 x = false) := by
  refine ⟨lones_of _ (by decide +kernel), one_quiet, solo_calm, by decide, by decide, by decide, by decide, by decide, by decide, ?_⟩
  intro x
  rfl

/-- An earlier access of the thread in its core's side log. -/
def logged : State :=
  { solo with cores := solo.cores.map fun k => { k with sidelog := [{ t := wordTid, ia := 0x4000, peer := none, op := .write (.store 0x4000 none [1, 2, 3, 4]), held := true }] } }

theorem witness_loads :
    (∀ i ∈ [Instr.ldc always true 3 .b2 4 ⟨2, 2⟩, .lr always .b8 4 ⟨2, 0⟩, .atomc always .fadd .b4 4 ⟨2, 0⟩ 5, .casc always .b8 4 ⟨2, 0⟩ 6 8],
      Lone solo i wordTid one ∧ Lone logged i wordTid one) ∧
    translateVA testCtx (effAddr one.regs ⟨2, 0⟩) 8 .rmw = some (0x40, none) ∧ translateVA testCtx (effAddr one.regs ⟨6, 0⟩) 8 .read = some (0x40, some 5) ∧
    solo.ctx? (solo.ctxOf wordTid) = some testCtx ∧ MayEnd solo wordTid one (unionRegs (solo.standing one) (destRegs 4 .b8)) ∧
    ((solo.park wordTid (successor one.pc) (unionRegs (solo.standing one) (destRegs 4 .b8)) .memory 1 [4, 5] none).logging wordTid = false) ∧
    ((logged.park wordTid (successor one.pc) (unionRegs (solo.standing one) (destRegs 4 .b8)) .memory 1 [4, 5] none).logging wordTid = true) := by
  refine ⟨fun i hi => ⟨lones_of _ (by decide +kernel) i hi, lones_of _ (by decide +kernel) i hi⟩, ?_, ?_, ?_, solo_mayEnd _ ?_, ?_, ?_⟩ <;> decide +kernel

/-- SegmentEnds: a thread, and one in a handler. -/
theorem witness_segment_end : solo.thread? wordTid = some one ∧ one.ops = [] ∧ one.inPlace = false ∧ (world [handling]).thread? wordTid = some handling ∧
    handling.ops = [] ∧ handling.inPlace = true ∧ (1 : Nat) ≠ 0 := by decide

/-- A sound line, a poisoned one, host memory, a peer, a subscribed region of it, a page that migrates, one not present, a report already made. -/
theorem witness_home :
    solo.thread? wordTid = some one ∧ (∀ k ∈ solo.cores, k.slots = []) ∧ solo.mem.wf = true ∧ solo.route 0x40 false = .to (.mem 0x40) ∧
    solo.route 0x40 true = .to (.mem 0x40) ∧ solo.poison.contains 1 = false ∧ State.route { solo with poison := [1] } 0x40 true = .to (.mem 0x40) ∧
    solo.route 0x1000 true = .to (.sys 0 0) ∧ solo.subFor wordTid 5 0x40 4 = none ∧
    (State.subFor { solo with dies := [{ Die.reset 0 with subs := [{ ctx := 0, ia := 0x40, len := 64, mod := 5, active := true, copy := [] }] }] }
      wordTid 5 0x7C 4).isSome = true ∧
    solo.route 0x2000 false = .blocked ∧ solo.route 0x3000 true = .fault .writeProtect 4 0x11 ∧ solo.route 0x4000 false = .fault .notPresent 0 0 ∧
    solo.reported.contains (4, .notPresent) = false ∧ State.reported { solo with reported := [(4, .notPresent)] } = [(4, .notPresent)] := by decide +kernel

/-- Stores and reductions to module memory, a peer, a migrating page and one not present; behind a log entry, with and without room. -/
theorem witness_stores :
    (∀ i ∈ [Instr.st always 0 .b16 4 ⟨2, 0⟩, .st always 0 .b4 4 ⟨6, 0⟩, .st always 0 .b4 4 ⟨8, 0⟩, .st always 0 .b4 4 ⟨2, 0x1FC0⟩, .red always .add .b8 4 ⟨2, 0⟩],
      Lone solo i wordTid one ∧ Lone logged i wordTid one) ∧
    Quiet one ∧ (∀ c ∈ solo.cores, c.slots = []) ∧ solo.ctx? (solo.ctxOf wordTid) = some testCtx ∧
    translateVA testCtx (effAddr one.regs ⟨2, 0⟩) 16 .write = some (0x40, none) ∧ solo.route 0x40 true = .to (.mem 0x40) ∧
    translateVA testCtx (effAddr one.regs ⟨6, 0⟩) 4 .write = some (0x40, some 5) ∧ solo.route 0x4000 true = .fault .notPresent 0 0 ∧
    translateVA testCtx (effAddr one.regs ⟨8, 0⟩) 4 .write = some (0x4000, none) ∧
    translateVA testCtx (effAddr one.regs ⟨2, 0x1FC0⟩) 4 .write = some (0x2000, none) ∧ solo.route 0x2000 true = .blocked ∧
    solo.logging wordTid = false ∧ logged.logging wordTid = true ∧ ((logged.core 0).sidelog.filter SideEnt.takesPlace).length < 256 ∧
    (let s : State := { solo with cores := logged.cores.map fun k => { k with sidelog := List.replicate 256 (k.sidelog.headD { t := wordTid, ia := 0, peer := none, op := .marker .fab, held := true }) } }
     ¬ ((s.core 0).sidelog.filter SideEnt.takesPlace).length < 256) := by
  refine ⟨fun i hi => ⟨lones_of _ (by decide +kernel) i hi, lones_of _ (by decide +kernel) i hi⟩, one_quiet, ?_⟩
  decide +kernel

/-- A store-conditional waits with its reservation, and without. -/
def condWait (ia : Nat) (v : Option Resv) : State :=
  { world [{ one with resv := v, hold := true }] with resWait := [.sc wordTid ia none [1, 2, 3, 4] 3] }

theorem witness_store_conditional :
    Lone solo (.sc always .b4 4 ⟨2, 0⟩ 3) wordTid one ∧ Lone logged (.sc always .b8 4 ⟨2, 0⟩ 3) wordTid one ∧ solo.logging wordTid = false ∧ logged.logging wordTid = true ∧
    (condWait 0x40 (some ⟨1, none, 0⟩)).resWait.find? (ResWait.isSc wordTid) = some (.sc wordTid 0x40 none [1, 2, 3, 4] 3) ∧
    (condWait 0x40 (some ⟨1, none, 0⟩)).holdsLine wordTid 1 none = true ∧ (condWait 0x40 none).holdsLine wordTid 1 none = false ∧
    (condWait 0x40 none).route 0x40 true = .to (.mem 0x40) ∧ (condWait 0x4000 none).route 0x4000 true = .fault .notPresent 0 0 := by
  refine ⟨lone_of ?_, lone_of ?_, ?_⟩ <;> decide +kernel

/-- A write of the thread under way to the peer. -/
def outgoing : State :=
  { solo with out := [{ t := wordTid, core := 0, dest := .peer 5 0x40, op := .write (.store 0x40 (some 5) [1]), seq := 0, late := false }], nextSeq := 1 }

/-- FENCE with nothing and with something outstanding; SUBS with a bad length, without a window, on a local one and through PEER; STM with one member at the end of the run. -/
theorem witness_fences :
    (∀ i ∈ [Instr.fence always .sys, .pref always .l2 ⟨2, 0⟩, .subs always 20 ⟨6, 0⟩ 4, .subs always 20 ⟨6, 0⟩ 2, .subs always 20 ⟨12, 0⟩ 2, .subs always 20 ⟨2, 0⟩ 2,
      .unsub always ⟨6, 0⟩, .unsub always ⟨12, 0⟩, .stm always .b4 4 ⟨2, 0⟩ 2 4], Lone solo i wordTid one) ∧
    Lone outgoing (.fence always .fab) wordTid one ∧ solo.domainBusy wordTid .sys = false ∧ outgoing.domainBusy wordTid .fab = true ∧ Quiet one ∧
    solo.logging wordTid = false ∧ (one.regs.x32 2).toNat = 64 ∧ (one.regs.x32 1).toNat % 64 ≠ 0 ∧
    translateVA testCtx (effAddr one.regs ⟨12, 0⟩) 64 .read = none ∧ translateVA testCtx (effAddr one.regs ⟨6, 0⟩) 64 .read = some (0x40, some 5) ∧
    (solo.die (solo.dieOf 0)).subs.length < 256 ∧ one.regs.x64 2 = 0x40 ∧ (one.regs.x32 4).toNat % 32 = 0 ∧ (one.regs.x32 4).toNat + 32 ≤ 512 ∧
    translateVA testCtx (effAddr one.regs ⟨2, 0⟩) 4 .write = some (0x40, none) ∧ solo.scratchOf wordTid = some (0, 512) := by
  refine ⟨lones_of _ (by decide +kernel), lone_of (by decide +kernel), ?_, ?_, one_quiet, ?_⟩ <;> decide +kernel

/-! ### Engines, barriers, queues -/

/-- A descriptor of eight words. -/
def desc (kind : EngKind) (w : List Word) : EngDesc := { kind, w, srcIa := none, dstIa := none, tag := none, regs := [] }

/-- DescriptorChecks: 448 bytes within the run up to its end, one more, no team, an unused field, a missing window; from module memory. -/
theorem witness_descriptors :
    checkDesc (some testCtx) (some 512) false 0 (desc .cpy [0, 0, 64, 0, 448, 0xFFFFFFFF, 0, 3]) = .ok (desc .cpy [0, 0, 64, 0, 448, 0xFFFFFFFF, 0, 3]) ∧
    checkDesc (some testCtx) (some 512) false 0 (desc .cpy [0, 0, 64, 0, 449, 0xFFFFFFFF, 0, 3]) = .error ⟨.scratchRange, 64, false⟩ ∧
    checkDesc (some testCtx) none false 0 (desc .cpy [0, 0, 64, 0, 448, 0xFFFFFFFF, 0, 3]) = .error ⟨.awayAccess, 0, false⟩ ∧
    checkDesc (some testCtx) (some 512) false 0 (desc .cpy [0, 0, 64, 0, 448, 0xFFFFFFFF, 1, 3]) = .error ⟨.engineFormat, 0, false⟩ ∧
    checkDesc (some testCtx) (some 512) false 0 (desc .cpy [0, 0, 64, 0, 448, 8, 0, 3]) = .error ⟨.engineFormat, 0, false⟩ ∧
    checkDesc (some testCtx) (some 512) false 0 (desc .cpy [0xFF000, 0, 64, 0, 64, 0xFFFFFFFF, 0, 2]) = .error ⟨.windowMiss, 0xFF000, true⟩ ∧
    checkDesc (some testCtx) (some 512) false 0 (desc .fill [1, 0, 0xFF000, 0, 64, 0xFFFFFFFF, 0, 0]) = .error ⟨.windowMiss, 0xFF000, false⟩ ∧
    checkDesc (some testCtx) (some 512) false 0 (desc .gath [0x40, 0, 64, 0, 64, 496, 16, 0x00000202]) =
      .ok { desc .gath [0x40, 0, 64, 0, 64, 496, 16, 0x00000202] with srcIa := some (0x40, none) } := by decide +kernel

/-- Descriptors at X8 (FILL to scratchpad), X16 (scratchpad to scratchpad, also COLL's) and X24 (CPYR of one register). -/
def engineer (l : Nat) : Thread :=
  lane l [0, 0, 0, 0, 0, 0, 0, 0, 0xAABBCCDD, 0, 64, 0, 448, 0xFFFFFFFF, 0, 2, 0, 0, 64, 0, 64, 0xFFFFFFFF, 0, 3, 0, 0, 64, 0, 128, 0xFFFFFFFF, 0, 2] 1

/-- A command in slot `n` of core 0. -/
def commandIn (n : Nat) (d : EngDesc) : Command :=
  { slot := n, ctx := 0, grid := 0, team := some 0, who := wordTid, tslot := 0, q := none, d, done := [], discarded := false, st := .running
    coll := none, result := none, dropped := false, buffer := [], scr := 0, arrived := 0, seq := 0, pts := 0 }

/-- The machine with these commands under way. -/
def running (s : State) (cs : List Command) : State := { s with cores := s.cores.map fun k => { k with slots := cs } }

theorem witness_engines :
    let s := world [engineer 0]
    (∀ i ∈ [Instr.fill always 8, .cpy always 16, .coll always 16, .fill always 16, .gath always 0, .scat always 0, .mxs always 8], Lone s i wordTid (engineer 0)) ∧
    Quiet (engineer 0) ∧ Calm s wordTid ∧
    (checkDesc (s.ctx? (s.ctxOf wordTid)) (some 512) false 0 (descOf .fill (engineer 0).regs 8)) = .ok (descOf .fill (engineer 0).regs 8) ∧
    (checkDesc (s.ctx? (s.ctxOf wordTid)) (some 512) false 0 (descOf .coll (engineer 0).regs 16)) = .ok (descOf .coll (engineer 0).regs 16) ∧
    (checkDesc (s.ctx? (s.ctxOf wordTid)) (some 512) false 0 (descOf .fill (engineer 0).regs 16)) = .error ⟨.engineFormat, 0, true⟩ ∧
    s.collGate wordTid 0 = none ∧ s.gangState wordTid = none ∧ s.scratchOf wordTid = some (0, 512) ∧
    State.collGate { s with grids := [{ wordGrid with live := { Live.reset with droppedGroups := [(0, 0)] } :: List.replicate 3 Live.reset }] } wordTid 0 =
      some (.collectiveExcluded, 0) ∧
    (running s ((List.range 64).map fun n => commandIn n (descOf .fill (engineer 0).regs 8))).freeSlot 0 = none := by
  refine ⟨lones_of _ (by decide +kernel), quiet_of (by decide), ⟨by decide, by decide⟩, ?_⟩
  decide +kernel

theorem witness_cpyr :
    let s := world [engineer 0, engineer 1]
    let i : Instr := .cpyr always 24 8 0
    s.issue = wordTid :: [.thr 0 0 0 0 1] ∧ Ready s i ∧ OneSet s ∧ (∀ u ∈ s.issue, ∃ x, s.thread? u = some x ∧ performs i x = true ∧ Quiet x) ∧
    s.thread? wordTid = some (engineer 0) ∧ Calm s wordTid ∧
    checkDesc (s.ctx? (s.ctxOf wordTid)) (some 512) false 1 (descOf .cpyr (engineer 0).regs 24) = .ok (descOf .cpyr (engineer 0).regs 24) := by
  refine ⟨by decide, ready_of (by decide +kernel), oneSet_of [0, 1] (by decide) (by decide) (by decide +kernel), ?_, by decide, ⟨by decide, by decide⟩, ?_⟩
  · intro u hu
    obtain ⟨x, h1, h2⟩ := each_of (p := fun x => performs (.cpyr always 24 8 0) x && quietB x) (by decide +kernel) u hu
    simp only [Bool.and_eq_true] at h2
    exact ⟨x, h1, h2.1, quiet_of h2.2⟩
  · decide +kernel

/-- A FILL of the last line of the run, and one of a page that is not present. -/
def filling (d : EngDesc) : State := running solo [commandIn 0 d]

theorem witness_commands :
    (solo.thread? wordTid = some one ∧ (∀ k ∈ solo.cores, k.slots = []) ∧ (desc .fill [1, 0, 64, 0, 4, 0xFFFFFFFF, 0, 2]).total ≠ 0 ∧
      (desc .fill [1, 0, 64, 0, 0, 0xFFFFFFFF, 0, 2]).total = 0 ∧ (desc .fill [1, 0, 64, 0, 0, 0xFFFFFFFF, 0, 2]).evq = false) ∧
    (let s := filling (desc .fill [1, 0, 508, 0, 4, 0xFFFFFFFF, 0, 2])
     s.commands.length = 1 ∧ (s.command? 0 0).isSome = true ∧ (commandIn 0 (desc .fill [1, 0, 508, 0, 4, 0xFFFFFFFF, 0, 2])).nextUnit s 0 = some 7 ∧
      s.held = [] ∧ (s.core 0).scr.wf = true) ∧
    (∀ x, (filling (desc .fill [1, 0, 508, 0, 4, 0xFFFFFFFF, 0, 2])).isObj 0 x = false) ∧
    (let d : EngDesc := { desc .fill [1, 0, 0x4000, 0, 64, 0xFFFFFFFF, 0, 0] with dstIa := some (0x4000, none) }
     d.dstSp = false ∧ (commandIn 0 d).nextUnit (filling d) 0 = some 0x100 ∧ (filling d).route 0x4000 true = .fault .notPresent 0 0) := by
  refine ⟨by decide +kernel, by decide +kernel, fun _ => rfl, by decide +kernel⟩

/-- A barrier in the last 16 bytes of the run: a good and a bad tag word, a released tag and another. -/
theorem witness_barriers :
    (∀ i ∈ [Instr.binit always ⟨1, 480⟩ 0 1, .binit always ⟨1, 480⟩ 0 12, .barr always ⟨1, 480⟩ 2, .bwait always ⟨1, 480⟩ 0, .bwait always ⟨1, 480⟩ 1],
      Lone solo i wordTid one) ∧
    Quiet one ∧ Calm solo wordTid ∧ solo.away one = false ∧ solo.scratchOf wordTid = some (0, 512) ∧ scratchOff one.regs ⟨1, 480⟩ = 496 ∧
    (one.regs.x32 1).toNat / 2 ^ 17 = 0 ∧ (one.regs.x32 12).toNat / 2 ^ 17 ≠ 0 ∧ solo.objAt 0 496 = 0 ∧ (one.regs.x32 0).toNat = 0 ∧ (one.regs.x32 1).toNat = 16 ∧
    MayEnd solo wordTid one (unionRegs (solo.standing one) []) := by
  refine ⟨lones_of _ (by decide +kernel), one_quiet, solo_calm, ?_, ?_, ?_, ?_, ?_, ?_, ?_, ?_, solo_mayEnd _ ?_⟩ <;> decide +kernel

theorem witness_objects : (solo.core 0).scr.wf = true ∧ 496 % 16 = 0 ∧ natOfBytes ((solo.core 0).scr.read (496 + 8) 2) ≠ 1 := by decide

/-- Queue 0 unbound, 1 bound and empty, 2 with a result, 3 full, 15 in LOOP. -/
def queuedTeam : Team :=
  let e := List.replicate 9 (1 : Word)
  { wordTeam with queues := [⟨0, [], []⟩, ⟨1, [], []⟩, ⟨1, [], [List.replicate 8 5]⟩, ⟨1, List.replicate 16 e, []⟩] ++ List.replicate 11 ⟨0, [], []⟩ ++
    [⟨7, [], [List.replicate 8 6]⟩] }
def queued : State := { solo with teams := [queuedTeam] }

theorem witness_queues :
    (∀ i ∈ [Instr.qpush always false 0 0 3, .qpop always 8 0, .qpopNb always 8 0 3, .qstat always 8 0, .qpush always true 1 8 3, .qpush always false 3 0 3,
      .qpush always false 15 0 3, .qpop always 8 2, .qpopNb always 8 15 3, .qpop always 8 1, .qpopNb always 24 1 3, .qstat always 31 15], Lone queued i wordTid one) ∧
    Quiet one ∧ queued.away one = false ∧ queued.teamOf wordTid = some queuedTeam ∧ queued.logging wordTid = false ∧
    (queuedTeam.queue 0).kind = 0 ∧ (queuedTeam.queue 1).kind ≠ 0 ∧ (queuedTeam.queue 3).push.length = 16 ∧ (queuedTeam.queue 1).push.length < 16 ∧
    queued.queuePopper 0 0 0 1 = none ∧ (queuedTeam.queue 2).result ≠ [] ∧ (queuedTeam.queue 1).result = [] ∧ (queuedTeam.queue 15).kind = 7 ∧
    MayEnd queued wordTid one (unionRegs (queued.standing one) (seqFrom 8 8)) := by
  refine ⟨lones_of _ (by decide +kernel), one_quiet, ?_, ?_, ?_, ?_, ?_, ?_, ?_, ?_, ?_, ?_, ?_, ⟨one_quiet, .inr ⟨?_, ?_, ?_⟩⟩⟩ <;> decide +kernel

/-! ### Matrix instructions -/

theorem witness_quarters :
    quarterForm (.tzero always false .f32 4) ≠ none ∧ Quarters quad (.tzero always false .f32 4) [0] quarter ∧
    quad.tileCause (quarter 0) (quad.handleOf (quarter 0) false 4) 2 true = none ∧
    (quad.tileCause (quarter 0) (quad.handleOf (quarter 0) false 0) 2 true).isSome = true ∧
    Lone solo (.tzero always false .f32 4) wordTid one ∧ (solo.groupOf 0 0 0 0).live.getLsbD 1 = false ∧
    (let s : State := { solo with teams := [{ wordTeam with groups := [{ Group.reset with live := 0xFF }] }] }
     ∀ n, n < 8 → (s.groupOf 0 0 0 0).live.getLsbD n = true) := by
  refine ⟨by simp [quarterForm], quarters_of (by decide) (by decide) (by decide +kernel) (by decide +kernel), ?_, ?_, lone_of ?_, ?_, ?_⟩ <;> decide +kernel

/-- A quarter that allocates, into an empty store and a full one; a thread with no tile, and one with a tile, its only holder. -/
theorem witness_tiles :
    Quarters bare (.talloc always 4 3 1024) [0] quarter ∧ (∀ t ∈ quarter 0, ∀ th, bare.thread? t = some th → th.home = 0 ∧ th.shadow = none ∧ th.tile = none) ∧
    (bare.core 0).allocs = [] ∧
    Lone solo (.tfree always) wordTid one ∧ one.tile = none ∧ solo.away one = false ∧
    (let th := { one with tile := some 0 }
     let s : State := { world [th] with cores := [{ Core.reset 0 with allocs := [{ unit := 0, n := 16384, holders := [wordTid], shadow := none }] }] }
     Lone s (.tfree always) wordTid th ∧ Quiet th ∧ (s.core 0).acc.wf = true ∧ s.away th = false) := by
  refine ⟨quarters_of (by decide) (by decide) (by decide +kernel) (by decide +kernel), ?_, by decide, lone_of (by decide +kernel), by decide, by decide,
    lone_of ?_, quiet_of ?_, ?_, ?_⟩
  · intro t ht th hs
    have := all_of (s := bare) (p := fun th => decide (th.home = 0 ∧ th.shadow = none ∧ th.tile = none)) (by decide +kernel) ht hs
    simpa using this
  all_goals decide +kernel

/-- The tile of `quad`, its first unit, and the image of 1,024 bytes that a run of 1,088 holds from offset 64. -/
def quadAl : Alloc := { unit := 4, n := 2, holders := quarter 0, shadow := none }
def quadWide : State := { quad with grids := [{ wordGrid with kernel := { wordKernel with scratch := 1088 }, record := { wordRecord with fslots := setAt wordRecord.fslots 1 0x11 } }] }

theorem witness_tile_moves :
    HoldsTile quadWide (quarter 0) quadAl 4 2 true 4 ∧ HoldsTile quadWide (quarter 0) quadAl 4 (1 + 1) false 4 ∧
    (∀ i ∈ [Instr.tzero always false .f32 4, .tld always false .f32 4 ⟨2, 0⟩, .tst always true .tile .f32 4 ⟨2, 0⟩, .tfill always false 4 ⟨2, 0⟩ 1,
      .tspill always false 4 ⟨2, 0⟩ 1, .frags always false .f16 .f32 16 4, .tsig always false .f32 16 4], Quarters quadWide i [0] quarter) ∧
    (∀ t ∈ quarter 0, ∀ th, quadWide.thread? t = some th → th.core = 0 ∧ Calm quadWide t) ∧ (∀ t ∈ quarter 0, quadWide.scratchOf t = some (0, 1088)) ∧
    (quadWide.core 0).scrBad = [] ∧ (quadWide.core 0).accBad = [] ∧ (quadWide.core 0).acc.wf = true ∧ (quadWide.core 0).scr.wf = true ∧
    (∀ x, quadWide.isObj 0 x = false) ∧ scratchOff (quadWide.regsOf false wordTid) ⟨2, 0⟩ = 64 := by
  refine ⟨by simp only [HoldsTile]; decide +kernel, by simp only [HoldsTile]; decide +kernel, ?_, ?_, by decide +kernel, by decide, by decide, by decide, by decide,
    fun _ => rfl, by decide⟩
  · intro i hi
    have h := List.all_eq_true.mp (?_ : List.all _ (fun i => eachB quadWide (fun th => cleanB quadWide i th && performs i th && quietB th && !quadWide.away th)) = true) i hi
    · exact quarters_of (by decide) (by decide) h (by decide +kernel)
    · decide +kernel
  · intro t ht th hs
    have := all_of (s := quadWide) (p := fun th => decide (th.core = 0 ∧ quadWide.logging th.id = false)) (by decide +kernel) ht hs
    have he : ∀ u ∈ quadWide.issue, ∀ x, quadWide.thread? u = some x → x.id = u := fun u _ x hx => by
      simpa [State.thread?] using List.find?_some hx
    simp only [decide_eq_true_eq] at this
    exact ⟨this.1, ⟨(he t ht th hs) ▸ this.2, by decide⟩⟩

/-- MMAQ and MMAZ with FP16 pairs in slot 1; slot 0 has no pair. -/
theorem witness_products :
    Quarters quadWide (.mmaz always false true .f32 4 16 16 0 1 none) [0] quarter ∧ Quarters quadWide (.mmaq always false false .f32 4 16 16 0 1 (some 0)) [0] quarter ∧
    pairShape (quadWide.slotOf wordTid 1) = some (16, 16) ∧ pairShape (quadWide.slotOf wordTid 0) = none ∧
    Quarters quadWide (.mmaq always false false .f32 4 16 16 0 0 none) [0] quarter ∧ (∀ t ∈ quarter 0, (quadWide.regsOf false t).bad = []) ∧
    isNum (FVal.num true 3 2) = true := by
  refine ⟨quarters_of ?_ ?_ ?_ ?_, quarters_of ?_ ?_ ?_ ?_, ?_, ?_, quarters_of ?_ ?_ ?_ ?_, ?_, ?_⟩ <;> decide +kernel

/-! ### Collectives, segments, launches, events -/

/-- A grid of one team whose membership 0 has group 0; membership 1 has group 1 only; the context's core group 0 is core 0. -/
def memberGrid : Grid := { wordGrid with mdef := [0x8000000000000001, 0x8000000000000002, 0, 0] }
def members : State :=
  { solo with grids := [memberGrid], ctxs := [{ testCtx with cgdef := [0x8000000000000000, 0, 0, 0], cgtab := [[0x80000000], [], [], []] }] }

theorem witness_collectives :
    (∀ i ∈ [Instr.cbr always false true 1 0 1 0, .cbr always true false 1 0 1 0, .csync always false 0, .csync always true 0, .csync always false 2, .csync always false 1, .gbar always false 0],
      Lone members i wordTid one) ∧
    Quiet one ∧ members.grid? 0 0 = some memberGrid ∧ members.gangState wordTid = none ∧ one.core = one.home ∧
    members.collCause one (.any 0) = none ∧ members.collCause one (.csync 0) = none ∧ (getAt 0 memberGrid.mdef 2).getLsbD 63 = false ∧
    (getAt 0 memberGrid.mdef 1).getLsbD 63 = true ∧ (getAt 0 memberGrid.mdef 1).getLsbD 0 = false ∧ (0 : Nat) < memberGrid.kernel.groups ∧
    Grid.excluded { memberGrid with live := { Live.reset with droppedGroups := [(0, 0)] } :: List.replicate 3 Live.reset } 0 0 0 = true ∧
    MayEnd members wordTid one (members.standing one) ∧ performs (.csync ⟨1, false⟩ false 0) one = false ∧ Clean members (.csync ⟨1, false⟩ false 0) one := by
  refine ⟨lones_of _ (by decide +kernel), one_quiet, ?_, ?_, ?_, ?_, ?_, ?_, ?_, ?_, ?_, ?_, ⟨one_quiet, .inr ⟨?_, ?_, ?_⟩⟩, ?_, clean_of ?_⟩ <;> decide +kernel

/-- An ANY instance at which lane 0 has arrived with the value 1, target 0x1040, successor 0x1001. -/
def arrival : Arrived := { team := 0, group := 0, lane := 0, value := true, guard := true, target := 0x1040, succ := 0x1001, at_ := 0x1000 }
def anyInst (since : Option Nat) : Inst :=
  { key := 0, kind := .any 0, num := 0, mismatch := false, arrived := [arrival], contributed := [(0, 0)], ranks := [], since }
def resolving (th : Thread) : State := { world [th] with grids := [{ memberGrid with insts := [anyInst (some 0)], nextKey := 1 }] }

/-- The thread parked at the instance, and run ahead to an address. -/
def atInst : Thread := { one with wait := .cbr 0, pend := 1, loc := .parked }
def ranAhead (pred : DWord) : Thread :=
  { one with regions := [{ start := 0x1000, abort := 0, attempt := 0, preds := 1, kept := [(1, 16)], held := [], reads := [], units := [], allocs := []
                           partial_ := false, ahead := some (0, 0x1040, 0x1001, pred, 0) }] }

theorem witness_outcomes :
    ((resolving atInst).inst? 0 0 0).isSome = true ∧ (anyInst (some 0)).outcome [] = true ∧
    (let s := resolving atInst
     let gr := { memberGrid with insts := [anyInst (some 0)], nextKey := 1 }
     gr.gangOk = true ∧ s.localDone gr (anyInst (some 0)) = true ∧ gr.awaited (anyInst (some 0)) = [] ∧ (anyInst (some 0)).since ≠ none ∧
      s.cycle < 0 + s.collCycles gr.ctx ∧ gr.excluded 0 0 0 = false ∧ s.thread? wordTid = some atInst ∧ atInst.ops = [] ∧ atInst.regions = []) ∧
    (let s : State := { resolving atInst with cycle := 2 ^ 40 }
     0 + s.collCycles 0 ≤ s.cycle) ∧
    (∀ p : DWord, (resolving (ranAhead p)).thread? wordTid = some (ranAhead p) ∧ (ranAhead p).loc = .resident ∧ (ranAhead p).detected = none) ∧
    (ranAhead 0x1001).regions ≠ [] ∧ (resolving (ranAhead 0x1040)).unanswered wordTid = false := by
  refine ⟨?_, ?_, ?_, ?_, fun p => ⟨rfl, rfl, rfl⟩, ?_, ?_⟩ <;> decide +kernel

/-- LDG undefined, misaligned, at the end of the run and past it; MBRD of an undefined and a defined membership. -/
theorem witness_group_loads :
    (∀ i ∈ [Instr.ldg always .add .s32 .b4 4 ⟨1, 492⟩ 0 3, .ldg always .mini .f32 .b4 4 ⟨1, 1⟩ 0 3, .ldg always .max .f16x2 .b16 4 ⟨1, 496⟩ 0 3,
      .ldg always .add .s32 .b4 4 ⟨1, 0⟩ 1 3, .mbrd always .groups 4 0, .mbrd always .epoch 4 2, .mbrd always .self 4 0, .mbrd always .mods 4 0], Lone members i wordTid one) ∧
    Quiet one ∧ members.away one = false ∧ members.cgOf wordTid 0 = some [0x80000000] ∧ members.cgOf wordTid 1 = none ∧ members.scratchOf wordTid = some (0, 512) ∧
    scratchOff one.regs ⟨1, 492⟩ + 4 = 512 ∧ scratchOff one.regs ⟨1, 1⟩ % 4 ≠ 0 ∧ scratchOff one.regs ⟨1, 496⟩ = 512 ∧
    spansModules members.modid [0x80000000] = false ∧ members.gridOf wordTid = some memberGrid ∧ memberGrid.gangWide 0 = false ∧
    MayEnd members wordTid one (unionRegs (members.standing one) (destRegs 4 .b4)) := by
  refine ⟨lones_of _ (by decide +kernel), one_quiet, ?_, ?_, ?_, ?_, ?_, ?_, ?_, ?_, ?_, ?_, ⟨one_quiet, .inr ⟨?_, ?_, ?_⟩⟩⟩ <;> decide +kernel

/-- A kernel with one live list, of registers 1 and 31. -/
def listed (th : Thread) : State := { world [th] with grids := [{ wordGrid with kernel := { wordKernel with live := [[1, 31]] } }] }

theorem witness_named_ends :
    (∀ i ∈ [Instr.seg always true 0 1 1 4, .fwd always (some 0) 0 1, .fwd always (some 14) 0 1, .seg always false 0 0 1 0, .seg always false 1 1 1 0, .yield always 1 0, .fwd always none 0 1],
      Lone (listed one) i wordTid one) ∧
    (∀ i ∈ [Instr.seg always true 0 1 1 4, .yield always 1 0, .fwd always (some 0) 0 1], Lone (listed handling) i wordTid handling ∧ handling.h.hmode = true) ∧
    ((listed one).kernelOf wordTid).bind (fun k => k.live[0]?) = some [1, 31] ∧ MayEnd (listed one) wordTid one [1, 31] ∧
    (listed one).logging wordTid = false ∧ (listed one).domainDie wordTid 0 = true ∧ (listed one).recordRoom 0 = true ∧ one.tile = none ∧ one.whole = false ∧
    State.domainDie { listed one with ctxs := [{ testCtx with placedom := 1 }] } wordTid 5 = false ∧ (listed one).covered wordTid = false := by
  refine ⟨lones_of _ (by decide +kernel), fun i hi => ⟨lones_of _ (by decide +kernel) i hi, rfl⟩, ?_, ⟨one_quiet, .inr ⟨?_, ?_, ?_⟩⟩, ?_, ?_, ?_, ?_, ?_, ?_, ?_⟩ <;>
    decide +kernel

/-- LAUNCH misaligned, outside the windows, of a record in memory and through PEER; SPAWN with room; MBOX inside and outside the domain. -/
theorem witness_launches :
    (∀ i ∈ [Instr.launch always false 14 ⟨2, 0⟩, .launch always false 14 ⟨12, 0⟩, .launch always true 14 ⟨4, 0⟩, .launch always false 14 ⟨6, 0xC0⟩, .spawn always 14 16,
      .mbox always 14 16 14, .mbox always 14 16 1], Lone solo i wordTid one) ∧
    Quiet one ∧ solo.ctx? (solo.ctxOf wordTid) = some testCtx ∧ (effAddr one.regs ⟨2, 0⟩).toNat % 256 ≠ 0 ∧ (effAddr one.regs ⟨4, 0⟩).toNat % 256 = 0 ∧
    translateVA testCtx (effAddr one.regs ⟨12, 0⟩) 256 .read = none ∧ (effAddr one.regs ⟨12, 0⟩).toNat % 256 = 0 ∧
    translateVA testCtx (effAddr one.regs ⟨4, 0⟩) 256 .read = some (0x100, none) ∧ translateVA testCtx (effAddr one.regs ⟨6, 0xC0⟩) 256 .read = some (0x100, some 5) ∧
    solo.logging wordTid = false ∧ solo.choice.1 = 0 ∧ (State.choice { solo with choices := [1] }).1 = 1 ∧
    (match (solo.fetchRecord wordTid testCtx 0x100).2 with
      | .bytes bs => decide (bs.length = 256)
      | _ => false) = true ∧
    (solo.fetchRecord wordTid testCtx 0x100).1.launchRoom 0 = true ∧ (solo.fetchRecord wordTid testCtx 0x100).1.submitsBehind wordTid = false ∧
    solo.taskRoom (solo.dieOf one.core) = true ∧ testCtx.placedom.getLsbD 5 = true ∧ testCtx.placedom.getLsbD 16 = true ∧
    State.domainDie { solo with ctxs := [{ testCtx with placedom := 1 }] } wordTid 5 = false ∧
    MayEnd solo wordTid one (unionRegs (solo.standing one) [14]) := by
  refine ⟨lones_of _ (by decide +kernel), one_quiet, ?_, ?_, ?_, ?_, ?_, ?_, ?_, ?_, ?_, ?_, ?_, ?_, ?_, ?_, ?_, ?_, ?_, solo_mayEnd _ ?_⟩ <;> decide +kernel

/-- Event 5 is set; core 0's event queue holds an entry of context 1 and then one of context 0. -/
def evented : State :=
  let e (c : Nat) : EvEntry := { ctx := c, kind := 0, status := 0, tag := 0, data := 7, tslot := 0, group := 0, lane := 0 }
  { solo with ctxs := [{ testCtx with events := 32 }], cores := solo.cores.map fun k => { k with evq := [e 1, e 0] } }

theorem witness_events :
    (∀ i ∈ [Instr.evset always (.imm 255), .evset always (.mask 0 7), .evclr always (.reg 14), .evwait always (.imm 5), .evwait always (.imm 6), .evqpop always 4, .evqpopNb always 4],
      Lone evented i wordTid one ∧ Lone solo i wordTid one) ∧
    Quiet one ∧ evented.logging wordTid = false ∧ Machine.EvForm.mask (.mask 0 7) one.regs = 0 ∧ Machine.EvForm.mask (.imm 5) one.regs = 32 ∧ Machine.EvForm.mask (.imm 6) one.regs &&& ~~~32 ≠ 0 ∧
    ((popEv (evented.core 0).evq 0).1.map (·.ctx)) = some 0 ∧ (solo.core 0).evq = [] ∧
    (let s : State := { world [{ one with wait := .event 64, pend := 1, loc := .parked }] with ctxs := [testCtx] }
     (s.ctx? 0).isSome = true ∧ testCtx.id = 0 ∧ testCtx.waiting = [] ∧ testCtx.queues = [] ∧ (64 : EvMask) ≠ 0 ∧ (64 : EvMask) &&& ~~~(testCtx.events ||| 64) = 0) ∧
    MayEnd solo wordTid one (unionRegs (solo.standing one) (seqFrom 4 4)) := by
  refine ⟨fun i hi => ⟨lones_of _ (by decide +kernel) i hi, lones_of _ (by decide +kernel) i hi⟩, one_quiet, ?_, ?_, ?_, ?_, ?_, ?_, ?_, solo_mayEnd _ ?_⟩ <;> decide +kernel

/-! ### Regions, error log, system -/

/-- A thread with open regions, innermost first; a read mark of four bytes of the scratchpad that hold, or no longer hold, what was read. -/
def region (n : Nat) (part : Bool) (reads : List ReadMark) : Region :=
  { start := 0x1000, abort := 0x1040, attempt := 0, preds := 1, kept := (seqFrom 0 n).map fun r => (r, 0), held := [], reads, units := [], allocs := []
    partial_ := part, ahead := none }
def opened (rs : List Region) : Thread := { one with regions := rs }
def committing (reads : List ReadMark) : State := { world [opened [region 0 false reads]] with resWait := [.commit wordTid] }

theorem witness_regions :
    (∀ i ∈ [Instr.rbegin always 4 1 0, .rkeep always 0 0, .rend always, .rabort always], Lone solo i wordTid one ∧ Lone (world [handling]) i wordTid handling) ∧
    one.depth = 0 ∧ one.h.hmode = false ∧ (opened (List.replicate 4 (region 0 false []))).depth = 4 ∧
    Lone (world [opened (List.replicate 4 (region 0 false []))]) (.rbegin always 4 1 0) wordTid (opened (List.replicate 4 (region 0 false []))) ∧
    (∀ i ∈ [Instr.rkeep always 4 15, .rend always, .rabort always], Lone (world [opened [region 4 false []]]) i wordTid (opened [region 4 false []])) ∧
    (opened [region 4 false [], region 0 false []]).depth = 2 ∧ (region 16 false []).kept.length + 1 ≤ 64 ∧ 64 < (region 64 false []).kept.length + 1 ∧
    (opened [region 4 true []]).regions = [region 4 true []] ∧
    (committing []).thread? wordTid = some (opened [region 0 false []]) ∧ (opened [region 0 false []]).inRunAhead = false ∧
    (committing []).held = [] ∧ (committing []).resWait = [.commit wordTid] ∧
    [ReadMark.mk true 0 [0, 0, 0, 0]].all ((committing []).markHolds 0) = true ∧ [ReadMark.mk true 0 [1, 0, 0, 0]].all ((committing []).markHolds 0) = false := by
  refine ⟨fun i hi => ⟨lones_of _ (by decide +kernel) i hi, lones_of _ (by decide +kernel) i hi⟩, ?_, ?_, ?_, lone_of ?_, lones_of _ ?_, ?_⟩ <;> decide +kernel

theorem witness_system :
    (∀ i ∈ [Instr.errlogPop always 4, .errlogStat always 31, .errlogInj always 1, .errlogInj always 3, .srd always true 30 0x008, .srd always false 31 0x0BF, .swr always false 4 0x00A],
      Lone solo i wordTid one) ∧
    Quiet one ∧ one.regions = [] ∧ solo.logging wordTid = false ∧ (solo.core 0).errlog = [] ∧ (solo.core 0).dropped = [] ∧ (solo.mmode = 1 ∨ solo.mmode = 2) ∧
    solo.thread? wordTid = some one ∧ solo.ctx? (solo.ctxOf wordTid) = some testCtx ∧ testCtx.id = solo.ctxOf wordTid ∧ one.h.join = none ∧
    (popErr [{ ctx := 0, kind := 1, action := 0, attempt := 0, loc := 0, tslot := 0, group := 0, lane := 0 }] 0).1.isSome = true := by
  refine ⟨lones_of _ (by decide +kernel), one_quiet, ?_⟩
  decide +kernel

/-- The scalar thread of the runtime, with a good window in X16 to X23 and a bad one in X0 to X7. -/
def runtimeThread : Thread :=
  { lane 0 (List.replicate 16 1 ++ [0x1000, 0, 0x2000, 0, 0, 0, 3, 0x80000000]) 1 with id := .scalar 0 }
def runtimeWorld : State :=
  let s := world [runtimeThread]
  { s with cores := s.cores.map fun k => { k with bind := some ⟨0, wordPc, some (0, 0), true⟩ } }

theorem witness_handlers :
    (∀ i ∈ [Instr.tret always, .esc always, .halt always true, .halt always false], Lone solo i wordTid one ∧ Lone (world [handling]) i wordTid handling) ∧
    one.h.hmode = false ∧ handling.h.hmode = true ∧ handling.h.pend = 0 ∧ handling.h.join = none ∧
    Handler.pend { handling.h with pend := 1#64 <<< 44 } ≠ 0 ∧ (1#64 <<< 44).getLsbD 44 = true ∧
    (∀ i ∈ [Instr.winset always 7 16, .winset always 0 0, .winsetClr always 7, .ckpt always 4], Lone runtimeWorld i (.scalar 0) runtimeThread) ∧
    Quiet runtimeThread ∧ runtimeWorld.logging (.scalar 0) = false ∧ runtimeWorld.ckpt.rsv = false ∧ runtimeWorld.ckpt.state = 0 ∧
    (let v := windowWords runtimeThread.regs 16
     windowFormat 0 (getAt 0 v 0) (getAt 0 v 1) (getAt 0 v 2) (getAt 0 v 3) = true) ∧
    (let v := windowWords runtimeThread.regs 0
     windowFormat 0 (getAt 0 v 0) (getAt 0 v 1) (getAt 0 v 2) (getAt 0 v 3) = false) ∧
    State.resWait { solo with resWait := [.winset wordTid] } = [.winset wordTid] ∧ solo.resWait.contains (.winset wordTid) = false ∧
    solo.grid? 0 0 = some wordGrid ∧ wordGrid.ended = none ∧ (∀ k ∈ solo.cores, k.slots = []) ∧ Quiet one := by
  refine ⟨fun i hi => ⟨lones_of _ (by decide +kernel) i hi, lones_of _ (by decide +kernel) i hi⟩, ?_, ?_, ?_, ?_, ?_, ?_, lones_of _ ?_, quiet_of ?_, ?_, ?_, ?_, ?_, ?_, ?_, ?_, ?_, ?_, ?_, one_quiet⟩ <;>
    decide +kernel

/-! ### Events of the module -/

/-- An image of one kernel with no table, and one whose magic number is wrong. -/
def image (magic : Byte) (base : Nat) : ImageFile :=
  { elfClass64 := true, elfLsb := true, machine := 0xC241, etype := 3, eflags := 1, aligned := true, base
    code := [magic, 0x4B, 0x48, 0x44, 1, 0, 1, 0, 0, 0, 0, 0, 1, 0, 0, 0, 1, 1, 0, 0, 1, 1, 0, 0, 0, 0, 0, 0, 0, 0, 0, 0, 0, 0, 0, 0x80, 0, 0, 0, 0x80] ++ List.replicate 88 0
    live := [], range := [], liveSecs := [], rangeSecs := [], data := [], entries := [64], relocs := [] }

/-- What a ring read found. -/
def found (r : State × Except HeldAcc (List Byte)) : List Byte := r.2.toOption.getD []

/-- Queue 3 of context 0, its ring in host memory, with `bs` at index 0. -/
def queueOf (w : Word) (st : QState) (ps : List Packet) : UQueue :=
  { id := 3, base := 0, sizeLog := 4, inHost := true, wridx := w, rdidx := 0, next := 0, errcode := 0, state := st, packets := ps }
def ringed (q : UQueue) (bs : List Byte) : State :=
  { solo with ctxs := [{ testCtx with queues := [q], images := [⟨0, [wordKernel]⟩] }], sysMem := [(0, Memory.write [] 0 bs)] }

/-- A header of kind `k`, span `n`, valid; a LAUNCH record whose kernel is at 0x1000. -/
def headerBytes (k n : Nat) : List Byte := [BitVec.ofNat 8 (1 + 16 * k), 0, BitVec.ofNat 8 n, 0, 0, 0, 0, 0]
def launchBytes (wait : Byte) : List Byte := headerBytes 1 5 ++ List.replicate 57 0 ++ [0x10] ++ List.replicate 30 0 ++ [wait] ++ List.replicate 223 0

theorem witness_queue_events :
    loadCheck (image 0x46 0) = 0 ∧ loadCheck (image 0x47 0) ≠ 0 ∧ (image 0x46 0).code.length % 64 = 0 ∧
    translateVA testCtx 0 (ImageFile.block (image 0x46 0)).length .fetch = some (0, none) ∧ (solo.iaWrite 0 (ImageFile.block (image 0x46 0))).isSome = true ∧
    solo.ctx? 0 = some testCtx ∧ solo.queue? 0 3 = none ∧
    (∀ q ∈ [queueOf 0 .idle [], queueOf 17 .fetch [], queueOf 1 .fetch [], queueOf 0 .error []], (ringed q []).queue? 0 3 = some q) ∧
    (2 ^ (queueOf 0 .idle []).sizeLog < ((17 : Word) - (queueOf 0 .idle []).rdidx).toNat) ∧ ¬ 2 ^ (queueOf 0 .idle []).sizeLog < ((16 : Word) - 0).toNat ∧
    (∀ kn ∈ [(0, 1), (2, 1), (3, 1), (1, 5)], let s := ringed (queueOf 5 .fetch []) (headerBytes kn.1 kn.2)
      packetHeaderOk (natOfBytes (found (s.ringRead (queueOf 5 .fetch []) 0 0 8))) = true ∧ headOk testCtx kn.1 (found (s.ringRead (queueOf 5 .fetch []) 0 0 64)) = true) ∧
    packetHeaderOk (natOfBytes (headerBytes 0 2)) = false ∧ natOfBytes (headerBytes 0 2) % 2 = 1 ∧ solo.stop.state = 0 ∧ solo.ckpt.state = 0 ∧ testCtx.dying = false := by
  decide +kernel

theorem witness_launch_packet :
    let q := queueOf 5 .fetch []
    let s := ringed q (launchBytes 0)
    let k : Ctx := { testCtx with queues := [q], images := [⟨0, [wordKernel]⟩] }
    s.ctx? 0 = some k ∧ 5 ≤ (q.wridx - q.next).toNat ∧ k.noDies = false ∧ recordOk s k (found (s.packetRecord q 0)) = true ∧
    k.kernel? (Record.ofBytes (found (s.packetRecord q 0))).kentry = some wordKernel ∧ (Record.ofBytes (found (s.packetRecord q 0))).waitmask &&& ~~~k.events = 0 ∧
    (Record.ofBytes (found ((ringed q (launchBytes 1)).packetRecord q 0))).waitmask &&& ~~~k.events ≠ 0 ∧ k.waiting = [] := by decide +kernel

/-- A held BARRIER packet; a team with a thread, and one without. -/
theorem witness_hold_and_retire :
    (let p : Packet := { idx := 0, span := 1, kind := 3, order := false, clr := false, mask := 1, sig := 0, freed := true, started := true }
     let q := queueOf 0 .hold [p]
     (ringed q []).queue? 0 3 = some q ∧ p.mask &&& ~~~testCtx.events ≠ 0 ∧ (1 : EvMask) &&& ~~~(1 : EvMask) = 0 ∧ q.next = q.wridx) ∧
    (solo.team? 0 0 0).isSome = true ∧ (solo.teams.all fun tm => !solo.teamOver tm) = true ∧
    (let s : State := { solo with threads := [] }
     (s.teams.all fun tm => s.teamOver tm) = true) := by decide +kernel

/-- A gang of two modules in a state, seen at a rank. -/
def ganged (rank : Nat) (st : GangState) (cycle : Nat) : State :=
  { solo with
    cycle
    grids := [{ wordGrid with gang := some { id := 1, size := 2, rank, deadline := 10, state := st, since := 0, acks := if rank = 0 then [0] else [] } }] }

theorem witness_gangs :
    (∀ r ∈ [0, 1], ∀ st ∈ [GangState.uncommitted, .committed, .aborted], ((ganged r st 0).grid? 0 0).isSome = true ∧ ((ganged r st 0).gangOf 0 0).map (·.state) = some st) ∧
    ((ganged 0 .uncommitted 0).gangOf 0 0).map (·.acks.length + 1) = some 2 ∧ (ganged 0 .uncommitted 0).peers = [] ∧
    ¬ 0 + 1 * 10 * Config.cyclesPerUs ≤ (ganged 0 .uncommitted 0).cycle ∧ 0 + 2 * 10 * Config.cyclesPerUs ≤ (ganged 1 .uncommitted (2 ^ 30)).cycle := by decide +kernel

/-- A grid with one team left to start; the same with the core's scratchpad all taken, in the die's only enabled core, overdue; records forwarded. -/
def starting (scratch : Nat) : State :=
  { solo with grids := [{ wordGrid with kernel := { wordKernel with scratch, roles := [(1, 32)] }, record := { wordRecord with nteams := 1 }, dies := 1 }]
              threads := [] }
def overdue : State := { starting Config.scratchBytes with cycle := 65536, disabled := (List.range 175).map (· + 1) }
def forwarded : State :=
  { world [{ one with loc := .offered 0 }] with dies := [{ Die.reset 0 with mailbox := [.records 0 [wordTid] 0] }], cores := [] }

theorem witness_placement :
    solo.stop.state = 0 ∧ solo.pick 1 = none ∧ (((starting 512).pick 0).map (·.ref)) = some (.start (.grid 0 0)) ∧
    (scratchRun (((starting 512).teamsOn 0).map (starting 512).runOf) 512).isSome = true ∧ ((starting 512).core 0).scr.wf = true ∧ (starting 512).threads = [] ∧
    ((forwarded.pick 0).map (·.ref)) = some (.records 0 [wordTid] 0) ∧ (forwarded.thread? wordTid).isSome = true ∧
    (solo.wantsCore 0).isNone = true ∧ ((overdue.wantsCore 0).map (·.1)) = some (.grid 0 0) ∧ overdue.coresOf 0 = [0] ∧
    (match overdue.wantsCore 0 with
      | some (_, n) => overdue.retireCount 0 n == some 1
      | none => false) = true := by decide +kernel

/-- A task packet for die 0 on its way, whose kernel is at 0x1000; the context's kernels for a binding. -/
def tasked : State :=
  { solo with
    ctxs := [{ testCtx with images := [⟨0, [wordKernel]⟩] }]
    out := [{ t := wordTid, core := 0, dest := .group, op := .write (.task ([0, 0x10] ++ List.replicate 62 0) 0), seq := 9, late := false }] }

theorem witness_tasks :
    (tasked.taskReady 8).isNone = true ∧ ((tasked.taskReady 9).map fun q => (q.1.t, q.2.2)) = some (wordTid, 0) ∧ tasked.thread? wordTid = some one ∧
    (tasked.ctxs.all fun k => (k.kernel? 0x1000 == some wordKernel) && taskOk k ([0, 0x10] ++ List.replicate 62 0)) = true ∧ wordKernel.redreq = false ∧
    0 < tasked.ncore ∧ 0 < wordKernel.regs := by decide +kernel

/-- A line with TGT for slot 0 and its parity, and the same line with RSV set; a thread that has arrived at it. -/
def goodLine : Line := BitVec.ofNat 512 (2 ^ 480 + 2 ^ 511)
def illegalLine : Line := BitVec.ofNat 512 (2 ^ 480 + 2 ^ (480 + 29))
def arriving (l : Line) (pc : DWord) : State :=
  let s := world [{ one with pc, arr := .checked }]
  { s with cores := s.cores.map fun k => { k with icache := [(0, l)] } }

theorem witness_lines :
    translateVA testCtx 0 64 .fetch = some (0, none) ∧ ((arriving goodLine 0).core 0).cached 0 = some goodLine ∧ lineParity goodLine = true ∧
    ((arriving illegalLine 0).core 0).cached 0 = some illegalLine ∧ lineParity illegalLine = true ∧
    (lineWord goodLine).getLsbD 29 = false ∧ (lineWord illegalLine).getLsbD 29 = true ∧ (lineWord goodLine).getLsbD 0 = true ∧ (lineWord goodLine).getLsbD 4 = false ∧
    translateVA testCtx 0xFF000 64 .fetch = none ∧ ((arriving goodLine 0).thread? wordTid).isSome = true ∧
    (let th := { one with arr := .waiting }
     th.waitClear th.line = true ∧ th.stalled = false ∧ th.due = false) := by decide +kernel

/-- A handler whose timer has run out; a thread past its watchdog's limit; one that waits for a peer past its deadline; an operation in flight; an old reservation. -/
def due : Thread := { handling with h := { handling.h with timer := some 5 } }
def waitingFar : Thread := { one with wait := .memory, pend := 1, loc := .parked, remote := some (5, 5) }

theorem witness_thread_events :
    (let s : State := { world [due] with cycle := 5 }
     s.thread? wordTid = some due ∧ due.h.timer = some 5 ∧ due.loc = .resident ∧ due.regions = []) ∧
    (2 ^ (testCtx.ctxwdog.toNat / 2 ^ 18 % 64) ≤ 0 + (2 ^ 62 - one.wdStart) ∧ ¬ 2 ^ (testCtx.ctxwdog.toNat / 2 ^ 18 % 64) ≤ 0) ∧
    (let s : State := { world [waitingFar] with cycle := 5 }
     s.thread? wordTid = some waitingFar ∧ (s.peer 5).state ≠ .recovering ∧ (5 : Nat) ≤ s.cycle) ∧
    (let o : FlagOp := { flag := some 0, xs := [(4, 7)], ps := [], shadowXs := [], shadowPs := [], fpx := 1, bound := 24 }
     ({ one with ops := [o] } : Thread).ops[0]? = some o) := by decide +kernel

/-- One completion outstanding of a parked, a resident and a saved thread; a bin of an old record with an entry of its key; an unresolved ring entry. -/
def answered (loc : Loc) (pend : Nat) : State :=
  { world [{ one with loc, pend, wait := .memory, dest := [4] }] with compl := [{ t := wordTid, xs := [(4, 9)], p := none, cause := none, set := none }] }
def binned : State :=
  let s := world [{ one with loc := .parked }, lane 1 [] 1]
  { s with cycle := 2048, issue := [], cores := s.cores.map fun k => { k with
      bins := [{ num := 63, ctx := 0, grid := 0, pc := wordPc, places := [wordTid], overflow := [] }]
      entries := [{ ctx := 0, grid := 0, pc := wordPc, ts := [.thr 0 0 0 0 1] }] } }
def ringEntered : State :=
  { solo with ctxs := [{ testCtx with ring := [{ ia := 64, t := some wordTid, cause := .pageFault, info := 0, rung := 2, deadline := 10 }] }] }

theorem witness_answers :
    (∀ l ∈ [Loc.parked, .resident, .saved], ∀ n ∈ [0, 1, 2], ((answered l n).compl[0]?).isSome = true ∧ ((answered l n).thread? wordTid).map (·.pend) = some n) ∧
    ((binned.core 0).bin? 0).isNone = true ∧ ((binned.core 0).bin? 63).any (fun b => binned.regulatorDue b && !b.places.isEmpty) = true ∧
    ((binned.core 0).bin? 63).any (fun b => !solo.regulatorDue b) = true ∧ (binned.core 0).entries.length < 128 ∧
    (ringEntered.ringEntry? 0 0).isNone = true ∧ (ringEntered.ringEntry? 0 64).any (fun r => decide (r.deadline = 10 ∧ r.t = some wordTid)) = true ∧ ringEntered.cycle < 10 ∧
    (ringEntered.iaRead one.saveAt 8 256).isSome = true ∧ (ringEntered.iaRead (one.saveAt + 256) 40 0).isSome = true ∧
    (ringEntered.teamOf wordTid).any (fun tm => tm.saved.isNone && !tm.preempt) = true := by decide +kernel

/-- Accesses held on granule 4, and held in the side log; a migration's leaf in memory. -/
def holding : State := { solo with held := [{ who := .thread wordTid, ctx := 0, ia := 0x4000, op := .load 4 false, kind := some .notPresent }] }
def walking (e : DWord) : State :=
  { solo with mem := Memory.write [] 0 (bytesOfNat 8 0x1003) |>.write 0x1000 (bytesOfNat 8 0x2003) |>.write 0x2000 (bytesOfNat 8 0x3003) |>.write 0x3000 (bytesOfNat 8 0x4003) |>.write 0x4000 (bytesOfNat 8 e.toNat) }

theorem witness_translation :
    (holding.held.length = 1 ∧ (∀ k ∈ holding.cores, k.sidelog = []) ∧ 0x4000 / 4096 = 4 ∧ HeldOp.bytes (.load 4 false) ≠ 0) ∧
    (State.route solo 0 false = .to (.mem 0)) ∧
    (logged.cores.length = 1 ∧ logged.held = [] ∧ (logged.thread? wordTid).any (fun th => th.loc == .resident) = true) ∧
    ((logged.core 0).sidelog ≠ [] ∧ solo.route 0x4000 true = .fault .notPresent 0 0 ∧ solo.out = []) ∧
    (walkFrom (walking 0x5001).mem 0 0 0 5 = .leaf 0x5001 4 0x4000 ∧ sameSizeLeaf 0x6001 4 0x5001 = true ∧ sameSizeLeaf 0x6801 4 0x5001 = false ∧
      (walking 0x5001).mem.wf = true ∧ walkFrom solo.mem 0 0 0 5 = .fault .notPresent 0 0 ∧ leafSize 0x5001 = some 12 ∧ leafKind 0x5001 = 0 ∧ 3 < solo.migs.length) ∧
    (¬ 2 ^ 47 ≤ solo.topTick ∧ (let s := world [{ one with pts := 2 ^ 47 }]
      2 ^ 47 ≤ s.topTick)) := by decide +kernel

/-- An aperture placed at IA 0, functions enumerated; a subscription; a multicast store's member write under way; a load out to a peer and to a port. -/
def hosted : State := { solo with booted := true, enumerated := true, apers := setAt solo.apers 0 0x8000000000000000 }
def subscribed (act : Bool) : State := { solo with dies := [{ Die.reset 0 with subs := [{ ctx := 0, ia := 0x40, len := 64, mod := 5, active := act, copy := [] }] }] }
def memberOut : OutReq :=
  { t := wordTid, core := 0, dest := .peer 5 0x40, op := .write (.stm 0x40 [1, 2, 3, 4] (BitVec.ofNat 64 (2 ^ 63)) 480 0), seq := 7, late := false }
def loadOut (d : Dest) : State := { solo with out := [{ t := wordTid, core := 0, dest := d, op := .load 4 false, seq := 7, late := false }] }

theorem witness_host :
    (hosted.enumerated = true ∧ hosted.stop.state = 0 ∧ hosted.held = [] ∧ (getAt 0 hosted.apers 0).getLsbD 63 = true ∧ (getAt 0 hosted.apers 23).getLsbD 63 = false ∧
      hosted.route 0x40 true = .to (.mem 0x40) ∧ (hosted.func 0).tdisp = .unlocked ∧
      ({ hosted with funcs := [{ id := 0, tdisp := .locked, keys := false }] } : State).funcs.length = 1 ∧ ((ringed (queueOf 0 .idle []) []).queue? 0 3).isSome = true) ∧
    ((1, 2) ∉ solo.seen ∧ ({ solo with seen := [(1, 2)] } : State).seen = [(1, 2)] ∧ solo.route 0x40 false = .to (.mem 0x40)) ∧
    (((subscribed true).die 0).subs[0]?.isSome = true ∧ (subscribed false).peerDead 5 = false ∧ ((subscribed false).peer 5).mem.wf = true) ∧
    (memberOut.seq = 7 ∧ (5 : Nat) ≠ solo.modid ∧ natOfBytes ((solo.core 0).scr.read (480 + 8) 2) = 0 ∧ (solo.core 0).scr.wf = true) ∧
    (15 < solo.links.length ∧ (solo.link 15).state = .up ∧ solo.dies = [] ∧
      (∀ st ∈ [LinkState.retrain, .dead 0, .dead 1, .dead 2], (State.link { solo with links := setAt solo.links 0 ⟨st, 0, none⟩ } 0).state = st)) ∧
    (∀ d ∈ [Dest.sys 1 0x40, .peer 5 0x40], (loadOut d).out.length = 1 ∧ (loadOut d).thread? wordTid = some one ∧ ((loadOut d).peer 5).state ≠ .recovering) ∧
    1 ∉ solo.lostPorts := by decide +kernel

/-- A checkpoint quiescing and copying; the module with a context and without. -/
def checkpointing (st : Nat) : State := { solo with ckpt := { solo.ckpt with rsv := true, state := st } }

theorem witness_stops :
    (solo.stop.state = 0 ∧ (∀ k ∈ solo.cores, k.slots = []) ∧ (∀ c, c < 4 → (solo.mig c).stat ≠ 1) ∧ (solo.grid? 0 0).any (·.ended.isNone) = true) ∧
    (State.stop { solo with stop := { solo.stop with state := 1 } }).state ≠ 0 ∧
    ((solo.gridsOnDie 0).length = 1 ∧ (solo.gridsOnDie 23) = []) ∧
    (solo.ctx? 0 = some testCtx ∧ solo.ctx? 1 = none ∧ testCtx.queues = [] ∧ testCtx.waiting = [] ∧ solo.ctxs ≠ [] ∧ State.reset.ctxs = []) ∧
    ((checkpointing 1).ckpt.state = 1 ∧ (∀ m ∈ (checkpointing 1).migs, m.stat ≠ 1) ∧ (∀ th ∈ (checkpointing 1).threads, th.ops = []) ∧
      (checkpointing 2).ckpt.state = 2 ∧ (checkpointing 2).poison = [] ∧ (∀ k ∈ (checkpointing 2).cores, k.accBad = []) ∧ (checkpointing 2).mem.wf = true) ∧
    ((0x8000400000000001 : DWord).getLsbD 63 = true ∧ (0x8000400000000001 : DWord).toNat / 2 ^ 46 % 2 ^ 13 = 1 ∧
      solo.route (0x8000400000000001 % 2 ^ 46 * 64) false = .to (.mem 64) ∧ solo.poison.contains 1 = false ∧
      State.route solo (0x8000400000000100 % 2 ^ 46 * 64) false = .fault .notPresent 0 0 ∧ (0x8000000000000001 : DWord).toNat / 2 ^ 46 % 2 ^ 13 = 0) := by decide +kernel

/-- Headers of the four checkpoint parts, good. -/
def partHeader (d : Nat) : List Byte :=
  let h := bytesOfNat 4 0x504B4346 ++ bytesOfNat 4 d ++ List.replicate 32 0
  h ++ bytesOfNat 4 (crc32c h).toNat ++ List.replicate 20 0

/-- Module memory with all four headers, no context. -/
def restorable : State :=
  { State.reset with mem := (List.range 4).foldl (fun m d => m.write (0x10000000000 + d * 2 ^ 39 + 0x4C00000000) (partHeader d)) [] }

theorem witness_restore : restorable.ctxs = [] ∧ restorable.mem.wf = true ∧
    ∀ d, d < 4 → headerGood (restorable.mem.read (0x10000000000 + d * 2 ^ 39 + 0x4C00000000) 64) d = true := by decide +kernel

/-- The team's one thread saved; a saved team with its block at IA 64; a queue with a good and a bad descriptor to take. -/
def savedAll : State := { world [{ one with loc := .saved }] with teams := [{ wordTeam with preempt := true }] }
def blocked : State :=
  { solo with teams := [{ wordTeam with saved := some (64, 0) }], mem := Memory.write [] 64 (bytesOfNat 4 0x42535446) }
def pushed (fl : Word) : State :=
  let q : TQueue := ⟨2, [[0, 0, 64, 0, 64, 0xFFFFFFFF, 0, fl, pusherWord wordTid]], []⟩
  { solo with teams := [{ wordTeam with queues := q :: List.replicate 15 ⟨0, [], []⟩ }] }

theorem witness_preemption :
    (testCtx.preemptctl.toNat / 2 ^ 60 % 4 ≠ 1 ∧ (0x4000000100000000 : DWord).toNat / 2 ^ 62 = 1 ∧ (0x4800000100000000 : DWord).getLsbD 59 = true ∧
      (0x4000000100000000 : DWord).getLsbD (32 + solo.dieOf 0) = true ∧ (solo.team? 0 0 0).any (fun tm => tm.saved.isNone && !tm.preempt) = true) ∧
    (let k := { testCtx with preemptctl := 0x1000000100000000, preDeadline := some 0 }
     let s : State := { asked with ctxs := [k] }
     s.ctx? 0 = some k ∧ k.preemptctl.toNat / 2 ^ 60 % 4 = 1 ∧ (s.threads.filter fun x => s.covered x.id && s.ctxOf x.id == 0) = [one] ∧ one.loc = .resident) ∧
    ((savedAll.team? 0 0 0).any (·.preempt) = true ∧ (∀ x ∈ savedAll.threads, x.loc = .saved) ∧ savedAll.threads ≠ [] ∧
      ((solo.saveBytes 0 [0]).isNone = true ∧ (State.saveBytes { solo with ctxs := [{ testCtx with ctxsave := 1 }] } 0 [0]).isSome = true)) ∧
    ((solo.blockTeam 0 64).isNone = true ∧ (blocked.blockTeam 0 64).isSome = true ∧ testCtx.placedom.getLsbD 23 = true) ∧
    ((solo.queueHead 0 0 0 0).isNone = true ∧ (pushed 3).freeSlot 0 = some 0) := by decide +kernel

/-- The queue's head, checked and erroneous. -/
theorem witness_queue_take :
    ((pushed 3).queueHead 0 0 0 0).isSome = true ∧ ((pushed 0x80000003).queueHead 0 0 0 0).isSome = true ∧
    (match checkDesc (some testCtx) (some 512) false 0 (desc .cpy [0, 0, 64, 0, 64, 0xFFFFFFFF, 0, 3]) with
      | .ok d => d.bar.isNone && d.total != 0
      | .error _ => false) = true ∧
    (match checkDesc (some testCtx) (some 512) false 0 (desc .cpy [0, 0, 64, 0, 64, 0xFFFFFFFF, 0, 0x80000003]) with
      | .ok _ => false
      | .error _ => true) = true ∧
    (pushed 3).queuePopper 0 0 0 0 = none := by decide +kernel

/-- A COLL of a grid of one module that waits for its result. -/
def collecting : State :=
  { running solo [{ commandIn 0 (desc .coll [0, 0, 64, 0, 4, 0xFFFFFFFF, 0, 3]) with coll := some (0, 0) }] with grids := [memberGrid] }

theorem witness_coll_result :
    (collecting.collWaits 0 1).isNone = true ∧ (collecting.collWaits 0 0).isSome = true ∧ collecting.commands.length = 1 ∧ memberGrid.gang.isNone = true ∧
    memberGrid.remoteRanks 0 = [] ∧ (collecting.core 0).scrBad = [] := by decide +kernel

/-! ### Witnesses of boundary premises -/

/-- A team that has begun; lanes of one tick; the fuses of a C24-4096. -/
theorem witness_step_marks :
    (State.teamOf { solo with teams := [{ wordTeam with begun := true }] } wordTid).any (·.begun) = true ∧
    (∀ a ∈ duo.issue, ∀ b ∈ duo.issue, duo.ptsOf a = duo.ptsOf b) ∧ fusesOk ((List.range 8).flatMap fun d => (List.range 16).map (· + 176 * d)) = true := by
  decide +kernel

/-- Core 0 with as many requests under way as it may have. -/
def crowded : State :=
  { solo with out := List.replicate 4096 { t := wordTid, core := 0, dest := .sys 0 0, op := .load 4 false, seq := 0, late := false } }

/-- IA page 5 through a KIND 2 leaf to module 5; a fault of granule 4 reported and held; a line whose check is of another IA. -/
def forwarding : State := { solo with tlb := [(5, 0x5000, 12, 0x0050000000009009, 4, 0x928)] }

theorem witness_requests :
    solo.requestRoom 0 = true ∧ crowded.requestRoom 0 = false ∧ solo.viewCtx one = some testCtx ∧
    (match forwarding.route 0x5040 true with
      | .to (.peer m a) => decide (m = 5 ∧ a = 0x9040)
      | _ => false) = true ∧ forwarding.subFor wordTid 5 0x9040 4 = none ∧
    (let s : State := { solo with held := [{ who := .thread wordTid, ctx := 0, ia := 0x4000, op := .load 4 false, kind := some .notPresent }], reported := [(4, .notPresent)] }
     (s.holdsFault 4 && s.reported.contains (4, .notPresent)) = true) ∧ solo.holdsFault 4 = false ∧
    State.lineBad { solo with poison := [1] } 0x40 0x40 = true ∧ solo.lineBad 0x40 0x40 = false ∧ (condWait 0x1000 none).route 0x1000 true = .to (.sys 0 0) := by
  decide +kernel

/-- A full table of subscriptions; a multicast group with this module, another and none; no participant of a CPYR with a logged access. -/
theorem witness_members :
    solo.subCount 0 < 256 ∧
    (let s : State := { solo with dies := [{ Die.reset 0 with subs := List.replicate 256 { ctx := 0, ia := 0x40, len := 64, mod := 5, active := false, copy := [] } }] }
     256 ≤ s.subCount 0) ∧
    (let k : Ctx := { testCtx with mcast := [0x80000000, 0x80000005, 0] ++ List.replicate 61 0 }
     (getAt 0 k.mcast 0).getLsbD 31 = true ∧ (getAt 0 k.mcast 0).toNat % 4096 = solo.modid ∧ (getAt 0 k.mcast 1).toNat % 4096 = 5 ∧ (getAt 0 k.mcast 2).getLsbD 31 = false) ∧
    (let s := world [engineer 0, engineer 1]
     ∀ u ∈ s.issue, s.logging u = false) := by decide +kernel

/-- A thread whose shadow's predicate 1 differs, the only live lane of its group. -/
def twinned : State :=
  let th := { one with shadow := some { one.regs with p := 3 } }
  { world [th] with grids := [memberGrid], ctxs := members.ctxs }

theorem witness_shadow_contribution :
    twinned.contribSame (.any 0) (fun r => r.pr 1) [wordTid] [] wordTid = false ∧ twinned.contribSame (.any 0) (fun r => r.pr 2) [wordTid] [] wordTid = true := by
  decide +kernel

/-- The member of another module that has contributed to an instance, with its kind and with another; its recovery. -/
theorem witness_remote_contributions :
    (let gr := { memberGrid with gang := some { id := 1, size := 2, rank := 0, deadline := 10, state := .committed, since := 0, acks := [1] } }
     let i := { anyInst (some 0) with ranks := [(1, 5, none)] }
     let s : State := { resolving atInst with grids := [{ gr with insts := [i], nextKey := 1 }] }
     gr.gangOk = true ∧ s.gangRecovers gr = false ∧ (s.inst? 0 0 0).isSome = true) ∧
    ((0, CollKind.any 0, true).2.1 = (anyInst none).kind ∧ (0, CollKind.all 0, true).2.1 ≠ (anyInst none).kind) := by decide +kernel

/-- A record in memory, one through PEER; a queue with no launch that waits; a list of 31 registers and of one more in a kernel of 256. -/
theorem witness_records :
    solo.recordHere 0x100 none = true ∧ solo.recordHere 0x100 (some 5) = false ∧ solo.recordDest 0x100 (some 5) = .peer 5 0x100 ∧ solo.recordDest 0x1000 none = .sys 0 0 ∧
    (let q := queueOf 5 .fetch []
     (ringed q (headerBytes 0 1)).waitingLaunch 0 3 q = false ∧ (ringed q (headerBytes 0 1)).packetWhole q (natOfBytes (headerBytes 0 1)) = true ∧
      (ringed q (headerBytes 0 1)).ringOpen q 0 = true ∧ fieldAt (found ((ringed q (headerBytes 0 1)).ringRead q 0 0 64)) 8 8 = 0) ∧
    (ringed (queueOf 0 .idle []) []).ckpt.state ≤ 1 := by decide +kernel

/-- A file of no ELF; the shortest header with no section. -/
def bareElf : List Byte :=
  [0x7F, 0x45, 0x4C, 0x46, 2, 1, 1, 0] ++ List.replicate 8 0 ++ [3, 0, 0x41, 0xC2, 1, 0, 0, 0] ++ List.replicate 24 0 ++ [0, 0, 0, 0, 64, 0, 0, 0, 0, 0, 64, 0, 0, 0, 0, 0]

theorem witness_elf :
    bareElf.length = 64 ∧ (parseElf 0 bareElf).isSome = true ∧ fieldAt bareElf 0 4 = 0x464C457F ∧ ([] : List Byte).length < 64 ∧ fieldAt (0 :: bareElf) 0 4 ≠ 0x464C457F ∧
    ((parseElf 0 bareElf).any fun f => loadCheck f == 0 && f.elfClass64 && f.elfLsb && f.machine == 0xC241) = true ∧
    ImageFile.block (image 0x46 0) ≠ [] ∧ (image 0x46 0).relocs = [] ∧ (image 0x46 0).data = [] := by decide +kernel

/-- A start, records that enter, a core of the domain and one of a die outside it; an operation of a quarter. -/
theorem witness_starts :
    ((starting 512).grids.all fun gr => ((starting 512).ctxs.all fun k => ((starting 512).startTeam gr k 0 0).isSome)) = true ∧
    ((forwarded.dropMail 0 (.records 0 [wordTid] 0)).placeRecordsOn 0 [wordTid]).isSome = true ∧ 0 ∈ tasked.domainCores 0 ∧
    0 ∉ State.domainCores { tasked with ctxs := [{ testCtx with placedom := 2 }] } 0 ∧
    (let o : FlagOp := { flag := some 0, xs := [(4, 7)], ps := [], shadowXs := [], shadowPs := [], fpx := 1, bound := 24, batch := 3 }
     ({ one with ops := [o] } : Thread).ops[0]? = some o ∧ o.batch ≠ 0) ∧
    ((arriving goodLine 0).viewCtx one) = some testCtx ∧ binned.drainStuck 0 [wordTid] = false := by decide +kernel

/-- The record of a ring entry read twice, with room for it. -/
theorem witness_resume :
    (match ringEntered.iaRead one.saveAt 8 256 with
      | some (s1, base) => (s1.iaRead (one.saveAt + 256) 40 (16 * (quadsOf (BitVec.ofNat 64 (fieldAt base 0x80 8))).length)).isSome
      | none => false) = true ∧ ringEntered.records0 0 < 1024 ∧ ringEntered.choices = [] := by decide +kernel

/-- Host accesses held behind a write of BAR2 and behind one of the function's own; contexts of other dies. -/
theorem witness_host_order :
    (let h : HeldAcc := { who := .bar 3, ctx := 0, ia := 0, op := .barWrite [1], kind := none }
     holdsBack 3 false h = true ∧ holdsBack 4 false h = false ∧ holdsBack 4 true h = true) ∧
    testCtx.host = 0 ∧ (1 : Nat) ≠ testCtx.host ∧
    (let b : Sub := { ctx := 0, ia := 0x40, len := 64, mod := 5, active := true, copy := [], pending := [(0x40, [1])] }
     b.pending = (0x40, [1]) :: [] ∧ b.copy.wf = true) ∧ solo.objAt 0 480 / 2 ^ 64 % 2 ^ 16 = 0 := by decide +kernel

/-- A partition action under way too long, and one not; a table of CGDEF whose line verifies, and one with a reserved bit. -/
theorem witness_partition :
    (let s : State := { solo with cycle := 2 ^ 40, parts := [{ cause := causeOf 11, info := 7, ctx := 0, grid := 0, since := 5 }] }
     (s.partLate 11 7).map (·.since) = some 5) ∧ solo.parts = [] ∧
    (solo.tableBytes 64 1).2 = some (List.replicate 64 0) ∧ (solo.tableBytes 0x4000 1).2 = none ∧
    (wordsOfBytes 1 (List.replicate 64 (0 : Byte))).all (fun w => w.toNat / 2 ^ 25 % 2 ^ 6 == 0) = true ∧
    (wordsOfBytes 1 [0, 0, 0, (2 : Byte)]).all (fun w => w.toNat / 2 ^ 25 % 2 ^ 6 == 0) = false := by decide +kernel

/-- A migration under way, its frame sound and not; a COLL whose members are late and one whose are not. -/
theorem witness_frames :
    (walking 0x5001).copiesOf 0 = [0x4000] ∧ (walking 0x5001).frameBad 0 0x5001 12 = false ∧
    State.frameBad { walking 0x5001 with poison := [0x140] } 0 0x5001 12 = true ∧
    collecting.collLate memberGrid (commandIn 0 (desc .coll [0, 0, 64, 0, 4, 0xFFFFFFFF, 0, 3])) [] = false ∧
    State.collLate { collecting with cycle := 2 ^ 40 } memberGrid (commandIn 0 (desc .coll [0, 0, 64, 0, 4, 0xFFFFFFFF, 0, 3])) [] = true := by decide +kernel

/-! ### One step of an instruction. Expected values come from the spec's examples or from its rules by hand -/

/-- Table 3.11: the line of the example, its parity, flags and pairs. -/
theorem test_line_of_chapter_3 :
    let l := BitVec.ofNat 512 (natOfBytes ([0x10, 0, 0, 0, 0, 0, 0, 2, 8, 2, 0, 0x80] ++ [0x14, 0, 0, 0, 0, 0, 0, 2, 9, 2, 1, 0x80] ++
      [2, 0, 0, 0, 0, 0, 0, 0, 0, 0, 0x16, 1] ++ List.replicate 24 0 ++ [0x41, 0, 0, 0x82]))
    lineParity l = true ∧ wordSETA (lineWord l) = 0 ∧ wordSETB (lineWord l) = 1 ∧ wordWAIT (lineWord l) = 0 ∧ wordPAIR (lineWord l) 1 = true ∧
    wordPAIR (lineWord l) 0 = false ∧ decode (lineSlot l 2) = .ok (.bra ⟨5, true⟩ 2 0) ∧ decode (lineSlot l 3) = .ok (.nop always) ∧
    lineParity (l ^^^ 1) = false := by decide +kernel

/-- R178's examples, and a carry out. -/
theorem test_adds :
    after (exec (.iadd always .sat 4 16 (.imm 1)) (world [lane 0 (List.replicate 16 0 ++ [0x7FFFFFFF]) 1])) 0 4 = some 0x7FFFFFFF ∧
    after (exec (.isub always .usat 4 0 (.imm 5)) (world [lane 0 [3] 1])) 0 4 = some 0 ∧
    after (exec (.iadd always (.carry 2) 4 0 (.reg 2)) duo) 0 4 = some 6 ∧ predsAfter (exec (.iadd always (.carry 2) 4 0 (.reg 2)) duo) 0 = some 5 ∧
    predsAfter (exec (.iadd always (.carry 2) 4 0 (.reg 2)) duo) 1 = some 3 := by decide +kernel

/-- A false guard writes nothing and advances; the lane whose guard is true writes. -/
theorem test_guard : after (exec (.mov ⟨1, false⟩ 4 (.imm 1)) duo) 0 4 = some 64 ∧ after (exec (.mov ⟨1, false⟩ 4 (.imm 1)) duo) 1 4 = some 1 ∧
    of0 (exec (.mov ⟨1, false⟩ 4 (.imm 1)) duo) (·.pc) = some 0x1001 := by decide +kernel

/-- BFX.S X3, X7, (5 << 8) | 10 of a register whose bits 14:10 are 0b10001; a shift by 32; a funnel. -/
theorem test_fields :
    after (exec (.bfx always true 3 0 (.imm 0x50A)) (world [lane 0 [0x4400] 1])) 0 3 = some 0xFFFFFFF1 ∧
    after (exec (.shl always false 3 0 (.imm 32)) (world [lane 0 [0x4400] 1])) 0 3 = some 0 ∧
    after (exec (.sar always false 3 0 (.imm 40)) (world [lane 0 [0x80000000] 1])) 0 3 = some 0xFFFFFFFF := by decide +kernel

/-- −7 ÷ 3 = −2, held by the operation; a zero divisor gives all ones. -/
theorem test_divides :
    of0 (exec (.idiv always false .s 4 0 (.imm 3)) (world [lane 0 [0xFFFFFFF9] 1])) (fun th => th.ops.map fun o => (o.xs, o.bound)) = some [([(4, 0xFFFFFFFE)], 48)] ∧
    of0 (exec (.idiv always false .u 4 0 (.imm 0)) (world [lane 0 [7] 1])) (fun th => th.ops.map fun o => o.xs) = some [[(4, 0xFFFFFFFF)]] := by decide +kernel

/-- 1.5 + 0.25; FRND of 2.5 in RNE and RUP (R228); I2F.F16 of 70,000 is +∞ (R235); F2I.RTZ of −2.5. -/
theorem test_floats :
    after (exec (.fadd always false .rne 4 0 (.imm 0x3E800000)) (world [lane 0 [0x3FC00000] 1])) 0 4 = some 0x3FE00000 ∧
    after (exec (.frnd always false .rne 4 0) (world [lane 0 [0x40200000] 1])) 0 4 = some 0x40000000 ∧
    after (exec (.frnd always false .rup 4 0) (world [lane 0 [0x40200000] 1])) 0 4 = some 0x40400000 ∧
    after (exec (.i2f always false .f16 .rne 4 0) (world [lane 0 [70000] 1])) 0 4 = some 0x7C00 ∧
    after (exec (.f2i always false false .f32 .rtz 4 0) (world [lane 0 [0xC0200000] 1])) 0 4 = some 0xFFFFFFFE := by decide +kernel

/-- The block of chapter 10's example: its bytes, side word and sticky bits. -/
theorem test_block_of_chapter_10 :
    let q := quantise true (blockSources .f32 false [0x40E00000, 0x3E99999A, 0xC0200000, 0x40A00000, 0x3FA00000, 0x40D9999A, 0x40CCCCCD, 0xC0E00000])
    packCodes 4 q.1 = [0xF7826C18, 0, 0, 0] ∧ q.2.1 = 0x4E7F ∧ q.2.2 = fpxNX ||| fpxSAT := by decide +kernel

/-- Chapter 12's example: X2 is lane XOR 3, lanes 0 to 5 take part. -/
def six : State := world ((List.range 8).map fun l => lane l [0, 0, BitVec.ofNat 32 (l ^^^ 3)] (if l < 6 then 3 else 1))

theorem test_cross_lane_of_chapter_12 :
    after (exec (.redix ⟨1, false⟩ false none false .u32 4 2) six) 5 4 = some 0 ∧ after (exec (.redix ⟨1, false⟩ false none false .u32 4 2) six) 5 5 = some 3 ∧
    ((List.range 7).map fun l => after (exec (.scan ⟨1, false⟩ true false .add 6 2) six) l 6) = [some 0, some 3, some 5, some 6, some 6, some 13, some 0] ∧
    ((List.range 7).map fun l => after (exec (.shfl ⟨1, false⟩ none 0 .ahead 7 2 (.imm 1) 2) six) l 7) = [some 2, some 1, some 0, some 7, some 6, some 6, some 0] ∧
    predsAfter (exec (.shfl ⟨1, false⟩ none 0 .ahead 7 2 (.imm 1) 2) six) 5 = some 3 ∧ predsAfter (exec (.shfl ⟨1, false⟩ none 0 .ahead 7 2 (.imm 1) 2) six) 4 = some 7 ∧
    after (exec (.lanemask ⟨1, false⟩ .parts 8) six) 0 8 = some 0x3F := by decide +kernel

/-- BRA two lines ahead, CALL's return address, slot 4's successor. -/
theorem test_control :
    of0 (exec (.bra always 2 0) solo) (·.pc) = some 0x1080 ∧ of0 (exec (.bra always 0xFFFFFFFF 3) solo) (·.pc) = some 0xFC3 ∧
    after (exec (.call always 4 1 0) solo) 0 4 = some 0x1001 ∧
    of0 (exec (.nop always) (world [{ one with pc := 0x1004 }])) (fun th => (th.pc, th.arr)) = some (0x1040, .fall) := by decide +kernel

/-- Little-endian bytes in scratchpad and memory; LDS sign-extends one; ATOMS gives the old value and stores the new. -/
def withScr (m : Memory) : State := { solo with cores := solo.cores.map fun k => { k with scr := m } }

theorem test_memory :
    of0 (exec (.lds always false true .b2 4 ⟨1, 0⟩) (withScr [(16, 0x34), (17, 0x92)])) (fun th => th.ops.map (·.xs)) = some [[(4, 0xFFFF9234)]] ∧
    ofS (exec (.sts always false .b4 8 ⟨1, 0⟩) solo) (fun s => (s.core 0).scr) = some [(17, 0x40)] ∧
    ofS (exec (.atoms always false .add .b4 5 ⟨1, 0⟩ 1) (withScr [(16, 5)])) (fun s => (s.core 0).scr) = some [(16, 21)] ∧
    ofS (exec (.st always 0 .b4 12 ⟨2, 0⟩) solo) (fun s => s.mem.read 0x40 4) = some [0x00, 0xF0, 0x0F, 0x00] ∧
    of0 (exec (.st always 0 .b4 12 ⟨2, 0⟩) solo) (·.pc) = some 0x1001 := by decide +kernel

/-- LDC ends the segment and its answer carries the word; X16 is not saved. -/
theorem test_load :
    let s : State := { world [lane 0 ([0, 16, 64] ++ List.replicate 13 0 ++ [7]) 1] with mem := [(0x40, 0x78), (0x43, 0x12)] }
    of0 (exec (.ldc always false 0 .b4 4 ⟨2, 0⟩) s) (fun th => (th.loc, th.wait, th.pend, th.pc)) = some (.parked, .memory, 1, 0x1001) ∧
    after (exec (.ldc always false 0 .b4 4 ⟨2, 0⟩) s) 0 16 = some 0 ∧
    ofS (exec (.ldc always false 0 .b4 4 ⟨2, 0⟩) s) (fun s => s.compl.map (·.xs)) = some [[(4, 0x12000078)]] := by decide +kernel

/-- Chapter 13's example: the leaf's size and frame. -/
theorem test_leaf_of_chapter_13 : leafSize 0x00000012344FF801 = some 21 ∧ leafBase 0x00000012344FF801 21 = 0x1234400000 ∧
    leafBase 0x00000012344FF801 21 + 0x004012345678 % 2 ^ 21 = 0x1234545678 := by decide

/-- TRAP 0x21 with a group handler: TRAPPC is its successor, TRAPSRC itself, cause 15 (Table 19.1). TRET goes there. -/
theorem test_trap :
    let s : State := { solo with teams := [{ wordTeam with rungvec0 := 0x2000 }] }
    of0 (exec (.trap always 0x21) s) (fun th => (th.pc, th.h.trappc, th.h.src, th.h.cause, th.h.info, th.h.hmode)) = some (0x2000, 0x1001, 0x1000, 15, 0x21, true) ∧
    of0 (exec (.tret always) (world [handling])) (fun th => (th.pc, th.h.hmode)) = some (0x1001, false) := by decide +kernel

/-- Chapter 17's element (0, 0): 256 × 1 + 1 × 1 − 256 × 1 rounds once to 1; TALLOC answers the lowest even unit. -/
theorem test_matrix :
    mmaElem .bf16 false false [.num false 256 0, .num false 1 0, .num true 256 0] [.num false 1 0, .num false 1 0, .num false 1 0] (.num false 0 0) = (0x3F80, 0) ∧
    after (exec (.talloc always 8 1 1) bare) 7 8 = some 0 ∧ predsAfter (exec (.talloc always 8 1 1) bare) 0 = some 3 ∧
    ofS (exec (.talloc always 8 1 1) bare) (fun s => (s.core 0).allocs.map fun a => (a.unit, a.n, a.holders.length)) = some [(0, 1, 8)] := by decide +kernel

/-- ELECT and VOTE; EVSET sets its bit; SRD LANEID; QPUSH's predicate; JSET's mask is cut to LIVE. -/
theorem test_others :
    predsAfter (exec (.elect always none 3) duo) 0 = some 9 ∧ predsAfter (exec (.elect always none 3) duo) 1 = some 3 ∧
    after (exec (.vote always false (.mask 4) 1) duo) 0 4 = some 2 ∧
    ofS (exec (.evset always (.imm 6)) solo) (fun s => (s.ctx? 0).map (·.events)) = some (some 64) ∧
    after (exec (.srd always false 4 0) duo) 1 4 = some 1 ∧
    of0 (exec (.qpush always false 1 0 3) queued) (fun th => th.ops.map (·.ps)) = some [[(3, true)]] ∧
    of0 (exec (.qpush always false 3 0 3) queued) (fun th => th.ops.map (·.ps)) = some [[(3, false)]] ∧
    ofS (exec (.jset always 2 (.imm 0xFF)) duo) (fun s => (s.groupOf 0 0 0 0).maskOf 2) = some 3 := by decide +kernel

/-- A region opens, keeps a register and aborts: the register returns and the thread is at the abort target. -/
theorem test_region :
    let th := { opened [{ region 0 false [] with kept := [(4, 10)] }] with regs := { one.regs with x := setAt one.regs.x 4 11 } }
    after (exec (.rbegin always 9 2 0) solo) 0 9 = some 0 ∧ of0 (exec (.rbegin always 9 2 0) solo) (fun th => th.regions.map (·.abort)) = some [0x1080] ∧
    after (exec (.rabort always) (world [th])) 0 4 = some 10 ∧ of0 (exec (.rabort always) (world [th])) (fun th => (th.pc, th.regions)) = some (0x1040, []) := by
  decide +kernel

/-- Events: XROOT's defined fields; a link fault; an interrupt-free idle step of the reset module only passes a cycle. -/
theorem test_events :
    ofS (exec (.xrootWrite 0xFFFFFFFFFFFFFFFF) solo) (·.xroot) = some 0x000FFFFFFFFFFF81 ∧
    ofS (exec (.linkFault 3) State.reset) (fun s => (s.link 3).state) = some .retrain ∧
    ofS (step State.reset) (fun s => (s.cycle, s.threads)) = some (1, []) := by decide +kernel

/-- The machine that withFetchWord builds runs the word: IADD X4, X1, 5. -/
theorem test_step :
    after (step (State.reset.withFetchWord 96 (codeOfBytes [5, 0, 0, 0, 0, 0, 0, 1, 4, 0x80, 0, 0x10]).toNat)) 0 4 = some 5 := by decide +kernel

end Sys2Proof.Tests
end

section
/-! What a write of a register or predicate leaves to be read (R5, R62). -/

namespace Sys2Proof.Machine

open Sys2Proof

/-! ### An element replaced in a list -/

@[simp] theorem length_setAt {α : Type} (l : List α) (n : Nat) (v : α) : (setAt l n v).length = l.length := by
  induction l generalizing n with
  | nil => rfl
  | cons x l ih => cases n <;> simp [setAt, ih]

theorem getAt_setAt_self {α : Type} {d : α} {l : List α} {n : Nat} {v : α} (h : n < l.length) : getAt d (setAt l n v) n = v := by
  induction l generalizing n with
  | nil => exact absurd h (Nat.not_lt_zero n)
  | cons x l ih =>
    cases n with
    | zero => rfl
    | succ n => exact ih (Nat.lt_of_succ_lt_succ h)

theorem getAt_setAt_other {α : Type} {d : α} {l : List α} {n m : Nat} {v : α} (h : m ≠ n) :
    getAt d (setAt l n v) m = getAt d l m := by
  induction l generalizing n m with
  | nil => rfl
  | cons x l ih =>
    cases n with
    | zero => cases m with
      | zero => exact absurd rfl h
      | succ m => rfl
    | succ n => cases m with
      | zero => rfl
      | succ m => exact ih fun e => h (congrArg (· + 1) e)

/-! ### Registers (R5, R62) -/

@[simp] theorem Regs.x32_set32_self {r : Regs} {n : XReg} {v : Word} (h : n.toNat < r.x.length) : (r.set32 n v).x32 n = v :=
  getAt_setAt_self h

@[simp] theorem Regs.x32_set32_other {r : Regs} {n m : XReg} {v : Word} (h : m ≠ n) : (r.set32 n v).x32 m = r.x32 m :=
  getAt_setAt_other fun e => h (BitVec.eq_of_toNat_eq e)

@[simp] theorem Regs.pr_set32 (r : Regs) (n : XReg) (v : Word) (q : PReg) : (r.set32 n v).pr q = r.pr q := rfl

/-- The upper register of an even pair has the next number: the pair does not wrap. -/
theorem toNat_pair_upper {n : XReg} (h : n.toNat % 2 = 0) : (n + 1).toNat = n.toNat + 1 := by
  have := n.isLt
  rw [BitVec.toNat_add]
  show (n.toNat + 1) % 2 ^ 8 = n.toNat + 1
  omega

/-- A write of an even pair is a write of its low half and one of its high half in the next register. -/
theorem Regs.set64_eq {n : XReg} (h : n.toNat % 2 = 0) (r : Regs) (v : DWord) :
    r.set64 n v = (r.set32 n (v.setWidth 32)).set32 (n + 1) ((v >>> 32).setWidth 32) := by
  unfold Regs.set32
  rw [toNat_pair_upper h]
  rfl

theorem ne_pair_upper (n : XReg) : n ≠ n + 1 := by bv_omega

theorem append_halves (v : DWord) : (v >>> 32).setWidth 32 ++ v.setWidth 32 = v := by
  apply BitVec.eq_of_getLsbD_eq
  intro i hi
  rw [BitVec.getLsbD_append]
  split
  case isTrue h => simp [h]
  case isFalse h => simp [show i - 32 < 32 by omega, show 32 + (i - 32) = i by omega]

theorem Regs.x32_set64_low {r : Regs} {n : XReg} {v : DWord} (h : n.toNat % 2 = 0) (hn : n.toNat < r.x.length) :
    (r.set64 n v).x32 n = v.setWidth 32 := by
  rw [Regs.set64_eq h, Regs.x32_set32_other (ne_pair_upper n), Regs.x32_set32_self hn]

theorem Regs.x32_set64_high {r : Regs} {n : XReg} {v : DWord} (h : n.toNat % 2 = 0) (hn : n.toNat + 1 < r.x.length) :
    (r.set64 n v).x32 (n + 1) = (v >>> 32).setWidth 32 := by
  rw [Regs.set64_eq h, Regs.x32_set32_self]
  show (n + 1).toNat < (setAt r.x n.toNat _).length
  rw [toNat_pair_upper h, length_setAt]
  exact hn

theorem Regs.x32_set64_other {r : Regs} {n m : XReg} {v : DWord} (h : n.toNat % 2 = 0) (h0 : m ≠ n) (h1 : m ≠ n + 1) :
    (r.set64 n v).x32 m = r.x32 m := by
  rw [Regs.set64_eq h, Regs.x32_set32_other h1, Regs.x32_set32_other h0]

theorem Regs.x64_set64_self {r : Regs} {n : XReg} {v : DWord} (h : n.toNat % 2 = 0) (hn : n.toNat + 1 < r.x.length) :
    (r.set64 n v).x64 n = v := by
  unfold Regs.x64
  rw [Regs.x32_set64_high h hn, Regs.x32_set64_low h (Nat.lt_of_succ_lt hn), append_halves]

/-! ### Predicates (R5) -/

@[simp] theorem Regs.pr_zero (r : Regs) : r.pr 0 = true := rfl

@[simp] theorem Regs.setP_zero (r : Regs) (b : Bool) : r.setP 0 b = r := rfl

@[simp] theorem Regs.x32_setP (r : Regs) (q : PReg) (b : Bool) (n : XReg) : (r.setP q b).x32 n = r.x32 n := by
  unfold Regs.setP Regs.setPn
  split <;> rfl

/-- The bit of one predicate, read at another. -/
theorem getLsbD_predBit (q k : PReg) : (1#64 <<< q.toNat).getLsbD k.toNat = decide (k = q) := by
  have hq : q.toNat < 64 := q.isLt
  rw [← BitVec.twoPow_eq, BitVec.getLsbD_twoPow]
  simp [hq, BitVec.toNat_inj, eq_comm]

/-- A write of a predicate other than P0 sets its own bit and leaves the others. -/
theorem Regs.getLsbD_setP {r : Regs} {q : PReg} (h : q ≠ 0) (b : Bool) (k : PReg) :
    (r.setP q b).p.getLsbD k.toNat = if k = q then b else r.p.getLsbD k.toNat := by
  have hq : q.toNat ≠ 0 := fun e => h (BitVec.eq_of_toNat_eq e)
  have hk : k.toNat < 64 := k.isLt
  unfold Regs.setP Regs.setPn
  rw [if_neg hq]
  cases b
  case false =>
    simp only [Bool.false_eq_true, if_false, BitVec.getLsbD_and, BitVec.getLsbD_not, getLsbD_predBit, hk]
    by_cases e : k = q <;> simp [e]
  case true =>
    simp only [if_true, BitVec.getLsbD_or, getLsbD_predBit]
    by_cases e : k = q <;> simp [e]

theorem Regs.pr_setP_self {r : Regs} {q : PReg} (h : q ≠ 0) (b : Bool) : (r.setP q b).pr q = b := by
  unfold Regs.pr
  rw [Regs.getLsbD_setP h, if_pos rfl, beq_false_of_ne h, Bool.false_or]

theorem Regs.pr_setP_other {r : Regs} {q k : PReg} (h : k ≠ q) (b : Bool) : (r.setP q b).pr k = r.pr k := by
  by_cases hq : q = 0
  · rw [hq, Regs.setP_zero]
  · unfold Regs.pr
    rw [Regs.getLsbD_setP hq, if_neg h]

/-- Settles O4: each clause is the read rule of its write. -/
theorem registerWritesAndReads : Obligations.RegisterWritesAndReads := by
  intro r n m q k v u b hn
  refine ⟨Regs.x32_set32_self hn, Regs.x32_set32_other, Regs.pr_set32 r n v q, fun he hp => ?pair,
    Regs.pr_zero r, Regs.setP_zero r b, fun h => Regs.pr_setP_self h b, fun h => Regs.pr_setP_other h b, Regs.x32_setP r q b n⟩
  case pair => exact ⟨Regs.x64_set64_self he hp, Regs.x32_set64_low he hn, Regs.x32_set64_other he⟩

end Sys2Proof.Machine
end

section
/-! An issue of one thread: the causes before the instruction's own, and the false guard (R6, R57, R61, R122). -/

namespace Sys2Proof.Machine

open Sys2Proof Sys2Proof.Safety

/-! ### How an instruction is issued -/

/-- The two ways of an issue of instruction `i`: its lanes act one by one, or all together, and then no lane is no act. -/
inductive IssueForm (i : Instr) : Prop where
  | alone (body : State → Tid → State) (h : ∀ s, exec i s = s.run i body)
  | together (body : State → List Tid → State) (h : ∀ s, exec i s = s.runAll i body) (nobody : ∀ s, body s [] = s)

theorem issueForm_of_runSets {i : Instr} (f : State → List Tid → State) (h : ∀ s, exec i s = s.runSets i f) : IssueForm i :=
  .together (fun s ts => (s.setsOf true ts).foldl f s) h fun _ => rfl

/-- Every instruction of a thread has one of the two forms, the matrix instructions and the collectives apart. -/
theorem issueForm {i : Instr} {g : Guard} (hg : i.guard? = some g) (hm : i.cls ≠ .mtx)
    (hcbr : ∀ g a b c d e f, i ≠ .cbr g a b c d e f) (hcsync : ∀ g a b, i ≠ .csync g a b) (hgbar : ∀ g a b, i ≠ .gbar g a b) :
    IssueForm i := by
  cases i
  case cbr => exact (hcbr _ _ _ _ _ _ _ rfl).elim
  case csync => exact (hcsync _ _ _ rfl).elim
  case gbar => exact (hgbar _ _ _ rfl).elim
  case mmaq | mmaz | talloc | tfree | tld | tst | tzero | tspill | tfill | frags | tsig => exact absurd rfl hm
  case jset | jwait | jleave | exit | fwd | halt => exact .together _ (by intro; unfold exec; rfl) (by intro; rfl)
  case shfl | vote | matchx | redux | redix | scan | elect | lanemask | cpyr => exact issueForm_of_runSets _ fun _ => rfl
  case nop | bra | brx | call | callx | ret | brk | trap | hint
      | iadd | isub | iaddc | isubb | imul | imulh | imad | imadw | idiv | irem | imin | imax | iabs | and | or | xor | andn | not
      | shl | shr | sar | rotl | funnel | clz | popc | brev | bfx | bfi | isetp | sel | mov | lea | plop | p2x | x2p | pset
      | fadd | fsub | fmul | ffma | fmin | fmax | fsetp | fclass | frcp | frsq | fsqrt | fexp2 | flog2 | fsin | fcos | fdiv
      | pkadd | pkmul | pkfma | pkmin | pkmax | pksetp | fscale | frnd | dot2 | fmtrd
      | f2i | i2f | f2f | packn | unpackn | bscale | qblk | dqblk | i2i
      | lds | sts | atoms | ldc | st | atomc | red | casc | lr | sc | fence | pref | subs | unsub | stm
      | cpy | gath | scat | fill | mxs | coll | binit | barr | bwait | qpush | qpop | qpopNb | qstat
      | ldg | mbrd | seg | yield | launch | spawn | mbox | evset | evclr | evwait | evqpop | evqpopNb
      | rbegin | rkeep | rend | rabort | errlogPop | errlogStat | errlogInj
      | srd | swr | tret | esc | winset | winsetClr | ckpt => exact .alone _ fun _ => rfl
  -- what is left are the module's events, which no guard has
  all_goals cases hg

/-! ### One thread that does not get to perform its instruction -/

/-- A cause before the instruction's own is all that the issue does. -/
theorem exec_of_out {s s' : State} {i : Instr} {t : Tid} (hi : IssueForm i) (hs : s.issue = [t]) (he : s.enterOne i t = (s', .out)) :
    exec i s = .next s' := by
  cases hi with
  | alone body h => simp [h, State.run, hs, State.enterAll, he]
  | together body h nobody => simp [h, State.runAll, hs, State.enterAll, he, nobody]

/-- A thread whose guard is false only goes on (R61). -/
theorem exec_of_skip {s s' : State} {i : Instr} {t : Tid} (hi : IssueForm i) (hs : s.issue = [t]) (he : s.enterOne i t = (s', .skip)) :
    exec i s = .next (s'.advance t) := by
  cases hi with
  | alone body h => simp [h, State.run, hs, State.enterAll, he]
  | together body h nobody => simp [h, State.runAll, hs, State.enterAll, he, nobody]

/-! ### The checks of R6, in their order -/

section Checks
variable {s : State} {i : Instr} {t : Tid} {th : Thread} {g : Guard}

theorem enterOne_illegalOpcode (ht : s.thread? t = some th) (hl : (th.isScalar && scalarIllegal i) = true) :
    s.enterOne i t = (s.raise t .illegalOpcode 0, .out) := by
  simp [State.enterOne, ht, hl]

theorem enterOne_regRange {n : Nat} (ht : s.thread? t = some th) (hl : (th.isScalar && scalarIllegal i) = false)
    (hr : s.rangeBad th i = some n) : s.enterOne i t = (s.raise t .regRange (BitVec.ofNat 64 n), .out) := by
  simp [State.enterOne, ht, hl, hr]

theorem enterOne_illegalPair (ht : s.thread? t = some th) (hl : (th.isScalar && scalarIllegal i) = false)
    (hr : s.rangeBad th i = none) (hp : s.badPair th i = true) (hm : s.mmode = 2) :
    s.enterOne i t = (s.raise t .illegalPair 0, .out) := by
  simp [State.enterOne, ht, hl, hr, hp, hm]

/-- Outside TEST mode a refused pair is noted in LINESTAT.PAIRSER and a false guard is skipped (R57). -/
theorem enterOne_skip_refusedPair (ht : s.thread? t = some th) (hl : (th.isScalar && scalarIllegal i) = false)
    (hr : s.rangeBad th i = none) (ha : th.inRunAhead = false) (hg : i.guard? = some g) (hh : g.holds th.regs = false)
    (hp : s.badPair th i = true) (hm : s.mmode ≠ 2) :
    s.enterOne i t = (s.modCore th.core fun k => { k with linestat := k.linestat ||| 0x10000 }, .skip) := by
  simpa [State.enterOne, Thread.countAhead, ht, hl, hr, ha, hg, hh, hp] using hm

/-- A false guard needs no privilege: unlike `enterOne_skip`, this asks nothing of PRIVILEGE. -/
theorem enterOne_skip_unprivileged (ht : s.thread? t = some th) (hl : (th.isScalar && scalarIllegal i) = false)
    (hr : s.rangeBad th i = none) (ha : th.inRunAhead = false) (hg : i.guard? = some g) (hh : g.holds th.regs = false)
    (hp : s.badPair th i = false) : s.enterOne i t = (s, .skip) := by
  simp [State.enterOne, Thread.countAhead, ht, hl, hr, ha, hg, hh, hp]

theorem enterOne_privilege {n : Nat} (ht : s.thread? t = some th) (hl : (th.isScalar && scalarIllegal i) = false)
    (hr : s.rangeBad th i = none) (ha : th.inRunAhead = false) (hg : i.guard? = some g) (hh : g.holds th.regs = true)
    (hp : s.badPair th i = false) (hn : s.needsPriv th i = some n) :
    s.enterOne i t = (s.raise t .privilege (BitVec.ofNat 64 n), .out) := by
  simp [State.enterOne, Thread.countAhead, ht, hl, hr, ha, hg, hh, hp, hn]

end Checks

/-- What going on leaves in the thread, in the statements' terms. -/
theorem Thread.advance_eq (th : Thread) :
    th.advance = { th with pc := successor th.pc, arr := if th.pc.toNat % 8 < 4 then .inLine else .fall } := by
  rw [← succ_successor]
  rfl

/-- Settles O6: each cause is the answer of the first check that fails, and the issue of one thread does no more than that answer. -/
theorem checksOfAnIssue : Obligations.ChecksOfAnIssue := by
  intro s i g t th hs ht hg hm hcbr hcsync hgbar ha legal
  have hi := issueForm hg hm hcbr hcsync hgbar
  have hl (h : legal) : (th.isScalar && scalarIllegal i) = false := by
    cases hsc : th.isScalar
    · rfl
    · exact h hsc
  refine ⟨fun h1 h2 => ?illegal, fun h n hr => ?range, fun h hr => ⟨?pair, ?marked, ?skip, ?priv⟩, ?self, ?others⟩
  case illegal => exact exec_of_out hi hs (enterOne_illegalOpcode ht (by rw [h1, h2]; rfl))
  case range => exact exec_of_out hi hs (enterOne_regRange ht (hl h) hr)
  case pair => exact fun hp hmode => exec_of_out hi hs (enterOne_illegalPair ht (hl h) hr hp hmode)
  case marked => exact fun hp hmode hh => exec_of_skip hi hs (enterOne_skip_refusedPair ht (hl h) hr ha hg hh hp hmode)
  case skip => exact fun hp hh => exec_of_skip hi hs (enterOne_skip_unprivileged ht (hl h) hr ha hg hh hp)
  case priv => exact fun hp hh n hn => exec_of_out hi hs (enterOne_privilege ht (hl h) hr ha hg hh hp hn)
  case self => exact (thread?_advance_self ht).trans (congrArg some th.advance_eq)
  case others => exact fun u hu => thread?_advance_other hu

end Sys2Proof.Machine
end

section
/-! What an act that ends grids may change, and what holds of a grid that it ends (R396, R428, R430). -/

namespace Sys2Proof.Machine

open Sys2Proof

/-! ### What one update leaves of the parts that an ending concerns -/

theorem ctx?_modCtx {f : Ctx → Ctx} (hf : ∀ x, (f x).id = x.id) (s : State) (c d : Nat) :
    (s.modCtx c f).ctx? d = (s.ctx? d).map fun x => if x.id = c then f x else x := by
  unfold State.ctx? State.modCtx
  rw [List.find?_map]
  congr 2
  funext x
  by_cases h : x.id = c <;> simp [h, hf]

theorem grid?_key {s : State} {c g : Nat} {gr : Grid} (h : s.grid? c g = some gr) : gr.ctx = c ∧ gr.num = g := by
  simpa using List.find?_some h

theorem grid?_modGrid {f : Grid → Grid} (hf : ∀ x, (f x).ctx = x.ctx ∧ (f x).num = x.num) (s : State) (c g c' g' : Nat) :
    (s.modGrid c g f).grid? c' g' = (s.grid? c' g').map fun x => if x.ctx = c ∧ x.num = g then f x else x := by
  unfold State.grid? State.modGrid
  rw [List.find?_map]
  congr 2
  funext x
  by_cases h : x.ctx = c ∧ x.num = g
  · simp [h, (hf x).1, (hf x).2]
  · simp [h]

theorem thread?_eq_none_iff {s : State} {u : Tid} : s.thread? u = none ↔ u ∉ s.threads.map (·.id) := by
  simp [State.thread?]

theorem map_id_modThread {f : Thread → Thread} (hf : ∀ x, (f x).id = x.id) (s : State) (t : Tid) :
    (s.modThread t f).threads.map (·.id) = s.threads.map (·.id) := by
  unfold State.modThread
  rw [List.map_map]
  refine List.map_congr_left fun x _ => ?_
  by_cases h : x.id = t <;> simp [h, hf]

/-- The event queues after an update of every core. -/
theorem evq_map_cores {s s' : State} {f : Core → Core} {q : List EvEntry → List EvEntry} (h : s'.cores = s.cores.map f)
    (hid : ∀ k, (f k).id = k.id) (hevq : ∀ k, (f k).evq = q k.evq) (hnil : q [] = []) (n : Nat) :
    (s'.core n).evq = q (s.core n).evq := by
  unfold State.core
  rw [h, List.find?_map]
  have he : (fun x : Core => x.id == n) ∘ f = fun x => x.id == n := by
    funext x
    simp [hid]
  rw [he]
  cases s.cores.find? fun x => x.id == n with
  | none => exact hnil.symm
  | some k => exact hevq k

theorem mem_modCore {s : State} {n : Nat} {f : Core → Core} {k : Core} (h : k ∈ (s.modCore n f).cores) :
    k ∈ s.cores ∨ (∃ x ∈ s.cores, k = f x) ∨ k = f (Core.reset n) := by
  unfold State.modCore at h
  split at h
  · obtain ⟨x, hx, rfl⟩ := List.mem_map.mp h
    split
    · exact .inr (.inl ⟨x, hx, rfl⟩)
    · exact .inl hx
  · rcases List.mem_append.mp h with h | h
    · exact .inl h
    · exact .inr (.inr (List.mem_singleton.mp h))

/-! ### Acts that end grids -/

/-- No engine command is outstanding. -/
def State.NoCommands (s : State) : Prop := ∀ k ∈ s.cores, k.slots = []

theorem State.NoCommands.commands {s : State} (h : s.NoCommands) : s.commands = [] := by
  simp only [State.commands, List.flatMap_eq_nil_iff]
  intro k hk
  simp [h k hk]

/-- How a grid has ended: `none` where there is no such grid, `some none` while it runs. -/
def State.ending (s : State) (c g : Nat) : Option (Option Nat) := (s.grid? c g).map (·.ended)

/-- A grid that has ended with a status, and of whose threads none is left. -/
structure GridOver (st : Nat) (s : State) (c g : Nat) : Prop where
  ended : s.ending c g = some (some st)
  gone : ∀ u, inGrid c g u = true → s.thread? u = none

/-- The two facts, in the form in which a statement gives them. -/
theorem GridOver.ended_and_gone {st c g : Nat} {s : State} (h : GridOver st s c g) :
    (s.grid? c g).map (·.ended) = some (some st) ∧ ∀ u, inGrid c g u = true → s.thread? u = none := ⟨h.ended, h.gone⟩

/-- What an act that ends grids with a status may do: it brings no thread, posts no event and issues no command; each grid stays as it was, or ran and is over. -/
structure EndsGrids (st : Nat) (s s' : State) : Prop where
  rest : s' = { s with
    threads := s'.threads, teams := s'.teams, compl := s'.compl, out := s'.out, held := s'.held, resWait := s'.resWait
    cores := s'.cores, dies := s'.dies, ctxs := s'.ctxs, grids := s'.grids, parts := s'.parts }
  slots : s.NoCommands → s'.NoCommands
  evq : ∀ n, (s'.core n).evq = (s.core n).evq
  dying : ∀ c, (s'.ctx? c).map (·.dying) = (s.ctx? c).map (·.dying)
  names : s'.threads.map (·.id) ⊆ s.threads.map (·.id)
  grids : ∀ c g, s'.ending c g = s.ending c g ∨ s.ending c g = some none ∧ GridOver st s' c g

section
variable {st : Nat} {s s' s'' : State}

theorem EndsGrids.gone (h : EndsGrids st s s') {u : Tid} (hu : s.thread? u = none) : s'.thread? u = none :=
  thread?_eq_none_iff.mpr fun hm => thread?_eq_none_iff.mp hu (h.names hm)

theorem EndsGrids.over {c g : Nat} (h : EndsGrids st s s') (ho : GridOver st s c g) : GridOver st s' c g := by
  refine ⟨?_, fun u hu => h.gone (ho.gone u hu)⟩
  rcases h.grids c g with he | ⟨hr, _⟩
  · exact he.trans ho.ended
  · exact absurd (hr.symm.trans ho.ended) (by simp)

theorem EndsGrids.refl (st : Nat) (s : State) : EndsGrids st s s :=
  ⟨rfl, id, fun _ => rfl, fun _ => rfl, fun _ h => h, fun _ _ => .inl rfl⟩

theorem EndsGrids.trans (h1 : EndsGrids st s s') (h2 : EndsGrids st s' s'') : EndsGrids st s s'' where
  rest := h2.rest.trans (by rw [h1.rest])
  slots h := h2.slots (h1.slots h)
  evq n := (h2.evq n).trans (h1.evq n)
  dying c := (h2.dying c).trans (h1.dying c)
  names := List.Subset.trans h2.names h1.names
  grids c g := by
    rcases h1.grids c g with e1 | ⟨hr, ho⟩
    · rcases h2.grids c g with e2 | ⟨hr, ho⟩
      · exact .inl (e2.trans e1)
      · exact .inr ⟨e1.symm.trans hr, ho⟩
    · exact .inr ⟨hr, h2.over ho⟩

/-- Such acts one after another. -/
theorem EndsGrids.foldl {α : Type} {f : State → α → State} (hf : ∀ s a, s.NoCommands → EndsGrids st s (f s a)) (l : List α) :
    ∀ {s : State}, s.NoCommands → EndsGrids st s (l.foldl f s) := by
  induction l with
  | nil => exact fun _ => EndsGrids.refl st _
  | cons a l ih => exact fun hs => (hf _ a hs).trans (ih ((hf _ a hs).slots hs))

/-- A running grid that one of several such acts ends is over after all of them. -/
theorem GridOver.foldl {α : Type} {f : State → α → State} (hf : ∀ s a, s.NoCommands → EndsGrids st s (f s a)) {l : List α} {a : α}
    {c g : Nat} (ha : a ∈ l) (hover : ∀ s, s.NoCommands → s.ending c g = some none → GridOver st (f s a) c g) :
    ∀ {s : State}, s.NoCommands → s.ending c g = some none → GridOver st (l.foldl f s) c g := by
  induction l with
  | nil => cases ha
  | cons b l ih =>
    intro s hs hr
    have h1 := hf s b hs
    have h2 := EndsGrids.foldl hf l (h1.slots hs)
    rcases List.mem_cons.mp ha with rfl | hl
    · exact h2.over (hover s hs hr)
    · rcases h1.grids c g with he | ⟨_, ho⟩
      · exact ih hl (h1.slots hs) (he.trans hr)
      · exact h2.over ho

/-! ### Acts that end no grid -/

theorem modThread_endsGrids {f : Thread → Thread} (hf : ∀ x, (f x).id = x.id) (t : Tid) : EndsGrids st s (s.modThread t f) :=
  ⟨rfl, id, fun _ => rfl, fun _ => rfl, fun _ h => map_id_modThread hf s t ▸ h, fun _ _ => .inl rfl⟩

theorem modTeam_endsGrids (f : Team → Team) (c g k : Nat) : EndsGrids st s (s.modTeam c g k f) :=
  ⟨rfl, id, fun _ => rfl, fun _ => rfl, fun _ h => h, fun _ _ => .inl rfl⟩

theorem modCtx_endsGrids {f : Ctx → Ctx} (hf : ∀ x, (f x).id = x.id) (hd : ∀ x, (f x).dying = x.dying) (c : Nat) :
    EndsGrids st s (s.modCtx c f) where
  rest := rfl
  slots := id
  evq _ := rfl
  dying d := by
    rw [ctx?_modCtx hf, Option.map_map]
    congr 1
    funext x
    by_cases h : x.id = c <;> simp [h, hd]
  names _ h := h
  grids _ _ := .inl rfl

theorem modCore_endsGrids {f : Core → Core} (hid : ∀ k, (f k).id = k.id) (hslots : ∀ k, k.slots = [] → (f k).slots = [])
    (hevq : ∀ k, (f k).evq = k.evq) (n : Nat) : EndsGrids st s (s.modCore n f) where
  rest := by unfold State.modCore; split <;> rfl
  slots hs k hk := by
    rcases mem_modCore hk with h | ⟨x, hx, rfl⟩ | rfl
    · exact hs k h
    · exact hslots x (hs x hx)
    · exact hslots _ rfl
  evq m := by
    by_cases h : m = n
    · rw [h, core_modCore_self s n f hid, hevq]
    · rw [core_modCore_other s n m f hid h]
  dying c := by unfold State.ctx?; rw [State.modCore_ctxs]
  names := by rw [State.modCore_threads]; exact fun _ h => h
  grids c g := .inl (by unfold State.ending State.grid?; rw [State.modCore_grids])

theorem modDie_endsGrids (f : Die → Die) (d : Nat) : EndsGrids st s (s.modDie d f) where
  rest := by unfold State.modDie; split <;> rfl
  slots hs := by unfold State.NoCommands; rw [State.modDie_cores]; exact hs
  evq m := by unfold State.core; rw [State.modDie_cores]
  dying c := by unfold State.ctx?; rw [State.modDie_ctxs]
  names := by rw [State.modDie_threads]; exact fun _ h => h
  grids c g := .inl (by unfold State.ending State.grid?; rw [State.modDie_grids])

theorem cancelWaits_endsGrids (t : Tid) : EndsGrids st s (s.cancelWaits t) :=
  ⟨rfl, id, fun _ => rfl, fun _ => rfl, fun _ h => h, fun _ _ => .inl rfl⟩

theorem unbind_endsGrids (n : Nat) : EndsGrids st s (s.unbind n) :=
  ((cancelWaits_endsGrids _).trans (modThread_endsGrids (by intro; rfl) _)).trans
    (modCore_endsGrids (by intro; rfl) (by intro _ h; exact h) (by intro; rfl) n)

theorem logRest_endsGrids (hs : s.NoCommands) (th : Thread) : EndsGrids st s (s.logRest th) :=
  EndsGrids.foldl (fun _ _ _ => modCore_endsGrids (by intro; rfl) (by intro _ h; exact h) (by intro; rfl) _) _ hs

theorem landOne_id (th : Thread) (k : Nat) : (th.landOne k).id = th.id := by
  unfold Thread.landOne
  split <;> rfl

theorem setFpx_endsGrids (t : Tid) (f : Fpx) : EndsGrids st s (s.setFpx t f) := by
  cases t with
  | thr c g k _ _ => exact modTeam_endsGrids _ c g k
  | scalar n => exact modThread_endsGrids (by intro; rfl) _

theorem landOp_endsGrids (hs : s.NoCommands) (t : Tid) (k : Nat) : EndsGrids st s (s.landOp t k) := by
  have one (s : State) (u : Tid) (j : Nat) (f : Fpx) : EndsGrids st s ((s.modThread u fun th => th.landOne j).setFpx u f) :=
    (modThread_endsGrids (fun th => landOne_id th j) u).trans (setFpx_endsGrids u f)
  unfold State.landOp
  split
  · exact EndsGrids.refl st s
  · split
    · exact EndsGrids.refl st s
    · split
      · exact one s t k _
      · refine EndsGrids.foldl (fun s y _ => ?_) _ hs
        split
        · exact one s y.id _ _
        · exact EndsGrids.refl st s

theorem landAll_endsGrids (hs : s.NoCommands) (t : Tid) : EndsGrids st s (s.landAll t) := by
  unfold State.landAll
  split
  · exact EndsGrids.refl st s
  · exact EndsGrids.foldl (fun _ _ h => landOp_endsGrids h t 0) _ hs

/-! ### The end of one grid (R428) -/

@[simp] theorem Core.freeAlloc_id (k : Core) (a : Alloc) : (k.freeAlloc a).id = k.id := rfl
@[simp] theorem Core.freeAlloc_slots (k : Core) (a : Alloc) : (k.freeAlloc a).slots = k.slots := rfl
@[simp] theorem Core.freeAlloc_evq (k : Core) (a : Alloc) : (k.freeAlloc a).evq = k.evq := rfl

theorem foldl_freeAlloc {β : Type} {p : Core → β} (hp : ∀ k a, p (Core.freeAlloc k a) = p k) (l : List Alloc) (k : Core) :
    p (l.foldl Core.freeAlloc k) = p k := by
  induction l generalizing k with
  | nil => rfl
  | cons a l ih => exact (ih _).trans (hp k a)

@[simp] theorem Core.dropGrid_id (c g : Nat) (k : Core) : (k.dropGrid c g).id = k.id := foldl_freeAlloc (by simp) _ _
@[simp] theorem Core.dropGrid_slots (c g : Nat) (k : Core) : (k.dropGrid c g).slots = k.slots := foldl_freeAlloc (by simp) _ _
@[simp] theorem Core.dropGrid_evq (c g : Nat) (k : Core) : (k.dropGrid c g).evq = k.evq := foldl_freeAlloc (by simp) _ _

/-- The last thing that an ending does: it marks a grid whose threads are gone. -/
theorem modGrid_over {c g : Nat} {f : Grid → Grid} (hr : s.ending c g = some none) (hgone : ∀ u, inGrid c g u = true → s.thread? u = none)
    (hkey : ∀ x, (f x).ctx = x.ctx ∧ (f x).num = x.num) (hf : ∀ x, (f x).ended = some st) :
    EndsGrids st s (s.modGrid c g f) ∧ GridOver st (s.modGrid c g f) c g := by
  have ending (c' g' : Nat) : (s.modGrid c g f).ending c' g' =
      if c' = c ∧ g' = g then (s.ending c' g').map fun _ => some st else s.ending c' g' := by
    unfold State.ending
    rw [grid?_modGrid hkey]
    cases h : s.grid? c' g' with
    | none => simp
    | some x =>
      obtain ⟨rfl, rfl⟩ := grid?_key h
      by_cases he : x.ctx = c ∧ x.num = g <;> simp [he, hf]
  have hover : GridOver st (s.modGrid c g f) c g := ⟨by simp [ending, hr], hgone⟩
  refine ⟨⟨rfl, id, fun _ => rfl, fun _ => rfl, fun _ h => h, fun c' g' => ?_⟩, hover⟩
  by_cases he : c' = c ∧ g' = g
  · obtain ⟨rfl, rfl⟩ := he
    exact .inr ⟨hr, hover⟩
  · exact .inl (by simp [ending, he])

theorem endGrid_of_not_running {c g : Nat} (h : s.ending c g ≠ some none) : s.endGrid c g st = s := by
  unfold State.endGrid
  unfold State.ending at h
  cases hg : s.grid? c g with
  | none => rfl
  | some gr =>
    have : gr.ended.isSome = true := by
      cases he : gr.ended with
      | none => exact absurd (by rw [hg]; exact congrArg some he) h
      | some _ => rfl
    simp [this]

theorem logRest_grids (s : State) (th : Thread) : (s.logRest th).grids = s.grids :=
  List.foldlRecOn _ _ (motive := fun x : State => x.grids = s.grids) rfl fun _ h _ _ => (State.modCore_grids _ _ _).trans h

/-- The threads of a grid, and what the cores and dies keep of it, are dropped. -/
theorem drop_endsGrids {p : Thread → Bool} {c g : Nat}
    (hrest : s' = { s with
      threads := s.threads.filter p, cores := s.cores.map (Core.dropGrid c g), teams := s'.teams, compl := s'.compl, out := s'.out
      held := s'.held, resWait := s'.resWait, dies := s'.dies }) : EndsGrids st s s' where
  rest := hrest.trans (by rw [hrest])
  slots hs k hk := by
    rw [hrest] at hk
    obtain ⟨x, hx, rfl⟩ := List.mem_map.mp hk
    exact (Core.dropGrid_slots c g x).trans (hs x hx)
  evq := evq_map_cores (f := Core.dropGrid c g) (q := id) (by rw [hrest]) (by simp) (by simp) rfl
  dying c := by rw [hrest]; rfl
  names := by
    rw [hrest]
    exact List.Sublist.subset (List.Sublist.map _ List.filter_sublist)
  grids c g := .inl (by rw [hrest]; rfl)

/-- The end of a running grid: threads, cores and dies first, then its context, its mark last. -/
theorem markDropped_over {s1 : State} {c g : Nat} {fc : Ctx → Ctx} {fg : Grid → Grid} (h : EndsGrids st s s1) (hr : s1.ending c g = some none)
    (hrest : s' = { s1 with
      threads := s1.threads.filter fun th => !inGrid c g th.id, cores := s1.cores.map (Core.dropGrid c g), teams := s'.teams
      compl := s'.compl, out := s'.out, held := s'.held, resWait := s'.resWait, dies := s'.dies })
    (hid : ∀ x, (fc x).id = x.id) (hdying : ∀ x, (fc x).dying = x.dying) (hkey : ∀ x, (fg x).ctx = x.ctx ∧ (fg x).num = x.num)
    (hended : ∀ x, (fg x).ended = some st) :
    EndsGrids st s ((s'.modCtx c fc).modGrid c g fg) ∧ GridOver st ((s'.modCtx c fc).modGrid c g fg) c g := by
  have h2 := (h.trans (drop_endsGrids hrest)).trans (modCtx_endsGrids hid hdying c)
  have hr2 : (s'.modCtx c fc).ending c g = some none := by
    rw [hrest]
    exact hr
  have hgone (u : Tid) (hu : inGrid c g u = true) : (s'.modCtx c fc).thread? u = none := by
    refine thread?_eq_none_iff.mpr fun hm => ?_
    rw [hrest] at hm
    obtain ⟨th, hth, rfl⟩ := List.mem_map.mp hm
    simpa [hu] using (List.mem_filter.mp hth).2
  obtain ⟨hm, hover⟩ := modGrid_over hr2 hgone hkey hended
  exact ⟨h2.trans hm, hover⟩

theorem endGrid_of_running {c g : Nat} (hs : s.NoCommands) (hr : s.ending c g = some none) :
    EndsGrids st s (s.endGrid c g st) ∧ GridOver st (s.endGrid c g st) c g := by
  obtain ⟨gr, hg, he⟩ := Option.map_eq_some_iff.mp hr
  let gone := s.threads.filter fun th => inGrid c g th.id
  have h1 : EndsGrids st s (gone.foldl State.logRest s) := EndsGrids.foldl (fun _ th h => logRest_endsGrids h th) _ hs
  have hr1 : (gone.foldl State.logRest s).ending c g = some none := by
    have : (gone.foldl State.logRest s).grids = s.grids :=
      List.foldlRecOn _ _ (motive := fun x : State => x.grids = s.grids) rfl fun x h th _ => (logRest_grids x th).trans h
    rw [← hr]
    unfold State.ending State.grid?
    rw [this]
  unfold State.endGrid
  simp only [hg, he, hs.commands, Option.isSome_none, Bool.false_eq_true, if_false, List.filter_nil, List.map_nil, List.foldl_nil]
  exact markDropped_over h1 hr1 rfl (by intro; rfl) (by intro; rfl) (by intro; exact ⟨rfl, rfl⟩) (by intro; rfl)

theorem endGrid_endsGrids (hs : s.NoCommands) (c g : Nat) : EndsGrids st s (s.endGrid c g st) := by
  by_cases hr : s.ending c g = some none
  · exact (endGrid_of_running hs hr).1
  · rw [endGrid_of_not_running hr]
    exact EndsGrids.refl st s

/-! ### The ending of several grids -/

theorem partEnd_of_running {cause : Cause} {info : DWord} {c g : Nat} (hs : s.NoCommands) (hr : s.ending c g = some none) :
    EndsGrids stGridKilled s (s.partEnd cause info c g) ∧ GridOver stGridKilled (s.partEnd cause info c g) c g := by
  obtain ⟨gr, hg, he⟩ := Option.map_eq_some_iff.mp hr
  obtain ⟨h1, h2⟩ := endGrid_of_running (st := stGridKilled) hs hr
  unfold State.partEnd
  rw [if_pos (by simp [hg, he])]
  exact ⟨h1.trans ⟨rfl, id, fun _ => rfl, fun _ => rfl, fun _ h => h, fun _ _ => .inl rfl⟩, h2.1, h2.2⟩

theorem partEnd_endsGrids (hs : s.NoCommands) (cause : Cause) (info : DWord) (c g : Nat) :
    EndsGrids stGridKilled s (s.partEnd cause info c g) := by
  by_cases hr : s.ending c g = some none
  · exact (partEnd_of_running hs hr).1
  · have : (s.grid? c g).any (·.ended.isNone) = false := by
      unfold State.ending at hr
      cases hg : s.grid? c g with
      | none => rfl
      | some gr => simpa [hg, Option.isSome_iff_ne_none] using hr
    simp only [State.partEnd, this, Bool.false_eq_true, if_false]
    exact EndsGrids.refl _ s

end

end Sys2Proof.Machine
end

section
/-! Stops, lost dies, resets of a function, the destruction of a context: what each leaves, and the grids that end (R396, R428, R430, R438). -/

namespace Sys2Proof.Machine

open Sys2Proof

theorem ending_of_grid? {s : State} {c g : Nat} {gr : Grid} (h : s.grid? c g = some gr) (he : gr.ended = none) :
    s.ending c g = some none := by
  unfold State.ending
  rw [h]
  exact congrArg some he

/-! ### A stop (R430) -/

theorem partLate_eq_none {s : State} {n : Nat} {info : DWord}
    (h : ∀ a ∈ s.parts, a.cause = causeOf n → a.info = info → s.cycle ≤ a.since + s.serviceCycles a.ctx 3) : s.partLate n info = none := by
  refine List.find?_eq_none.mpr fun a ha => ?_
  simp only [Bool.and_eq_true, beq_iff_eq, decide_eq_true_eq, not_and, Nat.not_lt, and_imp]
  exact fun hc hi => h a ha hc hi

theorem failMigrations_idle {s : State} (h : ∀ c, c < 4 → (s.mig c).stat ≠ 1) : s.failMigrations = s := by
  simp [State.failMigrations, seqFrom, h 0, h 1, h 2, h 3]

theorem moduleStop_stopped {s : State} (h : s.stop.state ≠ 0) (c : Cause) (info : DWord) (since : Nat) : s.moduleStop c info since = s :=
  if_pos h

/-- The report and the flood with which a stop begins. -/
def State.stopBegun (s : State) (c : Cause) (info : DWord) (since : Nat) : State :=
  { s with
    stop := { state := 1, cause := c.num, info, cycle := since, grids := (s.grids.filter fun g => g.ended.isNone).length, sigfail := 0 }
    messages := s.messages ++ [.flood .dead] }

/-- After its report, a stop only ends grids, and it ends all that run. -/
theorem moduleStop_ends {s : State} (h : s.stop.state = 0) (hs : s.NoCommands) (hm : ∀ c, c < 4 → (s.mig c).stat ≠ 1) (c : Cause)
    (info : DWord) (since : Nat) :
    EndsGrids stGridKilled (s.stopBegun c info since) (s.moduleStop c info since) ∧
    ∀ cx g, s.ending cx g = some none → GridOver stGridKilled (s.moduleStop c info since) cx g := by
  have h1 : EndsGrids stGridKilled (s.stopBegun c info since) (s.threads.foldl (fun s th => s.landAll th.id) (s.stopBegun c info since)) :=
    EndsGrids.foldl (fun _ th h => landAll_endsGrids h th.id) _ hs
  have e : s.moduleStop c info since =
      let s1 := s.threads.foldl (fun s th => s.landAll th.id) (s.stopBegun c info since)
      s1.grids.foldl (fun s g => s.endGrid g.ctx g.num stGridKilled) s1 := by
    have hf := failMigrations_idle (s := s.threads.foldl (fun s th => s.landAll th.id) (s.stopBegun c info since)) (by
      intro k hk
      rw [h1.rest]
      exact hm k hk)
    unfold State.moduleStop
    rw [if_neg (by simp [h])]
    dsimp only
    rw [← hf]
    rfl
  rw [e]
  generalize s.threads.foldl (fun s th => s.landAll th.id) (s.stopBegun c info since) = s1 at h1
  have hs1 := h1.slots hs
  have step (x : State) (g : Grid) (hx : x.NoCommands) := endGrid_endsGrids (st := stGridKilled) hx g.ctx g.num
  have h2 := EndsGrids.foldl step s1.grids hs1
  refine ⟨h1.trans h2, fun cx g hr => ?_⟩
  rcases h1.grids cx g with he | ⟨_, ho⟩
  · have hr1 : s1.ending cx g = some none := he.trans hr
    obtain ⟨gr, hg, _⟩ := Option.map_eq_some_iff.mp hr1
    obtain ⟨rfl, rfl⟩ := grid?_key hg
    exact GridOver.foldl step (List.mem_of_find?_eq_some hg) (fun x hx hr => (endGrid_of_running hx hr).2) hs1 hr1
  · exact h2.over ho

/-- What a cause of the module rung begins (R430). -/
theorem moduleStop_report {s : State} (h : s.stop.state = 0) (hs : s.NoCommands) (hm : ∀ c, c < 4 → (s.mig c).stat ≠ 1) (c : Cause)
    (info : DWord) (since : Nat) :
    let s' := s.moduleStop c info since
    s'.mem = s.mem ∧ s'.messages = s.messages ++ [.flood .dead] ∧
      s'.stop = { state := 1, cause := c.num, info, cycle := since, grids := (s.grids.filter fun g => g.ended.isNone).length, sigfail := 0 } ∧
      ∀ cx g gr, s.grid? cx g = some gr → gr.ended = none →
        (s'.grid? cx g).map (·.ended) = some (some stGridKilled) ∧ ∀ u, inGrid cx g u = true → s'.thread? u = none := by
  obtain ⟨he, hover⟩ := moduleStop_ends h hs hm c info since
  refine ⟨?_, ?_, ?_, fun cx g gr hg hr => (hover cx g (ending_of_grid? hg hr)).ended_and_gone⟩
  · rw [he.rest]; rfl
  · rw [he.rest]; rfl
  · rw [he.rest]; rfl

/-- Each cause of the module rung is a stop in the cycle in which it was raised. -/
theorem exec_moduleCause {s : State} {d n since : Nat} {info x : DWord} {i : Instr} {c : Cause}
    (h : i = .thermalCritical d ∧ c = .thermalCritical ∧ x = BitVec.ofNat 64 d ∧ since = s.cycle ∨
      i = .powerFault ∧ c = .powerFault ∧ x = 0 ∧ since = s.cycle ∨
      i = .partitionTimeout n info ∧ c = causeOf n ∧ x = info ∧ (s.partLate n info).map (·.since) = some since) :
    exec i s = .next (s.moduleStop c x since) := by
  rcases h with ⟨rfl, rfl, rfl, rfl⟩ | ⟨rfl, rfl, rfl, rfl⟩ | ⟨rfl, rfl, rfl, hl⟩
  · rfl
  · rfl
  · obtain ⟨a, ha, rfl⟩ := Option.map_eq_some_iff.mp hl
    show execPartitionTimeout n x s = _
    simp only [execPartitionTimeout, ha]

/-! ### A lost die, a reset of its function (R396, R438) -/

theorem die_modDie_self (s : State) (d : Nat) (f : Die → Die) (hf : ∀ x, (f x).id = x.id) : (s.modDie d f).die d = f (s.die d) := by
  unfold State.die State.modDie
  cases h : s.dies.find? fun x => x.id == d with
  | none =>
    have hn : (s.dies.any fun x => x.id == d) = false := by
      rw [List.any_eq_false]
      exact List.find?_eq_none.mp h
    have hd : (f (Die.reset d)).id = d := hf _
    simp [hn, List.find?_append, h, hd]
  | some x =>
    have hx : x.id = d := by simpa using List.find?_some h
    have hn : (s.dies.any fun x => x.id == d) = true := List.any_eq_true.mpr ⟨x, List.mem_of_find?_eq_some h, by simp [hx]⟩
    have he : (fun y : Die => y.id == d) ∘ (fun y => if y.id = d then f y else y) = fun y => y.id == d := by
      funext y
      by_cases hy : y.id = d <;> simp [hy, hf]
    simp only [hn, if_true, List.find?_map, he, h, Option.map_some, hx, Option.getD_some]

/-- The die is lost, and every grid that had work there is over. -/
theorem loseDie_ends {s : State} (hs : s.NoCommands) (d : Nat) :
    EndsGrids stGridKilled s (s.loseDie d) ∧
    ∀ gr ∈ s.gridsOnDie d, s.grid? gr.ctx gr.num = some gr → gr.ended = none → GridOver stGridKilled (s.loseDie d) gr.ctx gr.num := by
  have step (x : State) (g : Grid) (hx : x.NoCommands) := partEnd_endsGrids hx .dieLost (BitVec.ofNat 64 d) g.ctx g.num
  have h1 := EndsGrids.foldl step (s.gridsOnDie d) hs
  have h2 (x : State) (hx : x.NoCommands) (l : List Core) :
      EndsGrids stGridKilled x ((l.foldl (fun s k => s.unbind k.id) x).modDie d fun y => { y with lost := true, reserve := none, subs := [], mailbox := [] }) :=
    (EndsGrids.foldl (fun _ k _ => unbind_endsGrids k.id) l hx).trans (modDie_endsGrids _ d)
  refine ⟨h1.trans (h2 _ (h1.slots hs) _), fun gr hgr hg he => (h2 _ (h1.slots hs) _).over ?_⟩
  exact GridOver.foldl step hgr (fun x hx hr => (partEnd_of_running hx hr).2) hs (ending_of_grid? hg he)

theorem loseDie_die (s : State) (d : Nat) :
    ((s.loseDie d).die d).lost = true ∧ ((s.loseDie d).die d).mailbox = [] ∧ ((s.loseDie d).die d).subs = [] := by
  unfold State.loseDie
  rw [die_modDie_self _ d _ (by intro; rfl)]
  exact ⟨rfl, rfl, rfl⟩

theorem foldl_poisonLine_rest (l : List Nat) (s : State) :
    l.foldl State.poisonLine s = { s with poison := (l.foldl State.poisonLine s).poison } := by
  refine List.foldlRecOn l State.poisonLine (motive := fun x : State => x = { s with poison := x.poison }) rfl fun x hx n _ => ?_
  unfold State.poisonLine
  split
  · exact hx
  · rw [hx]

/-- What the reset of a die leaves, beside the loss of the die. -/
theorem resetDie_eq (s : State) (d : Nat) : ∃ lines leases p, s.resetDie d = { s.loseDie d with
    poison := lines, leases
    cores := (s.loseDie d).cores.filter fun k => !((s.loseDie d).coresOf d).contains k.id
    threads := (s.loseDie d).threads.filter p
    dies := (s.loseDie d).dies.filter fun x => x.id != d } := by
  unfold State.resetDie
  dsimp only
  rw [foldl_poisonLine_rest]
  exact ⟨_, _, _, rfl⟩

theorem GridOver.of_subset {st c g : Nat} {s s' : State} (h : GridOver st s c g) (hg : s'.grids = s.grids) (ht : s'.threads ⊆ s.threads) :
    GridOver st s' c g := by
  refine ⟨?_, fun u hu => thread?_eq_none_iff.mpr fun hm => thread?_eq_none_iff.mp (h.gone u hu) (List.map_subset _ ht hm)⟩
  unfold State.ending State.grid?
  rw [hg]
  exact h.ended

/-- The reset of a die ends what its loss ends, and leaves the die and its cores as after module reset. -/
theorem resetDie_ends {s : State} (hs : s.NoCommands) (d : Nat) :
    (s.resetDie d).mem = s.mem ∧ (s.resetDie d).funcs = s.funcs ∧ (s.resetDie d).die d = Die.reset d ∧
    (∀ k ∈ s.coresOf d, (s.resetDie d).core k = Core.reset k) ∧
    ∀ gr ∈ s.gridsOnDie d, s.grid? gr.ctx gr.num = some gr → gr.ended = none → GridOver stGridKilled (s.resetDie d) gr.ctx gr.num := by
  obtain ⟨hlost, hover⟩ := loseDie_ends hs d
  obtain ⟨lines, leases, p, he⟩ := resetDie_eq s d
  have hcores : (s.loseDie d).coresOf d = s.coresOf d := by rw [hlost.rest]; rfl
  refine ⟨?_, ?_, ?_, fun k hk => ?_, fun gr h1 h2 h3 => (hover gr h1 h2 h3).of_subset ?_ ?_⟩
  · rw [he, hlost.rest]
  · rw [he, hlost.rest]
  · rw [he]
    have : (((s.loseDie d).dies.filter fun x => x.id != d).find? fun x => x.id == d) = none :=
      List.find?_eq_none.mpr fun x hx => by simpa using (List.mem_filter.mp hx).2
    simp only [State.die, this, Option.getD_none]
  · rw [he, hcores]
    have : (((s.loseDie d).cores.filter fun x => !(s.coresOf d).contains x.id).find? fun x => x.id == k) = none :=
      List.find?_eq_none.mpr fun x hx hid => by
        have hid : x.id = k := by simpa using hid
        simpa [hid, hk] using (List.mem_filter.mp hx).2
    simp only [State.core, this, Option.getD_none]
  · rw [he]
  · rw [he]
    exact List.filter_sublist.subset

theorem modFunc_set {s : State} {fn : Nat} {f : Func → Func} {y : Func} (hy : y ∈ (s.modFunc fn f).funcs)
    (h : y.id = fn) : ∃ x, y = f x := by
  obtain ⟨x, _, rfl⟩ := List.mem_map.mp hy
  by_cases hx : x.id = fn
  · exact ⟨x, if_pos hx⟩
  · rw [if_neg hx] at h
    exact absurd h hx

/-- A function whose die is reset: it is in ERROR, and its keys are gone (R436, R438). -/
def Func.failed (f : Func) : Func := { f with tdisp := .error, keys := false }

theorem execFunctionLevelReset_die {d : Nat} (hd : d < 24) (s : State) :
    execFunctionLevelReset d s = .next ((s.modFunc d Func.failed).resetDie d) :=
  congrArg Host.Outcome.next (if_neg (by omega))

/-! ### The destruction of a context (R428) -/

theorem dropEntries_evq (s : State) (c n : Nat) : ((s.dropEntries c).core n).evq = (s.core n).evq.filter (·.ctx != c) :=
  evq_map_cores (s := s) (s' := s.dropEntries c) rfl (by intro; rfl) (by intro; rfl) rfl n

/-- A context without queues and waiting launches: it is marked, its grids end with CANCELLED, its scalar threads stop, its entries go. -/
theorem destroy_ends {s : State} {c : Nat} {k : Ctx} (hk : s.ctx? c = some k) (hq : k.queues = []) (hw : k.waiting = []) (hs : s.NoCommands) :
    ∃ s', s.destroy c = s'.dropEntries c ∧ s'.mem = s.mem ∧ (∀ n, (s'.core n).evq = (s.core n).evq) ∧
      (∃ x, s'.ctx? c = some x ∧ x.dying = true) ∧ ∀ g, s.ending c g = some none → GridOver stCancelled s' c g := by
  let s1 := (s.modCtx c fun x => { x with dying := true }).modCtx c fun x => { x with waiting := [] }
  have hk1 : (s.modCtx c fun x => { x with dying := true }).ctx? c = some { k with dying := true } := ctx?_modCtx_self hk (show k.id = c from ctx?_id hk)
  have hk2 : s1.ctx? c = some { k with dying := true, waiting := [] } := ctx?_modCtx_self hk1 (show k.id = c from ctx?_id hk)
  have step (x : State) (g : Grid) (hx : x.NoCommands) := endGrid_endsGrids (st := stCancelled) hx c g.num
  let s2 := (s1.grids.filter fun g => g.ctx == c).foldl (fun s g => s.endGrid c g.num stCancelled) s1
  have h2 : EndsGrids stCancelled s1 s2 := EndsGrids.foldl step _ hs
  let s3 := (s2.cores.filter fun k => k.bind.any fun b => b.ctx == c).foldl (fun s k => s.unbind k.id) s2
  have h3 : EndsGrids stCancelled s2 s3 := EndsGrids.foldl (fun _ k _ => unbind_endsGrids k.id) _ (h2.slots hs)
  have h := h2.trans h3
  refine ⟨s3, ?_, ?_, fun n => h.evq n, ?_, fun g hr => h3.over ?_⟩
  · simp only [State.destroy, hk, hq, List.foldl_nil, State.cancelWaiting, hk1, hw]
    rfl
  · rw [h.rest]
    rfl
  · have hd := h.dying c
    rw [hk2] at hd
    exact Option.map_eq_some_iff.mp hd
  · obtain ⟨gr, hg, _⟩ := Option.map_eq_some_iff.mp hr
    obtain ⟨rfl, rfl⟩ := grid?_key hg
    exact GridOver.foldl step (List.mem_filter.mpr ⟨List.mem_of_find?_eq_some hg, by simp⟩) (fun x hx hr => (endGrid_of_running hx hr).2) hs hr

end Sys2Proof.Machine
end

section
/-! Byte memories: reads after a range is cleared and after a range is copied. -/

namespace Sys2Proof.Machine

open Sys2Proof

theorem get_filterFrom {p : Host.Cell → Bool} {q : Nat → Bool} (hp : ∀ c, p c = q c.1) {lo : Nat} {m : Memory}
    (w : Memory.wfFrom lo m = true) (x : Nat) : Memory.get (m.filter p) x = if q x = true then m.get x else 0 := by
  induction m generalizing lo with
  | nil => exact (ite_self _).symm
  | cons c m ih =>
    obtain ⟨k, v⟩ := c
    simp only [Memory.wfFrom, Bool.and_eq_true] at w
    have hm := ih w.2
    rw [List.filter_cons]
    by_cases hx : x = k
    · subst hx
      by_cases hq : q x = true
      · simp [hp, hq, Memory.get]
      · simp [hp, hq, hm]
    · by_cases hlt : x < k
      · have hz : Memory.get m x = 0 := get_below w.2 (by omega)
        split <;> simp [hm, hz, Memory.get, hx, hlt, Memory.unlisted]
      · split <;> simp [hm, Memory.get, hx, hlt]

/-- A cleared range reads 0, every other byte as before. -/
theorem get_clear {m : Memory} (w : m.wf = true) (a n x : Nat) :
    (m.clear a n).get x = if a ≤ x ∧ x < a + n then 0 else m.get x := by
  refine (get_filterFrom (q := fun y => decide (y < a) || decide (a + n ≤ y)) (fun _ => rfl) w x).trans ?_
  by_cases h : a ≤ x ∧ x < a + n
  · rw [if_pos h, if_neg (by simp; omega)]
  · rw [if_neg h, if_pos (by simp; omega)]

theorem foldl_put_wf {m : Memory} (w : m.wf = true) (f : Host.Cell → Nat) (l : List Host.Cell) :
    Memory.wf (l.foldl (fun m c => m.put (f c) c.2) m) = true :=
  List.foldlRecOn l _ (motive := fun x : Memory => x.wf = true) w fun _ h c _ => put_wf h (f c) c.2

/-- Bytes put at or above an address leave what lies below it. -/
theorem get_foldl_put_below {m : Memory} (w : m.wf = true) {f : Host.Cell → Nat} {l : List Host.Cell} {x : Nat} (h : ∀ c ∈ l, x < f c) :
    Memory.get (l.foldl (fun m c => m.put (f c) c.2) m) x = m.get x :=
  (List.foldlRecOn l _ (motive := fun y : Memory => y.wf = true ∧ y.get x = m.get x) ⟨w, rfl⟩ fun y hy c hc => by
    have := h c hc
    exact ⟨put_wf hy.1 _ _, by rw [get_put hy.1, if_neg (by omega), hy.2]⟩).2

/-- The listed bytes of a memory, put at a distance. -/
theorem get_foldl_put_moved {a b lo : Nat} {l : Memory} (wl : Memory.wfFrom lo l = true) (ha : ∀ c ∈ l, a ≤ c.1) {m : Memory} (w : m.wf = true) (x : Nat) :
    Memory.get (l.foldl (fun m c => m.put (b + (c.1 - a)) c.2) m) x =
      if b ≤ x ∧ l.get (a + (x - b)) ≠ 0 then l.get (a + (x - b)) else m.get x := by
  induction l generalizing lo m with
  | nil => simp [Memory.get, Memory.unlisted]
  | cons c l ih =>
    obtain ⟨k, v⟩ := c
    simp only [Memory.wfFrom, Bool.and_eq_true, decide_eq_true_eq] at wl
    obtain ⟨⟨hlo, hv⟩, hl⟩ := wl
    have hv : ¬ v = 0#8 := by simpa [Memory.unlisted] using hv
    have hk0 : a ≤ k := ha _ List.mem_cons_self
    rw [List.foldl_cons, ih hl (fun c hc => ha c (List.mem_cons_of_mem _ hc)) (put_wf w _ _), get_put w]
    by_cases hx : x = b + (k - a)
    · have hk : a + (x - b) = k := by omega
      have hz : Memory.get l k = 0 := get_below hl (by omega)
      rw [if_pos hx, hk, hz]
      simp [Memory.get, hv, show b ≤ x by omega]
    · by_cases hb : b ≤ x
      · have hk : a + (x - b) ≠ k := by omega
        by_cases hlt : a + (x - b) < k
        · have hz : Memory.get l (a + (x - b)) = 0 := get_below hl (by omega)
          simp [Memory.get, hk, hlt, hz, hx, Memory.unlisted]
        · simp [Memory.get, hk, hlt, hx]
      · simp [hb, hx]

theorem copy_wf {src dst : Memory} (w : dst.wf = true) (a n b : Nat) : (Memory.copy src a n dst b).wf = true :=
  foldl_put_wf (clear_wf w b n) _ _

/-- A copied range reads as its source, every other byte as before. -/
theorem get_copy {src dst : Memory} (ws : src.wf = true) (wd : dst.wf = true) (a n b x : Nat) :
    (Memory.copy src a n dst b).get x = if b ≤ x ∧ x < b + n then src.get (a + (x - b)) else dst.get x := by
  have hl (y : Nat) := get_filterFrom (p := fun c => decide (a ≤ c.1) && decide (c.1 < a + n))
    (q := fun z => decide (a ≤ z) && decide (z < a + n)) (fun _ => rfl) ws y
  have wl := filter_wfFrom (fun c => decide (a ≤ c.1) && decide (c.1 < a + n)) ws
  have ha : ∀ c ∈ src.filter fun c => decide (a ≤ c.1) && decide (c.1 < a + n), a ≤ c.1 := fun c hc => by
    have := (List.mem_filter.mp hc).2
    simp only [Bool.and_eq_true, decide_eq_true_eq] at this
    exact this.1
  unfold Memory.copy
  rw [get_foldl_put_moved wl ha (clear_wf wd b n), hl, get_clear wd]
  by_cases h : b ≤ x ∧ x < b + n
  · have hq : (decide (a ≤ a + (x - b)) && decide (a + (x - b) < a + n)) = true := by
      simp only [Bool.and_eq_true, decide_eq_true_eq]
      omega
    rw [if_pos hq, if_pos h, if_pos h]
    by_cases hz : src.get (a + (x - b)) = 0
    · rw [if_neg fun hc => hc.2 hz, hz]
    · rw [if_pos ⟨h.1, hz⟩]
  · have hq : b ≤ x → ¬ (decide (a ≤ a + (x - b)) && decide (a + (x - b) < a + n)) = true := by
      simp only [Bool.and_eq_true, decide_eq_true_eq]
      omega
    rw [if_neg h, if_neg h, if_neg]
    rintro ⟨hb, hne⟩
    exact hne (if_neg (hq hb))

end Sys2Proof.Machine
end

section
/-! Checkpoints: quiescence, the copy into the windows, the resumption, and the way back (R434, R435). -/

namespace Sys2Proof.Machine

open Sys2Proof

/-! ### Quiescence -/

theorem foldl_landAll_quiet {s : State} (h : ∀ th ∈ s.threads, th.ops = []) (l : List Thread) :
    l.foldl (fun s th => s.landAll th.id) s = s :=
  List.foldlRecOn l _ (motive := fun x : State => x = s) rfl fun x hx th _ => by
    subst hx
    unfold State.landAll
    cases ht : x.thread? th.id with
    | none => rfl
    | some y =>
      have := h y (List.mem_of_find?_eq_some ht)
      simp [this]

theorem migsIdle_iff (s : State) : (s.migs.all fun m => m.stat != 1) = true ↔ ∀ m ∈ s.migs, m.stat ≠ 1 := by simp

theorem execCkptQuiesced_waits {s : State} (h : s.ckpt.state ≠ 1 ∨ ∃ m ∈ s.migs, m.stat = 1) : execCkptQuiesced s = .next s := by
  unfold execCkptQuiesced
  rw [if_neg]
  rintro ⟨h1, h2⟩
  rcases h with h | ⟨m, hm, hs⟩
  · exact h h1
  · exact (migsIdle_iff s).mp h2 m hm hs

theorem execCkptQuiesced_quiet {s : State} (h : s.ckpt.state = 1) (hm : ∀ m ∈ s.migs, m.stat ≠ 1) (hq : ∀ th ∈ s.threads, th.ops = []) :
    execCkptQuiesced s = .next { s with ckpt := { s.ckpt with state := 2, tick := s.topTick } } := by
  unfold execCkptQuiesced
  rw [if_pos ⟨h, (migsIdle_iff s).mpr hm⟩, foldl_landAll_quiet hq]

/-! ### The resumption (R434) -/

/-- The module resumes with a status: SEQ rises, the waiting CKPT completes, the links are told. -/
structure Resumed (st : Nat) (s s' : State) : Prop where
  mem : s'.mem = s.mem
  state : s'.ckpt.state = 0
  lastst : s'.ckpt.lastst = st
  seq : s'.ckpt.seq = s.ckpt.seq + 1
  waiter : s'.ckpt.waiter = none
  messages : s'.messages = s.messages ++ [.flood .up]
  compl : s'.compl = s.compl ++ (s.ckpt.waiter.map fun w =>
    { t := w.1, xs := [(w.2, BitVec.ofNat 32 st)], p := none, cause := none, set := none }).toList

theorem ckptResume_resumed (s : State) (st : Nat) : Resumed st s (s.ckptResume st) := by
  unfold State.ckptResume
  cases hw : s.ckpt.waiter with
  | none => exact ⟨rfl, rfl, rfl, rfl, rfl, rfl, by rw [hw]; exact (List.append_nil _).symm⟩
  | some w => exact ⟨rfl, rfl, rfl, rfl, rfl, rfl, by rw [hw]; rfl⟩

/-! ### The copy of a part (R435) -/

theorem mem_seqFrom_zero {d n : Nat} : d ∈ seqFrom 0 n ↔ d < n := by
  simp [seqFrom_map]

theorem seqFrom_succ_last (a n : Nat) : seqFrom a (n + 1) = seqFrom a n ++ [a + n] := by
  simp [seqFrom_map, List.range_succ]

theorem partHeader_length (s : State) (d st : Nat) : (s.partHeader d st).length = partHbm := by
  simp only [State.partHeader, List.length_append, bytesOfNat_length, List.length_replicate, partHbm]

/-- The accumulator stores of several cores go at or above the start of their area. -/
theorem foldl_stores {m : Memory} (w : m.wf = true) (a : Nat) (l : List Core) :
    let r : Memory := l.foldl (fun m k => k.acc.foldl (fun m c => m.put (a + k.id / 4 * accBytes + c.1) c.2) m) m
    r.wf = true ∧ ∀ x, x < a → r.get x = m.get x :=
  List.foldlRecOn l _ (motive := fun r : Memory => r.wf = true ∧ ∀ x, x < a → r.get x = m.get x) ⟨w, fun _ _ => rfl⟩ fun r hr k _ =>
    ⟨foldl_put_wf hr.1 _ _, fun x hx => (get_foldl_put_below hr.1 fun _ _ => by omega).trans (hr.2 x hx)⟩

/-- The copy of a part keeps every byte below its window and puts the part's HBM into it. -/
theorem copyPart_mem {s : State} (w : s.mem.wf = true) (st d : Nat) :
    (s.copyPart st d).mem.wf = true ∧ (∀ x, x < ckptBase d → (s.copyPart st d).mem.get x = s.mem.get x) ∧
    ∀ o, o < partBytes → (s.copyPart st d).mem.get (ckptBase d + partHbm + o) = s.mem.get (d * partBytes + o) := by
  have w1 := copy_wf (src := s.mem) w (d * partBytes) partBytes (ckptBase d + partHbm)
  have w2 := clear_wf w1 (ckptBase d + partAcc) ((s.partCores d).length * accBytes)
  obtain ⟨w3, h3⟩ := foldl_stores w2 (ckptBase d + partAcc) (s.cores.filter fun k => k.id % 4 == d)
  have hacc : partAcc = partHbm + partBytes := by decide
  have low (x : Nat) (hx : x < ckptBase d + partAcc) (ho : x < ckptBase d ∨ ckptBase d + partHbm ≤ x) : (s.copyPart st d).mem.get x =
      if ckptBase d + partHbm ≤ x ∧ x < ckptBase d + partHbm + partBytes then s.mem.get (d * partBytes + (x - (ckptBase d + partHbm)))
      else s.mem.get x := by
    simp only [State.copyPart]
    rw [get_write w3, partHeader_length, if_neg (by omega), h3 x hx, get_clear w1, if_neg (by omega), get_copy w w]
  refine ⟨by simp only [State.copyPart]; exact write_wf w3 _ _, fun x hx => ?_, fun o ho => ?_⟩
  · rw [low x (by omega) (.inl hx), if_neg (by omega)]
  · rw [low _ (by omega) (.inr (by omega)), if_pos (by omega)]
    exact congrArg s.mem.get (by omega)

theorem copyPart_rest (s : State) (st d : Nat) : ∃ mem poison lineIa, s.copyPart st d = { s with mem, poison, lineIa } :=
  ⟨_, _, _, rfl⟩

/-- The HBM of the first parts stands in their windows, nothing below the windows has changed, and the checkpoint's own state stands. -/
structure PartsCopied (n : Nat) (s r : State) : Prop where
  ckpt : r.ckpt = s.ckpt
  messages : r.messages = s.messages
  compl : r.compl = s.compl
  wf : r.mem.wf = true
  low : ∀ x, x < Config.farBase → r.mem.get x = s.mem.get x
  parts : ∀ d o, d < n → o < partBytes → r.mem.get (ckptBase d + partHbm + o) = s.mem.get (d * partBytes + o)

theorem PartsCopied.next {n st : Nat} {s r : State} (h : PartsCopied n s r) (hn : n < 4) : PartsCopied (n + 1) s (r.copyPart st n) := by
  obtain ⟨wf, below, new⟩ := copyPart_mem h.wf st n
  obtain ⟨_, _, _, e⟩ := copyPart_rest r st n
  refine ⟨?_, ?_, ?_, wf, fun x hx => ?_, fun d o hd ho => ?_⟩
  · rw [e]; exact h.ckpt
  · rw [e]; exact h.messages
  · rw [e]; exact h.compl
  · rw [below x (by simp only [ckptBase, Config.farBase] at hx ⊢; omega), h.low x hx]
  · rcases Nat.lt_succ_iff_lt_or_eq.mp hd with hlt | rfl
    · rw [below _ ?_, h.parts d o hlt ho]
      simp only [ckptBase, partHbm, partBytes] at ho ⊢
      omega
    · rw [new o ho, h.low _ ?_]
      simp only [Config.farBase, partBytes] at ho ⊢
      omega

theorem copyParts {s : State} (w : s.mem.wf = true) (st : Nat) {n : Nat} (hn : n ≤ 4) :
    PartsCopied n s ((seqFrom 0 n).foldl (fun s d => s.copyPart st d) s) := by
  induction n with
  | zero => exact ⟨rfl, rfl, rfl, w, fun _ _ => rfl, fun _ _ h => absurd h (Nat.not_lt_zero _)⟩
  | succ n ih =>
    rw [seqFrom_succ_last, Nat.zero_add, List.foldl_append]
    exact (ih (by omega)).next hn

theorem partPoison_eq_nil {s : State} (hp : s.poison = []) (ha : ∀ k ∈ s.cores, k.accBad = []) (d : Nat) : s.partPoison d = [] := by
  have : ((s.cores.filter fun k => k.id % 4 == d).flatMap fun k => k.accBad.map fun a =>
      (ckptBase d + partAcc + k.id / 4 * accBytes + a) / 64) = [] :=
    List.flatMap_eq_nil_iff.mpr fun k hk => by rw [ha k (List.mem_filter.mp hk).1, List.map_nil]
  simp only [State.partPoison, hp, this, List.filter_nil, List.map_nil, List.eraseDups_nil, List.append_nil]

/-- Without an uncorrectable value the copy's status is 0. -/
theorem execCkptCopyDone_clean {s : State} (h : s.ckpt.state = 2) (hp : s.poison = []) (ha : ∀ k ∈ s.cores, k.accBad = []) :
    execCkptCopyDone false s = .next (((seqFrom 0 4).foldl (fun s d => s.copyPart 0 d) s).ckptResume 0) := by
  simp only [execCkptCopyDone, h, if_true, Bool.false_eq_true, if_false, partPoison_eq_nil hp ha, List.isEmpty_nil, List.all_eq_true,
    implies_true]

/-! ### The way back (R435) -/

theorem restorePart_threads (s : State) (d : Nat) : (s.restorePart d).threads = s.threads := by
  unfold State.restorePart
  refine List.foldlRecOn _ _ (motive := fun x : State => x.threads = s.threads) rfl fun x hx c _ => ?_
  split
  · exact hx
  · exact (State.modCore_threads _ _ _).trans hx

/-- The HBM of the first parts is that of their windows, and nothing above it has changed. -/
structure PartsRestored (n : Nat) (s r : State) : Prop where
  threads : r.threads = s.threads
  wf : r.mem.wf = true
  high : ∀ x, n * partBytes ≤ x → r.mem.get x = s.mem.get x
  parts : ∀ d o, d < n → o < partBytes → r.mem.get (d * partBytes + o) = s.mem.get (ckptBase d + partHbm + o)

theorem PartsRestored.next {n : Nat} {s r : State} (h : PartsRestored n s r) (hn : n < 4) : PartsRestored (n + 1) s (r.restorePart n) := by
  have new (x : Nat) : (r.restorePart n).mem.get x =
      if n * partBytes ≤ x ∧ x < n * partBytes + partBytes then r.mem.get (ckptBase n + partHbm + (x - n * partBytes)) else r.mem.get x :=
    get_copy h.wf h.wf _ _ _ x
  refine ⟨(restorePart_threads r n).trans h.threads, copy_wf h.wf _ _ _, fun x hx => ?_, fun d o hd ho => ?_⟩
  · simp only [Nat.add_mul, Nat.one_mul] at hx
    rw [new, if_neg (by omega), h.high x (by omega)]
  · rcases Nat.lt_succ_iff_lt_or_eq.mp hd with hlt | rfl
    · have : (d + 1) * partBytes ≤ n * partBytes := Nat.mul_le_mul_right _ hlt
      rw [Nat.add_mul] at this
      rw [new, if_neg (by omega), h.parts d o hlt ho]
    · rw [new, if_pos (by omega), Nat.add_sub_cancel_left, h.high _ ?_]
      simp only [ckptBase, Config.farBase, partBytes]
      omega

theorem restoreParts {s : State} (w : s.mem.wf = true) {n : Nat} (hn : n ≤ 4) : PartsRestored n s ((seqFrom 0 n).foldl State.restorePart s) := by
  induction n with
  | zero => exact ⟨rfl, w, fun _ _ => rfl, fun _ _ h => absurd h (Nat.not_lt_zero _)⟩
  | succ n ih =>
    rw [seqFrom_succ_last, Nat.zero_add, List.foldl_append]
    exact (ih (by omega)).next hn

theorem execCheckpointRestore_of_ctxs {s : State} (h : s.ctxs ≠ []) : execCheckpointRestore s = .next s := by
  simp [execCheckpointRestore, h]

theorem execCheckpointRestore_good {s : State} (h : s.ctxs = []) (hg : ∀ d, d < 4 → headerGood (s.mem.read (ckptBase d) 64) d = true) :
    execCheckpointRestore s = .next ((seqFrom 0 4).foldl State.restorePart s) := by
  unfold execCheckpointRestore
  rw [if_pos ⟨by rw [h]; rfl, List.all_eq_true.mpr fun d hd => hg d (mem_seqFrom_zero.mp hd)⟩]

end Sys2Proof.Machine
end

section
/-! A write of CGDEF: the table's lines as the save engine reads them (R278, R289, R365). -/

namespace Sys2Proof.Machine

open Sys2Proof

/-- An agent has only read: translations are kept, ticks move on. -/
structure OnlyRead (s s' : State) : Prop where
  rest : s' = { s with tlb := s'.tlb, ticks := s'.ticks, agents := s'.agents }

section
variable {s s' s'' : State}

theorem OnlyRead.refl (s : State) : OnlyRead s s := ⟨rfl⟩

theorem OnlyRead.trans (h1 : OnlyRead s s') (h2 : OnlyRead s' s'') : OnlyRead s s'' :=
  ⟨h2.rest.trans (by rw [h1.rest])⟩

theorem OnlyRead.noCommands (h : OnlyRead s s') (hs : s.NoCommands) : s'.NoCommands := by
  rw [h.rest]
  exact hs

theorem passHomes_onlyRead (n : Nat) (s : State) (ia : Nat) : OnlyRead s (State.passHomes false n s ia) := by
  induction n generalizing s ia with
  | zero => exact OnlyRead.refl s
  | succ n ih =>
    have h : OnlyRead s (s.keepTranslation ia) := ⟨by rw [keepTranslation_rest]⟩
    simp only [State.passHomes, Bool.false_eq_true, if_false]
    split
    · split
      · exact h.trans (ih _ _)
      · exact h
    · exact h

theorem iaRead1_onlyRead (hs : s.NoCommands) (a : Agent) (ia n : Nat) : OnlyRead s (s.iaRead1 a ia n).1 := by
  simp only [State.iaRead1, State.iaReadHop, recall_none hs, Bool.not_true, Bool.false_eq_true, if_false]
  have h := passHomes_onlyRead (hopsLeft 0 + 1) s ia
  split
  · exact OnlyRead.refl s
  · exact OnlyRead.refl s
  · exact OnlyRead.refl s
  · exact OnlyRead.refl s
  · exact h.trans ⟨rfl⟩
  · split
    · exact OnlyRead.refl s
    · exact h
  · split
    · exact OnlyRead.refl s
    · exact h

theorem iaReadLine_onlyRead (hs : s.NoCommands) {ia n : Nat} {bs : List Byte} (h : s.iaReadLine ia n = some (s', bs)) : OnlyRead s s' := by
  have := iaRead1_onlyRead hs .save ia n
  unfold State.iaReadLine at h
  split at h
  · rename_i he
    rw [he] at this
    cases h
    exact this
  · cases h

theorem tableBytes_onlyRead (hs : s.NoCommands) (ia n : Nat) : OnlyRead s (s.tableBytes ia n).1 := by
  induction n generalizing s ia with
  | zero => exact OnlyRead.refl s
  | succ n ih =>
    have next {x : State} (hx : OnlyRead s x) : OnlyRead s (x.tableBytes (ia + 64) n).1 := hx.trans (ih (hx.noCommands hs) (ia + 64))
    unfold State.tableBytes
    split
    · rename_i h
      have h1 := next (iaReadLine_onlyRead hs h)
      split
      · rename_i he
        simpa [he] using h1
      · exact h1
    · split
      · have h1 := next (OnlyRead.refl s)
        split
        · rename_i he
          simpa [he] using h1
        · exact h1
      · exact OnlyRead.refl s

/-! ### One line -/

theorem blockedLine_eq_none {ia : Nat} (h : s.routeAll ia false ≠ .blocked) : s.blockedLine ia = none := by
  unfold State.blockedLine
  split
  · rename_i hb _
    exact absurd hb h
  · rfl

theorem follow_of_mem {ia pa : Nat} (h : s.route ia false = .to (.mem pa)) : s.follow false 4 ia = (ia, .to (.mem pa)) := by
  simp only [State.follow, h]

theorem follow_of_fault {ia l : Nat} {f : FaultKind} {e : DWord} (h : s.route ia false = .fault f l e) :
    s.follow false 4 ia = (ia, .fault f l e) := by
  simp only [State.follow, h]

/-- A line of module memory answers with its bytes, unless it does not verify (R278). -/
theorem tableBytes_of_mem (hs : s.NoCommands) {ia pa : Nat} (h : s.route ia false = .to (.mem pa)) :
    (s.tableBytes ia 1).2 = if s.lineBad ia pa = true then none else some (s.mem.read pa 64) := by
  have hf := follow_of_mem h
  have hb : s.blockedLine ia = none := blockedLine_eq_none (by simp [State.routeAll, hf])
  have hr : s.iaRead1 .save ia 64 = ((s.iaRead1 .save ia 64).1, .data (s.mem.read pa 64) (s.lineBad ia pa)) := by
    simp [State.iaRead1, State.iaReadHop, recall_none hs, hopsLeft, hf, State.readPA]
  unfold State.tableBytes State.iaReadLine
  rw [hr]
  cases s.lineBad ia pa with
  | true => simp [hb]
  | false => simp [State.tableBytes]

theorem tableBytes_of_fault (hs : s.NoCommands) {ia l : Nat} {f : FaultKind} {e : DWord} (h : s.route ia false = .fault f l e) :
    (s.tableBytes ia 1).2 = none := by
  have hf := follow_of_fault h
  have hb : s.blockedLine ia = none := blockedLine_eq_none (by simp [State.routeAll, hf])
  have hr : s.iaRead1 .save ia 64 = (s, .fault ia f l e) := by
    simp [State.iaRead1, State.iaReadHop, recall_none hs, hopsLeft, hf]
  simp [State.tableBytes, State.iaReadLine, hr, hb]

end

/-! ### The write -/

section
variable {s : State} {c k : Nat} {v : DWord}

/-- A core group's definition and table take new values. -/
def State.putCgdef (s : State) (c k : Nat) (d : DWord) (table : List Word) : State :=
  s.modCtx c fun x => { x with cgdef := setAt x.cgdef k d, cgtab := setAt x.cgtab k table }

/-- The fields that a write of CGDEF keeps, and the same with V cleared. -/
def cgFields (v : DWord) : DWord := v &&& 0x87FFFFFFFFFFFFFF
def cgVoid (v : DWord) : DWord := cgFields v &&& 0x7FFFFFFFFFFFFFFF

/-- The table's lines, read where the write points. -/
def State.cgLines (s : State) (v : DWord) : State × Option (List Byte) := s.tableBytes (v.toNat % 2 ^ 46 * 64) ((4 * cgCount v + 63) / 64)

theorem entriesOk_iff (l : List Word) : entriesOk l = true ↔ ∀ w ∈ l, w.toNat / 2 ^ 25 % 2 ^ 6 = 0 := by
  simp [entriesOk, bitsOf]

theorem execCgdefWrite_invalid (h : v.getLsbD 63 = false) : execCgdefWrite c k v s = .next (s.putCgdef c k (cgFields v) []) := by
  unfold execCgdefWrite
  rw [h]
  rfl

theorem execCgdefWrite_count (h : v.getLsbD 63 = true) (hn : cgCount v = 0 ∨ 4224 < cgCount v) :
    execCgdefWrite c k v s = .next (s.putCgdef c k (cgVoid v) []) := by
  simp only [execCgdefWrite, h, hn, Bool.not_true, Bool.false_eq_true, if_false, if_true]
  rfl

theorem execCgdefWrite_reads (h : v.getLsbD 63 = true) (hn : ¬ (cgCount v = 0 ∨ 4224 < cgCount v)) :
    ((s.cgLines v).2 = none → execCgdefWrite c k v s = .next ((s.cgLines v).1.putCgdef c k (cgVoid v) [])) ∧
    ∀ bs, (s.cgLines v).2 = some bs → execCgdefWrite c k v s = .next (
      if entriesOk (wordsOfBytes (cgCount v) bs) = true then (s.cgLines v).1.putCgdef c k (cgFields v) (wordsOfBytes (cgCount v) bs)
      else (s.cgLines v).1.putCgdef c k (cgVoid v) []) := by
  have hat : bitsOf v.toNat 0 46 = v.toNat % 2 ^ 46 := by simp [bitsOf]
  simp only [execCgdefWrite, h, hn, hat, Bool.not_true, Bool.false_eq_true, if_false, State.cgLines]
  cases s.tableBytes (v.toNat % 2 ^ 46 * 64) ((4 * cgCount v + 63) / 64) with
  | mk x o =>
    refine ⟨?_, ?_⟩
    · rintro rfl
      rfl
    · rintro bs rfl
      rfl

end

end Sys2Proof.Machine
end

section
/-! Boot, attestation, TDISP, contexts (R13, R423, R436, R446, R447). -/

namespace Sys2Proof.Machine

open Sys2Proof

/-- An image that the boot ROM accepts (R446). -/
def imageAccepted (i : FwImage) : Bool := i.signed && decide (Config.minSecurityVersion ≤ i.version)

/-- The images before the first that is not accepted, at most `k`. -/
def acceptedImages (k : Nat) (images : List FwImage) : List FwImage := (images.takeWhile imageAccepted).take k

theorem setAt_append {α : Type} (a : List α) (x v : α) (b : List α) : setAt (a ++ x :: b) a.length v = a ++ v :: b := by
  induction a with
  | nil => rfl
  | cons y a ih => exact congrArg (y :: ·) ih

theorem bootFrom_accepted {i : FwImage} (h : imageAccepted i = true) (k n : Nat) (rest : List FwImage) (m : List (Option (BitVec 256))) :
    bootFrom (k + 1) n (i :: rest) m = bootFrom k (n + 1) rest (setAt m n (some i.digest)) := if_pos h

theorem bootFrom_refused {i : FwImage} (h : ¬ imageAccepted i = true) (k n : Nat) (rest : List FwImage) (m : List (Option (BitVec 256))) :
    bootFrom (k + 1) n (i :: rest) m = (m, false) := if_neg h

/-- The slots left take the digests of the accepted images; the boot is good when every slot has its image. -/
theorem bootFrom_eq (k : Nat) (images : List FwImage) (done : List (Option (BitVec 256))) :
    bootFrom k done.length images (done ++ List.replicate k none) =
      (done ++ ((acceptedImages k images).map fun i => some i.digest) ++ List.replicate (k - (acceptedImages k images).length) none,
        decide ((acceptedImages k images).length = k)) := by
  induction k generalizing images done with
  | zero => simp [bootFrom, acceptedImages]
  | succ k ih =>
    cases images with
    | nil => simp [bootFrom, acceptedImages]
    | cons i rest =>
      have hset : setAt (done ++ List.replicate (k + 1) none) done.length (some i.digest) = done ++ [some i.digest] ++ List.replicate k none := by
        rw [List.replicate_succ, setAt_append, List.append_assoc, List.singleton_append]
      have hnext := ih rest (done ++ [some i.digest])
      rw [List.length_append, List.length_singleton] at hnext
      by_cases hi : imageAccepted i = true
      · rw [bootFrom_accepted hi, hset, hnext]
        simp [acceptedImages, hi]
      · rw [bootFrom_refused hi]
        simp [acceptedImages, hi]

/-- A module reset verifies the images in order; the reset state but for what it keeps (log 13, log 47). -/
theorem execModuleReset_eq (s : State) (images : List FwImage) :
    let good := acceptedImages 38 images
    execModuleReset images s = .next { s.afterReset with
      measured := (good.map fun i => some i.digest) ++ List.replicate (38 - good.length) none
      booted := true, enumerated := decide (good.length = 38), messages := s.messages ++ if good.length = 38 then [] else [.bootAuth] } := by
  have h := bootFrom_eq 38 images []
  rw [List.length_nil, List.nil_append, List.nil_append] at h
  unfold execModuleReset
  rw [h]
  by_cases hg : (acceptedImages 38 images).length = 38
  · simp only [hg, decide_true, if_true, List.append_nil]
    rfl
  · simp only [hg, decide_false, Bool.false_eq_true, if_false]
    rfl

theorem tdispMove_iff (old new : Tdisp) : tdispMove old new = true ↔
    new = .unlocked ∨ old = .unlocked ∧ new = .locked ∨ old = .locked ∧ new = .run := by
  cases old <;> cases new <;> simp [tdispMove]

theorem execTdispRequest_eq (fn : Nat) (st : Tdisp) (s : State) : execTdispRequest fn st s = .next (s.modFunc fn fun f => { f with tdisp :=
    if st = .unlocked ∨ f.tdisp = .unlocked ∧ st = .locked ∨ f.tdisp = .locked ∧ st = .run then st else f.tdisp }) := by
  unfold execTdispRequest
  congr 2
  funext f
  by_cases h : tdispMove f.tdisp st = true
  · rw [if_pos h, if_pos ((tdispMove_iff _ _).mp h)]
  · rw [if_neg h, if_neg fun hm => h ((tdispMove_iff _ _).mpr hm)]

/-- A context that the module does not have is created with its reset values (R423). -/
theorem execContextCreate_new {s : State} {c : Nat} (h : s.ctx? c = none) (form : CtxForm) :
    execContextCreate c form s = .next { s with ctxs := s.ctxs ++ [{ Ctx.reset c form.redundant with host := form.die }] } := by
  simp [execContextCreate, h]

theorem execContextCreate_old {s : State} {c : Nat} {k : Ctx} (h : s.ctx? c = some k) (form : CtxForm) :
    execContextCreate c form s = .next s := by
  simp [execContextCreate, h]

theorem execModidWrite_of_ctxs {s : State} (h : s.ctxs ≠ []) (v : BitVec 12) : execModidWrite v s = .next s := by
  simp [execModidWrite, h]

theorem execModidWrite_of_none {s : State} (h : s.ctxs = []) (v : BitVec 12) : execModidWrite v s = .next { s with modid := v.toNat } := by
  simp [execModidWrite, h]

end Sys2Proof.Machine
end

section
/-! The statement about stops, resets and services, clause by clause. -/

namespace Sys2Proof.Machine

open Sys2Proof

/-- Settles O59: clause by clause, from what each act leaves, the grids that it ends, and the bytes that the copies move. -/
theorem stopsResetsAndServices : Obligations.StopsResetsAndServices := by
  unfold Obligations.StopsResetsAndServices
  refine ⟨?late, ?stop, ?die, ?reset, ?services, ?destroy, ?checkpoint, ?cgdef⟩
  case late =>
    intro s n info h
    show execPartitionTimeout n info s = _
    simp only [execPartitionTimeout, partLate_eq_none h]
  case stop =>
    intro s d n since info i c x hi
    rw [exec_moduleCause hi]
    exact ⟨fun h => by rw [moduleStop_stopped h], fun h hs hm => ⟨_, rfl, moduleStop_report h hs hm c x since⟩⟩
  case die =>
    intro s d hs hd
    obtain ⟨hlost, hover⟩ := loseDie_ends hs d
    obtain ⟨hmem, hfuncs, hdie, hcores, hover'⟩ := resetDie_ends (s := s.modFunc d Func.failed) hs d
    refine ⟨⟨s.loseDie d, rfl, ⟨by rw [hlost.rest], fun gr hgr hg he => (hover gr hgr hg he).ended_and_gone⟩, loseDie_die s d⟩,
      ⟨_, execFunctionLevelReset_die hd s, ⟨hmem, fun gr hgr hg he => (hover' gr hgr hg he).ended_and_gone⟩, hdie, hcores, fun y hy hid => ?_⟩,
      ⟨_, rfl, rfl, rfl⟩⟩
    obtain ⟨x, rfl⟩ := modFunc_set (hfuncs ▸ hy) hid
    exact ⟨rfl, rfl⟩
  case reset => exact fun s images => execModuleReset_eq s images
  case services =>
    intro s nonce fn c die v red st
    refine ⟨rfl, ⟨_, rfl⟩, rfl, fun h => execModidWrite_of_none h v, fun h => execModidWrite_of_ctxs h v, fun k h => execContextCreate_old h _,
      fun h => ⟨_, execContextCreate_new h _, rfl, rfl, rfl, rfl, ?_, rfl, rfl, rfl, rfl, rfl, rfl, rfl⟩, execTdispRequest_eq fn st s⟩
    exact fun w hw => List.eq_of_mem_replicate hw
  case destroy =>
    intro s c k hk hq hw hs
    obtain ⟨s', he, hmem, hevq, hdying, hover⟩ := destroy_ends hk hq hw hs
    refine ⟨s'.dropEntries c, congrArg Host.Outcome.next he, hmem, hdying, fun n => ?_, fun g gr hg hr => ?_⟩
    · rw [dropEntries_evq, hevq]
    · exact (hover g (ending_of_grid? hg hr)).ended_and_gone
  case checkpoint =>
    intro s
    refine ⟨execCkptQuiesced_waits, execCkptQuiesced_quiet, fun h b => congrArg Host.Outcome.next (if_neg h), fun h => ⟨?_, fun hp ha w => ?_⟩,
      execCheckpointRestore_of_ctxs, fun h w hg => ?_⟩
    · have hr := ckptResume_resumed s 4
      refine ⟨s.ckptResume 4, ⟨congrArg Host.Outcome.next (if_pos h), hr.state, hr.lastst, hr.seq, hr.waiter, hr.messages, ?_⟩, hr.mem⟩
      rw [hr.compl]
      cases s.ckpt.waiter <;> rfl
    · have hc := copyParts w 0 (Nat.le_refl 4)
      have hr := ckptResume_resumed ((seqFrom 0 4).foldl (fun s d => s.copyPart 0 d) s) 0
      refine ⟨_, ⟨execCkptCopyDone_clean h hp ha, hr.state, hr.lastst, by rw [hr.seq, hc.ckpt], hr.waiter, by rw [hr.messages, hc.messages], ?_⟩,
        fun x hx => ?_, fun d o hd ho => ?_⟩
      · rw [hr.compl, hc.compl, hc.ckpt]
        cases s.ckpt.waiter <;> rfl
      · rw [hr.mem]
        exact hc.low x (Nat.lt_trans hx (by decide))
      · rw [hr.mem]
        exact hc.parts d o hd ho
    · have hr := restoreParts w (Nat.le_refl 4)
      exact ⟨_, execCheckpointRestore_good h hg, hr.threads, fun d o => hr.parts d o⟩
  case cgdef =>
    intro s c k v hs
    refine ⟨fun h => execCgdefWrite_invalid h, fun h hn => execCgdefWrite_count h hn, fun h h0 h1 => ?_, fun ia pa f l e =>
      ⟨tableBytes_of_mem hs, tableBytes_of_fault hs⟩⟩
    obtain ⟨hnone, hsome⟩ := execCgdefWrite_reads (s := s) (c := c) (k := k) h (not_or.mpr ⟨h0, Nat.not_lt.mpr h1⟩)
    refine ⟨(tableBytes_onlyRead hs _ _).rest, hnone, fun bs hb => ⟨fun hz => ?_, fun ⟨w, hw, hz⟩ => ?_⟩⟩
    · exact (hsome bs hb).trans (congrArg Host.Outcome.next (if_pos ((entriesOk_iff _).mpr hz)))
    · exact (hsome bs hb).trans (congrArg Host.Outcome.next (if_neg fun ho => hz ((entriesOk_iff _).mp ho w hw)))

end Sys2Proof.Machine
end

section
/-! A LAUNCH packet in a ring whose head and record slots lie on two sides of a 2 MiB boundary, the second side under a kept, stale translation (R90, R270). -/

namespace Sys2Proof.Machine

open Sys2Proof

/-! ### The counterexample's state -/

/-- A ring of 65,536 slots at IA 0. The head at the next index is the last slot below 2 MiB; the record's four slots lie above. -/
def straddlingQueue : UQueue :=
  { id := 0, base := 0, sizeLog := 16, inHost := false, wridx := 0x8004, rdidx := 0x7FFF, next := 0x7FFF, errcode := 0, state := .fetch, packets := [] }

def straddlingCtx : Ctx := { Ctx.reset 0 false with queues := [straddlingQueue] }

/-- The runtime has joined two 2 MiB pages into one of 4 MiB without XINVAL, which R270 allows: the table maps IA 0 to frame 0x400000, but die 1 still keeps the old page of IA 0x200000, at frame 0x800000. There a record lies that waits for event 0; at 0x600000, where the table now puts these slots, every byte is 0. -/
def straddlingRing : State :=
  { State.reset with
    xroot := 1, ctxs := [straddlingCtx], tlb := [(1, 0x200000, 21, 0x8FF801, 3, 0x3008)]
    mem := [
      -- the tables of levels 0 to 2, and the two copies of the leaf
      (0, 0x03), (1, 0x10), (0x1000, 0x03), (0x1001, 0x20), (0x2000, 0x03), (0x2001, 0x30),
      (0x3000, 0x01), (0x3001, 0xF8), (0x3002, 0x5F), (0x3008, 0x01), (0x3009, 0xF8), (0x300A, 0x5F),
      -- the head: VALID, KIND 1, SPAN 5; the old record's WAITMASK
      (0x5FFFC0, 0x11), (0x5FFFC2, 0x05), (0x800020, 0x01)] }

/-- The head slot: the header of Table 5.1, the bytes after it reserved. -/
def straddlingHead : List Byte := [0x11, 0, 0x05] ++ List.replicate 61 0

/-- The record as it reads before the command processor has read the head. -/
def staleRecord : List Byte := List.replicate 32 0 ++ [0x01] ++ List.replicate 223 0

/-! ### What the command processor reads -/

theorem straddlingRing_header : (straddlingRing.ringRead straddlingQueue 0x7FFF 0 8).2 = .ok (straddlingHead.take 8) := by decide +kernel

theorem straddlingRing_head : (straddlingRing.ringRead straddlingQueue 0x7FFF 0 64).2 = .ok straddlingHead := by decide +kernel

theorem straddlingRing_whole : straddlingRing.packetWhole straddlingQueue (natOfBytes (straddlingHead.take 8)) = true := by decide +kernel

theorem straddlingRing_record : (straddlingRing.packetRecord straddlingQueue 0x7FFF).2 = .ok staleRecord := by decide +kernel

/-- Die 1 is the home of the head too. To read the head it keeps the 4 MiB page, under which the record reads as zeros: it waits for no event, no kernel has its entry, and the launch is refused. -/
theorem launch_straddlingRing : ∃ s', exec (.launchPacket 0 0) straddlingRing = .next s' ∧ (s'.ctx? 0).map (·.waiting) = some [] := by
  have hkind : straddlingRing.nextKind 0 0 = some 1 := by decide +kernel
  exact ⟨straddlingRing.readPacket 0 0, congrArg Host.Outcome.next (if_pos hkind), by decide +kernel⟩

/-! ### The refutation -/

/-- Refutes O54, in the clause of a LAUNCH packet whose record waits: the statement takes the record as it reads before the head is read, but the command processor reads the head first, and the translation that the head's home then keeps can lead the record's slots elsewhere. -/
theorem not_queuesAndImages : ¬ Obligations.QueuesAndImages := by
  rintro ⟨-, -, hqueue, -⟩
  obtain ⟨-, -, hread, -⟩ := hqueue straddlingRing 0 0 straddlingCtx straddlingQueue 0 rfl rfl
  have hnoCommand : ∀ k ∈ straddlingRing.cores, k.slots = [] := fun _ hk => nomatch hk
  obtain ⟨-, -, hlaunch⟩ := hread rfl rfl (by decide) (by decide) rfl rfl (by decide) (.inr hnoCommand) _ _
    straddlingRing_header straddlingRing_head (by decide)
  obtain ⟨-, hwaits⟩ := hlaunch (by decide) (by decide) straddlingRing_whole (by decide) rfl _ straddlingRing_record
  have hwaitmask : (Record.ofBytes staleRecord).waitmask &&& ~~~straddlingCtx.events ≠ 0 := by decide +kernel
  obtain ⟨_, _, _, hexec, -, -, -, -, hwaiting, -⟩ := hwaits hwaitmask
  obtain ⟨_, hexec', hnone⟩ := launch_straddlingRing
  cases hexec.symm.trans hexec'
  cases hwaiting.symm.trans hnone

end Sys2Proof.Machine
end

section
/-! Decode and encode are inverse to each other, on every instruction and every word (R59, R60, R62, R67). -/

namespace Sys2Proof.Machine

open Sys2Proof Sys2Proof.Laws

/-- An instruction by its own law; an event has no encoding to read back. -/
theorem decode_encode (i : Instr) : RoundTrip.Statement i := by
  cases i with
  | nop => apply RoundTrip.nop
  | bra => apply RoundTrip.bra
  | brx => apply RoundTrip.brx
  | call => apply RoundTrip.call
  | callx => apply RoundTrip.callx
  | ret => apply RoundTrip.ret
  | jset => apply RoundTrip.jset
  | jwait => apply RoundTrip.jwait
  | jleave => apply RoundTrip.jleave
  | exit => apply RoundTrip.exit
  | brk => apply RoundTrip.brk
  | trap => apply RoundTrip.trap
  | hint => apply RoundTrip.hint
  | iadd => apply RoundTrip.iadd
  | isub => apply RoundTrip.isub
  | iaddc => apply RoundTrip.iaddc
  | isubb => apply RoundTrip.isubb
  | imul => apply RoundTrip.imul
  | imulh => apply RoundTrip.imulh
  | imad => apply RoundTrip.imad
  | imadw => apply RoundTrip.imadw
  | idiv => apply RoundTrip.idiv
  | irem => apply RoundTrip.irem
  | imin => apply RoundTrip.imin
  | imax => apply RoundTrip.imax
  | iabs => apply RoundTrip.iabs
  | and => apply RoundTrip.and
  | or => apply RoundTrip.or
  | xor => apply RoundTrip.xor
  | andn => apply RoundTrip.andn
  | not => apply RoundTrip.not
  | shl => apply RoundTrip.shl
  | shr => apply RoundTrip.shr
  | sar => apply RoundTrip.sar
  | rotl => apply RoundTrip.rotl
  | funnel => apply RoundTrip.funnel
  | clz => apply RoundTrip.clz
  | popc => apply RoundTrip.popc
  | brev => apply RoundTrip.brev
  | bfx => apply RoundTrip.bfx
  | bfi => apply RoundTrip.bfi
  | isetp => apply RoundTrip.isetp
  | sel => apply RoundTrip.sel
  | mov => apply RoundTrip.mov
  | lea => apply RoundTrip.lea
  | plop => apply RoundTrip.plop
  | p2x => apply RoundTrip.p2x
  | x2p => apply RoundTrip.x2p
  | pset => apply RoundTrip.pset
  | fadd => apply RoundTrip.fadd
  | fsub => apply RoundTrip.fsub
  | fmul => apply RoundTrip.fmul
  | ffma => apply RoundTrip.ffma
  | fmin => apply RoundTrip.fmin
  | fmax => apply RoundTrip.fmax
  | fsetp => apply RoundTrip.fsetp
  | fclass => apply RoundTrip.fclass
  | frcp => apply RoundTrip.frcp
  | frsq => apply RoundTrip.frsq
  | fsqrt => apply RoundTrip.fsqrt
  | fexp2 => apply RoundTrip.fexp2
  | flog2 => apply RoundTrip.flog2
  | fsin => apply RoundTrip.fsin
  | fcos => apply RoundTrip.fcos
  | fdiv => apply RoundTrip.fdiv
  | pkadd => apply RoundTrip.pkadd
  | pkmul => apply RoundTrip.pkmul
  | pkfma => apply RoundTrip.pkfma
  | pkmin => apply RoundTrip.pkmin
  | pkmax => apply RoundTrip.pkmax
  | pksetp => apply RoundTrip.pksetp
  | fscale => apply RoundTrip.fscale
  | frnd => apply RoundTrip.frnd
  | dot2 => apply RoundTrip.dot2
  | fmtrd => apply RoundTrip.fmtrd
  | f2i => apply RoundTrip.f2i
  | i2f => apply RoundTrip.i2f
  | f2f => apply RoundTrip.f2f
  | packn => apply RoundTrip.packn
  | unpackn => apply RoundTrip.unpackn
  | bscale => apply RoundTrip.bscale
  | qblk => apply RoundTrip.qblk
  | dqblk => apply RoundTrip.dqblk
  | i2i => apply RoundTrip.i2i
  | shfl => apply RoundTrip.shfl
  | vote => apply RoundTrip.vote
  | matchx => apply RoundTrip.matchx
  | redux => apply RoundTrip.redux
  | redix => apply RoundTrip.redix
  | scan => apply RoundTrip.scan
  | elect => apply RoundTrip.elect
  | lanemask => apply RoundTrip.lanemask
  | lds => apply RoundTrip.lds
  | sts => apply RoundTrip.sts
  | atoms => apply RoundTrip.atoms
  | ldc => apply RoundTrip.ldc
  | st => apply RoundTrip.st
  | atomc => apply RoundTrip.atomc
  | red => apply RoundTrip.red
  | casc => apply RoundTrip.casc
  | lr => apply RoundTrip.lr
  | sc => apply RoundTrip.sc
  | fence => apply RoundTrip.fence
  | pref => apply RoundTrip.pref
  | subs => apply RoundTrip.subs
  | unsub => apply RoundTrip.unsub
  | stm => apply RoundTrip.stm
  | cpy => apply RoundTrip.cpy
  | gath => apply RoundTrip.gath
  | scat => apply RoundTrip.scat
  | binit => apply RoundTrip.binit
  | barr => apply RoundTrip.barr
  | bwait => apply RoundTrip.bwait
  | qpush => apply RoundTrip.qpush
  | qpop => apply RoundTrip.qpop
  | qpopNb => apply RoundTrip.qpopNb
  | qstat => apply RoundTrip.qstat
  | fill => apply RoundTrip.fill
  | cpyr => apply RoundTrip.cpyr
  | mxs => apply RoundTrip.mxs
  | coll => apply RoundTrip.coll
  | mmaq => apply RoundTrip.mmaq
  | mmaz => apply RoundTrip.mmaz
  | talloc => apply RoundTrip.talloc
  | tfree => apply RoundTrip.tfree
  | tld => apply RoundTrip.tld
  | tst => apply RoundTrip.tst
  | tzero => apply RoundTrip.tzero
  | tspill => apply RoundTrip.tspill
  | tfill => apply RoundTrip.tfill
  | frags => apply RoundTrip.frags
  | tsig => apply RoundTrip.tsig
  | ldg => apply RoundTrip.ldg
  | cbr => apply RoundTrip.cbr
  | csync => apply RoundTrip.csync
  | mbrd => apply RoundTrip.mbrd
  | gbar => apply RoundTrip.gbar
  | seg => apply RoundTrip.seg
  | yield => apply RoundTrip.yield
  | launch => apply RoundTrip.launch
  | spawn => apply RoundTrip.spawn
  | fwd => apply RoundTrip.fwd
  | mbox => apply RoundTrip.mbox
  | evset => apply RoundTrip.evset
  | evclr => apply RoundTrip.evclr
  | evwait => apply RoundTrip.evwait
  | evqpop => apply RoundTrip.evqpop
  | evqpopNb => apply RoundTrip.evqpopNb
  | rbegin => apply RoundTrip.rbegin
  | rkeep => apply RoundTrip.rkeep
  | rend => apply RoundTrip.rend
  | rabort => apply RoundTrip.rabort
  | errlogPop => apply RoundTrip.errlogPop
  | errlogStat => apply RoundTrip.errlogStat
  | errlogInj => apply RoundTrip.errlogInj
  | srd => apply RoundTrip.srd
  | swr => apply RoundTrip.swr
  | tret => apply RoundTrip.tret
  | esc => apply RoundTrip.esc
  | winset => apply RoundTrip.winset
  | winsetClr => apply RoundTrip.winsetClr
  | halt => apply RoundTrip.halt
  | ckpt => apply RoundTrip.ckpt
  | _ => exact RoundTrip.of_event rfl

theorem encode_isSome (i : Instr) : (encode i).isSome = i.guard?.isSome := by
  have h : i.toFields.isSome = i.guard?.isSome := by cases i <;> rfl
  rw [encode, Option.isSome_map, h]

theorem encode_decode {w : Code} {i : Instr} (h : decode w = .ok i) : encode i = some w := by
  rw [encode, (toFields_of_decode h).1, Option.map_some, Fields.toBits_ofBits]

/-- Settles O3: the laws of the instructions one way, the fields of a decoded word the other. -/
theorem decodeAndEncodeAgree : Obligations.DecodeAndEncodeAgree :=
  ⟨decode_encode, encode_isSome, fun _ _ h => ⟨(toFields_of_decode h).2, encode_decode h⟩⟩

/-- Settles O2: the words are closed, and the decoder evaluates on each. -/
theorem specWordsDecode : Obligations.SpecWordsDecode := by
  unfold Obligations.SpecWordsDecode
  decide

end Sys2Proof.Machine
end

section
/-! A step that issues (R44, R47, R60): the picking apart, the instruction that the fetched slot decodes to, and what the step adds around it. -/

namespace Sys2Proof.Machine

open Sys2Proof Sys2Proof.Safety

/-! ### A stable order -/

section
variable {α : Type} {f : α → Nat}

theorem mem_putBefore {lt : α → α → Bool} {x z : α} {l : List α} : z ∈ putBefore lt x l ↔ z = x ∨ z ∈ l := by
  induction l with
  | nil => simp [putBefore]
  | cons y l ih =>
    unfold putBefore
    split
    · simp
    · rw [List.mem_cons, ih, List.mem_cons]
      tauto

theorem putBefore_pairwise {x : α} {l : List α} (h : l.Pairwise fun a b => f a ≤ f b) :
    (putBefore (fun a b => decide (f a < f b)) x l).Pairwise fun a b => f a ≤ f b := by
  induction l with
  | nil => simp [putBefore]
  | cons y l ih =>
    obtain ⟨hy, hl⟩ := List.pairwise_cons.mp h
    unfold putBefore
    split
    case isTrue hx =>
      have hx : f x < f y := of_decide_eq_true hx
      refine List.pairwise_cons.mpr ⟨fun z hz => ?_, h⟩
      rcases List.mem_cons.mp hz with rfl | hz
      · exact hx.le
      · exact hx.le.trans (hy z hz)
    case isFalse hx =>
      have hx : ¬ f x < f y := fun h => hx (decide_eq_true h)
      refine List.pairwise_cons.mpr ⟨fun z hz => ?_, ih hl⟩
      rcases mem_putBefore.mp hz with rfl | hz
      · exact not_lt.mp hx
      · exact hy z hz

/-- An element goes behind those of its own tick: all that it goes before have a younger one. -/
theorem putBefore_filter {x : α} {l : List α} (h : l.Pairwise fun a b => f a ≤ f b) (n : Nat) :
    (putBefore (fun a b => decide (f a < f b)) x l).filter (f · == n) = l.filter (f · == n) ++ [x].filter (f · == n) := by
  induction l with
  | nil => rfl
  | cons y l ih =>
    obtain ⟨hy, hl⟩ := List.pairwise_cons.mp h
    unfold putBefore
    split
    case isTrue hx =>
      have hx : f x < f y := of_decide_eq_true hx
      by_cases hn : f x = n
      · have hlate : (y :: l).filter (f · == n) = [] := by
          refine List.filter_eq_nil_iff.mpr fun z hz => ?_
          have : f y ≤ f z := by
            rcases List.mem_cons.mp hz with rfl | hz
            · exact le_rfl
            · exact hy z hz
          simp only [beq_iff_eq]
          omega
        rw [List.filter_cons, hlate]
        simp [hn]
      · simp [List.filter_cons, hn]
    case isFalse hx =>
      rw [List.filter_cons, List.filter_cons (x := y), ih hl]
      split <;> rfl

theorem foldl_putBefore {l acc : List α} (h : acc.Pairwise fun a b => f a ≤ f b) :
    (l.foldl (fun acc x => putBefore (fun a b => decide (f a < f b)) x acc) acc).Pairwise (fun a b => f a ≤ f b) ∧
    ∀ n, (l.foldl (fun acc x => putBefore (fun a b => decide (f a < f b)) x acc) acc).filter (f · == n) =
      acc.filter (f · == n) ++ l.filter (f · == n) := by
  induction l generalizing acc with
  | nil => exact ⟨h, fun n => (List.append_nil _).symm⟩
  | cons x l ih =>
    obtain ⟨hp, hf⟩ := ih (putBefore_pairwise (x := x) h)
    refine ⟨hp, fun n => (hf n).trans ?_⟩
    rw [putBefore_filter h, List.append_assoc, ← List.filter_append, List.singleton_append]

theorem inOrder_pairwise (f : α → Nat) (l : List α) : (inOrder (fun a b => decide (f a < f b)) l).Pairwise fun a b => f a ≤ f b :=
  (foldl_putBefore List.Pairwise.nil).1

theorem inOrder_filter (f : α → Nat) (l : List α) (n : Nat) :
    (inOrder (fun a b => decide (f a < f b)) l).filter (f · == n) = l.filter (f · == n) :=
  (foldl_putBefore List.Pairwise.nil).2 n

end

/-! ### What a step adds around its instruction -/

theorem laneOrder_lone (s : State) (i : Instr) (t : Tid) : s.laneOrder i [t] = [t] := by
  unfold State.laneOrder
  split <;> rfl

theorem markBegun_rest (s : State) (t : Tid) : s.markBegun t = { s with teams := (s.markBegun t).teams, grids := (s.markBegun t).grids } := by
  unfold State.markBegun
  split
  · split <;> rfl
  · rfl

theorem markBegun_begun {s : State} {t : Tid} {tm : Team} (ht : s.teamOf t = some tm) (hb : tm.begun = true) : s.markBegun t = s := by
  rw [State.markBegun, ht]
  exact if_pos hb

theorem Thread.recount_id (th : Thread) (pc : DWord) (n : Nat) : (th.recount pc n).id = th.id := by
  unfold Thread.recount
  split <;> rfl

theorem recount_cons (s s' : State) (t : Tid) (l : List Tid) : s.recount s' (t :: l) = s.recount (s.recount s' [t]) l := rfl

theorem recount_quiet {s : State} {t : Tid} {th : Thread} (ht : s.thread? t = some th) (hq : th.inRunAhead = false) (s' : State) :
    s.recount s' [t] = s' := by
  simp [State.recount, ht, hq]

/-- One thread's recount is an update of that thread, which is in run-ahead, or nothing. -/
theorem recount_lone (s s' : State) (t : Tid) : s.recount s' [t] = s' ∨ ∃ th, s.thread? t = some th ∧ th.inRunAhead = true ∧
    s.recount s' [t] = s'.modThread t fun x => x.recount th.pc th.aheadCount := by
  cases ht : s.thread? t with
  | none => exact .inl (by simp [State.recount, ht])
  | some th =>
    cases hq : th.inRunAhead with
    | false => exact .inl (recount_quiet ht hq s')
    | true => exact .inr ⟨th, rfl, hq, by simp [State.recount, ht, hq]⟩

theorem recount_rest (s s' : State) (l : List Tid) : s.recount s' l = { s' with threads := (s.recount s' l).threads } := by
  induction l generalizing s' with
  | nil => rfl
  | cons t l ih =>
    have h1 : s.recount s' [t] = { s' with threads := (s.recount s' [t]).threads } := by
      obtain h | ⟨th, -, -, h⟩ := recount_lone s s' t
      · rw [h]
      · rw [h]
        rfl
    rw [recount_cons]
    exact (ih _).trans (by rw [h1])

theorem recount_thread {s s' : State} {l : List Tid} {u : Tid} {x : Thread} (hu : s.thread? u = some x) (hq : x.inRunAhead = false) :
    (s.recount s' l).thread? u = s'.thread? u := by
  induction l generalizing s' with
  | nil => rfl
  | cons t l ih =>
    rw [recount_cons, ih]
    obtain h | ⟨th, ht, ha, h⟩ := recount_lone s s' t
    · rw [h]
    · have hne : u ≠ t := by
        rintro rfl
        cases hu.symm.trans ht
        simp [hq] at ha
      rw [h]
      exact thread?_modThread_other (fun y => Thread.recount_id y _ _) hne

/-! ### The step -/

theorem step_of_plan {s s1 : State} {p : Plan} (hw : s.work = []) (hi : s.inbox = []) (hp : s.pickPlan = (s1, some p)) :
    step s = passResult (finishResult (s1.runPlan p)) := by
  simp only [step, State.next, hw, hi, State.runStep, hp]

theorem issueThreads_next {s s' : State} {t : Tid} {ts : List Tid} {th : Thread} {i : Instr} (ht : s.thread? t = some th)
    (hd : decode th.code = .ok i)
    (he : exec i { (t :: ts).foldl State.markBegun s with issue := ((t :: ts).foldl State.markBegun s).laneOrder i (t :: ts) } = .next s') :
    s.issueThreads (t :: ts) = .next (((t :: ts).foldl State.markBegun s).recount s' (t :: ts)) := by
  simp only [State.issueThreads, List.head?_cons, Option.bind_some, ht, hd, he]

/-- The issue of one thread outside run-ahead whose team has begun. -/
theorem issueThreads_lone {s : State} {t : Tid} {th : Thread} {i : Instr} (ht : s.thread? t = some th) (hd : decode th.code = .ok i)
    (hb : s.markBegun t = s) (hq : th.inRunAhead = false) : s.issueThreads [t] = exec i { s with issue := [t] } := by
  simp only [State.issueThreads, List.head?_cons, Option.bind_some, ht, hd, List.foldl_cons, List.foldl_nil, hb, laneOrder_lone,
    recount_quiet ht hq]
  cases exec i { s with issue := [t] } <;> rfl

theorem issueThreads_error {s : State} {t : Tid} {ts : List Tid} {th : Thread} {e : DecodeError} (ht : s.thread? t = some th)
    (hd : decode th.code = .error e) : s.issueThreads (t :: ts) =
      .next ((t :: ts).foldl (fun s t => s.raise t .illegalOpcode 0) ((t :: ts).foldl State.markBegun s)) := by
  simp only [State.issueThreads, List.head?_cons, Option.bind_some, ht, hd]

/-! ### A lone entry, a lone plan -/

theorem bestEntry_lone {s : State} {k : Core} {e : EscEntry} {r : Nat} {t : Tid} (hk : k.entries = [e]) (hr : s.entryRank e = some r)
    (hi : s.entryIssue e = [t]) : s.bestEntry k = some [t] := by
  simp [State.bestEntry, hk, hr, hi, sortLanes, byLane]

theorem pickPlan_lone {s : State} {p : Plan} (h : s.plans = [p]) : s.pickPlan = (s.choice.2, some p) := by
  simp [State.pickPlan, h, Nat.mod_one]

/-! ### The machine about to issue one word (log 1) -/

/-- The entry of the one lane, and the core that holds it. -/
def wordEntry : EscEntry := { ctx := 0, grid := 0, pc := wordPc, ts := [wordTid] }
def wordCore : Core := { Core.reset 0 with entries := [wordEntry] }

section
variable (s : State) (w : Nat)

theorem runningWord_cores : (s.runningWord w).cores = [wordCore] := rfl
theorem runningWord_threads : (s.runningWord w).threads = [wordThread s.cycle w] := rfl
theorem runningWord_thread? : (s.runningWord w).thread? wordTid = some (wordThread s.cycle w) := rfl

theorem wordThread_code : (wordThread s.cycle (w % 2 ^ 96)).code = BitVec.ofNat 96 w := by
  have hslot : pcSlot wordPc = 0 := by decide
  have hcode : (wordThread s.cycle (w % 2 ^ 96)).code = lineSlot (BitVec.ofNat 512 (w % 2 ^ 96 % 2 ^ 96)) (pcSlot wordPc) := rfl
  rw [hcode, hslot, lineSlot]
  apply BitVec.eq_of_toNat_eq
  simp only [BitVec.extractLsb'_toNat, BitVec.toNat_ofNat, Nat.mul_zero, Nat.shiftRight_zero]
  omega

/-- The thread has just started: no timer and no watchdog is due. -/
theorem runningWord_mayIssue : (s.runningWord w).mayIssue (wordThread s.cycle w) = true := by
  have hcount : (wordThread s.cycle w).wdCount (s.runningWord w).cycle = 0 := (Nat.zero_add _).trans (Nat.sub_self s.cycle)
  have hlimit : (s.runningWord w).wdLimit (wordThread s.cycle w).id = 2 ^ 20 := rfl
  have hdue : (s.runningWord w).wdDue (wordThread s.cycle w) = false := by
    simp [State.wdDue, hcount, hlimit]
  rw [State.mayIssue, State.overdue, hdue]
  rfl

theorem ageOf_now (s : State) : s.ageOf (s.cycle % 2 ^ 32) = 0 := by
  unfold State.ageOf
  omega

/-- An entry of age 0 may issue, for FILLHOLD is 0. -/
theorem runningWord_rank : ((s.runningWord w).entryRank wordEntry).isSome = true := by
  have hsince : (s.runningWord w).ageOf (wordThread s.cycle w).since = 0 := ageOf_now (s.runningWord w)
  have hage : (s.runningWord w).entryAge wordEntry = 0 := by
    simp only [State.entryAge, wordEntry, List.foldl_cons, List.foldl_nil, runningWord_thread?, hsince, Nat.max_self]
  have hlimit : (s.runningWord w).ageLimit wordEntry.ctx = 0x800 := rfl
  have hfill : (s.runningWord w).fillHold wordEntry.ctx = 0 := rfl
  have hlone : wordEntry.ts.length = 1 := rfl
  simp [State.entryRank, hage, hlimit, hfill, hlone]

/-- Of the lone lane's quarter every other lane has exited. -/
theorem runningWord_exitedQuarter (qs : List Nat) : (s.runningWord w).exitedQuarter (0 :: qs) [wordTid] = some 0 := by
  have hlive : ((s.runningWord w).groupOf 0 0 0 0).live = 1 := rfl
  simp only [State.exitedQuarter, wordTid, groupKey, hlive]
  exact List.find?_cons_of_pos (by decide)

/-- So a quarter instruction of the lone lane is not held (R345). -/
theorem runningWord_unheld (i : Instr) : (s.runningWord w).unheld i [wordTid] = [wordTid] := by
  have hsets : (s.runningWord w).setsOf true [wordTid] = [[wordTid]] := rfl
  have hsplit : [wordTid].filter Tid.isScalar = [] ∧ ([wordTid].filter fun t => !Tid.isScalar t) = [wordTid] := ⟨rfl, rfl⟩
  unfold State.unheld
  cases quarterInstr i with
  | none => rfl
  | some bq =>
    have hquarters : ((seqFrom 0 4).filter fun q => !(inQuarter q [wordTid]).isEmpty || bq == some q) =
        0 :: (seqFrom 1 3).filter fun q => !(inQuarter q [wordTid]).isEmpty || bq == some q := rfl
    simp only [hsets, hsplit, List.flatMap_cons, List.flatMap_nil, State.quarterHold, hquarters, runningWord_exitedQuarter, List.append_nil,
      List.nil_append]

variable {s w} {i : Instr}

theorem runningWord_entryIssue (hd : decode (wordThread s.cycle w).code = .ok i) : (s.runningWord w).entryIssue wordEntry = [wordTid] := by
  have hgoing : (s.runningWord w).going wordEntry = [wordThread s.cycle w] := rfl
  have hid : (wordThread s.cycle w).id = wordTid := rfl
  simp [State.entryIssue, hgoing, runningWord_mayIssue, hd, hid, runningWord_unheld]

theorem runningWord_issues (hd : decode (wordThread s.cycle w).code = .ok i) : (s.runningWord w).issues = [.issue 0 [wordTid]] := by
  obtain ⟨r, hr⟩ := Option.isSome_iff_exists.mp (runningWord_rank s w)
  have hbest : (s.runningWord w).bestEntry wordCore = some [wordTid] := bestEntry_lone rfl hr (runningWord_entryIssue hd)
  have hcore : wordCore.id = 0 := rfl
  have hscalar : (wordThread s.cycle w).isScalar = false := rfl
  simp [State.issues, runningWord_cores, runningWord_threads, hbest, hscalar, hcore]

theorem runningWord_pickPlan (hd : decode (wordThread s.cycle w).code = .ok i) :
    (s.runningWord w).pickPlan = ((s.runningWord w).choice.2, some (.issue 0 [wordTid])) := by
  have hstop : (s.runningWord w).stop.state = 0 := rfl
  have hckpt : (s.runningWord w).ckpt.state = 0 := rfl
  have hturn : (s.runningWord w).turn = false := rfl
  refine pickPlan_lone ?_
  simp [State.plans, hstop, hckpt, hturn, runningWord_issues hd]

theorem choice_rest (s : State) : s.choice.2 = { s with choices := s.choice.2.choices } := by
  unfold State.choice
  split <;> rfl

/-- The issue of the one lane is exec of its instruction, and nothing beside: its team has begun, and it is in no run-ahead. -/
theorem runningWord_issueThreads (hd : decode (wordThread s.cycle w).code = .ok i) :
    (s.runningWord w).choice.2.issueThreads [wordTid] = exec i { (s.runningWord w).choice.2 with issue := [wordTid] } := by
  have ht : (s.runningWord w).choice.2.thread? wordTid = some (wordThread s.cycle w) := by
    rw [choice_rest]
    rfl
  have hteam : (s.runningWord w).choice.2.teamOf wordTid = some wordTeam := by
    rw [choice_rest]
    rfl
  exact issueThreads_lone ht hd (markBegun_begun hteam rfl) rfl

theorem step_withFetchWord (hd : decode (BitVec.ofNat 96 w) = .ok i) : step (s.withFetchWord 96 w) =
    passResult (finishResult (exec i { (s.withFetchWord 96 w).choice.2 with issue := [wordTid] })) := by
  rw [← wordThread_code s w] at hd
  exact (step_of_plan rfl rfl (runningWord_pickPlan hd)).trans (congrArg (fun r => passResult (finishResult r)) (runningWord_issueThreads hd))

end

/-- Settles O1: the step runs the picked issue; before, in and after it stands what its three additions do; the built machine picks the word's own issue. -/
theorem aStepRunsTheDecodedInstruction : Obligations.AStepRunsTheDecodedInstruction := by
  refine ⟨fun s s1 core t ts th hw hi hp ht => ⟨fun i s3 hd he => ?_, fun e hd => ?_⟩,
    fun s t => ⟨markBegun_rest s t, fun tm => markBegun_begun⟩,
    fun s i l => ⟨fun n => ?_, fun ho => ?_, fun ho => ?_⟩,
    fun s s' l => ⟨recount_rest s s' l, fun u x => recount_thread⟩,
    fun s w i => step_withFetchWord⟩
  · rw [step_of_plan hw hi hp, State.runPlan, issueThreads_next ht hd he]
    rfl
  · rw [step_of_plan hw hi hp, State.runPlan, issueThreads_error ht hd]
    rfl
  · unfold State.laneOrder
    split
    · exact inOrder_filter s.ptsOf l n
    · rfl
  · rw [State.laneOrder, if_pos ho]
    exact inOrder_pairwise s.ptsOf l
  · rw [State.laneOrder, ho]
    rfl

end Sys2Proof.Machine
end

section
/-! A completion for a saved record whose place in the save area an engine command still owes: the save engine's write recalls the command (R289), whose arrival at its barrier sends a completion of its own (R133, R328, R337, R399). -/

namespace Sys2Proof.Machine

open Sys2Proof

/-! ### The counterexample's state -/

/-- A lane of a team that a pre-emption has saved; it waits for a load. Its record lies at IA 0x8000, 64 bytes into the block at 0x7FC0. -/
def preemptedThread : Thread :=
  { Thread.initial wordTid 0 8 [] false wordPc 0 with loc := .saved, wait := .memory, pend := 1, saveAt := 0x8000 }

/-- A lane of team 1 that waits for tag 0 of the barrier object at the start of its team's run, offset 512. -/
def fillingThread : Thread :=
  { Thread.initial (.thr 0 0 1 0 0) 0 8 [] false wordPc 0 with wait := .barrier 512 0, pend := 1 }

/-- Its FILL of the line at IA 0x8040, with BAR 0: the line holds the second half of the saved record. -/
def fillOfSaveArea : Command :=
  { slot := 0, ctx := 0, grid := 0, team := some 1, who := fillingThread.id, tslot := 1, q := none
    d := { kind := .fill, w := [0, 0, 0x8040, 0, 64, 0, 0, 0], srcIa := none, dstIa := some (0x8040, none), tag := none, regs := [] }
    done := [], discarded := false, st := .running, coll := none, result := none, dropped := false, buffer := [], scr := 512, arrived := 0
    seq := 0, pts := 0 }

/-- The answer of the load. -/
def loadAnswer : Completion := { t := wordTid, xs := [], p := none, cause := none, set := none }

/-- The FILL is under way when the load's answer is due. The tables map IA 0 to the 2 MiB frame at 0x400000; the barrier's TARGET is 64 bytes and one record is PARKED on it. -/
def filledSaveArea : State :=
  { State.reset with
    xroot := 1, ctxs := [wordCtx], grids := [{ wordGrid with nextTeam := 2 }]
    teams := [{ wordTeam with saved := some (0x7FC0, 0) }, { wordTeam with num := 1, tslot := 1, scr := 512 }]
    threads := [preemptedThread, fillingThread]
    cores := [{ Core.reset 0 with slots := [fillOfSaveArea], objs := [(512, none)], scr := [(512, 64), (524, 1)] }]
    mem := [
      -- the tables of levels 0 to 2, and the leaf
      (0, 0x03), (1, 0x10), (0x1000, 0x03), (0x1001, 0x20), (0x2000, 0x03), (0x2001, 0x30), (0x3000, 0x01), (0x3001, 0xF8), (0x3002, 0x4F)]
    compl := [loadAnswer] }

/-! ### What the completion does -/

/-- The FILL writes its line first and its 64 bytes release the barrier: when the load's answer is gone, the waiting lane's completion is outstanding. -/
theorem recordCompletion_filledSaveArea : ∃ s', exec (.recordCompletion 0) filledSaveArea = .next s' ∧
    s'.compl = [{ t := fillingThread.id, xs := [], p := none, cause := none, set := some 0 }] :=
  ⟨_, rfl, by decide +kernel⟩

/-! ### The refutation -/

/-- Refutes O56, in the clause of a record's completion: the statement leaves no completion outstanding but those that were, without a premise about engine commands. For a saved record the completion is also written to the save area, and that write first lets every engine command that owes the line write it, which can release a barrier. -/
theorem not_eventsOfThreads : ¬ Obligations.EventsOfThreads := by
  rintro ⟨-, -, hcompletion, -⟩
  obtain ⟨_, hexec, hcompl, -⟩ := hcompletion filledSaveArea 0 loadAnswer preemptedThread rfl rfl rfl
  obtain ⟨_, hexec', hreleased⟩ := recordCompletion_filledSaveArea
  cases hexec.symm.trans hexec'
  cases hcompl.symm.trans hreleased

end Sys2Proof.Machine
end

section
/-! A task packet whose sender's record stands in the save area, into which an engine command writes (R119, R289, R399). -/

namespace Sys2Proof.Machine

open Sys2Proof

/-- A packet of one team of the kernel at `wordPc`, with no completion signal and no arguments. -/
def wordPacket : List Byte := bytesOfNat 8 wordPc.toNat ++ List.replicate 56 0

/-- The request of the saved lane, which has sent the packet to die 0. -/
def wordPacketSent : OutReq := { t := wordTid, core := 0, dest := .group, op := .write (.task wordPacket 0), seq := 1, late := false }

/-- As in `filledSaveArea` a FILL that is to write the saved lane's record is under way; the lane waits for the status of its packet. -/
def filledSender : State :=
  { filledSaveArea with
    ctxs := [{ wordCtx with images := [{ base := 0, kernels := [wordKernel] }] }]
    threads := [{ preemptedThread with wait := .task }, fillingThread], compl := [], out := [wordPacketSent], nextSeq := 2 }

/-- The status is written into the saved record. The FILL writes its line first and its 64 bytes release the barrier: a completion is outstanding that was not. -/
theorem taskPacketArrival_filledSender : ∃ s', exec (.taskPacketArrival 1) filledSender = .next s' ∧
    s'.compl = [{ t := fillingThread.id, xs := [], p := none, cause := none, set := some 2 }] :=
  ⟨_, rfl, by decide +kernel⟩

/-- Refutes O55, in the clause of a task packet: the statement leaves the completions as they are, without a premise about engine commands. The status of a sender whose record is saved is also written to the save area, and that write first lets every engine command that owes the line write it, which can release a barrier. -/
theorem not_gangsAndPlacement : ¬ Obligations.GangsAndPlacement := by
  rintro ⟨-, -, -, htask, -⟩
  obtain ⟨_, _, hexec, -, -, -, -, -, -, -, hcompl, -⟩ :=
    (htask filledSender 1).2 wordPacketSent wordPacket 0 { preemptedThread with wait := .task } _ wordKernel
      (by decide +kernel) rfl rfl rfl (by decide +kernel) (by decide)
  obtain ⟨_, hexec', hreleased⟩ := taskPacketArrival_filledSender
  cases hexec.symm.trans hexec'
  cases hcompl.symm.trans hreleased

end Sys2Proof.Machine
end

section
/-! Segment ends that wait: what is left of the contexts, the bindings and the thread (R54, R129, R130, R406). -/

namespace Sys2Proof.Machine

open Sys2Proof Sys2Proof.Safety

/-! ### Flag operations that land (R54) -/

/-- Flag operations have landed: nothing but threads and teams differs, and the same threads are there. -/
structure Landed (s s' : State) : Prop where
  rest : s' = { s with threads := s'.threads, teams := s'.teams }
  ids : s'.threads.map (·.id) = s.threads.map (·.id)

theorem Landed.refl (s : State) : Landed s s := ⟨rfl, rfl⟩

theorem Landed.trans {s s' s'' : State} (h1 : Landed s s') (h2 : Landed s' s'') : Landed s s'' where
  rest := h2.rest.trans (by rw [h1.rest])
  ids := h2.ids.trans h1.ids

theorem Landed.foldl {α : Type} {f : State → α → State} (hf : ∀ s a, Landed s (f s a)) (l : List α) (s : State) : Landed s (l.foldl f s) := by
  induction l generalizing s with
  | nil => exact .refl s
  | cons a l ih => exact (hf s a).trans (ih (f s a))

theorem setFpx_landed (s : State) (t : Tid) (f : Fpx) : Landed s (s.setFpx t f) := by
  cases t with
  | thr c g k _ _ => exact ⟨rfl, rfl⟩
  | scalar n => exact ⟨rfl, map_id_modThread (by intro; rfl) s _⟩

theorem landOp_landed (s : State) (t : Tid) (k : Nat) : Landed s (s.landOp t k) := by
  have one (s : State) (u : Tid) (j : Nat) (f : Fpx) : Landed s ((s.modThread u fun th => th.landOne j).setFpx u f) :=
    Landed.trans ⟨rfl, map_id_modThread (fun th => landOne_id th j) s u⟩ (setFpx_landed _ u f)
  unfold State.landOp
  split
  · exact .refl s
  · split
    · exact .refl s
    · split
      · exact one s t k _
      · refine Landed.foldl (fun s y => ?_) _ s
        split
        · exact one s y.id _ _
        · exact .refl s

theorem landAll_landed (s : State) (t : Tid) : Landed s (s.landAll t) := by
  unfold State.landAll
  split
  · exact .refl s
  · exact Landed.foldl (fun s _ => landOp_landed s t 0) _ s

theorem Landed.thread_exists {s s' : State} {t : Tid} {th : Thread} (h : Landed s s') (ht : s.thread? t = some th) :
    ∃ x, s'.thread? t = some x := by
  rw [← Option.ne_none_iff_exists']
  intro hn
  rw [thread?_eq_none_iff, h.ids, ← thread?_eq_none_iff, ht] at hn
  cases hn

/-! ### The record, or the wait in place -/

/-- A segment of `t` has ended in a wait for `dest`: contexts and bindings are as they were, and the thread waits from this cycle on. -/
structure WaitsFor (t : Tid) (dest : List Nat) (s s' : State) : Prop where
  ctxs : s'.ctxs = s.ctxs
  bind : ∀ n, (s'.core n).bind = (s.core n).bind
  thread : ∃ x, s'.thread? t = some x ∧ x.dest = dest
  stamp : ∀ x ∈ s'.threads, x.id = t → x.stamp = s.cycle

theorem mem_modThread {s : State} {t : Tid} {f : Thread → Thread} {x : Thread}
    (hx : x ∈ (s.modThread t f).threads) (hid : x.id = t) : ∃ y ∈ s.threads, y.id = t ∧ x = f y := by
  obtain ⟨y, hy, rfl⟩ := List.mem_map.mp hx
  by_cases h : y.id = t
  · exact ⟨y, hy, h, if_pos h⟩
  · rw [if_neg h] at hid
    exact absurd hid h

theorem modThread_congr {s : State} {t : Tid} {f g : Thread → Thread} (h : ∀ x ∈ s.threads, x.id = t → f x = g x) :
    s.modThread t f = s.modThread t g := by
  unfold State.modThread
  congr 1
  refine List.map_congr_left fun x hx => ?_
  by_cases hid : x.id = t <;> simp [hid, h x hx]

theorem core_modCore_bind (s : State) (c : Nat) {f : Core → Core} (hid : ∀ k, (f k).id = k.id) (hb : ∀ k, (f k).bind = k.bind) (n : Nat) :
    ((s.modCore c f).core n).bind = (s.core n).bind := by
  by_cases h : n = c
  · rw [h, core_modCore_self s c f hid, hb]
  · rw [core_modCore_other s c n f hid h]

@[simp] theorem leaveEntry_ctxs (s : State) (core : Nat) (t : Tid) : (s.leaveEntry core t).ctxs = s.ctxs := by
  unfold State.leaveEntry
  split <;> simp

@[simp] theorem leaveEntry_threads (s : State) (core : Nat) (t : Tid) : (s.leaveEntry core t).threads = s.threads := by
  unfold State.leaveEntry
  split <;> simp

@[simp] theorem leaveEntry_bind (s : State) (core : Nat) (t : Tid) (n : Nat) : ((s.leaveEntry core t).core n).bind = (s.core n).bind := by
  unfold State.leaveEntry
  split
  · rfl
  · exact core_modCore_bind s core (by intro; rfl) (by intro; rfl) n

/-- One update of the thread that sets its destination and its stamp. -/
theorem modThread_waitsFor {s s1 : State} {t : Tid} {x : Thread} {f : Thread → Thread} {dest : List Nat} (hl : Landed s s1)
    (hx : s1.thread? t = some x) (hid : ∀ y, (f y).id = y.id) (hd : ∀ y, (f y).dest = dest) (hs : ∀ y, (f y).stamp = s.cycle) :
    WaitsFor t dest s (s1.modThread t f) where
  ctxs := by rw [hl.rest]; rfl
  bind n := by rw [hl.rest]; rfl
  thread := ⟨f x, thread?_modThread_self hx ((hid x).trans (thread?_id hx)), hd x⟩
  stamp y hy hty := by
    obtain ⟨z, -, -, rfl⟩ := mem_modThread hy hty
    exact hs z

theorem WaitsFor.modThread {s s' : State} {t : Tid} {dest : List Nat} {f : Thread → Thread} (h : WaitsFor t dest s s')
    (hid : ∀ y, (f y).id = y.id) (hd : ∀ y, (f y).dest = y.dest) (hs : ∀ y, (f y).stamp = y.stamp) : WaitsFor t dest s (s'.modThread t f) where
  ctxs := h.ctxs
  bind := h.bind
  thread := by
    obtain ⟨x, hx, hxd⟩ := h.thread
    exact ⟨f x, thread?_modThread_self hx ((hid x).trans (thread?_id hx)), (hd x).trans hxd⟩
  stamp y hy hty := by
    obtain ⟨z, hz, hzt, rfl⟩ := mem_modThread hy hty
    exact (hs z).trans (h.stamp z hz hzt)

theorem WaitsFor.leaveEntry {s s' : State} {t : Tid} {dest : List Nat} (h : WaitsFor t dest s s') (core : Nat) (u : Tid) :
    WaitsFor t dest s (s'.leaveEntry core u) where
  ctxs := (leaveEntry_ctxs s' core u).trans h.ctxs
  bind n := (leaveEntry_bind s' core u n).trans (h.bind n)
  thread := by
    unfold State.thread?
    rw [leaveEntry_threads]
    exact h.thread
  stamp := by
    rw [leaveEntry_threads]
    exact h.stamp

theorem park_waitsFor {s : State} {t : Tid} {th : Thread} (ht : s.thread? t = some th) (resume : DWord) (live : List Nat) (wait : Wait)
    {pend : Nat} (hp : pend ≠ 0) (dest : List Nat) (destP : Option Nat) : WaitsFor t dest s (s.park t resume live wait pend dest destP) := by
  have hl := landAll_landed s t
  have hc : (s.landAll t).cycle = s.cycle := by rw [hl.rest]
  obtain ⟨x, hx⟩ := hl.thread_exists ht
  unfold State.park
  simp only [hx, hp, if_false]
  split
  · exact modThread_waitsFor hl hx (by intro; rfl) (by intro; rfl) (by intro; exact hc)
  · refine ((modThread_waitsFor hl hx ?_ ?_ ?_).modThread ?_ ?_ ?_).leaveEntry _ _
    case refine_3 => exact fun _ => hc
    all_goals exact fun _ => rfl

theorem ctxOf_congr {s s' : State} (h : ∀ n, (s'.core n).bind = (s.core n).bind) (t : Tid) : s'.ctxOf t = s.ctxOf t := by
  cases t with
  | thr => rfl
  | scalar k => simp only [State.ctxOf, h]

theorem WaitsFor.ctx? {s s' : State} {t : Tid} {dest : List Nat} (h : WaitsFor t dest s s') : s'.ctx? (s'.ctxOf t) = s.ctx? (s.ctxOf t) := by
  rw [ctxOf_congr h.bind]
  unfold State.ctx?
  rw [h.ctxs]

end Sys2Proof.Machine
end

section
/-! LAUNCH, SPAWN and MBOX outside regions, and a submission (R96, R97, R99, R118, R119). -/

namespace Sys2Proof.Machine

open Sys2Proof Sys2Proof.Safety

/-- Outside regions no window change is held: the thread sees its context's windows. -/
theorem viewCtx_quiet {s : State} {t : Tid} {th : Thread} {c : Ctx} (ht : s.thread? t = some th) (q : Quiet th)
    (hc : s.ctx? (s.ctxOf t) = some c) : s.viewCtx th = some c := by
  simp [State.viewCtx, Thread.held, q.regions, thread?_id ht, hc]

/-! ### Waiting for the status -/

/-- The segment has ended, and the record waits for the status of its submission in `d` (R99, R119). -/
def State.awaitStatus (s : State) (t : Tid) (th : Thread) (d : XReg) : State :=
  s.park t (successor th.pc) (unionRegs (s.standing th) [d.toNat]) .task 1 [d.toNat] none

section Status
variable {s : State} {t : Tid} {th : Thread} {d : XReg}

theorem segEnd_status (ht : s.thread? t = some th) (he : MayEnd s t th (unionRegs (s.standing th) [d.toNat])) :
    s.segEnd t (succPc th.pc) [d.toNat] .task 1 [d.toNat] none = (s.awaitStatus t th d, true) := by
  rw [segEnd_ok ht he, succ_successor]
  rfl

theorem awaitStatus_waitsFor (ht : s.thread? t = some th) : WaitsFor t [d.toNat] s (s.awaitStatus t th d) :=
  park_waitsFor ht _ _ _ Nat.one_ne_zero _ _

theorem pushRemote_eq (s : State) (t : Tid) (m ia : Nat) (op : HeldOp) : ∃ wait, s.pushRemote t m ia op =
    (s.pushOut t (.peer m ia) op).modThread t fun x => { x with remote := some (x.stamp + wait, m) } := ⟨_, rfl⟩

/-- Every record of the thread has the same deadline: the request that it waits for left in this cycle (R406). -/
theorem pushRemote_awaitStatus (ht : s.thread? t = some th) (m ia : Nat) (op : HeldOp) : ∃ r,
    (s.awaitStatus t th d).pushRemote t m ia op =
      ((s.awaitStatus t th d).pushOut t (.peer m ia) op).modThread t fun x => { x with remote := r } := by
  obtain ⟨wait, hw⟩ := pushRemote_eq (s.awaitStatus t th d) t m ia op
  refine ⟨some (s.cycle + wait, m), hw.trans (modThread_congr fun x hx hid => ?_)⟩
  rw [(awaitStatus_waitsFor ht).stamp x hx hid]

theorem finishStatus_awaitStatus (ht : s.thread? t = some th) (st : Nat) :
    (s.awaitStatus t th d).finishStatus t st = (s.awaitStatus t th d).pushCompl t [(d.toNat, BitVec.ofNat 32 st)] none none := by
  obtain ⟨x, hx, hd⟩ := (awaitStatus_waitsFor ht (d := d)).thread
  simp [State.finishStatus, hx, hd]

end Status

/-! ### LAUNCH (R99) -/

section Launch
variable {s s1 s2 : State} {t : Tid} {th : Thread} {c : Ctx} {d : XReg} {va : DWord} {ia k : Nat} {peer : Option Nat} {loc : Bool}

theorem launch_noRoom (h : s.requestRoom (s.coreOf t) = false) : s.launch t c d va ia peer loc = s := by
  simp [State.launch, h]

theorem launch_within {bs : List Byte} (hk : s.choice = (k, s1)) (hr : s.requestRoom (s.coreOf t) = true) (hh : s.recordHere ia peer = true)
    (hf : s1.fetchRecord t c va = (s2, .bytes bs)) (hit : k % 2 = 0) (hb : s2.submitsBehind t = false) (hl : s2.launchRoom c.id = true) :
    s.launch t c d va ia peer loc = s2.launchHere t d va ia peer bs loc := by
  simp [State.launch, hk, hr, hh, hf, hit, hb, hl]

theorem launch_away (hk : s.choice = (k, s1)) (hr : s.requestRoom (s.coreOf t) = true)
    (ha : k % 2 = 1 ∨ s.recordHere ia peer = false ∨ ∀ bs, (s1.fetchRecord t c va).2 ≠ .bytes bs) :
    s.launch t c d va ia peer loc = s1.launchAway t d va ia peer loc := by
  cases hh : s.recordHere ia peer
  case false => simp [State.launch, hk, hr, hh]
  case true =>
    rw [hh] at ha
    rcases hf : s1.fetchRecord t c va with ⟨s2, r⟩
    cases r
    case bytes bs =>
      rcases ha with hodd | hno | hnot
      · simp [State.launch, hk, hr, hh, hf, hodd]
      · cases hno
      · exact absurd (congrArg Prod.snd hf) (hnot bs)
    case miss | fault | wait | bad => simp [State.launch, hk, hr, hh, hf]

theorem launchHere_quiet {x : Thread} (hx : s.thread? t = some x) (hq : x.regions = []) (bs : List Byte) :
    s.launchHere t d va ia peer bs loc = (s.submit x va bs loc).1.writeD t d (BitVec.ofNat 32 (s.submit x va bs loc).2) := by
  simp [State.launchHere, hx, Thread.inRegion, hq]

theorem launchAway_near (ht : s.thread? t = some th) (he : MayEnd s t th (unionRegs (s.standing th) [d.toNat]))
    (hn : ∀ n x, (s.awaitStatus t th d).recordDest ia peer ≠ .peer n x) : s.launchAway t d va ia peer loc =
      (s.awaitStatus t th d).pushOut t ((s.awaitStatus t th d).recordDest ia peer) (.write (.launch va [] loc)) := by
  simp only [State.launchAway, ht, segEnd_status ht he]

theorem launchAway_peer {n x : Nat} (ht : s.thread? t = some th) (he : MayEnd s t th (unionRegs (s.standing th) [d.toNat]))
    (hp : (s.awaitStatus t th d).recordDest ia peer = .peer n x) :
    s.launchAway t d va ia peer loc = (s.awaitStatus t th d).pushRemote t n x (.write (.launch va [] loc)) := by
  simp only [State.launchAway, ht, segEnd_status ht he, hp]

end Launch

section Issue
variable {s : State} {t : Tid} {th : Thread} {c : Ctx} {g : Guard} {loc : Bool} {d a b : XReg} {m : MemOp}

theorem execLaunch_misaligned (h : Lone s (.launch g loc d m) t th) (q : Quiet th) (hc : s.ctx? (s.ctxOf t) = some c)
    (ha : (effAddr th.regs m).toNat % 256 ≠ 0) : exec (.launch g loc d m) s = .next (s.raise t .misaligned (effAddr th.regs m)) :=
  (run_lone h _).trans (by simp [h.thread, viewCtx_quiet h.thread q hc, ha])

theorem execLaunch_windowMiss (h : Lone s (.launch g loc d m) t th) (q : Quiet th) (hc : s.ctx? (s.ctxOf t) = some c)
    (ha : (effAddr th.regs m).toNat % 256 = 0) (hw : translateVA c (effAddr th.regs m) 256 .read = none) :
    exec (.launch g loc d m) s = .next (s.raise t .windowMiss (effAddr th.regs m)) :=
  (run_lone h _).trans (by simp [h.thread, viewCtx_quiet h.thread q hc, ha, hw])

theorem execLaunch_mapped {ia : Nat} {peer : Option Nat} (h : Lone s (.launch g loc d m) t th) (q : Quiet th)
    (hc : s.ctx? (s.ctxOf t) = some c) (ha : (effAddr th.regs m).toNat % 256 = 0)
    (hw : translateVA c (effAddr th.regs m) 256 .read = some (ia, peer)) (hlog : s.logging t = false) :
    exec (.launch g loc d m) s = .next (s.launch t c d (effAddr th.regs m) ia peer loc) :=
  (run_lone h _).trans (by
    simp [h.thread, viewCtx_quiet h.thread q hc, ha, hw, State.heldByLog, hlog, compared_quiet h.thread q, quiet_shadow q])

/-! ### SPAWN and MBOX (R118, R119) -/

theorem sendAway_eq (ht : s.thread? t = some th) (he : MayEnd s t th (unionRegs (s.standing th) [d.toNat])) (pkt : List Byte) (die : Nat) :
    s.sendAway t d pkt die = (s.awaitStatus t th d).pushOut t .group (.write (.task pkt die)) := by
  simp only [State.sendAway, ht, segEnd_status ht he]

theorem execSpawn_quiet (h : Lone s (.spawn g d a) t th) (q : Quiet th) (hlog : s.logging t = false) :
    let die := s.dieOf th.core
    let sent := s.sendTask th.core th (packetOf th.regs a) die
    exec (.spawn g d a) s = .next (if s.submitsBehind t = false ∧ s.taskRoom die = true then
        sent.2.2.foldl (fun s x => s.postEvent x.1 x.2) (sent.1.writeD t d (BitVec.ofNat 32 sent.2.1))
      else s.sendAway t d (packetOf th.regs a) die) :=
  (run_lone h _).trans (by
    simp [h.thread, State.heldByLog, hlog, compared_quiet h.thread q, quiet_shadow q, quiet_region q])

theorem execMbox_outside (h : Lone s (.mbox g d a b) t th) (q : Quiet th) (hlog : s.logging t = false)
    (he : MayEnd s t th (unionRegs (s.standing th) [d.toNat])) (hd : s.domainDie t ((th.regs.x32 b).toNat % 32) = false) :
    exec (.mbox g d a b) s = .next ((s.awaitStatus t th d).pushCompl t [(d.toNat, 4)] none none) :=
  (run_lone h _).trans (by
    simp [h.thread, State.heldByLog, hlog, compared_quiet h.thread q, quiet_shadow q, quiet_region q, hd, State.mboxRefused,
      segEnd_status h.thread he, finishStatus_awaitStatus h.thread])

theorem execMbox_inside (h : Lone s (.mbox g d a b) t th) (q : Quiet th) (hlog : s.logging t = false)
    (he : MayEnd s t th (unionRegs (s.standing th) [d.toNat])) (hd : s.domainDie t ((th.regs.x32 b).toNat % 32) = true) :
    exec (.mbox g d a b) s =
      .next ((s.awaitStatus t th d).pushOut t .group (.write (.task (packetOf th.regs a) ((th.regs.x32 b).toNat % 32)))) :=
  (run_lone h _).trans (by
    simp [h.thread, State.heldByLog, hlog, compared_quiet h.thread q, quiet_shadow q, quiet_region q, hd, sendAway_eq h.thread he])

theorem domainDie_iff (hc : s.ctx? (s.ctxOf t) = some c) (die : Nat) :
    s.domainDie t die = true ↔ die < 24 ∧ c.placedom.getLsbD die = true := by
  rw [State.domainDie, hc, Bool.and_eq_true, decide_eq_true_iff]
  rfl

end Issue

/-! ### A submission (R96, R97) -/

theorem submit_waits {s : State} {t : Tid} {th : Thread} {c : Ctx} (hid : th.id = t) (hc : s.ctx? (s.ctxOf t) = some c) (va : DWord)
    {bs : List Byte} (loc : Bool) (hw : (Record.ofBytes bs).waitmask &&& ~~~c.events ≠ 0) :
    s.submit th va bs loc = (s.modCtx c.id fun x => { x with waiting := x.waiting ++
      [{ who := .thread th.core (s.tslot th) (Tid.group t) (Tid.lane t) va, va, body := bs, waitmask := (Record.ofBytes bs).waitmask
         loc := if loc = true then some (s.dieOf th.core) else none, noDies := c.noDies }] }, 1) := by
  subst hid
  simp only [State.submit, hc, hw, if_false]
  rfl

theorem submit_eligible {s : State} {t : Tid} {th : Thread} {c : Ctx} (hid : th.id = t) (hc : s.ctx? (s.ctxOf t) = some c) (va : DWord)
    {bs : List Byte} (loc : Bool) (hw : (Record.ofBytes bs).waitmask &&& ~~~c.events = 0) : (s.submit th va bs loc).2 = 0 := by
  subst hid
  simp only [State.submit, hc, hw, if_true]

/-- Settles O49: the checks of LAUNCH in their order, what each of the three does in its place and away from it, and what a submission answers. -/
theorem launchSpawnMbox : Obligations.LaunchSpawnMbox := by
  intro s t th g loc d a b m c va pkt die live parked asks hq hc
  refine ⟨fun h => ⟨execLaunch_misaligned h hq hc, execLaunch_windowMiss h hq hc, fun ia peer k s1 ha hw hlog hk => ?launch⟩,
    fun h hlog => ⟨fun hb hr => ?spawned, fun hno he => ?spawnAway⟩,
    fun h hlog he => ⟨fun hout => ?mboxRefused, fun hin => ?mboxAway⟩,
    fun bs hid _ => ⟨fun hw => ?waits, submit_eligible (bs := bs) (hid : th.id = t) hc va loc⟩⟩
  case launch =>
    have hexec := execLaunch_mapped h hq hc ha hw hlog
    have hs1 : s1 = { s with choices := s1.choices } := by
      have := choice_rest s
      rwa [hk] at this
    have hcore := coreOf_thread h.thread
    refine ⟨fun hr => ?noRoom, fun bs x hr hhere hf hhit hb hl hx hxq => ?within, fun hr haway he => ?away⟩
    case noRoom => rw [hexec, launch_noRoom (by rw [hcore, hr])]
    case within => rw [hexec, launch_within hk (by rw [hcore, hr]) hhere (Prod.ext rfl hf) hhit hb hl, launchHere_quiet hx hxq]
    case away =>
      rw [hexec, launch_away hk (by rw [hcore, hr]) haway]
      have ht1 : s1.thread? t = some th := by
        rw [hs1]
        exact h.thread
      have hstand : s1.standing th = s.standing th := by
        rw [hs1]
        rfl
      have he1 : MayEnd s1 t th (unionRegs (s1.standing th) [d.toNat]) := by
        rw [hstand]
        exact he
      have hp : parked s1 = s1.awaitStatus t th d := rfl
      refine ⟨fun hn => by rw [launchAway_near ht1 he1 hn]; rfl, fun n x hpeer => ?peer⟩
      case peer =>
        obtain ⟨r, hr⟩ := pushRemote_awaitStatus (d := d) ht1 n x (.write (.launch va [] loc))
        exact ⟨r, by rw [launchAway_peer ht1 he1 hpeer, hr]; rfl⟩
  case spawned => rw [execSpawn_quiet h hq hlog, if_pos ⟨hb, hr⟩]; rfl
  case spawnAway =>
    have hneg : ¬ (s.submitsBehind t = false ∧ s.taskRoom (s.dieOf th.core) = true) := by
      rintro ⟨hb, hr⟩
      rcases hno with h1 | h2
      · exact Bool.false_ne_true (h1.symm.trans hr)
      · exact Bool.false_ne_true (hb.symm.trans h2)
    rw [execSpawn_quiet h hq hlog, if_neg hneg, sendAway_eq h.thread he]
    rfl
  case mboxRefused =>
    exact execMbox_outside h hq hlog he (Bool.eq_false_iff.mpr fun hd => hout ((domainDie_iff hc _).mp hd))
  case mboxAway => exact execMbox_inside h hq hlog he ((domainDie_iff hc _).mpr hin)
  case waits =>
    rw [submit_waits hid hc va loc hw]
    exact ⟨rfl, rfl⟩

end Sys2Proof.Machine
end

section
/-! EVSET, EVCLR, EVWAIT, EVQPOP and EVQPOP.NB outside regions, the event queue, and the wake-ups of an event that is set (R95, R102 to R104, R123, R125). -/

namespace Sys2Proof.Machine

open Sys2Proof Sys2Proof.Safety

/-! ### The set that a form names (Table 5.8) -/

theorem getLsbD_oneBit (e : Nat) {j : Nat} (hj : j < 256) : (BitVec.ofNat 256 (2 ^ e)).getLsbD j = decide (j = e) := by
  rw [BitVec.getLsbD_ofNat, decide_eq_true hj, Bool.true_and, Nat.testBit_two_pow, decide_eq_decide]
  exact eq_comm

theorem getLsbD_mask_imm (n : BitVec 8) (r : Regs) {j : Nat} (hj : j < 256) :
    (EvForm.mask (.imm n) r).getLsbD j = decide (j = n.toNat) := getLsbD_oneBit _ hj

theorem getLsbD_mask_reg (a : XReg) (r : Regs) {j : Nat} (hj : j < 256) :
    (EvForm.mask (.reg a) r).getLsbD j = decide (j = (r.x32 a).toNat % 256) := getLsbD_oneBit _ hj

theorem getLsbD_mask_mask (a : XReg) (k : BitVec 3) (r : Regs) {j : Nat} (hj : j < 256) :
    (EvForm.mask (.mask a k) r).getLsbD j = (decide (j / 32 = k.toNat) && (r.x32 a).getLsbD (j % 32)) := by
  have hbit : (EvForm.mask (.mask a k) r).getLsbD j = (decide (32 * k.toNat ≤ j) && (r.x32 a).getLsbD (j - 32 * k.toNat)) := by
    unfold EvForm.mask
    rw [BitVec.getLsbD_ofNat, decide_eq_true hj, Bool.true_and, Nat.testBit_mul_two_pow]
    rfl
  rw [hbit]
  by_cases hk : j / 32 = k.toNat
  · rw [show j - 32 * k.toNat = j % 32 by omega]
    simp [hk, show 32 * k.toNat ≤ j by omega]
  · by_cases hle : 32 * k.toNat ≤ j
    · simp [hk, BitVec.getLsbD_of_ge (r.x32 a) (j - 32 * k.toNat) (by omega)]
    · simp [hk, hle]

/-! ### The event queue (R123) -/

theorem popEv_append {q : List EvEntry} {id : Nat} (hq : ∀ x ∈ q, x.ctx ≠ id) {e : EvEntry} (he : e.ctx = id) (rest : List EvEntry) :
    popEv (q ++ e :: rest) id = (some e, q ++ rest) := by
  induction q with
  | nil => simp [popEv, he]
  | cons x q ih =>
    have hx := hq x List.mem_cons_self
    simp [popEv, hx, ih fun y hy => hq y (List.mem_cons_of_mem _ hy)]

theorem popEv_none {q : List EvEntry} {id : Nat} (hq : ∀ x ∈ q, x.ctx ≠ id) : (popEv q id).1 = none := by
  induction q with
  | nil => rfl
  | cons x q ih =>
    have hx := hq x List.mem_cons_self
    simp [popEv, hx, ih fun y hy => hq y (List.mem_cons_of_mem _ hy)]

theorem takeEvent_some {s : State} {core id : Nat} {e : EvEntry} {q : List EvEntry} (h : popEv (s.core core).evq id = (some e, q)) :
    s.takeEvent core id = some (s.modCore core fun k => { k with evq := q }, e) := by
  simp [State.takeEvent, h]

theorem takeEvent_none {s : State} {core id : Nat} (h : ∀ e ∈ (s.core core).evq, e.ctx ≠ id) : s.takeEvent core id = none := by
  have hp := popEv_none h
  unfold State.takeEvent
  split
  · next heq => simp [heq] at hp
  · rfl

/-! ### What the thread that issues does -/

/-- The registers from `d` are written and the thread goes on. -/
def Thread.wroteFrom (d : XReg) (ws : List Word) (th : Thread) : Thread :=
  { th.advance with regs := th.regs.setXs d.toNat ws, shadow := th.shadow.map fun r => r.setXs d.toNat ws }

theorem writeRegs_lane {s : State} {t : Tid} {th : Thread} (ht : s.thread? t = some th) (d : XReg) (ws : List Word) :
    LanesDo [t] (Thread.wroteFrom d ws) s (s.writeRegs t d ws none) := by
  unfold State.writeRegs
  rw [compute_eq ht]
  refine ⟨rfl, fun u hu x hx => ?_, fun u hu => thread?_modThread_other (fun _ => rfl) (by simpa using hu)⟩
  rw [List.mem_singleton] at hu
  subst hu
  cases ht.symm.trans hx
  exact thread?_modThread_self ht (show th.id = u from thread?_id ht)

section Issue
variable {s : State} {t : Tid} {th : Thread} {g : Guard} {f : EvForm} {d : XReg} {c : Ctx}

theorem prepare_evset (hlog : s.logging t = false) (m : EvMask) : s.prepare t (.evset m) = (s, true) := by
  simp [State.prepare, hlog]

theorem prepare_evclr (hlog : s.logging t = false) (m : EvMask) : s.prepare t (.evclr m) = (s, true) := by
  simp [State.prepare, hlog]

theorem eventAct_quiet (ht : s.thread? t = some th) (q : Quiet th) {e : EvMask → Eff}
    (hp : ∀ m, s.prepare t (e m) = (s, true)) : s.eventAct t f e =
      if EvForm.mask f th.regs = 0 then s.advance t else (s.perform t (e (EvForm.mask f th.regs))).advance t := by
  simp [State.eventAct, ht, compared_quiet ht q, quiet_shadow q, emitThen_done ht q (hp _)]

theorem execEvset_quiet (h : Lone s (.evset g f) t th) (q : Quiet th) (hlog : s.logging t = false) : exec (.evset g f) s =
    .next (if EvForm.mask f th.regs = 0 then s.advance t else (s.evSet (s.ctxOf t) (EvForm.mask f th.regs)).advance t) :=
  (run_lone h _).trans (by rw [eventAct_quiet h.thread q (prepare_evset hlog)]; rfl)

theorem execEvclr_quiet (h : Lone s (.evclr g f) t th) (q : Quiet th) (hlog : s.logging t = false) : exec (.evclr g f) s =
    .next (if EvForm.mask f th.regs = 0 then s.advance t else (s.evClr (s.ctxOf t) (EvForm.mask f th.regs)).advance t) :=
  (run_lone h _).trans (by rw [eventAct_quiet h.thread q (prepare_evclr hlog)]; rfl)

/-- The segment has ended, and the record waits for the set `m` (R104). -/
def State.awaitSet (s : State) (t : Tid) (th : Thread) (m : EvMask) : State :=
  s.park t (successor th.pc) (unionRegs (s.standing th) []) (.event m) 1 [] none

theorem evTest_awaitSet (ht : s.thread? t = some th) (hc : s.ctx? (s.ctxOf t) = some c) (m : EvMask) :
    (s.awaitSet t th m).evTest ((s.awaitSet t th m).ctxOf t) m = (m &&& ~~~c.events == 0) := by
  have hw : WaitsFor t [] s (s.awaitSet t th m) := park_waitsFor ht _ _ _ Nat.one_ne_zero _ _
  unfold State.evTest
  rw [hw.ctx?, hc]

theorem execEvwait_quiet (h : Lone s (.evwait g f) t th) (q : Quiet th) (hc : s.ctx? (s.ctxOf t) = some c) (hlog : s.logging t = false)
    (he : MayEnd s t th (unionRegs (s.standing th) [])) :
    let p := s.awaitSet t th (EvForm.mask f th.regs)
    exec (.evwait g f) s = .next (if EvForm.mask f th.regs &&& ~~~c.events = 0 then (p.wake t).pushCompl t [] none none else p) := by
  refine (run_lone h _).trans ?_
  simp only [h.thread, State.heldByLog, hlog, compared_quiet h.thread q, quiet_shadow q, segEnd_ok h.thread he, succ_successor, beq_self_eq_true,
    Bool.false_eq_true, if_false]
  have htest := evTest_awaitSet h.thread hc (EvForm.mask f th.regs)
  unfold State.awaitSet at htest
  simp only [htest, beq_iff_eq]
  rfl

theorem popEvent_entry (ht : s.thread? t = some th) (q : Quiet th) (hlog : s.logging t = false) {e : EvEntry} {rest : List EvEntry}
    (hp : popEv (s.core th.core).evq (s.ctxOf t) = (some e, rest)) (nb : Bool) :
    s.popEvent t d nb = (s.modCore th.core fun k => { k with evq := rest }).writeRegs t d e.words none := by
  simp [State.popEvent, ht, State.heldByLog, hlog, quiet_region q, takeEvent_some hp]

theorem popEvent_waits (ht : s.thread? t = some th) (q : Quiet th) (hlog : s.logging t = false)
    (hn : ∀ e ∈ (s.core th.core).evq, e.ctx ≠ s.ctxOf t) (he : MayEnd s t th (unionRegs (s.standing th) (seqFrom d.toNat 4))) :
    s.popEvent t d false =
      s.park t (successor th.pc) (unionRegs (s.standing th) (seqFrom d.toNat 4)) .evq 1 (seqFrom d.toNat 4) none := by
  simp [State.popEvent, ht, State.heldByLog, hlog, quiet_region q, takeEvent_none hn, segEnd_ok ht he, succ_successor]

theorem popEvent_zeros (ht : s.thread? t = some th) (q : Quiet th) (hlog : s.logging t = false)
    (hn : ∀ e ∈ (s.core th.core).evq, e.ctx ≠ s.ctxOf t) : s.popEvent t d true = s.writeRegs t d [0, 0, 0, 0] none := by
  simp [State.popEvent, ht, State.heldByLog, hlog, quiet_region q, takeEvent_none hn]

end Issue

/-! ### Wake-ups (R95, R104) -/

theorem mem_byLane {t u : Tid} {l : List Tid} : u ∈ byLane t l ↔ u = t ∨ u ∈ l := by
  induction l with
  | nil => simp [byLane]
  | cons x l ih =>
    unfold byLane
    split <;> simp [ih, or_left_comm]

theorem mem_sortLanes {u : Tid} (l : List Tid) : u ∈ sortLanes l ↔ u ∈ l := by
  have go (acc : List Tid) : u ∈ l.foldl (fun l t => byLane t l) acc ↔ u ∈ acc ∨ u ∈ l := by
    induction l generalizing acc with
    | nil => simp
    | cons x l ih =>
      rw [List.foldl_cons, ih, mem_byLane]
      simp [or_assoc, or_left_comm]
  unfold sortLanes
  simpa using go []

theorem thread?_wake_self {s : State} {t : Tid} {x : Thread} (hx : s.thread? t = some x) :
    (s.wake t).thread? t = some { x with woken := true } :=
  thread?_modThread_self hx (show x.id = t from thread?_id hx)

/-- Every thread of `ts` is woken, with its completion on its way. -/
def State.wakeAll (s : State) (ts : List Tid) : State := ts.foldl (fun s t => (s.wake t).pushCompl t [] none none) s

/-- Each of `ts` is woken, and a completion is on its way to it; no other thread changes. -/
structure Woke (ts : List Tid) (s s' : State) : Prop where
  woken : ∀ u ∈ ts, ∀ x, s.thread? u = some x → s'.thread? u = some { x with woken := true }
  told : ∀ u ∈ ts, ∃ k ∈ s'.compl, k.t = u
  kept : ∀ k ∈ s.compl, k ∈ s'.compl
  others : ∀ u, u ∉ ts → s'.thread? u = s.thread? u

theorem wakeAll_ctxs (ts : List Tid) (s : State) : (s.wakeAll ts).ctxs = s.ctxs := by
  induction ts generalizing s with
  | nil => rfl
  | cons t ts ih => exact ih ((s.wake t).pushCompl t [] none none)

theorem wakeAll_woke (ts : List Tid) (s : State) : Woke ts s (s.wakeAll ts) := by
  induction ts generalizing s with
  | nil => exact ⟨by simp, by simp, fun _ h => h, fun _ _ => rfl⟩
  | cons t ts ih =>
    have hrest : Woke ts ((s.wake t).pushCompl t [] none none) (s.wakeAll (t :: ts)) := ih _
    have hself {x : Thread} (hx : s.thread? t = some x) : ((s.wake t).pushCompl t [] none none).thread? t = some { x with woken := true } :=
      thread?_wake_self hx
    have hother {u : Tid} (hu : u ≠ t) : ((s.wake t).pushCompl t [] none none).thread? u = s.thread? u :=
      thread?_modThread_other (fun _ => rfl) hu
    refine ⟨fun u hu x hx => ?woken, fun u hu => ?told, fun k hk => hrest.kept k (List.mem_append_left _ hk), fun u hu => ?others⟩
    case woken =>
      by_cases hin : u ∈ ts
      · by_cases hut : u = t
        · subst hut
          have htwice := hrest.woken u hin _ (hself hx)
          exact htwice
        · exact hrest.woken u hin x ((hother hut).trans hx)
      · obtain rfl : u = t := (List.mem_cons.mp hu).resolve_right hin
        exact (hrest.others u hin).trans (hself hx)
    case told =>
      rcases List.mem_cons.mp hu with rfl | hin
      · exact ⟨_, hrest.kept _ (List.mem_append_right _ List.mem_cons_self), rfl⟩
      · exact hrest.told u hin
    case others =>
      rw [List.mem_cons, not_or] at hu
      exact (hrest.others u hu.2).trans (hother hu.1)

/-- A record that waits in an EVWAIT for bits that the context's vector now holds (R104). -/
def State.releasedBy (s : State) (c : Ctx) (x : Thread) : Prop :=
  s.ctxOf x.id = c.id ∧ x.pend ≠ 0 ∧ x.woken = false ∧ ∃ w, x.wait = .event w ∧ w &&& ~~~c.events = 0

theorem wakeEvents_eq {s : State} {c : Ctx} {id : Nat} (hc : s.ctx? id = some c) : ∃ ts, s.wakeEvents id = s.wakeAll ts ∧
    ∀ u, u ∈ ts ↔ ∃ x ∈ s.threads, s.releasedBy c x ∧ x.id = u := by
  unfold State.wakeEvents
  simp only [hc]
  refine ⟨_, rfl, fun u => ?_⟩
  rw [mem_sortLanes, List.mem_map]
  refine exists_congr fun x => ?_
  rw [List.mem_filter, and_assoc]
  refine and_congr_right fun _ => and_congr_left fun _ => ?_
  unfold State.releasedBy Thread.awaits
  rw [ctx?_id hc]
  cases hw : x.wait <;> simp [and_assoc]

/-! ### Bits that are set (R95) -/

/-- The context with the bits of `m` set in its vector. -/
def State.withEvents (s : State) (id : Nat) (m : EvMask) : State := s.modCtx id fun x => { x with events := x.events ||| m }

@[simp] theorem withEvents_ctxOf (s : State) (id : Nat) (m : EvMask) (t : Tid) : (s.withEvents id m).ctxOf t = s.ctxOf t := by
  cases t <;> rfl

/-- The context with only those launches that its vector still holds back (R96). -/
def Ctx.stillWaiting (c : Ctx) : Ctx := { c with waiting := c.waiting.filter fun w => w.waitmask &&& ~~~c.events != 0 }

theorem admitLaunches_none {s : State} {c : Ctx} {id : Nat} (hc : s.ctx? id = some c) (hw : c.waiting = []) :
    s.admitLaunches id = s.modCtx id Ctx.stillWaiting := by
  simp only [State.admitLaunches, hc, hw, List.filter_nil, List.foldl_nil]
  rfl

section Set
variable {s : State} {c : Ctx} {id : Nat} {m : EvMask}

theorem ctx?_withEvents (hc : s.ctx? id = some c) : (s.withEvents id m).ctx? id = some { c with events := c.events ||| m } :=
  ctx?_modCtx_self hc (show c.id = id from ctx?_id hc)

theorem ctx?_wakeAll_withEvents (hc : s.ctx? id = some c) (ts : List Tid) :
    ((s.withEvents id m).wakeAll ts).ctx? id = some { c with events := c.events ||| m } := by
  unfold State.ctx?
  rw [wakeAll_ctxs]
  exact ctx?_withEvents hc

theorem evSet_admits (s : State) (id : Nat) (hm : m ≠ 0) :
    ∃ work, s.evSet id m = { ((s.withEvents id m).wakeEvents id).admitLaunches id with work } := by
  unfold State.evSet
  rw [if_neg hm]
  exact ⟨_, rfl⟩

/-- With no launch waiting, setting bits does no more than the wake-ups and the work that it leaves for the queues. -/
theorem evSet_eq (hc : s.ctx? id = some c) (hw : c.waiting = []) (hm : m ≠ 0) : ∃ ts work,
    s.evSet id m = { ((s.withEvents id m).wakeAll ts).modCtx id Ctx.stillWaiting with work } ∧
    ∀ u, u ∈ ts ↔ ∃ x ∈ s.threads, s.releasedBy { c with events := c.events ||| m } x ∧ x.id = u := by
  obtain ⟨ts, hwake, hts⟩ := wakeEvents_eq (ctx?_withEvents (m := m) hc)
  obtain ⟨work, heq⟩ := evSet_admits s id hm
  rw [hwake, admitLaunches_none (ctx?_wakeAll_withEvents hc ts) hw] at heq
  refine ⟨ts, work, heq, fun u => (hts u).trans ?_⟩
  simp only [State.releasedBy, withEvents_ctxOf]
  rfl

theorem evSet_events (hc : s.ctx? id = some c) (hw : c.waiting = []) (hm : m ≠ 0) :
    ∃ c', (s.evSet id m).ctx? id = some c' ∧ c'.events = c.events ||| m := by
  obtain ⟨ts, work, heq, -⟩ := evSet_eq hc hw hm
  rw [heq]
  exact ⟨_, ctx?_modCtx_self (ctx?_wakeAll_withEvents hc ts) (show c.id = id from ctx?_id hc), rfl⟩

theorem evSet_woke (hc : s.ctx? id = some c) (hw : c.waiting = []) (hm : m ≠ 0) : ∃ ts, Woke ts s (s.evSet id m) ∧
    ∀ u, u ∈ ts ↔ ∃ x ∈ s.threads, s.releasedBy { c with events := c.events ||| m } x ∧ x.id = u := by
  obtain ⟨ts, work, heq, hts⟩ := evSet_eq hc hw hm
  obtain ⟨hwoken, htold, hkept, hothers⟩ := wakeAll_woke ts (s.withEvents id m)
  rw [heq]
  exact ⟨ts, ⟨hwoken, htold, hkept, hothers⟩, hts⟩

end Set

/-- Settles O50: the sets bit by bit, each instruction in its place, the queue's oldest entry, and the wake-ups of a set. -/
theorem eventInstructions : Obligations.EventInstructions := by
  refine ⟨fun r n a k j hj => ⟨getLsbD_mask_imm n r hj, getLsbD_mask_reg a r hj, getLsbD_mask_mask a k r hj⟩, ?issue,
    fun q id e hq he rest => popEv_append hq he rest, ?wakes⟩
  case issue =>
    intro s t th g f d c m id dest queue wrote hq hc hlog
    refine ⟨fun h => execEvset_quiet h hq hlog, fun h => execEvclr_quiet h hq hlog, fun h he => ⟨fun hm => ?parked, fun hm => ?done⟩,
      fun e q hp i hi h => ?popped, fun hn => ⟨fun h he => ?waits, fun h => ?zeros⟩⟩
    case parked => exact (execEvwait_quiet h hq hc hlog he).trans (by rw [if_neg hm]; rfl)
    case done =>
      refine ⟨_, (execEvwait_quiet h hq hc hlog he).trans (by rw [if_pos hm]), rfl, fun x hx => ?_⟩
      exact thread?_wake_self hx
    case popped =>
      have ht : (s.modCore th.core fun k => { k with evq := q }).thread? t = some th := by
        unfold State.thread?
        rw [State.modCore_threads]
        exact h.thread
      refine ⟨_, ?_, writeRegs_lane ht d e.words⟩
      rcases hi with rfl | rfl <;> exact (run_lone h _).trans (by rw [popEvent_entry h.thread hq hlog hp])
    case waits => exact (run_lone h _).trans (by rw [popEvent_waits h.thread hq hlog hn he])
    case zeros => exact ⟨_, (run_lone h _).trans (by rw [popEvent_zeros h.thread hq hlog hn]), writeRegs_lane h.thread d _⟩
  case wakes =>
    intro s id m c hc hid hw _ hm
    subst hid
    obtain ⟨ts, hwoke, hts⟩ := evSet_woke hc hw hm
    refine ⟨evSet_events hc hw hm, fun t x hx honly => ⟨fun hr => ?woken, fun hr => (hwoke.others t fun hin => ?kept).trans hx⟩⟩
    case woken =>
      have hin : t ∈ ts := (hts t).mpr ⟨x, List.mem_of_find?_eq_some hx, hr, thread?_id hx⟩
      exact ⟨hwoke.woken t hin x hx, hwoke.told t hin⟩
    case kept =>
      obtain ⟨y, hy, hry, hyt⟩ := (hts t).mp hin
      exact hr (honly y hy hyt ▸ hry)

end Sys2Proof.Machine
end

section
/-! The end of a segment: the record that a thread becomes, and the thread that waits in place (R122, R129 to R131, R390). -/

namespace Sys2Proof.Machine

open Sys2Proof Sys2Proof.Safety

/-! ### Registers that a record keeps (R130) -/

@[simp] theorem length_keepFrom (live : List Nat) (k : Nat) (ws : List Word) : (keepFrom live k ws).length = ws.length := by
  induction ws generalizing k with
  | nil => rfl
  | cons w ws ih => exact congrArg (· + 1) (ih (k + 1))

theorem getAt_keepFrom (live : List Nat) (k : Nat) (ws : List Word) (n : Nat) :
    getAt 0 (keepFrom live k ws) n = if k + n ∈ live then getAt 0 ws n else 0 := by
  induction ws generalizing k n with
  | nil => simp [keepFrom, getAt]
  | cons w ws ih =>
    cases n with
    | zero => simp [keepFrom, getAt]
    | succ n => simpa only [keepFrom, getAt, Nat.add_assoc, Nat.add_comm 1 n] using ih (k + 1) n

theorem Regs.getAt_keepOnly (r : Regs) (live : List Nat) (n : Nat) :
    getAt 0 (r.keepOnly live).x n = if n ∈ live then getAt 0 r.x n else 0 := by
  have h := getAt_keepFrom live 0 r.x n
  rwa [Nat.zero_add] at h

/-! ### The place in an Escapement entry -/

theorem modCore_rest (s : State) (c : Nat) (f : Core → Core) : s.modCore c f = { s with cores := (s.modCore c f).cores } := by
  unfold State.modCore
  split <;> rfl

theorem leaveEntry_rest (s : State) (core : Nat) (t : Tid) : s.leaveEntry core t = { s with cores := (s.leaveEntry core t).cores } := by
  unfold State.leaveEntry
  split
  · rfl
  · exact modCore_rest s core _

/-- A core without the thread in its entries; an entry that it leaves empty goes. -/
def Core.withoutThread (t : Tid) (k : Core) : Core :=
  { k with entries := (k.entries.map fun e => { e with ts := e.ts.filter (· != t) }).filter fun e => !e.ts.isEmpty }

theorem Core.withoutThread_of_isEmpty {k : Core} (h : k.entries.isEmpty = true) (t : Tid) : k.withoutThread t = k := by
  cases k
  cases List.isEmpty_iff.mp h
  rfl

theorem core_leaveEntry_self (s : State) (core : Nat) (t : Tid) : (s.leaveEntry core t).core core = (s.core core).withoutThread t := by
  unfold State.leaveEntry
  split
  case isTrue h => exact (Core.withoutThread_of_isEmpty h t).symm
  case isFalse => exact core_modCore_self s core _ (by intro; rfl)

theorem core_leaveEntry_other (s : State) {core c : Nat} (t : Tid) (h : c ≠ core) : (s.leaveEntry core t).core c = s.core c := by
  unfold State.leaveEntry
  split
  · rfl
  · exact core_modCore_other s core c _ (by intro; rfl) h

/-- Leaving an entry changes no core but in its entries. -/
theorem core_leaveEntry_rest (s : State) (core : Nat) (t : Tid) (c : Nat) :
    (s.leaveEntry core t).core c = { s.core c with entries := ((s.leaveEntry core t).core c).entries } := by
  by_cases h : c = core
  · rw [h, core_leaveEntry_self]
    rfl
  · rw [core_leaveEntry_other s t h]

theorem not_mem_leaveEntry {s : State} {core : Nat} {t : Tid} {e : EscEntry} (h : e ∈ ((s.leaveEntry core t).core core).entries) : t ∉ e.ts := by
  rw [core_leaveEntry_self] at h
  obtain ⟨e, -, rfl⟩ := List.mem_map.mp (List.mem_of_mem_filter h)
  simp

/-! ### The record, or the thread in place -/

/-- What the end of a segment asks for: where to resume, the registers saved, the wait, and its completions with their destinations. -/
structure SegEnd where
  resume : DWord
  live : List Nat
  wait : Wait
  pend : Nat
  dest : List Nat
  destP : Option Nat

/-- A thread that waits in its place (R122, R390). -/
def Thread.waiting (a : SegEnd) (now : Nat) (th : Thread) : Thread :=
  { th with pc := a.resume, arr := if a.resume = succPc th.pc then (if pcSlot th.pc < 4 then .inLine else .fall) else .unchecked
            segpc := th.pc, tpc := none, wait := a.wait, pend := a.pend, dest := a.dest, destP := a.destP, hold := a.pend != 0
            resv := none, inject := none, stamp := now, woken := false }

/-- A thread that has become a record, its binding to the team yet to be set (R130, R143). -/
def Thread.unboundRecord (a : SegEnd) (now : Nat) (th : Thread) : Thread :=
  { th with regs := th.regs.keepOnly a.live, shadow := th.shadow.map fun r => r.keepOnly a.live
            pc := a.resume, arr := .checked, segpc := th.pc, tpc := none, loc := .parked, wait := a.wait, pend := a.pend, dest := a.dest
            destP := a.destP, live := a.live, hold := false, resv := none, inject := none, level := 0, stamp := now, ready := 0
            woken := false, guest := false }

/-- The record with its binding to the team (R131). -/
def State.recordOf (s : State) (a : SegEnd) (th : Thread) : Thread := { th.unboundRecord a s.cycle with tb := s.teamBound th }

theorem teamBound_iff (s : State) (th : Thread) : s.teamBound th = true ↔
    th.tile.isSome = true ∨ th.whole = true ∨ ∃ k, s.kernelOf th.id = some k ∧ 0 < k.scratch ∧ th.lfree = false := by
  unfold State.teamBound
  cases h : s.kernelOf th.id <;> simp [or_assoc]

theorem landAll_idle {s : State} {t : Tid} {th : Thread} (ht : s.thread? t = some th) (ho : th.ops = []) : s.landAll t = s := by
  simp [State.landAll, ht, ho]

section Park
variable {s : State} {t : Tid} {th : Thread} {a : SegEnd}

theorem park_waiting (ht : s.thread? t = some th) (ho : th.ops = []) (hp : th.inPlace = true) :
    s.park t a.resume a.live a.wait a.pend a.dest a.destP = s.modThread t (.waiting a s.cycle) := by
  unfold State.park
  simp only [landAll_idle ht ho, ht, hp, if_true]
  rfl

theorem park_record (ht : s.thread? t = some th) (ho : th.ops = []) (hp : th.inPlace = false) (ha : a.pend ≠ 0) :
    s.park t a.resume a.live a.wait a.pend a.dest a.destP = (s.modThread t (s.recordOf a)).leaveEntry th.core t := by
  unfold State.park
  simp only [landAll_idle ht ho, ht, hp, ha, Bool.false_eq_true, if_false]
  rw [modThread_modThread _ _ _ _ (by intro; rfl)]
  rfl

theorem thread?_waiting (ht : s.thread? t = some th) : (s.modThread t (.waiting a s.cycle)).thread? t = some (th.waiting a s.cycle) :=
  thread?_modThread_self ht (show th.id = t from thread?_id ht)

theorem thread?_leaveEntry (s : State) (core : Nat) (t u : Tid) : (s.leaveEntry core t).thread? u = s.thread? u := by
  unfold State.thread?
  rw [leaveEntry_threads]

theorem thread?_record (ht : s.thread? t = some th) (core : Nat) :
    ((s.modThread t (s.recordOf a)).leaveEntry core t).thread? t = some (s.recordOf a th) := by
  rw [thread?_leaveEntry]
  exact thread?_modThread_self ht (show th.id = t from thread?_id ht)

/-- Whatever the thread becomes, a segment that ends in a wait changes it and the entries of its core, and nothing else. -/
theorem park_rest (ht : s.thread? t = some th) (ho : th.ops = []) (ha : a.pend ≠ 0) :
    let s' := s.park t a.resume a.live a.wait a.pend a.dest a.destP
    s' = { s with threads := s'.threads, cores := s'.cores } ∧ (∀ u, u ≠ t → s'.thread? u = s.thread? u) ∧
    ∀ c, s'.core c = { s.core c with entries := (s'.core c).entries } := by
  cases hp : th.inPlace with
  | true =>
    rw [park_waiting ht ho hp]
    exact ⟨rfl, fun u => thread?_modThread_other fun _ => rfl, fun _ => rfl⟩
  | false =>
    rw [park_record ht ho hp ha]
    refine ⟨?_, fun u hu => ?_, core_leaveEntry_rest _ th.core t⟩
    · rw [leaveEntry_threads]
      exact leaveEntry_rest _ th.core t
    · rw [thread?_leaveEntry]
      exact thread?_modThread_other (f := s.recordOf a) (fun _ => rfl) hu

end Park

/-- Settles O29: what changes at all, then the thread in its place and the record. -/
theorem segmentEnds : Obligations.SegmentEnds := by
  intro s t th resume live wait pend dest destP ht ho hpend
  obtain ⟨hrest, hother, hcore⟩ := park_rest (a := ⟨resume, live, wait, pend, dest, destP⟩) ht ho hpend
  refine ⟨hrest, hother, hcore, ?_⟩
  cases hp : th.inPlace with
  | true =>
    have hpark := park_waiting (a := ⟨resume, live, wait, pend, dest, destP⟩) ht ho hp
    dsimp only at hpark
    rw [hpark]
    exact ⟨_, thread?_waiting ht, rfl, rfl, rfl, rfl, rfl, rfl, rfl, rfl, rfl, rfl, rfl, rfl,
      fun _ => ⟨rfl, rfl, rfl, bne_iff_ne.mpr hpend, rfl⟩, fun h => Bool.noConfusion h⟩
  | false =>
    have hpark := park_record (a := ⟨resume, live, wait, pend, dest, destP⟩) ht ho hp hpend
    dsimp only at hpark
    rw [hpark]
    refine ⟨_, thread?_record ht th.core, rfl, rfl, rfl, rfl, rfl, rfl, rfl, rfl, rfl, rfl, rfl, rfl, fun h => Bool.noConfusion h,
      fun _ => ⟨rfl, rfl, rfl, rfl, rfl, length_keepFrom live 0 th.regs.x, rfl, th.regs.getAt_keepOnly live, ?bound, ?left⟩⟩
    case bound => exact thread?_id ht ▸ teamBound_iff s th
    case left =>
      rintro c e he rfl
      exact not_mem_leaveEntry he

end Sys2Proof.Machine
end

section
/-! SEG, YIELD and FWD outside regions: the checks that they share, the standing set, and the records that FWD keeps and those that it offers to a die (R128, R146 to R148, R272, R390). -/

namespace Sys2Proof.Machine

open Sys2Proof Sys2Proof.Safety

/-! ### Live lists and the standing set (R128, R146) -/

theorem liveList_eq_some_iff {s : State} {t : Tid} {d n : Nat} {l : List Nat} : s.liveList t d (n + 1) = some l ↔
    ∃ k e, s.kernelOf t = some k ∧ k.liveEntry d = some e ∧ (e.length = n + 1 ∧ l = e ∨ e.length = n ∧ k.regs = 32 ∧ l = e ++ [255]) := by
  unfold State.liveList
  cases hk : s.kernelOf t with
  | none => simp
  | some k =>
    cases he : k.liveEntry d with
    | none => simp [he]
    | some e =>
      by_cases h1 : e.length = n + 1
      · simp [he, h1, eq_comm]
      · by_cases h2 : e.length = n ∧ k.regs = 32
        · simp [he, h2, eq_comm]
        · simp [he, h1, h2]
          tauto

theorem sameLive_quiet {th : Thread} (q : Quiet th) (live : List Nat) : sameLive th live = true := by
  simp [sameLive, quiet_shadow q]

/-- The thread with a standing set that SEG or FWD has declared. -/
def Thread.withStanding (d : Nat) (live : List Nat) (free : Bool) (th : Thread) : Thread :=
  { th with lsv := true, livesel := d, live255 := live.contains 255, lfree := free }

section Lane
variable {s : State} {t : Tid} {th : Thread} {d : BitVec 8} {n : BitVec 4} {live : List Nat} {free : Bool}

theorem thread?_setStanding (ht : s.thread? t = some th) (d : Nat) (live : List Nat) (free : Bool) :
    (s.setStanding t d live free).thread? t = some (th.withStanding d live free) :=
  thread?_modThread_self ht (show th.id = t from thread?_id ht)

theorem covered_setStanding (s : State) (t : Tid) (d : Nat) (live : List Nat) (free : Bool) :
    (s.setStanding t d live free).covered t = s.covered t := by
  cases t <;> rfl

theorem logging_setStanding (ht : s.thread? t = some th) (d : Nat) (live : List Nat) (free : Bool) :
    (s.setStanding t d live free).logging t = s.logging t := by
  unfold State.logging State.logOf
  rw [coreOf_thread (thread?_setStanding ht d live free), coreOf_thread ht]
  rfl

theorem domainDie_setStanding (s : State) (t : Tid) (d : Nat) (live : List Nat) (free : Bool) (die : Nat) :
    (s.setStanding t d live free).domainDie t die = s.domainDie t die := by
  cases t <;> rfl

/-- The standing set has no say in whether a record may be written. -/
theorem endSegment_setStanding (ht : s.thread? t = some th) (he : MayEnd s t th live) (d : Nat) (free : Bool) (pc : DWord) :
    (s.setStanding t d live free).endSegment t pc live .none 0 [] none = (s.setStanding t d live free).park t pc live .none 0 [] none := by
  unfold State.endSegment
  simp only [thread?_setStanding ht, covered_setStanding]
  refine if_neg fun h => ?_
  have hp : (th.withStanding d live free).inPlace = th.inPlace := rfl
  rcases he.room with hr | ⟨-, -, hr⟩ <;> simp [hp, hr] at h

/-! ### The checks that SEG and FWD share, and SEG (R146, R390) -/

theorem withLive_handler (ht : s.thread? t = some th) (hh : th.h.hmode = true) (k : State → Thread → List Nat → State) :
    s.withLive t d n k = s.raise t .handlerState 0 := by
  simp [State.withLive, ht, hh]

theorem withLive_noList (ht : s.thread? t = some th) (hh : th.h.hmode = false) (hl : s.liveList t d.toNat (n.toNat + 1) = none)
    (k : State → Thread → List Nat → State) : s.withLive t d n k = s.raise t .liveIndex (d.setWidth 64) := by
  simp [State.withLive, ht, hh, hl]

theorem withLive_list (ht : s.thread? t = some th) (q : Quiet th) (hh : th.h.hmode = false)
    (hl : s.liveList t d.toNat (n.toNat + 1) = some live) (k : State → Thread → List Nat → State) : s.withLive t d n k = k s th live := by
  simp [State.withLive, ht, hh, hl, compared_quiet ht q (sameLive_quiet q live)]

variable {g : Guard} {off : Word} {slot : Slot}

theorem execSeg_list (h : Lone s (.seg g free d n off slot) t th) (hh : th.h.hmode = false)
    (hl : s.liveList t d.toNat (n.toNat + 1) = some live) (he : MayEnd s t th live) : exec (.seg g free d n off slot) s =
    .next ((s.setStanding t d.toNat live free).park t (branchTarget th.pc off slot) live .none 0 [] none) := by
  refine (run_lone h _).trans ?_
  rw [withLive_list h.thread he.quiet hh hl]
  simp only [segReady_ok h.thread he, endSegment_setStanding h.thread he]

theorem execYield_ends (h : Lone s (.yield g off slot) t th) (hh : th.h.hmode = false) (he : MayEnd s t th (unionRegs (s.standing th) [])) :
    exec (.yield g off slot) s = .next (s.park t (branchTarget th.pc off slot) (unionRegs (s.standing th) []) .none 0 [] none) := by
  refine (run_lone h _).trans ?_
  simp [h.thread, hh, compared_quiet h.thread he.quiet (sameLive_quiet he.quiet _), segEnd_ok h.thread he]

/-! ### FWD of one lane (R148) -/

section Forward
variable {die : Thread → Nat}

theorem forward_handler (ht : s.thread? t = some th) (hh : th.h.hmode = true) : s.forward d n die [t] = s.raise t .handlerState 0 := by
  simp [State.forward, ht, hh]

theorem forward_noList (ht : s.thread? t = some th) (hh : th.h.hmode = false) (hl : s.liveList t d.toNat (n.toNat + 1) = none) :
    s.forward d n die [t] = s.raise t .liveIndex (d.setWidth 64) := by
  simp [State.forward, ht, hh, hl]

/-- The lane's record is written, and offered where it is to go. -/
theorem forward_list (ht : s.thread? t = some th) (q : Quiet th) (hh : th.h.hmode = false)
    (hl : s.liveList t d.toNat (n.toNat + 1) = some live) {r : State × Option Nat} (hf : s.forwardOne t d.toNat live (die th) = r) :
    s.forward d n die [t] = r.2.elim r.1 fun k => r.1.offer k [t] := by
  simp only [State.forward, List.foldl_cons, List.foldl_nil, ht, hh, hl, sameLive_quiet q live, mismatch_quiet ht q, hf]
  rcases r with ⟨s', _ | k⟩ <;> simp [List.eraseDups_cons]

end Forward

/-- On its own core (R148, R272). -/
theorem forwardOne_stays {die : Nat} (ht : s.thread? t = some th) (he : MayEnd s t th live)
    (hd : s.logging t = true ∨ s.domainDie t die = false) : s.forwardOne t d.toNat live die =
    ((s.setStanding t d.toNat live true).park t (successor th.pc) live .none 0 [] none, none) := by
  unfold State.forwardOne
  simp only [ht, segReady_ok ht he, logging_setStanding ht, domainDie_setStanding, succ_successor]
  rw [if_pos (by rcases hd with hd | hd <;> simp [hd]), endSegment_setStanding ht he]

theorem forward_stays {die : Thread → Nat} (ht : s.thread? t = some th) (hh : th.h.hmode = false)
    (hl : s.liveList t d.toNat (n.toNat + 1) = some live) (he : MayEnd s t th live)
    (hd : s.logging t = true ∨ s.domainDie t (die th) = false) :
    s.forward d n die [t] = (s.setStanding t d.toNat live true).park t (successor th.pc) live .none 0 [] none :=
  forward_list ht he.quiet hh hl (forwardOne_stays ht he hd)

/-! ### A record that is offered to a die (R148) -/

/-- Nothing keeps the thread's record on its core: it is no record in place, has no team state, and no pre-emption request covers it. -/
structure MayLeave (s : State) (t : Tid) (th : Thread) : Prop where
  place : th.inPlace = false
  tile : th.tile = none
  whole : th.whole = false
  ops : th.ops = []
  calm : s.covered t = false

/-- The segment end that `parkLoose` asks for: its one completion is taken back at once. -/
def looseEnd (resume : DWord) (live : List Nat) : SegEnd := { resume, live, wait := .none, pend := 1, dest := [], destP := none }

/-- The record that FWD sends, ready. -/
def State.forwarded (s : State) (d : Nat) (live : List Nat) (th : Thread) : Thread :=
  { s.recordOf (looseEnd (succPc th.pc) live) (th.withStanding d live true) with pend := 0, ready := s.ready }

/-- The machine with that record written. -/
def State.parkForwarded (s : State) (t : Tid) (d : Nat) (live : List Nat) (th : Thread) : State :=
  (s.setStanding t d live true).parkLoose t (succPc th.pc) live

theorem forwarded_free (s : State) (d : Nat) (live : List Nat) (ml : MayLeave s t th) : (s.forwarded d live th).tb = false := by
  refine Bool.eq_false_iff.mpr fun h => ?_
  rcases (teamBound_iff s (th.withStanding d live true)).mp h with h | h | ⟨k, -, -, h⟩ <;>
    simp [Thread.withStanding, ml.tile, ml.whole] at h

theorem parkForwarded_rest (ht : s.thread? t = some th) (ho : th.ops = []) (d : Nat) (live : List Nat) :
    let s' := s.parkForwarded t d live th
    s' = { s with threads := s'.threads, cores := s'.cores } ∧ ∀ c, s'.core c = { s.core c with entries := (s'.core c).entries } := by
  obtain ⟨hrest, -, hcore⟩ := park_rest (a := looseEnd (succPc th.pc) live) (thread?_setStanding ht d live true) ho Nat.one_ne_zero
  refine ⟨?_, hcore⟩
  unfold State.parkForwarded State.parkLoose
  exact congrArg (State.modThread · t _) hrest

theorem thread?_parkForwarded (ht : s.thread? t = some th) (ml : MayLeave s t th) (d : Nat) (live : List Nat) :
    (s.parkForwarded t d live th).thread? t = some (s.forwarded d live th) := by
  have hs := thread?_setStanding ht d live true
  have hpark : (s.setStanding t d live true).park t (succPc th.pc) live .none 1 [] none = _ :=
    park_record (a := looseEnd (succPc th.pc) live) hs ml.ops ml.place Nat.one_ne_zero
  have hready (s : State) : (s.leaveEntry th.core t).ready = s.ready := by rw [leaveEntry_rest]; rfl
  unfold State.parkForwarded State.parkLoose
  dsimp only
  rw [hpark]
  refine (thread?_modThread_self (thread?_record hs _) (show th.id = t from thread?_id ht)).trans ?_
  exact congrArg (fun n => some { s.forwarded d live th with ready := n }) (hready _)

theorem forwardOne_offers {die d : Nat} (ht : s.thread? t = some th) (he : MayEnd s t th live) (ml : MayLeave s t th)
    (hlog : s.logging t = false) (hdie : s.domainDie t die = true) :
    s.forwardOne t d live die = (s.parkForwarded t d live th, some die) := by
  unfold State.forwardOne
  simp only [ht, segReady_ok ht he, logging_setStanding ht, domainDie_setStanding, covered_setStanding, ml.place, ml.calm, hlog, hdie]
  have hx := thread?_parkForwarded ht ml d live
  unfold State.parkForwarded at hx ⊢
  simp [hx, forwarded_free s d live ml]

theorem offer_room {die : Nat} (hr : s.recordRoom die = true) : s.offer die [t] =
    (s.modThread t fun x => { x with loc := .offered die }).modDie die fun k => { k with mailbox := k.mailbox ++ [.records (s.ctxOf t) [t] s.cycle] } := by
  refine (if_pos hr).trans ?_
  cases t <;> rfl

/-- The ready record is in no place of its core but in the die's mailbox, as one entry. -/
theorem forward_offers {die : Thread → Nat} (ht : s.thread? t = some th) (hh : th.h.hmode = false)
    (hl : s.liveList t d.toNat (n.toNat + 1) = some live) (he : MayEnd s t th live) (ml : MayLeave s t th) (hlog : s.logging t = false)
    (hdie : s.domainDie t (die th) = true) (hr : s.recordRoom (die th) = true) :
    let s' := s.forward d n die [t]
    (s'.die (die th)).mailbox = (s.die (die th)).mailbox ++ [.records (s.ctxOf t) [t] s.cycle] ∧
    s'.thread? t = some { s.forwarded d.toNat live th with loc := .offered (die th) } := by
  obtain ⟨hrest, hcore⟩ := parkForwarded_rest ht ml.ops d.toNat live
  have hx := thread?_parkForwarded ht ml d.toNat live
  rw [forward_list ht he.quiet hh hl (forwardOne_offers ht he ml hlog hdie)]
  have hctx : (s.parkForwarded t d.toNat live th).ctxOf t = s.ctxOf t := ctxOf_congr (fun c => by rw [hcore]) t
  generalize s.parkForwarded t d.toNat live th = s1 at hrest hx hctx
  have hroom : s1.recordRoom (die th) = true := by rw [hrest]; exact hr
  have hd : s1.dies = s.dies := by rw [hrest]
  have hc : s1.cycle = s.cycle := by rw [hrest]
  dsimp only [Option.elim_some]
  rw [offer_room hroom, hctx, hc]
  constructor
  · rw [die_modDie_self _ _ _ (by intro; rfl)]
    simp [State.die, hd]
  · unfold State.thread?
    rw [State.modDie_threads]
    exact thread?_modThread_self hx (show th.id = t from thread?_id ht)

/-! ### FWD as an instruction -/

theorem execFwd_reg {b : XReg} (h : Lone s (.fwd g (some b) d n) t th) :
    exec (.fwd g (some b) d n) s = .next (s.forward d n (fun x => (x.regs.x32 b).toNat % 32) [t]) :=
  runAll_lone h fun s ts => s.forwardAll (some b) d n ts

theorem execFwd_any (h : Lone s (.fwd g none d n) t th) :
    exec (.fwd g none d n) s = .next ((s.anyDie (s.ctxOf t)).2.forward d n (fun _ => (s.anyDie (s.ctxOf t)).1) [t]) :=
  runAll_lone h fun s ts => s.forwardAll none d n ts

theorem anyDie_rest (s : State) (c : Nat) : ∃ choices, (s.anyDie c).2 = { s with choices } := by
  have h : (s.anyDie c).2 = s.choice.2 := by
    unfold State.anyDie
    dsimp only
    split <;> rfl
  exact ⟨_, h.trans (choice_rest s)⟩

/-- The choices that are left have no say in whether a segment may end. -/
theorem mayEnd_withChoices (he : MayEnd s t th live) (choices : List Nat) : MayEnd { s with choices } t th live := by
  refine ⟨he.quiet, ?_⟩
  cases t <;> exact he.room

end Lane

/-- Settles O48: a handler, no live list, SEG, FWD on its own core and to a die, YIELD, and FWD to any die behind a side-log entry. -/
theorem namedSegmentEnds : Obligations.NamedSegmentEnds := by
  intro s t th g free b d n off slot live list target die set q
  have hlist {l : List Nat} : s.liveList t d.toNat (n.toNat + 1) = some l ↔ list l := liveList_eq_some_iff
  refine ⟨?handler, ?noList, fun hh hl he => ⟨fun h => ?seg, fun h hd => ?stays, fun h hlog hdie hroom hs htile hw ho hcov => ?offered⟩,
    fun h hh he => ?yield, fun die' s0 h hany hh hl he hlog => ?any⟩
  case handler =>
    rintro i (rfl | rfl | rfl) h hh
    · exact (run_lone h _).trans (by rw [withLive_handler h.thread hh])
    · exact (run_lone h _).trans (by simp [h.thread, hh])
    · rw [execFwd_reg h, forward_handler h.thread hh]
  case noList =>
    rintro i (rfl | rfl) h hh hno
    all_goals have hl : s.liveList t d.toNat (n.toNat + 1) = none := Option.eq_none_iff_forall_ne_some.mpr fun l hl => hno l (hlist.mp hl)
    · exact (run_lone h _).trans (by rw [withLive_noList h.thread hh hl])
    · rw [execFwd_reg h, forward_noList h.thread hh hl]
  case seg => exact execSeg_list h hh (hlist.mpr hl) he
  case stays => rw [execFwd_reg h, forward_stays h.thread hh (hlist.mpr hl) he hd]
  case offered =>
    have ml : MayLeave s t th := ⟨by simp [Thread.inPlace, hs, hh], htile, hw, ho, hcov⟩
    obtain ⟨hmail, hx⟩ := forward_offers (die := fun x => (x.regs.x32 b).toNat % 32) h.thread hh (hlist.mpr hl) he ml hlog hdie hroom
    exact ⟨_, execFwd_reg h, hmail, _, hx, rfl, succ_successor th.pc, rfl, rfl, rfl, rfl, rfl, rfl⟩
  case yield => exact execYield_ends h hh he
  case any =>
    obtain ⟨choices, hs⟩ := anyDie_rest s (s.ctxOf t)
    rw [execFwd_any h]
    rw [hany] at hs ⊢
    subst hs
    exact congrArg _ (forward_stays (s := { s with choices }) h.thread hh (hlist.mpr hl) (mayEnd_withChoices he choices) (.inl hlog))

end Sys2Proof.Machine
end

section
/-! Transfers of control (R44, R63, R150, R152, R153, R165), and BRK, TRAP and HINT (R166, R399, R408). -/

namespace Sys2Proof.Machine

open Sys2Proof Sys2Proof.Safety

/-! ### Code addresses (R44, R63) -/

theorem getLsbD_offsetMask (i : Nat) : (0x3F#64).getLsbD i = decide (i < 6) := by
  rw [BitVec.getLsbD_ofNat, show (0x3F : Nat) = 2 ^ 6 - 1 from rfl, Nat.testBit_two_pow_sub_one]
  by_cases h : i < 6
  · simp [h, Nat.lt_trans h]
  · simp [h]

theorem getLsbD_pcLine (pc : DWord) (i : Nat) : (pcLine pc).getLsbD i = (decide (6 ≤ i) && pc.getLsbD i) := by
  rw [pcLine, BitVec.getLsbD_and, BitVec.getLsbD_not, getLsbD_offsetMask]
  by_cases h : i < 64
  · by_cases h6 : i < 6 <;> simp [h, h6, Nat.le_of_not_lt, Nat.not_le_of_lt]
  · rw [BitVec.getLsbD_of_ge pc i (Nat.le_of_not_lt h)]
    simp

/-- The line of a code address: the multiple of 64 at or below it. -/
theorem toNat_pcLine (pc : DWord) : (pcLine pc).toNat = pc.toNat / 64 * 64 := by
  apply Nat.eq_of_testBit_eq
  intro i
  rw [show pc.toNat / 64 * 64 = pc.toNat / 2 ^ 6 * 2 ^ 6 from rfl, Nat.testBit_mul_two_pow, Nat.testBit_div_two_pow,
    BitVec.testBit_toNat, getLsbD_pcLine]
  by_cases h : 6 ≤ i <;> simp [h, BitVec.testBit_toNat]

theorem branchTarget_eq_ofInt (pc : DWord) (off : Word) (slot : Slot) :
    branchTarget pc off slot = BitVec.ofInt 64 ((pc.toNat / 64 * 64 : Nat) + off.toInt * 64 + slot.toNat) := by
  rw [BitVec.ofInt_add, BitVec.ofInt_add, BitVec.ofInt_mul, BitVec.ofInt_natCast, BitVec.ofInt_natCast, ← toNat_pcLine]
  simp [branchTarget, BitVec.signExtend]

/-! ### Transfers (R150 to R153) -/

/-- A transfer changes its own thread, and nothing else. -/
theorem jump_lane (s : State) (t : Tid) (dst : Thread → DWord) (link : Thread → Regs → Regs) :
    LanesDo [t] (fun th => { th with pc := dst th, arr := .checked, regs := link th th.regs, shadow := th.shadow.map (link th) }) s (s.jump t dst link) where
  rest := rfl
  lane u hu th hth := by
    obtain rfl := List.mem_singleton.mp hu
    exact thread?_modThread_self hth (show th.id = u from thread?_id hth)
  others u hu := thread?_modThread_other (fun _ => rfl) fun h => hu (List.mem_singleton.mpr h)

theorem jumps_of {i : Instr} {dst : Thread → DWord} {link : Thread → Regs → Regs}
    (h : ∀ s, exec i s = s.run i fun s t => s.jump t dst link) : Jumps i dst link := by
  intro s hs
  obtain ⟨s', hrun, hlanes⟩ := run_lanes (body := fun s t => s.jump t dst link) hs fun s1 t _ _ _ => jump_lane s1 t dst link
  exact ⟨s', (h s).trans hrun, hlanes⟩

theorem computes_nop (g : Guard) : Computes (.nop g) fun r => r := by
  intro s hs
  obtain ⟨s', hrun, hlanes⟩ := run_lanes (act := Thread.advance) (body := State.advance) hs fun s1 t th _ ht => advance_lane ht
  refine ⟨s', hrun, ?_⟩
  simpa [Thread.advance] using hlanes

/-- Settles O19: NOP goes on; each transfer is a jump, its target and its link as the rules name them. -/
theorem transfersOfControl : Obligations.TransfersOfControl := by
  intro g d a off slot branch
  have hbranch : (fun th : Thread => branchTarget th.pc off slot) = branch := funext fun th => branchTarget_eq_ofInt th.pc off slot
  have hlink : (fun (th : Thread) (r : Regs) => r.set64 d (succPc th.pc)) = fun th r => r.set64 d (successor th.pc) := by
    simp only [succ_successor]
  refine ⟨computes_nop g, ?bra, jumps_of fun _ => rfl, jumps_of fun _ => rfl, ?call, ?callx⟩
  case bra => exact hbranch ▸ jumps_of fun _ => rfl
  case call => exact hbranch ▸ hlink ▸ jumps_of fun _ => rfl
  case callx => exact hlink ▸ jumps_of fun _ => rfl

/-! ### BRK, TRAP and HINT (R166, R408) -/

section Lane
variable {s : State} {t : Tid} {th : Thread}

/-- Outside run-ahead and handlers a cause of the instruction is delivered. -/
theorem raiseAt_delivers (ht : s.thread? t = some th) (ha : th.inRunAhead = false) (hh : th.h.hmode = false) (c : Cause) (info pc : DWord) :
    s.raiseAt t c info pc = s.deliver t c.rung c info pc th.pc 0 := by
  simp [State.raiseAt, ht, ha, hh]

theorem softTrap_delivers (ht : s.thread? t = some th) (ha : th.inRunAhead = false) (hh : th.h.hmode = false) (c : Cause) (code : BitVec 16) :
    s.softTrap t c code = s.deliver t c.rung c (code.setWidth 64) (successor th.pc) th.pc 0 := by
  simp only [State.softTrap, ht, raiseAt_delivers ht ha hh, succ_successor]

variable {plive : Bool} {range : BitVec 8} {live : DWord}

/-- The live-range index of HINT is 0xFF, for none, or one that the kernel has. -/
def State.knowsRange (s : State) (t : Tid) (range : BitVec 8) : Prop :=
  range = 0xFF ∨ ∃ ker, s.kernelOf t = some ker ∧ range.toNat < ker.ranges.length

/-- HINT with both its causes ruled out. -/
theorem hint_known (ht : s.thread? t = some th) (hr : s.knowsRange t range) (hg : s.gangAborted t = false) : s.hint t plive range live =
    if (th.h.hmode || decide (0 < th.depth) || th.isScalar || !s.covered t) = true then s.advance t
    else if th.inRunAhead = true then s.specLimit t
    else s.saveExtended t (successor th.pc) live plive (if range = 0xFF then none else some range.toNat) false := by
  rcases hr with rfl | ⟨ker, hk, hlt⟩
  · simp [State.hint, ht, hg, succ_successor]
  · simp [State.hint, ht, hg, succ_successor, hk, hlt]

theorem hint_goesOn (ht : s.thread? t = some th) (hr : s.knowsRange t range) (hg : s.gangAborted t = false)
    (h : th.h.hmode = true ∨ th.isScalar = true ∨ s.covered t = false) : s.hint t plive range live = s.advance t := by
  rw [hint_known ht hr hg]
  rcases h with h | h | h <;> simp [h]

theorem hint_saves (ht : s.thread? t = some th) (hr : s.knowsRange t range) (hg : s.gangAborted t = false)
    (hh : th.h.hmode = false) (hs : th.isScalar = false) (hc : s.covered t = true) (hn : th.regions = []) : s.hint t plive range live =
    s.saveExtended t (successor th.pc) live plive (if range = 0xFF then none else some range.toNat) false := by
  rw [hint_known ht hr hg]
  simp [hh, hs, hc, hn, Thread.depth, Thread.inRunAhead]

end Lane

/-- Settles O22: BRK and TRAP deliver their cause, HINT only goes on, or hands the thread to the save engine. -/
theorem breakpointsTrapsAndHints : Obligations.BreakpointsTrapsAndHints := by
  intro s g code plive range live t th
  refine ⟨fun h ha hh => ?brk, fun h ha hh => ?trap, fun h hr hg => ⟨fun hgo => ?goesOn, fun hh hs hc hn => ?saves⟩⟩
  case brk => exact (run_lone h _).trans (by rw [softTrap_delivers h.thread ha hh]; rfl)
  case trap => exact (run_lone h _).trans (by rw [softTrap_delivers h.thread ha hh]; rfl)
  case goesOn => exact (run_lone h _).trans (by rw [hint_goesOn h.thread hr hg hgo])
  case saves => exact (run_lone h _).trans (by rw [hint_saves h.thread hr hg hh hs hc hn])

end Sys2Proof.Machine
end

section
/-! The join unit: what each of its operations does to a group, and the completions that Release sends (R156 to R162). -/

namespace Sys2Proof.Machine

open Sys2Proof Sys2Proof.Safety

/-! ### A join's words in a group (R157) -/

section Words
variable {x : Group} {n m : Nat} {v : Word}

@[simp] theorem Group.arrOf_setMask (x : Group) (n m : Nat) (v : Word) : (x.setMask n v).arrOf m = x.arrOf m := rfl
@[simp] theorem Group.maskOf_setArr (x : Group) (n m : Nat) (v : Word) : (x.setArr n v).maskOf m = x.maskOf m := rfl

theorem Group.maskOf_setMask_self (h : n < x.mask.length) : (x.setMask n v).maskOf n = v := getAt_setAt_self h
theorem Group.arrOf_setArr_self (h : n < x.arr.length) : (x.setArr n v).arrOf n = v := getAt_setAt_self h
theorem Group.maskOf_setMask_other (h : m ≠ n) : (x.setMask n v).maskOf m = x.maskOf m := getAt_setAt_other h
theorem Group.arrOf_setArr_other (h : m ≠ n) : (x.setArr n v).arrOf m = x.arrOf m := getAt_setAt_other h

/-- Between two values of a group only the two words of join `n` differ. -/
def Group.DiffersAt (n : Nat) (x y : Group) : Prop :=
  y.live = x.live ∧ ∀ m, m ≠ n → y.maskOf m = x.maskOf m ∧ y.arrOf m = x.arrOf m

theorem Group.DiffersAt.trans {y z : Group} (h1 : Group.DiffersAt n x y) (h2 : Group.DiffersAt n y z) : Group.DiffersAt n x z := by
  obtain ⟨hlive1, hother1⟩ := h1
  obtain ⟨hlive2, hother2⟩ := h2
  exact ⟨hlive2.trans hlive1, fun m hm => ⟨(hother2 m hm).1.trans (hother1 m hm).1, (hother2 m hm).2.trans (hother1 m hm).2⟩⟩

theorem Group.differsAt_setMask (x : Group) (n : Nat) (v : Word) : Group.DiffersAt n x (x.setMask n v) :=
  ⟨rfl, fun _ hm => ⟨Group.maskOf_setMask_other hm, rfl⟩⟩

theorem Group.differsAt_setArr (x : Group) (n : Nat) (v : Word) : Group.DiffersAt n x (x.setArr n v) :=
  ⟨rfl, fun _ hm => ⟨rfl, Group.arrOf_setArr_other hm⟩⟩

/-- The group with lanes taken out of a join. -/
def Group.leave (x : Group) (n : Nat) (lanes : Word) : Group :=
  (x.setMask n (x.maskOf n &&& ~~~lanes)).setArr n (x.arrOf n &&& ~~~lanes)

theorem Group.maskOf_leave_self (h : n < x.mask.length) : (x.leave n v).maskOf n = x.maskOf n &&& ~~~v := Group.maskOf_setMask_self h

theorem Group.arrOf_leave_self (h : n < x.arr.length) : (x.leave n v).arrOf n = x.arrOf n &&& ~~~v :=
  Group.arrOf_setArr_self (x := x.setMask n _) h

theorem Group.length_arr_leave (x : Group) (n : Nat) (v : Word) : (x.leave n v).arr.length = x.arr.length := length_setAt x.arr n _

theorem Group.differsAt_leave (x : Group) (n : Nat) (v : Word) : Group.DiffersAt n x (x.leave n v) :=
  (Group.differsAt_setMask x n _).trans (Group.differsAt_setArr _ n _)

/-- The group after the re-evaluation of a join: ARR is 0 when the join is satisfied with an arrival. -/
def Group.settle (x : Group) (n : Nat) : Group := if x.arrOf n ≠ 0 ∧ x.maskOf n &&& ~~~(x.arrOf n) = 0 then x.setArr n 0 else x

theorem Group.maskOf_settle (x : Group) (n : Nat) : (x.settle n).maskOf n = x.maskOf n := by
  unfold Group.settle
  split <;> rfl

theorem Group.arrOf_settle (h : n < x.arr.length) : (x.settle n).arrOf n =
    if x.arrOf n ≠ 0 ∧ x.maskOf n &&& ~~~(x.arrOf n) = 0 then 0 else x.arrOf n := by
  unfold Group.settle
  split
  · exact Group.arrOf_setArr_self h
  · rfl

theorem Group.differsAt_settle (x : Group) (n : Nat) : Group.DiffersAt n x (x.settle n) := by
  unfold Group.settle
  split
  · exact Group.differsAt_setArr x n 0
  · exact ⟨rfl, fun _ _ => ⟨rfl, rfl⟩⟩

end Words

/-! ### A group of a team that is there -/

section Groups
variable {s : State} {c g k grp : Nat}

/-- Group `grp` is one of a team that is there. -/
def State.HasGroup (s : State) (c g k grp : Nat) : Prop := ∃ tm, s.team? c g k = some tm ∧ grp < tm.groups.length

theorem groupOf_congr {s' : State} (h : s'.teams = s.teams) : s'.groupOf c g k grp = s.groupOf c g k grp := by
  unfold State.groupOf State.team?
  rw [h]

theorem groupOf_of_team? {tm : Team} (h : s.team? c g k = some tm) : s.groupOf c g k grp = tm.group grp := by
  rw [State.groupOf, h]

theorem team?_modGroup (s : State) (c g k grp : Nat) (f : Group → Group) : (s.modGroup c g k grp f).team? c g k =
    (s.team? c g k).map fun tm => { tm with groups := setAt tm.groups grp (f (tm.group grp)) } :=
  team?_modTeam_self fun _ => ⟨rfl, rfl, rfl⟩

theorem State.HasGroup.modGroup (h : s.HasGroup c g k grp) (f : Group → Group) : (s.modGroup c g k grp f).HasGroup c g k grp := by
  obtain ⟨tm, ht, hg⟩ := h
  refine ⟨_, (team?_modGroup s c g k grp f).trans (congrArg _ ht), ?_⟩
  simpa using hg

theorem groupOf_modGroup (h : s.HasGroup c g k grp) (f : Group → Group) :
    (s.modGroup c g k grp f).groupOf c g k grp = f (s.groupOf c g k grp) := by
  obtain ⟨tm, ht, hg⟩ := h
  simp only [State.groupOf, team?_modGroup, ht, Option.map_some]
  exact getAt_setAt_self hg

end Groups

/-! ### Lanes in their order -/

theorem lanesOf_eq_range (w : Word) : lanesOf w = (List.range 32).filter fun l => w.getLsbD l := by
  simp [lanesOf, seqFrom_map]

/-- The lanes of `a` outside `v`. -/
theorem lanesOf_and_not (a v : Word) : lanesOf (a &&& ~~~v) = (List.range 32).filter fun l => a.getLsbD l && !v.getLsbD l := by
  rw [lanesOf_eq_range]
  refine List.filter_congr fun l hl => ?_
  rw [BitVec.getLsbD_and, BitVec.getLsbD_not, decide_eq_true (List.mem_range.mp hl), Bool.true_and]

theorem byLane_last {t : Tid} {l : List Tid} (h : ∀ x ∈ l, ¬ Tid.lane t < Tid.lane x) : byLane t l = l ++ [t] := by
  induction l with
  | nil => rfl
  | cons x l ih =>
    rw [byLane, if_neg (h x List.mem_cons_self), ih fun y hy => h y (List.mem_cons_of_mem x hy)]
    rfl

theorem foldl_byLane_ascending {l acc : List Tid} (h : (acc ++ l).Pairwise fun a b => Tid.lane a < Tid.lane b) :
    l.foldl (fun l t => byLane t l) acc = acc ++ l := by
  induction l generalizing acc with
  | nil => exact (List.append_nil acc).symm
  | cons t l ih =>
    obtain ⟨-, -, hcross⟩ := List.pairwise_append.mp h
    have hlast : ∀ x ∈ acc, ¬ Tid.lane t < Tid.lane x := fun x hx => Nat.lt_asymm (hcross x hx t List.mem_cons_self)
    rw [List.append_cons] at h
    rw [List.foldl_cons, byLane_last hlast, ih h, ← List.append_cons]

theorem sortLanes_of_ascending {l : List Tid} (h : l.Pairwise fun a b => Tid.lane a < Tid.lane b) : sortLanes l = l :=
  foldl_byLane_ascending (acc := []) h

theorem lanes_ascending (c g k grp : Nat) (p : Nat → Bool) (q : Tid → Bool) :
    ((((List.range 32).filter p).map (Tid.thr c g k grp)).filter q).Pairwise fun a b => Tid.lane a < Tid.lane b :=
  ((List.pairwise_map (f := Tid.thr c g k grp) (R := fun a b => Tid.lane a < Tid.lane b)).mpr (List.pairwise_lt_range.filter p)).filter q

/-! ### Release (R160, R167) -/

/-- The thread waits at join `n`, and no completion is on its way to it. -/
def State.waitsAt (s : State) (n : Nat) (t : Tid) : Bool :=
  match s.thread? t with
  | some th => match th.wait with
    | .join j _ => j == n && th.awaits
    | _ => false
  | none => false

/-- The completion of a release set. -/
def releaseOf (set : Nat) (t : Tid) : Completion := { t, xs := [], p := none, cause := none, set := some set }

/-- A handler at join `n` has its release marked (R167). -/
def Thread.markReleased (n : Nat) (th : Thread) : Thread :=
  match th.h.join with
  | some (j, a, _) => if j = n then { th with h := { th.h with join := some (j, a, true) } } else th
  | none => th

/-- A release, if there is anybody to release. -/
def State.releaseAny (s : State) : List Tid → State
  | [] => s
  | l => s.release l

theorem foldl_modThread_keeps {α : Type} (p : State → α) (hp : ∀ s t f, p (State.modThread s t f) = p s) (f : Thread → Thread)
    (ts : List Tid) (s : State) : p (ts.foldl (fun s t => s.modThread t f) s) = p s := by
  induction ts generalizing s with
  | nil => rfl
  | cons t ts ih => exact (ih (s.modThread t f)).trans (hp s t f)

/-- Waking threads is no more than a change of threads. -/
theorem foldl_wake_keeps {α : Type} (p : State → α) (hp : ∀ s t f, p (State.modThread s t f) = p s) (ts : List Tid) (s : State) :
    p (ts.foldl State.wake s) = p s :=
  foldl_modThread_keeps p hp (fun th => { th with woken := true }) ts s

theorem releaseAny_teams (s : State) (ts : List Tid) : (s.releaseAny ts).teams = s.teams := by
  cases ts with
  | nil => rfl
  | cons t ts => exact foldl_wake_keeps State.teams (fun _ _ _ => rfl) (t :: ts) s

/-- The completions of a release go out in the order of their lanes. -/
theorem releaseAny_compl (s : State) (ts : List Tid) :
    (s.releaseAny ts).compl = s.compl ++ (sortLanes ts).map (releaseOf s.nextSeq) := by
  cases ts with
  | nil => exact (List.append_nil _).symm
  | cons t ts =>
    rw [← foldl_wake_keeps State.compl (fun _ _ _ => rfl) (t :: ts) s, ← foldl_wake_keeps State.nextSeq (fun _ _ _ => rfl) (t :: ts) s]
    rfl

theorem joinRelease_eq (s : State) (c g k grp n : Nat) (v : Word) : s.joinRelease c g k grp n v =
    let ts := (lanesOf ((s.groupOf c g k grp).arrOf n &&& ~~~v)).map (Tid.thr c g k grp)
    (ts.foldl (fun s x => s.modThread x (Thread.markReleased n)) (s.modGroup c g k grp fun x => x.setArr n 0)).releaseAny
      (ts.filter (s.waitsAt n)) := rfl

/-- The threads that Release(n, `v`) sends a completion to: the lanes of ARR outside `v` that wait, ascending. -/
def State.releasedFrom (s : State) (c g k grp n : Nat) (v : Word) : List Tid :=
  (((List.range 32).filter fun l => ((s.groupOf c g k grp).arrOf n).getLsbD l && !v.getLsbD l).map (Tid.thr c g k grp)).filter (s.waitsAt n)

theorem joinRelease_teams (s : State) (c g k grp n : Nat) (v : Word) :
    (s.joinRelease c g k grp n v).teams = (s.modGroup c g k grp fun x => x.setArr n 0).teams :=
  (releaseAny_teams _ _).trans (foldl_modThread_keeps State.teams (fun _ _ _ => rfl) (Thread.markReleased n) _ _)

/-- Release sends its completions as one release set. -/
theorem joinRelease_compl (s : State) (c g k grp n : Nat) (v : Word) :
    (s.joinRelease c g k grp n v).compl = s.compl ++ (s.releasedFrom c g k grp n v).map (releaseOf s.nextSeq) := by
  rw [joinRelease_eq, lanesOf_and_not, releaseAny_compl, sortLanes_of_ascending (lanes_ascending ..),
    foldl_modThread_keeps State.compl fun _ _ _ => rfl, foldl_modThread_keeps State.nextSeq fun _ _ _ => rfl]
  rfl

/-! ### The operations on the group (R158 to R161) -/

section Operations
variable {s : State} {c g k grp : Nat}

theorem groupOf_joinRelease (h : s.HasGroup c g k grp) (n : Nat) (v : Word) :
    (s.joinRelease c g k grp n v).groupOf c g k grp = (s.groupOf c g k grp).setArr n 0 :=
  (groupOf_congr (joinRelease_teams s c g k grp n v)).trans (groupOf_modGroup h _)

theorem groupOf_joinCheck (h : s.HasGroup c g k grp) (n : Nat) :
    (s.joinCheck c g k grp n).groupOf c g k grp = (s.groupOf c g k grp).settle n := by
  unfold State.joinCheck Group.settle
  by_cases hx : (s.groupOf c g k grp).arrOf n ≠ 0 ∧ (s.groupOf c g k grp).maskOf n &&& ~~~((s.groupOf c g k grp).arrOf n) = 0
  · rw [if_pos hx, if_pos (by simpa [Group.satisfied] using hx), groupOf_joinRelease h]
  · rw [if_neg hx, if_neg (by simpa [Group.satisfied] using hx)]

theorem groupOf_joinSet (h : s.HasGroup c g k grp) (n : Nat) (v : Word) : (s.joinSet c g k grp n v).groupOf c g k grp =
    ((s.groupOf c g k grp).setMask n (v &&& (s.groupOf c g k grp).live)).settle n := by
  rw [State.joinSet, groupOf_joinCheck (h.modGroup _), groupOf_modGroup h]

theorem groupOf_joinLeave (h : s.HasGroup c g k grp) (n : Nat) (v : Word) :
    (s.joinLeave c g k grp n v).groupOf c g k grp = ((s.groupOf c g k grp).leave n v).settle n := by
  rw [State.joinLeave, groupOf_joinCheck (h.modGroup _), groupOf_modGroup h]
  rfl

theorem groupOf_joinArrive (h : s.HasGroup c g k grp) (n : Nat) (v : Word) : (s.joinArrive c g k grp n v).1.groupOf c g k grp =
    (s.groupOf c g k grp).setArr n ((s.groupOf c g k grp).arrOf n ||| (v &&& (s.groupOf c g k grp).maskOf n)) :=
  groupOf_modGroup h _

theorem joinArrive_satisfied (s : State) (c g k grp n : Nat) (v : Word) : (s.joinArrive c g k grp n v).2.2 =
    (v &&& (s.groupOf c g k grp).maskOf n != 0 && ((s.joinArrive c g k grp n v).1.groupOf c g k grp).satisfied n) := rfl

end Operations

/-- Settles O20: each operation by what it leaves in the group; Release by its completions too. -/
theorem joinUnitOperations : Obligations.JoinUnitOperations := by
  intro s c g k grp n v tm ht hg hmask harr x waits same
  have h : s.HasGroup c g k grp := ⟨tm, ht, hg⟩
  rw [← show x = tm.group grp from groupOf_of_team? ht] at hmask harr
  have hsame {s' : State} (h : Group.DiffersAt n x (s'.groupOf c g k grp)) : same s' := h
  refine ⟨?set, ?leave, ?arrive, ?release⟩
  case set =>
    have hgroup : (s.joinSet c g k grp n v).groupOf c g k grp = (x.setMask n (v &&& x.live)).settle n := groupOf_joinSet h n v
    refine ⟨?_, ?_, hsame ?_⟩ <;> rw [hgroup]
    · rw [Group.maskOf_settle, Group.maskOf_setMask_self hmask]
    · rw [Group.arrOf_settle (x := x.setMask n _) harr, Group.maskOf_setMask_self hmask, Group.arrOf_setMask]
    · exact (Group.differsAt_setMask x n _).trans (Group.differsAt_settle _ n)
  case leave =>
    have hgroup : (s.joinLeave c g k grp n v).groupOf c g k grp = (x.leave n v).settle n := groupOf_joinLeave h n v
    refine ⟨?_, ?_, hsame ?_⟩ <;> rw [hgroup]
    · rw [Group.maskOf_settle, Group.maskOf_leave_self hmask]
    · rw [Group.arrOf_settle (by rwa [Group.length_arr_leave]), Group.maskOf_leave_self hmask, Group.arrOf_leave_self harr]
      by_cases hnone : x.arrOf n &&& ~~~v = 0
      · simp [hnone]
      · exact if_congr (and_iff_right hnone) rfl rfl
    · exact (Group.differsAt_leave x n v).trans (Group.differsAt_settle _ n)
  case arrive =>
    have hgroup : (s.joinArrive c g k grp n v).1.groupOf c g k grp = x.setArr n (x.arrOf n ||| (v &&& x.maskOf n)) := groupOf_joinArrive h n v
    refine ⟨?_, ?_, hsame ?_, rfl, ?_⟩
    · rw [hgroup, Group.maskOf_setArr]
    · rw [hgroup, Group.arrOf_setArr_self harr]
    · rw [hgroup]
      exact Group.differsAt_setArr x n _
    · rw [joinArrive_satisfied, hgroup, Group.satisfied, Group.maskOf_setArr, Group.arrOf_setArr_self harr]
      exact Bool.eq_iff_iff.mpr (by simp [x])
  case release =>
    have hgroup : (s.joinRelease c g k grp n v).groupOf c g k grp = x.setArr n 0 := groupOf_joinRelease h n v
    refine ⟨?_, ?_, hsame ?_, ?_⟩
    · rw [hgroup, Group.maskOf_setArr]
    · rw [hgroup, Group.arrOf_setArr_self harr]
    · rw [hgroup]
      exact Group.differsAt_setArr x n 0
    · have hwaits : s.waitsAt n = waits := by
        funext t
        unfold State.waitsAt waits
        cases s.thread? t with
        | none => rfl
        | some th => cases hw : th.wait <;> simp [Thread.awaits, hw, Bool.and_assoc]
      rw [joinRelease_compl, State.releasedFrom, hwaits]
      rfl

end Sys2Proof.Machine
end

section
/-! JSET, JLEAVE, JWAIT and EXIT of one thread outside regions (R158, R159, R161, R164). -/

namespace Sys2Proof.Machine

open Sys2Proof Sys2Proof.Safety

/-! ### One lane as a word -/

theorem laneBit_eq_twoPow (l : Nat) : laneBit l = BitVec.twoPow 32 l := by
  apply BitVec.eq_of_toNat_eq
  simp [laneBit, BitVec.toNat_twoPow]

/-- One lane's part of a mask. -/
theorem laneBit_and (l : Nat) (w : Word) : laneBit l &&& w = if w.getLsbD l = true then laneBit l else 0 := by
  rw [laneBit_eq_twoPow]
  exact BitVec.twoPow_and w l

theorem getLsbD_laneBit_self {l : Nat} (h : l < 32) : (laneBit l).getLsbD l = true := by
  rw [laneBit_eq_twoPow, BitVec.getLsbD_twoPow]
  simp [h]

theorem lanesOfTids_lone (t : Tid) : lanesOfTids [t] = laneBit (Tid.lane t) := BitVec.zero_or

/-! ### A set of one thread -/

section Lone
variable {s : State} {t : Tid} {th : Thread}

theorem runSets_lone {i : Instr} (h : Lone s i t th) (f : State → List Tid → State) :
    (s.runAll i fun s ts => (s.setsOf false ts).foldl f s) = .next (f s [t]) := runAll_lone h _

theorem keepIf_lone {f : State → Tid → State × Bool} (h : f s t = (s, true)) : s.keepIf f [t] = (s, [t]) := by
  simp [State.keepIf, h]

theorem regsOf_quiet (ht : s.thread? t = some th) (q : Quiet th) (shadow : Bool) : s.regsOf shadow t = th.regs := by
  rcases q.shadow with h | h <;> simp [State.regsOf, ht, h]

theorem sameSet_quiet {i : Instr} (h : Lone s i t th) (q : Quiet th) (g : Guard) : s.sameSet g [t] = true := by
  simp [State.sameSet, h.issue, regsOf_quiet h.thread q]

theorem hasRegion_quiet (ht : s.thread? t = some th) (q : Quiet th) : s.hasRegion t = false := by
  simp [State.hasRegion, ht, quiet_region q]

theorem settleRegions_quiet (ht : s.thread? t = some th) (q : Quiet th) : s.settleRegions t = (s, true) := by
  simp [State.settleRegions, ht, q.regions]

theorem keepIf_mismatch_quiet (ht : s.thread? t = some th) (q : Quiet th) {same : Bool} (h : same = true) :
    s.keepIf (fun s t => ((s.mismatch t same 0).1, !(s.mismatch t same 0).2)) [t] = (s, [t]) := by
  subst h
  exact keepIf_lone (by rw [mismatch_quiet ht q]; rfl)

end Lone

section Joins
variable {s : State} {c g k grp l : Nat} {th : Thread} {gd : Guard} {j : JReg}

/-! ### JSET and JLEAVE (R158, R161) -/

theorem joinAct_quiet (ht : s.thread? (.thr c g k grp l) = some th) (q : Quiet th) (e : Eff)
    (act : State → Nat → Nat → Nat → Nat → Word → State) :
    s.joinAct [.thr c g k grp l] e act = (act s c g k grp (laneBit l)).advance (.thr c g k grp l) := by
  simp [State.joinAct, hasRegion_quiet ht q, groupKey, lanesOfTids_lone, Tid.lane]

/-- The leading value of JSET; a quiet thread's shadow has the same. -/
theorem jsetValue_quiet {t : Tid} (ht : s.thread? t = some th) (q : Quiet th) (v : JVal) :
    jsetValue v s true [t] = jsetValue v s false [t] := by
  cases v <;> simp [jsetValue, regsOf_quiet ht q]

theorem execJset_quiet {v : JVal} (h : Lone s (.jset gd j v) (.thr c g k grp l) th) (q : Quiet th) : exec (.jset gd j v) s =
    .next ((s.joinSet c g k grp j.toNat (jsetValue v s false [.thr c g k grp l])).advance (.thr c g k grp l)) := by
  refine (runSets_lone h _).trans (congrArg Host.Outcome.next ?_)
  dsimp only
  rw [keepIf_mismatch_quiet h.thread q (by simp [jsetValue_quiet h.thread q, sameSet_quiet h q])]
  exact joinAct_quiet h.thread q _ _

theorem execJleave_quiet (h : Lone s (.jleave gd j) (.thr c g k grp l) th) (q : Quiet th) : exec (.jleave gd j) s =
    .next ((s.joinLeave c g k grp j.toNat (laneBit l)).advance (.thr c g k grp l)) := by
  refine (runSets_lone h _).trans (congrArg Host.Outcome.next ?_)
  dsimp only
  rw [keepIf_mismatch_quiet h.thread q (sameSet_quiet h q gd)]
  exact joinAct_quiet h.thread q _ _

/-! ### JWAIT (R159, R160) -/

theorem joinReady_quiet {t : Tid} (ht : s.thread? t = some th) (q : Quiet th) (mask : Word) : s.joinReady true mask t = (s, true) := by
  simp [State.joinReady, ht, quiet_ahead q, mismatch_quiet ht q, settleRegions_quiet ht q]

theorem keepIf_joinReady_quiet {t : Tid} (ht : s.thread? t = some th) (q : Quiet th) (c g k grp n : Nat) :
    s.keepIf (fun s t => s.joinReady true ((s.groupOf c g k grp).maskOf n) t) [t] = (s, [t]) :=
  keepIf_lone (joinReady_quiet ht q _)

section Wait
variable {n : Nat}

/-- A lane outside MASK does not arrive, and satisfies nothing. -/
theorem joinArrive_outside (hm : ((s.groupOf c g k grp).maskOf n).getLsbD l = false) :
    (s.joinArrive c g k grp n (laneBit l)).2 = (0, false) := by
  simp [State.joinArrive, laneBit_and, hm]

theorem joinArrive_inside (hl : l < 32) (hm : ((s.groupOf c g k grp).maskOf n).getLsbD l = true) :
    (s.joinArrive c g k grp n (laneBit l)).2.1.getLsbD l = true := by
  simp [State.joinArrive, laneBit_and, hm, getLsbD_laneBit_self hl]

theorem thread?_joinArrive (s : State) (c g k grp n : Nat) (w : Word) (t : Tid) :
    (s.joinArrive c g k grp n w).1.thread? t = s.thread? t := rfl

theorem joinWait_outside (ht : s.thread? (.thr c g k grp l) = some th) (q : Quiet th)
    (hm : ((s.groupOf c g k grp).maskOf n).getLsbD l = false) : s.joinWait n true [.thr c g k grp l] =
    (s.joinArrive c g k grp n (laneBit l)).1.advance (.thr c g k grp l) := by
  simp [State.joinWait, groupKey, keepIf_joinReady_quiet ht q, lanesOfTids_lone, Tid.lane, joinArrive_outside hm]

/-- The last lane of a join releases the others and goes on itself. -/
theorem joinWait_satisfies (ht : s.thread? (.thr c g k grp l) = some th) (q : Quiet th) (hsat : (s.joinArrive c g k grp n (laneBit l)).2.2 = true)
    (hc : th.core = th.home) : s.joinWait n true [.thr c g k grp l] =
    ((s.joinArrive c g k grp n (laneBit l)).1.joinRelease c g k grp n (laneBit l)).advance (.thr c g k grp l) := by
  simp [State.joinWait, groupKey, keepIf_joinReady_quiet ht q, lanesOfTids_lone, Tid.lane, hsat, thread?_joinArrive, ht, hc]

/-- Any other lane of a join that has arrived parks. -/
theorem joinWait_parks (ht : s.thread? (.thr c g k grp l) = some th) (q : Quiet th) (hl : l < 32)
    (hm : ((s.groupOf c g k grp).maskOf n).getLsbD l = true) (hsat : (s.joinArrive c g k grp n (laneBit l)).2.2 = false) :
    s.joinWait n true [.thr c g k grp l] = (s.joinArrive c g k grp n (laneBit l)).1.joinPark n (.thr c g k grp l) := by
  simp [State.joinWait, groupKey, keepIf_joinReady_quiet ht q, lanesOfTids_lone, Tid.lane, hsat, joinArrive_inside hl hm]

theorem covered_modGroup (s : State) (c g k grp l : Nat) (f : Group → Group) :
    (s.modGroup c g k grp f).covered (.thr c g k grp l) = s.covered (.thr c g k grp l) := by
  simp only [State.covered, team?_modGroup]
  cases s.team? c g k <;> rfl

theorem standing_joinArrive (hid : th.id = .thr c g k grp l) (w : Word) : (s.joinArrive c g k grp n w).1.standing th = s.standing th := by
  unfold State.standing
  rw [hid]
  rfl

/-- An arrival has no say in whether a record may be written. -/
theorem mayPark_joinArrive {live : List Nat} (mp : MayPark s (.thr c g k grp l) th live) (w : Word) :
    MayPark (s.joinArrive c g k grp n w).1 (.thr c g k grp l) th live :=
  { mp with room := mp.room, calm := (covered_modGroup s c g k grp l _).trans mp.calm }

theorem mayEnd_of_mayPark {t : Tid} {live : List Nat} (mp : MayPark s t th live) : MayEnd s t th live :=
  ⟨mp.quiet, .inr ⟨mp.count, mp.room, mp.calm⟩⟩

theorem joinPark_parks (ht : s.thread? (.thr c g k grp l) = some th) (mp : MayPark s (.thr c g k grp l) th (s.standing th)) :
    s.joinPark n (.thr c g k grp l) = s.park (.thr c g k grp l) (successor th.pc) (s.standing th) (.join n th.pc) 1 [] none := by
  have hplace : th.inPlace = false := by simp [Thread.inPlace, mp.team, mp.handler]
  have hroom : s.makeRoom th.core = some s := if_pos mp.room
  simp [State.joinPark, ht, groupKey, hplace, hroom, endSegment_ok ht (mayEnd_of_mayPark mp), succ_successor]

end Wait

theorem execJwait_quiet (h : Lone s (.jwait gd j) (.thr c g k grp l) th) (q : Quiet th) :
    exec (.jwait gd j) s = .next (s.joinWait j.toNat true [.thr c g k grp l]) :=
  (runSets_lone h _).trans (by rw [sameSet_quiet h q])

/-! ### EXIT (R164) -/

theorem exitReady_quiet {t : Tid} (ht : s.thread? t = some th) (q : Quiet th) : s.exitReady t = (s, true) := by
  simp [State.exitReady, State.commitClose, ht, quiet_ahead q, q.regions]

theorem execExit_quiet (h : Lone s (.exit gd) (.thr c g k grp l) th) (q : Quiet th) :
    exec (.exit gd) s = .next ((s.joinExit c g k grp (laneBit l)).endThread (.thr c g k grp l)) := by
  refine (runSets_lone h _).trans (congrArg Host.Outcome.next ?_)
  simp [State.exitSet, keepIf_lone (exitReady_quiet h.thread q), groupKey, lanesOfTids_lone, Tid.lane]

end Joins

/-- Settles O21: each instruction as the join unit's operation of its lane; JWAIT by whether its lane is in MASK and whether it is the last. -/
theorem joinInstructionsOfOneLane : Obligations.JoinInstructionsOfOneLane := by
  intro s gd j m a c g k grp l th t x bit n q
  refine ⟨fun h => ?issue, fun h => execJset_quiet h q, fun h => ?reg, fun h => execJleave_quiet h q,
    fun h _ hm => ⟨?outside, ?none⟩, fun h hl hm hsat hc => ?satisfies, fun h hl hm hsat mp => ?parks, fun h => execExit_quiet h q⟩
  case issue => exact (execJset_quiet h q).trans (by rw [jsetValue, lanesOfTids_lone]; rfl)
  case reg => exact (execJset_quiet h q).trans (by rw [jsetValue, regsOf_quiet h.thread q])
  case outside => exact (execJwait_quiet h q).trans (congrArg Host.Outcome.next (joinWait_outside h.thread q hm))
  case none => exact (laneBit_and l _).trans (if_neg (by rw [hm]; exact Bool.false_ne_true))
  case satisfies => exact (execJwait_quiet h q).trans (congrArg Host.Outcome.next (joinWait_satisfies h.thread q hsat hc))
  case parks =>
    have hstand : (s.joinArrive c g k grp n bit).1.standing th = s.standing th := standing_joinArrive (thread?_id h.thread) bit
    have hpark := joinPark_parks (n := n) (s := (s.joinArrive c g k grp n bit).1) h.thread (hstand ▸ mayPark_joinArrive mp bit)
    rw [hstand] at hpark
    exact (execJwait_quiet h q).trans (congrArg Host.Outcome.next ((joinWait_parks h.thread q hl hm hsat).trans hpark))

end Sys2Proof.Machine
end

section
/-! Integer sums and products: what the model's adders and multipliers give as numbers (R178, R179, R180). -/

namespace Sys2Proof.Machine

open Sys2Proof Sys2Proof.Safety

/-- An instruction with one 32-bit result, the value in the statement's terms. -/
theorem computes_put32 {i : Instr} {d : XReg} {f' f : Regs → Word}
    (h : ∀ s, exec i s = s.run i fun s t => s.compute (put32 d f') t) (hf : ∀ r, f' r = f r) : Computes i fun r => r.set32 d (f r) :=
  computes_of h fun r => congrArg (fun v => (r.set32 d v, 0)) (hf r)

/-! ### Sums and differences as numbers -/

theorem sub_eq_ofInt (x y : Word) : x - y = BitVec.ofInt 32 (x.toNat - y.toNat) := by
  apply BitVec.eq_of_toNat_eq
  rw [BitVec.toNat_sub, BitVec.toNat_ofInt]
  omega

theorem mul_eq_ofNat (x y : Word) : x * y = BitVec.ofNat 32 (x.toNat * y.toNat) :=
  BitVec.eq_of_toNat_eq (by simp)

theorem mul_add_eq_ofNat (x y z : Word) : x * y + z = BitVec.ofNat 32 (x.toNat * y.toNat + z.toNat) :=
  BitVec.eq_of_toNat_eq (by simp)

theorem clampInt_eq_min_max {lo hi : Int} (h : lo ≤ hi) (v : Int) : clampInt lo hi v = min (max v lo) hi := by
  unfold clampInt
  split
  case isTrue hlo => omega
  case isFalse hlo => split <;> omega

theorem satS32_eq (t : Int) : satS32 t = BitVec.ofInt 32 (min (max t (-2 ^ 31)) (2 ^ 31 - 1)) :=
  congrArg (BitVec.ofInt 32) (clampInt_eq_min_max (by decide) t)

/-- Unsigned saturation from above. -/
theorem satU32_natCast (n : Nat) : satU32 n = BitVec.ofNat 32 (min n (2 ^ 32 - 1)) := by
  rw [satU32, clampInt_eq_min_max (by decide), ← BitVec.ofInt_natCast]
  congr 1
  omega

/-- Unsigned saturation from below: a difference that would be negative is the difference of natural numbers, 0. -/
theorem satU32_sub (x y : Word) : satU32 (x.toNat - y.toNat) = BitVec.ofNat 32 (x.toNat - y.toNat) := by
  have hx := x.isLt
  rw [satU32, clampInt_eq_min_max (by decide), ← BitVec.ofInt_natCast]
  congr 1
  omega

/-! ### Carry and borrow (R178, R179) -/

theorem addCarry_false (x y : Word) : (addCarry x y false).2 = decide (2 ^ 32 ≤ x.toNat + y.toNat) := rfl

theorem subBorrow_snd (x y : Word) (c : Bool) : (subBorrow x y c).2 = decide (x.toNat < y.toNat + c.toNat) :=
  decide_eq_decide.mpr (by omega)

/-! ### Products (R180) -/

/-- Bits 63 to 32 of a product, taken before or after it is cut to 64 bits. -/
theorem imulhRes_eq (sg : Sign) (x y : Word) : imulhRes sg x y = BitVec.ofInt 32 ((signA sg x * signB sg y) % 2 ^ 64 / 2 ^ 32) := by
  apply BitVec.eq_of_toNat_eq
  rw [imulhRes, BitVec.toNat_ofInt, BitVec.toNat_ofInt]
  generalize signA sg x * signB sg y = p
  omega

theorem imadwRes_eq (sg : Sign) (x y : Word) (z : DWord) :
    imadwRes sg x y z = BitVec.ofInt 64 ((signA sg x * signB sg y + z.toNat) % 2 ^ 64) := by
  apply BitVec.eq_of_toNat_eq
  rw [imadwRes, BitVec.toNat_ofInt, BitVec.toNat_ofInt]
  generalize signA sg x * signB sg y + z.toNat = p
  omega

/-- Settles O8: each instruction is a register instruction, and its value is the rule's number. -/
theorem sumsAndProducts : Obligations.SumsAndProducts := by
  refine ⟨fun g d a b c e => ⟨?add, ?addCarry, ?addSat, ?addUsat, ?sub, ?subCarry, ?subSat, ?subUsat, ?addc, ?subb⟩,
    fun g sg d a b c => ⟨?mul, ?mulh, ?mad, ?madw⟩⟩
  case add => exact computes_of (fun _ => rfl) fun r => by rw [iaddWrite, BitVec.add_def]
  case addCarry => exact computes_of (fun _ => rfl) fun r => by rw [iaddWrite, BitVec.add_def, addCarry_false]
  case addSat => exact computes_of (fun _ => rfl) fun r => by rw [iaddWrite, satS32_eq]
  case addUsat => exact computes_of (fun _ => rfl) fun r => by rw [iaddWrite, ← Int.natCast_add, satU32_natCast]
  case sub => exact computes_of (fun _ => rfl) fun r => by rw [isubWrite, sub_eq_ofInt]
  case subCarry => exact computes_of (fun _ => rfl) fun r => by simp [isubWrite, sub_eq_ofInt, subBorrow_snd]
  case subSat => exact computes_of (fun _ => rfl) fun r => by rw [isubWrite, satS32_eq]
  case subUsat => exact computes_of (fun _ => rfl) fun r => by rw [isubWrite, satU32_sub]
  case addc => exact computes_of (fun _ => rfl) fun r => rfl
  case subb => exact computes_of (fun _ => rfl) fun r => by rw [isubbWrite, subBorrow_snd]; rfl
  case mul => exact computes_put32 (fun _ => rfl) fun r => mul_eq_ofNat _ _
  case mulh => exact computes_put32 (fun _ => rfl) fun r => imulhRes_eq sg _ _
  case mad => exact computes_put32 (fun _ => rfl) fun r => mul_add_eq_ofNat _ _ _
  case madw => exact computes_of (fun _ => rfl) fun r => by rw [imadwRes_eq]

end Sys2Proof.Machine
end

section
/-! Minima, logic, shifts, counts and bit fields (R182 to R187). -/

namespace Sys2Proof.Machine

open Sys2Proof Sys2Proof.Safety

/-! ### Minimum, maximum, absolute value (R182) -/

/-- Under each sign code one number is read from one word only, by either operand. -/
theorem eq_of_signA_eq_signB {sg : Sign} {x y : Word} (h : signA sg x = signB sg y) : x = y := by
  cases sg with
  | s => exact BitVec.eq_of_toInt_eq h
  | u => exact BitVec.eq_of_toNat_eq (Int.ofNat_inj.mp h)
  | su =>
    have h : x.toInt = y.toNat := h
    rw [← BitVec.ofInt_toInt (x := x), h, BitVec.ofInt_natCast, BitVec.ofNat_toNat, BitVec.setWidth_eq]

theorem iminRes_eq (sg : Sign) (x y : Word) : iminRes sg x y = if signA sg x ≤ signB sg y then x else y := by
  simp only [iminRes, ← not_le, ite_not]

theorem imaxRes_eq (sg : Sign) (x y : Word) : imaxRes sg x y = if signA sg x ≤ signB sg y then y else x := by
  rcases lt_trichotomy (signA sg x) (signB sg y) with h | h | h
  · rw [imaxRes, if_pos h, if_pos h.le]
  · rw [eq_of_signA_eq_signB h, imaxRes, ite_self, ite_self]
  · rw [imaxRes, if_neg h.not_gt, if_neg h.not_ge]

/-- The least number has no counterpart, and saturates; of every other the magnitude is below 2^31. -/
theorem iabsRes_true (x : Word) : iabsRes true x = BitVec.ofNat 32 (min x.toInt.natAbs (2 ^ 31 - 1)) := by
  by_cases h : x = 0x80000000
  · rw [h]
    rfl
  · have hx : x.toInt ≠ -2 ^ 31 := fun e => h (BitVec.eq_of_toInt_eq e)
    have hlo := BitVec.le_toInt x
    have hhi := BitVec.toInt_lt (x := x)
    rw [iabsRes, if_neg (fun e => h e.2), min_eq_left (by omega)]

/-! ### Shifts and rotation (R184, R185) -/

theorem shiftLeft_eq_ofNat (x : Word) (n : Nat) : x <<< n = BitVec.ofNat 32 (x.toNat * 2 ^ n) :=
  BitVec.eq_of_toNat_eq (by rw [BitVec.toNat_shiftLeft, Nat.shiftLeft_eq, BitVec.toNat_ofNat])

theorem ushiftRight_eq_ofNat (x : Word) (n : Nat) : x >>> n = BitVec.ofNat 32 (x.toNat / 2 ^ n) := by
  rw [← Nat.shiftRight_eq_div_pow, ← BitVec.toNat_ushiftRight, BitVec.ofNat_toNat, BitVec.setWidth_eq]

theorem shlRes_eq (wrap : Bool) (x y : Word) : shlRes wrap x y =
    if 32 ≤ shiftCount wrap y then 0 else BitVec.ofNat 32 (x.toNat * 2 ^ shiftCount wrap y) := by
  rw [shlRes, shiftLeft_eq_ofNat]

theorem shrRes_eq (wrap : Bool) (x y : Word) : shrRes wrap x y =
    if 32 ≤ shiftCount wrap y then 0 else BitVec.ofNat 32 (x.toNat / 2 ^ shiftCount wrap y) := by
  rw [shrRes, ushiftRight_eq_ofNat]

theorem sarRes_eq (wrap : Bool) (x y : Word) :
    sarRes wrap x y = BitVec.ofInt 32 (x.toInt / 2 ^ min (shiftCount wrap y) 32) := by
  rw [sarRes, BitVec.sshiftRight, Int.shiftRight_eq_div_pow]
  norm_cast

theorem rotlRes_eq (x y : Word) : rotlRes x y = (x <<< (y.toNat % 32)) ||| (x >>> (32 - y.toNat % 32)) := by
  rw [rotlRes, BitVec.rotateLeft_def, Nat.mod_mod]

theorem toNat_append_words (x y : Word) : (x ++ y : DWord).toNat = x.toNat * 2 ^ 32 + y.toNat := by
  rw [BitVec.toNat_append, ← Nat.shiftLeft_add_eq_or_of_lt y.isLt, Nat.shiftLeft_eq]

/-- The funnel's count: five bits of the operand, or the operand cut at 32 (R185). -/
def funnelCount (wrap : Bool) (y : Word) : Nat := if wrap = true then y.toNat % 32 else min y.toNat 32

theorem funnelRes_left (wrap : Bool) (x x2 y : Word) : funnelRes wrap false x x2 y =
    BitVec.ofNat 32 ((x.toNat * 2 ^ 32 + x2.toNat) * 2 ^ funnelCount wrap y % 2 ^ 64 / 2 ^ 32) := by
  apply BitVec.eq_of_toNat_eq
  show (((x ++ x2 : DWord) <<< funnelCount wrap y >>> 32).setWidth 32).toNat = _
  rw [BitVec.toNat_setWidth, BitVec.toNat_ushiftRight, BitVec.toNat_shiftLeft, toNat_append_words, Nat.shiftLeft_eq,
    Nat.shiftRight_eq_div_pow, BitVec.toNat_ofNat]

theorem funnelRes_right (wrap : Bool) (x x2 y : Word) : funnelRes wrap true x x2 y =
    BitVec.ofNat 32 ((x.toNat * 2 ^ 32 + x2.toNat) / 2 ^ funnelCount wrap y) := by
  apply BitVec.eq_of_toNat_eq
  show (((x ++ x2 : DWord) >>> funnelCount wrap y).setWidth 32).toNat = _
  rw [BitVec.toNat_setWidth, BitVec.toNat_ushiftRight, toNat_append_words, Nat.shiftRight_eq_div_pow, BitVec.toNat_ofNat]

/-! ### Counts and reversal (R186) -/

/-- A word of `k` bits begins with as many zeros as lie above its highest one. -/
theorem leadRun_false {x : Word} {k : Nat} (h : x.toNat < 2 ^ k) :
    leadRun x false k = if x = 0 then k else k - 1 - Nat.log2 x.toNat := by
  induction k with
  | zero => simp [leadRun]
  | succ k ih =>
    by_cases hk : x.toNat < 2 ^ k
    · have hbit : x.getLsbD k = false := Nat.testBit_lt_two_pow hk
      rw [leadRun, hbit, beq_self_eq_true, if_pos rfl, ih hk]
      by_cases h0 : x = 0
      · simp [h0]
      · have hn : x.toNat ≠ 0 := fun e => h0 (BitVec.eq_of_toNat_eq e)
        have := (Nat.log2_lt hn).mpr hk
        rw [if_neg h0, if_neg h0]
        omega
    · have hk : 2 ^ k ≤ x.toNat := Nat.le_of_not_lt hk
      have hbit : x.getLsbD k = true := Nat.testBit_of_two_pow_le_and_two_pow_add_one_gt hk h
      have hn : x.toNat ≠ 0 := Nat.ne_of_gt (Nat.lt_of_lt_of_le (Nat.two_pow_pos k) hk)
      have h0 : x ≠ 0 := fun e => hn (congrArg BitVec.toNat e)
      rw [leadRun, hbit, if_neg h0, (Nat.log2_eq_iff hn).mpr ⟨hk, h⟩]
      simp

/-- Leading ones are the leading zeros of the complement. -/
theorem leadRun_true (x : Word) {k : Nat} (h : k ≤ 32) : leadRun x true k = leadRun (~~~x) false k := by
  induction k with
  | zero => rfl
  | succ k ih =>
    rw [leadRun, leadRun, ih (Nat.le_of_succ_le h), BitVec.getLsbD_not, decide_eq_true (show k < 32 from h)]
    cases x.getLsbD k <;> rfl

theorem clzRes_false (x : Word) : clzRes false x = if x = 0 then 32 else BitVec.ofNat 32 (31 - Nat.log2 x.toNat) := by
  rw [clzRes, if_neg Bool.false_ne_true, leadRun_false x.isLt, apply_ite (BitVec.ofNat 32)]
  rfl

/-- The run of sign bits below bit 31 is the run of zeros of the word or its complement, whichever is below 2^31. -/
theorem clzRes_true (x : Word) : clzRes true x =
    if (if x.msb = true then ~~~x else x) = 0 then 31
    else BitVec.ofNat 32 (30 - Nat.log2 (if x.msb = true then ~~~x else x).toNat) := by
  have hrun : leadRun x x.msb 31 = leadRun (if x.msb = true then ~~~x else x) false 31 := by
    cases x.msb
    · rfl
    · exact leadRun_true x (by decide)
  have hlt : (if x.msb = true then ~~~x else x).toNat < 2 ^ 31 := by
    apply BitVec.toNat_lt_of_msb_false
    cases h : x.msb <;> simp [h]
  rw [clzRes, if_pos rfl, show x.getLsbD 31 = x.msb from (BitVec.msb_eq_getLsbD_last x).symm, hrun, leadRun_false hlt,
    apply_ite (BitVec.ofNat 32)]
  rfl

theorem popCount_eq_countP (v n : Nat) : popCount v n = (List.range n).countP fun i => v.testBit i := by
  induction n generalizing v with
  | zero => rfl
  | succ n ih =>
    rw [popCount, ih, List.range_succ_eq_map, List.countP_cons, List.countP_map, Nat.add_comm]
    congr 1
    · simp only [Function.comp_def, Nat.testBit_succ]
    · rcases Nat.mod_two_eq_zero_or_one v with h | h <;> simp [Nat.testBit_zero, h]

/-- The number whose bits are the lowest `n` bits of a word, highest first. -/
def reversedBits (x : Word) : Nat → Nat
  | 0 => 0
  | n + 1 => 2 * reversedBits x n + (x.getLsbD n).toNat

theorem foldl_bits (x : Word) (n : Nat) : (seqFrom 0 n).foldl (fun acc k => 2 * acc + (x.getLsbD k).toNat) 0 = reversedBits x n := by
  induction n with
  | zero => rfl
  | succ n ih => rw [seqFrom_succ_last, List.foldl_append, ih, Nat.zero_add]; rfl

theorem testBit_reversedBits (x : Word) (n i : Nat) : (reversedBits x n).testBit i = (decide (i < n) && x.getLsbD (n - 1 - i)) := by
  induction n generalizing i with
  | zero => simp [reversedBits]
  | succ n ih =>
    cases i with
    | zero => cases h : x.getLsbD n <;> simp [reversedBits, h]
    | succ i =>
      have hdiv : (2 * reversedBits x n + (x.getLsbD n).toNat) / 2 = reversedBits x n := by
        have := (x.getLsbD n).toNat_lt
        omega
      rw [reversedBits, Nat.testBit_succ, hdiv, ih]
      simp [Nat.sub_sub, Nat.add_comm]

theorem brevRes_eq_reverse (x : Word) : brevRes x = x.reverse := by
  apply BitVec.eq_of_getLsbD_eq
  intro i hi
  rw [brevRes, foldl_bits, BitVec.getLsbD_ofNat, testBit_reversedBits, BitVec.getLsbD_reverse, BitVec.getMsbD]
  simp [hi]

/-! ### Bit fields (R187) -/

theorem fieldOf_empty {y : Word} (h : y.toNat / 256 % 256 = 0 ∨ 32 ≤ y.toNat % 256) : fieldOf y = none := if_pos h

theorem fieldOf_some {y : Word} (h : ¬ (y.toNat / 256 % 256 = 0 ∨ 32 ≤ y.toNat % 256)) :
    fieldOf y = some (y.toNat % 256, min (y.toNat % 256 + y.toNat / 256 % 256) 32 - y.toNat % 256) := if_neg h

theorem bitsOf_eq_extractLsb' (x : Word) (k n : Nat) : bitsOf x.toNat k n = (x.extractLsb' k n).toNat := by
  rw [bitsOf, BitVec.extractLsb'_toNat, Nat.shiftRight_eq_div_pow]

/-- The two's-complement value of all the bits of a word is its signed value. -/
theorem signExtend_toNat {w : Nat} (x : BitVec w) : signExtend w x.toNat = x.toInt := by
  have hx : (x.toNat % 2 ^ w : Int) = x.toNat := by exact_mod_cast Nat.mod_eq_of_lt x.isLt
  have hhalf : x.toNat < 2 ^ (w - 1) ↔ 2 * x.toNat < 2 ^ w := by
    cases w with
    | zero => simp [BitVec.of_length_zero]
    | succ w => rw [Nat.add_sub_cancel, Nat.pow_succ]; omega
  rw [signExtend, hx, Nat.mod_eq_of_lt x.isLt, BitVec.toInt_eq_toNat_cond, Int.natCast_pow]
  simp only [hhalf]
  rfl

theorem bfxRes_eq (sg : Bool) (x y : Word) : bfxRes sg x y =
    if y.toNat / 256 % 256 = 0 ∨ 32 ≤ y.toNat % 256 then 0
    else
      let v := x.extractLsb' (y.toNat % 256) (min (y.toNat % 256 + y.toNat / 256 % 256) 32 - y.toNat % 256)
      if sg = true then v.signExtend 32 else v.setWidth 32 := by
  by_cases h : y.toNat / 256 % 256 = 0 ∨ 32 ≤ y.toNat % 256
  · rw [bfxRes, fieldOf_empty h, if_pos h]
  · rw [bfxRes, fieldOf_some h, if_neg h]
    simp only [bitsOf_eq_extractLsb', signExtend_toNat, BitVec.ofNat_toNat]
    rfl

theorem getLsbD_fieldMask (p w : Nat) {i : Nat} (hi : i < 32) :
    (BitVec.ofNat 32 (2 ^ w - 1) <<< p).getLsbD i = decide (p ≤ i ∧ i < p + w) := by
  rw [BitVec.getLsbD_shiftLeft, BitVec.getLsbD_ofNat, Nat.testBit_two_pow_sub_one]
  by_cases h : p ≤ i
  · simp [h, hi, Nat.lt_of_le_of_lt (Nat.sub_le i p) hi, Nat.sub_lt_iff_lt_add' h]
  · simp [h, Nat.lt_of_not_le h]

theorem getLsbD_bfiRes (x y z : Word) {i : Nat} (hi : i < 32) : (bfiRes x y z).getLsbD i =
    if y.toNat % 256 ≤ i ∧ i < y.toNat % 256 + y.toNat / 256 % 256 then x.getLsbD (i - y.toNat % 256) else z.getLsbD i := by
  by_cases h : y.toNat / 256 % 256 = 0 ∨ 32 ≤ y.toNat % 256
  · rw [bfiRes, fieldOf_empty h, if_neg (by omega)]
  · -- bit 31 cuts the field, and no bit of a word lies above it
    have hcut : (y.toNat % 256 ≤ i ∧ i < y.toNat % 256 + (min (y.toNat % 256 + y.toNat / 256 % 256) 32 - y.toNat % 256)) ↔
        y.toNat % 256 ≤ i ∧ i < y.toNat % 256 + y.toNat / 256 % 256 := by omega
    rw [bfiRes, fieldOf_some h]
    simp only [BitVec.getLsbD_or, BitVec.getLsbD_and, BitVec.getLsbD_not, getLsbD_fieldMask _ _ hi, BitVec.getLsbD_shiftLeft, hcut]
    by_cases hf : y.toNat % 256 ≤ i ∧ i < y.toNat % 256 + y.toNat / 256 % 256 <;> simp [hf, hi]

/-- Settles O9: each instruction is a register instruction with one result, and the result is the rule's. -/
theorem logicShiftsFields : Obligations.LogicShiftsFields := by
  refine ⟨fun g sg wrap d a a2 b => ⟨?min, ?max, ?abs, ?absSat, ?and, ?or, ?xor, ?andn, ?not, ?shl, ?shr, ?sar, ?rotl, ?left, ?right⟩,
    fun g d a b c => ⟨?clz, ?cls, ?popc, ?brev, ?bfxU, ?bfxS, ?bfi, fun x y z i hi => getLsbD_bfiRes x y z hi⟩⟩
  case min => exact computes_put32 (fun _ => rfl) fun r => iminRes_eq sg _ _
  case max => exact computes_put32 (fun _ => rfl) fun r => imaxRes_eq sg _ _
  case abs => exact computes_put32 (fun _ => rfl) fun r => rfl
  case absSat => exact computes_put32 (fun _ => rfl) fun r => iabsRes_true _
  case and | or | xor | andn | not | bfi => exact computes_put32 (fun _ => rfl) fun r => rfl
  case shl => exact computes_put32 (fun _ => rfl) fun r => shlRes_eq wrap _ _
  case shr => exact computes_put32 (fun _ => rfl) fun r => shrRes_eq wrap _ _
  case sar => exact computes_put32 (fun _ => rfl) fun r => sarRes_eq wrap _ _
  case rotl => exact computes_put32 (fun _ => rfl) fun r => rotlRes_eq _ _
  case left => exact computes_put32 (fun _ => rfl) fun r => funnelRes_left wrap _ _ _
  case right => exact computes_put32 (fun _ => rfl) fun r => funnelRes_right wrap _ _ _
  case clz => exact computes_put32 (fun _ => rfl) fun r => clzRes_false _
  case cls => exact computes_put32 (fun _ => rfl) fun r => clzRes_true _
  case popc => exact computes_put32 (fun _ => rfl) fun r => congrArg (BitVec.ofNat 32) (popCount_eq_countP _ 32)
  case brev => exact computes_put32 (fun _ => rfl) fun r => brevRes_eq_reverse _
  case bfxU => exact computes_put32 (fun _ => rfl) fun r => bfxRes_eq false _ _
  case bfxS => exact computes_put32 (fun _ => rfl) fun r => bfxRes_eq true _ _

end Sys2Proof.Machine
end

section
/-! Comparisons, moves, addresses and predicates (R188 to R194). -/

namespace Sys2Proof.Machine

open Sys2Proof Sys2Proof.Safety

/-! ### ISETP (R188) -/

/-- What ISETP compares: the unfolded test. -/
def isetpTest (u : Bool) (cond : Cond) (a : XReg) (b : Src) (r : Regs) : Bool :=
  if u then condTest cond (r.x32 a).toNat (b.val r).toNat else condTest cond (r.x32 a).toInt (b.val r).toInt

theorem computes_isetp {g : Guard} {u : Bool} {cond : Cond} {p e : PReg} {a : XReg} {b : Src} {k : Regs → Bool}
    (hk : ∀ r, isetpTest u cond a b r = k r) (fold : Fold) :
    Computes (.isetp g u fold cond p a b e) fun r => foldWrite fold (k r) r p e :=
  computes_of (fun _ => rfl) fun r => congrArg (fun v => (foldWrite fold v r p e, 0)) (hk r)

theorem condTest_ne (x y : Int) : condTest .ne x y = decide (x ≠ y) :=
  (decide_not (p := x = y)).symm

/-! ### P2X and X2P (R193) -/

theorem pr_ofNat (r : Regs) {n : Nat} (h : n < 64) : r.pr (BitVec.ofNat 6 n) = (n == 0 || r.p.getLsbD n) := by
  have hn : (BitVec.ofNat 6 n).toNat = n := Nat.mod_eq_of_lt h
  have h0 : (BitVec.ofNat 6 n == 0) = (n == 0) := by
    rw [Bool.eq_iff_iff, beq_iff_eq, beq_iff_eq, ← BitVec.toNat_inj, hn]
    rfl
  rw [Regs.pr, hn, h0]

theorem getLsbD_p2xVal (h : Bool) (r : Regs) {i : Nat} (hi : i < 32) :
    (p2xVal h r).getLsbD i = r.pr (BitVec.ofNat 6 (32 * h.toNat + i)) := by
  have hh := h.toNat_lt
  rw [pr_ofNat r (by omega)]
  cases h with
  | false =>
    show (r.p.setWidth 32 ||| 1#32).getLsbD i = _
    rw [BitVec.getLsbD_or, BitVec.getLsbD_setWidth, BitVec.getLsbD_one, Bool.or_comm]
    simp [hi, beq_eq_decide]
  | true =>
    show ((r.p >>> 32).setWidth 32).getLsbD i = _
    simp [hi]

/-- A word at the place of the half that H names. -/
def atHalf (h : Bool) (v : Word) : DWord := if h then v.setWidth 64 <<< 32 else v.setWidth 64

theorem getLsbD_atHalf (h : Bool) (v : Word) {i : Nat} (hi : i < 64) :
    (atHalf h v).getLsbD i = (decide (i / 32 = h.toNat) && v.getLsbD (i % 32)) := by
  cases h with
  | false =>
    show (v.setWidth 64).getLsbD i = _
    rw [BitVec.getLsbD_setWidth, decide_eq_true hi, Bool.true_and]
    by_cases hlow : i < 32
    · simp [Nat.div_eq_of_lt hlow, Nat.mod_eq_of_lt hlow]
    · have hhalf : i / 32 ≠ 0 := by omega
      simp [hhalf, BitVec.getLsbD_of_ge v i (Nat.le_of_not_lt hlow)]
  | true =>
    show (v.setWidth 64 <<< 32).getLsbD i = _
    rw [BitVec.getLsbD_shiftLeft, BitVec.getLsbD_setWidth, decide_eq_true hi, Bool.true_and]
    by_cases hlow : i < 32
    · simp [Nat.div_eq_of_lt hlow, hlow]
    · have hhalf : i / 32 = 1 := by omega
      have hmod : i % 32 = i - 32 := by omega
      simp [hhalf, hmod, hlow, Nat.lt_of_le_of_lt (Nat.sub_le i 32) hi]

/-- The predicates that X2P writes: those of its half whose mask bit is 1, P0 never among them. -/
def x2pMask (h : Bool) (mask : Word) : DWord := if h then atHalf h mask else atHalf h mask &&& ~~~1

theorem x2pWrite_fst (h : Bool) (a : XReg) (mask : Word) (r : Regs) : (x2pWrite h a mask r).1 =
    { r with p := (r.p &&& ~~~(x2pMask h mask)) ||| (atHalf h (r.x32 a) &&& x2pMask h mask) } := by
  cases h <;> simp [x2pWrite, x2pMask, atHalf]

theorem getLsbD_x2pMask (h : Bool) (mask : Word) {i : Nat} (hi : i < 64) :
    (x2pMask h mask).getLsbD i = (!(i == 0) && (decide (i / 32 = h.toNat) && mask.getLsbD (i % 32))) := by
  cases h with
  | false =>
    show (atHalf false mask &&& ~~~1#64).getLsbD i = _
    rw [BitVec.getLsbD_and, BitVec.getLsbD_not, BitVec.getLsbD_one, getLsbD_atHalf false mask hi, Bool.and_comm]
    simp [hi, beq_eq_decide]
  | true =>
    show (atHalf true mask).getLsbD i = _
    rw [getLsbD_atHalf true mask hi]
    cases i <;> simp

theorem pr_x2pWrite (h : Bool) (a : XReg) (mask : Word) (r : Regs) {i : Nat} (hi : i < 64) :
    (x2pWrite h a mask r).1.pr (BitVec.ofNat 6 i) =
      if i / 32 = h.toNat ∧ mask.getLsbD (i % 32) = true then i == 0 || (r.x32 a).getLsbD (i % 32) else r.pr (BitVec.ofNat 6 i) := by
  rw [pr_ofNat _ hi, pr_ofNat _ hi, x2pWrite_fst]
  simp only [BitVec.getLsbD_or, BitVec.getLsbD_and, BitVec.getLsbD_not, getLsbD_x2pMask h mask hi, getLsbD_atHalf h _ hi]
  by_cases hw : i / 32 = h.toNat ∧ mask.getLsbD (i % 32) = true
  · obtain ⟨hhalf, hm⟩ := hw
    cases i == 0 <;> simp [hhalf, hm, hi]
  · have hm : (decide (i / 32 = h.toNat) && mask.getLsbD (i % 32)) = false := by simpa using hw
    simp [hm, hi, hw]

/-- Settles O10: each instruction is a register instruction that writes the rule's value; P2X and X2P predicate by predicate. -/
theorem comparisonsMovesPredicates : Obligations.ComparisonsMovesPredicates := by
  refine ⟨fun g u cond p e q d a a2 b v n => ⟨?isetp, ?sel, ?mov, ?movImm, ?mov64, ?movImm64, ?lea32, ?lea64⟩,
    fun g tab h v p q1 q2 q3 d a mask n => ⟨?plop, ?p2x, ?x2p, ?psetImm, ?psetNz, ?psetBit⟩⟩
  case isetp =>
    intro k
    have hk (r : Regs) : isetpTest u cond a b r = k r := by
      cases cond with
      | ne => cases u <;> exact condTest_ne _ _
      | eq | lt | le | gt | ge => cases u <;> rfl
    exact ⟨computes_isetp hk .none, computes_isetp hk (.and q), computes_isetp hk (.or q), computes_isetp hk (.xor q)⟩
  case sel => exact computes_of (fun _ => rfl) fun r => congrArg (·, 0) (apply_ite (r.set32 d) ..)
  case mov | movImm | mov64 | movImm64 | lea32 | lea64 | plop | psetImm | psetNz | psetBit =>
    exact computes_of (fun _ => rfl) fun r => rfl
  case p2x => exact ⟨p2xVal h, computes_put32 (fun _ => rfl) fun r => rfl, fun r i hi => getLsbD_p2xVal h r hi⟩
  case x2p => exact ⟨fun r => (x2pWrite h a mask r).1, computes_of (fun _ => rfl) fun r => rfl,
    fun r => ⟨rfl, rfl, fun i hi => pr_x2pWrite h a mask r hi⟩⟩

end Sys2Proof.Machine
end

section
/-! Division and the special functions: the flag-setting operation that each starts (R181, R223, R229). -/

namespace Sys2Proof.Machine

open Sys2Proof Sys2Proof.Safety

/-- A flag-setting operation with one 32-bit result and no FPX bits, the value in the statement's terms. -/
theorem starts_word {i : Instr} {fs : Bool} {bound : Nat} {d : XReg} {f' f : Regs → Word}
    (h : ∀ s, exec i s = s.run i fun s t => s.startOp t fs bound fun r => laterF d (f' r, 0)) (hf : ∀ r, f' r = f r) :
    Starts i fs bound fun _ r => laterF d (f r, 0) := by
  obtain rfl : f' = f := funext hf
  exact starts_of h

/-! ### Quotient and remainder (R181) -/

theorem ofInt_signA (sg : Sign) (x : Word) : BitVec.ofInt 32 (signA sg x) = x := by
  cases sg with
  | u => exact (BitVec.ofInt_natCast 32 x.toNat).trans (by simp)
  | s | su => exact BitVec.ofInt_toInt

theorem ofInt_divRes_quotient (sg : Sign) (x y : Word) : BitVec.ofInt 32 (divRes sg x y).1 =
    if signB sg y = 0 then 0xFFFFFFFF else BitVec.ofInt 32 ((signA sg x).tdiv (signB sg y)) := by
  rw [divRes]
  split <;> rfl

theorem ofInt_divRes_remainder (sg : Sign) (x y : Word) : BitVec.ofInt 32 (divRes sg x y).2 =
    if signB sg y = 0 then x else BitVec.ofInt 32 ((signA sg x).tmod (signB sg y)) := by
  rw [divRes]
  split
  case isTrue => exact ofInt_signA sg x
  case isFalse => rw [Int.tmod_def]

/-- Settles O17: each instruction starts its operation; a division's result is R181's. -/
theorem specialFunctionsAndDivision : Obligations.SpecialFunctionsAndDivision := by
  intro g fs ftz u rm d a b x y sg
  have hx (r : Regs) : signA sg (r.x32 a) = x r := by cases u <;> rfl
  have hy (r : Regs) : signB sg (b.val r) = y r := by cases u <;> rfl
  refine ⟨?quotient, ?remainder, ?rcp, ?rsq, ?sqrt, ?exp2, ?log2, ?sin, ?cos, ?div⟩
  case quotient => exact starts_word (fun _ => rfl) fun r => (ofInt_divRes_quotient sg _ _).trans (by rw [hx, hy])
  case remainder => exact starts_word (fun _ => rfl) fun r => (ofInt_divRes_remainder sg _ _).trans (by rw [hx, hy])
  case rcp | rsq | sqrt | exp2 | log2 | sin | cos | div => exact starts_of fun _ => rfl

end Sys2Proof.Machine
end

section
/-! Rounding: the integer that R200 takes, the magnitude that a code stands for, overflow and the tiny results (R200, R201, R203). -/

namespace Sys2Proof.Machine

open Sys2Proof Sys2Proof.Safety

/-! ### Powers of two around a number -/

theorem dyadic_pos {m : Nat} (hm : m ≠ 0) (e : Int) : (0 : ℚ) < m * 2 ^ e :=
  mul_pos (Nat.cast_pos.mpr (Nat.pos_of_ne_zero hm)) (zpow_pos two_pos e)

/-- The exponent that R200 takes of m × 2^e. -/
theorem log_dyadic {m : Nat} (hm : m ≠ 0) (e : Int) : Int.log 2 ((m : ℚ) * 2 ^ e) = (Nat.log2 m : Int) + e := by
  have hlow : ((2 : ℕ) : ℚ) ^ ((Nat.log2 m : Int) + e) ≤ m * 2 ^ e := by
    rw [Nat.cast_ofNat, zpow_add₀ two_ne_zero, zpow_natCast]
    gcongr
    exact_mod_cast Nat.log2_self_le hm
  have hhigh : (m : ℚ) * 2 ^ e < ((2 : ℕ) : ℚ) ^ ((Nat.log2 m : Int) + e + 1) := by
    rw [Nat.cast_ofNat, add_right_comm, zpow_add₀ two_ne_zero, ← Nat.cast_succ, zpow_natCast]
    gcongr
    exact_mod_cast Nat.lt_log2_self
  have h1 := (Int.zpow_le_iff_le_log one_lt_two (dyadic_pos hm e)).mp hlow
  have h2 := (Int.lt_zpow_iff_log_lt one_lt_two (dyadic_pos hm e)).mp hhigh
  omega

theorem dyadic_lt_iff {m : Nat} (hm : m ≠ 0) (e k : Int) : (m : ℚ) * 2 ^ e < 2 ^ k ↔ (Nat.log2 m : Int) + e < k := by
  rw [← log_dyadic hm e]
  exact Int.lt_zpow_iff_log_lt one_lt_two (dyadic_pos hm e)

theorem le_dyadic_iff {m : Nat} (hm : m ≠ 0) (e k : Int) : (2 : ℚ) ^ k ≤ m * 2 ^ e ↔ k ≤ (Nat.log2 m : Int) + e := by
  rw [← log_dyadic hm e]
  exact Int.zpow_le_iff_le_log one_lt_two (dyadic_pos hm e)

/-! ### The integer of R200 -/

/-- `n` is `x` rounded to an integer in the mode, for a number of sign `neg` (Table 10.3). -/
def RoundedTo (rm : RM) (neg : Bool) (x : ℚ) (n : Nat) : Prop :=
  match rm with
  | .rne => |x - n| ≤ 1 / 2 ∧ (|x - n| = 1 / 2 → n % 2 = 0)
  | .rtz => (n : Int) = ⌊x⌋
  | .rup => (n : Int) = if neg = true then ⌊x⌋ else ⌈x⌉
  | .rdn => (n : Int) = if neg = true then ⌈x⌉ else ⌊x⌋

theorem RoundedTo.cases {rm : RM} {neg : Bool} {x : ℚ} {n : Nat} (h : RoundedTo rm neg x n) :
    |x - n| ≤ 1 / 2 ∨ (n : Int) = ⌊x⌋ ∨ (n : Int) = ⌈x⌉ := by
  cases rm with
  | rne => exact .inl h.1
  | rtz => exact .inr (.inl h)
  | rup => cases neg with
    | true => exact .inr (.inl h)
    | false => exact .inr (.inr h)
  | rdn => cases neg with
    | true => exact .inr (.inr h)
    | false => exact .inr (.inl h)

/-- No rounding passes an integer. -/
theorem RoundedTo.le_of_le {rm : RM} {neg : Bool} {x : ℚ} {n b : Nat} (h : RoundedTo rm neg x n) (hb : x ≤ b) : n ≤ b := by
  rcases h.cases with h | h | h
  · have hlt : (n : ℚ) < b + 1 := by linarith [(abs_le.mp h).1]
    exact Nat.lt_succ_iff.mp (by exact_mod_cast hlt)
  · have hle : (⌊x⌋ : ℚ) ≤ b := (Int.floor_le x).trans hb
    exact_mod_cast h ▸ (by exact_mod_cast hle : ⌊x⌋ ≤ (b : Int))
  · exact_mod_cast h ▸ Int.ceil_le.mpr (by exact_mod_cast hb : x ≤ ((b : Int) : ℚ))

theorem RoundedTo.ge_of_ge {rm : RM} {neg : Bool} {x : ℚ} {n b : Nat} (h : RoundedTo rm neg x n) (hb : b ≤ x) : b ≤ n := by
  rcases h.cases with h | h | h
  · have hlt : (b : ℚ) < n + 1 := by linarith [(abs_le.mp h).2]
    exact Nat.lt_succ_iff.mp (by exact_mod_cast hlt)
  · exact_mod_cast h ▸ Int.le_floor.mpr (by exact_mod_cast hb : ((b : Int) : ℚ) ≤ x)
  · have hle : (b : ℚ) ≤ ⌈x⌉ := hb.trans (Int.le_ceil x)
    exact_mod_cast h ▸ (by exact_mod_cast hle : (b : Int) ≤ ⌈x⌉)

theorem roundedTo_natCast (rm : RM) (neg : Bool) (n : Nat) : RoundedTo rm neg n n := by
  cases rm with
  | rne => simp [RoundedTo]
  | rtz => simp [RoundedTo]
  | rup | rdn => cases neg <;> simp [RoundedTo]

theorem roundedTo_below (neg : Bool) {n : Nat} {y : ℚ} (h0 : 0 ≤ y) (h : y < 1 / 2 ∨ y = 1 / 2 ∧ n % 2 = 0) : RoundedTo .rne neg (n + y) n := by
  have habs : |(n : ℚ) + y - n| = y := by rw [add_sub_cancel_left, abs_of_nonneg h0]
  rcases h with h | ⟨h, heven⟩
  · exact ⟨habs.trans_le h.le, fun htie => absurd (habs.symm.trans htie) h.ne⟩
  · exact ⟨habs.trans_le h.le, fun _ => heven⟩

theorem roundedTo_above (neg : Bool) {n : Nat} {y : ℚ} (h1 : y < 1) (h : 1 / 2 < y ∨ y = 1 / 2 ∧ n % 2 = 1) :
    RoundedTo .rne neg (n + y) (n + 1 : ℕ) := by
  have habs : |(n : ℚ) + y - (n + 1 : ℕ)| = 1 - y := by
    rw [Nat.cast_succ, add_sub_add_left_eq_sub, abs_of_neg (by linarith), neg_sub]
  rcases h with h | ⟨h, hodd⟩
  · exact ⟨habs.trans_le (by linarith), fun htie => absurd (habs.symm.trans htie) (by linarith)⟩
  · exact ⟨habs.trans_le (by linarith), fun _ => by omega⟩

section Quotient
variable {n rem half : Nat}

theorem floor_add_frac (hrem : rem < 2 * half) : ⌊(n : ℚ) + rem / (2 * half : ℕ)⌋ = n := by
  have hpos : (0 : ℚ) < (2 * half : ℕ) := by exact_mod_cast Nat.zero_lt_of_lt hrem
  rw [Int.floor_natCast_add, Int.floor_eq_zero_iff.mpr ⟨by positivity, (div_lt_one hpos).mpr (by exact_mod_cast hrem)⟩, add_zero]

theorem ceil_add_frac (hrem : rem < 2 * half) : ⌈(n : ℚ) + rem / (2 * half : ℕ)⌉ = if rem = 0 then (n : Int) else n + 1 := by
  have hpos : (0 : ℚ) < (2 * half : ℕ) := by exact_mod_cast Nat.zero_lt_of_lt hrem
  split
  case isTrue h => simp [h]
  case isFalse h =>
    have hr : (0 : ℚ) < rem := by exact_mod_cast Nat.pos_of_ne_zero h
    have hone : ⌈(rem : ℚ) / (2 * half : ℕ)⌉ = 1 :=
      Int.ceil_eq_iff.mpr ⟨by simpa using div_pos hr hpos, by exact_mod_cast ((div_lt_one hpos).mpr (by exact_mod_cast hrem)).le⟩
    rw [Int.ceil_natCast_add, hone]

/-- A tie goes to the even integer. -/
theorem roundedTo_nearest (neg : Bool) (hrem : rem < 2 * half) :
    RoundedTo .rne neg (n + rem / (2 * half : ℕ)) (if roundsUp .rne neg n rem half then n + 1 else n) := by
  have hhalf : (0 : ℚ) < half := by exact_mod_cast Nat.pos_of_mul_pos_left (Nat.zero_lt_of_lt hrem)
  have hpos : (0 : ℚ) < (2 * half : ℕ) := by push_cast; positivity
  have hone : (rem : ℚ) / (2 * half : ℕ) < 1 := (div_lt_one hpos).mpr (by exact_mod_cast hrem)
  rcases lt_trichotomy half rem with h | rfl | h
  · have hup : 1 / 2 < (rem : ℚ) / (2 * half : ℕ) := by
      rw [lt_div_iff₀ hpos]
      push_cast
      linarith [(by exact_mod_cast h : (half : ℚ) < rem)]
    simp only [roundsUp, h, decide_true, Bool.true_or, if_true]
    exact roundedTo_above neg hone (.inl hup)
  · have htie : (half : ℚ) / (2 * half : ℕ) = 1 / 2 := by
      push_cast
      field_simp
    simp only [roundsUp, lt_irrefl, decide_false, Bool.false_or, beq_self_eq_true, Bool.true_and, beq_iff_eq]
    split
    case isTrue hodd => exact roundedTo_above neg hone (.inr ⟨htie, hodd⟩)
    case isFalse heven => exact roundedTo_below neg (by positivity) (.inr ⟨htie, by omega⟩)
  · have hdown : (rem : ℚ) / (2 * half : ℕ) < 1 / 2 := by
      rw [div_lt_iff₀ hpos]
      push_cast
      linarith [(by exact_mod_cast h : (rem : ℚ) < half)]
    simp only [roundsUp, h.not_gt, beq_eq_false_iff_ne.mpr h.ne, decide_false, Bool.false_and, Bool.or_false, Bool.false_eq_true, if_false]
    exact roundedTo_below neg (by positivity) (.inl hdown)

theorem roundedTo_roundsUp (rm : RM) (neg : Bool) (hrem : rem < 2 * half) :
    RoundedTo rm neg (n + rem / (2 * half : ℕ)) (if roundsUp rm neg n rem half then n + 1 else n) := by
  cases rm with
  | rne => exact roundedTo_nearest neg hrem
  | rtz => exact (floor_add_frac hrem).symm
  | rup => cases neg with
    | true => exact (floor_add_frac hrem).symm
    | false => 
      simp only [RoundedTo, roundsUp, ceil_add_frac hrem]
      by_cases h : rem = 0 <;> simp [h]
  | rdn => cases neg with
    | true =>
      simp only [RoundedTo, roundsUp, ceil_add_frac hrem]
      by_cases h : rem = 0 <;> simp [h]
    | false => exact (floor_add_frac hrem).symm

/-- Nothing is lost exactly when there is no remainder. -/
theorem rounded_eq_iff (rm : RM) (neg : Bool) (hrem : rem < 2 * half) :
    ((if roundsUp rm neg n rem half then n + 1 else n : ℕ) : ℚ) = n + rem / (2 * half : ℕ) ↔ rem = 0 := by
  have hpos : (0 : ℚ) < (2 * half : ℕ) := by exact_mod_cast Nat.zero_lt_of_lt hrem
  have hone : (rem : ℚ) / (2 * half : ℕ) < 1 := (div_lt_one hpos).mpr (by exact_mod_cast hrem)
  have hr := roundedTo_roundsUp (n := n) rm neg hrem
  constructor
  · intro h
    split at h
    · rw [Nat.cast_succ, add_left_cancel_iff] at h
      exact absurd h.symm hone.ne
    · have h0 : (rem : ℚ) / (2 * half : ℕ) = 0 := left_eq_add.mp h
      exact_mod_cast (div_eq_zero_iff.mp h0).resolve_right hpos.ne'
  · rintro rfl
    rw [Nat.cast_zero, zero_div, add_zero] at hr ⊢
    exact congrArg Nat.cast ((hr.le_of_le le_rfl).antisymm (hr.ge_of_ge le_rfl))

end Quotient

theorem roundAt_of_le (rm : RM) (neg : Bool) (m : Nat) {e q : Int} (h : q ≤ e) : roundAt rm neg m e q = (m * 2 ^ (e - q).toNat, true) :=
  if_pos h

theorem roundAt_of_lt (rm : RM) (neg : Bool) (m : Nat) {e q : Int} (k : Nat) (h : (q - e).toNat = k + 1) :
    roundAt rm neg m e q = (if roundsUp rm neg (m / (2 * 2 ^ k)) (m % (2 * 2 ^ k)) (2 ^ k) then m / (2 * 2 ^ k) + 1 else m / (2 * 2 ^ k),
      m % (2 * 2 ^ k) == 0) := by
  rw [roundAt, if_neg (by omega), h, ← pow_succ']
  rfl

theorem dyadic_div_of_le (m : Nat) {e q : Int} (h : q ≤ e) : (m : ℚ) * 2 ^ e / 2 ^ q = (m * 2 ^ (e - q).toNat : ℕ) := by
  rw [mul_div_assoc, ← zpow_sub₀ two_ne_zero, Nat.cast_mul, Nat.cast_pow, ← zpow_natCast, Int.toNat_of_nonneg (by omega)]
  rfl

theorem dyadic_div_of_lt (m : Nat) {e q : Int} (k : Nat) (h : (q - e).toNat = k + 1) :
    (m : ℚ) * 2 ^ e / 2 ^ q = (m / (2 * 2 ^ k) : ℕ) + (m % (2 * 2 ^ k) : ℕ) / (2 * 2 ^ k : ℕ) := by
  have hpos : ((2 * 2 ^ k : ℕ) : ℚ) ≠ 0 := by exact_mod_cast (by positivity : 2 * 2 ^ k ≠ 0)
  have hpow : (2 : ℚ) ^ q = 2 ^ e * (2 * 2 ^ k : ℕ) := by
    rw [← pow_succ', ← h, Nat.cast_pow, ← zpow_natCast, Int.toNat_of_nonneg (by omega), Nat.cast_ofNat,
      ← zpow_add₀ two_ne_zero, add_sub_cancel]
  calc (m : ℚ) * 2 ^ e / 2 ^ q = m / (2 * 2 ^ k : ℕ) := by
        rw [hpow, mul_comm (m : ℚ), mul_div_mul_left _ _ (zpow_ne_zero e two_ne_zero)]
    _ = ((2 * 2 ^ k) * (m / (2 * 2 ^ k)) + m % (2 * 2 ^ k) : ℕ) / (2 * 2 ^ k : ℕ) := by rw [Nat.div_add_mod]
    _ = _ := by rw [Nat.cast_add, add_div, Nat.cast_mul, mul_div_cancel_left₀ _ hpos]

/-- The model's multiple of 2^q is m × 2^e ÷ 2^q rounded to an integer, and exact when nothing was lost. -/
theorem roundAt_spec (rm : RM) (neg : Bool) (m : Nat) (e q : Int) :
    RoundedTo rm neg (m * 2 ^ e / 2 ^ q) (roundAt rm neg m e q).1 ∧
    ((roundAt rm neg m e q).2 = true ↔ ((roundAt rm neg m e q).1 : ℚ) = m * 2 ^ e / 2 ^ q) := by
  by_cases hq : q ≤ e
  · rw [roundAt_of_le rm neg m hq, dyadic_div_of_le m hq]
    exact ⟨roundedTo_natCast rm neg _, fun _ => rfl, fun _ => rfl⟩
  · obtain ⟨k, hk⟩ : ∃ k : ℕ, (q - e).toNat = k + 1 := ⟨(q - e).toNat - 1, by omega⟩
    have hrem : m % (2 * 2 ^ k) < 2 * 2 ^ k := Nat.mod_lt m (by positivity)
    rw [roundAt_of_lt rm neg m k hk, dyadic_div_of_lt m k hk]
    exact ⟨roundedTo_roundsUp rm neg hrem, beq_iff_eq.trans (rounded_eq_iff rm neg hrem).symm⟩

/-! ### Codes and the magnitudes they stand for (R195, R200) -/

/-- The magnitude that a code of a format's exponent and fraction fields stands for, were every exponent a finite one. -/
def Fmt.magnitude (f : Fmt) (c : Nat) : ℚ :=
  (c - (c / 2 ^ f.p - 1) * 2 ^ f.p : ℕ) * 2 ^ (f.emin - f.p + (c / 2 ^ f.p - 1 : ℕ))

/-- `n` units of the exponent `i` above the smallest have the code that the steps of R200 add up, a carry into the next exponent included. -/
theorem Fmt.magnitude_units (f : Fmt) {n i : Nat} (hn : n ≤ 2 * 2 ^ f.p) (hi : i ≠ 0 → 2 ^ f.p ≤ n) :
    f.magnitude (n + i * 2 ^ f.p) = n * 2 ^ (f.emin - f.p + i) := by
  have hpos : 0 < 2 ^ f.p := by positivity
  rw [Fmt.magnitude, Nat.add_mul_div_right n i hpos]
  rcases Nat.lt_or_ge n (2 ^ f.p) with hlow | hhigh
  · obtain rfl : i = 0 := by_contra fun h => absurd (hi h) (Nat.not_le.mpr hlow)
    simp [Nat.div_eq_of_lt hlow]
  rcases Nat.lt_or_ge n (2 * 2 ^ f.p) with hmid | htop
  · have hdiv : n / 2 ^ f.p = 1 := Nat.div_eq_of_lt_le (by omega) (by omega)
    rw [hdiv, Nat.add_sub_cancel_left, Nat.add_sub_cancel]
  · obtain rfl : n = 2 * 2 ^ f.p := hn.antisymm htop
    rw [Nat.mul_div_cancel _ hpos, show 2 + i - 1 = i + 1 by omega, show 2 * 2 ^ f.p + i * 2 ^ f.p - (i + 1) * 2 ^ f.p = 2 ^ f.p by
      rw [← Nat.add_mul, ← Nat.sub_mul, show 2 + i - (i + 1) = 1 by omega, Nat.one_mul]]
    rw [Nat.cast_succ, ← add_assoc, zpow_add_one₀ two_ne_zero]
    push_cast
    ring

theorem Fmt.magnitude_lt_succ (f : Fmt) (c : Nat) : f.magnitude c < f.magnitude (c + 1) := by
  have hpos : 0 < 2 ^ f.p := by positivity
  obtain ⟨n, i, hc, hn, hi⟩ : ∃ n i, c = n + i * 2 ^ f.p ∧ n < 2 * 2 ^ f.p ∧ (i ≠ 0 → 2 ^ f.p ≤ n) := by
    rcases Nat.eq_zero_or_pos (c / 2 ^ f.p) with h0 | hq
    · have hlt := (Nat.div_eq_zero_iff_lt hpos).mp h0
      exact ⟨c, 0, by simp, by omega, fun h => absurd rfl h⟩
    · refine ⟨2 ^ f.p + c % 2 ^ f.p, c / 2 ^ f.p - 1, ?_, ?_, fun _ => Nat.le_add_right _ _⟩
      · conv_lhs => rw [← Nat.div_add_mod c (2 ^ f.p), ← Nat.sub_add_cancel hq]
        ring
      · have := Nat.mod_lt c hpos
        omega
  rw [hc, Nat.add_right_comm, f.magnitude_units hn.le hi, f.magnitude_units (by omega) fun h => (hi h).trans (Nat.le_succ n)]
  gcongr
  exact Nat.lt_succ_self n

theorem Fmt.magnitude_strictMono (f : Fmt) : StrictMono f.magnitude := strictMono_nat_of_lt_succ f.magnitude_lt_succ

/-- A format whose codes above the largest finite one begin with infinity (Table 10.1). -/
structure Fmt.Interchange (f : Fmt) : Prop where
  ieee : f.ieee = true
  fits : f.maxCode + 1 < 2 ^ (f.width - 1)
  whole : (f.maxCode + 1) % 2 ^ f.p = 0

theorem interchange_of_mem {f : Fmt} (h : f ∈ [fF32, fF16, fBF16]) : f.Interchange := by
  simp only [List.mem_cons, List.not_mem_nil, or_false] at h
  rcases h with rfl | rfl | rfl <;> exact ⟨rfl, by decide, by decide⟩

/-- A code beside its sign bit reads as the code with that sign. -/
theorem Fmt.read_signed (f : Fmt) (neg : Bool) {c : Nat} (h : c < 2 ^ (f.width - 1)) : f.read (f.sign neg + c) =
    if c > f.maxCode then
      if f.ieee ∧ c % 2 ^ f.p = 0 then .inf neg else .nan (f.ieee && c % 2 ^ f.p / 2 ^ (f.p - 1) == 0)
    else if c / 2 ^ f.p = 0 then .num neg (c % 2 ^ f.p) (f.emin - f.p)
    else .num neg (2 ^ f.p + c % 2 ^ f.p) ((c / 2 ^ f.p : ℕ) - f.bias - f.p) := by
  have hpos : 0 < 2 ^ (f.width - 1) := by positivity
  have hneg : ((f.sign neg + c) / 2 ^ (f.width - 1) % 2 == 1) = neg := by
    cases neg <;> simp [Fmt.sign, Nat.div_eq_of_lt h, hpos]
  have hcode : (f.sign neg + c) % 2 ^ (f.width - 1) = c := by
    cases neg <;> simp [Fmt.sign, Nat.mod_eq_of_lt h]
  simp only [Fmt.read, hneg, hcode]

theorem Fmt.read_inf {f : Fmt} (hf : f.Interchange) (neg : Bool) : f.read (f.sign neg + f.inf) = .inf neg := by
  rw [Fmt.inf, f.read_signed neg hf.fits, if_pos (Nat.lt_succ_self _), if_pos ⟨hf.ieee, hf.whole⟩]

theorem Fmt.read_finite {f : Fmt} (hf : f.Interchange) (neg : Bool) {c : Nat} (hc : c ≤ f.maxCode) :
    ∃ m e, f.read (f.sign neg + c) = .num neg m e ∧ (m : ℚ) * 2 ^ e = f.magnitude c := by
  have hlt : c < 2 ^ (f.width - 1) := (Nat.lt_succ_of_le hc).trans hf.fits
  rw [f.read_signed neg hlt, if_neg (Nat.not_lt.mpr hc)]
  by_cases h0 : c / 2 ^ f.p = 0
  · have hmod : c % 2 ^ f.p = c := Nat.mod_eq_of_lt ((Nat.div_eq_zero_iff_lt (by positivity)).mp h0)
    exact ⟨_, _, if_pos h0, by simp [Fmt.magnitude, h0, hmod]⟩
  · obtain ⟨i, hi⟩ := Nat.exists_eq_succ_of_ne_zero h0
    have hmant : 2 ^ f.p + c % 2 ^ f.p = c - i * 2 ^ f.p := by
      have hsplit := Nat.div_add_mod' c (2 ^ f.p)
      rw [hi, Nat.succ_mul] at hsplit
      omega
    refine ⟨_, _, if_neg h0, ?_⟩
    rw [Fmt.magnitude, hmant, hi, Nat.succ_eq_add_one, Nat.add_sub_cancel, Fmt.emin]
    congr 2
    push_cast
    ring

theorem Fmt.valueOf_read {f : Fmt} (hf : f.Interchange) (neg : Bool) {c : Nat} (hc : c ≤ f.maxCode) :
    isNum (f.read (f.sign neg + c)) = true ∧ (f.read (f.sign neg + c)).neg? = neg ∧
    valueOf (f.read (f.sign neg + c)) = (if neg = true then -1 else 1) * f.magnitude c := by
  obtain ⟨m, e, hread, hval⟩ := Fmt.read_finite hf neg hc
  rw [hread]
  exact ⟨rfl, rfl, by rw [← hval, ← mul_assoc]; rfl⟩

/-! ### One rounding (R200, R201) -/

/-- The unit of R200 for m × 2^e. -/
def Fmt.unitExp (f : Fmt) (m : Nat) (e : Int) : Int := max ((Nat.log2 m : Int) + e) f.emin - f.p

theorem roundCode_eq (f : Fmt) (rm : RM) (neg : Bool) (m : Nat) (e : Int) : roundCode f rm neg m e =
    ((roundAt rm neg m e (f.unitExp m e)).1 + (f.unitExp m e - (f.emin - f.p)).toNat * 2 ^ f.p,
      (roundAt rm neg m e (f.unitExp m e)).2, decide ((Nat.log2 m : Int) + e < f.emin)) := rfl

/-- The magnitude that the code of R200 stands for is the rounded number of units. -/
theorem roundCode_magnitude (f : Fmt) (rm : RM) (neg : Bool) {m : Nat} (hm : m ≠ 0) (e : Int) :
    f.magnitude (roundCode f rm neg m e).1 = (roundAt rm neg m e (f.unitExp m e)).1 * 2 ^ f.unitExp m e := by
  obtain ⟨hround, -⟩ := roundAt_spec rm neg m e (f.unitExp m e)
  have hpow : (0 : ℚ) < 2 ^ f.unitExp m e := zpow_pos two_pos _
  have hunit : f.unitExp m e = max ((Nat.log2 m : Int) + e) f.emin - f.p := rfl
  have hupper : (roundAt rm neg m e (f.unitExp m e)).1 ≤ 2 * 2 ^ f.p := by
    refine hround.le_of_le ((div_le_iff₀ hpow).mpr ?_)
    rw [← pow_succ', Nat.cast_pow, Nat.cast_ofNat, ← zpow_natCast, ← zpow_add₀ two_ne_zero]
    exact ((dyadic_lt_iff hm e _).mpr (by push_cast; omega)).le
  have hlower (hi : (f.unitExp m e - (f.emin - f.p)).toNat ≠ 0) : 2 ^ f.p ≤ (roundAt rm neg m e (f.unitExp m e)).1 := by
    refine hround.ge_of_ge ((le_div_iff₀ hpow).mpr ?_)
    rw [Nat.cast_pow, Nat.cast_ofNat, ← zpow_natCast, ← zpow_add₀ two_ne_zero]
    exact (le_dyadic_iff hm e _).mpr (by omega)
  rw [roundCode_eq, f.magnitude_units hupper hlower, Int.toNat_of_nonneg (by omega), add_sub_cancel]

/-- Without FTZ: overflow beyond the largest finite code, else the code with NX when it is inexact, UF when it is tiny too. -/
theorem roundNum_eq (f : Fmt) (rm : RM) (neg : Bool) {m : Nat} (hm : m ≠ 0) (e : Int) : f.roundNum rm false neg m e =
    if f.maxCode < (roundCode f rm neg m e).1 then (f.sign neg + overflowCode f rm neg, fpxOF ||| fpxNX)
    else (f.sign neg + (roundCode f rm neg m e).1,
      if (roundCode f rm neg m e).2.1 then 0 else if (roundCode f rm neg m e).2.2 then fpxNX ||| fpxUF else fpxNX) := by
  simp [Fmt.roundNum, hm]

/-- FTZ matters to a tiny result of FP32 alone (R203). -/
theorem roundNum_ftz (f : Fmt) (rm : RM) (neg : Bool) {m : Nat} (hm : m ≠ 0) (e : Int) : f.roundNum rm true neg m e =
    if f.width = 32 ∧ (m : ℚ) * 2 ^ e < 2 ^ f.emin then (f.sign neg, fpxUF ||| fpxNX) else f.roundNum rm false neg m e := by
  simp [Fmt.roundNum, hm, roundCode_eq, dyadic_lt_iff hm]

theorem read_overflow {f : Fmt} (hf : f.Interchange) (rm : RM) (neg : Bool) : f.read (f.sign neg + overflowCode f rm neg) =
    match rm with
    | .rne => .inf neg
    | .rtz => f.read (f.sign neg + f.maxCode)
    | .rup => if neg = true then f.read (f.sign neg + f.maxCode) else .inf neg
    | .rdn => if neg = true then .inf neg else f.read (f.sign neg + f.maxCode) := by
  cases rm with
  | rne => exact Fmt.read_inf hf neg
  | rtz => rfl
  | rup => cases neg with
    | true => rfl
    | false => exact Fmt.read_inf hf false
  | rdn => cases neg with
    | true => exact Fmt.read_inf hf true
    | false => rfl

/-- Settles O11: the code of R200 stands for the rounded number of units, and codes are in the order of their magnitudes. -/
theorem roundingFollowsExactSteps : Obligations.RoundingFollowsExactSteps := by
  intro f hmem rm neg m e hm v ex unit res
  have hf := interchange_of_mem hmem
  have hunit : unit = 2 ^ f.unitExp m e := by rw [Fmt.unitExp, ← log_dyadic hm e]; rfl
  have hpos : unit ≠ 0 := hunit ▸ zpow_ne_zero _ two_ne_zero
  obtain ⟨hround, hexact⟩ := roundAt_spec rm neg m e (f.unitExp m e)
  rw [← hunit, eq_div_iff hpos] at hexact
  have hmag := roundCode_magnitude f rm neg hm e
  rw [← hunit] at hround hmag
  refine ⟨_, hround, ?_⟩
  have hmax : valueOf (f.read f.maxCode) = f.magnitude f.maxCode := by
    simpa [Fmt.sign] using (Fmt.valueOf_read hf false le_rfl).2.2
  have hres : res = _ := roundNum_eq f rm neg hm e
  have hover : valueOf (f.read f.maxCode) < (roundAt rm neg m e (f.unitExp m e)).1 * unit ↔ f.maxCode < (roundCode f rm neg m e).1 := by
    rw [hmax, ← hmag, f.magnitude_strictMono.lt_iff_lt]
  by_cases hc : f.maxCode < (roundCode f rm neg m e).1
  · rw [if_pos (hover.mpr hc), hres, if_pos hc]
    exact ⟨rfl, read_overflow hf rm neg⟩
  · obtain ⟨hnum, hneg, hval⟩ := Fmt.valueOf_read hf neg (Nat.not_lt.mp hc)
    rw [if_neg (mt hover.mp hc), hres, if_neg hc]
    refine ⟨hnum, hneg, hmag ▸ hval, ?_⟩
    simp only [roundCode_eq, hexact, decide_eq_true_eq, ← dyadic_lt_iff hm]
    rfl

/-! ### FTZ (R203) -/

theorem FVal.flush_num (n : Bool) {m : Nat} (e : Int) :
    (FVal.num n m e).flush true = if m ≠ 0 ∧ (Nat.log2 m : Int) + e < -126 then .num n 0 e else .num n m e := by
  simp [FVal.flush]

theorem toNat_eq_sign_add (a : Word) : a.toNat = fF32.sign a.msb + a.toNat % 2 ^ 31 := by
  have hlt := a.isLt
  rw [BitVec.msb_eq_decide]
  by_cases h : 2 ^ 31 ≤ a.toNat
  · simp only [Fmt.sign, fF32, h, decide_true, if_true]
    omega
  · simp only [Fmt.sign, fF32, h, decide_false, Bool.false_eq_true, if_false]
    omega

/-- The value of an FP32 pattern by its exponent and fraction fields (R195, R196). -/
theorem read_fF32 {a : Word} {c : Nat} (hc : a.toNat % 2 ^ 31 = c) : fF32.read a.toNat =
      if 0x7F7FFFFF < c then if c % 2 ^ 23 = 0 then .inf a.msb else .nan (c % 2 ^ 23 / 2 ^ 22 == 0)
      else if c / 2 ^ 23 = 0 then .num a.msb (c % 2 ^ 23) (-149)
      else .num a.msb (2 ^ 23 + c % 2 ^ 23) ((c / 2 ^ 23 : ℕ) - 127 - 23) := by
  subst hc
  have hread := fF32.read_signed (c := a.toNat % 2 ^ 31) a.msb (Nat.mod_lt a.toNat (by decide))
  rw [← toNat_eq_sign_add] at hread
  simpa [fF32, Fmt.emin] using hread

/-- A code with the exponent field 0 is flushed unless it is a zero; any other number is at least 2^−126, and no infinity or NaN is a number. -/
theorem read32_flush (a : Word) : read32 true a =
    if 0 < a.toNat % 2 ^ 31 ∧ a.toNat % 2 ^ 31 < 2 ^ 23 then .num a.msb 0 (-149) else fF32.read a.toNat := by
  generalize hcode : a.toNat % 2 ^ 31 = c
  have hread := read_fF32 hcode
  rw [read32]
  rcases Nat.lt_or_ge c (2 ^ 23) with hsub | hnorm
  · rw [if_neg (by omega), if_pos (Nat.div_eq_of_lt hsub), Nat.mod_eq_of_lt hsub] at hread
    rw [hread, FVal.flush_num]
    rcases Nat.eq_zero_or_pos c with rfl | hc
    · rfl
    · have hlog := (Nat.log2_lt hc.ne').mpr hsub
      rw [if_pos ⟨hc.ne', by omega⟩, if_pos ⟨hc, hsub⟩]
  · rw [if_neg fun h => absurd h.2 (Nat.not_lt.mpr hnorm), hread]
    by_cases hspecial : 0x7F7FFFFF < c
    · rw [if_pos hspecial]
      split <;> rfl
    · have hexp : 1 ≤ c / 2 ^ 23 := (Nat.one_le_div_iff (by decide)).mpr hnorm
      have hlog : 23 ≤ Nat.log2 (2 ^ 23 + c % 2 ^ 23) := (Nat.le_log2 (by omega)).mpr (Nat.le_add_right _ _)
      rw [if_neg hspecial, if_neg (Nat.one_le_iff_ne_zero.mp hexp), FVal.flush_num, if_neg (by omega)]

/-- Settles O12: what flushing does to an operand, and to a result of each format. -/
theorem flushToZeroIsFp32Only : Obligations.FlushToZeroIsFp32Only := by
  refine ⟨read32_flush, fun rm neg m e hm => ⟨?_, ?_, ?_⟩⟩
  · rw [roundNum_ftz fF32 rm neg hm e]
    simp [fF32, Fmt.emin]
  · exact (roundNum_ftz fF16 rm neg hm e).trans (if_neg (by simp [fF16]))
  · exact (roundNum_ftz fBF16 rm neg hm e).trans (if_neg (by simp [fBF16]))

end Sys2Proof.Machine
end

section
/-! Sums and products of numbers, and the answers that no rounding enters: NaNs, invalid operations, a zero divisor (R200, R202, R213). -/

namespace Sys2Proof.Machine

open Sys2Proof Sys2Proof.Safety

/-! ### Signs and kinds of values -/

@[simp] theorem FVal.isNum_negate (x : FVal) : isNum x.negate = isNum x := by cases x <;> rfl
@[simp] theorem FVal.isNan_negate (x : FVal) : x.negate.isNan = x.isNan := by cases x <;> rfl
@[simp] theorem FVal.isSig_negate (x : FVal) : x.negate.isSig = x.isSig := by cases x <;> rfl

theorem FVal.valueOf_negate (x : FVal) : valueOf x.negate = -valueOf x := by
  cases x with
  | num n m e => cases n <;> simp [FVal.negate, valueOf]
  | inf n | nan s => exact neg_zero.symm

theorem exists_num_of_isNum {x : FVal} (h : isNum x = true) : ∃ n m e, x = .num n m e := by
  cases x with
  | num n m e => exact ⟨n, m, e, rfl⟩
  | inf n | nan s => cases h

theorem FVal.isNan_of_isNum {x : FVal} (h : isNum x = true) : x.isNan = false := by
  obtain ⟨n, m, e, rfl⟩ := exists_num_of_isNum h
  rfl

theorem FVal.isInf_of_isNum {x : FVal} (h : isNum x = true) : x.isInf = false := by
  obtain ⟨n, m, e, rfl⟩ := exists_num_of_isNum h
  rfl

theorem FVal.isSig_of_isNum {x : FVal} (h : isNum x = true) : x.isSig = false := by
  obtain ⟨n, m, e, rfl⟩ := exists_num_of_isNum h
  rfl

theorem FVal.sigBits_quiet {vs : List FVal} (h : ∀ v ∈ vs, v.isSig = false) : FVal.sigBits vs = 0 := by
  have hsig : vs.any FVal.isSig = false := List.any_eq_false.mpr fun v hv => by simp [h v hv]
  simp [FVal.sigBits, hsig]

/-- Numbers raise no NV. -/
theorem FVal.sigBits_nums {vs : List FVal} (h : ∀ v ∈ vs, isNum v = true) : FVal.sigBits vs = 0 :=
  FVal.sigBits_quiet fun v hv => FVal.isSig_of_isNum (h v hv)

/-! ### The last step: one rounding, or the canonical NaN -/

theorem finish_num (f : Fmt) (rm : RM) (ftz : Bool) {ops : List FVal} (h : ∀ v ∈ ops, isNum v = true) (n : Bool) (m : Nat) (e : Int) :
    finish f rm ftz ops (.num n m e, 0) = f.roundNum rm ftz n m e := by
  simp [finish, Fmt.round, FVal.sigBits_nums h]

theorem finish_nan (f : Fmt) (rm : RM) (ftz : Bool) (ops : List FVal) (s : Bool) (b : Fpx) :
    finish f rm ftz ops (.nan s, b) = (f.nan, b ||| FVal.sigBits ops) := by
  simp [finish, Fmt.round]

theorem finish_inf (f : Fmt) (rm : RM) (ftz : Bool) (ops : List FVal) (n : Bool) (b : Fpx) :
    finish f rm ftz ops (.inf n, b) = (f.sign n + f.inf, b ||| FVal.sigBits ops) := by
  simp [finish, Fmt.round]

/-! ### Exact sums -/

/-- A mantissa moved to a lower exponent keeps the value. -/
theorem mantAt_value (n : Bool) (m : Nat) {e q : Int} (h : q ≤ e) : (mantAt n m e q : ℚ) * 2 ^ q = valueOf (.num n m e) := by
  have hpow : (2 : ℚ) ^ (e - q).toNat * 2 ^ q = 2 ^ e := by
    rw [← zpow_natCast, Int.toNat_of_nonneg (by omega), ← zpow_add₀ two_ne_zero, sub_add_cancel]
  cases n <;> simp [mantAt, valueOf, mul_assoc, hpow]

theorem FVal.mant_value {v : FVal} {q : Int} (h : q ≤ v.expo) : (v.mant q : ℚ) * 2 ^ q = valueOf v := by
  cases v with
  | num n m e =>
    by_cases hm : m = 0
    · simp [FVal.mant, valueOf, hm]
    · simp only [FVal.expo, hm, if_false] at h
      simp only [FVal.mant, hm, if_false]
      exact mantAt_value n m h
  | inf n | nan s => exact (congrArg (· * _) Int.cast_zero).trans (zero_mul _)

theorem foldl_min_expo_le (vs : List FVal) (a : Int) :
    vs.foldl (fun a v => min a v.expo) a ≤ a ∧ ∀ v ∈ vs, vs.foldl (fun a v => min a v.expo) a ≤ v.expo := by
  induction vs generalizing a with
  | nil => simp
  | cons v vs ih =>
    obtain ⟨hle, hmem⟩ := ih (min a v.expo)
    refine ⟨hle.trans (min_le_left _ _), fun w hw => ?_⟩
    rcases List.mem_cons.mp hw with rfl | hw
    · exact hle.trans (min_le_right _ _)
    · exact hmem w hw

theorem foldl_mant_value (vs : List FVal) {q : Int} (h : ∀ v ∈ vs, q ≤ v.expo) (a : Int) :
    ((vs.foldl (fun a v => a + v.mant q) a : Int) : ℚ) * 2 ^ q = a * 2 ^ q + (vs.map valueOf).sum := by
  induction vs generalizing a with
  | nil => simp
  | cons v vs ih =>
    rw [List.foldl_cons, ih fun w hw => h w (List.mem_cons_of_mem _ hw), List.map_cons, List.sum_cons,
      ← FVal.mant_value (h v List.mem_cons_self), Int.cast_add]
    ring

theorem valueOf_signed (t q : Int) : valueOf (.num (decide (t < 0)) t.natAbs q) = t * 2 ^ q := by
  have habs : (t.natAbs : ℚ) = |(t : ℚ)| := by rw [Nat.cast_natAbs, Int.cast_abs]
  by_cases ht : t < 0
  · have hneg : (t : ℚ) < 0 := by exact_mod_cast ht
    simp [valueOf, ht, habs, abs_of_neg hneg]
  · have hpos : (0 : ℚ) ≤ t := by exact_mod_cast not_lt.mp ht
    simp [valueOf, ht, habs, abs_of_nonneg hpos]

/-- The sum of numbers is a number with the exact value; the sign of an exact zero is R200's. -/
theorem FVal.sum_nums (rm : RM) {vs : List FVal} (h : ∀ v ∈ vs, isNum v = true) : ∃ n m e,
    FVal.sum rm vs = (.num n m e, 0) ∧ valueOf (.num n m e) = (vs.map valueOf).sum ∧
    (m = 0 → n = (vs.all (fun v => v.isZero && v.neg?) || (!vs.all (fun v => v.isZero && !v.neg?) && rm == .rdn))) := by
  have hnan : vs.any FVal.isNan = false := List.any_eq_false.mpr fun v hv => by simp [FVal.isNan_of_isNum (h v hv)]
  have hinf : vs.any FVal.isInf = false := List.any_eq_false.mpr fun v hv => by simp [FVal.isInf_of_isNum (h v hv)]
  have hval := foldl_mant_value vs (foldl_min_expo_le vs 0).2 0
  simp only [Int.cast_zero, zero_mul, zero_add] at hval
  simp only [FVal.sum, hnan, hinf, Bool.false_eq_true, if_false]
  rw [← hval]
  generalize vs.foldl (fun a v => min a v.expo) 0 = q
  generalize vs.foldl (fun a v => a + v.mant q) 0 = t
  by_cases ht : t = 0
  · exact ⟨_, 0, 0, if_pos ht, by simp [valueOf, ht], fun _ => rfl⟩
  · exact ⟨_, _, q, if_neg ht, valueOf_signed t q, fun h0 => absurd (Int.natAbs_eq_zero.mp h0) ht⟩

/-! ### Sums and products rounded once (R213, R223) -/

theorem forall_mem_pair {p : FVal → Prop} {x y : FVal} (hx : p x) (hy : p y) : ∀ v ∈ [x, y], p v := by
  simp [hx, hy]

theorem addF_nums (f : Fmt) (rm : RM) (ftz : Bool) {x y : FVal} (hx : isNum x = true) (hy : isNum y = true) : ∃ n m e,
    addF f rm ftz x y = f.roundNum rm ftz n m e ∧ valueOf (.num n m e) = valueOf x + valueOf y ∧
    (m = 0 → n = (x.neg? && y.neg? && x.isZero && y.isZero || rm == .rdn && !(!x.neg? && !y.neg? && x.isZero && y.isZero))) := by
  obtain ⟨n, m, e, hsum, hval, hsign⟩ := FVal.sum_nums rm (forall_mem_pair hx hy)
  refine ⟨n, m, e, ?_, by simpa using hval, fun hm => (hsign hm).trans ?_⟩
  · rw [addF, hsum, finish_num f rm ftz (forall_mem_pair hx hy)]
  · simp only [List.all_cons, List.all_nil, Bool.and_true]
    ac_rfl

/-- The product of numbers is a number with the exact value, its sign the XOR of the signs. -/
theorem FVal.mul_nums {x y : FVal} (hx : isNum x = true) (hy : isNum y = true) : ∃ m e,
    x.mul y = (.num (x.neg? != y.neg?) m e, 0) ∧ valueOf (.num (x.neg? != y.neg?) m e) = valueOf x * valueOf y := by
  obtain ⟨n, m, e, rfl⟩ := exists_num_of_isNum hx
  obtain ⟨n', m', e', rfl⟩ := exists_num_of_isNum hy
  refine ⟨m * m', e + e', rfl, ?_⟩
  simp only [valueOf, FVal.neg?, Nat.cast_mul, zpow_add₀ (two_ne_zero (α := ℚ))]
  cases n <;> cases n' <;> simp <;> ring

theorem mulF_nums (f : Fmt) (rm : RM) (ftz : Bool) {x y : FVal} (hx : isNum x = true) (hy : isNum y = true) : ∃ m e,
    mulF f rm ftz x y = f.roundNum rm ftz (x.neg? != y.neg?) m e ∧
    valueOf (.num (x.neg? != y.neg?) m e) = valueOf x * valueOf y := by
  obtain ⟨m, e, hmul, hval⟩ := FVal.mul_nums hx hy
  exact ⟨m, e, by rw [mulF, hmul, finish_num f rm ftz (forall_mem_pair hx hy)], hval⟩

theorem fmaF_nums (f : Fmt) (rm : RM) (ftz : Bool) {x y z : FVal} (hx : isNum x = true) (hy : isNum y = true) (hz : isNum z = true) :
    ∃ n m e, fmaF f rm ftz x y z = f.roundNum rm ftz n m e ∧ valueOf (.num n m e) = valueOf x * valueOf y + valueOf z := by
  obtain ⟨m', e', hmul, hprod⟩ := FVal.mul_nums hx hy
  obtain ⟨n, m, e, hsum, hval, -⟩ := FVal.sum_nums (vs := [.num (x.neg? != y.neg?) m' e', z]) rm (forall_mem_pair rfl hz)
  refine ⟨n, m, e, ?_, ?_⟩
  · simp only [fmaF, hmul, hsum]
    exact finish_num f rm ftz (by simp [hx, hy, hz]) n m e
  · rw [hval, ← hprod]
    simp

/-- Settles O13: the exact sum or product is a number, and the last step rounds it once. -/
theorem sumsAndProductsRoundedOnce : Obligations.SumsAndProductsRoundedOnce := by
  intro rm ftz a b c x y z hx hy hz
  refine ⟨?add, ?sub, ?mul, ?fma⟩
  case add =>
    obtain ⟨n, m, e, hround, hval, hsign⟩ := addF_nums fF32 rm ftz hx hy
    exact ⟨n, m, e, congrArg res32 hround, hval, hsign⟩
  case sub =>
    obtain ⟨n, m, e, hround, hval, -⟩ := addF_nums fF32 rm ftz hx ((FVal.isNum_negate y).trans hy)
    exact ⟨n, m, e, congrArg res32 hround, by rw [hval, FVal.valueOf_negate, sub_eq_add_neg]⟩
  case mul =>
    obtain ⟨m, e, hround, hval⟩ := mulF_nums fF32 rm ftz hx hy
    exact ⟨_, m, e, congrArg res32 hround, hval, rfl⟩
  case fma =>
    obtain ⟨n, m, e, hround, hval⟩ := fmaF_nums fF32 rm ftz hx hy hz
    exact ⟨n, m, e, congrArg res32 hround, hval⟩

/-! ### NaNs, invalid operations, zero divisors (R202, R224, R229) -/

theorem exists_nan_of_isNan {x : FVal} (h : x.isNan = true) : ∃ s, x = .nan s := by
  cases x with
  | nan s => exact ⟨s, rfl⟩
  | num n m e | inf n => cases h

theorem exists_inf_of_isInf {x : FVal} (h : x.isInf = true) : ∃ n, x = .inf n := by
  cases x with
  | inf n => exact ⟨n, rfl⟩
  | num n m e | nan s => cases h

theorem exists_zero_of_isZero {x : FVal} (h : x.isZero = true) : ∃ n e, x = .num n 0 e := by
  cases x with
  | num n m e => exact ⟨n, e, by rw [eq_of_beq h]⟩
  | inf n | nan s => cases h

theorem FVal.sum_nan (rm : RM) {x y : FVal} (h : (x.isNan || y.isNan) = true) : FVal.sum rm [x, y] = (.nan false, 0) := by
  simp [FVal.sum, h]

theorem FVal.mul_nan {x y : FVal} (h : (x.isNan || y.isNan) = true) : x.mul y = (.nan false, 0) := by
  rcases (Bool.or_eq_true _ _).mp h with hx | hy
  · obtain ⟨s, rfl⟩ := exists_nan_of_isNan hx
    cases y <;> rfl
  · obtain ⟨s, rfl⟩ := exists_nan_of_isNan hy
    cases x <;> rfl

theorem FVal.div_nan {x y : FVal} (h : (x.isNan || y.isNan) = true) : x.div y = (.nan false, 0) := by
  rcases (Bool.or_eq_true _ _).mp h with hx | hy
  · obtain ⟨s, rfl⟩ := exists_nan_of_isNan hx
    cases y <;> rfl
  · obtain ⟨s, rfl⟩ := exists_nan_of_isNan hy
    cases x <;> rfl

theorem FVal.sigBits_pair (x y : FVal) : FVal.sigBits [x, y] = if (x.isSig || y.isSig) = true then fpxNV else 0 := by
  simp [FVal.sigBits]

/-- An operation that gives a NaN answers the canonical NaN of FP32; its FPX bits are its own and NV of a signalling operand. -/
theorem res32_finish_nan (rm : RM) (ftz : Bool) {ops : List FVal} {v : FVal × Fpx} {s : Bool} {b : Fpx} (h : v = (.nan s, b)) :
    res32 (finish fF32 rm ftz ops v) = (0x7FC00000, b ||| FVal.sigBits ops) := by
  rw [h, finish_nan]
  rfl

/-- A NaN operand of a pair: NV when one is signalling. -/
theorem res32_finish_nan_pair (rm : RM) (ftz : Bool) {x y : FVal} {v : FVal × Fpx} (h : v = (.nan false, 0)) :
    res32 (finish fF32 rm ftz [x, y] v) = (0x7FC00000, if (x.isSig || y.isSig) = true then fpxNV else 0) := by
  rw [res32_finish_nan rm ftz h, FVal.sigBits_pair]
  exact Prod.ext rfl BitVec.zero_or

theorem res32_finish_invalid (rm : RM) (ftz : Bool) {ops : List FVal} {v : FVal × Fpx} (h : v = (.nan false, fpxNV))
    (hops : ∀ w ∈ ops, w.isSig = false) : res32 (finish fF32 rm ftz ops v) = (0x7FC00000, fpxNV) := by
  rw [res32_finish_nan rm ftz h, FVal.sigBits_quiet hops]
  exact Prod.ext rfl BitVec.or_zero

theorem fmm32_nan (ftz mx : Bool) {a b : Word} (h : ((read32 ftz a).isNan || (read32 ftz b).isNan) = true) :
    fmm32 ftz mx a b = (0x7FC00000, if ((read32 ftz a).isSig || (read32 ftz b).isSig) = true then fpxNV else 0) := by
  rw [← FVal.sigBits_pair]
  exact congrArg res32 (if_pos h)

theorem FVal.isSig_of_isZero {x : FVal} (h : x.isZero = true) : x.isSig = false := by
  obtain ⟨n, e, rfl⟩ := exists_zero_of_isZero h
  rfl

theorem FVal.isSig_of_isInf {x : FVal} (h : x.isInf = true) : x.isSig = false := by
  obtain ⟨n, rfl⟩ := exists_inf_of_isInf h
  rfl

theorem FVal.sum_opposite_infs (rm : RM) (n : Bool) : FVal.sum rm [.inf n, .inf (!n)] = (.nan false, fpxNV) := by
  cases n <;> rfl

theorem FVal.mul_zero_inf {x y : FVal} (hx : x.isZero = true) (hy : y.isInf = true) :
    x.mul y = (.nan false, fpxNV) ∧ y.mul x = (.nan false, fpxNV) := by
  obtain ⟨n, e, rfl⟩ := exists_zero_of_isZero hx
  obtain ⟨k, rfl⟩ := exists_inf_of_isInf hy
  exact ⟨rfl, rfl⟩

theorem FVal.div_zeros {x y : FVal} (hx : x.isZero = true) (hy : y.isZero = true) : x.div y = (.nan false, fpxNV) := by
  obtain ⟨n, e, rfl⟩ := exists_zero_of_isZero hx
  obtain ⟨k, e', rfl⟩ := exists_zero_of_isZero hy
  rfl

theorem FVal.div_infs {x y : FVal} (hx : x.isInf = true) (hy : y.isInf = true) : x.div y = (.nan false, fpxNV) := by
  obtain ⟨n, rfl⟩ := exists_inf_of_isInf hx
  obtain ⟨k, rfl⟩ := exists_inf_of_isInf hy
  rfl

theorem FVal.div_by_zero {x y : FVal} (hx : isNum x = true) (hx0 : x.isZero = false) (hy : y.isZero = true) :
    x.div y = (.inf (x.neg? != y.neg?), fpxDZ) := by
  obtain ⟨n, m, e, rfl⟩ := exists_num_of_isNum hx
  obtain ⟨k, e', rfl⟩ := exists_zero_of_isZero hy
  have hm : m ≠ 0 := ne_of_beq_false hx0
  simp [FVal.div, FVal.neg?, hm]

theorem sqrtVal_negative {x : FVal} (hx : isNum x = true) (hx0 : x.isZero = false) (hneg : x.neg? = true) :
    sqrtVal x = (.nan false, fpxNV) := by
  obtain ⟨n, m, e, rfl⟩ := exists_num_of_isNum hx
  have hm : m ≠ 0 := ne_of_beq_false hx0
  have hn : n = true := hneg
  simp [sqrtVal, hm, hn]

/-- An infinity with no bits but those of its operation. -/
theorem res32_finish_inf (rm : RM) (ftz : Bool) {ops : List FVal} {v : FVal × Fpx} {n : Bool} {b : Fpx} (h : v = (.inf n, b))
    (hops : ∀ w ∈ ops, w.isSig = false) :
    res32 (finish fF32 rm ftz ops v) = (if n = true then 0xFF800000 else 0x7F800000, b) := by
  rw [h, finish_inf, FVal.sigBits_quiet hops]
  exact Prod.ext (by cases n <;> rfl) BitVec.or_zero

/-- Settles O14: what each operation gives on values, then the canonical NaN or the infinity that the last step writes. -/
theorem nansInvalidsAndZeroDivisors : Obligations.NansInvalidsAndZeroDivisors := by
  intro rm ftz mx a b x y sig
  refine ⟨fun hnan => ⟨?add, ?sub, ?mul, ?div, ?mm⟩, ?addInf, ?subInf, ?mulZeroInf, ?mulInfZero, ?divZeros, ?divInfs, ?divByZero, ?sqrt⟩
  case add => exact res32_finish_nan_pair rm ftz (FVal.sum_nan rm hnan)
  case sub =>
    have hnan' : (x.isNan || y.negate.isNan) = true := by rwa [FVal.isNan_negate]
    have h := res32_finish_nan_pair (x := x) (y := y.negate) rm ftz (FVal.sum_nan rm hnan')
    rwa [FVal.isSig_negate] at h
  case mul => exact res32_finish_nan_pair rm ftz (FVal.mul_nan hnan)
  case div => exact res32_finish_nan_pair rm ftz (FVal.div_nan hnan)
  case mm => exact fmm32_nan ftz mx hnan
  case addInf =>
    intro n hx hy
    have h := res32_finish_invalid (ops := [.inf n, .inf (!n)]) rm ftz (FVal.sum_opposite_infs rm n) (forall_mem_pair rfl rfl)
    rwa [← hx, ← hy] at h
  case subInf =>
    intro n hx hy
    have h := res32_finish_invalid (ops := [.inf n, .inf (!n)]) rm ftz (FVal.sum_opposite_infs rm n) (forall_mem_pair rfl rfl)
    rwa [← hx, show FVal.inf (!n) = y.negate by rw [hy]; rfl] at h
  case mulZeroInf =>
    intro hx hy
    exact res32_finish_invalid rm ftz (FVal.mul_zero_inf hx hy).1 (forall_mem_pair (FVal.isSig_of_isZero hx) (FVal.isSig_of_isInf hy))
  case mulInfZero =>
    intro hx hy
    exact res32_finish_invalid rm ftz (FVal.mul_zero_inf hy hx).2 (forall_mem_pair (FVal.isSig_of_isInf hx) (FVal.isSig_of_isZero hy))
  case divZeros =>
    intro hx hy
    exact res32_finish_invalid rm ftz (FVal.div_zeros hx hy) (forall_mem_pair (FVal.isSig_of_isZero hx) (FVal.isSig_of_isZero hy))
  case divInfs =>
    intro hx hy
    exact res32_finish_invalid rm ftz (FVal.div_infs hx hy) (forall_mem_pair (FVal.isSig_of_isInf hx) (FVal.isSig_of_isInf hy))
  case divByZero =>
    intro hx hx0 hy
    exact res32_finish_inf rm ftz (FVal.div_by_zero hx hx0 hy) (forall_mem_pair (FVal.isSig_of_isNum hx) (FVal.isSig_of_isZero hy))
  case sqrt =>
    intro hx hx0 hneg
    exact res32_finish_invalid rm ftz (sqrtVal_negative hx hx0 hneg) (by simpa using FVal.isSig_of_isNum hx)

end Sys2Proof.Machine
end

section
/-! An issue that is one cross-lane set: its participants, and what one operation of the set leaves (R243, R245). -/

namespace Sys2Proof.Machine

open Sys2Proof Sys2Proof.Safety

/-! ### FPX of one thread (R204) -/

theorem Thread.isScalar_eq {s : State} {t : Tid} {th : Thread} (ht : s.thread? t = some th) : th.isScalar = Tid.isScalar t := by
  rw [Thread.isScalar, thread?_id ht]

/-- FPX bits of thread `t` go to its team, or to itself when it is the scalar thread; no bits change nothing. -/
theorem orFpx_spec (s : State) (t : Tid) (x : Fpx) : ∃ s', s' = (if x = 0 then s else s.setFpx t x) ∧
    s' = { s with threads := s'.threads, teams := s'.teams } ∧ FpxInto t x s s' ∧
    (∀ u, u ≠ t ∨ Tid.isScalar u = false → s'.thread? u = s.thread? u) ∧
    ∀ th, s.thread? t = some th → Tid.isScalar t = true → s'.thread? t = some { th with fpx := th.fpx ||| x } := by
  refine ⟨_, rfl, ?_⟩
  split
  case isTrue h0 =>
    subst h0
    refine ⟨rfl, fpxInto_zero s t, fun _ _ => rfl, fun th ht _ => ht.trans ?_⟩
    rw [show th.fpx ||| 0 = th.fpx from BitVec.or_zero]
  case isFalse =>
    have hinto := setFpx_into s t x
    cases t with
    | thr c g k r l => exact ⟨rfl, hinto, fun _ _ => rfl, fun _ _ hsc => nomatch hsc⟩
    | scalar a =>
      refine ⟨rfl, hinto, fun u hu => thread?_modThread_other (fun _ => rfl) ?_, fun th ht _ => thread?_modThread_self ht ?_⟩
      · rintro rfl
        exact hu.elim (fun h => h rfl) nofun
      · exact thread?_id (th := th) ht

theorem fpxInto_of_threads {s s2 s' : State} {t : Tid} {x : Fpx} (h : s2 = { s with threads := s2.threads }) (hf : FpxInto t x s2 s') :
    FpxInto t x s s' := by
  rw [h] at hf
  cases t <;> exact hf

/-! ### Threads of one group -/

theorem setFpx_sameGroup {t u : Tid} (h : sameGroup t u) (s : State) (x : Fpx) : s.setFpx u x = s.setFpx t x := by
  cases t <;> cases u
  case thr.thr => obtain ⟨rfl, rfl, rfl, rfl⟩ := h; rfl
  case scalar.scalar => rw [show _ = _ from h]
  case thr.scalar | scalar.thr => exact h.elim

theorem ftzd_sameGroup {t u : Tid} (h : sameGroup t u) (s : State) : s.ftzd u = s.ftzd t := by
  cases t <;> cases u
  case thr.thr => obtain ⟨rfl, rfl, rfl, rfl⟩ := h; rfl
  case scalar.scalar => rw [show _ = _ from h]
  case thr.scalar | scalar.thr => exact h.elim

/-- The group of a scalar thread is that thread. -/
theorem eq_of_sameGroup_scalar {t u : Tid} (h : sameGroup t u) (hu : Tid.isScalar u = true) : u = t := by
  cases t <;> cases u
  case thr.thr => cases hu
  case scalar.scalar => exact congrArg Tid.scalar (show _ = _ from h).symm
  case thr.scalar | scalar.thr => exact h.elim

theorem setKey_sameGroup {s : State} {t u : Tid} {x y : Thread} (h : sameGroup t u) (ht : s.thread? t = some x) (hu : s.thread? u = some y)
    (hm : x.h.hmode = y.h.hmode) : s.setKey u true = s.setKey t true := by
  refine Prod.ext ?_ (by simp [State.setKey, ht, hu, hm])
  cases t <;> cases u
  case thr.thr => obtain ⟨rfl, rfl, rfl, rfl⟩ := h; rfl
  case scalar.scalar => exact congrArg Tid.scalar (show _ = _ from h).symm
  case thr.scalar | scalar.thr => exact h.elim

/-! ### The one set -/

theorem foldl_addToSets {s : State} {mode : Bool} {k : Tid × Bool} (ts acc : List Tid) (h : ∀ t ∈ ts, s.setKey t mode = k) :
    ts.foldl (fun l t => addToSets (s.setKey t mode) t l) [(k, acc)] = [(k, acc ++ ts)] := by
  induction ts generalizing acc with
  | nil => simp
  | cons t ts ih =>
    rw [List.foldl_cons, h t List.mem_cons_self, addToSets, if_pos rfl, ih _ fun u hu => h u (List.mem_cons_of_mem _ hu), List.append_assoc]
    rfl

/-- Threads of one key are one set. -/
theorem setsOf_one {s : State} {mode : Bool} {k : Tid × Bool} {t : Tid} {ts : List Tid} (h : ∀ u ∈ t :: ts, s.setKey u mode = k) :
    s.setsOf mode (t :: ts) = [t :: ts] := by
  rw [State.setsOf, List.foldl_cons, h t List.mem_cons_self, addToSets, foldl_addToSets ts [t] fun u hu => h u (List.mem_cons_of_mem _ hu)]
  rfl

theorem mem_lanesWhere {s : State} {i : Instr} {b : Bool} {ts : List Tid} {t : Tid} {th : Thread} (ht : s.thread? t = some th) :
    t ∈ lanesWhere s i b ts ↔ t ∈ ts ∧ performs i th = b := by
  simp [lanesWhere, ht]

theorem participants_eq (s : State) (i : Instr) (shadow : Bool) :
    participants s i shadow = s.partsOf shadow (lanesWhere s i true s.issue) := by
  unfold participants State.partsOf lanesWhere
  induction s.issue with
  | nil => rfl
  | cons t ts ih =>
    rw [List.filterMap_cons, List.filter_cons, ih]
    cases ht : s.thread? t with
    | none => rfl
    | some th => by_cases hp : performs i th = true <;> simp [hp, State.regsOf, ht]

theorem exists_performer {s : State} {i : Instr} {shadow : Bool} (hs : Ready s i) (h : participants s i shadow ≠ []) :
    ∃ t ∈ s.issue, ∃ th, s.thread? t = some th ∧ performs i th = true := by
  rw [participants_eq] at h
  obtain ⟨t, ht⟩ := List.exists_mem_of_ne_nil _ fun h0 => h (congrArg (s.partsOf shadow) h0)
  have hi : t ∈ s.issue := (List.mem_filter.mp ht).1
  obtain ⟨th, hth, -⟩ := hs.clean t hi
  exact ⟨t, hi, th, hth, ((mem_lanesWhere hth).mp ht).2⟩

theorem partsOf_congr {s s' : State} {ts : List Tid} (h : ∀ t ∈ ts, s'.thread? t = s.thread? t) (shadow : Bool) :
    s'.partsOf shadow ts = s.partsOf shadow ts :=
  List.map_congr_left fun t ht => by rw [State.regsOf, State.regsOf, h t ht]

/-- What `f` makes of a participant, from the leading threads' preparation `p` and the shadows' `q`. -/
def laneAct {α : Type} (f : α → Nat → Regs → Regs) (p q : α) (th : Thread) : Thread :=
  { th.advance with regs := f p th.lane th.regs, shadow := th.shadow.map (f q th.lane) }

/-- The lanes whose guard is false go on first. -/
theorem skipped_lanesDo {s : State} {i : Instr} (hs : Ready s i) :
    LanesDo (lanesWhere s i false s.issue) Thread.advance s ((lanesWhere s i false s.issue).foldl State.advance s) :=
  foldl_lanes _ s (fun _ _ _ _ _ ht => advance_lane ht) (hs.once.filter _) fun t ht => by
    obtain ⟨th, hth, -⟩ := hs.clean t (List.mem_filter.mp ht).1
    exact ⟨th, hth⟩

theorem modThread_lane {s : State} {t : Tid} {f : Thread → Thread} (hf : ∀ x, (f x).id = x.id) :
    LanesDo [t] f s (s.modThread t f) :=
  ⟨rfl, fun u hu x hx => by
      obtain rfl := List.mem_singleton.mp hu
      exact thread?_modThread_self hx ((hf x).trans (thread?_id hx)),
    fun u hu => thread?_modThread_other hf (by simpa using hu)⟩

/-- The performing lanes of one set stand as before when the others have gone on, and are one set then. -/
theorem performers_one_set {s s1 : State} {i : Instr} {v : Tid} {vs : List Tid} (hs : Ready s i) (h1 : OneSet s)
    (hyes : lanesWhere s i true s.issue = v :: vs)
    (hkeep : ∀ u ∈ v :: vs, s1.thread? u = s.thread? u) : s1.setsOf true (v :: vs) = [v :: vs] := by
  have hmem (u : Tid) (hu : u ∈ v :: vs) : u ∈ s.issue ∧ ∃ th, s.thread? u = some th := by
    have hi : u ∈ s.issue := (List.mem_filter.mp (hyes ▸ hu)).1
    obtain ⟨th, hth, -⟩ := hs.clean u hi
    exact ⟨hi, th, hth⟩
  obtain ⟨hv, x, hx⟩ := hmem v List.mem_cons_self
  refine setsOf_one (k := s1.setKey v true) fun u hu => ?_
  obtain ⟨hui, y, hy⟩ := hmem u hu
  exact setKey_sameGroup (h1.group v hv u hui) ((hkeep v List.mem_cons_self).trans hx) ((hkeep u hu).trans hy)
    (h1.mode v hv u hui x y hx hy)

theorem laneSet_cons {α : Type} (s : State) (prep : Parts → α) (f : α → Nat → Regs → Regs) (x : α → Fpx) (v : Tid) (vs : List Tid) :
    s.laneSet prep f x (v :: vs) =
      let p := prep (s.partsOf false (v :: vs))
      let q := prep (s.partsOf true (v :: vs))
      let s' := (v :: vs).foldl (fun s t => s.modThread t (laneAct f p q)) s
      if x p = 0 then s' else s'.setFpx v (x p) := rfl

/-- A cross-lane operation of one set: every lane by its own act, then the FPX bits of the leading participants. -/
theorem runSets_one {α : Type} {s : State} {i : Instr} {t : Tid} (hs : Ready s i) (h1 : OneSet s) (ht : t ∈ s.issue)
    (hne : participants s i false ≠ []) (prep : Bool → Parts → α) (f : α → Nat → Regs → Regs) (x : α → Fpx) :
    let p := prep (s.ftzd t) (participants s i false)
    let q := prep (s.ftzd t) (participants s i true)
    ∃ s2, LanesDo s.issue (fun th => if performs i th = true then laneAct f p q th else th.advance) s s2 ∧
      (s.runSets i fun s ts => s.laneSet (prep ((ts.head?.map s.ftzd).getD false)) f x ts) =
        .next (if x p = 0 then s2 else s2.setFpx t (x p)) := by
  intro p q
  obtain ⟨s2, hrun, hlanes⟩ := run_lanes (act := laneAct f p q) hs fun s t _ _ _ => modThread_lane (s := s) (t := t) fun _ => rfl
  refine ⟨s2, hlanes, ?_⟩
  rw [run_ready hs] at hrun
  rw [State.runSets, runAll_ready hs]
  have hskip := skipped_lanesDo hs
  generalize (lanesWhere s i false s.issue).foldl State.advance s = s1 at hrun hskip ⊢
  have hkeep : ∀ u ∈ lanesWhere s i true s.issue, s1.thread? u = s.thread? u := by
    intro u hu
    refine hskip.others u fun hno => ?_
    obtain ⟨th, hth, -⟩ := hs.clean u (List.mem_filter.mp hu).1
    have hp := ((mem_lanesWhere hth).mp hu).2
    rw [((mem_lanesWhere hth).mp hno).2] at hp
    cases hp
  have hparts (b : Bool) : s1.partsOf b (lanesWhere s i true s.issue) = participants s i b :=
    (partsOf_congr hkeep b).trans (participants_eq s i b).symm
  cases hyes : lanesWhere s i true s.issue with
  | nil => exact absurd ((participants_eq s i false).trans (by rw [hyes]; rfl)) hne
  | cons v vs =>
    rw [hyes] at hrun hkeep hparts
    have hgroup : sameGroup t v := h1.group t ht v (List.mem_filter.mp (hyes ▸ List.mem_cons_self)).1
    have hz : s1.ftzd v = s.ftzd t := (by rw [hskip.rest]; rfl : s1.ftzd v = s.ftzd v).trans (ftzd_sameGroup hgroup s)
    rw [performers_one_set hs h1 hyes hkeep, List.foldl_cons, List.foldl_nil, List.head?_cons, Option.map_some, Option.getD_some, hz,
      laneSet_cons]
    simp only [hparts, setFpx_sameGroup hgroup]
    injection hrun with hs2
    rw [← hs2]

/-- What a cross-lane instruction does to one set, from how its operation is prepared and what each lane writes. -/
theorem setDoes_of {α : Type} {i : Instr} (prep : Bool → Parts → α) (f' : α → Nat → Regs → Regs) (x' : α → Fpx)
    {f : Bool → Parts → Nat → Regs → Regs} {x : Bool → Parts → Fpx}
    (h : ∀ s, exec i s = s.runSets i fun s ts => s.laneSet (prep ((ts.head?.map s.ftzd).getD false)) f' x' ts)
    (hf : ∀ z p l r, l < 32 → f' (prep z p) l r = f z p l r) (hx : ∀ z p, x' (prep z p) = x z p) : SetDoes i f x := by
  intro s t hs h1 ht hne z p q
  obtain ⟨s2, hlanes, hrun⟩ := runSets_one hs h1 ht hne prep f' x'
  obtain ⟨s', hs', hrest, hfpx, hothers, hself⟩ := orFpx_spec s2 t (x' (prep z p))
  rw [hx] at hfpx hself
  have hact (u : Tid) (hu : u ∈ s.issue) (th : Thread) (hth : s.thread? u = some th) :
      s2.thread? u = some (if performs i th = true then
        { th.advance with regs := f z p th.lane th.regs, shadow := th.shadow.map (f z q th.lane) } else th.advance) := by
    have hlane : th.lane < 32 := by
      rw [Thread.lane, thread?_id hth]
      exact h1.lanes u hu
    have hwrite (p : Parts) : f' (prep z p) th.lane = f z p th.lane := funext fun r => hf z p th.lane r hlane
    rw [hlanes.lane u hu th hth, laneAct, hwrite, hwrite]
  refine ⟨s', ?_, ?_, ?_, ?_, fpxInto_of_threads hlanes.rest hfpx⟩
  · rw [h, hrun, hs']
  · rw [hrest, hlanes.rest]
  · intro u hu th hth
    rw [Thread.isScalar_eq hth]
    cases hsc : Tid.isScalar u with
    | false => exact (hothers u (.inr hsc)).trans (hact u hu th hth)
    | true =>
      obtain rfl := eq_of_sameGroup_scalar (h1.group t ht u hu) hsc
      have hp : performs i th = true := by
        obtain ⟨v, hv, y, hy, hp⟩ := exists_performer hs hne
        obtain rfl := eq_of_sameGroup_scalar (h1.group v hv u hu) hsc
        exact Option.some.inj (hy.symm.trans hth) ▸ hp
      have h2 := hact u hu th hth
      rw [if_pos hp] at h2 ⊢
      exact hself _ h2 hsc
  · intro u hu
    rw [hothers u (.inl fun e => hu (e ▸ ht)), hlanes.others u hu]

end Sys2Proof.Machine
end

section
/-! REDUX in the tree of R214 and SCAN by the distances of R215: the model's lists of lanes, lane by lane. -/

namespace Sys2Proof.Machine

open Sys2Proof Sys2Proof.Safety

/-- Xa lane by lane, the identity standing for a non-participant. -/
def laneVals (op : RedOp) (a : XReg) (p : Parts) (l : Nat) : Word := (laneX p l a).getD (redIdentity op)

theorem values_eq (op : RedOp) (a : XReg) (p : Parts) : p.values a (redIdentity op) = (List.range 32).map (laneVals op a p) := by
  rw [Parts.values, seqFrom_map, List.map_map]
  exact List.map_congr_left fun l _ => by rw [Function.comp, Nat.zero_add]; rfl

theorem getAt_eq_getD {α : Type} (d : α) (l : List α) (n : Nat) : getAt d l n = l.getD n d := by
  induction l generalizing n with
  | nil => rfl
  | cons x l ih =>
    cases n with
    | zero => rfl
    | succ n => exact ih n

theorem getAt_map_range {n l : Nat} (w : Nat → Word) (h : l < n) : getAt 0 ((List.range n).map w) l = w l := by
  rw [getAt_eq_getD, List.getD_eq_getElem _ _ (by simpa using h)]
  simp

/-! ### The tree -/

section Tree
variable (f : Word → Word → FRes)

theorem length_treeLevel : ∀ (l : List Word) (n : Nat), l.length = 2 * n → (treeLevel f l).1.length = n
  | [], n, h => by simpa [treeLevel, eq_comm] using h
  | [_], n, h => absurd h (by simp only [List.length_singleton]; omega)
  | a :: b :: l, n, h => by
    have hl : l.length = 2 * (n - 1) := by
      simp only [List.length_cons] at h
      omega
    simp only [treeLevel, List.length_cons, length_treeLevel l (n - 1) hl]
    simp only [List.length_cons] at h
    omega

/-- A level over two halves, the first of even length, is a level over each. -/
theorem treeLevel_append : ∀ (l1 l2 : List Word), l1.length % 2 = 0 →
    treeLevel f (l1 ++ l2) = ((treeLevel f l1).1 ++ (treeLevel f l2).1, (treeLevel f l1).2 ||| (treeLevel f l2).2)
  | [], l2, _ => Prod.ext rfl BitVec.zero_or.symm
  | [_], _, h => absurd h (by simp)
  | a :: b :: l1, l2, h => by
    have hl : l1.length % 2 = 0 := by
      simp only [List.length_cons] at h
      omega
    simp only [List.cons_append, treeLevel, treeLevel_append l1 l2 hl, BitVec.or_assoc]

theorem treeRun_level (n : Nat) {l : List Word} (h : 2 ≤ l.length) : treeRun f (n + 1) l =
    ((treeRun f n (treeLevel f l).1).1, (treeLevel f l).2 ||| (treeRun f n (treeLevel f l).1).2) := by
  match l, h with
  | _ :: _ :: _, _ => rfl

/-- The node over two halves combines their nodes. -/
theorem treeRun_append (k : Nat) {l1 l2 : List Word} (h1 : l1.length = 2 ^ k) (h2 : l2.length = 2 ^ k) :
    treeRun f (k + 2) (l1 ++ l2) =
      let a := treeRun f (k + 1) l1
      let b := treeRun f (k + 1) l2
      ((f a.1 b.1).1, (f a.1 b.1).2 ||| a.2 ||| b.2) := by
  induction k generalizing l1 l2 with
  | zero =>
    obtain ⟨x, rfl⟩ := List.length_eq_one_iff.mp h1
    obtain ⟨y, rfl⟩ := List.length_eq_one_iff.mp h2
    simp [treeRun, treeLevel]
  | succ k ih =>
    rw [pow_succ'] at h1 h2
    have hpos : 0 < 2 ^ k := by positivity
    rw [treeRun_level f _ (by rw [List.length_append]; omega), treeLevel_append f l1 l2 (by omega),
      ih (length_treeLevel f l1 _ h1) (length_treeLevel f l2 _ h2), treeRun_level f _ (l := l1) (by omega),
      treeRun_level f _ (l := l2) (by omega)]
    refine Prod.ext rfl ?_
    dsimp only
    ac_rfl

/-- The model's rounds over the lanes from `l` give the node of R214 over them. -/
theorem treeRun_eq_treeNode (v : Nat → Word) (k l : Nat) :
    treeRun f (k + 1) ((List.range (2 ^ k)).map fun j => v (l + j)) = treeNode f v k l := by
  induction k generalizing l with
  | zero => rfl
  | succ k ih =>
    rw [pow_succ', Nat.two_mul, List.range_add, List.map_append, List.map_map,
      treeRun_append f k (by simp) (by simp), treeNode, ← ih l, ← ih (l + 2 ^ k)]
    simp only [Function.comp_def, Nat.add_assoc]

end Tree

theorem reduxRun_eq (op : RedOp) (z : Bool) (a : XReg) (p : Parts) :
    reduxRun op z a p = treeNode (redCombine op z) (laneVals op a p) 5 0 := by
  rw [reduxRun, values_eq, ← treeRun_eq_treeNode]
  simp

/-! ### The scan -/

section Scan
variable (f : Word → Word → FRes)

/-- One step over the values after `k` distances gives those after the next, with the bits of its nodes. -/
theorem scanStep_eq (v : Nat → Word) (k : Nat) : scanStep f (2 ^ k) ((List.range 32).map (prefixAt f v k)) =
    ((List.range 32).map (prefixAt f v (k + 1)), prefixFlags f v k) := by
  rw [scanStep, List.length_map, List.length_range, seqFrom_map, List.map_map]
  refine Prod.ext ?_ ?_
  · dsimp only
    rw [List.map_map]
    refine List.map_congr_left fun l hl => ?_
    have hl : l < 32 := List.mem_range.mp hl
    simp only [Function.comp_apply, Nat.zero_add, getAt_map_range _ hl, getAt_map_range _ (Nat.lt_of_le_of_lt (Nat.sub_le l _) hl), prefixAt]
    split <;> rfl
  · dsimp only
    rw [prefixFlags, List.foldl_filter, List.foldl_map]
    refine List.foldl_ext _ _ _ fun x l hl => ?_
    have hl : l < 32 := List.mem_range.mp hl
    simp only [getAt_map_range _ hl, getAt_map_range _ (Nat.lt_of_le_of_lt (Nat.sub_le l _) hl), decide_eq_true_eq]
    split
    · rfl
    · exact BitVec.or_zero

theorem scanRun_eq (v : Nat → Word) (n k : Nat) : scanRun f ((List.range' k n).map (2 ^ ·)) ((List.range 32).map (prefixAt f v k)) =
    ((List.range 32).map (prefixAt f v (k + n)), ((List.range' k n).map (prefixFlags f v)).foldr (· ||| ·) 0) := by
  induction n generalizing k with
  | zero => rfl
  | succ n ih =>
    rw [List.range'_succ, List.map_cons, scanRun, scanStep_eq]
    dsimp only
    rw [ih, List.map_cons, List.foldr_cons, Nat.add_right_comm, Nat.add_assoc]

/-- The FPX bits of every node of a scan. -/
def scanFlags (v : Nat → Word) : Fpx := (List.range 5).foldl (fun x k => x ||| prefixFlags f v k) 0

theorem scanRun_distances (v : Nat → Word) :
    scanRun f [1, 2, 4, 8, 16] ((List.range 32).map v) = ((List.range 32).map (prefixAt f v 5), scanFlags f v) := by
  have h := scanRun_eq f v 5 0
  rw [show (List.range' 0 5).map (2 ^ ·) = [1, 2, 4, 8, 16] from rfl] at h
  refine h.trans (Prod.ext rfl ?_)
  simp [scanFlags, List.range_succ, List.range', BitVec.or_assoc]

theorem prefixAt_zero (v : Nat → Word) (k : Nat) : prefixAt f v k 0 = v 0 := by
  induction k with
  | zero => rfl
  | succ k ih => rw [prefixAt, if_neg (by simp), ih]

end Scan

/-- The values that SCAN combines: with EXCL those one lane down, the identity in lane 0. -/
def scanVals (excl : Bool) (op : RedOp) (a : XReg) (p : Parts) (l : Nat) : Word :=
  if excl = true then if l = 0 then redIdentity op else laneVals op a p (l - 1) else laneVals op a p l

theorem scanVals_list (excl : Bool) (op : RedOp) (a : XReg) (p : Parts) :
    (if excl then (redIdentity op :: p.values a (redIdentity op)).take 32 else p.values a (redIdentity op)) =
      (List.range 32).map (scanVals excl op a p) := by
  rw [values_eq]
  cases excl with
  | false => rfl
  | true =>
    rw [if_pos rfl, List.take_succ_cons, ← List.map_take, List.take_range, List.range_succ_eq_map (n := 31), List.map_cons, List.map_map]
    rfl

theorem scanAll_fst (excl z : Bool) (op : RedOp) (a : XReg) (p : Parts) {l : Nat} (hl : l < 32) :
    getAt 0 (scanAll excl z op a p).1 l =
      if l = 0 then scanOwn op z (scanVals excl op a p 0) else prefixAt (redCombine op z) (scanVals excl op a p) 5 l := by
  simp only [scanAll, scanVals_list, scanRun_distances]
  split
  case isTrue h0 =>
    subst h0
    rw [getAt_setAt_self (by simp), getAt_map_range _ hl, prefixAt_zero]
  case isFalse h0 => rw [getAt_setAt_other h0, getAt_map_range _ hl]

theorem scanAll_snd (excl z : Bool) (op : RedOp) (a : XReg) (p : Parts) :
    (scanAll excl z op a p).2 = scanFlags (redCombine op z) (scanVals excl op a p) := by
  simp only [scanAll, scanVals_list, scanRun_distances]

/-- The value of a position that no node combines, of a floating-point operation (R202, R203). -/
theorem scanOwn_float {op : RedOp} (h : op = .fadd ∨ op = .fmin ∨ op = .fmax) (z : Bool) (v : Word) :
    scanOwn op z v = match read32 z v with
      | .nan _ => 0x7FC00000
      | .num n m _e => if m = 0 then (if n = true then 0x80000000 else 0) else v
      | .inf _ => v := by
  have hown : scanOwn op z v = redixOut .f32 z v := by rcases h with rfl | rfl | rfl <;> rfl
  rw [hown, redixOut]
  cases read32 z v with
  | num n m e => cases m with
    | zero => cases n <;> rfl
    | succ m => rfl
  | inf n | nan s => rfl

end Sys2Proof.Machine
end

section
/-! The total order of R224 and R256, and the entry that REDIX picks by it (Table 12.6). -/

namespace Sys2Proof.Machine

open Sys2Proof Sys2Proof.Safety

/-! ### The order of values -/

/-- Where a value stands: an infinity beyond every number. -/
def FVal.level : FVal → WithBot (WithTop ℚ)
  | .inf true => ⊥
  | .inf false => (⊤ : WithTop ℚ)
  | x => (valueOf x : WithTop ℚ)

theorem ltNum_eq (n : Bool) (m : Nat) (e : Int) (k : Bool) (m' : Nat) (e' : Int) :
    FVal.ltNum n m e k m' e' = decide (valueOf (.num n m e) < valueOf (.num k m' e')) := by
  rw [FVal.ltNum, decide_eq_decide, ← mantAt_value n m (min_le_left e e'), ← mantAt_value k m' (min_le_right e e'),
    mul_lt_mul_iff_left₀ (zpow_pos two_pos _), Int.cast_lt]

theorem FVal.lt_iff_level {x y : FVal} (hx : x.isNan = false) (hy : y.isNan = false) : x.lt y = true ↔ x.level < y.level := by
  cases x with
  | nan s => cases hx
  | inf n => cases y with
    | nan s => cases hy
    | inf k => cases n <;> cases k <;> simp [FVal.lt, FVal.level]
    | num k m' e' => cases n <;> simp [FVal.lt, FVal.level]
  | num n m e => cases y with
    | nan s => cases hy
    | inf k => cases k with
      | true => simp [FVal.lt, FVal.level]
      | false => exact iff_of_true rfl (WithBot.coe_lt_coe.mpr (WithTop.coe_lt_top _))
    | num k m' e' => simp [FVal.lt, FVal.level, ltNum_eq]

theorem FVal.isZero_iff_level {x : FVal} (hx : x.isNan = false) : x.isZero = true ↔ x.level = ((0 : ℚ) : WithTop ℚ) := by
  cases x with
  | nan s => cases hx
  | inf n => cases n with
    | true => simp [FVal.isZero, FVal.level]
    | false => exact iff_of_false Bool.false_ne_true fun h => WithTop.top_ne_coe (WithBot.coe_inj.mp h)
  | num n m e =>
    have hpow : (2 : ℚ) ^ e ≠ 0 := zpow_ne_zero e two_ne_zero
    cases n <;> simp [FVal.isZero, FVal.level, valueOf, hpow]

/-- The place of a value in the total order of R224 and R256: −0 below +0. -/
def FVal.rank (x : FVal) : WithBot (WithTop ℚ) ×ₗ Bool := toLex (x.level, x.isZero && !x.neg?)

theorem FVal.below_eq {x y : FVal} (hx : x.isNan = false) (hy : y.isNan = false) : x.below y = decide (x.rank < y.rank) := by
  rw [Bool.eq_iff_iff, decide_eq_true_iff, FVal.below, Bool.or_eq_true, FVal.lt_iff_level hx hy, FVal.rank, FVal.rank,
    Prod.Lex.toLex_lt_toLex]
  refine or_congr_right ?_
  simp only [Bool.and_eq_true, Bool.not_eq_true', Bool.lt_iff, Bool.and_eq_false_iff, Bool.not_eq_false']
  constructor
  · rintro ⟨⟨⟨hx0, hy0⟩, hxn⟩, hyn⟩
    exact ⟨((FVal.isZero_iff_level hx).mp hx0).trans ((FVal.isZero_iff_level hy).mp hy0).symm, .inr hxn, hy0, hyn⟩
  · rintro ⟨hlevel, hxb, hy0, hyn⟩
    have hx0 : x.isZero = true := (FVal.isZero_iff_level hx).mpr (hlevel.trans ((FVal.isZero_iff_level hy).mp hy0))
    exact ⟨⟨⟨hx0, hy0⟩, hxb.resolve_left (by simp [hx0])⟩, hyn⟩

/-! ### The order of entries -/

/-- Whether one FP32 value comes before another in the total order, or with MAX after it. -/
def fbefore (mx : Bool) (x y : FVal) : Bool := if mx then y.below x else x.below y

theorem fbefore_asymm {mx : Bool} {x y : FVal} (hx : x.isNan = false) (hy : y.isNan = false) (h : fbefore mx x y = true) :
    fbefore mx y x = false := by
  cases mx <;> simp only [fbefore, Bool.false_eq_true, if_false, if_true, FVal.below_eq, hx, hy, decide_eq_true_eq, decide_eq_false_iff_not] at h ⊢
  · exact h.not_gt
  · exact h.not_gt

theorem fbefore_trans_neg {mx : Bool} {x y w : FVal} (hx : x.isNan = false) (hy : y.isNan = false) (hw : w.isNan = false)
    (hxy : fbefore mx x y = false) (hyw : fbefore mx y w = false) : fbefore mx x w = false := by
  cases mx <;> simp only [fbefore, Bool.false_eq_true, if_false, if_true, FVal.below_eq, hx, hy, hw, decide_eq_false_iff_not, not_lt] at hxy hyw ⊢
  · exact hyw.trans hxy
  · exact hxy.trans hyw

theorem redixBetter_f32 (mx z : Bool) (a b : Word) : redixBetter mx .f32 z a b =
    if (read32 z a).isNan then false else if (read32 z b).isNan then true else fbefore mx (read32 z a) (read32 z b) := rfl

theorem redixBetter_asymm {mx : Bool} {ty : RedixTy} {z : Bool} {a b : Word} (h : redixBetter mx ty z a b = true) :
    redixBetter mx ty z b a = false := by
  cases ty with
  | s32 | u32 =>
    cases mx <;> simp only [redixBetter, Bool.false_eq_true, if_false, if_true, decide_eq_true_eq, decide_eq_false_iff_not] at h ⊢ <;> omega
  | f32 =>
    rw [redixBetter_f32] at h ⊢
    cases ha : (read32 z a).isNan with
    | true => simp [ha] at h
    | false => cases hb : (read32 z b).isNan with
      | true => simp
      | false => simpa [ha, hb] using fbefore_asymm ha hb (by simpa [ha, hb] using h)

/-- What is not better than a second, nor that than a third, is not better than the third. -/
theorem redixBetter_trans_neg {mx : Bool} {ty : RedixTy} {z : Bool} {a b c : Word} (hab : redixBetter mx ty z a b = false)
    (hbc : redixBetter mx ty z b c = false) : redixBetter mx ty z a c = false := by
  cases ty with
  | s32 | u32 =>
    cases mx <;> simp only [redixBetter, Bool.false_eq_true, if_false, if_true, decide_eq_false_iff_not] at hab hbc ⊢ <;> omega
  | f32 =>
    rw [redixBetter_f32] at hab hbc ⊢
    cases ha : (read32 z a).isNan with
    | true => rfl
    | false => cases hb : (read32 z b).isNan with
      | true => simp [ha, hb] at hab
      | false => cases hc : (read32 z c).isNan with
        | true => simp [hb, hc] at hbc
        | false => exact fbefore_trans_neg ha hb hc (by simpa [ha, hb] using hab) (by simpa [hb, hc] using hbc)

/-! ### The entry picked (R256) -/

/-- `x` is among the entries, none is better, and none as good has a lower index. -/
structure RedixLeast (mx : Bool) (ty : RedixTy) (z : Bool) (x : Word × Word) (l : List (Word × Word)) : Prop where
  mem : x ∈ l
  best : ∀ y ∈ l, redixBetter mx ty z y.1 x.1 = false
  index : ∀ y ∈ l, redixBetter mx ty z x.1 y.1 = false → x.2.toNat ≤ y.2.toNat

section Pick
variable {mx : Bool} {ty : RedixTy} {z : Bool} {x y : Word × Word} {l : List (Word × Word)}

theorem redixBetter_irrefl (a : Word) : redixBetter mx ty z a a = false := by
  cases h : redixBetter mx ty z a a with
  | false => rfl
  | true => exact h.symm.trans (redixBetter_asymm h)

theorem redixLeast_singleton (x : Word × Word) : RedixLeast mx ty z x [x] := by
  refine ⟨List.mem_singleton_self x, fun y hy => ?_, fun y hy _ => ?_⟩ <;> obtain rfl := List.mem_singleton.mp hy
  · exact redixBetter_irrefl _
  · exact le_rfl

/-- The entry so far stays, another that it is not behind of being seen. -/
theorem RedixLeast.keep (h : RedixLeast mx ty z x l) (hyx : redixBetter mx ty z y.1 x.1 = false)
    (hi : redixBetter mx ty z x.1 y.1 = false → x.2.toNat ≤ y.2.toNat) : RedixLeast mx ty z x (l ++ [y]) := by
  refine ⟨List.mem_append_left _ h.mem, ?_, ?_⟩ <;> simp only [List.forall_mem_append, List.forall_mem_singleton]
  · exact ⟨h.best, hyx⟩
  · exact ⟨h.index, hi⟩

/-- An entry that the one so far is not better than takes its place, by its value or by its index. -/
theorem RedixLeast.take (h : RedixLeast mx ty z x l) (hxy : redixBetter mx ty z x.1 y.1 = false)
    (hi : redixBetter mx ty z y.1 x.1 = true ∨ y.2.toNat < x.2.toNat) : RedixLeast mx ty z y (l ++ [y]) := by
  refine ⟨by simp, ?_, ?_⟩ <;> simp only [List.forall_mem_append, List.forall_mem_singleton]
  · exact ⟨fun w hw => redixBetter_trans_neg (h.best w hw) hxy, redixBetter_irrefl _⟩
  · refine ⟨fun w hw hyw => ?_, fun _ => le_rfl⟩
    rcases hi with hbetter | hlt
    · exact absurd ((redixBetter_trans_neg hyw (h.best w hw)).symm.trans hbetter) Bool.false_ne_true
    · exact hlt.le.trans (h.index w hw (redixBetter_trans_neg hxy hyw))

theorem RedixLeast.pick (h : RedixLeast mx ty z x l) (y : Word × Word) : RedixLeast mx ty z (redixPick mx ty z x y) (l ++ [y]) := by
  rw [redixPick]
  split
  case isTrue hyx => exact h.take (redixBetter_asymm hyx) (.inl hyx)
  case isFalse hyx =>
    simp only [Bool.not_eq_true] at hyx
    split
    case isTrue hxy => exact h.keep hyx fun hn => absurd (hn.symm.trans hxy) Bool.false_ne_true
    case isFalse hxy =>
      simp only [Bool.not_eq_true] at hxy
      split
      case isTrue hlt => exact h.take hxy (.inr hlt)
      case isFalse hge => exact h.keep hyx fun _ => Nat.not_lt.mp hge

theorem RedixLeast.foldl (h : RedixLeast mx ty z x l) (ys : List (Word × Word)) :
    RedixLeast mx ty z (ys.foldl (redixPick mx ty z) x) (l ++ ys) := by
  induction ys generalizing x l with
  | nil => rwa [List.append_nil]
  | cons y ys ih =>
    rw [List.foldl_cons, List.append_cons]
    exact ih (h.pick y)

end Pick

/-- A participant's entry: its value, and Xi or its lane. -/
def redixEntry (xi : Option XReg) (a : XReg) (q : Nat × Regs) : Word × Word :=
  (q.2.x32 a, match xi with
    | some b => q.2.x32 b
    | none => BitVec.ofNat 32 q.1)

theorem redixRun_least (xi : Option XReg) (mx : Bool) (ty : RedixTy) (z : Bool) (a : XReg) {p : Parts} (hp : p ≠ []) :
    ∃ x, RedixLeast mx ty z x (p.map (redixEntry xi a)) ∧ redixRun xi mx ty z a p = (redixOut ty z x.1, x.2) := by
  cases p with
  | nil => exact absurd rfl hp
  | cons q qs =>
    refine ⟨_, (redixLeast_singleton (redixEntry xi a q)).foldl (qs.map (redixEntry xi a)), ?_⟩
    rw [List.foldl_map]
    rfl

theorem redixFpx_eq (ty : RedixTy) (a : XReg) (p : Parts) [Decidable (ty = .f32 ∧ ∃ q ∈ p, (fF32.read (q.2.x32 a).toNat).isSig = true)] :
    redixFpx ty a p = if ty = .f32 ∧ ∃ q ∈ p, (fF32.read (q.2.x32 a).toNat).isSig = true then fpxNV else 0 := by
  cases ty with
  | s32 | u32 => exact (if_neg fun h => nomatch h.1).symm
  | f32 => exact if_congr (by simp) rfl rfl

/-- Settles O24: each is one operation of the set; REDUX is the tree's root,
SCAN the values after five distances, REDIX the least entry of a total order. -/
theorem reductionsAndScans : Obligations.ReductionsAndScans := by
  intro g ftz mx op ty xi d a vals up flags
  refine ⟨?redux, ?scan, ?scanExcl, fun z v h => scanOwn_float h z v, fun z p => redixRun xi mx ty (ftz || z) a p, ?redix, ?pick⟩
  case redux =>
    exact setDoes_of (fun z p => reduxRun op (ftz || z) a p) (fun q _ r => r.set32 d q.1) (·.2) (fun _ => rfl)
      (fun z p l r _ => by rw [reduxRun_eq]; rfl) fun z p => by rw [reduxRun_eq]; rfl
  case scan =>
    exact setDoes_of (fun z p => scanAll false (ftz || z) op a p) (fun q l r => r.set32 d (getAt 0 q.1 l)) (·.2) (fun _ => rfl)
      (fun z p l r hl => by rw [scanAll_fst _ _ _ _ _ hl]; rfl) fun z p => by rw [scanAll_snd]; rfl
  case scanExcl =>
    exact setDoes_of (fun z p => scanAll true (ftz || z) op a p) (fun q l r => r.set32 d (getAt 0 q.1 l)) (·.2) (fun _ => rfl)
      (fun z p l r hl => by rw [scanAll_fst _ _ _ _ _ hl]; rfl) fun z p => by rw [scanAll_snd]; rfl
  case redix =>
    exact setDoes_of (fun z p => (redixRun xi mx ty (ftz || z) a p, redixFpx ty a p)) (fun q _ r => r.setXs d.toNat [q.1.1, q.1.2]) (·.2)
      (fun _ => rfl) (fun _ _ _ _ _ => rfl) fun z p => redixFpx_eq ty a p
  case pick =>
    intro z p hp entry
    obtain ⟨x, hleast, hrun⟩ := redixRun_least xi mx ty (ftz || z) a hp
    obtain ⟨q, hq, rfl⟩ := List.mem_map.mp hleast.mem
    exact ⟨q, hq, hrun, fun q' hq' => ⟨hleast.best _ (List.mem_map_of_mem hq'), hleast.index _ (List.mem_map_of_mem hq')⟩⟩

end Sys2Proof.Machine
end

section
/-! The conditions of Table 11.2 on values, and what the floating-point and conversion instructions leave (R205, R225, R231, R234 to R242). -/

namespace Sys2Proof.Machine

open Sys2Proof Sys2Proof.Safety

/-! ### Comparisons (R225) -/

theorem FVal.lt_nums {x y : FVal} (hx : isNum x = true) (hy : isNum y = true) : x.lt y = decide (valueOf x < valueOf y) := by
  obtain ⟨n, m, e, rfl⟩ := exists_num_of_isNum hx
  obtain ⟨k, m', e', rfl⟩ := exists_num_of_isNum hy
  exact ltNum_eq n m e k m' e'

theorem FVal.lt_nan {x y : FVal} (h : (x.isNan || y.isNan) = true) : x.lt y = false := by
  cases x with
  | nan s => rfl
  | num n m e | inf n => cases y with
    | nan s => rfl
    | num k m' e' | inf k => cases h

/-- −∞ lies below every value but itself, +∞ below none. -/
theorem FVal.inf_lt {y : FVal} (n : Bool) (hy : y.isNan = false) : (FVal.inf n).lt y = (n && decide (y ≠ .inf true)) := by
  cases y with
  | nan s => cases hy
  | inf k => cases k <;> rfl
  | num k m e => simp [FVal.lt]

/-- +∞ lies above every value but itself, −∞ above none. -/
theorem FVal.lt_inf {y : FVal} (n : Bool) (hy : y.isNan = false) : y.lt (.inf n) = (!n && decide (y ≠ .inf false)) := by
  cases y with
  | nan s => cases hy
  | inf k => cases k <;> simp [FVal.lt]
  | num k m e => simp [FVal.lt]

theorem FVal.isSig_of_isNan_false {x : FVal} (h : x.isNan = false) : x.isSig = false := by
  cases x with
  | nan s => cases h
  | num n m e | inf n => rfl

/-- Without a NaN a condition is what the order says, and no bit is raised. -/
theorem fcondTest_ordered (c : FCond) {x y : FVal} (hx : x.isNan = false) (hy : y.isNan = false) :
    fcondTest c x y = (match c with
      | .eq => !x.lt y && !y.lt x | .ne => x.lt y || y.lt x | .lt => x.lt y | .le => !y.lt x
      | .gt => y.lt x | .ge => !x.lt y | .num => true | .nan => false, 0) := by
  cases c <;> simp [fcondTest, hx, hy, FVal.isSig_of_isNan_false hx, FVal.isSig_of_isNan_false hy]

/-- With a NaN only NE and NAN hold; the four order conditions always raise NV, the others for a signalling NaN. -/
theorem fcondTest_unordered (c : FCond) {x y : FVal} (h : (x.isNan || y.isNan) = true) :
    fcondTest c x y = (match c with
      | .ne | .nan => true
      | _ => false, match c with
      | .lt | .le | .gt | .ge => fpxNV
      | _ => if (x.isSig || y.isSig) = true then fpxNV else 0) := by
  have hyx : y.lt x = false := FVal.lt_nan ((Bool.or_comm ..).trans h)
  cases c <;> simp [fcondTest, h, FVal.lt_nan h, hyx]

/-- Settles O15: each condition is read off `FVal.lt`, which is the order of the values. -/
theorem floatComparisons : Obligations.FloatComparisons := by
  intro x y
  refine ⟨fun hx hy => ?numbers, fun h => ?nans, fun n hx hy => ?infinities⟩
  case numbers =>
    -- Two numbers are equal when neither lies below the other.
    simp only [fcondTest_ordered _ (FVal.isNan_of_isNum hx) (FVal.isNan_of_isNum hy), FVal.lt_nums hx hy, FVal.lt_nums hy hx]
    simp [le_antisymm_iff, ← not_lt, and_comm]
  case nans => simp [fcondTest_unordered _ h]
  case infinities =>
    subst hx
    have hn : (FVal.inf n).isNan = false := rfl
    simp only [fcondTest_ordered _ hn hy, fcondTest_ordered _ hy hn, FVal.inf_lt n hy, FVal.lt_inf n hy]
    cases n <;> simp

/-! ### What a performed instruction leaves (R205) -/

/-- What `compute` leaves: the registers of the thread and its shadow, its pc, and the FPX bits. -/
theorem compute_spec {s : State} {t : Tid} {th : Thread} (ht : s.thread? t = some th) (f : Regs → Regs × Fpx) :
    s.compute f t = { s with threads := (s.compute f t).threads, teams := (s.compute f t).teams } ∧
    (s.compute f t).thread? t = some { th.advance with
      regs := (f th.regs).1, shadow := th.shadow.map fun r => (f r).1
      fpx := if th.isScalar = true then th.fpx ||| (f th.regs).2 else th.fpx } ∧
    (∀ u, u ≠ t → (s.compute f t).thread? u = s.thread? u) ∧ FpxInto t (f th.regs).2 s (s.compute f t) := by
  rw [compute_eq ht]
  set s₁ := s.modThread t fun x => { x.advance with regs := (f th.regs).1, shadow := x.shadow.map fun r => (f r).1 }
  have hself : s₁.thread? t = some { th.advance with regs := (f th.regs).1, shadow := th.shadow.map fun r => (f r).1 } :=
    thread?_modThread_self ht (thread?_id (th := th) ht)
  obtain ⟨s', hs', hrest, hfpx, hothers, hscalar⟩ := orFpx_spec s₁ t (f th.regs).2
  rw [← hs']
  refine ⟨?_, ?_, ?_, fpxInto_of_threads rfl hfpx⟩
  · rw [hrest]; rfl
  · rw [Thread.isScalar_eq ht]
    cases hsc : Tid.isScalar t with
    | true => exact hscalar _ hself hsc
    | false => exact (hothers t (.inr hsc)).trans hself
  · exact fun u hu => (hothers u (.inl hu)).trans (thread?_modThread_other (fun _ => rfl) hu)

/-! ### The value functions in the statements' terms -/

theorem half_zero (a : Word) : half a 0 = a.toNat % 2 ^ 16 := by simp [half, bitsOf]

theorem half_one (a : Word) : half a 1 = a.toNat / 2 ^ 16 :=
  Nat.mod_eq_of_lt (by have := a.isLt; omega)

theorem clampInt_idem (lo hi v : Int) (h : lo ≤ hi) : clampInt lo hi (clampInt lo hi v) = clampInt lo hi v := by
  simp only [clampInt_eq_min_max h]
  omega

/-- The bound on the exponent of FSCALE may be applied before. -/
theorem scale32_clamp (rm : RM) (ftz : Bool) (x : FVal) (n : Int) : scale32 rm ftz x (clampInt (-600) 600 n) = scale32 rm ftz x n := by
  simp only [scale32, clampInt_idem _ _ n (by decide : (-600 : Int) ≤ 600)]

theorem computesF_self {i : Instr} {f : Bool → Regs → Regs × Fpx} (h : ∀ s, exec i s = s.run i fun s t => s.compute (f (s.ftzd t)) t) :
    ComputesF i f :=
  computesF_of f h fun _ _ => rfl

/-- Settles O16: each arm computes its value function; where the statement writes it otherwise, the two agree. -/
theorem floatingPointInstructions : Obligations.FloatingPointInstructions := by
  intro i f h
  cases i with
  | fadd | fsub | fmul | ffma | fmin | fmax | fclass | pkadd | pkmul | pkfma | pkmin | pkmax | frnd | dot2 | f2i | i2f | f2f
  | packn | unpackn | bscale =>
    cases h
    exact computesF_self fun _ => rfl
  | fsetp g ftz fold cond d a b e =>
    cases h
    exact computesF_of (fun z => fsetpWrite (ftz || z) fold cond d a b e) (fun _ => rfl) fun _ _ => by cases fold <;> rfl
  | pksetp g bf cond d a b e =>
    cases h
    exact computesF_of (fun _ => pksetpWrite bf cond d a b e) (fun _ => rfl) fun _ _ => by simp only [pksetpWrite, half_zero, half_one]
  | fscale g ftz rm d a b =>
    cases h
    exact computesF_of (fun z => putF d fun r => scale32 rm (ftz || z) (read32 (ftz || z) (r.x32 a)) (clampInt (-600) 600 (b.val r).toInt))
      (fun _ => rfl) fun _ _ => by simp only [putF, wroteF, scale32_clamp]
  | _ => cases h

/-! ### Format slots, blocks and I2I (R233, R240 to R242) -/

theorem withBlock_compute {s : State} {t : Tid} {k : FSlot} (h : slotE2m1 (s.slotOf t k) = true) (f : Word → Regs → Regs × Fpx) :
    s.withBlock t k f = s.compute (f (s.slotOf t k)) t := if_pos h

theorem withBlock_raise {s : State} {t : Tid} {k : FSlot} (h : slotE2m1 (s.slotOf t k) = false) (f : Word → Regs → Regs × Fpx) :
    s.withBlock t k f = s.raise t .formatSlot (k.setWidth 64) := if_neg (by simp [h])

theorem qblkWrite_eq (slot : Word) (ftz : Bool) (fmt : IFmt) (d a c : XReg) (r : Regs) :
    qblkWrite slot ftz fmt d a c r =
      let q := quantise (slotSpec slot) (blockSources fmt ftz (r.xs a (if fmt = .f32 then 32 else 16)))
      ((r.setXs d.toNat (packCodes 4 q.1)).set32 c (BitVec.ofNat 32 q.2.1), q.2.2) := by
  cases fmt <;> rfl

/-- The low bits of a word, sign-extended, as I2I writes them. -/
theorem ofInt_signExtend (w : Nat) (a : Word) : BitVec.ofInt 32 (signExtend w a.toNat) = (a.setWidth w).signExtend 32 := by
  rw [BitVec.signExtend, ← signExtend_toNat, BitVec.toNat_setWidth]
  simp [signExtend]

theorem ofNat_mod (w : Nat) (a : Word) : BitVec.ofNat 32 (a.toNat % 2 ^ w) = (a.setWidth w).setWidth 32 := by
  apply BitVec.eq_of_toNat_eq
  simp

theorem i2iRes_wraps (uin : Bool) (tg : ITarget) (a : Word) : i2iRes false uin tg a = (match tg with
    | .s8 => (a.setWidth 8).signExtend 32 | .u8 => (a.setWidth 8).setWidth 32
    | .s16 => (a.setWidth 16).signExtend 32 | .u16 => (a.setWidth 16).setWidth 32
    | .s32 | .u32 => a, false) := by
  cases tg with
  | s8 | s16 => exact congrArg (·, false) (ofInt_signExtend _ a)
  | u8 | u16 => exact congrArg (·, false) (ofNat_mod _ a)
  | s32 => exact congrArg (·, false) ((ofInt_signExtend 32 a).trans (by simp))
  | u32 => exact congrArg (·, false) ((ofNat_mod 32 a).trans (by simp))

/-- A value is clamped to the nearer bound, and changes exactly when it lies outside the bounds. -/
theorem clampInt_bounds {lo hi : Int} (h : lo ≤ hi) (v : Int) :
    clampInt lo hi v = max lo (min v hi) ∧ (v != clampInt lo hi v) = !decide (lo ≤ v ∧ v ≤ hi) := by
  rw [clampInt_eq_min_max h]
  refine ⟨by omega, ?_⟩
  rw [Bool.eq_iff_iff, bne_iff_ne, Bool.not_eq_true', decide_eq_false_iff_not]
  omega

theorem i2iRange_le (tg : ITarget) : (i2iRange tg).1 ≤ (i2iRange tg).2.1 := by
  cases tg <;> decide

/-- With SAT: the nearer bound of the target, with SAT and NX where the value is beyond it (R242). -/
theorem i2iWrite_sat (uin : Bool) (tg : ITarget) (d a : XReg) (r : Regs) : i2iWrite true uin tg d a r =
    let v : Int := if uin = true then (r.x32 a).toNat else (r.x32 a).toInt
    (r.set32 d (BitVec.ofInt 32 (max (i2iRange tg).1 (min v (i2iRange tg).2.1))),
      if (i2iRange tg).1 ≤ v ∧ v ≤ (i2iRange tg).2.1 then 0 else fpxSAT ||| fpxNX) := by
  obtain ⟨hval, hchanged⟩ := clampInt_bounds (i2iRange_le tg) (if uin = true then (r.x32 a).toNat else (r.x32 a).toInt)
  simp only [i2iWrite, i2iRes, if_true]
  rw [hchanged, hval]
  simp only [Bool.not_eq_true', decide_eq_false_iff_not, ite_not]

/-- Settles O18: the slot decides between the computation and FORMAT_SLOT, and I2I is its two forms. -/
theorem blocksFormatSlotsAndI2i : Obligations.BlocksFormatSlotsAndI2i := by
  intro g ftz uin fmt d a c k tg s t th slot z q wrote
  have computed : ∀ {i : Instr} {f' f : Regs → Regs × Fpx}, Lone s i t th → exec i s = .next (s.compute f' t) → f' = f → wrote i f :=
    fun hs h hf => ⟨_, h, hf ▸ compute_spec hs.thread _⟩
  clear_value wrote
  refine ⟨fun h => ?fmtrd, fun h hslot => ?qblk, fun h hslot => ?qblkTraps, fun h hslot => ?dqblk, fun h hslot => ?dqblkTraps,
    fun h => ?wraps, fun h => ?saturates⟩
  case fmtrd => exact computed h (run_lone h _) rfl
  case qblk =>
    exact computed h ((run_lone h _).trans (congrArg _ (withBlock_compute hslot _))) (funext fun r => qblkWrite_eq slot z fmt d a c r)
  case dqblk => exact computed h ((run_lone h _).trans (congrArg _ (withBlock_compute hslot _))) rfl
  case qblkTraps | dqblkTraps => exact (run_lone h _).trans (congrArg _ (withBlock_raise hslot _))
  case wraps =>
    refine computed h (run_lone h _) (funext fun r => ?_)
    rw [i2iWrite, i2iRes_wraps]
    rfl
  case saturates =>
    refine computed h (run_lone h _) (funext fun r => ?_)
    rw [i2iWrite_sat]
    cases tg <;> rfl

end Sys2Proof.Machine
end

section
/-! SHFL, VOTE, MATCH, ELECT and LANEMASK: lane masks bit by bit, and what each operation of a set writes (R248 to R252). -/

namespace Sys2Proof.Machine

open Sys2Proof Sys2Proof.Safety

/-! ### Lane masks -/

theorem getLsbD_laneBit (k i : Nat) : (laneBit k).getLsbD i = (decide (i < 32) && i == k) := by
  rw [laneBit_eq_twoPow, BitVec.getLsbD_twoPow]
  by_cases hk : i = k
  · simp [hk]
  · simp [hk, Ne.symm hk]

theorem getLsbD_maskOfLanes (ls : List Nat) (i : Nat) : (maskOfLanes ls).getLsbD i = (decide (i < 32) && ls.contains i) := by
  rw [maskOfLanes, BitVec.getLsbD_ofFnLE]
  by_cases hi : i < 32 <;> simp [hi]

theorem getLsbD_foldl_laneBit (ls : List Nat) (w : Word) (i : Nat) :
    (ls.foldl (fun w k => w ||| laneBit k) w).getLsbD i = (w.getLsbD i || decide (i < 32) && ls.contains i) := by
  induction ls generalizing w with
  | nil => simp
  | cons k ls ih =>
    rw [List.foldl_cons, ih, BitVec.getLsbD_or, getLsbD_laneBit, List.contains_cons, Bool.or_assoc, ← Bool.and_or_distrib_left]

theorem lanesWord_eq_maskOfLanes (ls : List Nat) : lanesWord ls = maskOfLanes ls := by
  refine BitVec.eq_of_getLsbD_eq fun i _ => ?_
  rw [lanesWord, getLsbD_foldl_laneBit, getLsbD_maskOfLanes]
  simp

theorem laneBit_eq_maskOfLanes (l : Nat) : laneBit l = maskOfLanes [l] :=
  BitVec.zero_or.symm.trans (lanesWord_eq_maskOfLanes [l])

/-- The `n` lowest bits, as a number (Table 12.4). -/
theorem ofNat_two_pow_sub_one (n : Nat) : BitVec.ofNat 32 (2 ^ n - 1) = maskOfLanes (List.range n) := by
  refine BitVec.eq_of_getLsbD_eq fun i hi => ?_
  rw [getLsbD_maskOfLanes, BitVec.getLsbD_ofNat, Nat.testBit_two_pow_sub_one]
  simp

theorem maskOfLanes_and_not_laneBit (ls : List Nat) (l : Nat) :
    maskOfLanes ls &&& ~~~laneBit l = maskOfLanes (ls.filter (· != l)) := by
  refine BitVec.eq_of_getLsbD_eq fun i hi => ?_
  rw [BitVec.getLsbD_and, BitVec.getLsbD_not, getLsbD_maskOfLanes, getLsbD_maskOfLanes, getLsbD_laneBit]
  by_cases hk : i = l <;> simp [hi, hk]

/-! ### Operations without preparation and flags -/

theorem participants_lanes {s : State} (h1 : OneSet s) (i : Instr) (shadow : Bool) : ∀ q ∈ participants s i shadow, q.1 < 32 := by
  rw [participants_eq]
  intro q hq
  obtain ⟨t, ht, rfl⟩ := List.mem_map.mp hq
  exact h1.lanes t (List.mem_filter.mp ht).1

theorem participants_ne_nil {s : State} {i : Instr} (h : participants s i false ≠ []) (shadow : Bool) : participants s i shadow ≠ [] := by
  rw [participants_eq] at h ⊢
  simpa [State.partsOf] using h

/-- Only what is written where there are participants, on the lanes of a group, counts. -/
theorem setDoes_congr {i : Instr} {f f' : Bool → Parts → Nat → Regs → Regs} {x : Bool → Parts → Fpx} (h : SetDoes i f x)
    (hf : ∀ z p l r, p ≠ [] → (∀ q ∈ p, q.1 < 32) → f z p l r = f' z p l r) : SetDoes i f' x := by
  intro s t hs h1 ht hne z p q
  obtain ⟨s', hrun, hrest, hself, hothers, hfpx⟩ := h s t hs h1 ht hne
  refine ⟨s', hrun, hrest, fun u hu th hth => ?_, hothers, hfpx⟩
  have hwrite (b : Bool) : f z (participants s i b) th.lane = f' z (participants s i b) th.lane :=
    funext fun r => hf z _ _ r (participants_ne_nil hne b) (participants_lanes h1 i b)
  rw [hself u hu th hth, hwrite false, hwrite true]

/-- An operation of the set that the participants' registers alone decide. -/
theorem setDoes_exchange {i : Instr} (f' : Parts → Nat → Regs → Regs) {f : Parts → Nat → Regs → Regs}
    (h : ∀ s, exec i s = s.runSets i fun s ts => s.laneSet id f' (fun _ => 0) ts)
    (hf : ∀ p l r, p ≠ [] → (∀ q ∈ p, q.1 < 32) → f' p l r = f p l r) : SetDoes i (fun _ => f) fun _ _ => 0 :=
  setDoes_congr (setDoes_of (fun _ => id) f' (fun _ => 0) h (fun _ _ _ _ _ => rfl) fun _ _ => rfl) fun _ => hf

/-! ### What each operation writes -/

/-- Table 12.2: the base is the lane less its place in the segment, and BACK stays at or above it. -/
theorem shflSource_eq (m : ShflMode) (lane n w : Nat) : shflSource m lane n w =
    let base := lane - lane % w
    match m with
    | .lane => some (base + n % w)
    | .back => if n ≤ lane ∧ base ≤ lane - n then some (lane - n) else none
    | .ahead => if lane + n < base + w then some (lane + n) else none
    | .mirror => some (base + ((lane - base) ^^^ (n % w))) := by
  have hbase : lane / w * w = lane - lane % w := by
    rw [Nat.mul_comm]
    exact Nat.eq_sub_of_add_eq (Nat.div_add_mod lane w)
  cases m with
  | back =>
    simp only [shflSource, hbase]
    exact if_congr (by omega) rfl rfl
  | lane | ahead | mirror => simp only [shflSource, hbase]

theorem elected_eq_min {p : Parts} (hne : p ≠ []) (hl : ∀ q ∈ p, q.1 < 32) : p.elected = ((p.map (·.1)).min?).getD 0 := by
  cases p with
  | nil => exact absurd rfl hne
  | cons q p =>
    have hq : min 31 q.1 = q.1 := Nat.min_eq_right (Nat.le_of_lt_succ (hl q List.mem_cons_self))
    rw [Parts.elected, List.foldl_cons, hq, List.map_cons, List.min?_cons', Option.getD_some, List.foldl_map]

/-- The value that MATCH compares, as a number. -/
def matchVal (w64 : Bool) (a : XReg) (r : Regs) : Nat := if w64 = true then (r.x64 a).toNat else (r.x32 a).toNat

theorem matchVal_beq (w64 : Bool) (a : XReg) (r r' : Regs) :
    ((if w64 then r.x64 a else (r.x32 a).setWidth 64) == if w64 then r'.x64 a else (r'.x32 a).setWidth 64) =
      (matchVal w64 a r == matchVal w64 a r') := by
  rw [Bool.eq_iff_iff, beq_iff_eq, beq_iff_eq, ← BitVec.toNat_inj]
  cases w64 with
  | true => rfl
  | false =>
    have hwide (r : Regs) : ((r.x32 a).setWidth 64).toNat = (r.x32 a).toNat := BitVec.toNat_setWidth_of_le (by decide)
    exact iff_of_eq (congrArg₂ Eq (hwide r) (hwide r'))

theorem matchWrite_eq (w64 : Bool) (all : Option PReg) (d a : XReg) (p : Parts) (l : Nat) (r : Regs) :
    matchWrite w64 all d a p l r = match all with
      | none => r.set32 d (maskOfLanes ((p.filter fun q => matchVal w64 a q.2 == matchVal w64 a r).map (·.1)))
      | some e => if (p.all fun q => matchVal w64 a q.2 == matchVal w64 a r) = true
          then (r.set32 d (maskOfLanes (p.map (·.1)))).setP e true else (r.set32 d 0).setP e false := by
  cases all with
  | none | some e =>
    simp only [matchWrite, Parts.mask, lanesWord_eq_maskOfLanes, matchVal_beq, List.length_filter_eq_length_iff, List.all_eq_true]

theorem voteWrite_eq (neg : Bool) (f : VoteForm) (a : PReg) (p : Parts) (l : Nat) (r : Regs) :
    voteWrite neg f a p l r = match f with
      | .every d => r.setP d (p.all fun q => q.2.pr a ^^ neg)
      | .any d => r.setP d (p.any fun q => q.2.pr a ^^ neg)
      | .same d => r.setP d (p.all (fun q => q.2.pr a ^^ neg) || p.all fun q => !(q.2.pr a ^^ neg))
      | .mask d => r.set32 d (maskOfLanes ((p.filter fun q => q.2.pr a ^^ neg).map (·.1))) := by
  cases f with
  | every d | any d | same d | mask d =>
    simp [voteWrite, lanesWord_eq_maskOfLanes, List.filter_map, List.all_map, List.any_map, Function.comp_def]

theorem laneMaskOf_eq (k : LaneKind) (p : Parts) (l : Nat) : laneMaskOf k p l = match k with
    | .self => maskOfLanes [l]
    | .below => maskOfLanes (List.range l)
    | .thru => maskOfLanes (List.range (l + 1))
    | .above => ~~~maskOfLanes (List.range (l + 1))
    | .onward => ~~~maskOfLanes (List.range l)
    | .parts => maskOfLanes (p.map (·.1))
    | .others => maskOfLanes ((p.map (·.1)).filter (· != l)) := by
  have hthru : BitVec.ofNat 32 (2 * 2 ^ l - 1) = maskOfLanes (List.range (l + 1)) := by
    rw [← Nat.pow_succ', ofNat_two_pow_sub_one]
  cases k with
  | self => exact laneBit_eq_maskOfLanes l
  | below => exact ofNat_two_pow_sub_one l
  | thru => exact hthru
  | above => exact congrArg (~~~ ·) hthru
  | onward => exact congrArg (~~~ ·) (ofNat_two_pow_sub_one l)
  | parts => exact lanesWord_eq_maskOfLanes _
  | others =>
    rw [laneMaskOf, Parts.mask, lanesWord_eq_maskOfLanes]
    exact maskOfLanes_and_not_laneBit _ l

theorem electWrite_eq {p : Parts} (hne : p ≠ []) (hl : ∀ q ∈ p, q.1 < 32) (w : Option XReg) (e : PReg) (l : Nat) (r : Regs) :
    electWrite w e p l r =
      let least := ((p.map (·.1)).min?).getD 0
      match w with
      | some d => (r.setP e (l == least)).set32 d (BitVec.ofNat 32 least)
      | none => r.setP e (l == least) := by
  cases w with
  | none | some d => rw [electWrite, elected_eq_min hne hl]

/-- Settles O23: each is one operation of the set, with the rule's write; only ELECT needs a participant to be there, on a lane of a group. -/
theorem crossLaneExchange : Obligations.CrossLaneExchange := by
  intro g fill wid mode d a b e pa neg w64 kind none0 val least
  have vote (f : VoteForm) := setDoes_exchange (i := .vote g neg f pa) _ (fun _ => rfl) fun p l r _ _ => voteWrite_eq neg f pa p l r
  have matched (all : Option PReg) :=
    setDoes_exchange (i := .matchx g w64 all d a) _ (fun _ => rfl) fun p l r _ _ => matchWrite_eq w64 all d a p l r
  have elect (w : Option XReg) :=
    setDoes_exchange (i := .elect g w e) _ (fun _ => rfl) fun p l r hne hl => electWrite_eq hne hl w e l r
  refine ⟨fun _ => ?shfl, vote (.every e), vote (.any e), vote (.same e), vote (.mask d), matched none, matched (some e),
    elect none, elect (some d), ?lanemask⟩
  case shfl =>
    refine setDoes_exchange (shflWrite fill wid mode d a b e) (fun _ => rfl) fun p l r _ _ => ?_
    simp only [shflWrite, shflSource_eq] <;> rfl
  case lanemask =>
    exact setDoes_exchange _ (fun _ => rfl) fun p l r _ _ => congrArg (r.set32 d) (laneMaskOf_eq kind p l)

end Sys2Proof.Machine
end

section
/-! The reset state (R10, R391, R431). -/

namespace Sys2Proof.Machine

open Sys2Proof Sys2Proof.Safety

/-- Fuses that R10 allows leave all cores, or 4,096 of them with at least 160 on every compute stack. -/
theorem ncore_of_fusesOk {s : State} (h : fusesOk s.disabled = true) :
    (s.ncore = 4224 ∨ s.ncore = 4096) ∧ ∀ d, d < 24 → 160 ≤ s.ndcore d := by
  unfold State.ncore State.ndcore
  rcases hd : s.disabled with _ | ⟨p, l⟩
  · exact ⟨.inl rfl, fun _ _ => by simp [Config.coresPerDie]⟩
  · rw [hd] at h
    simp only [fusesOk, List.isEmpty_cons, Bool.false_or, Bool.and_eq_true, beq_iff_eq, List.all_eq_true (l := List.range _),
      List.mem_range, decide_eq_true_eq] at h
    obtain ⟨⟨⟨hlen, -⟩, -⟩, hdies⟩ := h
    refine ⟨.inr ?_, fun d hlt => ?_⟩
    · rw [hlen]; rfl
    · have := hdies d hlt
      unfold Config.coresPerDie at this ⊢
      omega

/-- Settles O5: the reset state is a literal whose fields evaluate; the cores are counted for any fuses. -/
theorem resetState : Obligations.ResetState := by
  unfold Obligations.ResetState
  intro s
  have hzero : ∀ d, d < 24 → s.apers[d]? = some 0 := by decide
  have hmig : ∀ c, c < 4 → (s.mig c).stat = 0 ∧ (s.mig c).src = 0 ∧ (s.mig c).dst = 0 := by decide
  refine ⟨rfl, rfl, rfl, rfl, rfl, rfl, hzero, hmig, rfl, rfl, rfl, rfl, rfl, fun k => ?core, fun d => ⟨rfl, rfl⟩, rfl, reset_memOk, rfl, rfl,
    fun x hx => ncore_of_fusesOk hx⟩
  case core => exact ⟨rfl, rfl, rfl, rfl, rfl, fun _ => rfl⟩

end Sys2Proof.Machine
end

section
/-! The new values of the atomic operations (R310, R313, Table 15.3). -/

namespace Sys2Proof.Machine

open Sys2Proof Sys2Proof.Safety

/-- The integer and bitwise operations of Table 15.3 on words of any width; the others leave the old word. -/
def atomBits {w : Nat} (op : AtomOp) (old b c : BitVec w) : BitVec w :=
  match op with
  | .add => old + b
  | .min => if b.slt old = true then b else old
  | .max => if old.slt b = true then b else old
  | .umin => if b.ult old = true then b else old
  | .umax => if old.ult b = true then b else old
  | .and => old &&& b
  | .or => old ||| b
  | .xor => old ^^^ b
  | .exch => b
  | .inc => if b.ule old = true then 0 else old + 1
  | .dec => if old = 0 ∨ b.ult old = true then b else old - 1
  | .cas _ => if old = b then c else old
  | .fadd | .fmin | .fmax | .pkaddh | .pkaddb => old

theorem signedOf_toNat {w n : Nat} (h : 8 * n = w) (x : BitVec w) : signedOf n x.toNat = x.toInt := by
  subst h
  exact signExtend_toNat x

theorem atomInt_toNat {w n : Nat} (h : 8 * n = w) (op : AtomOp) (old b c : BitVec w) :
    atomInt op n old.toNat b.toNat c.toNat = (atomBits op old b c).toNat := by
  have hold := old.isLt
  have hb := b.isLt
  cases op with
  | add => simp only [atomInt, atomBits, h, BitVec.toNat_add]
  | min | max => simp only [atomInt, atomBits, signedOf_toNat h, BitVec.slt_eq_decide, decide_eq_true_eq, apply_ite BitVec.toNat]
  | umin | umax => simp only [atomInt, atomBits, BitVec.ult_eq_decide, decide_eq_true_eq, apply_ite BitVec.toNat]
  | and | or | xor | exch | fadd | fmin | fmax | pkaddh | pkaddb => simp [atomInt, atomBits]
  | cas x => simp only [atomInt, atomBits, BitVec.toNat_inj, apply_ite BitVec.toNat]
  | inc =>
    simp only [atomInt, atomBits, BitVec.ule_eq_decide, decide_eq_true_eq, apply_ite BitVec.toNat]
    split
    · rfl
    · next hlt =>
      have hone : (1 : BitVec w).toNat = 1 := Nat.mod_eq_of_lt (show 1 < 2 ^ w by omega)
      rw [BitVec.toNat_add_of_lt] <;> omega
  | dec =>
    have hzero : old = 0 ↔ old.toNat = 0 := by simp [← BitVec.toNat_inj]
    simp only [atomInt, atomBits, BitVec.ult_eq_decide, decide_eq_true_eq, apply_ite BitVec.toNat, hzero]
    split
    · rfl
    · next hpos =>
      have hone : (1 : BitVec w).toNat = 1 := Nat.mod_eq_of_lt (show 1 < 2 ^ w by omega)
      rw [BitVec.toNat_sub_of_le (BitVec.le_def.mpr (by omega)), hone]

theorem ofNat_atomInt {w n : Nat} (h : 8 * n = w) (op : AtomOp) (old b c : BitVec w) :
    BitVec.ofNat w (atomInt op n old.toNat b.toNat c.toNat) = atomBits op old b c := by
  rw [atomInt_toNat h, BitVec.ofNat_toNat, BitVec.setWidth_eq]

theorem atomNew_lt (op : AtomOp) (old b c : Word) : atomNew op 4 old.toNat b.toNat c.toNat < 2 ^ 32 := by
  have int (op : AtomOp) : atomInt op 4 old.toNat b.toNat c.toNat < 2 ^ 32 :=
    (atomInt_toNat (w := 32) (n := 4) rfl op old b c).trans_lt (BitVec.isLt _)
  cases op with
  | fadd | fmin | fmax | pkaddh | pkaddb => exact BitVec.isLt _
  | add | min | max | umin | umax | and | or | xor | exch | inc | dec | cas => simpa only [atomNew] using int _

/-- Settles O25: the integer operations at either width, the floating-point ones by their instructions' results. -/
theorem atomicOperations : Obligations.AtomicOperations := by
  unfold Obligations.AtomicOperations
  refine ⟨fun old b c x => ?four, fun old b c x => ?eight⟩
  case four =>
    have int (op : AtomOp) := ofNat_atomInt (w := 32) (n := 4) rfl op old b c
    have float (f : Word → Word → FRes) :
        BitVec.ofNat 32 (f (BitVec.ofNat 32 old.toNat) (BitVec.ofNat 32 b.toNat)).1.toNat = (f old b).1 := by simp
    exact ⟨int .add, int .min, int .max, int .umin, int .umax, int .and, int .or, int .xor, int .exch, int .inc, int .dec, int (.cas x),
      float (fadd32 .rne false), float (fmm32 false false), float (fmm32 false true), float (pkadd32 false .rne), float (pkadd32 true .rne),
      fun op => atomNew_lt op old b c⟩
  case eight =>
    have int (op : AtomOp) := ofNat_atomInt (w := 64) (n := 8) rfl op old b c
    exact ⟨int .add, int .min, int .max, int .umin, int .umax, int .and, int .or, int .xor, int .exch, int (.cas x)⟩

end Sys2Proof.Machine
end

section
/-! LDS, STS and ATOMS outside regions: the place that R306's checks give, what a scratchpad read answers, and the operation that begins (R308 to R310). -/

namespace Sys2Proof.Machine

open Sys2Proof Sys2Proof.Safety

/-! ### The place and its bytes -/

theorem mem_seqFrom {x a n : Nat} : x ∈ seqFrom a n ↔ a ≤ x ∧ x < a + n := by
  rw [seqFrom_map]
  simp only [List.mem_map, List.mem_range]
  exact ⟨fun ⟨j, hj, e⟩ => by omega, fun h => ⟨x - a, by omega, by omega⟩⟩

theorem mem_wordsMet {w off n : Nat} (h : w ∈ wordsMet off n) : 4 * w < off + n ∧ off < 4 * w + 4 := by
  unfold wordsMet at h
  split at h
  · simp at h
  · rw [mem_seqFrom] at h
    omega

theorem storeBytes_length_le (r : Regs) (d : XReg) (sz : Size) : (storeBytes r d sz).length ≤ sz.bytes :=
  List.length_take_le _ _

section Access
variable {s : State} {t : Tid} {th : Thread} {g : Guard} {fs sx : Bool} {sz : Size} {op : AtomOp} {d b : XReg} {m : MemOp} {base size n a : Nat}

/-- R306's checks pass: the byte's place on the core. -/
theorem scratchCheck_ok {off : Int} (ha : s.away th = false) (hs : s.scratchOf th.id = some (base, size)) (hal : off % n = 0) (h0 : 0 ≤ off)
    (hn : off + n ≤ size) : s.scratchCheck th off n = .ok (base + off.toNat) := by
  have hin : ¬ (off < 0 ∨ (size : Int) < off + n) := by omega
  simp only [State.scratchCheck, ha, hs, hal, ne_eq, not_true_eq_false, Bool.false_eq_true, if_false, hin]

theorem scrRead_sound {core : Nat} (h : ∀ w ∈ (s.core core).scrBad, ¬ (4 * w < a + n ∧ a < 4 * w + 4)) :
    s.scrRead core a n = ((s.core core).scr.read a n, false) := by
  have hmet : ∀ w ∈ wordsMet a n, w ∉ (s.core core).scrBad := fun w hw hb => h w hb (mem_wordsMet hw)
  simp only [State.scrRead, Prod.mk.injEq, true_and]
  simpa using fun _ => hmet

theorem held_quiet (q : Quiet th) : th.held = [] := by simp [Thread.held, q.regions]

theorem viewScr_quiet (q : Quiet th) (a n : Nat) : s.viewScr th a n = s.scrRead th.core a n := by
  simp [State.viewScr, held_quiet q]

theorem prepare_scratch (c : Calm s t) (a : Nat) (data : List Byte) : s.prepare t (.scratch a data) = (s, true) := by
  simp [State.prepare, c.log, clearLines_none c.commands]

/-! ### The three instructions at a checked place -/

theorem loadScratch_sound (ht : s.thread? t = some th) (q : Quiet th) (c : Calm s t) (hi : th.inject = none)
    (hg : ∀ w ∈ (s.core th.core).scrBad, ¬ (4 * w < a + sz.bytes ∧ a < 4 * w + 4)) (off : Int) :
    s.loadScratch t fs sx sz d off a =
      s.startWith t fs 48 ((destRegs d sz).zip (loadWords sz.bytes sx ((s.core th.core).scr.read a sz.bytes))) := by
  simp [State.loadScratch, ht, State.heldByLog, c.log, recall_none c.commands, regionRead_quiet ht q, viewScr_quiet q, scrRead_sound hg, hi]

theorem atomScratch_sound (ht : s.thread? t = some th) (q : Quiet th) (c : Calm s t)
    (hg : ∀ w ∈ (s.core th.core).scrBad, ¬ (4 * w < a + sz.bytes ∧ a < 4 * w + 4)) (v w : Nat) (off : Int) :
    let bs := (s.core th.core).scr.read a sz.bytes
    s.atomScratch t fs op sz d v w off a =
      (s.scrWrite th.core a (bytesOfNat sz.bytes (atomNew op sz.bytes (natOfBytes bs) v w))).startWith t fs 96
        ((destRegs d sz).zip (loadWords sz.bytes false bs)) := by
  intro bs
  have hback : bytesOfNat sz.bytes (natOfBytes bs) = bs := by
    have hlen : bs.length = sz.bytes := by simp [bs, read_map]
    exact hlen ▸ bytes_natOfBytes bs
  simp [State.atomScratch, ht, quiet_region q, prepare_scratch c, scrRead_sound hg, bs, hback]

end Access

/-- Settles O27: R306's checks give the place, the read there is sound, and a write meets no barrier object. -/
theorem scratchpadAccesses : Obligations.ScratchpadAccesses := by
  unfold Obligations.ScratchpadAccesses
  intro s t th g fs sx sz op d b m base size off n a k bytes dest hq hinj hc haway hs hal h0 hsize hwf hsound
  have hbytes : k.scr.read a n = bytes := read_map _ _ _
  have hdest : destRegs d sz = dest := seqFrom_map _ _
  have hcheck {i : Instr} (h : Lone s i t th) : s.scratchCheck th (scratchOff th.regs m) sz.bytes = .ok a :=
    scratchCheck_ok haway (thread?_id h.thread ▸ hs) hal h0 hsize
  refine ⟨fun h => ?lds, fun hobj => ⟨fun h => ?sts, fun h _ => ?atoms⟩⟩
  case lds =>
    refine ⟨_, (run_lone h _).trans ?_, begins_startWith fs 48 _⟩
    simp only [h.thread, hcheck h, State.checked, loadScratch_sound h.thread hq hc hinj hsound]
    rw [hbytes, hdest]
  case sts =>
    refine ⟨_, _, (run_lone h _).trans ?_, scrWrite_written hwf fun x h1 h2 => hobj x h1 ?_, begins_startWith fs 48 _⟩
    · simp only [h.thread, hcheck h, State.checked, quiet_shadow hq, beq_self_eq_true, Bool.and_self, compared_quiet h.thread hq,
        emitThen_done h.thread hq (prepare_scratch hc _ _), State.perform, coreOf_thread h.thread]
    · have := storeBytes_length_le th.regs d sz
      omega
  case atoms =>
    refine ⟨_, _, (run_lone h _).trans ?_, scrWrite_written hwf fun x h1 h2 => hobj x h1 ?_, begins_startWith fs 96 _⟩
    · simp only [h.thread, hcheck h, State.checked, quiet_shadow hq, beq_self_eq_true, Bool.and_self, compared_quiet h.thread hq,
        atomScratch_sound h.thread hq hc hsound]
      rw [hbytes, hdest]
    · rwa [bytesOfNat_length] at h2

end Sys2Proof.Machine
end

section
/-! LDC, LR, ATOMC and CASC outside regions: the segment's end and the request that leaves with it (R272, R306, R311, R313, R314). -/

namespace Sys2Proof.Machine

open Sys2Proof Sys2Proof.Safety

section Access
variable {s : State} {t : Tid} {th : Thread} {g : Guard} {sx : Bool} {hint : BitVec 2} {sz : Size} {op : AtomOp} {d b c : XReg} {m : MemOp}
  {ctx : Ctx} {ia n : Nat} {peer : Option Nat} {p : Perm} {va : DWord}

/-- R306's checks pass: the IA and the peer that the windows give. -/
theorem virtualCheck_ok (ht : s.thread? t = some th) (q : Quiet th) (hc : s.ctx? (s.ctxOf t) = some ctx) (hal : va.toNat % n = 0)
    (htr : translateVA ctx va n p = some (ia, peer)) : s.virtualCheck t va n p = .ok (ia, peer) := by
  simp [State.virtualCheck, hal, ht, viewCtx_quiet ht q hc, htr]

theorem atomicFirst_none (h : ∀ k ∈ s.cores, k.slots = []) (t : Tid) (ia : Nat) (peer : Option Nat) (o : HeldOp) :
    s.atomicFirst t ia peer o = (s, true) := by
  cases o <;> simp [State.atomicFirst, clearLines_none h]

theorem parkAndRequest_noRoom (ht : s.thread? t = some th) (hr : s.requestRoom th.core = false) (o : HeldOp) :
    s.parkAndRequest t d sz ia peer o = s := by
  simp [State.parkAndRequest, ht, hr]

/-- The record that waits for its destination registers (R133). -/
def State.awaitRegs (s : State) (t : Tid) (th : Thread) (d : XReg) (sz : Size) : State :=
  s.park t (successor th.pc) (unionRegs (s.standing th) (destRegs d sz)) .memory 1 (destRegs d sz) none

theorem parkAndRequest_parks (ht : s.thread? t = some th) (hr : s.requestRoom th.core = true) (hs : ∀ k ∈ s.cores, k.slots = [])
    (he : MayEnd s t th (unionRegs (s.standing th) (destRegs d sz))) (o : HeldOp) :
    s.parkAndRequest t d sz ia peer o = (s.awaitRegs t th d sz).memRequest t ia peer o := by
  simp [State.parkAndRequest, ht, hr, atomicFirst_none hs, segEnd_ok ht he, succ_successor, State.awaitRegs]

theorem memRequest_asks (hlog : s.logging t = false) (o : HeldOp) : s.memRequest t ia peer o = s.request t ia peer o := by
  simp [State.memRequest, hlog]

/-! ### The four instructions once R306's checks have passed -/

theorem execLdc_mapped (h : Lone s (.ldc g sx hint sz d m) t th) (q : Quiet th) (hc : s.ctx? (s.ctxOf t) = some ctx)
    (hal : (effAddr th.regs m).toNat % sz.bytes = 0) (htr : translateVA ctx (effAddr th.regs m) sz.bytes .read = some (ia, peer)) :
    exec (.ldc g sx hint sz d m) s = .next (s.parkAndRequest t d sz ia peer (.load sz.bytes sx)) :=
  (run_lone h _).trans (by simp only [h.thread, virtualCheck_ok h.thread q hc hal htr, State.checked])

theorem execLr_mapped (h : Lone s (.lr g sz d m) t th) (q : Quiet th) (hc : s.ctx? (s.ctxOf t) = some ctx)
    (hal : (effAddr th.regs m).toNat % sz.bytes = 0) (htr : translateVA ctx (effAddr th.regs m) sz.bytes .read = some (ia, peer)) :
    exec (.lr g sz d m) s = .next (s.parkAndRequest t d sz ia peer (.lr sz.bytes)) :=
  (run_lone h _).trans (by simp only [h.thread, virtualCheck_ok h.thread q hc hal htr, State.checked])

theorem execAtomc_mapped (h : Lone s (.atomc g op sz d m b) t th) (q : Quiet th) (hc : s.ctx? (s.ctxOf t) = some ctx)
    (hal : (effAddr th.regs m).toNat % sz.bytes = 0) (htr : translateVA ctx (effAddr th.regs m) sz.bytes .rmw = some (ia, peer)) :
    exec (.atomc g op sz d m b) s = .next (s.parkAndRequest t d sz ia peer (.atomic op sz.bytes (dataNat th.regs b sz) 0)) :=
  (run_lone h _).trans (by
    simp only [h.thread, virtualCheck_ok h.thread q hc hal htr, State.checked, quiet_shadow q, beq_self_eq_true, Bool.and_self,
      compared_quiet h.thread q])

theorem execCasc_mapped (h : Lone s (.casc g sz d m b c) t th) (q : Quiet th) (hc : s.ctx? (s.ctxOf t) = some ctx)
    (hal : (effAddr th.regs m).toNat % sz.bytes = 0) (htr : translateVA ctx (effAddr th.regs m) sz.bytes .rmw = some (ia, peer)) :
    exec (.casc g sz d m b c) s =
      .next (s.parkAndRequest t d sz ia peer (.atomic (.cas 0) sz.bytes (dataNat th.regs b sz) (dataNat th.regs c sz))) :=
  (run_lone h _).trans (by
    simp only [h.thread, virtualCheck_ok h.thread q hc hal htr, State.checked, quiet_shadow q, beq_self_eq_true, Bool.and_self,
      compared_quiet h.thread q])

end Access

/-- Settles O28: each is its checks, then `parkAndRequest`: the stall, the request, or the side log. -/
theorem loadsAndAtomics : Obligations.LoadsAndAtomics := by
  unfold Obligations.LoadsAndAtomics
  intro s t th g sx hint sz op d b c m ctx ia peer va dest live parked ask wait v hc hal he hs
  have stays (hr : s.requestRoom th.core = false) (ht : s.thread? t = some th) (o : HeldOp) :
      Host.Outcome.next (φ := Fault) (ρ := Refusal) (s.parkAndRequest t d sz ia peer o) = .next s := by
    rw [parkAndRequest_noRoom ht hr]
  have parks (hr : s.requestRoom th.core = true) (ht : s.thread? t = some th) (o : HeldOp) :
      s.parkAndRequest t d sz ia peer o = parked.memRequest t ia peer o := parkAndRequest_parks ht hr hs he o
  have asks (hr : s.requestRoom th.core = true) (hlog : parked.logging t = false) (ht : s.thread? t = some th) (o : HeldOp) :
      Host.Outcome.next (φ := Fault) (ρ := Refusal) (s.parkAndRequest t d sz ia peer o) = .next (ask o) := by
    rw [parks hr ht, memRequest_asks hlog]
  refine ⟨fun hr => ⟨fun htr => ⟨fun h => ?ldcStays, fun h => ?lrStays⟩, fun htr => ⟨fun h => ?atomcStays, fun h => ?cascStays⟩⟩,
    fun hr htr => ⟨fun hlog => ⟨fun h => ?ldcAsks, fun h => ?lrAsks⟩, fun hlog => ⟨fun h => ?ldc, fun h => ?lr⟩⟩,
    fun hr htr => ⟨fun hlog => ⟨fun h => ?atomcAsks, fun h => ?cascAsks⟩, fun hlog => ⟨fun h => ?atomc, fun h => ?casc⟩⟩⟩
  case ldcStays => exact (execLdc_mapped h he.quiet hc hal htr).trans (stays hr h.thread _)
  case lrStays => exact (execLr_mapped h he.quiet hc hal htr).trans (stays hr h.thread _)
  case atomcStays => exact (execAtomc_mapped h he.quiet hc hal htr).trans (stays hr h.thread _)
  case cascStays => exact (execCasc_mapped h he.quiet hc hal htr).trans (stays hr h.thread _)
  case ldcAsks => exact (execLdc_mapped h he.quiet hc hal htr).trans (asks hr hlog h.thread _)
  case lrAsks => exact (execLr_mapped h he.quiet hc hal htr).trans (asks hr hlog h.thread _)
  case atomcAsks => exact (execAtomc_mapped h he.quiet hc hal htr).trans (asks hr hlog h.thread _)
  case cascAsks => exact (execCasc_mapped h he.quiet hc hal htr).trans (asks hr hlog h.thread _)
  case ldc => exact (execLdc_mapped h he.quiet hc hal htr).trans (by rw [parks hr h.thread, State.memRequest, hlog]; rfl)
  case lr => exact (execLr_mapped h he.quiet hc hal htr).trans (by rw [parks hr h.thread, State.memRequest, hlog]; rfl)
  case atomc => exact (execAtomc_mapped h he.quiet hc hal htr).trans (by rw [parks hr h.thread, State.memRequest, hlog]; rfl)
  case casc => exact (execCasc_mapped h he.quiet hc hal htr).trans (by rw [parks hr h.thread, State.memRequest, hlog]; rfl)

end Sys2Proof.Machine
end

section
/-! Loads, LR and atomics at their home in module memory (R267, R278, R294, R311, R313, R314). -/

namespace Sys2Proof.Machine

open Sys2Proof Sys2Proof.Safety

section Home
variable {s : State} {t : Tid} {th : Thread} {ia pa n b c : Nat} {sx : Bool} {op : AtomOp}

/-! ### The translation that a home keeps -/

theorem keepTranslation_idem (s : State) (ia : Nat) : (s.keepTranslation ia).keepTranslation ia = s.keepTranslation ia := by
  have hwalk := walk_keepTranslation s ia
  cases hw : s.walk ia with
  | fault k l e => simp only [State.keepTranslation, hw]
  | leaf e l a =>
    rw [hw] at hwalk
    have hkept : ((s.keepTranslation ia).tlb.any (keptBy (homeDie ia) ia)) = true := by
      simp only [State.keepTranslation, hw]
      split
      · assumption
      · simp [keptBy, Nat.mul_div_cancel _ (Nat.two_pow_pos _)]
    rw [State.keepTranslation]
    simp only [hwalk, hkept, if_true]

theorem writeLine_keepTranslation (s : State) (ia pa p : Nat) (data : List Byte) (u : Option Tid) :
    (s.keepTranslation ia).writeLine ia pa p data u = s.writeLine ia pa p data u := by
  simp only [State.writeLine, keepTranslation_idem]

theorem lineBad_keepTranslation (s : State) (ia pa : Nat) : (s.keepTranslation ia).lineBad ia pa = s.lineBad ia pa := by
  rw [keepTranslation_rest]
  rfl

/-! ### What the home answers -/

/-- What a read answers its record: the words, or zeros and UNCORRECTABLE (R278, R311). -/
def Thread.answer (th : Thread) (t : Tid) (ia : Nat) (bad : Bool) (ws : List Word) : Completion :=
  if bad = true then { t, xs := th.dest.map fun r => (r, 0), p := none, cause := some (.uncorrectable, BitVec.ofNat 64 ia), set := none }
  else { t, xs := th.dest.zip ws, p := none, cause := none, set := none }

theorem finishRead_eq (ht : s.thread? t = some th) (ia : Nat) (ws : List Word) (bad : Bool) :
    s.finishRead t ia ws bad = { s with compl := s.compl ++ [th.answer t ia bad ws] } := by
  cases bad <;> simp [State.finishRead, ht, State.pushCompl, Thread.answer]

theorem request_mem {o : HeldOp} (hs : ∀ k ∈ s.cores, k.slots = []) (hr : s.route ia (!o.isRead) = .to (.mem pa)) :
    s.request t ia none o = s.atMem t ia pa o := by
  simp [State.request, recall_none hs, hr]

/-- The thread at tick `p`. -/
def Thread.atTick (p : Nat) (th : Thread) : Thread := { th with pts := p }

theorem thread?_atTick_self (ht : s.thread? t = some th) (p : Nat) : (s.modThread t (.atTick p)).thread? t = some (th.atTick p) :=
  thread?_modThread_self ht (show th.id = t from thread?_id ht)

/-- A load at its home keeps a translation, moves ticks (R283) and answers. -/
theorem atMem_load (ht : s.thread? t = some th) : ∃ tlb ticks p, s.atMem t ia pa (.load n sx) = { s.modThread t (.atTick p) with
    tlb, ticks, compl := s.compl ++ [th.answer t ia (s.lineBad ia pa) (loadWords n sx (s.mem.read pa n))] } := by
  obtain ⟨tlb, hk⟩ : ∃ tlb, s.keepTranslation ia = { s with tlb } := ⟨_, keepTranslation_rest s ia⟩
  let s1 : State := { s with tlb }
  rw [State.atMem, hk]
  exact ⟨tlb, (s1.tickLoad t (ia / 64)).ticks, (s1.tickR (ia / 64) (s1.ptsOf t)).2,
    finishRead_eq (s := s1.tickLoad t (ia / 64)) (thread?_atTick_self ht _) ia _ _⟩

/-- The thread with a reservation of a line of this module (R294). -/
def Thread.reserving (line cycle : Nat) (th : Thread) : Thread := { th with resv := some ⟨line, none, cycle⟩ }

theorem thread?_reserving_self (ht : s.thread? t = some th) (line cycle : Nat) :
    (s.modThread t (.reserving line cycle)).thread? t = some (th.reserving line cycle) :=
  thread?_modThread_self ht (show th.id = t from thread?_id ht)

/-- LR does as a load, and takes the reservation and the line's write lease (R294, R314). -/
theorem atMem_lr (ht : s.thread? t = some th) : ∃ tlb ticks p,
    s.atMem t ia pa (.lr n) = { (s.modThread t (.atTick p)).modThread t (.reserving (ia / 64) s.cycle) with
      tlb, ticks, compl := s.compl ++ [th.answer t ia (s.lineBad ia pa) (loadWords n false (s.mem.read pa n))]
      leases := (ia / 64, s.dieOf th.core) :: s.leases.filter fun x => x.1 != ia / 64 } := by
  obtain ⟨tlb, hk⟩ : ∃ tlb, s.keepTranslation ia = { s with tlb } := ⟨_, keepTranslation_rest s ia⟩
  let s1 : State := { s with tlb }
  let s2 : State := (s1.tickLoad t (ia / 64)).modThread t (.reserving (ia / 64) s.cycle)
  have hself : s2.thread? t = some ((th.atTick (s1.tickR (ia / 64) (s1.ptsOf t)).2).reserving (ia / 64) s.cycle) :=
    thread?_reserving_self (thread?_atTick_self ht _) _ _
  have hcore : s2.coreOf t = th.core := (coreOf_thread hself).trans rfl
  have hdie : s2.dieOf (s2.coreOf t) = s.dieOf th.core := congrArg s.dieOf hcore
  rw [State.atMem, hk, ← hdie]
  exact ⟨tlb, (s1.tickLoad t (ia / 64)).ticks, (s1.tickR (ia / 64) (s1.ptsOf t)).2,
    finishRead_eq (s := { s2 with leases := (ia / 64, s2.dieOf (s2.coreOf t)) :: s.leases.filter fun x => x.1 != ia / 64 }) hself ia _ _⟩

theorem atMem_atomic_bad (ht : s.thread? t = some th) (hb : s.lineBad ia pa = true) :
    ∃ tlb, s.atMem t ia pa (.atomic op n b c) = { s with tlb, compl := s.compl ++ [th.answer t ia true []] } := by
  obtain ⟨tlb, hk⟩ : ∃ tlb, s.keepTranslation ia = { s with tlb } := ⟨_, keepTranslation_rest s ia⟩
  have hbad : State.lineBad { s with tlb } ia pa = true := hb
  refine ⟨tlb, ?_⟩
  simp only [State.atMem, State.readPA, hk, hbad, if_true]
  exact finishRead_eq (s := { s with tlb }) ht ia [] true

/-- What a write of less than a line by a thread leaves at its home, its tick moved. -/
def State.wroteLine (s : State) (t : Tid) (ia pa : Nat) (data : List Byte) : State :=
  (s.writeLine ia pa (s.ptsOf t) data (some t)).1.modThread t (.atTick (s.writeLine ia pa (s.ptsOf t) data (some t)).2)

theorem wroteLine_written {data : List Byte} (w : s.mem.wf = true) (hn : data.length < 64) : LineWritten t ia pa data s (s.wroteLine t ia pa data) :=
  writeLine_written (s.ptsOf t) w hn

theorem atMem_atomic_good (ht : s.thread? t = some th) (hb : s.lineBad ia pa = false) (w : s.mem.wf = true) (hn : n < 64) :
    let s1 := s.wroteLine t ia pa (bytesOfNat n (atomNew op n (natOfBytes (s.mem.read pa n)) b c))
    s.atMem t ia pa (.atomic op n b c) =
      { s1 with compl := s1.compl ++ [th.answer t ia false (loadWords n false (s.mem.read pa n))] } := by
  intro s1
  obtain ⟨-, -, -, -, -, -, hthreads⟩ : LineWritten t ia pa _ s s1 := wroteLine_written w (by rwa [bytesOfNat_length])
  obtain ⟨p, hself⟩ := hthreads t th ht
  have hpts : (s.keepTranslation ia).ptsOf t = s.ptsOf t := by rw [keepTranslation_rest]; rfl
  simp only [State.atMem, State.readPA, keepTranslation_mem, lineBad_keepTranslation, hb, writeLine_keepTranslation, hpts, Bool.false_eq_true, if_false]
  exact finishRead_eq hself ia _ false

end Home

/-- Settles O30: the home's translation and the answer, then for an atomic the line's write. -/
theorem accessesAtTheHome : Obligations.AccessesAtTheHome := by
  unfold Obligations.AccessesAtTheHome
  intro s t th ia pa n b c sx op ht hs w bytes bad answer
  have hread : s.mem.read pa n = bytes := read_map _ _ _
  have hanswer (ws : List Word) : answer ws = s.compl ++ [th.answer t ia bad ws] := by
    simp only [answer, Thread.answer]
    split <;> rfl
  refine ⟨fun hr => ⟨?load, ?lr⟩, fun hr hn => ?atomic⟩
  case load =>
    obtain ⟨tlb, ticks, p, heq⟩ := atMem_load (ia := ia) (pa := pa) (n := n) (sx := sx) ht
    rw [request_mem hs hr, hanswer, heq, hread]
    exact ⟨rfl, ⟨p, thread?_atTick_self ht p⟩, fun u hu => thread?_modThread_other (fun _ => rfl) hu⟩
  case lr =>
    obtain ⟨tlb, ticks, p, heq⟩ := atMem_lr (ia := ia) (pa := pa) (n := n) ht
    rw [request_mem hs hr, hanswer, heq, hread]
    refine ⟨rfl, ⟨p, thread?_reserving_self (thread?_atTick_self ht p) _ _⟩, fun u hu => ?_⟩
    exact (thread?_modThread_other (f := .reserving (ia / 64) s.cycle) (fun _ => rfl) hu).trans
      (thread?_modThread_other (f := .atTick p) (fun _ => rfl) hu)
  case atomic =>
    rw [request_mem hs hr]
    refine ⟨fun hbad => ?_, fun hgood => ?_⟩
    · obtain ⟨tlb, heq⟩ := atMem_atomic_bad (n := n) (op := op) (b := b) (c := c) ht hbad
      rw [heq, hanswer, hbad]
    · let s1 := s.wroteLine t ia pa (bytesOfNat n (atomNew op n (natOfBytes bytes) b c))
      have hw : LineWritten t ia pa _ s s1 := wroteLine_written w (by rwa [bytesOfNat_length])
      have hcompl : s1.compl = s.compl := (congrArg State.compl hw.1).trans rfl
      rw [atMem_atomic_good ht hgood w hn, hanswer, hread, hgood, ← hcompl]
      exact ⟨rfl, hw⟩

end Sys2Proof.Machine
end

section
/-! ST and RED outside regions: the write at its home, at a peer, or in the side log (R271, R272, R278, R281, R312, R313). -/

namespace Sys2Proof.Machine

open Sys2Proof Sys2Proof.Safety

/-- A store or a reduction at `ia`, through a PEER window to `peer` (R312, R313). -/
inductive WritesAt (ia : Nat) (peer : Option Nat) : Eff → Prop where
  | store (data : List Byte) : WritesAt ia peer (.store ia peer data)
  | red (op : AtomOp) (n v : Nat) : WritesAt ia peer (.red op ia peer n v)

section Write
variable {s : State} {t : Tid} {th : Thread} {e : Eff} {ia pa : Nat} {peer : Option Nat}

theorem WritesAt.ia_eq (he : WritesAt ia peer e) : e.ia = ia := by cases he <;> rfl
theorem WritesAt.peer_eq (he : WritesAt ia peer e) : e.peer = peer := by cases he <;> rfl

/-! ### Whether the write can be made now (R8, R272) -/

theorem logFull_eq (s : State) (core : Nat) :
    (!s.logFull core) = decide (((s.core core).sidelog.filter SideEnt.takesPlace).length < 256) := by
  simp only [State.logFull, ← decide_not, not_le]

theorem prepare_logs (he : WritesAt ia peer e) (hl : s.storeLogs t e = true) : s.prepare t e = (s, !s.logFull (s.coreOf t)) := by
  cases he <;> simp [State.prepare, hl]

theorem prepare_noRoom (he : WritesAt ia peer e) (hl : s.storeLogs t e = false) (hr : s.requestRoom (s.coreOf t) = false) :
    s.prepare t e = (s, false) := by
  cases he <;> simp [State.prepare, hl, hr]

theorem prepare_room (he : WritesAt ia peer e) (hl : s.storeLogs t e = false) (hr : s.requestRoom (s.coreOf t) = true)
    (hs : ∀ k ∈ s.cores, k.slots = []) : s.prepare t e = (s, true) := by
  cases he <;> simp [State.prepare, hl, hr, clearLines_none hs]

theorem storeLogs_logging (hlog : s.logging t = true) (e : Eff) : s.storeLogs t e = true := by simp [State.storeLogs, hlog]

theorem storeLogs_peer {mod : Nat} (he : WritesAt ia (some mod) e) (hlog : s.logging t = false) : s.storeLogs t e = false := by
  cases he <;> simp [State.storeLogs, hlog, Eff.peer]

theorem storeLogs_mem (he : WritesAt ia none e) (hlog : s.logging t = false) (hr : s.route ia true = .to (.mem pa)) :
    s.storeLogs t e = false := by
  cases he <;> simp [State.storeLogs, hlog, Eff.peer, Eff.ia, hr]

theorem storeLogs_fault {f : FaultKind} {l : Nat} {x : DWord} (he : WritesAt ia none e) (hr : s.route ia true = .fault f l x) :
    s.storeLogs t e = true := by
  cases he <;> simp [State.storeLogs, Eff.peer, Eff.ia, hr]

theorem storeLogs_blocked (he : WritesAt ia none e) (hr : s.route ia true = .blocked) : s.storeLogs t e = true := by
  cases he <;> simp [State.storeLogs, Eff.peer, Eff.ia, hr]

/-! ### The write (R281, R312, R313) -/

theorem perform_storeRequest (he : WritesAt ia peer e) : s.perform t e = s.storeRequest t e := by cases he <;> rfl

theorem storeRequest_logging (he : WritesAt ia peer e) (hlog : s.logging t = true) :
    s.storeRequest t e = s.pushLog (s.coreOf t) { t, ia, peer, op := .write e, held := false } := by
  simp [State.storeRequest, hlog, he.ia_eq, he.peer_eq]

theorem storeRequest_peer {mod : Nat} (he : WritesAt ia (some mod) e) (hlog : s.logging t = false) :
    s.storeRequest t e = s.pushOutFrom (s.coreOf t) t (.peer mod ia) (.write e) := by
  cases he <;> simp [State.storeRequest, hlog, State.writeDo, Eff.peer, Eff.ia]

theorem storeRequest_mem (he : WritesAt ia none e) (hlog : s.logging t = false) (hr : s.route ia true = .to (.mem pa)) :
    s.storeRequest t e = s.writeMem t pa ia e := by
  cases he <;> simp [State.storeRequest, hlog, State.writeDo, Eff.peer, Eff.ia, hr]

theorem storeRequest_blocked (he : WritesAt ia none e) (hlog : s.logging t = false) (hr : s.route ia true = .blocked) :
    s.storeRequest t e = s.pushLog (s.coreOf t) { t, ia, peer := none, op := .write e, held := true } := by
  cases he <;> simp [State.storeRequest, hlog, State.writeDo, State.logHeld, Eff.peer, Eff.ia, hr]

theorem storeRequest_fault {f : FaultKind} {l : Nat} {x : DWord} (he : WritesAt ia none e) (hlog : s.logging t = false)
    (hr : s.route ia true = .fault f l x) : s.storeRequest t e =
      (s.report true (s.ctxOf t) ia .store f l x).pushLog (s.coreOf t) { t, ia, peer := none, op := .write e, held := true } := by
  cases he <;> simp [State.storeRequest, hlog, State.writeDo, State.logHeld, Eff.peer, Eff.ia, hr]

/-! ### The fault's record (R271) -/

/-- A record of the granule and kind has been delivered, and an access is held there since. -/
def State.told (s : State) (ia : Nat) (f : FaultKind) : Bool := s.holdsFault (ia / 4096) && s.reported.contains (ia / 4096, f)

theorem report_told {hold : Bool} {ctx l : Nat} {acc : AccKind} {f : FaultKind} {x : DWord} (h : s.told ia f = true) :
    s.report hold ctx ia acc f l x = s := by
  simp only [State.told, Bool.and_eq_true] at h
  obtain ⟨hheld, htold⟩ := h
  simp only [State.report, hheld, htold, if_true]

theorem report_untold {hold : Bool} {ctx l : Nat} {acc : AccKind} {f : FaultKind} {x : DWord} (h : s.told ia f = false) :
    ∃ r, s.report hold ctx ia acc f l x = { s with reported := r, work := s.work ++ [.fault ctx (ia / 64 * 64) f acc l x] } := by
  have hnew : (if s.holdsFault (ia / 4096) = true then s.reported else s.reported.filter fun r => r.1 != ia / 4096).contains (ia / 4096, f)
      = false := by
    simp only [State.told] at h
    split
    · next hheld => simpa [hheld] using h
    · simp
  simp only [State.report, hnew, Bool.false_eq_true, if_false]
  exact ⟨_, rfl⟩

theorem pushLog_with (s : State) (core : Nat) (x : SideEnt) (r : List (Nat × FaultKind)) (w : List Work) :
    State.pushLog { s with reported := r, work := w } core x = { s.pushLog core x with reported := r, work := w } := by
  simp only [State.pushLog, State.modCore]
  split <;> rfl

theorem pushLog_rest (s : State) (core : Nat) (x : SideEnt) : s.pushLog core x = { s with cores := (s.pushLog core x).cores } :=
  modCore_rest s core _

/-- The entry of a write that faults, and the record where it is new. -/
theorem report_pushLog (s : State) (ctx ia core l : Nat) (f : FaultKind) (x : DWord) (y : SideEnt) : ∃ r w,
    (s.report true ctx ia .store f l x).pushLog core y = { s.pushLog core y with reported := r, work := w } ∧
      (s.told ia f = true → w = s.work) ∧ (s.told ia f = false → w = s.work ++ [.fault ctx (ia / 64 * 64) f .store l x]) := by
  cases h : s.told ia f with
  | true =>
    refine ⟨s.reported, s.work, ?_, fun _ => rfl, nofun⟩
    rw [report_told h, ← pushLog_with]
  | false =>
    obtain ⟨r, heq⟩ := report_untold (hold := true) (ctx := ctx) (acc := .store) (l := l) (x := x) h
    exact ⟨r, _, by rw [heq, pushLog_with], nofun, fun _ => rfl⟩

/-! ### ST and RED are their effect -/

theorem storeBytes_length_lt (r : Regs) (d : XReg) (sz : Size) : (storeBytes r d sz).length < 64 :=
  (storeBytes_length_le r d sz).trans_lt (by cases sz <;> decide)

theorem exec_writesAt {i : Instr} {g : Guard} {hint : BitVec 2} {sz : Size} {op : AtomOp} {d : XReg} {m : MemOp} {ctx : Ctx}
    (h : Lone s i t th) (q : Quiet th) (hc : s.ctx? (s.ctxOf t) = some ctx) (hal : (effAddr th.regs m).toNat % sz.bytes = 0)
    (htr : translateVA ctx (effAddr th.regs m) sz.bytes .write = some (ia, peer))
    (hi : i = .st g hint sz d m ∧ e = .store ia peer (storeBytes th.regs d sz) ∨
      i = .red g op sz d m ∧ e = .red op ia peer sz.bytes (dataNat th.regs d sz)) :
    WritesAt ia peer e ∧ exec i s = .next (s.emitThen t e fun s => s.advance t) := by
  rcases hi with ⟨rfl, rfl⟩ | ⟨rfl, rfl⟩
  · refine ⟨.store _, (run_lone h _).trans ?_⟩
    simp only [h.thread, virtualCheck_ok h.thread q hc hal htr, State.checked, quiet_shadow q, beq_self_eq_true, Bool.and_self,
      compared_quiet h.thread q]
  · refine ⟨.red _ _ _, (run_lone h _).trans ?_⟩
    simp only [h.thread, virtualCheck_ok h.thread q hc hal htr, State.checked, quiet_shadow q, beq_self_eq_true, Bool.and_self,
      compared_quiet h.thread q, quiet_region q, Bool.false_and, Bool.false_eq_true, if_false]

theorem writeMem_store (w : s.mem.wf = true) {data : List Byte} (hn : data.length < 64) :
    LineWritten t ia pa data s (s.writeMem t pa ia (.store ia none data)) :=
  writeLine_written (s.ptsOf t) w hn

theorem writeMem_red_good {op : AtomOp} {n v : Nat} (w : s.mem.wf = true) (hn : n < 64) (hb : s.lineBad ia pa = false) :
    LineWritten t ia pa (bytesOfNat n (atomNew op n (natOfBytes (s.mem.read pa n)) v 0)) s (s.writeMem t pa ia (.red op ia none n v)) := by
  simp only [State.writeMem, State.readPA, hb, Bool.false_eq_true, if_false]
  exact writeLine_written (s.ptsOf t) w (by rwa [bytesOfNat_length])

/-- A reduction of an uncorrectable line writes nothing: its thread's tick is set to what it is. -/
theorem writeMem_red_bad {op : AtomOp} {n v : Nat} (ht : s.thread? t = some th) (hb : s.lineBad ia pa = true) :
    let s' := s.writeMem t pa ia (.red op ia none n v)
    s' = { s with threads := s'.threads } ∧ ∀ u, s'.thread? u = s.thread? u := by
  simp only [State.writeMem, State.readPA, hb, if_true]
  refine ⟨rfl, fun u => ?_⟩
  by_cases hu : u = t
  · subst hu
    have hpts : s.ptsOf u = th.pts := by simp [State.ptsOf, ht]
    rw [ht, hpts]
    exact thread?_modThread_self ht (show th.id = u from thread?_id ht)
  · exact thread?_modThread_other (fun _ => rfl) hu

end Write

/-- Settles O32: ST and RED are an effect, whose preparation stalls, logs or passes, and whose performance is the write. -/
theorem storesAndReductions : Obligations.StoresAndReductions := by
  unfold Obligations.StoresAndReductions
  intro s t th g hint sz op d m ctx ia pa mod peer i e va n k data bytes room log h q hs w hc hal htr hi
  obtain ⟨he, hexec⟩ := exec_writesAt h q hc hal htr hi
  have hcore : s.coreOf t = k := coreOf_thread h.thread
  have hread : s.mem.read pa n = bytes := read_map _ _ _
  have hroomLog : (!s.logFull (s.coreOf t)) = room := by rw [logFull_eq, hcore]
  have does (hp : s.prepare t e = (s, true)) : exec i s = .next ((s.storeRequest t e).advance t) := by
    rw [hexec, emitThen_done h.thread q hp, perform_storeRequest he]
  have logs (hl : s.storeLogs t e = true) (hroom : room = true) : exec i s = .next ((s.storeRequest t e).advance t) :=
    does (by rw [prepare_logs he hl, hroomLog, hroom])
  refine ⟨fun hlog hr hto => ?stays, fun hlog hr hpeer hroute => ?mem, fun hlog hr hpeer => ?peer, fun hlog hroom hpeer hroute => ?blocked,
    fun hlog hroom hpeer f l x hroute => ?fault, fun hlog hroom => ?behind, fun hlog hroom => ?full⟩
  case stays =>
    have hl : s.storeLogs t e = false := by
      rcases hto with ⟨x, rfl⟩ | hroute
      · exact storeLogs_peer he hlog
      · cases peer with
        | none => exact storeLogs_mem he hlog hroute
        | some x => exact storeLogs_peer he hlog
    rw [hexec, emitThen_stall h.thread q (prepare_noRoom he hl (hcore ▸ hr))]
  case mem =>
    subst hpeer
    have hmem := does (prepare_room he (storeLogs_mem he hlog hroute) (hcore ▸ hr) hs)
    rw [storeRequest_mem he hlog hroute] at hmem
    rcases hi with ⟨rfl, rfl⟩ | ⟨rfl, rfl⟩
    · exact ⟨fun _ => ⟨_, hmem, writeMem_store w (storeBytes_length_lt _ _ _)⟩, nofun, nofun⟩
    · refine ⟨nofun, fun _ hbad => ⟨_, hmem, writeMem_red_bad h.thread hbad⟩, fun _ hgood => ⟨_, hmem, ?_⟩⟩
      rw [← hread]
      exact writeMem_red_good w (by cases sz <;> decide) hgood
  case peer =>
    subst hpeer
    rw [does (prepare_room he (storeLogs_peer he hlog) (hcore ▸ hr) hs), storeRequest_peer he hlog, hcore]
    rfl
  case blocked =>
    subst hpeer
    rw [logs (storeLogs_blocked he hroute) hroom, storeRequest_blocked he hlog hroute, hcore]
  case fault =>
    subst hpeer
    obtain ⟨r, w, heq, htold, hnew⟩ := report_pushLog s (s.ctxOf t) ia k l f x { t, ia, peer := none, op := .write e, held := true }
    refine ⟨r, w, ?_, htold, hnew⟩
    rw [logs (storeLogs_fault he hroute) hroom, storeRequest_fault he hlog hroute, hcore, heq]
  case behind => rw [logs (storeLogs_logging hlog e) hroom, storeRequest_logging he hlog, hcore]
  case full =>
    have hstall : s.prepare t e = (s, false) := by rw [prepare_logs he (storeLogs_logging hlog e), hroomLog, hroom]
    rw [hexec, emitThen_stall h.thread q hstall]

end Sys2Proof.Machine
end

section
/-! SC outside regions, and its unit's answer (R267, R271, R272, R294, R306, R315). -/

namespace Sys2Proof.Machine

open Sys2Proof Sys2Proof.Safety

section Home
variable {s : State} {t : Tid} {th : Thread} {ia pa : Nat}

/-! ### DIRTY set twice is DIRTY set once (R267) -/

/-- Once a home has kept its translation, the translation it uses is the kept one. -/
theorem kept_of_walk {e : DWord} {l a : Nat} (h : s.walk ia = .leaf e l a) : (s.keepTranslation ia).xroot.getLsbD 0 = true ∧
    ∃ d p k, (s.keepTranslation ia).tlb.find? (keptBy (homeDie ia) ia) = some (d, p, k, e, l, a) := by
  have hx : s.xroot.getLsbD 0 = true := by
    by_contra hc
    simp only [State.walk, if_neg hc] at h
    exact absurd h (by simp)
  refine ⟨by rwa [keepTranslation_rest], ?_⟩
  by_cases hany : s.tlb.any (keptBy (homeDie ia) ia) = true
  · obtain ⟨y, hy⟩ := Option.isSome_iff_exists.mp (List.find?_isSome.mpr (List.any_eq_true.mp hany))
    have hkeep : s.keepTranslation ia = s := by simp only [State.keepTranslation, h, hany, if_true]
    obtain ⟨d, p, k, e', l', a'⟩ := y
    simp only [State.walk, hx, if_true, hy, Walk.leaf.injEq] at h
    obtain ⟨rfl, rfl, rfl⟩ := h
    rw [hkeep]
    exact ⟨d, p, k, hy⟩
  · simp only [State.keepTranslation, h, hany, Bool.false_eq_true, if_false]
    refine ⟨_, _, _, List.find?_cons_of_pos ?_⟩
    simp [keptBy, Nat.mul_div_cancel _ (Nat.two_pow_pos _)]

/-- The leaf `e` of the entry at `a` gets DIRTY in a kept translation. -/
def dirtyKept (e : DWord) (l a : Nat) (x : Nat × Nat × Nat × DWord × Nat × Nat) : Nat × Nat × Nat × DWord × Nat × Nat :=
  if x.2.2.2.2.2 = a then (x.1, x.2.1, x.2.2.1, e ||| 0x20, l, a) else x

theorem keptBy_dirtyKept (e : DWord) (l a die ia : Nat) : keptBy die ia ∘ dirtyKept e l a = keptBy die ia := by
  funext x
  simp only [Function.comp, keptBy, dirtyKept]
  split <;> rfl

theorem markDirty_leaf {e : DWord} {l a : Nat} (h : s.walk ia = .leaf e l a) (hd : e.getLsbD 5 = false) : s.markDirty ia =
    { s with mem := s.mem.put a (s.mem.get a ||| 0x20), tlb := s.tlb.map (dirtyKept e l a) } := by
  simp only [State.markDirty, h, hd, Bool.false_eq_true, if_false]
  rfl

theorem walk_markDirty {e : DWord} {l a : Nat} (h : s.walk ia = .leaf e l a) (hd : e.getLsbD 5 = false) :
    ((s.keepTranslation ia).markDirty ia).walk ia = .leaf (e ||| 0x20) l a := by
  obtain ⟨hx, d, p, k, hy⟩ := kept_of_walk h
  rw [markDirty_leaf ((walk_keepTranslation s ia).trans h) hd]
  generalize s.keepTranslation ia = s1 at hx hy
  have hfind : (s1.tlb.map (dirtyKept e l a)).find? (keptBy (homeDie ia) ia) = some (d, p, k, e ||| 0x20, l, a) := by
    rw [List.find?_map, keptBy_dirtyKept, hy]
    simp [dirtyKept]
  simp only [State.walk, hx, if_true, hfind]

/-- A home's write of a page leaves DIRTY set, whether it has passed there before or not. -/
theorem dirtied_passed (w : s.mem.wf = true) (ia x : Nat) : dirtied ((s.keepTranslation ia).markDirty ia) ia x = dirtied s ia x := by
  have hget : ((s.keepTranslation ia).markDirty ia).mem.get x = dirtied s ia x := by
    rw [get_markDirty (by rwa [keepTranslation_mem]), dirtied, dirtied, walk_keepTranslation, keepTranslation_mem]
  cases hw : s.walk ia with
  | fault k l e =>
    have hk := (walk_keepTranslation s ia).trans hw
    have : (s.keepTranslation ia).markDirty ia = s.keepTranslation ia := by simp only [State.markDirty, hk]
    rw [this, dirtied, hk, dirtied, hw, keepTranslation_mem]
  | leaf e l a =>
    have hk := (walk_keepTranslation s ia).trans hw
    by_cases hd : e.getLsbD 5 = true
    · have : (s.keepTranslation ia).markDirty ia = s.keepTranslation ia := by simp only [State.markDirty, hk, hd, if_true]
      rw [this, dirtied, hk, dirtied, hw, keepTranslation_mem]
    · rw [← hget, dirtied, walk_markDirty hw (by simpa using hd)]
      simp

/-- The only home on the way of a write of module memory. -/
theorem passHomes_mem (hr : s.route ia true = .to (.mem pa)) (n : Nat) :
    State.passHomes true (n + 1) s ia = (s.keepTranslation ia).markDirty ia := by
  simp [State.passHomes, hr]

theorem follow_mem (hr : s.route ia true = .to (.mem pa)) (n : Nat) : s.follow true (n + 1) ia = (ia, .to (.mem pa)) := by
  simp [State.follow, hr]

/-! ### The unit's answer (R306, R315) -/

/-- What SC leaves in its thread: its predicate, and no reservation. -/
def Thread.tried (e : PReg) (ok : Bool) (th : Thread) : Thread :=
  { th with regs := th.regs.setP e ok, shadow := th.shadow.map fun r => r.setP e ok, resv := none }

theorem thread?_scEnd_self (ht : s.thread? t = some th) (e : PReg) (ok : Bool) :
    (s.scEnd t e.toNat ok).thread? t = some { th.tried e ok with hold := false } :=
  thread?_modThread_self (s := { s with resWait := s.resWait.filter fun w => !w.isSc t }) ht (show th.id = t from thread?_id ht)

theorem scFail_lane (s : State) (t : Tid) (e : PReg) : LanesDo [t] (fun x => x.advance.tried e false) s (s.scFail t e) := by
  simp only [State.scFail, State.setPred, State.advance, modThread_modThread, implies_true]
  exact modThread_lane fun _ => rfl

section Answer
variable {data : List Byte} {e : Nat} (h : s.resWait.find? (ResWait.isSc t) = some (.sc t ia none data e))
include h

theorem execScAnswer_unreserved (hr : s.route ia true = .to (.mem pa)) (hold : s.holdsLine t (ia / 64) none = false) :
    execScAnswer t s = .next (s.scEnd t e false) := by
  simp [execScAnswer, h, State.scPlace, follow_mem hr, hold]

theorem execScAnswer_reserved (hs : ∀ k ∈ s.cores, k.slots = []) (hr : s.route ia true = .to (.mem pa))
    (hold : s.holdsLine t (ia / 64) none = true) : execScAnswer t s = .next (
      ((((s.keepTranslation ia).markDirty ia).writeLine ia pa (s.ptsOf t) data (some t)).1.modThread t
      (.atTick (((s.keepTranslation ia).markDirty ia).writeLine ia pa (s.ptsOf t) data (some t)).2)).scEnd t e true) := by
  simp only [execScAnswer, h, State.scPlace, follow_mem hr, State.scWrite, clearLines_none hs, hold, Bool.not_true, Bool.false_eq_true, if_false,
    if_true, passHomes_mem hr]
  rfl

theorem execScAnswer_sys {port x : Nat} (hr : s.route ia true = .to (.sys port x)) : execScAnswer t s =
    .next ((s.modThread t fun th => { th with next := some (.atomicDomain, BitVec.ofNat 64 ia) }).scEnd t e false) := by
  simp [execScAnswer, h, State.scPlace, State.follow, hr]

theorem execScAnswer_fault {f : FaultKind} {l : Nat} {x : DWord} (hr : s.route ia true = .fault f l x) :
    execScAnswer t s = .next ((s.report false (s.ctxOf t) ia .store f l x).scEnd t e false) := by
  simp [execScAnswer, h, State.scPlace, State.follow, hr, State.reportFault]

end Answer

end Home

section Settle
variable {s : State} {t : Tid} {th : Thread} {ia pa : Nat} {data : List Byte} {e : PReg}

/-- The write of a line on which the reservation stands (R267, R315). -/
theorem scAnswer_written (ht : s.thread? t = some th) (w : s.mem.wf = true) (hn : data.length < 64) :
    let s1 := (s.keepTranslation ia).markDirty ia
    let s' := ((s1.writeLine ia pa (s.ptsOf t) data (some t)).1.modThread t (.atTick (s1.writeLine ia pa (s.ptsOf t) data (some t)).2)).scEnd t e.toNat true
    s'.resWait = s.resWait.filter (fun w => !w.isSc t) ∧
    (∀ x, s'.mem.get x = if pa ≤ x ∧ x < pa + data.length then data.getD (x - pa) 0 else dirtied s ia x) ∧
    ∃ p, s'.thread? t = some { th.tried e true with hold := false, pts := p } := by
  intro s1 s'
  have hrest : s1 = { s with mem := s1.mem, tlb := s1.tlb } := by
    simp only [s1]
    rw [markDirty_rest, keepTranslation_rest]
  have ht1 : s1.thread? t = some th := by rw [hrest]; exact ht
  have hwf : s1.mem.wf = true := markDirty_wf (by rwa [keepTranslation_mem]) ia
  obtain ⟨heq, -, -, -, -, hmem, hthreads⟩ : LineWritten t ia pa data s1 _ := writeLine_written (s.ptsOf t) hwf hn
  obtain ⟨p, hself⟩ := hthreads t th ht1
  refine ⟨?_, fun x => ?_, p, ?_⟩
  · exact congrArg (List.filter fun w => !w.isSc t) ((congrArg State.resWait heq).trans ((congrArg State.resWait hrest).trans rfl))
  · exact (hmem x).trans (by rw [dirtied_passed w])
  · refine (thread?_scEnd_self hself e true).trans ?_
    simp [Thread.tried]

end Settle

/-- Settles O33: SC fails behind the log or holds its thread; the answer is by the place of its line. -/
theorem storeConditional : Obligations.StoreConditional := by
  unfold Obligations.StoreConditional
  intro s t th g sz d m e ctx ia peer va data wrote
  refine ⟨fun h q hc hal htr => ?exec, fun ht hwait hs w => ?answer⟩
  case exec =>
    have hcheck : s.virtualCheck t (effAddr th.regs m) sz.bytes .write = .ok (ia, peer) := virtualCheck_ok h.thread q hc hal htr
    have hexec : exec (.sc g sz d m e) s = .next (if s.logging t = true then s.scFail t e else s.holdAt t (.sc t ia peer data e.toNat)) :=
      (run_lone h _).trans (by
        simp only [h.thread, hcheck, State.checked, quiet_shadow q, beq_self_eq_true, Bool.and_self,
          compared_quiet h.thread q, quiet_region q, Bool.false_eq_true, if_false]
        rfl)
    refine ⟨fun hlog => ⟨_, by rw [hexec, if_pos hlog], scFail_lane s t e⟩, fun hlog => ?_⟩
    exact ⟨s.modThread t fun th => { th.advance with hold := true, segpc := th.pc }, by rw [hexec, hlog]; rfl, modThread_lane fun _ => rfl⟩
  case answer =>
    obtain ⟨s', hs'⟩ : ∃ s', execScAnswer t s = .next s' := ⟨_, rfl⟩
    have is {s1 : State} (h : execScAnswer t s = .next s1) : s' = s1 := Host.Outcome.next.inj (hs'.symm.trans h)
    refine ⟨s', hs', fun pa hr => ?mem, fun port x hr => ?sys, fun f l x hr => ?fault⟩
    case mem =>
      cases hold : s.holdsLine t (ia / 64) none with
      | false =>
        obtain rfl := is (execScAnswer_unreserved hwait hr hold)
        exact ⟨rfl, fun _ => ⟨rfl, thread?_scEnd_self ht e false⟩, nofun⟩
      | true =>
        obtain rfl := is (execScAnswer_reserved hwait hs hr hold)
        obtain ⟨hwaits, hmem, hthread⟩ := scAnswer_written (pa := pa) (ia := ia) (e := e) ht w (storeBytes_length_lt th.regs d sz)
        exact ⟨hwaits, nofun, fun _ => ⟨hmem, hthread⟩⟩
    case sys =>
      obtain rfl := is (execScAnswer_sys hwait hr)
      exact ⟨rfl, thread?_scEnd_self (thread?_modThread_self ht (show th.id = t from thread?_id ht)) e false⟩
    case fault =>
      obtain rfl := is (execScAnswer_fault hwait hr)
      cases htold : s.told ia f with
      | true =>
        rw [report_told htold]
        exact ⟨rfl, thread?_scEnd_self ht e false, fun h => absurd (htold.symm.trans h) (by simp)⟩
      | false =>
        obtain ⟨r, heq⟩ := report_untold (hold := false) (ctx := s.ctxOf t) (acc := .store) (l := l) (x := x) htold
        rw [heq]
        exact ⟨rfl, thread?_scEnd_self (s := { s with reported := r, work := _ }) ht e false, fun _ => rfl⟩

end Sys2Proof.Machine
end

section
/-! FENCE, PREF, SUBS, UNSUB and STM outside regions (R300, R317 to R320, R322). -/

namespace Sys2Proof.Machine

open Sys2Proof Sys2Proof.Safety

section Kept
variable {s : State} {t : Tid} {ia pa : Nat} {e : DWord} {l a : Nat}

/-! ### A page whose translation a home keeps with DIRTY set (R267, R270) -/

/-- The home of `ia` keeps the translation of its page by the leaf `e`. -/
def State.Keeps (s : State) (ia : Nat) (e : DWord) (l a : Nat) : Prop :=
  s.xroot.getLsbD 0 = true ∧ ∃ d p k, s.tlb.find? (keptBy (homeDie ia) ia) = some (d, p, k, e, l, a)

theorem State.Keeps.walk (h : s.Keeps ia e l a) : s.walk ia = .leaf e l a := by
  obtain ⟨hx, d, p, k, hfind⟩ := h
  simp only [State.walk, hx, if_true, hfind]

theorem State.Keeps.keepTranslation (h : s.Keeps ia e l a) : s.keepTranslation ia = s := by
  have hwalk := h.walk
  obtain ⟨hx, d, p, k, hfind⟩ := h
  have hany : s.tlb.any (keptBy (homeDie ia) ia) = true :=
    List.any_eq_true.mpr ⟨_, List.mem_of_find?_eq_some hfind, List.find?_some hfind⟩
  simp only [State.keepTranslation, hwalk, hany, if_true]

theorem State.Keeps.markDirty (h : s.Keeps ia e l a) (hd : e.getLsbD 5 = true) : s.markDirty ia = s := by
  simp only [State.markDirty, h.walk, hd, if_true]

theorem State.Keeps.dirtied (h : s.Keeps ia e l a) (hd : e.getLsbD 5 = true) (x : Nat) : dirtied s ia x = s.mem.get x := by
  simp [Safety.dirtied, h.walk, hd]

/-- A home that an access has passed keeps its leaf, at a write with DIRTY set. -/
theorem keeps_passed (h : s.walk ia = .leaf e l a) : ∃ e', (e' = e ∨ e' = e ||| 0x20) ∧ e'.getLsbD 5 = true ∧
    ((s.keepTranslation ia).markDirty ia).Keeps ia e' l a := by
  have hkept : (s.keepTranslation ia).Keeps ia e l a := kept_of_walk h
  by_cases hd : e.getLsbD 5 = true
  · exact ⟨e, .inl rfl, hd, by rwa [hkept.markDirty hd]⟩
  · obtain ⟨hx, d, p, k, hfind⟩ := hkept
    refine ⟨e ||| 0x20, .inr rfl, by simp, ?_⟩
    rw [markDirty_leaf ((walk_keepTranslation s ia).trans h) (by simpa using hd)]
    refine ⟨hx, d, p, k, ?_⟩
    rw [List.find?_map, keptBy_dirtyKept, hfind]
    simp [dirtyKept]

theorem bitsOf_dirty (e : DWord) {k n : Nat} (h : 6 ≤ k ∨ k + n ≤ 5) : bitsOf (e ||| 0x20).toNat k n = bitsOf e.toNat k n := by
  refine Nat.eq_of_testBit_eq fun i => ?_
  simp only [bitsOf, Nat.testBit_mod_two_pow, Nat.testBit_div_two_pow, BitVec.toNat_or, Nat.testBit_or]
  by_cases hi : i < n
  · have hbit : Nat.testBit 32 (i + k) = false := by
      rw [show (32 : Nat) = 2 ^ 5 from rfl, Nat.testBit_two_pow]
      simp
      omega
    simp [hbit]
  · simp [hi]

theorem leafSize_dirty (e : DWord) : leafSize (e ||| 0x20) = leafSize e := by
  have h : (e ||| 0x20).toNat / 4096 = e.toNat / 4096 := by
    have := bitsOf_dirty e (k := 12) (n := 52) (.inl (by omega))
    have h1 := (e ||| 0x20).isLt
    have h2 := e.isLt
    simp only [bitsOf] at this
    omega
  simp only [leafSize, h]
  simp

theorem leafSize_ge (e : DWord) : 12 ≤ (leafSize e).getD 12 := by
  unfold leafSize
  split
  · dsimp only
    split
    · simp
    · simp only [Option.getD_some]
      omega
  · simp

theorem leafBase_dirty (e : DWord) {k : Nat} (h : 12 ≤ k) : leafBase (e ||| 0x20) k = leafBase e k := by
  rw [leafBase, bitsOf_dirty e (.inl (by omega)), leafBase]

theorem leafKind_dirty (e : DWord) : leafKind (e ||| 0x20) = leafKind e := bitsOf_dirty e (.inr (by omega))
theorem leafTgt_dirty (e : DWord) : leafTgt (e ||| 0x20) = leafTgt e := bitsOf_dirty e (.inl (by omega))

theorem getLsbD_dirty (e : DWord) {i : Nat} (h : i ≠ 5) : (e ||| (0x20 : DWord)).getLsbD i = e.getLsbD i := by
  have : Nat.testBit 32 i = false := by
    rw [show (32 : Nat) = 2 ^ 5 from rfl, Nat.testBit_two_pow]
    simpa using h.symm
  simp [BitVec.getLsbD, this]

/-- What makes a home serve an access from module memory (R267, R274, R432). -/
theorem route_mem_iff {w : Bool} (h : s.walk ia = .leaf e l a) : s.route ia w = .to (.mem pa) ↔
    ia % 2 ^ 52 / 4096 * 4096 ≠ controlPage ∧ e.getLsbD 6 = false ∧ ¬ (w = true ∧ e.getLsbD 4 = true) ∧ leafKind e = 0 ∧
    (inModule (leafBase e ((leafSize e).getD 12)) (2 ^ (leafSize e).getD 12) = true ∧
      ¬ (s.ckpt.rsv = true ∧ inCkptWindow (leafBase e ((leafSize e).getD 12)) (2 ^ (leafSize e).getD 12) = true)) ∧
    leafBase e ((leafSize e).getD 12) + ia % 2 ^ (leafSize e).getD 12 = pa := by
  simp only [State.route, h]
  by_cases hcontrol : ia % 2 ^ 52 / 4096 * 4096 = controlPage
  · rw [if_pos hcontrol]
    exact iff_of_false nofun fun ⟨hc, _⟩ => hc hcontrol
  by_cases hblk : e.getLsbD 6 = true
  · rw [if_neg hcontrol, if_pos hblk]
    exact iff_of_false nofun fun ⟨_, hb, _⟩ => absurd (hblk.symm.trans hb) (by decide)
  by_cases hro : w = true ∧ e.getLsbD 4 = true
  · rw [if_neg hcontrol, if_neg hblk, if_pos hro]
    exact iff_of_false nofun fun ⟨_, _, hw, _⟩ => hw hro
  rw [if_neg hcontrol, if_neg hblk, if_neg hro]
  split
  · split <;> simp_all
  · simp_all
  · simp_all

/-- DIRTY does not tell where a home sends an access. -/
theorem route_dirty {s' : State} {e' : DWord} {w : Bool} (h : s.walk ia = .leaf e l a) (h' : s'.walk ia = .leaf e' l a)
    (he : e' = e ∨ e' = e ||| 0x20) (hc : s'.ckpt = s.ckpt) (hr : s.route ia w = .to (.mem pa)) : s'.route ia w = .to (.mem pa) := by
  rw [route_mem_iff h] at hr
  rw [route_mem_iff h', hc]
  rcases he with rfl | rfl
  · exact hr
  · rwa [leafSize_dirty, leafBase_dirty e (leafSize_ge e), leafKind_dirty, getLsbD_dirty e (by decide), getLsbD_dirty e (by decide)]

/-! ### This module's own write of a multicast store (R322) -/

/-- What the writes of one multicast store leave at their home, however many of its members name this module. -/
structure OwnWritten (ia pa : Nat) (data : List Byte) (s s' : State) : Prop where
  rest : s' = { s with
    mem := s'.mem, poison := s'.poison, lineIa := s'.lineIa, tlb := s'.tlb, ticks := s'.ticks, leases := s'.leases
    threads := s'.threads, messages := s'.messages }
  threads : ∀ u y, s.thread? u = some y → ∃ p r, s'.thread? u = some { y with pts := p, resv := r }
  bytes : ∀ x, s'.mem.get x = if pa ≤ x ∧ x < pa + data.length then data.getD (x - pa) 0 else dirtied s ia x
  wf : s'.mem.wf = true
  place : s'.route ia true = .to (.mem pa)
  dirty : ∀ x, dirtied s' ia x = s'.mem.get x

/-- A second write of the same bytes changes no byte. -/
theorem OwnWritten.trans {s1 s2 : State} {data : List Byte} (h1 : OwnWritten ia pa data s s1) (h2 : OwnWritten ia pa data s1 s2) :
    OwnWritten ia pa data s s2 where
  rest := by rw [h2.rest, h1.rest]
  threads u y hy := by
    obtain ⟨p, r, h⟩ := h1.threads u y hy
    obtain ⟨p', r', h'⟩ := h2.threads u _ h
    exact ⟨p', r', h'⟩
  bytes x := by
    rw [h2.bytes]
    split
    · rfl
    · rw [h1.dirty, h1.bytes, if_neg ‹_›]
  wf := h2.wf
  place := h2.place
  dirty := h2.dirty

theorem stmOwn_mem {data : List Byte} (hr : s.route ia true = .to (.mem pa)) : s.stmOwn t ia data =
    ((((s.keepTranslation ia).markDirty ia).writeLine ia pa (s.ptsOf t) data (some t)).1.modThread t
      (.atTick (((s.keepTranslation ia).markDirty ia).writeLine ia pa (s.ptsOf t) data (some t)).2), true) := by
  simp only [State.stmOwn, follow_mem hr, passHomes_mem hr]
  rfl

theorem route_leaf {w : Bool} (hr : s.route ia w = .to (.mem pa)) : ∃ e l a, s.walk ia = .leaf e l a := by
  cases h : s.walk ia with
  | leaf e l a => exact ⟨e, l, a, rfl⟩
  | fault k l e =>
    simp only [State.route, h] at hr
    split at hr <;> cases hr

/-- What a write at its home leaves of the translation that is kept. -/
theorem writeLine_kept (h : s.Keeps ia e l a) (hd : e.getLsbD 5 = true) (p : Nat) (data : List Byte) (u : Option Tid) :
    let s' := (s.writeLine ia pa p data u).1
    s'.mem = s.mem.write pa data ∧ s'.Keeps ia e l a ∧ s'.ckpt = s.ckpt := by
  simp only [State.writeLine, h.keepTranslation, h.markDirty hd, multicast_eq, State.writePA, State.tickW, State.setTicks, State.clearResv, takeLease_eq]
  exact ⟨trivial, h, trivial⟩

theorem stmOwn_written {data : List Byte} (w : s.mem.wf = true) (hn : data.length < 64) (hr : s.route ia true = .to (.mem pa)) :
    ∃ s', s.stmOwn t ia data = (s', true) ∧ OwnWritten ia pa data s s' := by
  obtain ⟨e, l, a, hleaf⟩ := route_leaf hr
  obtain ⟨e', he, hd, hkeeps⟩ := keeps_passed hleaf
  refine ⟨_, stmOwn_mem hr, ?_⟩
  have hrest : (s.keepTranslation ia).markDirty ia = { s with mem := ((s.keepTranslation ia).markDirty ia).mem, tlb := ((s.keepTranslation ia).markDirty ia).tlb } := by
    rw [markDirty_rest, keepTranslation_rest]
  have hwf : ((s.keepTranslation ia).markDirty ia).mem.wf = true := markDirty_wf (by rwa [keepTranslation_mem]) ia
  have hdirty := dirtied_passed w ia
  generalize (s.keepTranslation ia).markDirty ia = s1 at hkeeps hrest hwf hdirty
  obtain ⟨heq, -, -, -, -, hmem, hthreads⟩ : LineWritten t ia pa data s1 _ := writeLine_written (s.ptsOf t) hwf hn
  obtain ⟨hmem', hkeeps', hckpt⟩ := writeLine_kept (pa := pa) hkeeps hd (s.ptsOf t) data (some t)
  constructor
  case rest => exact heq.trans (by rw [hrest]; rfl)
  case threads =>
    intro u y hy
    have hy1 : s1.thread? u = some y := by rw [hrest]; exact hy
    obtain ⟨p, h⟩ := hthreads u y hy1
    exact ⟨_, _, h⟩
  case bytes => exact fun x => (hmem x).trans (by rw [hdirty])
  case wf => exact (congrArg Memory.wf hmem').trans (write_wf hwf _ _)
  case place =>
    refine route_dirty hleaf (State.Keeps.walk hkeeps') he (hckpt.trans ?_) hr
    rw [hrest]
  case dirty => exact State.Keeps.dirtied hkeeps' hd

end Kept

section Multicast
variable {s : State} {t : Tid} {core ia pa off tag : Nat} {data : List Byte}

/-- The request that carries member `i` of a multicast store, or only its arrival (R322). -/
def stmReq (s : State) (t : Tid) (core ia : Nat) (data : List Byte) (off tag : Nat) (q : Nat × Nat) : OutReq :=
  let m := s.mcastOf t q.1
  { t, core
    dest := if m.testBit 31 = false then .group else if m % 4096 = s.modid then .mem 0 else .peer (m % 4096) ia
    op := .write (.stm ia data (BitVec.ofNat 64 (2 ^ q.1)) off tag), seq := q.2, late := false }

/-- Member `i` names this module. -/
def State.ownMember (s : State) (t : Tid) (i : Nat) : Bool := (s.mcastOf t i).testBit 31 && s.mcastOf t i % 4096 == s.modid

/-- One member's send. -/
def State.sendMember (core : Nat) (t : Tid) (ia : Nat) (data : List Byte) (off tag : Nat) (s : State) (i : Nat) : State :=
  let m := s.mcastOf t i
  let op : HeldOp := .write (.stm ia data (BitVec.ofNat 64 (2 ^ i)) off tag)
  if m.testBit 31 then
    if m % 4096 = s.modid then
      let (s, ok) := s.stmOwn t ia data
      s.pushOutFrom core t (if ok then .mem 0 else .group) op
    else s.pushOutFrom core t (.peer (m % 4096) ia) op
  else s.pushOutFrom core t .group op

theorem sendMembers_eq (mask : DWord) : s.sendMembers core t ia data mask off tag =
    ((List.range 64).filter fun i => mask.getLsbD i).foldl (State.sendMember core t ia data off tag) s := by
  simp only [State.sendMembers, seqFrom_map, Nat.zero_add, List.map_id']
  rfl

/-- `s` with the members `l` under way. -/
def State.withMembers (s0 : State) (t : Tid) (core ia : Nat) (data : List Byte) (off tag : Nat) (l : List Nat) (s : State) : State :=
  { s with
    out := s.out ++ (l.zip (seqFrom s.nextSeq l.length)).map (stmReq s0 t core ia data off tag)
    nextSeq := s.nextSeq + l.length }

theorem withMembers_cons (s0 s : State) (i : Nat) (l : List Nat) :
    s0.withMembers t core ia data off tag l (s0.withMembers t core ia data off tag [i] s) = s0.withMembers t core ia data off tag (i :: l) s := by
  simp [State.withMembers, seqFrom, Nat.add_comm, Nat.add_left_comm]

theorem withMembers_one (s0 s : State) (i : Nat) : s0.withMembers t core ia data off tag [i] s =
    { s with out := s.out ++ [stmReq s0 t core ia data off tag (i, s.nextSeq)], nextSeq := s.nextSeq + 1 } := rfl

/-- What is under way does not bear on the writes here. -/
theorem OwnWritten.of_withMembers {s0 s1 : State} {l : List Nat} (h : OwnWritten ia pa data (s0.withMembers t core ia data off tag l s) s1) :
    ∃ s2, OwnWritten ia pa data s s2 ∧ s1 = s0.withMembers t core ia data off tag l s2 := by
  refine ⟨{ s1 with out := s.out, nextSeq := s.nextSeq }, ⟨?_, h.threads, h.bytes, h.wf, h.place, h.dirty⟩, ?_⟩
  · rw [h.rest]
    rfl
  · conv_lhs => rw [h.rest]
    conv_rhs => rw [h.rest]
    rfl

section Member
variable {s0 : State} {i : Nat} (hm : s.mcastOf t i = s0.mcastOf t i) (hid : s.modid = s0.modid)
include hm hid

theorem sendMember_other (ho : s0.ownMember t i = false) :
    s.sendMember core t ia data off tag i = s0.withMembers t core ia data off tag [i] s := by
  simp only [State.ownMember, Bool.and_eq_false_iff, beq_eq_false_iff_ne] at ho
  simp only [withMembers_one, State.sendMember, hm, hid, stmReq, State.pushOutFrom]
  cases hlive : (s0.mcastOf t i).testBit 31 with
  | false => simp
  | true =>
    have hne : s0.mcastOf t i % 4096 ≠ s0.modid := by simpa [hlive] using ho
    simp [hne]

theorem sendMember_own (ho : s0.ownMember t i = true)
    (w : s.mem.wf = true) (hn : data.length < 64) (hr : s.route ia true = .to (.mem pa)) :
    ∃ s1, OwnWritten ia pa data s s1 ∧ s.sendMember core t ia data off tag i = s0.withMembers t core ia data off tag [i] s1 := by
  simp only [State.ownMember, Bool.and_eq_true, beq_iff_eq] at ho
  obtain ⟨hlive, hself⟩ := ho
  obtain ⟨s1, hown, hw⟩ := stmOwn_written (t := t) w hn hr
  refine ⟨s1, hw, ?_⟩
  simp [withMembers_one, State.sendMember, hm, hid, hlive, hself, hown, stmReq, State.pushOutFrom]

end Member

/-- A multicast store to other modules only sends. -/
theorem sendMembers_others {s0 : State} (l : List Nat) (ho : ∀ i ∈ l, s0.ownMember t i = false) (s : State)
    (hm : ∀ i, s.mcastOf t i = s0.mcastOf t i) (hid : s.modid = s0.modid) :
    l.foldl (State.sendMember core t ia data off tag) s = s0.withMembers t core ia data off tag l s := by
  induction l generalizing s with
  | nil => simp [State.withMembers, seqFrom]
  | cons i l ih =>
    have hi := sendMember_other (core := core) (ia := ia) (data := data) (off := off) (tag := tag) (hm i) hid (ho i List.mem_cons_self)
    rw [List.foldl_cons, hi, ih (fun j hj => ho j (List.mem_cons_of_mem _ hj)) (s0.withMembers t core ia data off tag [i] s) hm hid, withMembers_cons]

/-- One that names this module too writes here at each such member. -/
theorem sendMembers_own {s0 : State} (hn : data.length < 64) (l : List Nat) (s : State) (hm : ∀ i, s.mcastOf t i = s0.mcastOf t i)
    (hid : s.modid = s0.modid) (w : s.mem.wf = true) (hr : s.route ia true = .to (.mem pa)) (ho : l.any (s0.ownMember t) = true) :
    ∃ s1, OwnWritten ia pa data s s1 ∧
      l.foldl (State.sendMember core t ia data off tag) s = s0.withMembers t core ia data off tag l s1 := by
  induction l generalizing s with
  | nil => simp at ho
  | cons i l ih =>
    rw [List.foldl_cons]
    cases hi : s0.ownMember t i with
    | false =>
      rw [sendMember_other (hm i) hid hi]
      obtain ⟨s1, hw, heq⟩ := ih (s0.withMembers t core ia data off tag [i] s) hm hid w hr (by simpa [hi] using ho)
      obtain ⟨s2, hw', rfl⟩ := hw.of_withMembers
      exact ⟨s2, hw', by rw [heq, withMembers_cons]⟩
    | true =>
      obtain ⟨s1, hw, heq⟩ := sendMember_own (core := core) (off := off) (tag := tag) (hm i) hid hi w hn hr
      have hm1 (j : Nat) : s1.mcastOf t j = s0.mcastOf t j := by rw [← hm, hw.rest]; rfl
      have hid1 : s1.modid = s0.modid := by rw [← hid, hw.rest]
      rw [heq]
      cases hrest : l.any (s0.ownMember t) with
      | false =>
        refine ⟨s1, hw, ?_⟩
        rw [sendMembers_others l (by simpa using hrest) (s0.withMembers t core ia data off tag [i] s1) hm1 hid1, withMembers_cons]
      | true =>
        obtain ⟨s2, hw2, heq2⟩ := ih (s0.withMembers t core ia data off tag [i] s1) hm1 hid1 hw.wf hw.place hrest
        obtain ⟨s3, hw', rfl⟩ := hw2.of_withMembers
        exact ⟨s3, hw.trans hw', by rw [heq2, withMembers_cons]⟩

end Multicast

theorem modDie_rest (s : State) (d : Nat) (f : Die → Die) : s.modDie d f = { s with dies := (s.modDie d f).dies } := by
  unfold State.modDie
  split <;> rfl

theorem die_modDie_other (s : State) (d n : Nat) (f : Die → Die) (hf : ∀ x, (f x).id = x.id) (h : n ≠ d) : (s.modDie d f).die n = s.die n := by
  unfold State.die State.modDie
  split
  · dsimp only
    rw [List.find?_map]
    have hkey : ((fun x : Die => x.id == n) ∘ fun x => if x.id = d then f x else x) = fun x => x.id == n := by
      funext x
      simp only [Function.comp]
      split <;> simp [hf]
    rw [hkey]
    cases hx : s.dies.find? fun x => x.id == n with
    | none => rfl
    | some x =>
      have hid : x.id = n := by simpa using List.find?_some hx
      simp [hid, h]
  · have hd : (f (Die.reset d)).id = d := hf _
    simp [List.find?_append, hd, h.symm]

section Access
variable {s : State} {t : Tid} {th : Thread} {ctx : Ctx} {va : DWord}

/-! ### PREF, SUBS and UNSUB (R318, R319) -/

theorem prefetch_rest (s : State) (t : Tid) (va : DWord) : ∃ tlb ticks, s.prefetch t va = { s with tlb, ticks } := by
  unfold State.prefetch
  split
  · split
    · rw [keepTranslation_rest]
      exact ⟨_, _, rfl⟩
    · exact ⟨_, _, rfl⟩
  · exact ⟨_, _, rfl⟩

theorem writeD_lane (ht : s.thread? t = some th) (d : XReg) (v : Word) :
    LanesDo [t] (fun x => { x.advance with regs := x.regs.set32 d v, shadow := x.shadow.map fun r => r.set32 d v }) s (s.writeD t d v) := by
  have heq : s.writeD t d v = s.modThread t fun x => { x.advance with regs := th.regs.set32 d v, shadow := x.shadow.map fun r => r.set32 d v } := by
    simp [State.writeD, compute_eq ht]
  rw [heq]
  refine ⟨rfl, fun u hu x hx => ?_, fun u hu => thread?_modThread_other (fun _ => rfl) (by simpa using hu)⟩
  obtain rfl := List.mem_singleton.mp hu
  obtain rfl : th = x := Option.some.inj (ht.symm.trans hx)
  exact thread?_modThread_self ht (show th.id = u from thread?_id ht)

section Subs
variable {g : Guard} {d b : XReg} {m : MemOp} {st : Nat} {e : Eff} (h : Lone s (.subs g d m b) t th) (q : Quiet th) (hlog : s.logging t = false)
include h q hlog

theorem execSubs_answers (hs : s.subscribe th (effAddr th.regs m) (th.regs.x32 b).toNat = .ok (st, none)) :
    exec (.subs g d m b) s = .next (s.writeD t d (BitVec.ofNat 32 st)) :=
  (run_lone h _).trans (by
    simp only [h.thread, hs, State.checked, State.heldByLog, hlog, quiet_shadow q, beq_self_eq_true, Bool.and_self, compared_quiet h.thread q,
      Bool.false_eq_true, if_false])

theorem execSubs_asks (hs : s.subscribe th (effAddr th.regs m) (th.regs.x32 b).toNat = .ok (st, some e)) :
    exec (.subs g d m b) s = .next (s.emitThen t e fun s => s.writeD t d (BitVec.ofNat 32 st)) :=
  (run_lone h _).trans (by
    simp only [h.thread, hs, State.checked, State.heldByLog, hlog, quiet_shadow q, beq_self_eq_true, Bool.and_self, compared_quiet h.thread q,
      Bool.false_eq_true, if_false])

end Subs

end Access

/-- Settles O34: each is its checks and its effect; STM's members go out in rising order, and its own write is one line's. -/
theorem fencesPrefetchSubscriptionsMulticast : Obligations.FencesPrefetchSubscriptionsMulticast := by
  unfold Obligations.FencesPrefetchSubscriptionsMulticast
  intro s t th g dom lvl sz d b c m ctx va k die len room table q hc
  refine ⟨fun h => ?fence, fun h => ?pref, fun h hlog => ?subs, fun h hlog => ?unsub, fun h hlog hroom ia pa base size peer => ?stm⟩
  case fence =>
    have hcore : s.coreOf t = k := coreOf_thread h.thread
    have hexec : exec (.fence g dom) s = .next (s.emitThen t (.fence dom) fun s => s.advance t) := run_lone h _
    have hroom : (!s.logFull (s.coreOf t)) = room := by rw [logFull_eq, hcore]
    have hprep : s.prepare t (.fence dom) = (s, !s.domainBusy t dom || room) := by rw [← hroom]; rfl
    refine ⟨fun hb => ?_, fun hb hr => ?_, fun hb hr => ?_⟩
    · rw [hexec, emitThen_done h.thread q (by rw [hprep, hb]; rfl)]
      simp [State.perform, hb]
    · rw [hexec, emitThen_done h.thread q (by rw [hprep, hr, Bool.or_true])]
      simp [State.perform, hb, hcore]
    · rw [hexec, emitThen_stall h.thread q (by rw [hprep, hb, hr]; rfl)]
  case pref =>
    obtain ⟨tlb, ticks, heq⟩ := prefetch_rest s t va
    refine ⟨{ s with tlb, ticks }, _, (run_lone h _).trans ?_, rfl, advance_lane h.thread⟩
    have heq' : s.prefetch t (effAddr th.regs m) = { s with tlb, ticks } := heq
    simp only [h.thread, heq']
  case subs =>
    intro bad answers
    have hview : s.viewCtx th = some ctx := viewCtx_quiet h.thread q hc
    have hcore : s.coreOf t = k := coreOf_thread h.thread
    have tells (st : Nat) (hsub : s.subscribe th va len = .ok (st, none)) : answers (BitVec.ofNat 32 st) s :=
      ⟨_, execSubs_answers h q hlog hsub, writeD_lane h.thread d _⟩
    refine ⟨fun hb => ?bad, fun hb htr => ?miss, fun ia peer hb htr => ⟨fun hp => ?here, fun mod hp hfull => ?full, fun mod hp hfree => ?subscribes⟩⟩
    case bad => exact tells 3 (if_pos hb)
    case miss =>
      have hsub : s.subscribe th (effAddr th.regs m) (th.regs.x32 b).toNat = .error (.windowMiss, va) := by
        refine (if_neg hb).trans ?_
        simp only [hview, Option.bind_some, va, len] at htr ⊢
        rw [htr]
      exact (run_lone h _).trans (by simp only [h.thread, hsub, State.checked])
    case here =>
      subst hp
      refine tells 2 ((if_neg hb).trans ?_)
      simp only [hview, Option.bind_some, htr]
    case full =>
      subst hp
      refine tells 1 ((if_neg hb).trans ?_)
      simp only [hview, Option.bind_some, htr]
      exact if_pos hfull
    case subscribes =>
      subst hp
      have hsub : s.subscribe th va len = .ok (0, some (.subs die ia len mod)) := by
        refine (if_neg hb).trans ?_
        simp only [hview, Option.bind_some, htr]
        exact if_neg (Nat.not_le.mpr hfree)
      let s0 : State := { s with messages := s.messages ++ [HostMsg.subscribe die table.length mod] }
      let s1 := s0.modDie die fun d => { d with subs := d.subs ++ [{ ctx := s.ctxOf t, ia, len, mod, active := false, copy := [] }] }
      have hrest : s1 = { s0 with dies := s1.dies } := modDie_rest s0 die _
      have ht1 : s1.thread? t = some th := by rw [hrest]; exact h.thread
      refine ⟨s1, ⟨_, (execSubs_asks h q hlog hsub).trans ?_, writeD_lane ht1 d _⟩, hrest, fun n hn => ?_, ?_⟩
      · simp only [emitThen_done h.thread q (show s.prepare t (.subs die ia len mod) = (s, true) by simp [State.prepare, hlog])]
        rfl
      · exact die_modDie_other s0 die n _ (fun _ => rfl) hn
      · exact die_modDie_self s0 die _ fun _ => rfl
  case unsub =>
    have hview : s.viewCtx th = some ctx := viewCtx_quiet h.thread q hc
    refine ⟨fun htr => (run_lone h _).trans ?_, fun ia peer htr => ?_⟩
    · simp only [h.thread, State.heldByLog, hlog, quiet_shadow q, beq_self_eq_true, compared_quiet h.thread q, hview, Option.bind_some,
        Bool.false_eq_true, if_false]
      simp only [va] at htr
      rw [htr]
    · let s1 := s.modDie die fun d => { d with subs := d.subs.filter fun b => !(b.ctx == s.ctxOf t && b.ia == ia) }
      refine ⟨s1, (run_lone h _).trans ?_, modDie_rest s die _, fun n hn => die_modDie_other s die n _ (fun _ => rfl) hn,
        die_modDie_self s die _ fun _ => rfl⟩
      simp only [h.thread, State.heldByLog, hlog, quiet_shadow q, beq_self_eq_true, compared_quiet h.thread q, hview, Option.bind_some,
        Bool.false_eq_true, if_false]
      simp only [va] at htr
      rw [htr]
      exact congrArg Host.Outcome.next (emitThen_done h.thread q (show s.prepare t (.unsub die ia) = (s, true) by simp [State.prepare, hlog]) _)
  case stm =>
    intro off mask bits live module own data tag sent hal htr haway hs hoff hsize
    have hn : data.length < 64 := storeBytes_length_lt th.regs d sz
    have hcore : s.coreOf t = k := coreOf_thread h.thread
    have hentry (i : Nat) : s.mcastOf t i = (getAt 0 ctx.mcast i).toNat := by simp only [State.mcastOf, hc]
    have hlive (i : Nat) : (s.mcastOf t i).testBit 31 = live i := by rw [hentry]; rfl
    have hmodule (i : Nat) : s.mcastOf t i % 4096 = module i := by rw [hentry]
    have hown (i : Nat) : s.ownMember t i = (live i && module i == s.modid) := by rw [State.ownMember, hlive, hmodule]
    have hhere : s.stmHere t mask = bits.any (s.ownMember t) := by
      simp only [State.stmHere, State.ownMember, bits, List.any_filter, seqFrom_map, Nat.zero_add, List.map_id', Bool.and_assoc]
    have howns : bits.any (s.ownMember t) = own := congrArg bits.any (funext hown)
    let e : Eff := .stm ia data mask (base + off) tag
    have hcheck : s.scratchCheck th (off : Int) 32 = .ok (base + off) :=
      scratchCheck_ok haway (thread?_id h.thread ▸ hs) (by omega) (by omega) (by omega)
    have htag : s.viewTag th (base + off) = tag := by simp only [State.viewTag, viewScr_quiet q, State.scrRead]; rfl
    have hexec : exec (.stm g sz d m b c) s = .next (s.emitThen t e fun s => s.advance t) :=
      (run_lone h _).trans (by
        have hva := virtualCheck_ok h.thread q hc hal htr
        simp only [va, off] at hva hcheck htag
        simp only [h.thread, hva, hcheck, htag, State.checked, quiet_shadow q, beq_self_eq_true, Bool.and_self, compared_quiet h.thread q]
        rfl)
    have hsent (s1 : State) (ho : s1.out = s.out) (hq : s1.nextSeq = s.nextSeq) (hp : s.prepare t e = (s, true))
        (h1 : s.perform t e = s.withMembers t k ia data (base + off) tag bits s1) : sent s1 := by
      have hreq : stmReq s t k ia data (base + off) tag = fun q =>
          { t, core := k
            dest := if live q.1 = false then .group else if module q.1 = s.modid then .mem 0 else .peer (module q.1) ia
            op := .write (.stm ia data (BitVec.ofNat 64 (2 ^ q.1)) (base + off) tag), seq := q.2, late := false } := by
        funext q
        simp only [stmReq, hlive, hmodule]
      simp only [sent]
      rw [hexec, emitThen_done h.thread q hp, h1, State.withMembers, ho, hq, hreq]
    have hperf (hb : s.stmHere t mask = false ∨ s.routeAll ia true ≠ .blocked) :
        s.perform t e = bits.foldl (State.sendMember k t ia data (base + off) tag) s := by
      have hnb : ¬ (s.stmHere t mask = true ∧ s.routeAll ia true = .blocked) := by
        rintro ⟨h1, h2⟩
        rcases hb with h3 | h3
        · exact absurd (h1.symm.trans h3) (by decide)
        · exact h3 h2
      have hwrite : s.writeDo k t e = (s.sendMembers k t ia data mask (base + off) tag, none) := if_neg hnb
      rw [← sendMembers_eq]
      show s.storeRequest t e = _
      simp only [State.storeRequest, hlog, hcore, Bool.false_eq_true, if_false, hwrite]
    refine ⟨fun ho => ?others, fun ho hr hslots w => ?own⟩
    case others =>
      have hnot : s.stmHere t mask = false := by rw [hhere, howns, ho]
      refine hsent s rfl rfl ?_ ?_
      · simp [State.prepare, State.storeLogs, hlog, hnot, hcore, hroom, e]
      · rw [hperf (.inl hnot)]
        rw [← howns, List.any_eq_false] at ho
        exact sendMembers_others bits (by simpa using ho) s (fun _ => rfl) rfl
    case own =>
      have hall : s.routeAll ia true = .to (.mem pa) := congrArg Prod.snd (follow_mem hr 3)
      obtain ⟨s1, hw, heq⟩ := sendMembers_own (t := t) (core := k) (off := base + off) (tag := tag) hn bits s (fun _ => rfl) rfl w hr (howns.trans ho)
      refine ⟨s1, hsent s1 (by rw [hw.rest]) (by rw [hw.rest]) ?_ ?_, hw.rest, hw.threads, hw.bytes⟩
      · simp [State.prepare, State.storeLogs, hlog, hall, hcore, hroom, clearLines_none hslots, e]
      · rw [hperf (.inr (by rw [hall]; nofun)), heq]

end Sys2Proof.Machine
end

section
/-! What R326 asks of a descriptor, in its order (Tables 16.1 to 16.3, R331). -/

namespace Sys2Proof.Machine

open Sys2Proof Sys2Proof.Safety

section Checks
variable {c : Option Ctx} {run : Option Nat} {away : Bool} {k : Nat} {d : EngDesc}

/-- GATH and SCAT name elements. -/
def EngDesc.ofElements (d : EngDesc) : Prop := d.kind = .gath ∨ d.kind = .scat

/-- The formats of Tables 16.1 to 16.3. -/
def EngDesc.Format (d : EngDesc) (k : Nat) : Prop :=
  (d.srcSp = true → d.word 1 = 0) ∧ (d.dstSp = true → d.word 3 = 0) ∧ (d.word 5 = 0xFFFFFFFF ∨ d.word 5 % 16 = 0) ∧ bitsOf d.flags 12 4 = 0 ∧
  (¬ d.ofElements → bitsOf d.flags 16 16 = 0 ∧ (d.kind ≠ .coll → d.esize = 0)) ∧ (d.kind ≠ .coll → d.op = 0) ∧
  (d.ofElements → d.esize ≤ 4 ∧ d.len % d.ebytes = 0) ∧
  (d.kind = .cpy → d.word 6 = 0) ∧
  (d.kind = .fill → d.srcSp = false ∧ d.word 1 = 0 ∧ d.word 6 = 0 ∧ d.len % 4 = 0 ∧ d.word 2 % 4 = 0) ∧
  (d.kind = .cpyr → d.srcSp = false ∧ d.word 0 = 0 ∧ d.word 1 = 0 ∧ d.word 6 = 0 ∧ d.len = 128 * k) ∧
  (d.kind = .mxs → d.srcSp = false ∧ d.dstSp = true ∧ d.word 0 % 512 = 0 ∧ d.word 2 % 512 = 0 ∧ d.word 6 = 0 ∧ d.len % 512 = 0) ∧
  (d.kind = .coll → d.esize ≤ 3 ∧ d.op ≤ 5 ∧ d.word 6 < 4 ∧ d.len % 4 = 0)

theorem format_iff (d : EngDesc) (k : Nat) : d.Format k ↔ d.srcFormat = true ∧ d.restFormat k = true := by
  by_cases hb : d.word 5 = 0xFFFFFFFF <;>
  · cases hk : d.kind <;>
    simp [EngDesc.Format, EngDesc.srcFormat, EngDesc.restFormat, EngDesc.ofElements, EngDesc.bar, hk, hb]
    all_goals grind

theorem checkDesc_format (h : ¬ d.Format k) : ∃ b, checkDesc c run away k d = .error ⟨.engineFormat, 0, b⟩ := by
  rw [format_iff, not_and_or] at h
  by_cases hsrc : d.srcFormat = true
  · have hrest : d.restFormat k = false := by simpa [hsrc] using h
    exact ⟨false, by simp [checkDesc, hsrc, hrest]⟩
  · exact ⟨true, by simp [checkDesc, hsrc]⟩

/-- No team whose scratchpad the descriptor could name. -/
def EngDesc.noTeam (d : EngDesc) (run : Option Nat) (away : Bool) : Prop :=
  away = true ∨ ((d.srcSp = true ∨ d.dstSp = true ∨ d.word 5 ≠ 0xFFFFFFFF ∨ d.ofElements) ∧ run = none)

theorem noTeam_iff : d.noTeam run away ↔ (away || (d.namesScratch && run.isNone)) = true := by
  have hbar : d.bar.isSome = true ↔ d.word 5 ≠ 0xFFFFFFFF := by
    unfold EngDesc.bar
    split <;> simp_all
  simp only [EngDesc.noTeam, EngDesc.namesScratch, EngDesc.ofElements, Bool.or_eq_true, Bool.and_eq_true, beq_iff_eq, hbar, Option.isNone_iff_eq_none]
  tauto

/-- A range that reaches past the run. -/
def pastRun (run : Option Nat) (r : Nat × Nat × Bool) : Prop := r.2.1 ≠ 0 ∧ run.getD 0 < r.1 + r.2.1

theorem scratchRanges_eq (d : EngDesc) : d.scratchRanges =
    (if d.srcSp = true then [(d.word 0, if d.kind = .gath then d.word 6 * d.ebytes else d.len, true)] else []) ++
    (if d.dstSp = true then [(d.word 2, if d.kind = .scat then d.word 6 * d.ebytes else d.len, false)] else []) ++
    (if d.word 5 = 0xFFFFFFFF then [] else [(d.word 5, 16, false)]) ++
    (if d.kind = .gath ∨ d.kind = .scat then [(d.idxOff, 4 * (d.len / d.ebytes), decide (d.kind = .gath))] else []) := by
  unfold EngDesc.scratchRanges EngDesc.bar
  congr 1
  · by_cases h : d.word 5 = 0xFFFFFFFF <;> simp [h, EngDesc.nidx]
  · cases d.kind <;> simp [EngDesc.num]

/-- A translation that is asked for, and is there, or is not asked for. -/
theorem asked_map {α : Type} {b : Bool} {x : Option α} (h : b = true → x ≠ none) :
    (if b = true then x.map some else some none) = some (if b = true then x else none) := by
  cases b with
  | false => rfl
  | true =>
    obtain ⟨y, rfl⟩ := Option.ne_none_iff_exists'.mp (h rfl)
    rfl

theorem spared_map {α : Type} {b : Bool} {x : Option α} (h : b = false → x ≠ none) :
    (if b = true then some none else x.map some) = some (if b = true then none else x) := by
  cases b with
  | true => rfl
  | false =>
    obtain ⟨y, rfl⟩ := Option.ne_none_iff_exists'.mp (h rfl)
    rfl

section Formatted
variable (hf : d.Format k)
include hf

theorem checkDesc_noTeam (h : d.noTeam run away) : checkDesc c run away k d = .error ⟨.awayAccess, 0, false⟩ := by
  obtain ⟨hsrc, hrest⟩ := (format_iff d k).mp hf
  simp only [checkDesc, hsrc, hrest, Bool.not_true, Bool.false_eq_true, if_false, noTeam_iff.mp h, if_true]

section Team
variable (ht : ¬ d.noTeam run away)
include ht

theorem checkDesc_past {q : Nat × Nat × Bool} (hq : q ∈ d.scratchRanges) (hp : pastRun run q) :
    ∃ q ∈ d.scratchRanges, pastRun run q ∧ checkDesc c run away k d = .error ⟨.scratchRange, BitVec.ofNat 64 q.1, q.2.2⟩ := by
  obtain ⟨hsrc, hrest⟩ := (format_iff d k).mp hf
  rw [noTeam_iff, Bool.not_eq_true] at ht
  have hsome : (d.scratchRanges.find? fun r => r.2.1 != 0 && decide (run.getD 0 < r.1 + r.2.1)).isSome = true :=
    List.find?_isSome.mpr ⟨q, hq, by simpa [pastRun] using hp⟩
  obtain ⟨r, hr⟩ := Option.isSome_iff_exists.mp hsome
  refine ⟨r, List.mem_of_find?_eq_some hr, by simpa [pastRun] using List.find?_some hr, ?_⟩
  simp only [checkDesc, hsrc, hrest, Bool.not_true, Bool.false_eq_true, if_false, ht, hr]

/-- The source's and the destination's translation, of a descriptor whose scratchpad ranges lie inside the run. -/
theorem checkDesc_inside (hp : ∀ q ∈ d.scratchRanges, ¬ pastRun run q) :
    let src := transRange c (d.va 0) (if d.kind = .gath then d.word 6 * d.ebytes else d.len) .read
    let dst := transRange c (d.va 2) (if d.kind = .scat then d.word 6 * d.ebytes else d.len) .write
    let reads := (d.hasSrc && !d.srcSp) = true
    (reads → src = none → checkDesc c run away k d = .error ⟨.windowMiss, d.va 0, true⟩) ∧
    ((reads → src ≠ none) → d.dstSp = false → dst = none → checkDesc c run away k d = .error ⟨.windowMiss, d.va 2, false⟩) ∧
    ((reads → src ≠ none) → (d.dstSp = false → dst ≠ none) →
      checkDesc c run away k d = .ok { d with srcIa := if d.hasSrc && !d.srcSp then src else none, dstIa := if d.dstSp then none else dst }) := by
  intro src dst reads
  obtain ⟨hsrc, hrest⟩ := (format_iff d k).mp hf
  rw [noTeam_iff, Bool.not_eq_true] at ht
  have hnone : (d.scratchRanges.find? fun r => r.2.1 != 0 && decide (run.getD 0 < r.1 + r.2.1)) = none :=
    List.find?_eq_none.mpr fun q hq => by simpa [pastRun] using hp q hq
  have heq : checkDesc c run away k d =
      match (if d.hasSrc && !d.srcSp then src.map some else some none) with
      | none => .error ⟨.windowMiss, d.va 0, true⟩
      | some srcIa =>
        match (if d.dstSp then some none else dst.map some) with
        | none => .error ⟨.windowMiss, d.va 2, false⟩
        | some dstIa => .ok { d with srcIa, dstIa } := by
    simp only [checkDesc, hsrc, hrest, Bool.not_true, Bool.false_eq_true, if_false, ht, hnone] <;> rfl
  rw [heq]
  refine ⟨fun hr hs => ?_, fun hs hd hn => ?_, fun hs hd => ?_⟩
  · rw [if_pos (show (d.hasSrc && !d.srcSp) = true from hr), hs]
    rfl
  · rw [asked_map hs, hd, hn]
    rfl
  · rw [asked_map hs, spared_map hd]

end Team
end Formatted

end Checks
/-- Settles O35: each check in R326's order, once those before it have passed. -/
theorem descriptorChecks : Obligations.DescriptorChecks := by
  unfold Obligations.DescriptorChecks
  intro c run away k d w fl len elem sp dp size format noTeam from_ to_ ranges past tr reads r
  have hranges : d.scratchRanges = ranges := scratchRanges_eq d
  have hreads : (d.hasSrc && !d.srcSp) = true ↔ reads := by
    simp only [reads, sp, EngDesc.hasSrc, EngDesc.srcSp, EngDesc.flags, fl]
    cases d.kind <;> simp
  refine ⟨fun hf => checkDesc_format hf, fun hf ht => checkDesc_noTeam hf ht, fun hf ht ⟨q, hq, hp⟩ => ?past, fun hf ht hp => ?inside⟩
  case past =>
    rw [← hranges] at hq ⊢
    exact checkDesc_past hf ht hq hp
  case inside =>
    obtain ⟨hsrc, hdst, hok⟩ := checkDesc_inside (c := c) hf ht (hranges ▸ hp)
    refine ⟨fun hr => hsrc (hreads.mpr hr), fun hr => hdst fun h => hr (hreads.mp h), fun hr hd => ?_⟩
    refine ⟨_, _, hok (fun h => hr (hreads.mp h)) hd, fun h => if_pos (hreads.mpr h), fun h => if_neg (mt hreads.mp h), fun h => ?_, fun h => if_pos h⟩
    exact if_neg (Bool.eq_false_iff.mp h)

end Sys2Proof.Machine
end

section
/-! The engine instructions of one thread, and CPYR of a set, outside regions (R326, R327, R331, R334). -/

namespace Sys2Proof.Machine

open Sys2Proof Sys2Proof.Safety

section Issue
variable {s : State} {t : Tid} {th : Thread} {d : EngDesc} {k : State → State}

/-! ### The descriptor that passes is the one named -/

theorem checkDesc_ok {c : Option Ctx} {run : Option Nat} {away : Bool} {n : Nat} {d0 : EngDesc} (h : checkDesc c run away n d0 = .ok d) :
    ∃ srcIa dstIa, d = { d0 with srcIa, dstIa } := by
  unfold checkDesc at h
  iterate 3 replace h := (ite_eq_iff.mp h).resolve_left nofun |>.2
  split at h
  · cases h
  · dsimp only at h
    split at h
    · cases h
    · split at h
      · cases h
      · exact ⟨_, _, (Except.ok.inj h).symm⟩

theorem viewCtx_unheld (ht : s.thread? t = some th) (q : Quiet th) : s.viewCtx th = s.ctx? (s.ctxOf t) := by
  simp [State.viewCtx, held_quiet q, thread?_id ht]

/-! ### Issue (R327) -/

theorem core_slots_none (h : ∀ k ∈ s.cores, k.slots = []) (n : Nat) : (s.core n).slots = [] := by
  unfold State.core
  cases hf : s.cores.find? fun c => c.id == n with
  | none => rfl
  | some c => exact h c (List.mem_of_find?_eq_some hf)

theorem freeSlot_none (h : ∀ k ∈ s.cores, k.slots = []) (n : Nat) : s.freeSlot n = some 0 := by
  simp [State.freeSlot, core_slots_none h, firstFrom]

/-- The TAG that the object at BAR holds. -/
def State.tagOf (s : State) (th : Thread) (d : EngDesc) : Option Nat :=
  d.bar.map fun b => natOfBytes ((s.core th.core).scr.read (((s.runFor th).map (·.1)).getD 0 + b + 8) 2)

theorem readTag_calm (ht : s.thread? t = some th) (q : Quiet th) (hs : ∀ k ∈ s.cores, k.slots = []) (d : EngDesc) :
    s.readTag t d = (s, true, s.tagOf th d) := by
  cases hb : d.bar with
  | none => simp [State.readTag, State.tagOf, ht, hb]
  | some b => simp [State.readTag, State.tagOf, ht, hb, recall_none hs, regionRead_quiet ht q, State.viewTag, viewScr_quiet q, State.scrRead]

theorem issueDesc_calm (ht : s.thread? t = some th) (q : Quiet th) (c : Calm s t) (d : EngDesc) (k : State → State) :
    s.issueDesc t d k = k (s.perform t (.command { d with tag := s.tagOf th d })) := by
  simp only [State.issueDesc, readTag_calm ht q c.commands]
  exact emitThen_done ht q (by simp [State.prepare, c.log, freeSlot_none c.commands]) k

theorem issueDesc_full (ht : s.thread? t = some th) (q : Quiet th) (hb : d.bar = none) (hf : s.freeSlot th.core = none) :
    s.issueDesc t d k = s := by
  have hr : s.readTag t d = (s, true, none) := by simp [State.readTag, ht, hb]
  simp only [State.issueDesc, hr]
  exact emitThen_stall ht q (e := .command { d with tag := none }) (by simp [State.prepare, coreOf_thread ht, hf]) k

/-! ### One thread's instruction -/

section Lone
variable {kind : EngKind} {a : XReg} (ht : s.thread? t = some th) (q : Quiet th)
include ht q

/-- R326's checks of the descriptor that a thread names. -/
def State.checkOf (s : State) (th : Thread) (kind : EngKind) (a : XReg) (n : Nat) : Except DescErr EngDesc :=
  checkDesc (s.ctx? (s.ctxOf th.id)) ((s.runFor th).map (·.2)) (s.scalarAway th) n (descOf kind th.regs a)

theorem engineInstr_error {e : DescErr} (hr : s.checkOf th kind a 0 = .error e) : s.engineInstr t kind a = s.raise t e.cause e.info := by
  have hid := thread?_id ht
  simp only [State.checkOf, hid] at hr
  simp only [State.engineInstr, ht, viewCtx_unheld ht q, hr]

theorem engineInstr_ok (hr : s.checkOf th kind a 0 = .ok d) (hlog : s.logging t = false) :
    s.engineInstr t kind a = s.collIssue t d fun s =>
      s.compared t ((State.shadowOf th).xs a 8 == th.regs.xs a 8) 0 fun s => s.issueDesc t d fun s => s.advance t := by
  have hid := thread?_id ht
  simp only [State.checkOf, hid] at hr
  simp only [State.engineInstr, ht, viewCtx_unheld ht q, hr, State.heldByLog, hlog, Bool.false_eq_true, if_false]

theorem engineInstr_gate {c : Cause} {x : DWord} (hr : s.checkOf th .coll a 0 = .ok d) (hlog : s.logging t = false)
    (hg : s.collGate t (d.word 6 % 4) = some (c, x)) : s.engineInstr t .coll a = s.raise t c x := by
  obtain ⟨_, _, rfl⟩ := checkDesc_ok hr
  rw [engineInstr_ok ht q hr hlog]
  exact (if_pos rfl).trans (by rw [hg])

theorem engineInstr_passes (hr : s.checkOf th kind a 0 = .ok d) (hlog : s.logging t = false)
    (hg : kind = .coll → s.collGate t (d.word 6 % 4) = none ∧ s.gangState t ≠ some .uncommitted) :
    s.engineInstr t kind a = s.issueDesc t d fun s => s.advance t := by
  rw [engineInstr_ok ht q hr hlog]
  have hkind : d.kind = kind := by
    obtain ⟨_, _, rfl⟩ := checkDesc_ok hr
    rfl
  have hsame : s.compared t ((State.shadowOf th).xs a 8 == th.regs.xs a 8) 0 (fun s => s.issueDesc t d fun s => s.advance t) = s.issueDesc t d fun s => s.advance t :=
    compared_quiet ht q (by rw [quiet_shadow q]; exact beq_self_eq_true _) _ _
  unfold State.collIssue
  split
  next hcoll =>
    obtain ⟨hnone, hgang⟩ := hg (hkind ▸ hcoll)
    rw [hnone]
    exact (if_neg hgang).trans hsame
  next => exact hsame

end Lone

end Issue
/-! ### CPYR of one set (R331) -/

section CopyRegs
variable {s : State} {i : Instr} {t : Tid} {th : Thread} {a b : XReg} {n : Nat} {d : EngDesc}

/-- One set whose every lane performs `i`: the body takes the whole issue. -/
theorem runSets_all {v : Tid} {vs : List Tid} (hs : Ready s i) (h1 : OneSet s) (hissue : s.issue = v :: vs)
    (hp : ∀ u ∈ s.issue, ∃ x, s.thread? u = some x ∧ performs i x = true) (body : State → List Tid → State) :
    s.runSets i body = .next (body s s.issue) := by
  have hyes : lanesWhere s i true s.issue = s.issue := List.filter_eq_self.mpr fun u hu => by
    obtain ⟨x, hx, hperf⟩ := hp u hu
    simp [hx, hperf]
  have hno : lanesWhere s i false s.issue = [] := List.filter_eq_nil_iff.mpr fun u hu => by
    obtain ⟨x, hx, hperf⟩ := hp u hu
    simp [hx, hperf]
  have hone := performers_one_set (s1 := s) hs h1 (hyes.trans hissue) fun _ _ => rfl
  rw [State.runSets, runAll_ready hs, hno, hyes, List.foldl_nil, hissue, hone]
  rfl

theorem keepIf_all (ts : List Tid) (f : State → Tid → State × Bool) (h : ∀ u ∈ ts, f s u = (s, true)) : s.keepIf f ts = (s, ts) := by
  induction ts with
  | nil => rfl
  | cons u ts ih =>
    simp only [State.keepIf, h u List.mem_cons_self, ih fun v hv => h v (List.mem_cons_of_mem _ hv), if_true]

section Set
variable {ts : List Tid} (ht : s.thread? t = some th) (hq : ∀ u ∈ t :: ts, ∃ x, s.thread? u = some x ∧ Quiet x)
include ht hq

theorem quiet_first : Quiet th := by
  obtain ⟨x, hx, q⟩ := hq t List.mem_cons_self
  obtain rfl : th = x := Option.some.inj (ht.symm.trans hx)
  exact q

theorem copyRegs_error {e : DescErr} (hr : s.checkOf th .cpyr a n = .error e) :
    s.copyRegs a b n (t :: ts) = (t :: ts).foldl (fun s u => s.raise u e.cause e.info) s := by
  have hid := thread?_id ht
  simp only [State.checkOf, hid] at hr
  simp only [State.copyRegs, ht, viewCtx_unheld ht (quiet_first ht hq), hr]

theorem copyRegs_passes (hr : s.checkOf th .cpyr a n = .ok d) (hlog : ∀ u ∈ t :: ts, s.logging u = false) :
    s.copyRegs a b n (t :: ts) = s.issueDesc t { d with regs := (t :: ts).map fun u => (Tid.lane u, (s.regsOf false u).xs b n) } fun s =>
      (t :: ts).foldl State.advance s := by
  have hid := thread?_id ht
  have hview := viewCtx_unheld ht (quiet_first ht hq)
  simp only [State.checkOf, hid] at hr
  have hnolog : (t :: ts).any s.heldByLog = false := by
    rw [List.any_eq_false]
    exact fun u hu => by simp [State.heldByLog, hlog u hu]
  have hunarmed (f : Tid → Bool) (hf : ∀ u x, s.thread? u = some x → f u = (x.shadow.isSome && x.inject == some 0)) : (t :: ts).any f = false := by
    rw [List.any_eq_false]
    intro u hu
    obtain ⟨x, hx, q⟩ := hq u hu
    simp [hf u x hx, q.inject]
  have hsame : ((t :: ts).all fun u => (s.regsOf true u).xs b n == (s.regsOf false u).xs b n) = true := by
    rw [List.all_eq_true]
    intro u hu
    obtain ⟨x, hx, q⟩ := hq u hu
    simp [regsOf_quiet hx q]
  have hkeep : s.keepIf (fun s u => ((s.mismatch u true 0).1, !(s.mismatch u true 0).2)) (t :: ts) = (s, t :: ts) := by
    refine keepIf_all _ _ fun u hu => ?_
    obtain ⟨x, hx, q⟩ := hq u hu
    simp [mismatch_quiet hx q]
  simp only [State.copyRegs, ht, hview, hr, hnolog, Bool.false_eq_true, if_false, regsOf_quiet ht (quiet_first ht hq), beq_self_eq_true, Bool.and_true,
    hsame]
  rw [hunarmed _ fun u x hx => by simp only [hx]]
  simp only [Bool.not_false, hkeep, ne_eq, not_true_eq_false, if_false]

end Set
end CopyRegs

/-- Settles O36: the check's answer decides; one that passes is issued with its object's TAG. -/
theorem engineCommands : Obligations.EngineCommands := by
  refine ⟨?one, ?set⟩
  case one =>
    intro s t th g a i kind hi h q run r
    have hexec : exec i s = .next (s.engineInstr t kind a) := by
      rcases hi with ⟨rfl, rfl⟩ | ⟨rfl, rfl⟩ | ⟨rfl, rfl⟩ | ⟨rfl, rfl⟩ | ⟨rfl, rfl⟩ | ⟨rfl, rfl⟩ <;> exact run_lone h _
    have hid : th.id = t := thread?_id h.thread
    have hr : s.checkOf th kind a 0 = r := by
      simp only [State.checkOf, State.runFor, hid]
      rfl
    rw [hexec, ← hr]
    refine ⟨fun e he => ?fails, fun d c x hd hlog hk hg => ?gate, fun d hd hc hg => ?issues, fun d hd hlog hk hb hf => ?full⟩
    case fails => rw [engineInstr_error h.thread q he]
    case gate =>
      subst hk
      rw [engineInstr_gate h.thread q hd hlog hg]
    case issues =>
      rw [engineInstr_passes h.thread q hd hc.log hg, issueDesc_calm h.thread q hc, State.tagOf, State.runFor, hid]
    case full => rw [engineInstr_passes h.thread q hd hlog fun h => absurd h hk, issueDesc_full h.thread q hb hf]
  case set =>
    intro s t th rest g a b k i n hissue hs h1 hp ht run r
    have hexec : exec i s = .next (s.copyRegs a b n s.issue) :=
      runSets_all hs h1 hissue (fun u hu => (hp u hu).imp fun x hx => ⟨hx.1, hx.2.1⟩) _
    have hq : ∀ u ∈ t :: rest, ∃ x, s.thread? u = some x ∧ Quiet x := fun u hu => (hp u (hissue ▸ hu)).imp fun x hx => ⟨hx.1, hx.2.2⟩
    have hid : th.id = t := thread?_id ht
    have hr : s.checkOf th .cpyr a n = r := by
      simp only [State.checkOf, State.runFor, hid]
      rfl
    rw [hexec, ← hr, hissue]
    refine ⟨fun e he => ?fails, fun d hd hc hlog => ?issues⟩
    case fails => rw [copyRegs_error ht hq he]
    case issues =>
      rw [copyRegs_passes ht hq hd hlog, issueDesc_calm ht (quiet_first ht hq) hc]
      simp only [State.tagOf, State.runFor, hid]
      rfl

end Sys2Proof.Machine
end

section
/-! BINIT, BARR and BWAIT outside regions (R335, R338). -/

namespace Sys2Proof.Machine

open Sys2Proof Sys2Proof.Safety

section Barrier
variable {s : State} {t : Tid} {th : Thread} {g : Guard} {m : MemOp} {b c : XReg} {a n tag flags : Nat} {off : Int}

/-- A segment that ends in a wait leaves every scratchpad. -/
theorem park_scr (ht : s.thread? t = some th) (x : SegEnd) (hp : x.pend ≠ 0) (n : Nat) :
    ((s.park t x.resume x.live x.wait x.pend x.dest x.destP).core n).scr = (s.core n).scr := by
  have hl := landAll_landed s t
  have hcores : ∀ k, (s.landAll t).core k = s.core k := fun k => by rw [hl.rest]; rfl
  obtain ⟨y, hy⟩ := hl.thread_exists ht
  unfold State.park
  simp only [hy, hp, if_false]
  split
  · exact congrArg Core.scr (hcores n)
  · rw [core_leaveEntry_rest]
    show ((s.landAll t).core n).scr = _
    rw [hcores]

theorem objAt_of_scr {s s' : State} {core : Nat} (h : (s'.core core).scr = (s.core core).scr) (off : Nat) : s'.objAt core off = s.objAt core off := by
  simp only [State.objAt, State.scrRead, h]

/-! ### BINIT and BARR -/

theorem prepare_binit (c : Calm s t) (a n tag flags : Nat) : s.prepare t (.binit a n tag flags) = (s, true) := by
  simp [State.prepare, c.log, clearLines_none c.commands]

theorem prepare_barr (c : Calm s t) (a n : Nat) : s.prepare t (.barr a n) = (s, true) := by
  simp [State.prepare, c.log, clearLines_none c.commands]

section Checked
variable (hcheck : s.scratchCheck th (scratchOff th.regs m) 16 = .ok a)
include hcheck

theorem execBinit_reserved (h : Lone s (.binit g m b c) t th) (hw : bitsOf (th.regs.x32 c).toNat 17 15 ≠ 0) :
    exec (.binit g m b c) s = .next (s.raise t .engineFormat 0) :=
  (run_lone h _).trans (by simp only [h.thread, hcheck, State.checked, hw, ne_eq, not_false_eq_true, if_true])

variable (q : Quiet th) (hc : Calm s t)
include q hc

theorem execBinit_checked (h : Lone s (.binit g m b c) t th) (hw : bitsOf (th.regs.x32 c).toNat 17 15 = 0) :
    exec (.binit g m b c) s = .next
      ((s.binitAt th.core a (th.regs.x32 b).toNat (bitsOf (th.regs.x32 c).toNat 0 16) (bitsOf (th.regs.x32 c).toNat 16 8)).advance t) :=
  (run_lone h _).trans (by
    simp only [h.thread, hcheck, State.checked, hw, ne_eq, not_true_eq_false, if_false, quiet_shadow q, beq_self_eq_true, Bool.and_self,
      compared_quiet h.thread q, emitThen_done h.thread q (prepare_binit hc _ _ _ _), State.perform, coreOf_thread h.thread])

theorem execBarr_checked (h : Lone s (.barr g m b) t th) :
    exec (.barr g m b) s = .next ((s.arrive th.core a (th.regs.x32 b).toNat none 0).1.advance t) :=
  (run_lone h _).trans (by
    simp only [h.thread, hcheck, State.checked, quiet_shadow q, beq_self_eq_true, Bool.and_self,
      compared_quiet h.thread q, emitThen_done h.thread q (prepare_barr hc _ _), State.perform, coreOf_thread h.thread])

end Checked

/-! ### BWAIT -/

section Wait
variable (ht : s.thread? t = some th) (q : Quiet th) (hc : Calm s t)
include ht q hc

theorem barWait_released (hr : objReleased (s.objAt th.core a) tag = true) : s.barWait t a tag = s.advance t := by
  have hview : natOfBytes (s.viewScr th a 16).1 = s.objAt th.core a := by rw [viewScr_quiet q, State.objAt]
  simp only [State.barWait, ht, State.heldByLog, hc.log, recall_none hc.commands, hview, hr, regionRead_quiet ht q, Bool.false_eq_true,
    if_false, if_true]

theorem barWait_parks (hr : objReleased (s.objAt th.core a) tag = false) (he : MayEnd s t th (unionRegs (s.standing th) [])) :
    s.barWait t a tag = (s.park t (Safety.successor th.pc) (unionRegs (s.standing th) []) (.barrier a tag) 1 [] none).scrRaw
      th.core (a + 12) (bytesOfNat 4 (bitsOf (s.objAt th.core a) 96 32 + 1)) := by
  have hview : natOfBytes (s.viewScr th a 16).1 = s.objAt th.core a := by rw [viewScr_quiet q, State.objAt]
  have hobj : (s.park t (Safety.successor th.pc) (unionRegs (s.standing th) []) (.barrier a tag) 1 [] none).objAt th.core a =
      s.objAt th.core a :=
    objAt_of_scr (park_scr ht ⟨Safety.successor th.pc, unionRegs (s.standing th) [], .barrier a tag, 1, [], none⟩ Nat.one_ne_zero th.core) a
  simp only [State.barWait, ht, State.heldByLog, hc.log, recall_none hc.commands, hview, hr, Bool.false_eq_true, if_false, segEnd_ok ht he,
    succ_successor, State.parkedOn, hobj]

end Wait
end Barrier

theorem objReleased_iff (v tag : Nat) : objReleased v tag = true ↔ v / 2 ^ 64 % 2 ^ 16 = tag ∧ v % 2 ^ 32 ≤ v / 2 ^ 32 % 2 ^ 32 := by
  simp [objReleased, bitsOf]

/-- Settles O38: the checked place, then the object's write, its arrival, or the wait for its tag. -/
theorem barrierInstructions : Obligations.BarrierInstructions := by
  unfold Obligations.BarrierInstructions
  intro s t th g m b c base size off k a n w v q hc haway hs hal h0 hsize
  have hcheck (ht : s.thread? t = some th) : s.scratchCheck th (scratchOff th.regs m) 16 = .ok a :=
    scratchCheck_ok haway (thread?_id ht ▸ hs) hal h0 hsize
  have hw32 : w < 2 ^ 32 := (th.regs.x32 c).isLt
  refine ⟨fun h => ⟨fun hw => ?reserved, fun hw => ?binit⟩, fun h => execBarr_checked (hcheck h.thread) q hc h, fun h => ?bwait⟩
  case reserved =>
    exact execBinit_reserved (hcheck h.thread) h (by simp only [bitsOf]; omega)
  case binit =>
    rw [execBinit_checked (hcheck h.thread) q hc h (by simp only [bitsOf]; omega)]
    have h16 : bitsOf w 16 8 = w / 2 ^ 16 := by simp only [bitsOf]; omega
    rw [h16]
    simp only [bitsOf, pow_zero, Nat.div_one]
    rfl
  case bwait =>
    intro tag released
    have hexec : exec (.bwait g m b) s = .next (s.barWait t a tag) :=
      (run_lone h _).trans (by simp only [h.thread, hcheck h.thread, State.checked]; rfl)
    rw [hexec]
    refine ⟨fun hr => ?_, fun hr he => ?_⟩
    · rw [barWait_released h.thread q hc ((objReleased_iff _ _).mpr hr)]
    · rw [barWait_parks h.thread q hc (Bool.eq_false_iff.mpr (mt (objReleased_iff _ _).mp hr)) he]
      rfl

end Sys2Proof.Machine
end

section
/-! Numbers as little-endian bytes, and completion barrier objects (R335 to R338, Table 16.6). -/

namespace Sys2Proof.Machine

open Sys2Proof Sys2Proof.Safety

/-! ### Little-endian values (R2) -/

theorem natOfBytes_append (a b : List Byte) : natOfBytes (a ++ b) = natOfBytes a + 256 ^ a.length * natOfBytes b := by
  induction a with
  | nil => simp [natOfBytes]
  | cons x a ih =>
    simp only [List.cons_append, natOfBytes, ih, List.length_cons, pow_succ]
    ring

theorem natOfBytes_lt (l : List Byte) : natOfBytes l < 256 ^ l.length := by
  induction l with
  | nil => simp [natOfBytes]
  | cons b l ih =>
    have hb := b.isLt
    simp only [natOfBytes, List.length_cons, pow_succ]
    omega

theorem natOfBytes_bytesOfNat (n v : Nat) : natOfBytes (bytesOfNat n v) = v % 256 ^ n := by
  induction n generalizing v with
  | zero => simp [bytesOfNat, natOfBytes, Nat.mod_one]
  | succ n ih =>
    simp only [bytesOfNat, natOfBytes, ih, BitVec.toNat_ofNat]
    rw [pow_succ 256 n, Nat.mul_comm _ 256, Nat.mod_mul]

theorem bytesOfNat_append (m n v : Nat) : bytesOfNat (m + n) v = bytesOfNat m v ++ bytesOfNat n (v / 256 ^ m) := by
  induction m generalizing v with
  | zero => simp [bytesOfNat]
  | succ m ih =>
    rw [Nat.succ_add]
    simp only [bytesOfNat, ih, List.cons_append, pow_succ, Nat.div_div_eq_div_mul, Nat.mul_comm (256 ^ m)]

theorem bytesOfNat_mod (n v : Nat) : bytesOfNat n (v % 256 ^ n) = bytesOfNat n v := by
  have h := bytes_natOfBytes (bytesOfNat n v)
  rwa [bytesOfNat_length, natOfBytes_bytesOfNat] at h

theorem read_length (m : Memory) (a n : Nat) : (m.read a n).length = n := by simp [read_map]

theorem bytesOfNat_read (m : Memory) (a n : Nat) : bytesOfNat n (natOfBytes (m.read a n)) = m.read a n := by
  have h := bytes_natOfBytes (m.read a n)
  rwa [read_length] at h

theorem read_append (m : Memory) (a n k : Nat) : m.read a (n + k) = m.read a n ++ m.read (a + n) k := by
  induction n generalizing a with
  | zero => simp [Memory.read]
  | succ n ih =>
    rw [Nat.succ_add, Memory.read, ih, Memory.read, List.cons_append, Nat.add_right_comm, Nat.add_assoc]

theorem read_congr {m m' : Memory} {a n : Nat} (h : ∀ x, a ≤ x → x < a + n → m.get x = m'.get x) : m.read a n = m'.read a n := by
  simp only [read_map]
  refine List.map_congr_left fun j hj => h _ (Nat.le_add_right _ _) ?_
  have := List.mem_range.mp hj
  omega

/-- Bytes apart from those written read as before. -/
theorem read_write_apart {m : Memory} (w : m.wf = true) {a b n : Nat} {bs : List Byte} (h : b + n ≤ a ∨ a + bs.length ≤ b) :
    (m.write a bs).read b n = m.read b n :=
  read_congr fun x h1 h2 => by rw [get_write w, if_neg (by omega)]

theorem getD_read (m : Memory) (a n x : Nat) (h : x < n) : (m.read a n).getD x 0 = m.get (a + x) := by
  simp [read_map, h]

/-! ### The object's twelve bytes (Table 16.6) -/

/-- The fields of a barrier object but PARKED. -/
structure BarObj where
  target : Nat
  arrived : Nat
  tag : Nat
  status : Nat
  flags : Nat

structure BarObj.Fits (o : BarObj) : Prop where
  target : o.target < 2 ^ 32
  arrived : o.arrived < 2 ^ 32
  tag : o.tag < 2 ^ 16
  status : o.status < 2 ^ 8
  flags : o.flags < 2 ^ 8

def BarObj.value (o : BarObj) : Nat := o.target + o.arrived * 2 ^ 32 + o.tag * 2 ^ 64 + o.status * 2 ^ 80 + o.flags * 2 ^ 88
def BarObj.bytes (o : BarObj) : List Byte := bytesOfNat 12 o.value

theorem BarObj.Fits.value_lt {o : BarObj} (h : o.Fits) : o.value < 2 ^ 96 := by
  obtain ⟨h1, h2, h3, h4, h5⟩ := h
  unfold BarObj.value
  omega

/-- The bytes field by field. -/
theorem BarObj.Fits.bytes {o : BarObj} (h : o.Fits) :
    o.bytes = bytesOfNat 4 o.target ++ bytesOfNat 4 o.arrived ++ bytesOfNat 2 o.tag ++ bytesOfNat 1 o.status ++ bytesOfNat 1 o.flags := by
  obtain ⟨h1, h2, h3, h4, h5⟩ := h
  have field (n v w : Nat) (hv : v % 256 ^ n = w) : bytesOfNat n v = bytesOfNat n w := by rw [← hv, bytesOfNat_mod]
  rw [BarObj.bytes, show 12 = 4 + 4 + 2 + 1 + 1 from rfl, bytesOfNat_append (4 + 4 + 2 + 1) 1, bytesOfNat_append (4 + 4 + 2) 1,
    bytesOfNat_append (4 + 4) 2, bytesOfNat_append 4 4]
  rw [field 4 o.value o.target, field 4 (o.value / 256 ^ 4) o.arrived, field 2 (o.value / 256 ^ (4 + 4)) o.tag,
    field 1 (o.value / 256 ^ (4 + 4 + 2)) o.status, field 1 (o.value / 256 ^ (4 + 4 + 2 + 1)) o.flags]
  all_goals
    simp only [BarObj.value]
    omega

section Fields
variable {o : BarObj} {p : Nat} (h : o.Fits)
include h

theorem BarObj.Fits.released : objReleased (o.value + p * 2 ^ 96) o.tag = true ↔ o.target ≤ o.arrived := by
  obtain ⟨h1, h2, h3, h4, h5⟩ := h
  have harrived : (o.value + p * 2 ^ 96) / 2 ^ 32 % 2 ^ 32 = o.arrived := by
    simp only [BarObj.value]
    omega
  have htarget : (o.value + p * 2 ^ 96) % 2 ^ 32 = o.target := by
    simp only [BarObj.value]
    omega
  have htag : (o.value + p * 2 ^ 96) / 2 ^ 64 % 2 ^ 16 = o.tag := by
    simp only [BarObj.value]
    omega
  rw [objReleased_iff, harrived, htarget, htag]
  exact and_iff_right rfl

theorem BarObj.Fits.tag_eq : bitsOf (o.value + p * 2 ^ 96) 64 16 = o.tag := by
  obtain ⟨h1, h2, h3, h4, h5⟩ := h
  simp only [bitsOf, BarObj.value]
  omega

theorem BarObj.Fits.arrived_eq : bitsOf (o.value + p * 2 ^ 96) 32 32 = o.arrived := by
  obtain ⟨h1, h2, h3, h4, h5⟩ := h
  simp only [bitsOf, BarObj.value]
  omega

theorem BarObj.Fits.status_eq : bitsOf (o.value + p * 2 ^ 96) 80 8 = o.status := by
  obtain ⟨h1, h2, h3, h4, h5⟩ := h
  simp only [bitsOf, BarObj.value]
  omega

theorem BarObj.Fits.parked_eq (hp : p < 2 ^ 32) : bitsOf (o.value + p * 2 ^ 96) 96 32 = p := by
  obtain ⟨h1, h2, h3, h4, h5⟩ := h
  simp only [bitsOf, BarObj.value]
  omega

theorem BarObj.Fits.relpost : (o.value + p * 2 ^ 96).testBit 88 = decide (o.flags % 2 = 1) := by
  obtain ⟨h1, h2, h3, h4, h5⟩ := h
  rw [Nat.testBit_eq_decide_div_mod_eq]
  congr 1
  simp only [BarObj.value, eq_iff_iff]
  omega

end Fields

/-! ### A release set (R136, R160, R337) -/

theorem foldl_wake_rest (ts : List Tid) (s : State) : ts.foldl State.wake s = { s with threads := (ts.foldl State.wake s).threads } := by
  induction ts generalizing s with
  | nil => rfl
  | cons t ts ih => exact (ih (s.wake t)).trans rfl

theorem thread?_foldl_wake {u : Tid} (ts : List Tid) {s : State} {x : Thread} (hx : s.thread? u = some x) :
    (ts.foldl State.wake s).thread? u = some (if u ∈ ts then { x with woken := true } else x) := by
  induction ts generalizing s x with
  | nil => simpa using hx
  | cons t ts ih =>
    rw [List.foldl_cons]
    by_cases h : u = t
    · subst h
      rw [ih (thread?_wake_self hx)]
      simp
    · have hother : (s.wake t).thread? u = s.thread? u := thread?_modThread_other (fun _ => rfl) h
      rw [ih (hother.trans hx)]
      simp [h]

theorem release_eq (s : State) (ts : List Tid) : s.release ts = { s with
    threads := (ts.foldl State.wake s).threads
    compl := s.compl ++ (sortLanes ts).map fun t => { t, xs := [], p := none, cause := none, set := some s.nextSeq }
    nextSeq := s.nextSeq + 1 } := by
  simp only [State.release]
  rw [foldl_wake_rest]

/-! ### What follows a write of the object (R337) -/

/-- The threads of the run's own team that wait on the object for `tag`. -/
def State.awaiting (s : State) (core off tag : Nat) : List Tid := (s.threads.filter fun x => s.waitsOn x core off == some tag).map (·.id)

section Release
variable {s : State} {core off p : Nat} {o : BarObj}

theorem core_scrRaw_self (s : State) (core a : Nat) (bs : List Byte) : ((s.scrRaw core a bs).core core).scr = (s.core core).scr.write a bs :=
  congrArg Core.scr (core_modCore_self s core _ (by intro; rfl))

theorem core_scrRaw_other (s : State) {core c : Nat} (a : Nat) (bs : List Byte) (h : c ≠ core) : (s.scrRaw core a bs).core c = s.core c :=
  core_modCore_other s core c _ (by intro; rfl) h

theorem scrRaw_rest (s : State) (core a : Nat) (bs : List Byte) : s.scrRaw core a bs = { s with cores := (s.scrRaw core a bs).cores } :=
  modCore_rest s core _

theorem core_scrRaw (s : State) (core a : Nat) (bs : List Byte) (c : Nat) : (s.scrRaw core a bs).core c =
    { s.core c with scr := ((s.scrRaw core a bs).core c).scr, scrBad := ((s.scrRaw core a bs).core c).scrBad } := by
  by_cases h : c = core
  · subst h
    have heq : (s.scrRaw c a bs).core c = _ := core_modCore_self s c _ (by intro; rfl)
    rw [heq]
  · rw [core_scrRaw_other s a bs h]

theorem core_modCore_scr (s : State) (c : Nat) {f : Core → Core} (hid : ∀ k, (f k).id = k.id) (hscr : ∀ k, (f k).scr = k.scr) (n : Nat) :
    ((s.modCore c f).core n).scr = (s.core n).scr := by
  by_cases h : n = c
  · rw [h, core_modCore_self s c f hid, hscr]
  · rw [core_modCore_other s c n f hid h]

theorem serveEvq_scr (s : State) (core c : Nat) : ((s.serveEvq core).core c).scr = (s.core c).scr := by
  unfold State.serveEvq
  split
  · rfl
  · split
    · exact core_modCore_scr s core (by intro; rfl) (by intro; rfl) c
    · rfl

theorem postEvent_scr (s : State) (core : Nat) (e : EvEntry) (c : Nat) : ((s.postEvent core e).core c).scr = (s.core c).scr :=
  (serveEvq_scr _ core c).trans (core_modCore_scr s core (by intro; rfl) (by intro; rfl) c)

theorem wakeReleased_early (h : o.Fits) (hv : s.objAt core off = o.value + p * 2 ^ 96) (hlt : o.arrived < o.target) :
    s.wakeReleased core off = s := by
  have hno : objReleased (o.value + p * 2 ^ 96) o.tag = false := by
    rw [Bool.eq_false_iff, ne_eq, h.released]
    omega
  simp only [State.wakeReleased, hv, h.tag_eq, hno, Bool.not_false, if_true]

/-- The release set of an object whose PARKED is `p`. -/
def State.releaseObj (s : State) (core off p : Nat) (ts : List Tid) : State :=
  if ts.isEmpty then s else (s.scrRaw core (off + 12) (bytesOfNat 4 (p - ts.length))).release ts

/-- RELPOST: the release is posted once for each tag. -/
def State.postObj (s : State) (core off v : Nat) (woke : Bool) : State :=
  let posted := ((s.core core).objs.find? fun o => o.1 == off).bind (·.2)
  if v.testBit 88 && (woke || posted != some (bitsOf v 64 16)) then
    let s := s.modCore core fun c => { c with objs := (off, some (bitsOf v 64 16)) :: c.objs.filter fun o => o.1 != off }
    match s.teamAt core off with
    | some tm => s.postEvent core
        { ctx := tm.ctx, kind := kindEngine, status := bitsOf v 80 8, tag := bitsOf v 64 16, data := BitVec.ofNat 64 (off - tm.scr)
          tslot := tm.tslot, group := 0, lane := 0 }
    | none => s
  else s

theorem wakeReleased_released {v : Nat} (hv : s.objAt core off = v) (hr : objReleased v (bitsOf v 64 16) = true) :
    let ts := s.awaiting core off (bitsOf v 64 16)
    s.wakeReleased core off = (s.releaseObj core off (bitsOf v 96 32) ts).postObj core off v (!ts.isEmpty) := by
  simp only [State.wakeReleased, hv, hr, Bool.not_true, Bool.false_eq_true, if_false]
  rfl

theorem wakeReleased_quietly (h : o.Fits) (hp : p < 2 ^ 32) (hv : s.objAt core off = o.value + p * 2 ^ 96) (hle : o.target ≤ o.arrived)
    (hpost : o.flags % 2 = 0) : s.wakeReleased core off = s.releaseObj core off p (s.awaiting core off o.tag) := by
  have hyes := (h.released (p := p)).mpr hle
  have hno : (o.value + p * 2 ^ 96).testBit 88 = false := by
    rw [h.relpost]
    simp [hpost]
  rw [wakeReleased_released hv (by rw [h.tag_eq, hyes])]
  simp only [State.postObj, hno, Bool.false_and, Bool.false_eq_true, if_false, h.tag_eq, h.parked_eq hp]

theorem releaseObj_scr (w : (s.core core).scr.wf = true) {x : Nat} (hx : x < off + 12 ∨ off + 16 ≤ x) (ts : List Tid) :
    ((s.releaseObj core off p ts).core core).scr.get x = (s.core core).scr.get x := by
  unfold State.releaseObj
  split
  · rfl
  · rw [release_eq]
    show ((s.scrRaw core (off + 12) _).core core).scr.get x = _
    rw [core_scrRaw_self, get_write w, bytesOfNat_length, if_neg (by omega)]

theorem postObj_scr (s : State) (core off v : Nat) (woke : Bool) : ((s.postObj core off v woke).core core).scr = (s.core core).scr := by
  have hmark (f : Core → List (Nat × Option Nat)) : ((s.modCore core fun k => { k with objs := f k }).core core).scr = (s.core core).scr :=
    core_modCore_scr s core (by intro; rfl) (by intro; rfl) core
  unfold State.postObj
  dsimp only
  split
  · split
    · rw [postEvent_scr]
      exact hmark _
    · exact hmark _
  · rfl

/-- Beside the object's PARKED no byte changes, whether or not the release is posted. -/
theorem wakeReleased_scr (w : (s.core core).scr.wf = true) {x : Nat} (hx : x < off + 12 ∨ off + 16 ≤ x) :
    ((s.wakeReleased core off).core core).scr.get x = (s.core core).scr.get x := by
  by_cases hr : objReleased (s.objAt core off) (bitsOf (s.objAt core off) 64 16) = true
  · rw [wakeReleased_released rfl hr, postObj_scr]
    exact releaseObj_scr w hx _
  · simp only [State.wakeReleased, hr, Bool.not_false, if_true]

end Release

/-! ### The object after a write of its twelve bytes -/

/-- The object's twelve bytes have been written, and nothing else but what a core knows of the words and objects there. -/
structure ObjWritten (core off : Nat) (o : BarObj) (s s1 : State) : Prop where
  rest : s1 = { s with cores := s1.cores }
  cores : ∀ c, s1.core c = { s.core c with scr := (s1.core c).scr, scrBad := (s1.core c).scrBad, objs := (s1.core c).objs }
  others : ∀ c, c ≠ core → s1.core c = s.core c
  bytes : ∀ x, (s1.core core).scr.get x = if off ≤ x ∧ x < off + 12 then o.bytes.getD (x - off) 0 else (s.core core).scr.get x
  wf : (s1.core core).scr.wf = true

/-- The object's fields after a write, and what follows it (R336, R337). -/
def ObjBecomes (core off : Nat) (o : BarObj) (s s' : State) : Prop :=
  let woke := s.awaiting core off o.tag
  let old := natOfBytes ((s.core core).scr.read (off + 12) 4)
  (o.arrived < o.target ∨ o.flags % 2 = 0 →
    (∀ c, s'.core c = { s.core c with scr := (s'.core c).scr, scrBad := (s'.core c).scrBad, objs := (s'.core c).objs }) ∧
    ∀ c, c ≠ core → s'.core c = s.core c) ∧
  (∀ x, x < off + 12 ∨ off + 16 ≤ x →
    (s'.core core).scr.get x = if off ≤ x ∧ x < off + 12 then o.bytes.getD (x - off) 0 else (s.core core).scr.get x) ∧
  (o.arrived < o.target → s' = { s with cores := s'.cores } ∧ (s'.core core).scr.read (off + 12) 4 = (s.core core).scr.read (off + 12) 4) ∧
  (o.target ≤ o.arrived → o.flags % 2 = 0 →
    s' = { s with cores := s'.cores, threads := s'.threads, compl := s'.compl, nextSeq := s'.nextSeq } ∧
    s'.compl = s.compl ++ (sortLanes woke).map (fun t => { t, xs := [], p := none, cause := none, set := some s.nextSeq }) ∧
    (woke ≠ [] → (s'.core core).scr.read (off + 12) 4 = bytesOfNat 4 (old - woke.length)) ∧
    ∀ u x, s.thread? u = some x → s'.thread? u = some (if u ∈ woke then { x with woken := true } else x))

section Becomes
variable {s s1 : State} {core off : Nat} {o : BarObj}

theorem map_getD_range (l : List Byte) : (List.range l.length).map (fun j => l.getD j 0) = l := by
  refine List.ext_getElem (by simp) fun j h1 h2 => ?_
  simp [h2]

theorem ObjWritten.parked (hw : ObjWritten core off o s s1) : (s1.core core).scr.read (off + 12) 4 = (s.core core).scr.read (off + 12) 4 :=
  read_congr fun x h1 h2 => by rw [hw.bytes, if_neg (by omega)]

theorem ObjWritten.objAt (hw : ObjWritten core off o s s1) (h : o.Fits) :
    s1.objAt core off = o.value + natOfBytes ((s.core core).scr.read (off + 12) 4) * 2 ^ 96 := by
  have hlen : o.bytes.length = 12 := bytesOfNat_length _ _
  have hfields : (s1.core core).scr.read off 12 = o.bytes := by
    rw [read_map, ← map_getD_range o.bytes, hlen]
    refine List.map_congr_left fun j hj => ?_
    have hj12 := List.mem_range.mp hj
    rw [hw.bytes, if_pos (by omega), Nat.add_sub_cancel_left]
  have hvalue : natOfBytes o.bytes = o.value := by
    rw [BarObj.bytes, natOfBytes_bytesOfNat]
    exact Nat.mod_eq_of_lt (by simpa using h.value_lt)
  simp only [State.objAt, State.scrRead]
  rw [show 16 = 12 + 4 from rfl, read_append, natOfBytes_append, hfields, hvalue, hlen, hw.parked, Nat.mul_comm]
  norm_num

theorem teamOf_congr (hr : s1 = { s with cores := s1.cores }) (hb : ∀ n, (s1.core n).bind = (s.core n).bind) (t : Tid) : s1.teamOf t = s.teamOf t := by
  have hteam (c g k : Nat) : s1.team? c g k = s.team? c g k := by rw [hr]; rfl
  cases t with
  | thr c g k _ _ => exact hteam c g k
  | scalar k => simp only [State.teamOf, hb, hteam]

theorem ObjWritten.awaiting (hw : ObjWritten core off o s s1) (tag : Nat) : s1.awaiting core off tag = s.awaiting core off tag := by
  have hthreads : s1.threads = s.threads := by rw [hw.rest]
  have hat : s1.teamAt core off = s.teamAt core off := by rw [hw.rest]; rfl
  have hbind (n : Nat) : (s1.core n).bind = (s.core n).bind := by rw [hw.cores]
  simp only [State.awaiting, State.waitsOn, hthreads, hat, teamOf_congr hw.rest hbind]

/-- The release set of an object whose write has been made. -/
theorem ObjWritten.released (hw : ObjWritten core off o s s1) (n : Nat) (ts : List Tid) :
    let s' := s1.releaseObj core off n ts
    (∀ c, s'.core c = { s.core c with scr := (s'.core c).scr, scrBad := (s'.core c).scrBad, objs := (s'.core c).objs }) ∧
    (∀ c, c ≠ core → s'.core c = s.core c) ∧
    s' = { s with cores := s'.cores, threads := s'.threads, compl := s'.compl, nextSeq := s'.nextSeq } ∧
    s'.compl = s.compl ++ (sortLanes ts).map (fun t => { t, xs := [], p := none, cause := none, set := some s.nextSeq }) ∧
    (ts ≠ [] → (s'.core core).scr.read (off + 12) 4 = bytesOfNat 4 (n - ts.length)) ∧
    ∀ u x, s.thread? u = some x → s'.thread? u = some (if u ∈ ts then { x with woken := true } else x) := by
  have hthread (u : Tid) : s1.thread? u = s.thread? u := by rw [hw.rest]; rfl
  have hthreads : s1.threads = s.threads := by rw [hw.rest]
  have hcompl : s1.compl = s.compl := by rw [hw.rest]
  have hseq : s1.nextSeq = s.nextSeq := by rw [hw.rest]
  cases ts with
  | nil =>
    have heq : s1.releaseObj core off n [] = s1 := if_pos rfl
    rw [heq]
    refine ⟨hw.cores, hw.others, ?_, by simpa [sortLanes] using hcompl, fun h => absurd rfl h, fun u x hx => by simpa using (hthread u).trans hx⟩
    exact hw.rest.trans (by simp only [hthreads, hcompl, hseq])
  | cons t ts =>
    let bs := bytesOfNat 4 (n - (t :: ts).length)
    let s2 := s1.scrRaw core (off + 12) bs
    have heq : s1.releaseObj core off n (t :: ts) = s2.release (t :: ts) := if_neg (by simp)
    have hcore (c : Nat) : (s2.release (t :: ts)).core c = s2.core c := by rw [release_eq]; rfl
    have hrest2 : s2 = { s1 with cores := s2.cores } := scrRaw_rest s1 core (off + 12) bs
    rw [heq]
    refine ⟨fun c => ?_, fun c hc => ?_, ?_, ?_, fun _ => ?_, fun u x hx => ?_⟩
    · rw [hcore, core_scrRaw, hw.cores]
    · rw [hcore, core_scrRaw_other s1 _ _ hc, hw.others c hc]
    · rw [release_eq, hrest2, hw.rest]
    · rw [release_eq]
      show s2.compl ++ (sortLanes (t :: ts)).map (fun t => { t, xs := [], p := none, cause := none, set := some s2.nextSeq }) = _
      have hcompl2 : s2.compl = s.compl := by rw [hrest2]; exact hcompl
      have hseq2 : s2.nextSeq = s.nextSeq := by rw [hrest2]; exact hseq
      rw [hcompl2, hseq2]
    · rw [hcore, core_scrRaw_self]
      simpa [bs, bytesOfNat_length] using read_write hw.wf (off + 12) bs
    · have hx2 : s2.thread? u = some x := by
        rw [hrest2]
        exact (hthread u).trans hx
      exact thread?_foldl_wake _ hx2

theorem becomes_wakeReleased (hw : ObjWritten core off o s s1) (h : o.Fits) : ObjBecomes core off o s (s1.wakeReleased core off) := by
  have hp : natOfBytes ((s.core core).scr.read (off + 12) 4) < 2 ^ 32 := by
    have := natOfBytes_lt ((s.core core).scr.read (off + 12) 4)
    rw [read_length] at this
    norm_num at this ⊢
    exact this
  have hv := hw.objAt h
  have hbytes (x : Nat) (hx : x < off + 12 ∨ off + 16 ≤ x) := (wakeReleased_scr hw.wf hx).trans (hw.bytes x)
  by_cases hlt : o.arrived < o.target
  · rw [wakeReleased_early h hv hlt] at hbytes ⊢
    exact ⟨fun _ => ⟨hw.cores, hw.others⟩, hbytes, fun _ => ⟨hw.rest, hw.parked⟩, fun hle => absurd hlt (Nat.not_lt.mpr hle)⟩
  by_cases hpost : o.flags % 2 = 0
  · rw [wakeReleased_quietly h hp hv (Nat.not_lt.mp hlt) hpost, hw.awaiting] at hbytes ⊢
    obtain ⟨hcores, hothers, hrest, hcompl, hparked, hthreads⟩ := hw.released (natOfBytes ((s.core core).scr.read (off + 12) 4)) (s.awaiting core off o.tag)
    exact ⟨fun _ => ⟨hcores, hothers⟩, hbytes, fun hlt' => absurd hlt' hlt, fun _ _ => ⟨hrest, hcompl, hparked, hthreads⟩⟩
  · exact ⟨fun hq => (hq.elim hlt hpost).elim, hbytes, fun hlt' => absurd hlt' hlt, fun _ heven => absurd heven hpost⟩

/-! ### An arrival and BINIT (R336, R338) -/

/-- The fields that twelve bytes of a memory hold. -/
def objIn (m : Memory) (off : Nat) : BarObj where
  target := natOfBytes (m.read off 4)
  arrived := natOfBytes (m.read (off + 4) 4)
  tag := natOfBytes (m.read (off + 8) 2)
  status := natOfBytes (m.read (off + 10) 1)
  flags := natOfBytes (m.read (off + 11) 1)

theorem natOfBytes_read_lt (m : Memory) (a n : Nat) : natOfBytes (m.read a n) < 256 ^ n := by
  simpa [read_length] using natOfBytes_lt (m.read a n)

theorem objIn_fits (m : Memory) (off : Nat) : (objIn m off).Fits :=
  ⟨natOfBytes_read_lt m off 4, natOfBytes_read_lt m (off + 4) 4, natOfBytes_read_lt m (off + 8) 2, natOfBytes_read_lt m (off + 10) 1,
    natOfBytes_read_lt m (off + 11) 1⟩

theorem read_objBytes (m : Memory) (off : Nat) :
    m.read off 12 = m.read off 4 ++ m.read (off + 4) 4 ++ m.read (off + 8) 2 ++ m.read (off + 10) 1 ++ m.read (off + 11) 1 := by
  rw [show 12 = 4 + 4 + 2 + 1 + 1 from rfl, read_append m off (4 + 4 + 2 + 1) 1, read_append m off (4 + 4 + 2) 1, read_append m off (4 + 4) 2,
    read_append m off 4 4]

theorem objIn_bytes (m : Memory) (off : Nat) : (objIn m off).bytes = m.read off 12 := by
  rw [(objIn_fits m off).bytes, read_objBytes]
  simp only [objIn, bytesOfNat_read]

theorem objAt_eq (s : State) (core off : Nat) :
    s.objAt core off = (objIn (s.core core).scr off).value + natOfBytes ((s.core core).scr.read (off + 12) 4) * 2 ^ 96 := by
  have hvalue : natOfBytes ((s.core core).scr.read off 12) = (objIn (s.core core).scr off).value := by
    rw [← objIn_bytes, BarObj.bytes, natOfBytes_bytesOfNat]
    exact Nat.mod_eq_of_lt (by simpa using (objIn_fits (s.core core).scr off).value_lt)
  simp only [State.objAt, State.scrRead]
  rw [show 16 = 12 + 4 from rfl, read_append, natOfBytes_append, hvalue, read_length, Nat.mul_comm]
  norm_num

/-- A write of a memory that leaves the fields `o` there, and every byte outside the object. -/
theorem get_of_read {m m' : Memory} {o : BarObj} {off : Nat} (h : m'.read off 12 = o.bytes)
    (hout : ∀ x, x < off ∨ off + 12 ≤ x → m'.get x = m.get x) (x : Nat) :
    m'.get x = if off ≤ x ∧ x < off + 12 then o.bytes.getD (x - off) 0 else m.get x := by
  split
  · rw [← h, getD_read _ _ _ _ (by omega)]
    congr 1
    omega
  · exact hout x (by omega)

theorem read_write_self {m : Memory} (w : m.wf = true) (a n v : Nat) : (m.write a (bytesOfNat n v)).read a n = bytesOfNat n v := by
  simpa [bytesOfNat_length] using read_write w a (bytesOfNat n v)

/-- The two writes of an arrival. -/
theorem arrived_written (w : (s.core core).scr.wf = true) {arr st : Nat} (ha : arr < 2 ^ 32) (hst : st < 2 ^ 8) :
    ObjWritten core off { objIn (s.core core).scr off with arrived := arr, status := st } s
      ((s.scrRaw core (off + 4) (bytesOfNat 4 arr)).scrRaw core (off + 10) (bytesOfNat 1 st)) := by
  let s1 := s.scrRaw core (off + 4) (bytesOfNat 4 arr)
  obtain ⟨htgt, -, htg, -, hfl⟩ := objIn_fits (s.core core).scr off
  have hfit : BarObj.Fits { objIn (s.core core).scr off with arrived := arr, status := st } := ⟨htgt, ha, htg, hst, hfl⟩
  have hmem : ((s1.scrRaw core (off + 10) (bytesOfNat 1 st)).core core).scr =
      ((s.core core).scr.write (off + 4) (bytesOfNat 4 arr)).write (off + 10) (bytesOfNat 1 st) := by
    rw [core_scrRaw_self, core_scrRaw_self]
  have w1 := write_wf w (off + 4) (bytesOfNat 4 arr)
  have apart {a n : Nat} (h : a + n ≤ off + 4 ∨ off + 8 ≤ a) (h' : a + n ≤ off + 10 ∨ off + 11 ≤ a) :
      (((s.core core).scr.write (off + 4) (bytesOfNat 4 arr)).write (off + 10) (bytesOfNat 1 st)).read a n = (s.core core).scr.read a n := by
    rw [read_write_apart w1 (by rwa [bytesOfNat_length]), read_write_apart w (by rwa [bytesOfNat_length])]
  constructor
  case rest => rw [scrRaw_rest, scrRaw_rest]
  case cores =>
    intro c
    rw [core_scrRaw, core_scrRaw s]
  case others => exact fun c hc => (core_scrRaw_other s1 _ _ hc).trans (core_scrRaw_other s _ _ hc)
  case bytes =>
    rw [hmem]
    refine get_of_read ?_ fun x hx => ?_
    · rw [read_objBytes, hfit.bytes, apart (by omega) (by omega), apart (a := off + 8) (by omega) (by omega), apart (a := off + 11) (by omega) (by omega),
        read_write_self w1, read_write_apart w1 (by rw [bytesOfNat_length]; omega), read_write_self w]
      simp only [objIn, bytesOfNat_read]
    · rw [get_write w1, get_write w, bytesOfNat_length, bytesOfNat_length, if_neg (by omega), if_neg (by omega)]
  case wf =>
    rw [hmem]
    exact write_wf w1 _ _

theorem core_modCore_objs (s : State) (core : Nat) (f : List (Nat × Option Nat) → List (Nat × Option Nat)) (c : Nat) :
    (s.modCore core fun k => { k with objs := f k.objs }).core c =
      { s.core c with objs := ((s.modCore core fun k => { k with objs := f k.objs }).core c).objs } := by
  by_cases h : c = core
  · subst h
    have hself : (s.modCore c fun k => { k with objs := f k.objs }).core c = _ := core_modCore_self s c _ (by intro; rfl)
    rw [hself]
  · have hother : (s.modCore core fun k => { k with objs := f k.objs }).core c = s.core c := core_modCore_other s core c _ (by intro; rfl) h
    rw [hother]

theorem binit_written (w : (s.core core).scr.wf = true) (target tag flags : Nat) :
    ObjWritten core off ⟨target, 0, tag, 0, flags⟩ s
      ((s.scrRaw core off (bytesOfNat 12 (target + tag * 2 ^ 64 + flags * 2 ^ 88))).modCore core
        fun c => { c with objs := (off, none) :: c.objs.filter fun o => o.1 != off }) := by
  have hvalue : target + tag * 2 ^ 64 + flags * 2 ^ 88 = (BarObj.mk target 0 tag 0 flags).value := by simp [BarObj.value]
  let s1 := s.scrRaw core off (bytesOfNat 12 (BarObj.mk target 0 tag 0 flags).value)
  let f : Core → Core := fun c => { c with objs := (off, none) :: c.objs.filter fun o => o.1 != off }
  rw [hvalue]
  have hmem : ((s1.modCore core f).core core).scr = (s.core core).scr.write off (BarObj.mk target 0 tag 0 flags).bytes :=
    (core_modCore_scr s1 core (by intro; rfl) (by intro; rfl) core).trans (core_scrRaw_self s core off _)
  constructor
  case rest =>
    have hrest : s1 = { s with cores := s1.cores } := scrRaw_rest s core off _
    refine (modCore_rest s1 core f).trans ?_
    generalize (s1.modCore core f).cores = cores
    rw [hrest]
  case cores =>
    intro c
    have hobjs : (s1.modCore core f).core c = { s1.core c with objs := ((s1.modCore core f).core c).objs } :=
      core_modCore_objs s1 core (fun l => (off, none) :: l.filter fun o => o.1 != off) c
    refine hobjs.trans ?_
    generalize ((s1.modCore core f).core c).objs = objs at hobjs
    rw [hobjs]
    exact congrArg (fun k : Core => { k with objs }) (core_scrRaw s core off _ c)
  case others => exact fun c hc => (core_modCore_other s1 core c f (fun _ => rfl) hc).trans (core_scrRaw_other s _ _ hc)
  case bytes =>
    refine fun x => (congrArg (Memory.get · x) hmem).trans ?_
    rw [get_write w, BarObj.bytes, bytesOfNat_length]
  case wf => exact (congrArg Memory.wf hmem).trans (write_wf w _ _)

end Becomes

/-- Settles O39: both writes leave the object's fields, and `wakeReleased` goes by them. -/
theorem barrierObjects : Obligations.BarrierObjects := by
  unfold Obligations.BarrierObjects
  intro s core off bytes code target tag flags et w hoff old woke becomes
  have hfit := objIn_fits (s.core core).scr off
  have hv := objAt_eq s core off
  have htag : bitsOf (s.objAt core off) 64 16 = old 8 2 := by rw [hv, hfit.tag_eq]; rfl
  refine ⟨fun x hx hne => ?other, fun het hcode => ?arrive, fun ht htg hfl => ?binit⟩
  case other =>
    subst hx
    simp only [State.arrive, htag]
    exact if_pos hne
  case arrive =>
    have harrive : s.arrive core off bytes et code = State.arrive.go core off bytes code s (s.objAt core off) := by
      rcases het with rfl | rfl
      · rfl
      · simp only [State.arrive, htag]
        exact if_neg (fun h => h rfl)
    have hst : (if code ≠ 0 ∧ old 10 1 = 0 then code else old 10 1) < 2 ^ 8 := by
      have := hfit.status
      split
      · exact hcode
      · exact this
    rw [harrive, State.arrive.go, hv, hfit.arrived_eq, hfit.status_eq]
    refine ⟨rfl, becomes_wakeReleased (arrived_written w (Nat.mod_lt _ (Nat.two_pow_pos 32)) hst) ?_⟩
    exact ⟨hfit.target, Nat.mod_lt _ (Nat.two_pow_pos 32), hfit.tag, hst, hfit.flags⟩
  case binit => exact becomes_wakeReleased (binit_written w target tag flags) ⟨ht, Nat.two_pow_pos 32, htg, Nat.two_pow_pos 8, hfl⟩

end Sys2Proof.Machine
end

section
/-! The queue registers outside regions (R341, R342). -/

namespace Sys2Proof.Machine

open Sys2Proof Sys2Proof.Safety

section Queue
variable {s : State} {t : Tid} {th : Thread} {g : Guard} {fs : Bool} {q : QReg} {d a : XReg} {e : PReg} {tm : Team}

/-! ### The queue that a thread names -/

theorem queueOf_unbound (haway : s.away th = false) (htm : s.teamOf th.id = some tm) (hk : (tm.queue q.toNat).kind = 0) :
    s.queueOf th q = .error (.queueUnbound, q.setWidth 64) := by
  simp [State.queueOf, haway, htm, hk]

theorem queueOf_bound (haway : s.away th = false) (htm : s.teamOf th.id = some tm) (hk : (tm.queue q.toNat).kind ≠ 0) :
    s.queueOf th q = .ok tm := by
  simp [State.queueOf, haway, htm, hk]

theorem TQueue.full_eq (x : TQueue) : x.full = decide (16 ≤ if x.kind = 7 then x.result.length else x.push.length) := by
  unfold TQueue.full
  split <;> rfl

/-! ### What the operations write -/

theorem begins_startOp (s : State) (t : Tid) (fs : Bool) (b : Nat) (xs : List (Nat × Word)) (ps : List (Nat × Bool)) :
    Begins t fs b xs ps s (s.startOp t fs b fun _ => (xs, ps, 0)) := by
  unfold Begins State.startOp
  refine ⟨rfl, fun u hu x hx => ?_, fun u hu => thread?_modThread_other (fun x => ?_) (by simpa using hu)⟩
  · obtain rfl := List.mem_singleton.mp hu
    refine (thread?_modThread_self hx ?_).trans ?_
    · have hid := thread?_id hx
      cases hsh : x.shadow <;> exact hid
    · cases hsh : x.shadow <;> simp
  · cases hsh : x.shadow <;> rfl

/-- The registers from `d` and a predicate, in a thread's registers or its shadow's. -/
def Regs.popped (d : XReg) (ws : List Word) (p : Option (PReg × Bool)) (r : Regs) : Regs :=
  match p with
  | some (e, b) => (r.setXs d.toNat ws).setP e b
  | none => r.setXs d.toNat ws

theorem writeRegs_pred_lane (ht : s.thread? t = some th) (d : XReg) (ws : List Word) (p : Option (PReg × Bool)) :
    LanesDo [t] (fun x => { x.advance with regs := x.regs.popped d ws p, shadow := x.shadow.map (Regs.popped d ws p) }) s
      (s.writeRegs t d ws p) := by
  have heq : s.writeRegs t d ws p = s.modThread t fun x =>
      { x.advance with regs := th.regs.popped d ws p, shadow := x.shadow.map (Regs.popped d ws p) } := by
    rw [State.writeRegs, compute_eq ht]
    rfl
  rw [heq]
  refine ⟨rfl, fun u hu x hx => ?_, fun u hu => thread?_modThread_other (fun _ => rfl) (by simpa using hu)⟩
  obtain rfl := List.mem_singleton.mp hu
  obtain rfl : th = x := Option.some.inj (ht.symm.trans hx)
  exact thread?_modThread_self ht (show th.id = u from thread?_id ht)

/-! ### QPUSH -/

/-- An update of a team by which no thread's team changes. -/
structure TeamStays (f : Team → Team) : Prop where
  ctx : ∀ x, (f x).ctx = x.ctx
  grid : ∀ x, (f x).grid = x.grid
  num : ∀ x, (f x).num = x.num
  core : ∀ x, (f x).core = x.core
  saved : ∀ x, (f x).saved = x.saved

section ModTeam
variable {c g k : Nat} {f : Team → Team} (hf : TeamStays f)

/-- What an update of one team makes of a team. -/
def oneTeam (c g k : Nat) (f : Team → Team) (x : Team) : Team := if x.ctx = c ∧ x.grid = g ∧ x.num = k then f x else x

include hf

theorem TeamStays.one : TeamStays (oneTeam c g k f) := by
  have h (p : Prop) [Decidable p] (x : Team) {α : Type} (v : Team → α) (hv : v (f x) = v x) : v (if p then f x else x) = v x := by
    split
    · exact hv
    · rfl
  exact ⟨fun x => h _ x _ (hf.ctx x), fun x => h _ x _ (hf.grid x), fun x => h _ x _ (hf.num x), fun x => h _ x _ (hf.core x), fun x => h _ x _ (hf.saved x)⟩

theorem team?_modTeam (s : State) (c' g' k' : Nat) : (s.modTeam c g k f).team? c' g' k' = (s.team? c' g' k').map (oneTeam c g k f) := by
  obtain ⟨hctx, hgrid, hnum, -, -⟩ := hf.one (c := c) (g := g) (k := k)
  have hkey : (fun x : Team => x.ctx == c' && x.grid == g' && x.num == k') ∘ oneTeam c g k f = fun x => x.ctx == c' && x.grid == g' && x.num == k' := by
    funext x
    simp only [Function.comp, hctx, hgrid, hnum]
  exact (List.find?_map (f := oneTeam c g k f)).trans (by rw [hkey]; rfl)

theorem teamOf_modTeam (s : State) (t : Tid) : (s.modTeam c g k f).teamOf t = (s.teamOf t).map (oneTeam c g k f) := by
  cases t with
  | thr c' g' k' _ _ => exact team?_modTeam hf s c' g' k'
  | scalar n =>
    obtain ⟨-, -, -, hcore, hsaved⟩ := hf.one (c := c) (g := g) (k := k)
    have hbind : ((s.modTeam c g k f).core n).bind = (s.core n).bind := rfl
    simp only [State.teamOf, hbind, team?_modTeam hf]
    split
    · split
      · cases s.team? _ _ _ with
        | none => rfl
        | some x =>
          simp only [Option.map_some, hcore, hsaved]
          split <;> rfl
      · rfl
    · rfl

theorem queuePopper_modTeam (s : State) (c' g' k' n : Nat) : (s.modTeam c g k f).queuePopper c' g' k' n = s.queuePopper c' g' k' n := by
  obtain ⟨hctx, hgrid, hnum, -, -⟩ := hf.one (c := c) (g := g) (k := k)
  have hthreads : (s.modTeam c g k f).threads = s.threads := rfl
  simp only [State.queuePopper, hthreads, teamOf_modTeam hf]
  congr 2
  funext th
  cases s.teamOf th.id with
  | none => rfl
  | some tm => simp only [Option.map_some, hctx, hgrid, hnum]

end ModTeam

/-- The team with an entry put in its queue. -/
def Team.withEntry (q : Nat) (entry : List Word) (x : Team) : Team := { x with queues := setAt x.queues q ((x.queue q).put entry) }

theorem withEntry_stays (q : Nat) (entry : List Word) : TeamStays (Team.withEntry q entry) :=
  ⟨fun _ => rfl, fun _ => rfl, fun _ => rfl, fun _ => rfl, fun _ => rfl⟩

theorem serveQueue_none {c g k n : Nat} (h : s.queuePopper c g k n = none) : s.serveQueue c g k n = s := by
  unfold State.serveQueue
  rw [h]
  split <;> simp_all

/-- An entry put in a queue that nobody waits on stays there. -/
theorem perform_qpush {entry : List Word} (htm : s.teamOf t = some tm) (hp : s.queuePopper tm.ctx tm.grid tm.num q.toNat = none) :
    s.perform t (.qpush q.toNat entry) = s.modTeam tm.ctx tm.grid tm.num
      (Team.withEntry q.toNat (if (tm.queue q.toNat).kind = 7 then entry else entry ++ [pusherWord t])) := by
  have hnone := (queuePopper_modTeam (c := tm.ctx) (g := tm.grid) (k := tm.num)
    (withEntry_stays q.toNat (if (tm.queue q.toNat).kind = 7 then entry else entry ++ [pusherWord t])) s tm.ctx tm.grid tm.num q.toNat).trans hp
  simp only [State.perform, htm]
  exact serveQueue_none hnone

section Bound
variable (hq : Quiet th) (haway : s.away th = false) (htm : s.teamOf t = some tm) (hlog : s.logging t = false)
  (hk : (tm.queue q.toNat).kind ≠ 0)
include hq haway htm hlog hk

theorem execQpush_full (h : Lone s (.qpush g fs q a e) t th) (hfull : (tm.queue q.toNat).full = true) :
    exec (.qpush g fs q a e) s = .next (s.startOp t fs 24 fun _ => ([], [(e.toNat, false)], 0)) :=
  (run_lone h _).trans (by
    have hteam := queueOf_bound haway (thread?_id h.thread ▸ htm) hk
    simp only [h.thread, hteam, State.checked, quiet_shadow hq, beq_self_eq_true, compared_quiet h.thread hq, State.heldByLog, hlog,
      quiet_region hq, Bool.not_false, Bool.true_and, hfull, if_true, Bool.false_eq_true, if_false])

theorem execQpush_room (h : Lone s (.qpush g fs q a e) t th) (hfull : (tm.queue q.toNat).full = false) :
    exec (.qpush g fs q a e) s = .next ((s.perform t (.qpush q.toNat (th.regs.xs a 8))).startOp t fs 24 fun _ => ([], [(e.toNat, true)], 0)) :=
  (run_lone h _).trans (by
    have hteam := queueOf_bound haway (thread?_id h.thread ▸ htm) hk
    have hprep : s.prepare t (.qpush q.toNat (th.regs.xs a 8)) = (s, true) := by simp [State.prepare, hlog, htm, hfull]
    simp only [h.thread, hteam, State.checked, quiet_shadow hq, beq_self_eq_true, compared_quiet h.thread hq, State.heldByLog, hlog,
      quiet_region hq, Bool.not_false, Bool.true_and, hfull, Bool.false_eq_true, if_false, emitThen_done h.thread hq hprep])

end Bound

/-! ### QPOP, QPOP.NB and QSTAT -/

section Pop
variable (ht : s.thread? t = some th) (hq : Quiet th) (hlog : s.logging t = false)
include ht hq hlog

theorem popQueue_entry {x : List Word} {rest : List (List Word)} (hr : (tm.queue q.toNat).result = x :: rest) (nb : Option PReg) :
    s.popQueue t d q.toNat tm nb = (s.modTeam tm.ctx tm.grid tm.num fun y => { y with
      queues := setAt y.queues q.toNat { tm.queue q.toNat with result := rest } }).writeRegs t d x (nb.map fun p => (p, true)) := by
  simp only [State.popQueue, ht, State.heldByLog, hlog, quiet_region hq, Bool.false_eq_true, if_false, State.takeEntry, hr]

theorem popQueue_empty_nb (hr : (tm.queue q.toNat).result = []) :
    s.popQueue t d q.toNat tm (some e) = s.writeRegs t d (List.replicate 8 0) (some (e, false)) := by
  simp only [State.popQueue, ht, State.heldByLog, hlog, quiet_region hq, Bool.false_eq_true, if_false, State.takeEntry, hr]

theorem popQueue_empty (hr : (tm.queue q.toNat).result = []) (he : MayEnd s t th (unionRegs (s.standing th) (seqFrom d.toNat 8))) :
    s.popQueue t d q.toNat tm none =
      s.park t (Safety.successor th.pc) (unionRegs (s.standing th) (seqFrom d.toNat 8)) (.queue q.toNat) 1 (seqFrom d.toNat 8) none := by
  simp only [State.popQueue, ht, State.heldByLog, hlog, quiet_region hq, Bool.false_eq_true, if_false, State.takeEntry, hr, segEnd_ok ht he,
    succ_successor]

end Pop

end Queue

/-- Settles O40: the queue's bind, then its fullness or its oldest result entry. -/
theorem queueInstructions : Obligations.QueueInstructions := by
  unfold Obligations.QueueInstructions
  intro s t th g fs q d a e tm tq loop dest queues wrote hq haway htm hteam hlog
  refine ⟨fun hk i hi h => ?unbound, fun hk => ⟨fun h => ?push, fun x rest hr => ⟨fun h => ?pop, fun h => ?popNb⟩,
    fun hr => ⟨fun h he => ?empty, fun h => ?emptyNb⟩, fun h => ?stat⟩⟩
  case unbound =>
    have herr := queueOf_unbound haway (thread?_id h.thread ▸ htm) hk
    rcases hi with rfl | rfl | rfl | rfl <;> exact (run_lone h _).trans (by simp only [h.thread, herr, State.checked])
  case push =>
    intro n own
    have hn : tq.full = decide (16 ≤ n) := TQueue.full_eq tq
    refine ⟨fun hfull => ?_, fun hroom hp => ?_⟩
    · exact ⟨_, execQpush_full hq haway htm hlog hk h (by rw [hn]; exact decide_eq_true hfull), begins_startOp s t fs 24 _ _⟩
    · refine ⟨_, execQpush_room hq haway htm hlog hk h (by rw [hn]; exact decide_eq_false (by omega)), ?_⟩
      have hentry : (if (tm.queue q.toNat).kind = 7 then th.regs.xs a 8 else th.regs.xs a 8 ++ [pusherWord t]) = th.regs.xs a 8 ++ own := by
        simp only [own, loop, tq]
        split <;> simp
      rw [perform_qpush htm hp, hentry]
      exact begins_startOp _ t fs 24 _ _
  case pop =>
    have hteam := queueOf_bound haway (thread?_id h.thread ▸ htm) hk
    refine ⟨_, (run_lone h _).trans ?_, writeRegs_pred_lane (show (queues { tq with result := rest }).thread? t = some th from h.thread) d x none⟩
    simp only [h.thread, hteam, State.checked, popQueue_entry h.thread hq hlog hr]
    rfl
  case popNb =>
    have hteam := queueOf_bound haway (thread?_id h.thread ▸ htm) hk
    refine ⟨_, (run_lone h _).trans ?_, writeRegs_pred_lane (show (queues { tq with result := rest }).thread? t = some th from h.thread) d x (some (e, true))⟩
    simp only [h.thread, hteam, State.checked, popQueue_entry h.thread hq hlog hr]
    rfl
  case empty =>
    have hteam := queueOf_bound haway (thread?_id h.thread ▸ htm) hk
    refine (run_lone h _).trans ?_
    simp only [h.thread, hteam, State.checked, popQueue_empty h.thread hq hlog hr he]
    rfl
  case emptyNb =>
    have hteam := queueOf_bound haway (thread?_id h.thread ▸ htm) hk
    refine ⟨_, (run_lone h _).trans ?_, writeRegs_pred_lane h.thread d _ (some (e, false))⟩
    simp only [h.thread, hteam, State.checked, popQueue_empty_nb h.thread hq hlog hr]
  case stat =>
    have hteam := queueOf_bound haway (thread?_id h.thread ▸ htm) hk
    refine ⟨_, (run_lone h _).trans ?_, writeD_lane h.thread d _⟩
    simp only [h.thread, hteam, State.checked]
    rfl

end Sys2Proof.Machine
end

section
/-! Whole quarters of one group: what R345 holds, the checks of R346, and the order in which they act. -/

namespace Sys2Proof.Machine

open Sys2Proof Sys2Proof.Safety

/-! ### The lanes of quarters -/

/-- The lanes of quarter `q` of a group. -/
def quarterLanes (c g k grp q : Nat) : List Tid := (List.range 8).map fun l => Tid.thr c g k grp (8 * q + l)

section Lanes
variable {c g k grp q : Nat}

theorem mem_quarterLanes {t : Tid} : t ∈ quarterLanes c g k grp q ↔ ∃ l, l < 8 ∧ t = .thr c g k grp (8 * q + l) := by
  simp [quarterLanes, eq_comm]

theorem quarterOf_quarterLanes {t : Tid} (h : t ∈ quarterLanes c g k grp q) : quarterOf t = q := by
  obtain ⟨l, hl, rfl⟩ := mem_quarterLanes.mp h
  simp only [quarterOf, Tid.lane]
  omega

theorem inQuarter_flatMap {qs : List Nat} (hn : qs.Nodup) (q : Nat) :
    inQuarter q (qs.flatMap (quarterLanes c g k grp)) = if q ∈ qs then quarterLanes c g k grp q else [] := by
  induction qs with
  | nil => rfl
  | cons p qs ih =>
    obtain ⟨hp, hn'⟩ := List.nodup_cons.mp hn
    have hself : inQuarter q (quarterLanes c g k grp p) = if q = p then quarterLanes c g k grp p else [] := by
      split
      next h =>
        subst h
        exact List.filter_eq_self.mpr fun t ht => by simp [quarterOf_quarterLanes ht]
      next h => exact List.filter_eq_nil_iff.mpr fun t ht => by simp [quarterOf_quarterLanes ht, Ne.symm h]
    rw [List.flatMap_cons, inQuarter, List.filter_append]
    change inQuarter q _ ++ inQuarter q _ = _
    rw [hself, ih hn']
    by_cases h : q = p
    · subst h
      simp [hp]
    · simp [h]

theorem quarterLanes_length : (quarterLanes c g k grp q).length = 8 := by simp [quarterLanes]

theorem quarterLanes_ne_nil : (quarterLanes c g k grp q).isEmpty = false := rfl

end Lanes

/-- The quarters of an ascending list are those among the four, in order. -/
theorem filter_quarters {qs : List Nat} (ho : qs.Pairwise (· < ·)) (h4 : ∀ q ∈ qs, q < 4) {f : Nat → Bool} (hf : ∀ q, f q = true ↔ q ∈ qs) :
    (seqFrom 0 4).filter f = qs := by
  refine List.Pairwise.eq_of_mem_iff (r := (· < ·)) ?_ ho fun q => ?_
  · exact List.Pairwise.filter _ (by decide)
  · rw [List.mem_filter, hf, mem_seqFrom]
    exact ⟨fun h => h.2, fun h => ⟨⟨Nat.zero_le _, by simpa using h4 q h⟩, h⟩⟩

section Set
variable {s : State} {i : Instr} {qs : List Nat} {lanes : Nat → List Tid} {bq : Option Nat}
  {causes : State → List Tid → Option (Cause × DWord)} {act : State → List Tid → List Tid → State} {c g k grp : Nat}

theorem exec_quarterForm (h : quarterForm i = some (bq, causes, act)) (s : State) : exec i s = s.runQuarters i bq causes act := by
  unfold quarterForm at h
  split at h <;> cases h <;> rfl

/-- The issue is the lanes `quarterLanes` of the quarters. -/
theorem quarters_lanes_eq (h : Quarters s i qs lanes) : ∃ c g k grp, lanes = quarterLanes c g k grp := by
  obtain ⟨c, g, k, grp, hl⟩ := h.lanes
  exact ⟨c, g, k, grp, funext hl⟩

section Whole
variable (h : Quarters s i qs (quarterLanes c g k grp))
include h

theorem quarters_nodup : qs.Nodup := h.order.1.imp fun hlt => Nat.ne_of_lt hlt

theorem quarters_inQuarter (q : Nat) : Machine.inQuarter q s.issue = if q ∈ qs then quarterLanes c g k grp q else [] := by
  rw [h.issue, inQuarter_flatMap (quarters_nodup h)]

theorem quarters_mem {t : Tid} (ht : t ∈ s.issue) : ∃ q ∈ qs, ∃ l < 8, t = .thr c g k grp (8 * q + l) := by
  rw [h.issue] at ht
  obtain ⟨q, hq, hl⟩ := List.mem_flatMap.mp ht
  exact ⟨q, hq, mem_quarterLanes.mp hl⟩

theorem quarters_not_scalar {t : Tid} (ht : t ∈ s.issue) : Tid.isScalar t = false := by
  obtain ⟨q, -, l, -, rfl⟩ := quarters_mem h ht
  rfl

/-- No lane of a whole quarter has to be waited for, or has exited. -/
theorem quarters_exitedQuarter (hne : s.issue ≠ []) {ps : List Nat} (hps : ∀ p ∈ ps, p ∈ qs) : s.exitedQuarter ps s.issue = none := by
  obtain ⟨t, ts, hissue⟩ := List.exists_cons_of_ne_nil hne
  obtain ⟨q, -, l, -, rfl⟩ := quarters_mem h (hissue ▸ List.mem_cons_self)
  have hpresent (p : Nat) (hp : p ∈ ps) : ¬ ((seqFrom (8 * p) 8).any fun l =>
      !(s.groupOf c g k grp).live.getLsbD l && !(s.issue.any fun t => Tid.lane t == l)) = true := by
    simp only [List.any_eq_true, not_exists, not_and]
    intro n hn
    rw [mem_seqFrom] at hn
    have hlane : (s.issue.any fun t => Tid.lane t == n) = true := by
      refine List.any_eq_true.mpr ⟨.thr c g k grp n, ?_, by simp [Tid.lane]⟩
      rw [h.issue, List.mem_flatMap]
      exact ⟨p, hps p hp, mem_quarterLanes.mpr ⟨n - 8 * p, by omega, by congr 1; omega⟩⟩
    simp [hlane]
  simp only [State.exitedQuarter, hissue, groupKey]
  rw [hissue] at hpresent
  exact List.find?_eq_none.mpr fun p hp => hpresent p hp

theorem quarters_quarterHold (hb : ∀ p, bq = some p → p ∈ qs) (hne : s.issue ≠ []) : s.quarterHold bq s.issue = (s.issue, none) := by
  have hasked : (seqFrom 0 4).filter (fun q => !(inQuarter q s.issue).isEmpty || bq == some q) = qs := by
    refine filter_quarters h.order.1 h.order.2 fun q => ?_
    rw [quarters_inQuarter h]
    by_cases hq : q ∈ qs
    · simp [hq, quarterLanes_ne_nil]
    · simpa [hq] using fun hb' => hq (hb q hb')
  have hwhole (q : Nat) (hq : q ∈ qs) : ((inQuarter q s.issue).length == 8) = true := by
    rw [quarters_inQuarter h, if_pos hq, quarterLanes_length]
    rfl
  have hall : s.issue.filter (fun t => (inQuarter (quarterOf t) s.issue).length == 8) = s.issue := by
    refine List.filter_eq_self.mpr fun t ht => ?_
    obtain ⟨q, hq, l, hl, rfl⟩ := quarters_mem h ht
    have : quarterOf (.thr c g k grp (8 * q + l)) = q := quarterOf_quarterLanes (mem_quarterLanes.mpr ⟨l, hl, rfl⟩)
    rw [this]
    exact hwhole q hq
  simp only [State.quarterHold, hasked, quarters_exitedQuarter h hne fun p hp => hp]
  cases bq with
  | none => rw [hall]
  | some p =>
    rw [hall]
    exact if_pos (hwhole p (hb p rfl))

theorem quarters_setsOf (hne : s.issue ≠ []) : s.setsOf true (s.issue.filter fun t => !Tid.isScalar t) = [s.issue] := by
  have hthreads : s.issue.filter (fun t => !Tid.isScalar t) = s.issue :=
    List.filter_eq_self.mpr fun t ht => by simp [quarters_not_scalar h ht]
  rw [hthreads]
  obtain ⟨t, ts, hissue⟩ := List.exists_cons_of_ne_nil hne
  rw [hissue]
  have ht : t ∈ s.issue := hissue ▸ List.mem_cons_self
  refine setsOf_one (k := s.setKey t true) fun u hu => ?_
  rw [← hissue] at hu
  obtain ⟨x, hx, -⟩ := h.ready t ht
  obtain ⟨y, hy, -⟩ := h.ready u hu
  refine setKey_sameGroup ?_ hx hy (h.mode t ht u hu x y hx hy)
  obtain ⟨_, -, _, -, rfl⟩ := quarters_mem h ht
  obtain ⟨_, -, _, -, rfl⟩ := quarters_mem h hu
  exact ⟨rfl, rfl, rfl, rfl⟩

theorem quarters_enterAll (hne : s.issue ≠ []) : State.enterAll i s s.issue = (s, s.issue, []) := by
  have hcode : ∃ g, i.guard? = some g := by
    obtain ⟨t, ts, hissue⟩ := List.exists_cons_of_ne_nil hne
    obtain ⟨x, -, -, hp, -⟩ := h.ready t (hissue ▸ List.mem_cons_self)
    cases hg : i.guard? with
    | none => simp [performs, hg] at hp
    | some g => exact ⟨g, rfl⟩
  have hyes : lanesWhere s i true s.issue = s.issue := List.filter_eq_self.mpr fun t ht => by
    obtain ⟨x, hx, -, hp, -⟩ := h.ready t ht
    simp [hx, hp]
  have hno : lanesWhere s i false s.issue = [] := List.filter_eq_nil_iff.mpr fun t ht => by
    obtain ⟨x, hx, -, hp, -⟩ := h.ready t ht
    simp [hx, hp]
  rw [enterAll_ready hcode s.issue fun t ht => (h.ready t ht).imp fun x hx => ⟨hx.1, hx.2.1⟩, hyes, hno]

/-- An issue of whole quarters is one set of R346. -/
theorem quarters_run (hb : ∀ p, bq = some p → p ∈ qs) (hne : s.issue ≠ []) :
    s.runQuarters i bq causes act = .next (s.quarterSet bq causes act s.issue) := by
  have hscalars : s.issue.filter Tid.isScalar = [] := List.filter_eq_nil_iff.mpr fun t ht => by simp [quarters_not_scalar h ht]
  have hys : s.issue.filter s.issue.contains = s.issue := List.filter_eq_self.mpr fun t ht => by simpa using ht
  have hall : (s.issue.all fun t => s.issue.contains t || ([] : List Tid).contains t) = true :=
    List.all_eq_true.mpr fun t ht => by simp [ht]
  simp only [State.runQuarters, hscalars, quarters_setsOf h hne, List.map_cons, List.map_nil, quarters_quarterHold h hb hne, List.flatMap_cons,
    List.flatMap_nil, List.nil_append, List.append_nil, quarters_enterAll h hne, List.foldl_nil, List.foldl_cons, hys, hall, if_true]


/-- Nothing stands before the instruction's own checks in a whole quarter; the other quarters have none. -/
theorem quarters_cause (hb : ∀ p, bq = some p → p ∈ qs) (q : Nat) :
    s.quarterCause bq causes s.issue q = if q ∈ qs then causes s (quarterLanes c g k grp q) else none := by
  by_cases hq : q ∈ qs
  · have hnear (f : Tid → Bool) (hf : ∀ t x, s.thread? t = some x → f t = s.away x) : (quarterLanes c g k grp q).any f = false := by
      rw [List.any_eq_false]
      intro t ht
      obtain ⟨x, hx, -, -, -, haway⟩ := h.ready t (by rw [h.issue]; exact List.mem_flatMap.mpr ⟨q, hq, ht⟩)
      simp [hf t x hx, haway]
    simp only [State.quarterCause, quarters_inQuarter h, if_pos hq, quarterLanes_ne_nil, Bool.false_eq_true, if_false, quarterLanes_length, ne_eq,
      not_true_eq_false]
    rw [hnear _ fun t x hx => by simp only [hx]]
    cases bq with
    | none => rfl
    | some p => simp only [if_pos (hb p rfl), quarterLanes_length, if_true, Bool.false_eq_true, if_false]
  · simp only [State.quarterCause, quarters_inQuarter h, if_neg hq, List.isEmpty_nil, if_true]

/-- Without a cause each quarter acts, in ascending order (R346). -/
theorem quarters_act (hb : ∀ p, bq = some p → p ∈ qs) (hno : ∀ q ∈ qs, causes s (quarterLanes c g k grp q) = none) :
    s.quarterSet bq causes act s.issue =
      qs.foldl (fun s q => act s (quarterLanes c g k grp q) (quarterLanes c g k grp (bq.getD q))) s := by
  have hnone : (seqFrom 0 4).findSome? (s.quarterCause bq causes s.issue) = none := by
    rw [List.findSome?_eq_none_iff]
    intro q _
    rw [quarters_cause h hb]
    split
    · exact hno q ‹_›
    · rfl
  have hfour := filter_quarters (f := fun q => decide (q ∈ qs)) h.order.1 h.order.2 fun q => by simp
  simp only [State.quarterSet, hnone]
  conv_rhs => rw [← hfour, List.foldl_filter]
  refine List.foldl_ext _ _ s fun s' q _ => ?_
  simp only [quarters_inQuarter h]
  by_cases hq : q ∈ qs
  · have hsource : bq.getD q ∈ qs := by
      cases bq with
      | none => exact hq
      | some p => exact hb p rfl
    simp only [if_pos hsource, quarterLanes_ne_nil, hq, decide_true, if_true, Bool.false_eq_true, if_false]
  · simp only [List.isEmpty_nil, if_true, hq, decide_false, Bool.false_eq_true, if_false]

/-- The first cause of the lowest failing quarter is raised in every participant (R346). -/
theorem quarters_raise (hb : ∀ p, bq = some p → p ∈ qs) {q : Nat} {e : Cause} {x : DWord} (hq : q ∈ qs)
    (hc : causes s (quarterLanes c g k grp q) = some (e, x)) (hlow : ∀ p ∈ qs, p < q → causes s (quarterLanes c g k grp p) = none) :
    s.quarterSet bq causes act s.issue = s.issue.foldl (fun s t => s.raise t e x) s := by
  have hsome : (seqFrom 0 4).findSome? (s.quarterCause bq causes s.issue) = some (e, x) := by
    have hsplit : ∀ q < 4, seqFrom 0 4 = seqFrom 0 q ++ q :: seqFrom (q + 1) (3 - q) := by decide
    refine List.findSome?_eq_some_iff.mpr ⟨_, q, _, hsplit q (h.order.2 q hq), by rw [quarters_cause h hb, if_pos hq, hc], fun p hp => ?_⟩
    rw [quarters_cause h hb]
    split
    · exact hlow p ‹_› (by simpa using (mem_seqFrom.mp hp).2)
    · rfl
  simp only [State.quarterSet, hsome]

end Whole
end Set

section Single
variable {s : State} {i : Instr} {bq : Option Nat} {causes : State → List Tid → Option (Cause × DWord)} {act : State → List Tid → List Tid → State}
  {c g k grp l : Nat} {th : Thread}

/-- The quarter that a lane alone asks for is its own. -/
theorem asked_single (hl : l < 32) (hb : bq = none ∨ bq = some (l / 8)) :
    (seqFrom 0 4).filter (fun q => !(inQuarter q [Tid.thr c g k grp l]).isEmpty || bq == some q) = [l / 8] := by
  refine filter_quarters (List.pairwise_singleton _ _) (by simp; omega) fun q => ?_
  have hin : inQuarter q [Tid.thr c g k grp l] = if l / 8 = q then [Tid.thr c g k grp l] else [] := by
    simp [inQuarter, quarterOf, Tid.lane, List.filter_singleton]
  rw [hin]
  by_cases hq : l / 8 = q
  · subst hq
    simp
  · rcases hb with rfl | rfl <;> simp [hq, Ne.symm hq]

/-- Another lane of the lane's quarter has exited. -/
def State.quarterLost (s : State) (c g k grp l : Nat) : Bool :=
  (seqFrom (8 * (l / 8)) 8).any fun n => !(s.groupOf c g k grp).live.getLsbD n && n != l

theorem quarterLost_iff (s : State) (c g k grp l : Nat) :
    s.quarterLost c g k grp l = true ↔ ∃ n, n / 8 = l / 8 ∧ n ≠ l ∧ (!(s.groupOf c g k grp).live.getLsbD n) = true := by
  simp only [State.quarterLost, List.any_eq_true, mem_seqFrom, Bool.and_eq_true, bne_iff_ne]
  refine exists_congr fun n => ?_
  have hrange : 8 * (l / 8) ≤ n ∧ n < 8 * (l / 8) + 8 ↔ n / 8 = l / 8 := by omega
  rw [hrange, and_comm (a := _ = true)]

theorem exited_single (s : State) (c g k grp l : Nat) :
    s.exitedQuarter [l / 8] [Tid.thr c g k grp l] = if s.quarterLost c g k grp l = true then some (l / 8) else none := by
  have hlane (n : Nat) : (!([Tid.thr c g k grp l].any fun t => Tid.lane t == n)) = (n != l) := by simp [Tid.lane, bne, Bool.beq_comm (a := l)]
  simp only [State.exitedQuarter, groupKey, List.find?_singleton, hlane]
  rfl

theorem quarterHold_single (s : State) (c g k grp : Nat) (hl : l < 32) (hb : bq = none ∨ bq = some (l / 8)) :
    s.quarterHold bq [Tid.thr c g k grp l] = if s.quarterLost c g k grp l = true then ([Tid.thr c g k grp l], some (l / 8)) else ([], none) := by
  have hshort (q : Nat) : ((inQuarter q [Tid.thr c g k grp l]).length == 8) = false := by
    have := List.length_filter_le (fun t => quarterOf t == q) [Tid.thr c g k grp l]
    simp only [List.length_singleton] at this
    simp only [inQuarter, beq_eq_false_iff_ne]
    omega
  simp only [State.quarterHold, asked_single hl hb, exited_single, hshort]
  cases s.quarterLost c g k grp l with
  | true => rfl
  | false => rcases hb with rfl | rfl <;> rfl

section Issue
variable (h : Lone s i (.thr c g k grp l) th)
include h

theorem run_single (hl : l < 32) (hb : bq = none ∨ bq = some (l / 8)) (haway : s.away th = false) : s.runQuarters i bq causes act = .next (
    if s.quarterLost c g k grp l = true then s.raise (.thr c g k grp l) .matrixQuarter (BitVec.ofNat 64 (l / 8)) else s) := by
  have hset : s.setsOf true [Tid.thr c g k grp l] = [[Tid.thr c g k grp l]] :=
    setsOf_one (k := s.setKey (.thr c g k grp l) true) fun u hu => by rw [List.mem_singleton.mp hu]
  obtain ⟨gd, hgd, hholds⟩ := h.holds
  have hgo := enterOne_go h.thread h.clean hgd hholds
  have hthreads : s.issue.filter (fun t => !Tid.isScalar t) = [Tid.thr c g k grp l] := by rw [h.issue]; rfl
  have hscalars : s.issue.filter Tid.isScalar = [] := by rw [h.issue]; rfl
  simp only [State.runQuarters, hthreads, hscalars, hset, List.map_cons, List.map_nil, quarterHold_single s c g k grp hl hb]
  cases s.quarterLost c g k grp l with
  | true => simp [State.enterAll, hgo, h.thread, haway]
  | false => simp [State.enterAll, State.quarterSet, State.quarterCause, inQuarter, seqFrom]

end Issue

end Single

/-- Settles O41: an issue of whole quarters is one set of R346; a lone lane has its quarter's other lanes to wait for. -/
theorem quarterInstructions : Obligations.QuarterInstructions := by
  unfold Obligations.QuarterInstructions
  intro s i bq causes act hform
  rw [exec_quarterForm hform]
  refine ⟨fun qs lanes h hb => ?whole, fun c g k grp l th hl hb h haway => ?single⟩
  case whole =>
    obtain ⟨c, g, k, grp, rfl⟩ := quarters_lanes_eq h
    by_cases hne : s.issue = []
    · have hnone : qs = [] := by
        rw [h.issue, List.flatMap_eq_nil_iff] at hne
        exact List.eq_nil_iff_forall_not_mem.mpr fun q hq => List.cons_ne_nil _ _ (hne q hq)
      subst hnone
      refine ⟨fun _ => ?_, fun q e x hq => absurd hq (List.not_mem_nil)⟩
      simp [State.runQuarters, hne, State.setsOf, State.enterAll]
    · rw [quarters_run h hb hne]
      exact ⟨fun hno => by rw [quarters_act h hb hno], fun q e x hq hc hlow => by rw [quarters_raise h hb hq hc hlow]⟩
  case single =>
    rw [run_single h hl hb haway]
    refine ⟨fun hlive => congrArg _ (if_neg fun hlost => ?_), fun hgone => congrArg _ (if_pos ((quarterLost_iff s c g k grp l).mpr hgone))⟩
    obtain ⟨n, hn, hne, hgone⟩ := (quarterLost_iff s c g k grp l).mp hlost
    exact absurd (hgone.symm.trans (hlive n hn hne)) (by decide)

end Sys2Proof.Machine
end

section
/-! TALLOC and TFREE: the units of the accumulator store (R349, R358, R359). -/

namespace Sys2Proof.Machine

open Sys2Proof Sys2Proof.Safety

/-! ### One whole quarter -/

section Lanes
variable {s s1 s2 : State} {ts : List Tid} {f g : Thread → Thread}

/-- Two acts of the same lanes, one after the other. -/
theorem lanesDo_trans (h1 : LanesDo ts f s s1) (h2 : LanesDo ts g s1 s2) : LanesDo ts (fun x => g (f x)) s s2 where
  rest := h2.rest.trans (by rw [h1.rest])
  lane t ht th hth := h2.lane t ht _ (h1.lane t ht th hth)
  others u hu := (h2.others u hu).trans (h1.others u hu)

theorem lanesDo_congr (h : LanesDo ts f s s1) (he : ∀ t ∈ ts, ∀ th, s.thread? t = some th → f th = g th) : LanesDo ts g s s1 where
  rest := h.rest
  lane t ht th hth := (h.lane t ht th hth).trans (by rw [he t ht th hth])
  others := h.others

/-- Every lane of a list by one update of its own. -/
theorem foldl_modThread_lanes (hf : ∀ x, (f x).id = x.id) (hn : ts.Nodup) (he : ∀ t ∈ ts, ∃ th, s.thread? t = some th) :
    LanesDo ts f s (ts.foldl (fun s t => s.modThread t f) s) :=
  foldl_lanes ts s (fun _ _ _ _ _ _ => modThread_lane hf) hn he

end Lanes

section Quarter
variable {s : State} {i : Instr} {bq : Option Nat} {q : Nat} {lanes : Nat → List Tid} {causes : State → List Tid → Option (Cause × DWord)}
  {act : State → List Tid → List Tid → State}

/-- One whole quarter without a cause, its own B source if it has one, acts. -/
theorem exec_quarter (h : Quarters s i [q] lanes) (hb : bq = none ∨ bq = some q) (hform : quarterForm i = some (bq, causes, act))
    (hno : causes s (lanes q) = none) :
    exec i s = .next (act s (lanes q) (lanes q)) := by
  obtain ⟨c, g, k, grp, rfl⟩ := quarters_lanes_eq h
  have hne : s.issue ≠ [] := by
    rw [h.issue]
    exact List.cons_ne_nil _ _
  rw [exec_quarterForm hform, quarters_run h (by rcases hb with rfl | rfl <;> simp) hne,
    quarters_act h (by rcases hb with rfl | rfl <;> simp) (by simpa using hno)]
  rcases hb with rfl | rfl <;> rfl

section Whole
variable (h : Quarters s i [q] lanes)
include h

theorem quarter_issue : s.issue = lanes q := by rw [h.issue, List.flatMap_singleton]

theorem quarter_ready {t : Tid} (ht : t ∈ lanes q) : ∃ th, s.thread? t = some th ∧ Quiet th ∧ s.away th = false :=
  (h.ready t (quarter_issue h ▸ ht)).imp fun _ hx => ⟨hx.1, hx.2.2.2.1, hx.2.2.2.2⟩

theorem quarter_nodup : (lanes q).Nodup := by
  obtain ⟨c, g, k, grp, rfl⟩ := quarters_lanes_eq h
  exact List.Nodup.map (fun a b hab => by simpa using hab) List.nodup_range

theorem quarter_cons : ∃ t ts, lanes q = t :: ts := by
  obtain ⟨c, g, k, grp, rfl⟩ := quarters_lanes_eq h
  exact ⟨_, _, rfl⟩

end Whole
end Quarter

/-! ### The lowest run of free units (R358) -/

theorem firstFrom_none {p : Nat → Bool} {a n : Nat} (h : ∀ k, a ≤ k → k < a + n → p k = false) : firstFrom p a n = none := by
  induction n generalizing a with
  | zero => rfl
  | succ n ih => rw [firstFrom, h a (Nat.le_refl a) (by omega), if_neg Bool.false_ne_true, ih fun k h1 h2 => h k (by omega) (by omega)]

theorem firstFrom_some {p : Nat → Bool} {a n k : Nat} (h1 : a ≤ k) (h2 : k < a + n) (hk : p k = true) (hlow : ∀ j, a ≤ j → j < k → p j = false) :
    firstFrom p a n = some k := by
  induction n generalizing a with
  | zero => omega
  | succ n ih =>
    rw [firstFrom]
    by_cases ha : a = k
    · rw [ha, hk, if_pos rfl]
    · rw [hlow a (Nat.le_refl a) (by omega), if_neg Bool.false_ne_true]
      exact ih (by omega) (by omega) fun j hj => hlow j (by omega)

/-- `n` units from the even unit `u` are free on a core. -/
def Core.freeAt (k : Core) (n u : Nat) : Prop :=
  u % 2 = 0 ∧ u + n ≤ 16384 ∧ ∀ al ∈ k.allocs, (u + n ≤ al.unit ∨ al.unit + al.n ≤ u) ∧ ∀ v, al.shadow = some v → u + n ≤ v ∨ v + al.n ≤ u

theorem unitsFree_iff (k : Core) (n j : Nat) : k.unitsFree (2 * j) n = true ↔ k.freeAt n (2 * j) := by
  have hshadow (al : Alloc) (p : Nat → Bool) (P : Nat → Prop) (hp : ∀ v, p v = true ↔ P v) (m : Bool) (hm : m = (al.shadow.map p).getD true) :
      m = true ↔ ∀ v, al.shadow = some v → P v := by
    subst hm
    cases al.shadow <;> simp [hp]
  simp only [Core.unitsFree, Core.freeAt, Config.accUnits, Bool.and_eq_true, decide_eq_true_eq, List.all_eq_true, Bool.or_eq_true,
    Nat.mul_mod_right, true_and]
  refine and_congr decide_eq_true_iff <| forall_congr' fun al => forall_congr' fun _ => and_congr_right fun _ => ?_
  refine hshadow al (fun v => decide (2 * j + n ≤ v) || decide (v + al.n ≤ 2 * j)) _ (fun v => by simp) _ ?_
  cases al.shadow <;> rfl

theorem findUnits_none {k : Core} {n : Nat} (h : ∀ u, ¬ k.freeAt n u) : k.findUnits n = none := by
  have hno (j : Nat) : k.unitsFree (2 * j) n = false := Bool.eq_false_iff.mpr fun hj => h _ ((unitsFree_iff k n j).mp hj)
  rw [Core.findUnits, firstFrom_none fun j _ _ => hno j]
  rfl

theorem findUnits_some {k : Core} {n u : Nat} (hn : 1 ≤ n) (h : k.freeAt n u) (hlow : ∀ w, w < u → ¬ k.freeAt n w) : k.findUnits n = some u := by
  obtain ⟨j, rfl⟩ : ∃ j, u = 2 * j := ⟨u / 2, by have := h.1; omega⟩
  have hfits := h.2.1
  rw [Core.findUnits, firstFrom_some (k := j) (Nat.zero_le j) (by simp only [Config.accUnits]; omega) ((unitsFree_iff k n j).mpr h)
    fun i _ hi => Bool.eq_false_iff.mpr fun hf => hlow (2 * i) (by omega) ((unitsFree_iff k n i).mp hf)]
  rfl

/-! ### TALLOC -/

section Talloc
variable {s : State} {d : XReg} {e : PReg} {n u : Nat} {t : Tid} {th : Thread} {ts : List Tid}

/-- A thread that TALLOC has answered. -/
def Thread.answered (d : XReg) (e : PReg) (v : Word) (ok : Bool) (th : Thread) : Thread :=
  { th.advance with regs := (th.regs.set32 d v).setP e ok, shadow := th.shadow.map fun r => (r.set32 d v).setP e ok }

/-- TALLOC's answer in every lane. -/
def State.answerTiles (s : State) (d : XReg) (e : PReg) (v : Word) (ok : Bool) (ts : List Tid) : State :=
  ts.foldl (fun s t => s.compute (fun r => ((r.set32 d v).setP e ok, 0)) t) s

theorem answerTiles_lanes (hn : ts.Nodup) (he : ∀ t ∈ ts, ∃ th, s.thread? t = some th) (v : Word) (ok : Bool) :
    LanesDo ts (Thread.answered d e v ok) s (s.answerTiles d e v ok ts) := by
  refine foldl_lanes ts s (fun s1 t th _ _ ht => ?_) hn he
  rw [compute_eq ht]
  refine ⟨rfl, fun u hu x hx => ?_, fun u hu => thread?_modThread_other (fun _ => rfl) (by simpa using hu)⟩
  obtain rfl := List.mem_singleton.mp hu
  obtain rfl : th = x := Option.some.inj (ht.symm.trans hx)
  exact thread?_modThread_self ht (show th.id = u from thread?_id ht)

section First
variable (ht : s.thread? t = some th)
include ht

theorem allocQuarter_none (hf : (s.core th.home).findUnits n = none) (bs : List Tid) :
    State.allocQuarter d e n s (t :: ts) bs = s.answerTiles d e 0xFFFFFFFF false (t :: ts) := by
  simp only [State.allocQuarter, ht, Core.newAlloc, hf]
  rfl

/-- A thread that holds the units from `u`, in its innermost region too. -/
def Thread.holding (u : Nat) (th : Thread) : Thread :=
  { th with tile := some u, regions := match th.regions with
      | r :: rs => { r with allocs := u :: r.allocs } :: rs
      | [] => [] }

/-- The core with the units from `u` allocated. -/
def State.allocated (s : State) (core u n : Nat) (ts : List Tid) : State :=
  s.modCore core fun c => { c with allocs := c.allocs ++ [{ unit := u, n, holders := ts, shadow := none }] }

theorem allocQuarter_some (hsh : th.shadow = none) (hf : (s.core th.home).findUnits n = some u) (bs : List Tid) :
    State.allocQuarter d e n s (t :: ts) bs =
      ((t :: ts).foldl (fun s t => s.modThread t (Thread.holding u)) (s.allocated th.home u n (t :: ts))).answerTiles d e (BitVec.ofNat 32 u) true (t :: ts) := by
  simp only [State.allocQuarter, ht, Core.newAlloc, hf, hsh, Option.isSome_none, Bool.false_eq_true, if_false]
  rfl

end First
end Talloc

/-! ### TFREE -/

section Tfree
variable {s : State} {t : Tid} {th : Thread} {al : Alloc}

theorem allocOf_only {k : Core} (ha : k.allocs = [al]) (hm : t ∈ al.holders) : k.allocOf t = some al := by
  simp [Core.allocOf, ha, hm]

/-- The core after a holder's drop. -/
def Core.withoutHold (t : Tid) (c : Core) : Core :=
  match c.allocOf t with
  | none => c
  | some a =>
    let hs := a.holders.filter (· != t)
    if hs.isEmpty then c.freeAlloc a
    else { c with allocs := c.allocs.map fun x => if x.unit = a.unit then { x with holders := hs } else x }

theorem modThread_modCore (s : State) (t : Tid) (f : Thread → Thread) (c : Nat) (k : Core → Core) :
    (s.modThread t f).modCore c k = (s.modCore c k).modThread t f := by
  unfold State.modCore State.modThread
  by_cases hc : (s.cores.any fun x => x.id == c) = true
  · rw [if_pos hc, if_pos hc]
  · rw [if_neg hc, if_neg hc]

theorem dropTile_eq (ht : s.thread? t = some th) (htile : th.tile ≠ none) :
    s.dropTile t = (s.modCore th.home (Core.withoutHold t)).modThread t fun th => { th with tile := none } := by
  rw [← modThread_modCore]
  obtain ⟨u, hu⟩ := Option.ne_none_iff_exists'.mp htile
  simp only [State.dropTile, ht, hu, Option.isNone_some, Bool.false_eq_true, if_false]
  rfl

theorem tfree_lanes (ht : s.thread? t = some th) (htile : th.tile ≠ none) :
    LanesDo [t] (fun x => { x.advance with tile := none }) (s.modCore th.home (Core.withoutHold t)) ((s.dropTile t).advance t) := by
  rw [dropTile_eq ht htile, State.advance, modThread_modThread _ _ _ _ (by intro; rfl)]
  exact modThread_lane fun _ => rfl

theorem withoutHold_id (t : Tid) (k : Core) : (k.withoutHold t).id = k.id := by
  unfold Core.withoutHold
  split
  · rfl
  · dsimp only
    split <;> rfl

theorem withoutHold_shared {k : Core} (ha : k.allocs = [al]) (hm : t ∈ al.holders) {u : Tid} (hu : u ∈ al.holders) (hne : u ≠ t) :
    k.withoutHold t = { k with allocs := [{ al with holders := al.holders.filter (· != t) }] } := by
  have hsome : (al.holders.filter (· != t)).isEmpty = false := by
    rw [List.isEmpty_eq_false_iff_exists_mem]
    exact ⟨u, List.mem_filter.mpr ⟨hu, by simpa using hne⟩⟩
  simp [Core.withoutHold, allocOf_only ha hm, hsome, ha]

theorem withoutHold_last {k : Core} (ha : k.allocs = [al]) (hm : t ∈ al.holders) (hall : ∀ u ∈ al.holders, u = t) :
    k.withoutHold t = k.freeAlloc al := by
  have hnone : al.holders.filter (· != t) = [] := List.filter_eq_nil_iff.mpr fun u hu => by simp [hall u hu]
  simp [Core.withoutHold, allocOf_only ha hm, hnone]

theorem freeAlloc_rest {k : Core} (ha : k.allocs = [al]) :
    k.freeAlloc al = { k with allocs := [], acc := (k.freeAlloc al).acc, accBad := (k.freeAlloc al).accBad } := by
  simp [Core.freeAlloc, ha]

theorem freeAlloc_acc {k : Core} (w : k.acc.wf = true) (x : Nat) : (k.freeAlloc al).acc.get x =
    if 512 * al.unit ≤ x ∧ x < 512 * (al.unit + al.n) ∨ (∃ v, al.shadow = some v ∧ 512 * v ≤ x ∧ x < 512 * (v + al.n)) then 0 else k.acc.get x := by
  have hown : (k.acc.clear (512 * al.unit) (512 * al.n)).get x = _ := get_clear w _ _ x
  cases hs : al.shadow with
  | none =>
    simp only [Core.freeAlloc, hs, hown]
    simp [Nat.mul_add]
  | some v =>
    simp only [Core.freeAlloc, hs, get_clear (clear_wf w _ _), hown]
    simp only [Option.some.injEq, exists_eq_left', Nat.mul_add]
    by_cases h1 : 512 * v ≤ x ∧ x < 512 * v + 512 * al.n
    · simp [h1]
    · simp [h1]

end Tfree

/-- Settles O42: TALLOC's quarter takes the lowest free run; TFREE's effect drops a hold, the last one clearing the units. -/
theorem tilesAllocatedAndFreed : Obligations.TilesAllocatedAndFreed := by
  refine ⟨?talloc, ?tfree⟩
  case talloc =>
    intro s g d e n q core lanes i ts free answers h hn hth
    obtain ⟨t, rest, hts⟩ := quarter_cons h
    have he (u : Tid) (hu : u ∈ ts) : ∃ th, s.thread? u = some th := (quarter_ready h hu).imp fun _ hx => hx.1
    have hmem : t ∈ ts := by
      rw [show ts = t :: rest from hts]
      exact List.mem_cons_self
    obtain ⟨th, ht, hq, -⟩ := quarter_ready h hmem
    obtain ⟨hhome, hshadow, -⟩ := hth t hmem th ht
    have hno : s.allocCause ts = none := by
      rw [State.allocCause, if_neg]
      intro hany
      obtain ⟨u, hu, hsome⟩ := List.any_eq_true.mp hany
      obtain ⟨x, hx⟩ := he u hu
      simp [hx, (hth u hu x hx).2.2] at hsome
    have hexec := exec_quarter h (.inl rfl) rfl hno
    refine ⟨fun hnone => ⟨_, hexec, ?_⟩, fun u hu hlow => ⟨s.allocated core u n.toNat ts, ⟨_, hexec, ?_⟩, modCore_rest s _ _,
      fun c hc => core_modCore_other s core c _ (fun _ => rfl) hc, core_modCore_self s core _ fun _ => rfl⟩⟩
    · have hf : (s.core th.home).findUnits n.toNat = none := findUnits_none fun u => hhome ▸ hnone u
      have hact : State.allocQuarter d e n.toNat s ts ts = s.answerTiles d e 0xFFFFFFFF false ts := by
        rw [show ts = t :: rest from hts]
        exact allocQuarter_none ht hf _
      rw [hact]
      exact lanesDo_congr (answerTiles_lanes (quarter_nodup h) he _ _) fun v hv x hx => by
        simp only [Thread.answered, ← (hth v hv x hx).2.2]
        rfl
    · have hf : (s.core th.home).findUnits n.toNat = some u := findUnits_some hn (hhome ▸ hu) fun w hw => hhome ▸ hlow w hw
      have hact : State.allocQuarter d e n.toNat s ts ts =
          (ts.foldl (fun s t => s.modThread t (Thread.holding u)) (s.allocated core u n.toNat ts)).answerTiles d e (BitVec.ofNat 32 u) true ts := by
        rw [show ts = t :: rest from hts, ← hhome]
        exact allocQuarter_some ht hshadow hf _
      have hthread (v : Tid) : (s.allocated core u n.toNat ts).thread? v = s.thread? v := by
        rw [State.allocated, modCore_rest]
        rfl
      have hhold := foldl_modThread_lanes (s := s.allocated core u n.toNat ts) (f := Thread.holding u) (fun _ => rfl) (quarter_nodup h)
        fun v hv => hthread v ▸ he v hv
      rw [hact]
      refine lanesDo_congr (lanesDo_trans hhold (answerTiles_lanes (quarter_nodup h) (fun v hv => ?_) _ _)) fun v hv x hx => ?_
      · obtain ⟨x, hx⟩ := he v hv
        exact ⟨_, hhold.lane v hv x ((hthread v).trans hx)⟩
      · obtain ⟨y, hy, hqy, -⟩ := quarter_ready h hv
        obtain rfl : y = x := Option.some.inj (hy.symm.trans ((hthread v).symm.trans hx))
        simp only [Thread.answered, Thread.holding, Thread.advance, hqy.regions]
  case tfree =>
    intro s t th g h q
    refine ⟨fun haway => ?_, fun haway htile => ?_, fun haway htile al ha hm w => ?_⟩
    · exact (run_lone h _).trans (by simp only [h.thread, haway, if_true])
    · exact (run_lone h _).trans (by simp [h.thread, haway, htile])
    · have hself := core_modCore_self s th.home (Core.withoutHold t) (withoutHold_id t)
      refine ⟨s.modCore th.home (Core.withoutHold t), (s.dropTile t).advance t, (run_lone h _).trans ?_, tfree_lanes h.thread htile,
        modCore_rest s _ _, fun c hc => core_modCore_other s _ c _ (withoutHold_id t) hc, fun ⟨u, hu, hne⟩ => ?_, fun hall => ⟨?_, fun x => ?_⟩⟩
      · obtain ⟨u, hu⟩ := Option.ne_none_iff_exists'.mp htile
        simp only [h.thread, haway, hu, Option.isNone_some, Bool.false_eq_true, if_false]
        exact congrArg _ (emitThen_done h.thread q (e := .tfree) rfl _)
      · rw [hself, withoutHold_shared ha hm hu hne]
      · rw [hself, withoutHold_last ha hm hall]
        exact freeAlloc_rest ha
      · rw [hself, withoutHold_last ha hm hall]
        exact freeAlloc_acc w x

end Sys2Proof.Machine
end

section
/-! The tile moves: what a quarter reads and writes in the accumulator store and in its team's scratchpad (R348, R360 to R363). -/

namespace Sys2Proof.Machine

open Sys2Proof Sys2Proof.Safety

/-! ### Elements of a byte string -/

theorem isFmt32_eq (f : IFmt) : isFmt32 f = decide (f = .f32) := by cases f <;> rfl

theorem elemBytes_eq (f : IFmt) : elemBytes f = if f = .f32 then 4 else 2 := by cases f <;> rfl

theorem fmtUnits_eq (f : IFmt) : fmtUnits f = if f = .f32 then 2 else 1 := by cases f <;> rfl

theorem tileBytes_eq (f : IFmt) : tileBytes f = 512 * fmtUnits f := by cases f <;> rfl

theorem elemBytes_tile (f : IFmt) : elemBytes f * 256 = 512 * fmtUnits f := by cases f <;> rfl

/-- `count` elements of `n` bytes. -/
def fields (n count : Nat) (bs : List Byte) : List Nat := (List.range count).map fun j => fieldAt bs (n * j) n

/-- Bytes cut into elements, and the bytes again. -/
theorem elemsBytes_fields {n count : Nat} {bs : List Byte} (h : bs.length = n * count) : elemsBytes n (fields n count bs) = bs := by
  induction count generalizing bs with
  | zero => exact (List.length_eq_zero_iff.mp h).symm
  | succ count ih =>
    have hlen : (bs.take n).length = n := by
      rw [List.length_take, h, Nat.mul_succ]
      omega
    have hfirst : bytesOfNat n (fieldAt bs (n * 0) n) = bs.take n := by
      rw [Nat.mul_zero, fieldAt, List.drop_zero]
      exact (congrArg (bytesOfNat · _) hlen.symm).trans (bytes_natOfBytes (bs.take n))
    have hrest : fields n count (bs.drop n) = (List.range count).map fun j => fieldAt bs (n * (j + 1)) n := by
      refine List.map_congr_left fun j _ => ?_
      rw [fieldAt, List.drop_drop, fieldAt, Nat.mul_succ, Nat.add_comm]
    calc elemsBytes n (fields n (count + 1) bs)
        = bytesOfNat n (fieldAt bs (n * 0) n) ++ elemsBytes n (fields n count (bs.drop n)) := by
          rw [hrest]
          simp only [fields, elemsBytes, List.range_succ_eq_map, List.map_cons, List.map_map, List.flatMap_cons]
          rfl
      _ = bs := by
          rw [ih (by rw [List.length_drop, h, Nat.mul_succ, Nat.add_sub_cancel]), hfirst, List.take_append_drop]

/-! ### The accumulator store -/

section Store
variable {s : State} {core : Nat}

theorem accElems_sound (hbad : (s.core core).accBad = []) (addr n count unit cols : Nat) :
    s.accElems core addr n count unit cols = (fields n count ((s.core core).acc.read addr (n * count)), []) := by
  simp only [State.accElems, hbad, List.isEmpty_nil, if_true, List.map_nil, List.contains_nil, Bool.false_eq_true, if_false, seqFrom_map,
    List.map_map, Prod.mk.injEq, and_true]
  exact List.map_congr_left fun j _ => by simp [Nat.mul_comm]

theorem tileElems_sound (hbad : (s.core core).accBad = []) (h : Nat) (f : IFmt) :
    s.tileElems core h f = (fields (elemBytes f) 256 ((s.core core).acc.read (512 * h) (512 * fmtUnits f)), []) := by
  rw [State.tileElems, accElems_sound hbad, elemBytes_tile]

/-- Units read as 16-bit tiles are their bytes. -/
theorem unitsRead_sound (hbad : (s.core core).accBad = []) (h n : Nat) :
    s.unitsRead core h n = ((s.core core).acc.read (512 * h) (512 * n), []) := by
  induction n generalizing h with
  | zero => rfl
  | succ n ih =>
    have hunit : elemsBytes 2 (fields 2 256 ((s.core core).acc.read (512 * h) 512)) = (s.core core).acc.read (512 * h) 512 :=
      elemsBytes_fields (read_length _ _ _)
    simp only [State.unitsRead, tileElems_sound hbad, ih]
    exact Prod.ext ((congrArg (· ++ _) hunit).trans (by rw [Nat.mul_succ, Nat.mul_succ, Nat.add_comm (512 * n), read_append])) rfl

theorem tileSig_sound (hbad : (s.core core).accBad = []) (h : Nat) (f : IFmt) :
    s.tileSig core h f = (crc32c ((s.core core).acc.read (512 * h) (512 * fmtUnits f)), []) := by
  simp only [State.tileSig, tileElems_sound hbad]
  rw [elemsBytes_fields]
  rw [read_length, elemBytes_tile]

/-- Bytes for a tile and for its shadow copy. -/
def State.tileFill (s : State) (core : Nat) (al : Alloc) (h : Nat) (data twin : List Byte) : State :=
  ((al.twin h).elim s fun v => s.accWrite core (512 * v) twin).accWrite core (512 * h) data

theorem accWrite_rest (s : State) (core a : Nat) (data : List Byte) :
    s.accWrite core a data = { s with cores := (s.accWrite core a data).cores } := modCore_rest s core _

theorem accWrite_core (s : State) (core a : Nat) (data : List Byte) :
    (s.accWrite core a data).core core = { s.core core with
      acc := (s.core core).acc.write a data
      accBad := (s.core core).accBad.filter fun b => !(decide (a ≤ b) && decide (b < a + data.length)) } :=
  core_modCore_self s core _ fun _ => rfl

theorem accWrite_core_other (s : State) {core c : Nat} (h : c ≠ core) (a : Nat) (data : List Byte) :
    (s.accWrite core a data).core c = s.core c := core_modCore_other s core c _ (fun _ => rfl) h

/-- A tile and its shadow copy are written, and nothing else. -/
theorem tileFill_written (w : (s.core core).acc.wf = true) (al : Alloc) (h : Nat) (data twin : List Byte) :
    TileWritten core al h data twin s (s.tileFill core al h data twin) := by
  unfold TileWritten State.tileFill Alloc.twin
  cases hs : al.shadow with
  | none =>
    simp only [Option.map_none, Option.elim_none]
    refine ⟨accWrite_rest s _ _ _, fun c => ?_, fun c hc => accWrite_core_other s hc _ _, fun x hx => ?_, by simp, fun x hx _ => ?_, fun b => ?_⟩
    · by_cases hc : c = core
      · rw [hc, accWrite_core]
      · rw [accWrite_core_other s hc]
    · rw [accWrite_core, get_write w, if_pos hx]
    · rw [accWrite_core, get_write w, if_neg hx]
    · rw [accWrite_core]
      simp only [List.mem_filter, Bool.not_eq_true', Bool.and_eq_false_iff, decide_eq_false_iff_not, reduceCtorEq, false_and, exists_false,
        not_false_eq_true, and_true, not_and_or]
  | some v =>
    simp only [Option.map_some, Option.elim_some]
    have hcore : ((s.accWrite core (512 * (v + (h - al.unit))) twin).accWrite core (512 * h) data).core core = _ :=
      (accWrite_core _ _ _ _).trans (by rw [accWrite_core])
    have hother (c : Nat) (hc : c ≠ core) : ((s.accWrite core (512 * (v + (h - al.unit))) twin).accWrite core (512 * h) data).core c = s.core c :=
      (accWrite_core_other _ hc _ _).trans (accWrite_core_other s hc _ _)
    refine ⟨by rw [accWrite_rest, accWrite_rest s], fun c => ?_, hother, fun x hx => ?_, fun u x hu hx hcopy => ?_, fun x hx hno => ?_, fun b => ?_⟩
    · by_cases hc : c = core
      · rw [hc, hcore]
      · rw [hother c hc]
    · rw [hcore, get_write (write_wf w _ _), if_pos hx]
    · obtain rfl : v = u := Option.some.inj hu
      obtain ⟨z, hz, hcopy⟩ := hcopy
      obtain rfl : v = z := Option.some.inj hz
      rw [hcore, get_write (write_wf w _ _), if_neg hx, get_write w, if_pos hcopy]
    · rw [hcore, get_write (write_wf w _ _), if_neg hx, get_write w, if_neg fun hc => hno ⟨v, rfl, hc⟩]
    · rw [hcore]
      simp only [List.mem_filter, Bool.not_eq_true', Bool.and_eq_false_iff, decide_eq_false_iff_not, Option.some.injEq, exists_eq_left']
      constructor
      · rintro ⟨⟨hb, h1⟩, h2⟩
        exact ⟨hb, by omega, by omega⟩
      · rintro ⟨hb, h1, h2⟩
        exact ⟨⟨hb, by omega⟩, by omega⟩

end Store

/-! ### The operation of a quarter -/

theorem quarterOps_begins {s : State} {ts : List Tid} (hn : ts.Nodup) (he : ∀ t ∈ ts, ∃ th, s.thread? t = some th) (fs : Bool) (bound : Nat)
    (d : XReg) (ws vs : Nat → List Word) (x : Fpx) {xs ys : Tid → List (Nat × Word)}
    (hx : ∀ t ∈ ts, xs t = (seqFrom d.toNat (ws (Tid.lane t % 8)).length).zip (ws (Tid.lane t % 8)))
    (hy : ∀ t ∈ ts, ys t = (seqFrom d.toNat (vs (Tid.lane t % 8)).length).zip (vs (Tid.lane t % 8))) :
    QuarterBegins ts fs bound d ws vs x s (s.quarterOpsWith ts fs bound xs ys x) := by
  refine foldl_lanes ts { s with nextSeq := s.nextSeq + 1 } (fun s1 t th ht _ _ => ?_) hn he
  rw [State.quarterOp, hx t ht, hy t ht]
  refine lanesDo_congr (modThread_lane fun _ => rfl) fun u hu y hy => ?_
  obtain rfl := List.mem_singleton.mp hu
  have hid : y.lane = Tid.lane u := congrArg Tid.lane (thread?_id hy)
  simp only [hid]

theorem quarterOps_silent {s s1 : State} {ts : List Tid} (hrest : s1 = { s with cores := s1.cores }) (hn : ts.Nodup)
    (he : ∀ t ∈ ts, ∃ th, s.thread? t = some th) (fs : Bool) (bound : Nat) (d : XReg) (x : Fpx) :
    QuarterBegins ts fs bound d (fun _ => []) (fun _ => []) x s1 (s1.quarterOps ts fs bound x) :=
  quarterOps_begins hn (fun t ht => by rw [hrest]; exact he t ht) fs bound d _ _ x (fun _ _ => rfl) fun _ _ => rfl

/-! ### A quiet quarter -/

section Quiet
variable {s : State} {ts : List Tid} {al : Alloc} {core h n : Nat} {even : Bool} {d : XReg}

theorem tileCause_ok (hold : HoldsTile s ts al h n even d) : s.tileCause ts (s.handleOf ts false d) n even = none := by
  obtain ⟨halloc, hh, hsmall, hlow, hhigh, heven⟩ := hold
  have hzero : bitsOf h 14 18 = 0 := by rw [bitsOf, Nat.div_eq_of_lt hsmall, Nat.zero_mod]
  have hodd : ¬ (even = true ∧ h % 2 = 1) := fun ⟨h1, h2⟩ => by have := heven h1; omega
  simp only [State.tileCause, halloc, hh, hzero]
  exact if_neg (by simp only [ne_eq, not_true_eq_false, hodd, false_or]; omega)

/-- Some lane has a failing compare to come. -/
def State.armed (s : State) (ts : List Tid) : Bool :=
  ts.any fun t => match s.thread? t with
    | some th => th.shadow.isSome && th.inject == some 0
    | none => false

/-- Every lane compares; those that agree. -/
def State.compareAll (s : State) (ts : List Tid) (same : Bool) (loc : DWord) : State × List Tid :=
  s.keepIf (fun s t => ((s.mismatch t same loc).1, !(s.mismatch t same loc).2)) ts

section Lanes
variable (hq : ∀ u ∈ ts, ∃ th, s.thread? u = some th ∧ Quiet th)
include hq

theorem saveUnits_quiet : s.saveUnits core h n al ts = (s, true) := by
  induction ts with
  | nil => rfl
  | cons t ts ih =>
    obtain ⟨th, ht, q⟩ := hq t List.mem_cons_self
    simp only [State.saveUnits, ht, q.regions]
    exact ih fun u hu => hq u (List.mem_cons_of_mem _ hu)

theorem withUndo_quiet (k : State → State) : s.withUndo core h n al ts k = k s := by
  rw [State.withUndo, saveUnits_quiet hq]

theorem armed_quiet : s.armed ts = false := by
  refine List.any_eq_false.mpr fun u hu => ?_
  obtain ⟨th, ht, q⟩ := hq u hu
  have := q.inject
  simp [ht, this]

theorem compareAll_quiet (loc : DWord) : s.compareAll ts true loc = (s, ts) :=
  keepIf_all _ _ fun u hu => by
    obtain ⟨x, hx, qx⟩ := hq u hu
    simp [mismatch_quiet hx qx]

end Lanes

/-- The quiet lanes `ts`, the lowest of them `t`. -/
structure QuietLanes (s : State) (ts : List Tid) (t : Tid) (th : Thread) : Prop where
  head : ∃ rest, ts = t :: rest
  nodup : ts.Nodup
  quiet : ∀ u ∈ ts, ∃ x, s.thread? u = some x ∧ Quiet x
  thread : s.thread? t = some th

/-- Quiet lanes whose lowest names, with nothing to wait for, the offset `off` of its team's scratchpad. -/
structure AtImage (s : State) (t : Tid) (m : MemOp) (base size : Nat) (off : Int) : Prop where
  calm : Calm s t
  scratch : s.scratchOf t = some (base, size)
  offset : scratchOff (s.regsOf false t) m = off

variable {t : Tid} {th : Thread} {m : MemOp} {base size bytes : Nat} {off : Int}

theorem quietLanes_of_quarter {i : Instr} {q : Nat} {lanes : Nat → List Tid} (hQ : Quarters s i [q] lanes) :
    ∃ t th, QuietLanes s (lanes q) t th ∧ t ∈ lanes q := by
  obtain ⟨t, rest, hts⟩ := quarter_cons hQ
  have hmem : t ∈ lanes q := by
    rw [hts]
    exact List.mem_cons_self
  obtain ⟨th, ht, -⟩ := quarter_ready hQ hmem
  exact ⟨t, th, ⟨⟨rest, hts⟩, quarter_nodup hQ, fun u hu => (quarter_ready hQ hu).imp fun x hx => ⟨hx.1, hx.2.1⟩, ht⟩, hmem⟩

section Lanes
variable (l : QuietLanes s ts t th)
include l

theorem quietLanes_self : Quiet th := by
  obtain ⟨rest, rfl⟩ := l.head
  obtain ⟨x, hx, q⟩ := l.quiet t List.mem_cons_self
  exact Option.some.inj (hx.symm.trans l.thread) ▸ q

theorem quietLanes_threads : ∀ u ∈ ts, ∃ x, s.thread? u = some x := fun u hu => (l.quiet u hu).imp fun _ hx => hx.1

/-- Outside regions a quarter's tile and its shadow copy are filled. -/
theorem fillUnits_quiet (halloc : s.quarterAlloc ts = some al) (data : List Byte) (k : State → State) :
    s.fillUnits ts h n data k = k (s.tileFill th.core al h data data) := by
  obtain ⟨rest, rfl⟩ := l.head
  simp only [State.fillUnits, halloc, withUndo_quiet l.quiet, State.tileFill, coreOf_thread l.thread]
  cases al.twin h <;> rfl

theorem storeQuarter_eq (data : List Byte) (same : Bool) (k : State → State) : s.storeQuarter ts m data same k =
    let r := s.compareAll ts (same && scratchOff (s.regsOf true t) m == (s.imageAt t m).2 && !s.armed ts) (scrLoc (s.imageAt t m).2)
    if r.2.length ≠ ts.length then r.1 else r.1.emitThen t (.scratch (s.imageAt t m).1 data) k := by
  obtain ⟨rest, rfl⟩ := l.head
  rfl

section Image
variable (a : AtImage s t m base size off)
include a

/-- The checks of an image pass. -/
theorem imageCause_ok (hal : off % 64 = 0) (h0 : 0 ≤ off) (hfit : off + bytes ≤ size) : s.imageCause ts m bytes = none := by
  obtain ⟨rest, rfl⟩ := l.head
  have hin : ¬ (off < 0 ∨ (size : Int) < off + bytes) := by omega
  simp only [State.imageCause, a.offset, hal, a.scratch, hin, ne_eq, not_true_eq_false, if_false]

theorem moveCause_ok (hold : HoldsTile s ts al h n even d) (hal : off % 64 = 0) (h0 : 0 ≤ off) (hfit : off + bytes ≤ size) :
    s.moveCause ts d m n even bytes = none := by
  rw [State.moveCause, tileCause_ok hold]
  exact imageCause_ok l a hal h0 hfit

omit l in
theorem imageAt_eq : s.imageAt t m = (base + off.toNat, off) := by
  simp only [State.imageAt, a.scratch, a.offset, Option.map_some, Option.getD_some]

/-- Calmly, and with nothing uncorrectable, an image's bytes are read. -/
theorem imageLoad_calm (hbad : (s.core th.core).scrBad = []) :
    s.imageLoad t m bytes = (s, some ((s.core th.core).scr.read (base + off.toNat) bytes, false)) := by
  have q := quietLanes_self l
  have hrecall (ls : List Nat) : ls.foldl (fun (q : State × Bool) l =>
      let (s, b) := q.1.recall th.core .scr l
      (s, q.2 && b)) (s, true) = (s, true) := by
    induction ls with
    | nil => rfl
    | cons x xs ih => simpa [recall_none a.calm.commands] using ih
  simp [State.imageLoad, l.thread, imageAt_eq a, State.heldByLog, a.calm.log, hrecall, regionRead_quiet l.thread q, viewScr_quiet q,
    scrRead_sound (s := s) (core := th.core) (a := base + off.toNat) (n := bytes) (by simp [hbad])]

/-- Calmly, a quarter's image goes into its tile. -/
theorem loadQuarter_calm (hbad : (s.core th.core).scrBad = []) (hold : HoldsTile s ts al h n even d) (fs : Bool) (bound : Nat) (bs : List Tid) :
    let data := (s.core th.core).scr.read (base + off.toNat) (512 * n)
    State.loadQuarter fs bound d m n s ts bs = (s.tileFill th.core al h data data).quarterOps ts fs bound 0 := by
  obtain ⟨halloc, hh, -⟩ := hold
  obtain ⟨rest, rfl⟩ := l.head
  simp only [State.loadQuarter, imageLoad_calm l a hbad, Bool.false_eq_true, if_false, fillUnits_quiet l halloc, hh]

/-- Calmly, a quarter's store goes to the scratchpad. -/
theorem storeQuarter_calm (data : List Byte) (k : State → State) :
    s.storeQuarter ts m data true k = k (s.scrWrite th.core (base + off.toNat) data) := by
  have q := quietLanes_self l
  have hshadow : scratchOff (s.regsOf true t) m = off := by rw [← a.offset, regsOf_quiet l.thread q, regsOf_quiet l.thread q]
  rw [storeQuarter_eq l, imageAt_eq a, hshadow, armed_quiet l.quiet, beq_self_eq_true, Bool.and_self, Bool.not_false, Bool.and_self,
    compareAll_quiet l.quiet]
  simp only [ne_eq, not_true_eq_false, if_false, emitThen_done l.thread q (prepare_scratch a.calm _ _), State.perform, coreOf_thread l.thread]

end Image

/-- What FRAGS writes in a lane. -/
def fragWrites (d : XReg) (res : IFmt) (vs : List Nat) (t : Tid) : List (Nat × Word) :=
  (seqFrom d.toNat (fragRegs res vs (Tid.lane t % 8)).length).zip (fragRegs res vs (Tid.lane t % 8))

/-- The codes of a tile's elements. -/
def State.tileCodes (s : State) (core h : Nat) (f : IFmt) : List Nat :=
  fields (elemBytes f) 256 ((s.core core).acc.read (512 * h) (512 * fmtUnits f))

section Sound
variable (hold : HoldsTile s ts al h n even d) (htwin : al.shadow = none) (hacc : (s.core th.core).accBad = [])
include hold htwin hacc

theorem tstQuarter_eq (fs : Bool) (img : ImgFmt) (f : IFmt) (bs : List Tid) :
    let out := (s.tileCodes th.core h f).map (imgElem img f)
    State.tstQuarter fs img f d m s ts bs =
      s.storeQuarter ts m (elemsBytes (imgBytes img f) (out.map (·.1))) true fun s => s.quarterOps ts fs 48 (out.foldl (fun x o => x ||| o.2) 0) := by
  obtain ⟨halloc, hh, -⟩ := hold
  obtain ⟨rest, rfl⟩ := l.head
  simp only [State.tstQuarter, halloc, hh, coreOf_thread l.thread, Alloc.twin, htwin, Option.map_none, tileElems_sound hacc]
  rfl

theorem spillQuarter_eq (fs : Bool) (bs : List Tid) : State.spillQuarter fs d m n s ts bs =
    s.storeQuarter ts m ((s.core th.core).acc.read (512 * h) (512 * n)) true fun s => s.quarterOps ts fs 192 0 := by
  obtain ⟨halloc, hh, -⟩ := hold
  obtain ⟨rest, rfl⟩ := l.head
  simp only [State.spillQuarter, halloc, hh, coreOf_thread l.thread, Alloc.twin, htwin, Option.map_none, unitsRead_sound hacc]
  rfl

theorem fragsQuarter_eq (fs : Bool) (res f : IFmt) (a : XReg) (bs : List Tid) :
    let out := (s.tileCodes th.core h f).map (fragElem res f)
    State.fragsQuarter fs res f a d s ts bs =
      s.quarterOpsWith ts fs 32 (fragWrites a res (out.map (·.1))) (fragWrites a res []) (out.foldl (fun x o => x ||| o.2) 0) := by
  obtain ⟨halloc, hh, -⟩ := hold
  obtain ⟨rest, rfl⟩ := l.head
  simp only [State.fragsQuarter, halloc, hh, coreOf_thread l.thread, Alloc.twin, htwin, Option.map_none, tileElems_sound hacc]
  rfl

theorem tsigQuarter_eq (fs : Bool) (f : IFmt) (a : XReg) (bs : List Tid) :
    let sig := crc32c ((s.core th.core).acc.read (512 * h) (512 * fmtUnits f))
    State.tsigQuarter fs f a d s ts bs = s.quarterOpsWith ts fs 64 (fun _ => [(a.toNat, sig)]) (fun _ => [(a.toNat, sig)]) 0 := by
  intro sig
  obtain ⟨halloc, hh, -⟩ := hold
  obtain ⟨rest, rfl⟩ := l.head
  simp only [State.tsigQuarter, halloc, hh, coreOf_thread l.thread, Alloc.twin, htwin, Option.map_none, tileSig_sound hacc, beq_self_eq_true]
  change (let r := s.compareAll (t :: rest) (true && !s.armed (t :: rest)) 0
    if r.2.length ≠ (t :: rest).length then r.1
    else r.1.quarterOpsWith (t :: rest) fs 64 (fun _ => [(a.toNat, sig)]) (fun _ => [(a.toNat, sig)]) 0) = _
  rw [armed_quiet l.quiet, Bool.not_false, Bool.and_self, compareAll_quiet l.quiet]
  exact if_neg (not_not.mpr rfl)

end Sound
end Lanes
end Quiet

theorem fragRegs_eq (res : IFmt) (out : List (Nat × Fpx)) (l : Nat) :
    let v := fun j : Nat => (out.map (·.1)).getD j 0
    fragRegs res (out.map (·.1)) l = if res = .f32 then (List.range 32).map fun j => BitVec.ofNat 32 (v (32 * l + j))
      else (List.range 16).map fun j => BitVec.ofNat 32 (v (32 * l + 2 * j) + v (32 * l + 2 * j + 1) * 2 ^ 16) := by
  simp only [fragRegs, isFmt32_eq, decide_eq_true_eq, seqFrom_map, getAt_eq_getD, List.map_map, Nat.zero_add]
  rfl

/-- Settles O43: the quarter's checks pass; its tile or its image is written, and its operation begins in every lane. -/
theorem tileMoves : Obligations.TileMoves := by
  unfold Obligations.TileMoves
  intro s g fs f res img d a m n q core h base size lanes al ts k u w tile elems off image fits none0 flags hcalm hscr hsb hab haw hsw hobj
  have hu : u = fmtUnits f := (fmtUnits_eq f).symm
  have hw : w = elemBytes f := (elemBytes_eq f).symm
  have helems : elems h = s.tileCodes core h f := by
    simp only [elems, tile, hu, hw]
    rfl
  have whole {i : Instr} (hQ : Quarters s i [q] lanes) : ∃ t th, QuietLanes s ts t th ∧ th.core = core ∧ AtImage s t m base size off := by
    obtain ⟨t, th, l, ht⟩ := quietLanes_of_quarter hQ
    obtain ⟨hcore, hc⟩ := hcalm t ht th l.thread
    obtain ⟨rest, hts⟩ := l.head
    exact ⟨t, th, l, hcore, hc, hscr t ht, by simp only [off, show ts = t :: rest from hts]⟩
  have stored (a : Nat) (data : List Byte) : ScratchWritten core a data s (s.scrWrite core a data) := scrWrite_written hsw fun x _ _ => hobj _
  refine ⟨fun hold => ⟨fun hQ => ?tzero, fun hQ hfit => ?tld, fun hQ htwin hfit => ?tst⟩, fun hold hfit => ⟨fun hQ => ?tfill, fun hQ htwin => ?tspill⟩,
    fun hold => ⟨fun hQ htwin => ?frags, fun hQ htwin => ?tsig⟩⟩
  case tzero =>
    obtain ⟨t, th, l, rfl, -⟩ := whole hQ
    rw [hu, ← isFmt32_eq] at hold
    refine ⟨s.tileFill th.core al h (List.replicate (512 * u) 0) (List.replicate (512 * u) 0), _, (exec_quarter hQ (.inl rfl) rfl (tileCause_ok hold)).trans
      (congrArg _ ?_), tileFill_written haw _ _ _ _, quarterOps_silent (tileFill_written haw _ _ _ _).1 l.nodup (quietLanes_threads l) fs 32 d 0⟩
    rw [State.zeroQuarter, fillUnits_quiet l hold.1, hold.2.1, tileBytes_eq, hu]
  case tld =>
    obtain ⟨t, th, l, rfl, ha⟩ := whole hQ
    rw [hu] at hfit
    rw [hu, ← isFmt32_eq] at hold
    refine ⟨_, _, (exec_quarter hQ (.inl rfl) rfl (moveCause_ok l ha hold hfit.1 hfit.2.1 ?_)).trans
      (congrArg _ (loadQuarter_calm l ha hsb hold fs 48 _)), hu ▸ tileFill_written haw _ _ _ _,
      quarterOps_silent (tileFill_written haw _ _ _ _).1 l.nodup (quietLanes_threads l) fs 48 d 0⟩
    rw [tileBytes_eq]
    exact hfit.2.2
  case tst =>
    intro out
    obtain ⟨t, th, l, rfl, ha⟩ := whole hQ
    rw [hu, ← isFmt32_eq] at hold
    have hout : out = (s.tileCodes th.core h f).map (imgElem img f) := congrArg (List.map (imgElem img f)) helems
    have hdata : (out.flatMap fun o => bytesOfNat (imgBytes img f) o.1) = elemsBytes (imgBytes img f) (out.map (·.1)) :=
      (List.flatMap_map ..).symm
    rw [hdata, hout]
    exact ⟨_, _, (exec_quarter hQ (.inl rfl) rfl (moveCause_ok l ha hold hfit.1 hfit.2.1 hfit.2.2)).trans (congrArg _
      ((tstQuarter_eq l hold htwin hab fs img f _).trans (storeQuarter_calm l ha _ _))), stored _ _,
      quarterOps_silent (stored _ _).1 l.nodup (quietLanes_threads l) fs 48 d _⟩
  case tfill =>
    obtain ⟨t, th, l, rfl, ha⟩ := whole hQ
    exact ⟨_, _, (exec_quarter hQ (.inl rfl) rfl (moveCause_ok l ha hold hfit.1 hfit.2.1 hfit.2.2)).trans
      (congrArg _ (loadQuarter_calm l ha hsb hold fs 192 _)), tileFill_written haw _ _ _ _,
      quarterOps_silent (tileFill_written haw _ _ _ _).1 l.nodup (quietLanes_threads l) fs 192 d 0⟩
  case tspill =>
    obtain ⟨t, th, l, rfl, ha⟩ := whole hQ
    exact ⟨_, _, (exec_quarter hQ (.inl rfl) rfl (moveCause_ok l ha hold hfit.1 hfit.2.1 hfit.2.2)).trans (congrArg _
      ((spillQuarter_eq l hold htwin hab fs _).trans (storeQuarter_calm l ha _ _))), stored _ _,
      quarterOps_silent (stored _ _).1 l.nodup (quietLanes_threads l) fs 192 d 0⟩
  case frags =>
    intro out v rows
    obtain ⟨t, th, l, rfl, -⟩ := whole hQ
    rw [hu, ← isFmt32_eq] at hold
    have hrows : rows = fragRegs res (out.map (·.1)) := funext fun j => (fragRegs_eq res out j).symm
    refine ⟨_, (exec_quarter hQ (.inl rfl) rfl (tileCause_ok hold)).trans (congrArg _ (fragsQuarter_eq l hold htwin hab fs res f d _)),
      fragRegs res [], ?_⟩
    rw [hrows, ← helems]
    exact quarterOps_begins l.nodup (quietLanes_threads l) fs 32 d _ _ (flags out) (fun _ _ => rfl) fun _ _ => rfl
  case tsig =>
    intro sig
    obtain ⟨t, th, l, rfl, -⟩ := whole hQ
    rw [hu, ← isFmt32_eq] at hold
    have hsig : sig = fun _ => [crc32c ((s.core th.core).acc.read (512 * h) (512 * fmtUnits f))] := by
      simp only [sig, tile, hu]
      rfl
    refine ⟨_, (exec_quarter hQ (.inl rfl) rfl (tileCause_ok hold)).trans (congrArg _ (tsigQuarter_eq l hold htwin hab fs f d _)), ?_⟩
    rw [hsig]
    exact quarterOps_begins l.nodup (quietLanes_threads l) fs 64 d _ _ 0 (fun _ _ => rfl) fun _ _ => rfl

end Sys2Proof.Machine
end

section
/-! MMAQ and MMAZ: the exact product of two fragments, and the tile it goes into (R346, R352 to R356). -/

namespace Sys2Proof.Machine

open Sys2Proof Sys2Proof.Safety

/-! ### One element: the exact sum, rounded once (R216) -/

/-- The sign that NEG gives a product. -/
def negSign (neg : Bool) : ℚ := if neg = true then -1 else 1

theorem mmaTerm_num (int neg : Bool) {p : FVal} (h : isNum p = true) :
    isNum (mmaTerm int neg p) = true ∧ valueOf (mmaTerm int neg p) = negSign neg * valueOf p := by
  obtain ⟨n, m, e, rfl⟩ := exists_num_of_isNum h
  have hneg : ∃ n', (if neg then (FVal.num n m e).negate else .num n m e) = .num n' m e ∧ valueOf (.num n' m e) = negSign neg * valueOf (.num n m e) := by
    cases neg with
    | false => exact ⟨n, rfl, (one_mul _).symm⟩
    | true => exact ⟨!n, rfl, by cases n <;> simp [valueOf, negSign]⟩
  obtain ⟨n', hv, hval⟩ := hneg
  simp only [mmaTerm, hv, ← hval]
  split
  case isTrue hz =>
    have hm : m = 0 := by simpa [FVal.isZero] using (Bool.and_eq_true_iff.mp hz).2
    exact ⟨rfl, by simp [valueOf, hm]⟩
  case isFalse => exact ⟨rfl, rfl⟩

/-- The products of numbers: numbers without a flag, their values those of the factors. -/
theorem products_nums {xs ys : List FVal} (hx : ∀ v ∈ xs ++ ys, isNum v = true) :
    ∀ q ∈ xs.zip ys, isNum (q.1.mul q.2).1 = true ∧ (q.1.mul q.2).2 = 0 ∧ valueOf (q.1.mul q.2).1 = valueOf q.1 * valueOf q.2 := by
  rintro ⟨x, y⟩ hq
  obtain ⟨h1, h2⟩ := List.of_mem_zip hq
  obtain ⟨m, e, hmul, hval⟩ := FVal.mul_nums (hx x (List.mem_append_left _ h1)) (hx y (List.mem_append_right _ h2))
  rw [hmul]
  exact ⟨rfl, rfl, hval⟩

theorem oppositeInf_nums {ps : List FVal} (h : ∀ v ∈ ps, isNum v = true) : oppositeInf ps = false := by
  have hno : (ps.any fun v => v.isInf && v.neg?) = false := List.any_eq_false.mpr fun v hv => by simp [FVal.isInf_of_isNum (h v hv)]
  rw [oppositeInf, hno, Bool.false_and]

theorem foldl_or_zero {α : Type} (f : α → Fpx) {l : List α} (h : ∀ x ∈ l, f x = 0) : l.foldl (fun x p => x ||| f p) 0 = 0 := by
  induction l with
  | nil => rfl
  | cons a l ih =>
    rw [List.foldl_cons, h a List.mem_cons_self]
    exact ih fun x hx => h x (List.mem_cons_of_mem _ hx)

theorem mmaElem_nums (acc : IFmt) (int neg : Bool) {xs ys : List FVal} {c : FVal} (hv : ∀ v ∈ c :: (xs ++ ys), isNum v = true) :
    ∃ sg m e, mmaElem acc int neg xs ys c = (Fmt.ofI acc).roundNum .rne false sg m e ∧
      valueOf (.num sg m e) = valueOf c + negSign neg * ((xs.zip ys).map fun r => valueOf r.1 * valueOf r.2).sum := by
  have hprod := products_nums fun v h => hv v (List.mem_cons_of_mem _ h)
  have hfsts : ∀ v ∈ ((xs.zip ys).map fun q => q.1.mul q.2).map (·.1), isNum v = true := by
    simp only [List.map_map, List.mem_map]
    rintro _ ⟨q, hq, rfl⟩
    exact (hprod q hq).1
  have hterms : ∀ v ∈ c :: ((xs.zip ys).map fun q => q.1.mul q.2).map fun p => mmaTerm int neg p.1, isNum v = true := by
    simp only [List.mem_cons, List.map_map, List.mem_map]
    rintro _ (rfl | ⟨q, hq, rfl⟩)
    · exact hv _ List.mem_cons_self
    · exact (mmaTerm_num int neg (hprod q hq).1).1
  obtain ⟨sg, m, e, hsum, hval, -⟩ := FVal.sum_nums .rne hterms
  have hflags : ((xs.zip ys).map fun q => q.1.mul q.2).foldl (fun x p => x ||| p.2) (0 : Fpx) = 0 := foldl_or_zero _ fun p hp => by
    obtain ⟨q, hq, rfl⟩ := List.mem_map.mp hp
    exact (hprod q hq).2.1
  refine ⟨sg, m, e, ?_, hval.trans ?_⟩
  · simp only [mmaElem, oppositeInf_nums hfsts, Bool.false_eq_true, if_false, hflags, hsum]
    exact finish_num _ _ _ hv sg m e
  · rw [List.map_cons, List.sum_cons, ← List.sum_map_mul_left, List.map_map, List.map_map]
    congr 2
    exact List.map_congr_left fun q hq => ((mmaTerm_num int neg (hprod q hq).1).2.trans (congrArg _ (hprod q hq).2.2))

/-! ### The fragments (R352) -/

theorem getAt_pairs {α β : Type} (d : β) (f : α → Nat → β) (rs : List α) (a : α) {i : Nat} (h : i / 2 < rs.length) :
    getAt d (rs.flatMap fun r => [f r 0, f r 1]) i = f (rs.getD (i / 2) a) (i % 2) := by
  induction rs generalizing i with
  | nil => exact absurd h (Nat.not_lt_zero _)
  | cons r rs ih =>
    match i with
    | 0 => rfl
    | 1 => rfl
    | i + 2 =>
      have hdiv : (i + 2) / 2 = i / 2 + 1 := by omega
      have hmod : (i + 2) % 2 = i % 2 := by omega
      rw [hdiv, hmod, List.getD_cons_succ]
      exact ih (by rw [hdiv, List.length_cons] at h; omega)

section Frag
variable {slot : Word} {fmt w k : Nat} {base side : XReg} {s : State} {ts : List Tid}

theorem fragRows_at (hlen : ts.length = 8) {i : Nat} (hi : i < 16) (shadow : Bool) :
    getAt FragRow.none (fragRows slot fmt w k base side (ts.map (s.regsOf shadow))) i =
      fragRow slot fmt w k (s.regsOf shadow (ts.getD (i / 2) (.scalar 0))) base side (i % 2) := by
  rw [fragRows, getAt_pairs FragRow.none (fragRow slot fmt w k · base side) _ (s.regsOf shadow (.scalar 0)) (by rw [List.length_map]; omega),
    List.getD_map]

theorem fragRow_sound {r : Regs} (h : r.bad = []) (j : Nat) :
    (fragRow slot fmt w k r base side j).bad = [] ∧ (fragRow slot fmt w k r base side j).side = false := by
  simp [fragRow, h]

theorem fragReplaced_sound (src unit e : Nat) {rows : List FragRow} (h : ∀ r ∈ rows, r.bad = [] ∧ r.side = false) :
    fragReplaced src unit e rows = [] := by
  refine List.flatMap_eq_nil_iff.mpr fun ⟨r, i⟩ hr => ?_
  obtain ⟨hbad, hside⟩ := h r (List.of_mem_zip hr).1
  simp [hbad, hside]

theorem fragRows_sound {rs : List Regs} (h : ∀ r ∈ rs, r.bad = []) :
    ∀ r ∈ fragRows slot fmt w k base side rs, r.bad = [] ∧ r.side = false := by
  simp only [fragRows, List.mem_flatMap, List.mem_cons, List.not_mem_nil, or_false]
  rintro _ ⟨r, hr, rfl | rfl⟩
  · exact fragRow_sound (h r hr) 0
  · exact fragRow_sound (h r hr) 1

end Frag

/-! ### The new tile (R353, R355) -/

section Tile
variable {s : State} {ts bs : List Tid} {core h : Nat} {acc : IFmt} {slot : Word} {w k : Nat}

/-- An element of the tile that a product starts from: −0 for MMAZ. -/
def State.oldElem (s : State) (zero : Bool) (acc : IFmt) (core h j : Nat) : FVal :=
  if zero = true then (Fmt.ofI acc).read (Fmt.sign (Fmt.ofI acc) true)
  else (Fmt.ofI acc).read (fieldAt ((s.core core).acc.read (512 * h) (512 * fmtUnits acc)) (elemBytes acc * j) (elemBytes acc))

/-- The tile that a product starts from, with its replacements. -/
def State.oldTile (s : State) (zero : Bool) (acc : IFmt) (core h : Nat) : List Nat × List Replaced :=
  if zero = true then (List.replicate 256 (Fmt.sign (Fmt.ofI acc) true), []) else s.tileElems core h acc

theorem oldTile_at (hbad : (s.core core).accBad = []) (zero : Bool) {j : Nat} (hj : j < 256) :
    (Fmt.ofI acc).read (getAt 0 (s.oldTile zero acc core h).1 j) = s.oldElem zero acc core h j := by
  rw [getAt_eq_getD]
  cases zero with
  | true =>
    have hlen : j < (List.replicate 256 (Fmt.sign (Fmt.ofI acc) true)).length := by rwa [List.length_replicate]
    exact congrArg _ ((List.getD_eq_getElem _ _ hlen).trans (List.getElem_replicate _))
  | false => simp [State.oldTile, State.oldElem, tileElems_sound hbad, fields, hj]

theorem oldTile_sound (hbad : (s.core core).accBad = []) (zero : Bool) : (s.oldTile zero acc core h).2 = [] := by
  cases zero with
  | true => rfl
  | false => simp [State.oldTile, tileElems_sound hbad]

/-- Row (or column) `i` of a quarter's fragment, from lane `i / 2`. -/
def State.fragVals (s : State) (slot : Word) (fmt w k : Nat) (base side : XReg) (ts : List Tid) (i : Nat) : List FVal :=
  (fragRow slot fmt w k (s.regsOf false (ts.getD (i / 2) (.scalar 0))) base side (i % 2)).vals

/-- Element `j` of the new tile. -/
def State.newElem (s : State) (zero neg : Bool) (acc : IFmt) (a b c : XReg) (slot : Word) (w k core h : Nat) (ts bs : List Tid) (j : Nat) : Nat × Fpx :=
  mmaElem acc (slotA slot == 6) neg (s.fragVals slot (slotA slot) w k a c ts (j / 16)) (s.fragVals slot (slotB slot) w k b (c + 1) bs (j % 16))
    (s.oldElem zero acc core h j)

theorem mmaTile_sound (hbad : (s.core core).accBad = []) (hregs : ∀ t ∈ ts ++ bs, (s.regsOf false t).bad = []) (hts : ts.length = 8)
    (hbs : bs.length = 8) (hpair : pairShape slot = some (w, k)) (zero neg : Bool) (a b c : XReg) :
    let new := (List.range 256).map (s.newElem zero neg acc a b c slot w k core h ts bs)
    s.mmaTile false zero neg acc a b c slot core h ts bs = (new.map (·.1), new.foldl (fun x o => x ||| o.2) 0, []) := by
  intro new
  let rows (x : XReg) (y : XReg) (fmt : Nat) (us : List Tid) := fragRows slot fmt w k x y (us.map (s.regsOf false))
  have hsound (x y : XReg) (fmt : Nat) (us : List Tid) (hu : ∀ t ∈ us, t ∈ ts ++ bs) (src : Nat) :
      fragReplaced src h (32 / w) (rows x y fmt us) = [] := fragReplaced_sound _ _ _ (fragRows_sound fun r hr => by
    obtain ⟨t, ht, rfl⟩ := List.mem_map.mp hr
    exact hregs t (hu t ht))
  have hout : ((seqFrom 0 256).map fun n => mmaElem acc (slotA slot == 6) neg (getAt FragRow.none (rows a c (slotA slot) ts) (n / 16)).vals
      (getAt FragRow.none (rows b (c + 1) (slotB slot) bs) (n % 16)).vals ((Fmt.ofI acc).read (getAt 0 (s.oldTile zero acc core h).1 n))) = new := by
    rw [seqFrom_map, List.map_map]
    refine List.map_congr_left fun j hj => ?_
    have hj := List.mem_range.mp hj
    simp only [Function.comp, Nat.zero_add, oldTile_at hbad zero hj, rows, fragRows_at hts (show j / 16 < 16 by omega),
      fragRows_at hbs (Nat.mod_lt j (by decide)), State.newElem, State.fragVals]
  have hnone : fragReplaced 1 h (32 / w) (rows a c (slotA slot) ts) ++ fragReplaced 2 h (32 / w) (rows b (c + 1) (slotB slot) bs) ++
      (s.oldTile zero acc core h).2 = [] := by
    rw [hsound a c _ ts fun t ht => List.mem_append_left _ ht, hsound b _ _ bs fun t ht => List.mem_append_right _ ht, oldTile_sound hbad]
    rfl
  rw [← hout, ← hnone]
  simp only [State.mmaTile, hpair, Option.getD_some]
  rfl

end Tile

/-! ### The operation of one quarter -/

section Quarter
variable {s : State} {ts bs : List Tid} {t : Tid} {th : Thread} {al : Alloc} {h n w k : Nat} {even : Bool} {d : XReg} {acc : IFmt} {fk : FSlot}

theorem mmaQuarter_sound (l : QuietLanes s ts t th) (hold : HoldsTile s ts al h n even d) (htwin : al.shadow = none)
    (hbad : (s.core th.core).accBad = []) (hregs : ∀ t ∈ ts ++ bs, (s.regsOf false t).bad = []) (hts : ts.length = 8) (hbs : bs.length = 8)
    (hpair : pairShape (s.slotOf t fk) = some (w, k)) (fs zero neg : Bool) (a b c : XReg) :
    let new := (List.range 256).map (s.newElem zero neg acc a b c (s.slotOf t fk) w k th.core h ts bs)
    State.mmaQuarter fs zero neg acc d a b c fk s ts bs =
      (s.tileFill th.core al h (elemsBytes (elemBytes acc) (new.map (·.1))) []).quarterOps ts fs (if isFmt32 acc then 128 else 96)
        (new.foldl (fun x e => x ||| e.2) 0) := by
  intro new
  obtain ⟨halloc, hh, -⟩ := hold
  obtain ⟨rest, rfl⟩ := l.head
  simp only [State.mmaQuarter, halloc, hh, coreOf_thread l.thread, withUndo_quiet l.quiet, mmaTile_sound hbad hregs hts hbs hpair, Alloc.twin, htwin,
    Option.map_none, State.tileFill, Option.elim_none]
  rfl

theorem mmaCause_ok (l : QuietLanes s ts t th) (hold : HoldsTile s ts al h (fmtUnits acc) (isFmt32 acc) d)
    (hpair : pairShape (s.slotOf t fk) = some (w, k)) : State.mmaCause acc d fk s ts = none := by
  obtain ⟨rest, rfl⟩ := l.head
  simp only [State.mmaCause, hpair, Option.isNone_some, Bool.false_eq_true, if_false, tileCause_ok hold]

theorem mmaCause_format (l : QuietLanes s ts t th) (hpair : pairShape (s.slotOf t fk) = none) :
    State.mmaCause acc d fk s ts = some (.formatSlot, fk.setWidth 64) := by
  obtain ⟨rest, rfl⟩ := l.head
  simp only [State.mmaCause, hpair, Option.isNone_none, if_true]

/-- A cause of one whole quarter is raised in every lane. -/
theorem exec_quarter_raise {i : Instr} {q : Nat} {lanes : Nat → List Tid} {causes : State → List Tid → Option (Cause × DWord)}
    {act : State → List Tid → List Tid → State} {e : Cause} {x : DWord} (hQ : Quarters s i [q] lanes) (hform : quarterForm i = some (none, causes, act))
    (hc : causes s (lanes q) = some (e, x)) : exec i s = .next (s.issue.foldl (fun s t => s.raise t e x) s) := by
  obtain ⟨c, g, k, grp, rfl⟩ := quarters_lanes_eq hQ
  have hne : s.issue ≠ [] := by
    rw [hQ.issue]
    exact List.cons_ne_nil _ _
  rw [exec_quarterForm hform, quarters_run hQ (by simp) hne, quarters_raise hQ (by simp) List.mem_cons_self hc (by simp)]

theorem quarter_length {i : Instr} {qs : List Nat} {lanes : Nat → List Tid} (hQ : Quarters s i qs lanes) (p : Nat) : (lanes p).length = 8 := by
  obtain ⟨c, g, k, grp, rfl⟩ := quarters_lanes_eq hQ
  simp [quarterLanes]

/-- The quarter that a B-source field names. -/
theorem source_own {i : Instr} {q : Nat} {lanes : Nat → List Tid} (hQ : Quarters s i [q] lanes) {bq : Option (BitVec 2)}
    (hb : bq = none ∨ bq = some (BitVec.ofNat 2 q)) : bq.map (·.toNat) = none ∨ bq.map (·.toNat) = some q := by
  have hq : q < 4 := hQ.order.2 q List.mem_cons_self
  rcases hb with rfl | rfl
  · exact .inl rfl
  · exact .inr (congrArg some (Nat.mod_eq_of_lt hq))

end Quarter

/-- Settles O44: the quarter's product is the sum of exact products rounded once; its slot's pair is the first check. -/
theorem matrixProducts : Obligations.MatrixProducts := by
  unfold Obligations.MatrixProducts
  refine ⟨?product, fun acc int neg xs ys c _ hv => mmaElem_nums acc int neg hv, ?format⟩
  case product =>
    intro s g fs zero neg acc d a b c fk q p core h w kk lanes al ts k u n slot row old elem new hQ hcore hold htwin hbad hwf hregs hpair
    have hu : u = fmtUnits acc := (fmtUnits_eq acc).symm
    have hn : n = elemBytes acc := (elemBytes_eq acc).symm
    obtain ⟨t, th, l, ht⟩ := quietLanes_of_quarter hQ
    obtain ⟨rfl, -⟩ := hcore t ht th l.thread
    have hslot : slot = s.slotOf t fk := by
      obtain ⟨rest, hts⟩ := l.head
      simp only [slot, hts, List.headD_cons]
    rw [hu, ← isFmt32_eq] at hold
    rw [hslot] at hpair
    have hno := mmaCause_ok l hold hpair
    have hnew : new = (List.range 256).map (s.newElem zero neg acc a b c (s.slotOf t fk) w kk th.core h ts (lanes p)) := by
      rw [← hslot]
      simp only [new, elem, old, hu, hn]
      rfl
    clear_value new n
    have hdata : (new.flatMap fun e => bytesOfNat n e.1) = elemsBytes (elemBytes acc) (new.map (·.1)) := by
      rw [hn]
      exact (List.flatMap_map ..).symm
    have hfill := tileFill_written hwf al h (elemsBytes (elemBytes acc) (new.map (·.1))) []
    refine ⟨⟨_, hdata ▸ hfill, ?_⟩, fun hz bq hb hq => ?_, fun hz bq hb hq => ?_⟩
    · rw [mmaQuarter_sound l hold htwin hbad hregs (quarter_length hQ q) (quarter_length hQ p) hpair, ← hnew, isFmt32_eq, hdata]
      simp only [decide_eq_true_eq]
      exact quarterOps_silent hfill.1 l.nodup (quietLanes_threads l) fs _ d _
    · exact exec_quarter hq (source_own hq hb) rfl hno
    · exact exec_quarter hq (source_own hq hb) rfl hno
  case format =>
    intro s i q lanes g fs neg acc d a b c fk hi hQ hpair
    obtain ⟨t, th, l, -⟩ := quietLanes_of_quarter hQ
    have hslot : pairShape (s.slotOf t fk) = none := by
      obtain ⟨rest, hts⟩ := l.head
      rwa [hts] at hpair
    rcases hi with rfl | rfl
    · exact exec_quarter_raise hQ rfl (mmaCause_format l hslot)
    · exact exec_quarter_raise hQ rfl (mmaCause_format l hslot)

end Sys2Proof.Machine
end

section
/-! LDG's checks and its request (R367, R368), and the words that MBRD reads (R384). -/

namespace Sys2Proof.Machine

open Sys2Proof Sys2Proof.Safety

/-! ### LDG -/

section Ldg
variable {s : State} {t : Tid} {th : Thread} {g : Guard} {op : LdgOp} {ty : LdgTy} {sz : Size} {d : XReg} {m : MemOp} {cg : CGReg} {e : PReg}
  {base size : Nat} {table : List Word}

theorem ldgDest_eq (op : LdgOp) (sz : Size) (d : XReg) : ldgDest op sz d = if op = .mini then [d.toNat, d.toNat + 1] else destRegs d sz := by
  simp only [ldgDest, beq_iff_eq]
  rfl

/-- The aborted gang of a table that spans modules. -/
def State.ldgAborted (s : State) (t : Tid) (table : List Word) : Bool := spansModules s.modid table && s.gangState t == some .aborted

theorem ldgAborted_iff (s : State) (t : Tid) (table : List Word) :
    s.ldgAborted t table = true ↔ spansModules s.modid table = true ∧ s.gangState t = some .aborted := by
  rw [State.ldgAborted, Bool.and_eq_true, beq_iff_eq]

/-- What LDG does once the core group and the offset are checked. -/
def State.ldgChecked (s : State) (t : Tid) (th : Thread) (op : LdgOp) (ty : LdgTy) (sz : Size) (d : XReg) (m : MemOp) (e : PReg) (table : List Word) : State :=
  if s.ldgAborted t table then s.raise t .gangAbort 0
  else if !s.requestRoom th.core then s
  else s.compared t (scratchOff (State.shadowOf th) m == scratchOff th.regs m) (scrLoc (scratchOff th.regs m)) fun s =>
    let r := s.segEnd t (succPc th.pc) (ldgDest op sz d) .group 1 (ldgDest op sz d) (some e.toNat)
    if r.2 then r.1.pushOut t .group (.ldg op ty sz.bytes (scratchOff th.regs m).toNat table) else r.1

section Issue
variable (h : Lone s (.ldg g op ty sz d m cg e) t th)
include h

theorem execLdg_away (ha : s.away th = true) : exec (.ldg g op ty sz d m cg e) s = .next (s.raise t .awayAccess 0) :=
  (run_lone h _).trans (by simp only [h.thread, ha, if_true])

theorem execLdg_undefined (ha : s.away th = false) (hcg : s.cgOf t cg.toNat = none) :
    exec (.ldg g op ty sz d m cg e) s = .next (s.raise t .groupUndefined (cg.setWidth 64)) :=
  (run_lone h _).trans (by simp only [h.thread, ha, hcg, Bool.false_eq_true, if_false])

theorem execLdg_group (ha : s.away th = false) (hcg : s.cgOf t cg.toNat = some table) :
    exec (.ldg g op ty sz d m cg e) s = .next (s.checked t (s.scratchCheck th (scratchOff th.regs m) sz.bytes) fun _ =>
      s.ldgChecked t th op ty sz d m e table) := by
  refine (run_lone h _).trans ?_
  simp only [h.thread, ha, hcg, Bool.false_eq_true, if_false]
  congr 2
  funext _
  unfold State.ldgChecked State.ldgAborted
  congr 2
  congr 1
  funext s'
  generalize s'.segEnd t (succPc th.pc) (ldgDest op sz d) .group 1 (ldgDest op sz d) (some e.toNat) = r
  obtain ⟨s1, _ | _⟩ := r <;> rfl

end Issue

theorem scratchCheck_misaligned {off : Int} {n : Nat} (ha : s.away th = false) (hs : s.scratchOf th.id = some (base, size)) (hal : off % n ≠ 0) :
    s.scratchCheck th off n = .error (.misaligned, BitVec.ofInt 64 off) := by
  simp only [State.scratchCheck, ha, hs, hal, ne_eq, not_false_eq_true, if_true, Bool.false_eq_true, if_false]

theorem scratchCheck_range {off : Int} {n : Nat} (ha : s.away th = false) (hs : s.scratchOf th.id = some (base, size)) (hal : off % n = 0)
    (hout : off < 0 ∨ (size : Int) < off + n) : s.scratchCheck th off n = .error (.scratchRange, BitVec.ofInt 64 off) := by
  simp only [State.scratchCheck, ha, hs, hal, ne_eq, not_true_eq_false, hout, if_true, Bool.false_eq_true, if_false]

/-- The request leaves with the segment's end. -/
theorem ldgChecked_asks (ht : s.thread? t = some th) (q : Quiet th) (hab : s.ldgAborted t table = false) (hr : s.requestRoom th.core = true)
    (he : MayEnd s t th (unionRegs (s.standing th) (ldgDest op sz d))) :
    s.ldgChecked t th op ty sz d m e table =
      (s.park t (successor th.pc) (unionRegs (s.standing th) (ldgDest op sz d)) .group 1 (ldgDest op sz d) (some e.toNat)).pushOut t .group
        (.ldg op ty sz.bytes (scratchOff th.regs m).toNat table) := by
  simp only [State.ldgChecked, hab, hr, Bool.not_true, Bool.false_eq_true, if_false, compared_quiet ht q, quiet_shadow q, beq_self_eq_true,
    segEnd_ok ht he, succ_successor, if_true]

end Ldg

/-! ### MBRD -/

section Mbrd
variable {s : State} {t : Tid} {gr : Grid} {k : Nat}

theorem memberWord_undefined (h : (gr.defOf k).getLsbD 63 = false) (sel : MbrdSel) : s.memberWord gr t k sel = 0 := by
  simp only [State.memberWord, h, Bool.not_false, if_true]

variable (h : (gr.defOf k).getLsbD 63 = true)
include h

theorem memberWord_epoch : s.memberWord gr t k .epoch = (gr.liveOf k).epoch := by
  rw [State.memberWord, h]
  rfl

theorem memberWord_groups (hg : gr.gangWide k = false) :
    s.memberWord gr t k .groups = BitVec.ofNat 32 (min (s.liveGroups gr k) (2 ^ 32 - 1)) := by
  simp only [State.memberWord, h, hg, Bool.not_true, Bool.false_eq_true, if_false]
  cases gr.gang <;> rfl

theorem memberWord_mods :
    s.memberWord gr t k .mods = BitVec.ofNat 32 ((gr.moduleCount k - (gr.liveOf k).droppedMods.length) * 2 ^ 16 + gr.rank k) := by
  rw [State.memberWord, h]
  rfl

theorem memberWord_self (c g tm grp l : Nat) : s.memberWord gr (.thr c g tm grp l) k .self =
    BitVec.ofNat 32 ((if gr.memberGroup k grp = true ∧ gr.excluded k tm grp = false then 1 else 0) + (if gr.modDropped k = true then 0 else 2) + 4) := by
  simp only [State.memberWord, h, Bool.not_true, Bool.false_eq_true, if_false, Bool.and_eq_true, Bool.not_eq_true']

end Mbrd

/-- Settles O47: R368's checks in order, the request that leaves with the segment's end, and MBRD's word by its selector. -/
theorem groupLoads : Obligations.GroupLoads := by
  unfold Obligations.GroupLoads
  intro s t th gd op ty sz d m cg e sel mr base size table i off dest live q
  refine ⟨fun h => ⟨execLdg_away h, execLdg_undefined h, fun ha hcg hs => ?ldg⟩, fun h => ⟨fun hno => ?none, fun gr hgr => ?word⟩⟩
  case ldg =>
    have hs := thread?_id h.thread ▸ hs
    have hexec := execLdg_group h ha hcg
    refine ⟨fun hal => ?_, fun hal hout => ?_, fun hal h0 hin => ?_⟩
    · rw [hexec, scratchCheck_misaligned ha hs hal]
      rfl
    · rw [hexec, scratchCheck_range ha hs hal hout]
      rfl
    · rw [hexec, scratchCheck_ok ha hs hal h0 hin]
      refine ⟨fun hout => congrArg _ (if_pos ((ldgAborted_iff s t table).mpr hout)), fun hout hr => ?_, fun hout hr he => ?_⟩
      · have hab : s.ldgAborted t table = false := Bool.eq_false_iff.mpr fun hx => hout ((ldgAborted_iff s t table).mp hx)
        refine congrArg _ ?_
        simp only [State.checked, State.ldgChecked, hab, hr, Bool.false_eq_true, if_false, Bool.not_false, if_true]
      · have hab : s.ldgAborted t table = false := Bool.eq_false_iff.mpr fun hx => hout ((ldgAborted_iff s t table).mp hx)
        have hdest : ldgDest op sz d = dest := ldgDest_eq op sz d
        exact congrArg _ ((ldgChecked_asks h.thread q hab hr (hdest ▸ he)).trans (by rw [hdest]; rfl))
  case none => exact (run_lone h _).trans (by simp only [hno])
  case word =>
    have hword (v : Word) (hv : s.memberWord gr t mr.toNat sel = v) : ∃ s', exec (.mbrd gd sel d mr) s = .next s' ∧
        LanesDo [t] (fun x => { x.advance with regs := x.regs.set32 d v, shadow := x.shadow.map fun r => r.set32 d v }) s s' :=
      ⟨_, (run_lone h _).trans (by simp only [hgr, hv]), writeD_lane h.thread d v⟩
    refine ⟨fun hd => hword _ (memberWord_undefined (Bool.eq_false_iff.mpr hd) sel), fun hd hsel => hword _ ?_, fun hd hsel hg => hword _ ?_,
      fun hd hsel => hword _ ?_, fun c g tm grp l ht hd hsel => hword _ ?_⟩
    · exact hsel ▸ memberWord_epoch hd
    · exact hsel ▸ memberWord_groups hd hg
    · exact hsel ▸ memberWord_mods hd
    · exact hsel ▸ ht ▸ memberWord_self hd c g tm grp l

end Sys2Proof.Machine
end

section
/-! Where a cause goes, what its entry writes, and a cause inside a handler (R387 to R392). -/

namespace Sys2Proof.Machine

open Sys2Proof Sys2Proof.Safety

/-! ### The rung and the vector (R387) -/

section Rungs
variable {s : State} {th : Thread} {tm : Team} {x : Ctx}

/-- The first rung from `k` that serves a group's cause: its vectors, the context's server, the partition. -/
theorem rungFor_group (hs : th.isScalar = false) (ht : s.teamOf th.id = some tm) :
    s.rungFor th 0 = (if tm.rungvec0 ≠ 0 then 0 else if tm.rungvec1 ≠ 0 then 1 else if s.contextServes (s.ctxOf th.id) = true then 2 else 3) ∧
    s.rungFor th 1 = (if tm.rungvec1 ≠ 0 then 1 else if s.contextServes (s.ctxOf th.id) = true then 2 else 3) := by
  simp [State.rungFor, hs, ht]

theorem vectorOf_group (ht : s.teamOf th.id = some tm) : s.vectorOf th 0 = tm.rungvec0 ∧ s.vectorOf th 1 = tm.rungvec1 := by
  simp [State.vectorOf, ht]

theorem rungFor_scalar (hs : th.isScalar = true) (hx : s.ctx? (s.ctxOf th.id) = some x) :
    s.rungFor th 0 = (if x.rungvec2 = 0 then 3 else 2) ∧ s.vectorOf th 2 = x.rungvec2 := by
  simp [State.rungFor, State.vectorOf, hs, hx]

end Rungs

/-! ### Entry at the thread (R388) -/

section Entry
variable {s : State} {t : Tid} {th : Thread}

/-- The handler state that an entry at rung `r` makes, its service timer running to `deadline`. -/
def Handler.entered (r : Nat) (c : Cause) (info pc src : DWord) (via deadline : Nat) (h : Handler) : Handler :=
  { h.enter pc src with
    cause := BitVec.ofNat 6 c.num, info, hmode := true, rung := BitVec.ofNat 2 r, via := BitVec.ofNat 2 via, timer := some deadline }

/-- A thread that goes on at its vector. -/
def Thread.entered (dst : DWord) (h : Handler) (now : Nat) (th : Thread) : Thread :=
  { th with
    pc := dst, arr := .checked, resv := none, wdStart := now, wdUsed := 0, hold := false, wait := .none, woken := false, pend := 0, dest := []
    destP := none, h }

theorem enter_eq (h : Handler) (pc src : DWord) : h.enter pc src =
    { h with
      trappc := if h.hmode = true then h.trappc else pc, src := if h.hmode = true then h.src else src
      hfaultsrc := if h.hmode = true then h.hfaultsrc else 0, entry := if h.hmode = true then h.entry else pc } := by
  unfold Handler.enter
  cases hm : h.hmode
  · rfl
  · simp only [if_true]
    rw [← hm]

/-- A cause whose rung the thread itself serves: its waits are given up, and it enters. -/
theorem deliverRaw_enters (ht : s.thread? t = some th) (ho : th.ops = []) {k : Nat}
    (hr : s.rungFor th k ≤ 1 ∨ (s.rungFor th k = 2 ∧ th.isScalar = true)) (c : Cause) (info pc src : DWord) (via : Nat) :
    let r := s.rungFor th k
    s.deliverRaw t k c info pc src via = (s.cancelWaits t).modThread t
      (Thread.entered (s.vectorOf th r) (th.h.entered r c info pc src via (s.cycle + s.serviceCycles (s.ctxOf t) r)) s.cycle) := by
  have hthread : (s.cancelWaits t).thread? t = some th := ht
  have hrung : (s.cancelWaits t).rungFor th k = s.rungFor th k := rfl
  simp only [State.deliverRaw, landAll_idle ht ho, hthread, hrung, if_pos hr]
  rfl

end Entry

/-! ### A cause of an instruction (R391) -/

section Raise
variable {s : State} {t : Tid} {th : Thread}

theorem settleRegions_none (ht : s.thread? t = some th) (hr : th.regions = []) : s.settleRegions t = (s, true) := by
  simp [State.settleRegions, ht, hr]

theorem deliver_unheld (ht : s.thread? t = some th) (hr : th.regions = []) (k : Nat) (c : Cause) (info pc src : DWord) (via : Nat) :
    s.deliver t k c info pc src via = s.deliverRaw t k c info pc src via := by
  rw [State.deliver, settleRegions_none ht hr]

/-- A handler that keeps a cause raised at `pc` for later. -/
def Handler.nested (h : Handler) (c : Cause) (info pc : DWord) : Handler :=
  { h.hold c info with hfaultsrc := if h.hfaultsrc = 0 then pc else h.hfaultsrc }

section Unheld
variable (ht : s.thread? t = some th) (hr : th.regions = []) (c : Cause) (info : DWord)
include ht hr

theorem raise_outside (hh : th.h.hmode = false) : s.raise t c info = s.deliverRaw t c.rung c info th.pc th.pc 0 := by
  have ha : th.inRunAhead = false := by simp [Thread.inRunAhead, hr]
  simp only [State.raise, ht, raiseAt_delivers ht ha hh, deliver_unheld ht hr]

theorem raise_service (hh : th.h.hmode = true) (hm : s.mmode = 0) : s.raise t c info =
    (s.modThread t fun x => { x with h := { x.h with hfaultsrc := th.pc } }).deliverRaw t (max c.rung (th.h.rung.toNat + 1)) c info th.h.trappc
      th.h.src 3 := by
  have ha : th.inRunAhead = false := by simp [Thread.inRunAhead, hr]
  simp only [State.raise, State.raiseAt, ht, ha, hh, hm, if_true, Bool.false_eq_true, if_false]
  exact deliver_unheld (thread?_modThread_self ht (show th.id = t from thread?_id ht)) hr _ _ _ _ _ _

theorem raise_nested (hh : th.h.hmode = true) (hm : s.mmode ≠ 0) :
    LanesDo [t] (fun x => { x.pass with h := x.h.nested c info x.pc }) s (s.raise t c info) := by
  have ha : th.inRunAhead = false := by simp [Thread.inRunAhead, hr]
  have heq : s.raise t c info = s.modThread t fun x => Thread.pass { x with h := x.h.nested c info th.pc } := by
    simp only [State.raise, State.raiseAt, ht, ha, hh, hm, if_true, Bool.false_eq_true, if_false]
    exact modThread_modThread _ _ _ _ fun _ => rfl
  rw [heq]
  refine lanesDo_congr (modThread_lane fun x => ?_) fun u hu x hx => ?_
  · unfold Thread.pass
    split <;> rfl
  · obtain rfl := List.mem_singleton.mp hu
    obtain rfl : th = x := Option.some.inj (ht.symm.trans hx)
    unfold Thread.pass
    split <;> rfl

end Unheld
end Raise

/-- Settles O7: the rung that serves, what an entry at the thread writes, and what a cause in a handler becomes. -/
theorem takingAnException : Obligations.TakingAnException := by
  refine ⟨?group, ?scalar, ?entry, ?raised⟩
  case group =>
    intro s c g k grp l th tm t ht htm
    have hid : th.id = t := thread?_id ht
    have hs : th.isScalar = false := congrArg Tid.isScalar hid
    have hteam : s.teamOf th.id = some tm := hid ▸ htm
    have hctx : s.ctxOf th.id = c := congrArg s.ctxOf hid
    obtain ⟨h0, h1⟩ := rungFor_group hs hteam
    rw [hctx] at h0 h1
    exact ⟨h0, h1, vectorOf_group hteam⟩
  case scalar =>
    intro s core th x ht hx
    have hid := thread?_id ht
    exact rungFor_scalar (congrArg Tid.isScalar hid) (hid ▸ hx)
  case entry =>
    intro s t th k c info pc src via ht ho r s' hr
    have heq := deliverRaw_enters ht ho hr c info pc src via
    have hthread : (s.cancelWaits t).thread? t = some th := ht
    simp only [s', heq]
    refine ⟨rfl, rfl, rfl, rfl, rfl, fun u hu => thread?_modThread_other (fun _ => rfl) hu,
      (thread?_modThread_self hthread (show th.id = t from thread?_id ht)).trans ?_⟩
    rw [Thread.entered, Handler.entered, enter_eq]
  case raised =>
    intro s t th c info ht hr
    refine ⟨raise_outside ht hr c info, raise_service ht hr c info, fun hh hm => ?_⟩
    exact raise_nested ht hr c info hh hm

end Sys2Proof.Machine
end

section
/-! TRET and ESC, the windows, CKPT and HALT (R263, R410, R411, R428, R429, R433). -/

namespace Sys2Proof.Machine

open Sys2Proof Sys2Proof.Safety

/-! ### TRET and ESC (R410, R411) -/

theorem lowestBit_eq {v : DWord} {n : Nat} (hn : n < 64) (h : v.getLsbD n = true) (hlow : ∀ k, k < n → v.getLsbD k = false) : lowestBit v = n := by
  have hfind : (seqFrom 0 64).find? (fun n => v.getLsbD n) = some n := by
    rw [seqFrom_map, List.find?_eq_some_iff_getElem]
    refine ⟨h, n, by simpa using hn, by simp, fun j hj => ?_⟩
    simpa using hlow j hj
  rw [lowestBit, hfind]
  rfl

section Return
variable {s : State} {t : Tid} {th : Thread} (ht : s.thread? t = some th)
include ht

theorem trapReturn_outside (hh : th.h.hmode = false) : s.trapReturn t = s.raise t .handlerState 0 := by
  simp only [State.trapReturn, ht, hh, Bool.not_false, if_true]

/-- A thread that leaves its handler for TRAPPC. -/
def Thread.returned (now : Nat) (th : Thread) : Thread :=
  { th with
    pc := th.h.trappc, arr := if th.h.trappc = th.h.entry then .unchecked else .checked, wdStart := now, wdUsed := 0
    h := { th.h with hmode := false, rung := 0, via := 0, timer := none } }

theorem trapReturn_leaves (hh : th.h.hmode = true) (hp : th.h.pend = 0) (hj : th.h.join = none) :
    LanesDo [t] (Thread.returned s.cycle) s (s.trapReturn t) := by
  have heq : s.trapReturn t = s.modThread t fun x => Thread.transfer
      { x with h := { x.h with hmode := false, rung := 0, via := 0, timer := none, join := none }, wdStart := s.cycle, wdUsed := 0 }
      th.h.trappc (th.h.trappc != th.h.entry) := by
    simp only [State.trapReturn, ht, hh, hp, hj, Bool.not_true, Bool.false_eq_true, if_false, ne_eq, not_true_eq_false]
    exact modThread_modThread _ _ _ _ fun _ => rfl
  rw [heq]
  refine lanesDo_congr (modThread_lane fun _ => rfl) fun u hu x hx => ?_
  obtain rfl := List.mem_singleton.mp hu
  obtain rfl : th = x := Option.some.inj (ht.symm.trans hx)
  by_cases he : th.h.trappc = th.h.entry <;> simp [Thread.transfer, Thread.returned, he, ← hj]

/-- A handler without its pending cause `n`. -/
def Handler.without (n : Nat) (h : Handler) : Handler :=
  { h with pend := h.pend &&& ~~~(1#64 <<< n), infos := h.infos.filter fun y => y.1 != n }

theorem trapReturn_delivers (hh : th.h.hmode = true) {n : Nat} (hn : n < 64) (hb : th.h.pend.getLsbD n = true)
    (hlow : ∀ k, k < n → th.h.pend.getLsbD k = false) :
    s.trapReturn t = (s.modThread t fun x => { x with h := x.h.without n }).deliver t th.h.rung.toNat (causeOf n) (th.h.infoOf n) th.h.trappc th.h.src 3 := by
  have hp : th.h.pend ≠ 0 := by
    intro h0
    rw [h0] at hb
    simp at hb
  simp only [State.trapReturn, ht, hh, Bool.not_true, Bool.false_eq_true, if_false, if_pos hp, lowestBit_eq hn hb hlow]
  rfl

end Return

/-! ### The windows (R263) and CKPT (R433) -/

section Window
variable {s : State} {t : Tid} {th : Thread} (ht : s.thread? t = some th) (q : Quiet th) (hlog : s.logging t = false)
include ht q hlog

/-- Outside regions a window's change is made, and the thread stays until it has spread. -/
theorem winChange_waits {e : Eff} (hp : s.prepare t e = (s, true)) : s.winChange t e = (s.perform t e).holdAt t (.winset t) := by
  simp only [State.winChange, ht, State.heldByLog, hlog, Bool.false_eq_true, if_false, emitThen_done ht q hp, quiet_region q]

omit ht q in
theorem prepare_winset (w : Nat) (v : List DWord) : s.prepare t (.winset w v) = (s, true) ∧ s.prepare t (.winsetClr w) = (s, true) := by
  simp [State.prepare, hlog]

omit ht hlog in
theorem execWinset_checked {g : Guard} {w : WReg} {a : XReg} (h : Lone s (.winset g w a) t th) : exec (.winset g w a) s = .next (
    let v := windowWords th.regs a
    if !windowFormat s.modid (getAt 0 v 0) (getAt 0 v 1) (getAt 0 v 2) (getAt 0 v 3) then s.raise t .windowFormat 0
    else s.winChange t (.winset w.toNat v)) :=
  (run_lone h _).trans (by simp only [h.thread, quiet_shadow q, beq_self_eq_true, compared_quiet h.thread q])

omit q hlog in
theorem checkpoint_settled (q : Quiet th) (d : XReg) : s.checkpoint t d =
    if s.ckpt.rsv = false then s.writeD t d 2
    else if s.ckpt.state ≠ 0 then s.writeD t d 1
    else { s.park t (successor th.pc) [] .task 1 [d.toNat] none with
      messages := s.messages ++ [.flood .recovering]
      ckpt := { s.ckpt with state := 1, waiter := some (t, d.toNat), cycle := s.cycle } } := by
  simp only [State.checkpoint, ht, settleRegions_none ht q.regions, succ_successor, Bool.not_eq_true']

end Window

theorem holdAt_lane {s s1 : State} {t : Tid} (hrest : s1.resWait = s.resWait) (w : ResWait) :
    ∃ s', s1.holdAt t w = { s' with resWait := s.resWait ++ [w] } ∧ LanesDo [t] (fun x => { x.advance with hold := true, segpc := x.pc }) s1 s' :=
  ⟨s1.modThread t fun x => { x.advance with hold := true, segpc := x.pc }, by rw [← hrest]; rfl, modThread_lane fun _ => rfl⟩

/-! ### HALT (R428, R429) -/

theorem find?_filter_of_imp {α : Type} {p q : α → Bool} {l : List α} (h : ∀ x ∈ l, q x = true → p x = true) :
    (l.filter p).find? q = l.find? q := by
  rw [List.find?_filter]
  refine List.find?_congr fun x hx => ?_
  cases hq : q x with
  | true => simp [h x hx hq]
  | false => simp

section Halt
variable {s : State} {c g st : Nat} {gr : Grid}

/-- What ending a running grid leaves of the threads, the teams, the grids and the memory. -/
theorem endGrid_lists (hs : s.NoCommands) (hg : s.grid? c g = some gr) (he : gr.ended = none) :
    (s.endGrid c g st).threads = s.threads.filter (fun th => !inGrid c g th.id) ∧
    (s.endGrid c g st).teams = s.teams.filter (fun tm => !(tm.ctx == c && tm.grid == g)) ∧
    (s.endGrid c g st).grids = (s.modGrid c g fun gr => { gr with ended := some st, insts := [], mailbox := none }).grids ∧
    (s.endGrid c g st).mem = s.mem := by
  have hlog (l : List Thread) : l.foldl State.logRest s = { s with cores := (l.foldl State.logRest s).cores } :=
    List.foldlRecOn l _ (motive := fun x : State => x = { s with cores := x.cores }) rfl fun x hx th _ => by
      have hone : x.logRest th = { x with cores := (x.logRest th).cores } :=
        List.foldlRecOn _ _ (motive := fun y : State => y = { x with cores := y.cores }) rfl fun y hy e _ => by
          rw [State.pushLog, modCore_rest, hy]
      rw [hone, hx]
  have hend : s.endGrid c g st = { s with
      threads := (s.endGrid c g st).threads, teams := (s.endGrid c g st).teams, compl := (s.endGrid c g st).compl, out := (s.endGrid c g st).out
      held := (s.endGrid c g st).held, resWait := (s.endGrid c g st).resWait, cores := (s.endGrid c g st).cores
      dies := (s.endGrid c g st).dies, ctxs := (s.endGrid c g st).ctxs, grids := (s.endGrid c g st).grids, parts := (s.endGrid c g st).parts } :=
    (endGrid_endsGrids hs c g).rest
  refine ⟨?_, ?_, ?_, by rw [hend]⟩ <;>
  · unfold State.endGrid
    simp only [hg, he, hs.commands, Option.isSome_none, Bool.false_eq_true, if_false, List.filter_nil, List.map_nil, List.foldl_nil]
    rw [hlog]
    rfl

section Ends
variable (hs : s.NoCommands) (hg : s.grid? c g = some gr) (he : gr.ended = none)
include hs hg he

theorem endGrid_thread?_other {u : Tid} (hu : inGrid c g u = false) : (s.endGrid c g st).thread? u = s.thread? u := by
  rw [State.thread?, (endGrid_lists hs hg he).1]
  exact find?_filter_of_imp fun x _ hx => by simp [show x.id = u by simpa using hx, hu]

theorem endGrid_team?_other {c' k n : Nat} (h : ¬ (c' = c ∧ k = g)) : (s.endGrid c g st).team? c' k n = s.team? c' k n := by
  rw [State.team?, (endGrid_lists hs hg he).2.1]
  refine find?_filter_of_imp fun x _ hx => ?_
  simp only [Bool.and_eq_true, beq_iff_eq] at hx
  obtain ⟨⟨rfl, rfl⟩, -⟩ := hx
  simpa only [Bool.not_eq_true', Bool.and_eq_false_iff, beq_eq_false_iff_ne] using not_and_or.mp h

theorem endGrid_no_team : ∀ x ∈ (s.endGrid c g st).teams, ¬ (x.ctx = c ∧ x.grid = g) := by
  rw [(endGrid_lists hs hg he).2.1]
  rintro x hx ⟨rfl, rfl⟩
  simpa using (List.mem_filter.mp hx).2

theorem endGrid_marked : (s.endGrid c g st).grid? c g = some { gr with ended := some st, insts := [], mailbox := none } := by
  obtain ⟨h1, h2⟩ := grid?_key hg
  have hmod := grid?_modGrid (f := fun gr => { gr with ended := some st, insts := [], mailbox := none }) (fun _ => ⟨rfl, rfl⟩) s c g c g
  rw [hg, Option.map_some, if_pos ⟨h1, h2⟩] at hmod
  rw [← hmod]
  unfold State.grid?
  rw [(endGrid_lists hs hg he).2.2.1]

end Ends

variable {t : Tid} {th : Thread} (ht : s.thread? t = some th)
include ht

theorem haltReady_handler (hh : th.h.hmode = true) : s.haltReady t = (s.raise t .handlerState 0, false) := by
  simp only [State.haltReady, ht, hh, if_true]

theorem haltReady_quiet (q : Quiet th) (hh : th.h.hmode = false) : s.haltReady t = (s, true) := by
  simp only [State.haltReady, ht, hh, Bool.false_eq_true, if_false, quiet_ahead q, mismatch_quiet ht q, State.commitClose, q.regions,
    List.isEmpty_nil, if_true]

omit ht in
theorem halt_quiet {k r l : Nat} (ht : s.thread? (.thr c g k r l) = some th) (q : Quiet th) (hh : th.h.hmode = false) (err : Bool) :
    s.halt err [.thr c g k r l] = s.endGrid c g (if err then stGridKilled else stOk) := by
  simp only [State.halt, State.keepIf, haltReady_quiet ht q hh, if_true]

end Halt

/-- Settles O53: each instruction by the branch its thread takes; HALT's grid ends with all that is its own. -/
theorem handlersWindowsHaltAndCheckpoint : Obligations.HandlersWindowsHaltAndCheckpoint := by
  refine ⟨?system, ?halt⟩
  case system =>
    intro s t th g err w a d v winset waits writes
    refine ⟨fun i hi h => ?refused, fun h hh => ⟨fun hp hj => ?leaves, fun n hn hb hlow => ?pending⟩, fun h hh => ?esc,
      fun q hlog => ⟨fun h => ⟨fun hno => ?format, fun hok => ?winset⟩, fun h => ?clear, fun h => ⟨fun hr => ?none, fun hr hst => ?busy, fun hr hst => ?begins⟩⟩,
      fun hw => ?spread, fun hw => ?late⟩
    case refused =>
      rcases hi with ⟨rfl | rfl, hh⟩ | ⟨rfl, hh⟩
      · exact (run_lone h _).trans (congrArg _ (trapReturn_outside h.thread hh))
      · exact (run_lone h _).trans (by simp only [h.thread, hh, Bool.false_eq_true, if_false])
      · refine (runAll_lone h fun s ts => s.halt err ts).trans ?_
        simp only [State.halt, State.keepIf, haltReady_handler h.thread hh, Bool.false_eq_true, if_false]
    case leaves => exact ⟨_, run_lone h _, trapReturn_leaves h.thread hh hp hj⟩
    case pending => exact ⟨_, (run_lone h _).trans (congrArg _ (trapReturn_delivers h.thread hh (by omega) hb hlow)), modThread_lane fun _ => rfl⟩
    case esc => exact (run_lone h _).trans (by simp only [h.thread, hh, if_true, State.escalate])
    case format => exact (execWinset_checked q h).trans (congrArg _ (if_pos (congrArg (!·) hno)))
    case winset =>
      obtain ⟨s', heq, hlane⟩ := holdAt_lane (s := s) (s1 := winset fun _ => ⟨getAt 0 v 0, getAt 0 v 1, getAt 0 v 2, getAt 0 v 3⟩) (t := t) rfl (.winset t)
      exact ⟨s', (execWinset_checked q h).trans (congrArg _ ((if_neg (Bool.eq_false_iff.mp (congrArg (!·) hok))).trans
        ((winChange_waits h.thread q hlog (prepare_winset hlog _ _).1).trans heq))), hlane⟩
    case clear =>
      obtain ⟨s', heq, hlane⟩ := holdAt_lane (s := s) (s1 := winset fun x => { x with ctl := x.ctl &&& 0x7FFFFFFFFFFFFFFF }) (t := t) rfl (.winset t)
      refine ⟨s', (run_lone h _).trans ?_, hlane⟩
      simp only [compared_quiet h.thread q, winChange_waits h.thread q hlog (prepare_winset hlog _ []).2]
      exact congrArg _ heq
    case none =>
      refine ⟨_, (run_lone h _).trans ?_, writeD_lane h.thread d 2⟩
      simp only [compared_quiet h.thread q, checkpoint_settled h.thread q, hr, if_true]
    case busy =>
      refine ⟨_, (run_lone h _).trans ?_, writeD_lane h.thread d 1⟩
      simp only [compared_quiet h.thread q, checkpoint_settled h.thread q, hr, if_pos hst, Bool.true_eq_false, if_false]
    case begins =>
      refine (run_lone h _).trans ?_
      simp only [compared_quiet h.thread q, checkpoint_settled h.thread q, hr, hst, Bool.true_eq_false, if_false, ne_eq, not_true_eq_false]
    case spread =>
      refine ⟨s.modThread t fun x => { x with hold := false }, ?_, modThread_lane fun _ => rfl⟩
      show Host.Outcome.next _ = _
      simp [hw]
    case late =>
      show Host.Outcome.next (if s.resWait.contains (.winset t) then _ else s) = _
      rw [hw]
      rfl
  case halt =>
    intro s c gn tm grp l th g err gr t h q hh hg he hs
    have hs : s.NoCommands := hs
    refine ⟨s.endGrid c gn (if err then stGridKilled else stOk), (runAll_lone h fun s ts => s.halt err ts).trans (congrArg _ (halt_quiet h.thread q hh err)), (endGrid_of_running hs (ending_of_grid? hg he)).2.gone,
      fun u hu => endGrid_thread?_other hs hg he hu, endGrid_no_team hs hg he, fun c' k n hk => endGrid_team?_other hs hg he hk,
      (endGrid_lists hs hg he).2.2.2, _, endGrid_marked hs hg he, rfl, rfl⟩

end Sys2Proof.Machine
end

section
/-! Recovery regions: their four instructions, the rollback, and the commit (R412 to R419). -/

namespace Sys2Proof.Machine

open Sys2Proof Sys2Proof.Safety

/-! ### The checks that the four instructions share -/

section Gate
variable {s : State} {t : Tid} {th : Thread} {nest : Thread → Bool} {k : State → Thread → State} (ht : s.thread? t = some th)
include ht

theorem regionGate_handler (hh : th.h.hmode = true) : s.regionGate t nest k = s.raise t .handlerState 0 := by
  simp only [State.regionGate, ht, hh, if_true]

theorem regionGate_nest (hh : th.h.hmode = false) (ha : th.inRunAhead = false) (hn : nest th = true) : s.regionGate t nest k = s.raise t .rgnNest 0 := by
  simp only [State.regionGate, ht, hh, ha, hn, Bool.false_eq_true, if_false, if_true]

theorem regionGate_open (hh : th.h.hmode = false) (ha : th.inRunAhead = false) (hn : nest th = false) : s.regionGate t nest k = k s th := by
  simp only [State.regionGate, ht, hh, ha, hn, Bool.false_eq_true, if_false]

end Gate

section Open
variable {s : State} {t : Tid} {th : Thread}

/-- An update of one thread, in its own terms. -/
theorem modThread_lane_at {f g : Thread → Thread} (ht : s.thread? t = some th) (hf : ∀ x, (f x).id = x.id) (hg : f th = g th) :
    LanesDo [t] g s (s.modThread t f) :=
  lanesDo_congr (modThread_lane hf) fun u hu x hx => by
    obtain rfl := List.mem_singleton.mp hu
    obtain rfl : th = x := Option.some.inj (ht.symm.trans hx)
    exact hg

/-! ### RBEGIN -/

/-- A region opens, and RBEGIN writes its attempt. -/
theorem openRegion_lane (ht : s.thread? t = some th) (abort : Thread → DWord) (d : XReg) :
    LanesDo [t] (fun x =>
      { (x.openRegion (abort x)).advance with
        regs := x.regs.set32 d (BitVec.ofNat 32 th.pendingAttempt), shadow := x.shadow.map fun r => r.set32 d (BitVec.ofNat 32 th.pendingAttempt) })
      s ((s.modThread t fun th => th.openRegion (abort th)).writeD t d (BitVec.ofNat 32 th.pendingAttempt)) :=
  lanesDo_trans (modThread_lane (f := fun x => x.openRegion (abort x)) fun _ => rfl)
    (writeD_lane (thread?_modThread_self (f := fun x => x.openRegion (abort x)) ht (show th.id = t from thread?_id ht)) d _)

/-! ### RKEEP -/

theorem keptCount_eq (th : Thread) : th.keptCount = (th.regions.map fun r => r.kept.length).sum := by
  rw [Thread.keptCount, List.sum_eq_foldl, List.foldl_map]

section Keep
variable {r : Region} {rest : List Region} (hr : th.regions = r :: rest)
include hr

theorem regionKeep_partial (hp : r.partial_ = true) (a n : Nat) : s.regionKeep t th a n = s.advance t := by
  simp only [State.regionKeep, hr, List.headD_cons, hp, if_true]

theorem regionKeep_full (hp : r.partial_ = false) {a n : Nat} (hfull : 64 < th.keptCount + (th.newKept a n).length) :
    s.regionKeep t th a n = (s.settleRegions t).1 := by
  simp only [State.regionKeep, hr, List.headD_cons, hp, Bool.false_eq_true, if_false, hfull, if_true]

theorem regionKeep_keeps (ht : s.thread? t = some th) (hp : r.partial_ = false) {a n : Nat} (hfit : th.keptCount + (th.newKept a n).length ≤ 64) :
    LanesDo [t] (fun x =>
      { x.advance with regions := { r with kept := r.kept ++ (th.newKept a n).map fun y => (y, getAt 0 x.regs.x y) } :: rest })
      s (s.regionKeep t th a n) := by
  have heq : s.regionKeep t th a n = s.modThread t fun x => Thread.advance
      (x.inner fun r => { r with kept := r.kept ++ (th.newKept a n).map fun y => (y, getAt 0 x.regs.x y) }) := by
    simp only [State.regionKeep, hr, List.headD_cons, hp, Bool.false_eq_true, if_false, if_neg (Nat.not_lt.mpr hfit)]
    exact modThread_modThread _ _ _ _ (by intro; rfl)
  rw [heq]
  exact modThread_lane_at ht (fun _ => rfl) (by simp only [Thread.inner, hr, Thread.advance])

end Keep

/-! ### The rollback of the innermost region (R414) -/

/-- The same cores, as far as they can be seen. -/
structure SameCores (s s' : State) : Prop where
  rest : s' = { s with cores := s'.cores }
  core : ∀ n, s'.core n = s.core n

theorem sameCores_refl (s : State) : SameCores s s := ⟨rfl, fun _ => rfl⟩

/-- A core with a region's tile units restored. -/
def Core.undone (r : Region) (c : Core) : Core :=
  { c with
    acc := r.units.foldl (fun m u => m.write (512 * u.1) u.2.1) c.acc
    accBad := (c.accBad.filter fun a => !(r.units.any fun u => a / 512 == u.1)) ++ r.units.flatMap fun u => u.2.2 }

theorem undone_empty {r : Region} (hu : r.units = []) (k : Core) : k.undone r = k := by
  simp [Core.undone, hu]

theorem undoTiles_eq {r : Region} (ht : s.thread? t = some th) (ha : r.allocs = []) : s.undoTiles t r = s.modCore th.home (Core.undone r) := by
  simp only [State.undoTiles, ht, ha, List.isEmpty_nil, if_true]
  rfl

theorem undoTiles_empty {r : Region} (ht : s.thread? t = some th) (hu : r.units = []) (ha : r.allocs = []) : SameCores s (s.undoTiles t r) := by
  rw [undoTiles_eq ht ha]
  refine ⟨modCore_rest s _ _, fun n => ?_⟩
  by_cases hn : n = th.home
  · rw [hn, core_modCore_self s th.home (Core.undone r) fun _ => rfl, undone_empty hu]
  · exact core_modCore_other s _ _ (Core.undone r) (fun _ => rfl) hn

/-- Registers after a rollback: those that the region kept, and its predicates. -/
def Region.put (r : Region) (x : Regs) : Regs := { x.putAll r.kept [] with p := r.preds }

/-- A thread whose innermost region has rolled back. -/
def Thread.rolledBack (r : Region) (rest : List Region) (th : Thread) : Thread :=
  { th with regs := r.put th.regs, shadow := th.shadow.map r.put, regions := rest }

/-- A thread's region accesses at the homes are given up. -/
def State.withoutHeld (s : State) (t : Tid) : State :=
  { s with held := s.held.filter fun h => match h.who with
      | .region x _ => x != t
      | _ => true }

theorem withoutHeld_none (hh : s.held = []) (t : Tid) : s.withoutHeld t = s := by
  have hnone : (s.withoutHeld t).held = s.held := by
    rw [State.withoutHeld, hh]
    rfl
  exact congrArg (fun h => ({ s with held := h } : State)) hnone

theorem rollback_eq {r : Region} {rest : List Region} (ht : s.thread? t = some th) (hr : th.regions = r :: rest) (ho : th.ops = []) :
    s.rollback t 0 = (((s.undoTiles t r).withoutHeld t).modThread t fun x =>
      { x with regs := r.put x.regs, shadow := x.shadow.map r.put, regions := x.regions.drop 1 }, some r) := by
  simp only [State.rollback, landAll_idle ht ho, ht, hr, Nat.zero_add, List.take_succ_cons, List.take_zero, List.foldl_cons, List.foldl_nil,
    List.getLast?_singleton]
  rfl

/-- The innermost region rolls back: the thread, and nothing else. -/
theorem rollback_inner {r : Region} {rest : List Region} (ht : s.thread? t = some th) (hr : th.regions = r :: rest) (ho : th.ops = [])
    (hu : r.units = []) (ha : r.allocs = []) (hh : s.held = []) :
    ∃ s1 s2, s.rollback t 0 = (s2, some r) ∧ SameCores s s1 ∧ LanesDo [t] (Thread.rolledBack r rest) s1 s2 := by
  have hsame := undoTiles_empty ht hu ha
  have hheld : (s.undoTiles t r).held = [] := by rw [hsame.rest, hh]
  have ht1 : (s.undoTiles t r).thread? t = some th := by rw [hsame.rest]; exact ht
  refine ⟨s.undoTiles t r, _, rollback_eq ht hr ho, hsame, ?_⟩
  rw [withoutHeld_none hheld]
  exact modThread_lane_at ht1 (by intro; rfl) (by simp only [Thread.rolledBack, hr, List.drop_succ_cons, List.drop_zero])

end Open

/-! ### RABORT -/

theorem regionAbort_rolls {s : State} {t : Tid} {th : Thread} {r : Region} {rest : List Region} (ht : s.thread? t = some th)
    (hr : th.regions = r :: rest) (hp : r.partial_ = false) (ho : th.ops = []) (hu : r.units = []) (ha : r.allocs = []) (hh : s.held = []) :
    (s.regionAbort t).mem = s.mem ∧
    (s.regionAbort t).thread? t = some { th.rolledBack r rest with pc := r.abort, arr := .checked } := by
  obtain ⟨s1, s2, heq, hsame, hlane⟩ := rollback_inner ht hr ho hu ha hh
  have ht1 : s1.thread? t = some th := by rw [hsame.rest]; exact ht
  have ht2 := hlane.lane t List.mem_cons_self th ht1
  have habort : s.regionAbort t = s2.transfer t r.abort := by
    simp only [State.regionAbort, ht, hr, List.headD_cons, hp, Bool.false_eq_true, if_false, heq]
  rw [habort]
  refine ⟨?_, thread?_modThread_self (f := fun x => x.transfer r.abort true) ht2 (show th.id = t from thread?_id ht)⟩
  calc (s2.transfer t r.abort).mem = s2.mem := rfl
    _ = s1.mem := by rw [hlane.rest]
    _ = s.mem := by rw [hsame.rest]

/-! ### An entry of the error log -/

section Log
variable {s s' : State} {th x : Thread}

theorem logError_rest (s : State) (core : Nat) (e : ErrEntry) : s.logError core e = { s with cores := (s.logError core e).cores } := modCore_rest s core _

theorem logError_first {core : Nat} (h : (s.core core).errlog = []) (e : ErrEntry) : ((s.logError core e).core core).errlog = [e] := by
  rw [State.logError, core_modCore_self _ _ _ fun k => by split <;> rfl]
  simp [h]

/-- An entry names its thread, its context and its team's slot. -/
theorem errEntry_congr (hr : s' = { s with cores := s'.cores, threads := s'.threads }) (hb : ∀ n, s'.core n = s.core n) (hid : x.id = th.id)
    (hcore : x.core = th.core) (hhome : x.home = th.home) (kind action attempt : Nat) (loc : DWord) :
    s'.errEntry x kind action attempt loc = s.errEntry th kind action attempt loc := by
  have hbind (n : Nat) : (s'.core n).bind = (s.core n).bind := by rw [hb]
  have hteams (c g k : Nat) : s'.team? c g k = s.team? c g k := by rw [hr]; rfl
  have hteam : s'.teamOf th.id = s.teamOf th.id := by
    cases th.id with
    | thr c g k _ _ => exact hteams c g k
    | scalar k => simp only [State.teamOf, hbind, hteams]
  have hslot : s'.tslot x = s.tslot th := by
    have hscalar : x.isScalar = th.isScalar := congrArg Tid.isScalar hid
    simp only [State.tslot, hscalar, hcore, hhome, hid, hteam]
  have hlane : x.lane = th.lane := congrArg Tid.lane hid
  simp only [State.errEntry, hid, hslot, hlane, ctxOf_congr hbind]

end Log

/-! ### The commit (R415) -/

section Commit
variable {s : State} {t : Tid} {th : Thread} {r : Region}

/-- What a commit of one region that holds nothing finds. -/
theorem commitAll_single (ht : s.thread? t = some th) (hr : th.regions = [r]) (hh : s.held = []) (hheld : r.held = []) (hrest : r.rest = []) :
    s.commitAll t = (s, if r.reads.all (s.markHolds th.core) = true then .ok else .conflict) := by
  have hnone : th.held = [] := by simp [Thread.held, hr, hheld, hrest]
  have hun : s.unanswered t = false := by simp [State.unanswered, hh]
  simp only [State.commitAll, ht, hr, List.flatMap_cons, List.flatMap_nil, List.append_nil, hrest, hun, hnone, List.filter_nil, State.performAll,
    State.performSome, Bool.false_eq_true, if_false, Bool.not_eq_true']
  cases r.reads.all (s.markHolds th.core) <;> rfl

/-- The thread that waited for its commit goes on. -/
def State.committed (s : State) (t : Tid) : State :=
  { s.modThread t (fun th => { th with hold := false }) with resWait := s.resWait.filter fun w => w != .commit t }

/-- A commit whose marks hold closes the region. -/
theorem commitDone_ok (ht : s.thread? t = some th) (hc : s.commitAll t = (s, .ok)) :
    s.commitDone t = (s.committed t).modThread t fun th => { th with regions := [] } := by
  simp only [State.commitDone, ht, hc]
  rfl

theorem commitDone_conflict (ht : s.thread? t = some th) (hc : s.commitAll t = (s, .conflict)) :
    s.commitDone t = (s.committed t).conflict t th.segpc th.pc := by
  simp only [State.commitDone, ht, hc]
  rfl

/-- A conflict with attempts left: the outermost region rolls back, the log is told, and the thread is at its RBEGIN. -/
theorem conflict_retries (ht : s.thread? t = some th) (hr : th.regions = [r]) (hp : r.partial_ = false) (hatt : r.attempt < 3) (ho : th.ops = [])
    (hu : r.units = []) (ha : r.allocs = []) (hh : s.held = []) (inst next : DWord) :
    let s' := s.conflict t inst next
    s'.mem = s.mem ∧ s'.resWait = s.resWait ∧
    s'.thread? t = some { th.rolledBack r [] with pc := r.start, arr := .checked, attempt := some (r.start, 0, r.attempt + 1), hold := false } ∧
    ((s.core th.core).errlog = [] → (s'.core th.core).errlog = [s.errEntry th 5 1 r.attempt 0]) := by
  intro s'
  obtain ⟨s1, s2, heq, hsame, hlane⟩ := rollback_inner ht hr ho hu ha hh
  have ht1 : s1.thread? t = some th := by rw [hsame.rest]; exact ht
  have ht2 := hlane.lane t List.mem_cons_self th ht1
  have hrest : s2 = { s with cores := s2.cores, threads := s2.threads } := by rw [hlane.rest, hsame.rest]
  have hcores (n : Nat) : s2.core n = s.core n := by
    rw [hlane.rest]
    exact hsame.core n
  have hentry : s2.errEntry (th.rolledBack r []) 5 1 r.attempt 0 = s.errEntry th 5 1 r.attempt 0 :=
    errEntry_congr hrest hcores rfl rfl rfl 5 1 r.attempt 0
  have hretry : s' = (s2.logError th.core (s.errEntry th 5 1 r.attempt 0)).retry t r := by
    have hlog : s2.logFor t 5 1 r.attempt 0 = s2.logError th.core (s.errEntry th 5 1 r.attempt 0) := by
      rw [← hentry]
      simp only [State.logFor, ht2]
      rfl
    simp only [s', State.conflict, ht, hr, List.getLast?_singleton, hp, Bool.false_eq_true, if_false, List.length_singleton, Nat.sub_self, heq,
      hatt, if_true, hlog]
  have ht3 : (s2.logError th.core (s.errEntry th 5 1 r.attempt 0)).thread? t = some (th.rolledBack r []) := by
    rw [logError_rest]
    exact ht2
  rw [hretry]
  refine ⟨?_, ?_, ?_, fun hlog => logError_first ((hcores th.core).symm ▸ hlog) _⟩
  · exact (show _ = (s2.logError th.core _).mem from rfl).trans (by rw [logError_rest, hrest])
  · exact (show _ = (s2.logError th.core _).resWait from rfl).trans (by rw [logError_rest, hrest])
  · exact thread?_modThread_self ht3 (show th.id = t from thread?_id ht)

end Commit

/-- Settles O51: the shared checks, then each instruction's effect on the regions; the commit is what its read marks say. -/
theorem regionInstructions : Obligations.RegionInstructions := by
  unfold Obligations.RegionInstructions
  intro s t th g d a n off slot one more kept
  refine ⟨fun i hi h hh => ?handler, fun i hi h hh => ?nest, fun hh => ⟨fun h hd => ?begins, fun r rest hr hd => ⟨fun h => ?keeps, fun h => ?ends, fun h => ?aborts⟩⟩,
    fun ht hw ha hheld r hr hp hrh hrr => ⟨fun hok => ?commits, fun hbad hatt ho hu hal => ?conflicts⟩⟩
  case handler =>
    rcases hi with rfl | rfl | rfl | rfl <;> exact (run_lone h _).trans (congrArg _ (regionGate_handler h.thread hh))
  case nest =>
    rcases hi with ⟨rfl, hd⟩ | ⟨rfl | rfl | rfl, hd⟩ <;>
      exact (run_lone h _).trans (congrArg _ (regionGate_nest h.thread hh h.clean.ahead (by simp [hd])))
  case begins =>
    intro k
    refine ⟨_, (run_lone h _).trans (congrArg _ (regionGate_open h.thread hh h.clean.ahead (by simp [hd]))), lanesDo_congr
      (openRegion_lane h.thread (fun x => branchTarget x.pc off slot) d) fun u hu x hx => ?_⟩
    obtain rfl := List.mem_singleton.mp hu
    obtain rfl : th = x := Option.some.inj (h.thread.symm.trans hx)
    rfl
  case keeps =>
    have hexec : exec (.rkeep g a n) s = .next (s.regionKeep t th a.toNat (n.toNat + 1)) :=
      (run_lone h _).trans (congrArg _ (regionGate_open h.thread hh h.clean.ahead (by simp [hd])))
    have hkept : kept = th.keptCount := (keptCount_eq th).symm
    refine ⟨fun hp => ⟨_, hexec.trans (congrArg _ (regionKeep_partial hr hp _ _)), modThread_lane fun _ => rfl⟩, fun hp hfit => ⟨_, hexec, ?_⟩,
      fun hp hfull => ?_⟩
    · rw [hkept] at hfit
      exact regionKeep_keeps hr h.thread hp hfit
    · rw [hkept] at hfull
      exact hexec.trans (congrArg _ (regionKeep_full hr hp hfull))
  case ends =>
    have hexec : exec (.rend g) s = .next (if 1 < th.depth then s.modThread t fun th => { th.advance with regions := mergeRegions th.regions }
        else s.holdAt t (.commit t)) :=
      (run_lone h _).trans (congrArg _ (regionGate_open h.thread hh h.clean.ahead (by simp [hd])))
    refine ⟨fun o rest' hd hrest => ⟨_, hexec.trans (congrArg _ (if_pos hd)), modThread_lane_at h.thread (fun _ => rfl) ?_⟩, fun hd => ?_⟩
    · simp only [hr, hrest, mergeRegions]
    · obtain ⟨s', heq, hlane⟩ := holdAt_lane (s := s) (s1 := s) (t := t) rfl (.commit t)
      exact ⟨s', hexec.trans (congrArg _ ((if_neg (by omega)).trans heq)), hlane⟩
  case aborts =>
    have hexec : exec (.rabort g) s = .next (s.regionAbort t) :=
      (run_lone h _).trans (congrArg _ (regionGate_open h.thread hh h.clean.ahead (by simp [hd])))
    refine ⟨fun hp => hexec.trans (congrArg _ ?_), fun hp ho hu hal hheld => ⟨_, hexec, regionAbort_rolls h.thread hr hp ho hu hal hheld⟩⟩
    simp only [State.regionAbort, h.thread, hr, List.headD_cons, hp, if_true]
  case commits =>
    have hexec : exec (.regionCommitDone t) s = .next (s.commitDone t) := by
      show Host.Outcome.next _ = _
      simp only [hw, List.contains_cons, beq_self_eq_true, Bool.true_or, if_true, ht, ha, Bool.false_eq_true, if_false]
    have hdone := commitDone_ok ht ((commitAll_single ht hr hheld hrh hrr).trans (by rw [if_pos hok]))
    have hwaits : (s.committed t).resWait = [] := by simp [State.committed, hw]
    refine ⟨(s.modThread t fun th => { th with hold := false }).modThread t fun th => { th with regions := [] },
      hexec.trans (congrArg _ (hdone.trans ?_)), ?_⟩
    · rw [← hwaits]
      rfl
    · rw [modThread_modThread _ _ _ _ (by intro; rfl)]
      exact modThread_lane fun _ => rfl
  case conflicts =>
    have hexec : exec (.regionCommitDone t) s = .next (s.commitDone t) := by
      show Host.Outcome.next _ = _
      simp only [hw, List.contains_cons, beq_self_eq_true, Bool.true_or, if_true, ht, ha, Bool.false_eq_true, if_false]
    have hdone := commitDone_conflict ht ((commitAll_single ht hr hheld hrh hrr).trans (by rw [hbad]; rfl))
    have hwaits : (s.committed t).resWait = [] := by simp [State.committed, hw]
    have ht1 : (s.committed t).thread? t = some { th with hold := false } :=
      thread?_modThread_self (f := fun th => { th with hold := false }) ht (show th.id = t from thread?_id ht)
    obtain ⟨hmem, hres, hthread, hlog⟩ := conflict_retries ht1 hr hp hatt ho hu hal hheld th.segpc th.pc
    exact ⟨_, hexec.trans (congrArg _ hdone), hmem, hres.trans hwaits, _, hthread, rfl, rfl, rfl, rfl, rfl, hlog⟩

end Sys2Proof.Machine
end

section
/-! The translation control block, what a home holds, the side log's events, and the ticks (R269 to R273, R286, R317). -/

namespace Sys2Proof.Machine

open Sys2Proof Sys2Proof.Safety

/-! ### XROOT and XINVAL (R269, R270) -/

theorem xroot_bits (v : DWord) (i : Nat) :
    (v &&& 0x000FFFFFFFFFFF81).getLsbD i = (v.getLsbD i && decide (i = 0 ∨ 7 ≤ i ∧ i ≤ 51)) := by
  rw [BitVec.getLsbD_and]
  by_cases hi : i < 64
  · have hmask : ∀ i < 64, (0x000FFFFFFFFFFF81 : DWord).getLsbD i = decide (i = 0 ∨ 7 ≤ i ∧ i ≤ 51) := by decide
    rw [hmask i hi]
  · rw [BitVec.getLsbD_of_ge v i (by omega), Bool.false_and, Bool.false_and]

theorem mem_dropTlb_all {s : State} {lo n : Nat} {x : Nat × Nat × Nat × DWord × Nat × Nat} :
    x ∈ (s.dropTlb (fun _ => true) lo n).tlb ↔ x ∈ s.tlb ∧ (x.2.1 + 2 ^ x.2.2.1 ≤ lo ∨ lo + n ≤ x.2.1) := by
  simp [State.dropTlb]

/-! ### What a home holds on a granule (R273) -/

section Granule
variable {s : State}

/-- Nothing of a side log waits at a home: there is nothing to wake. -/
theorem wakeLog_idle (h : ∀ k ∈ s.cores, k.sidelog.any (·.held) = false) (lo n : Nat) : s.wakeLog lo n = s := by
  have hmap : s.cores.map (fun k => if k.sidelog.any (·.held) then
      { k with sidelog := k.sidelog.map fun e => if lo ≤ e.ia ∧ e.ia < lo + n then { e with held := false } else e } else k) = s.cores := by
    conv_rhs => rw [← List.map_id s.cores]
    exact List.map_congr_left fun k hk => by rw [h k hk]; rfl
  exact congrArg (fun c => ({ s with cores := c } : State)) hmap

theorem replayHeld_none {p : HeldAcc → Bool} (h : s.held = []) : s.replayHeld p = s := by
  have hheld : s.held.filter (fun h => !p h) = s.held := by rw [h]; rfl
  have hnone : s.held.filter p = [] := by rw [h]; rfl
  simp only [State.replayHeld, hheld, hnone, List.foldl_nil]

variable {h : HeldAcc} {p : HeldAcc → Bool}

theorem replayHeld_other (hh : s.held = [h]) (hp : p h = false) : s.replayHeld p = s := by
  have hheld : s.held.filter (fun h => !p h) = s.held := by simp [hh, hp]
  have hnone : s.held.filter p = [] := by simp [hh, hp]
  simp only [State.replayHeld, hheld, hnone, List.foldl_nil]

theorem replayHeld_one {t : Tid} (hh : s.held = [h]) (hp : p h = true) (hw : h.who = .thread t) :
    s.replayHeld p = State.redo { s with held := [] } h := by
  have hregion : h.isRegion = false := by simp [HeldAcc.isRegion, hw]
  simp [State.replayHeld, hh, hp, hregion]

/-- A held load, LR or atomic, or a group's read, asks its home again. -/
theorem redo_request {t : Tid} (hw : h.who = .thread t) (hb : h.op.bytes ≠ 0) : s.redo h = s.request t h.ia none h.op := by
  obtain ⟨who, ctx, ia, op, kind, after⟩ := h
  obtain rfl : who = .thread t := hw
  cases op with
  | fetch va => exact absurd rfl hb
  | write e => exact absurd rfl hb
  | _ => rfl

theorem redo_fetch {t : Tid} {va : DWord} {d : Dest} (hw : h.who = .thread t) (ho : h.op = .fetch va) (hr : s.routeAll h.ia false = .to d) :
    s.redo h = s.pushCompl t [] none none := by
  simp only [State.redo, hw, ho, hr]

/-- ABANDON completes a thread's held access with PAGE_FAULT. -/
theorem abandonHeld_thread {t : Tid} (hw : h.who = .thread t) :
    s.abandonHeld h = s.pushCompl t [] none (some (.pageFault, BitVec.ofNat 64 (h.ia / 4096 * 4096))) := by
  simp only [State.abandonHeld, hw]

theorem noLogs (h : ∀ k ∈ s.cores, k.sidelog = []) : s.cores.filter (fun k => !k.sidelog.isEmpty) = [] :=
  List.filter_eq_nil_iff.mpr fun k hk => by simp [h k hk]

theorem abandonGranule_one {t : Tid} {g : Nat} (hh : s.held = [h]) (hw : h.who = .thread t) (hk : h.kind.isSome = true) (hg : h.ia / 4096 = g)
    (hlog : ∀ k ∈ s.cores, k.sidelog = []) :
    s.abandonGranule g = State.pushCompl { s.forgetReports g with held := [] } t [] none (some (.pageFault, BitVec.ofNat 64 (4096 * g))) := by
  subst hg
  have hhit : (h.kind.isSome && h.ia / 4096 == h.ia / 4096) = true := by simp [hk]
  have hcores := noLogs hlog
  simp only [State.abandonGranule, hh, List.filter_cons, List.filter_nil, hhit, Bool.not_true, Bool.false_eq_true, if_false, if_true, List.foldl_cons,
    List.foldl_nil, abandonHeld_thread hw, State.pushCompl, State.forgetReports, hcores, Nat.mul_comm 4096]

theorem abandonGranule_other {g : Nat} (hh : s.held = [h]) (hg : h.ia / 4096 ≠ g) (hlog : ∀ k ∈ s.cores, k.sidelog = []) :
    s.abandonGranule g = { s.forgetReports g with held := [h] } := by
  have hmiss : (h.kind.isSome && h.ia / 4096 == g) = false := by simp [hg]
  have hcores := noLogs hlog
  simp only [State.abandonGranule, hh, List.filter_cons, List.filter_nil, hmiss, Bool.not_false, Bool.false_eq_true, if_false, if_true,
    List.foldl_nil, State.forgetReports, hcores]

end Granule

/-! ### A side log with one write (R272, R273) -/

section Log
variable {s : State} {k : Core} {e : SideEnt} {w : Eff} {g : Nat}

theorem wakeLog_one (hc : s.cores = [k]) (hl : k.sidelog = [e]) (hg : e.ia / 4096 = g) :
    s.wakeLog (4096 * g) 4096 = { s with cores := [{ k with sidelog := [{ e with held := false }] }] } := by
  have hin : 4096 * g ≤ e.ia ∧ e.ia < 4096 * g + 4096 := by omega
  simp only [State.wakeLog, hc, List.map_cons, List.map_nil, hl, List.any_cons, List.any_nil, Bool.or_false, hin, and_self, if_true]
  cases hh : e.held with
  | true => simp only [if_true]
  | false =>
    have hsame : { e with held := false } = e := by rw [← hh]
    simp only [Bool.false_eq_true, if_false, hsame, ← hl]

theorem abandonLog_one (ho : e.op = .write w) (hg : e.ia / 4096 = g) : abandonLog g [] [e] = ([], [e.t]) := by
  simp [abandonLog, SideEnt.isWrite, ho, hg]

theorem causeFor_resident {t : Tid} {th : Thread} (ht : s.thread? t = some th) (hl : th.loc = .resident) (c : Cause) (info : DWord) :
    s.causeFor t c info = s.modThread t fun x => { x with next := some (x.next.getD (c, info)) } := by
  simp only [State.causeFor, ht, hl]

theorem abandonGranule_log (hh : s.held = []) (hc : s.cores = [k]) (hl : k.sidelog = [e]) (ho : e.op = .write w) (hg : e.ia / 4096 = g) :
    s.abandonGranule g = State.causeFor { s.forgetReports g with cores := [{ k with sidelog := [] }] } e.t .pageFault (BitVec.ofNat 64 (4096 * g)) := by
  have hnone : s.held.filter (fun h => h.kind.isSome && h.ia / 4096 == g) = [] := by rw [hh]; rfl
  have hall : s.held.filter (fun h => !(h.kind.isSome && h.ia / 4096 == g)) = s.held := by rw [hh]; rfl
  simp only [State.abandonGranule, hnone, hall, List.foldl_nil, State.forgetReports, hc, List.filter_cons, List.filter_nil, hl, List.isEmpty_cons,
    Bool.not_false, if_true, List.foldl_cons, abandonLog_one ho hg]
  refine congrArg (State.causeFor · e.t .pageFault (BitVec.ofNat 64 (4096 * g))) ?_
  simp [State.modCore]

end Log

/-! ### The side log's events (R272, R317) -/

section Perform
variable {s s1 : State} {core : Nat} {e : SideEnt} {rest : List SideEnt} (hlog : (s.core core).sidelog = e :: rest)
include hlog

theorem firstOf_head {p : SideEnt → Bool} (hp : p e = true) : firstOf (s.core core).sidelog p [] = some e := by
  rw [hlog, firstOf]
  simp only [firstOf.go, List.contains_nil, Bool.false_eq_true, if_false, hp, if_true]

theorem performMarker_first {d : FenceDom} (ho : e.op = .marker d) (hout : ∀ o ∈ s.out, o.t = e.t → o.inDom d = false) :
    s.performMarker core = some (s.dropLog core e) := by
  have hclear : (s.out.any fun o => o.t == e.t && o.inDom d) = false := List.any_eq_false.mpr fun o ho => by
    simp only [Bool.and_eq_true, beq_iff_eq, not_and, Bool.not_eq_true]
    exact hout o ho
  rw [State.performMarker, firstOf_head hlog (by simp [ho, hclear])]
  rfl

variable (hh : e.held = false)
include hh

theorem performLog_request {o : HeldOp} (ho : e.request? = some o) : s.performLog core = (s.dropLog core e).request e.t e.ia e.peer o := by
  obtain ⟨t, ia, peer, op, held⟩ := e
  cases op with
  | write w => cases ho
  | marker d => cases ho
  | load n sx | lr n | atomic a n b c =>
    obtain rfl : held = false := hh
    have hnext : s.nextLog core = some _ := firstOf_head hlog rfl
    simp only [State.performLog, hnext, ho]

section Store
variable {ia : Nat} {peer : Option Nat} {data : List Byte} (hs : ∀ k ∈ s.cores, k.slots = []) (ho : e.op = .write (.store ia peer data)) (hp : e.peer = peer)
include hs ho hp

theorem performLog_done (hw : s.writeDo core e.t (.store ia peer data) = (s1, none)) : s.performLog core = s1.dropLog core e := by
  have hnext : s.nextLog core = some e := firstOf_head hlog (by simp [hh, ho])
  simp only [State.performLog, hnext, ho, hp]
  cases peer <;> simp [recall_none hs, State.saveSource, noCommands hs, hw]

theorem performLog_faults {f : FaultKind} {l : Nat} {x : DWord} (hw : s.writeDo core e.t (.store ia peer data) = (s, some (some (f, l, x)))) :
    s.performLog core = (s.report true (s.ctxOf e.t) e.ia .store f l x).modCore core fun c =>
      { c with sidelog := c.sidelog.map fun y => if y = e then { y with held := true } else y } := by
  have hnext : s.nextLog core = some e := firstOf_head hlog (by simp [hh, ho])
  simp only [State.performLog, hnext, ho, hp]
  cases peer <;> simp [recall_none hs, State.saveSource, noCommands hs, hw]

end Store
end Perform

/-! ### The three requests of a management core on a granule (R273) -/

section Resolve
variable {s : State} {h : HeldAcc} {t : Tid} {g : Nat}

theorem forgetReports_wakeLog (hlog : ∀ k ∈ s.cores, k.sidelog = []) (lo n : Nat) : (s.forgetReports g).wakeLog lo n = s.forgetReports g :=
  wakeLog_idle (fun k hk => by rw [hlog k hk]; rfl) lo n

theorem xresolve_held (hh : s.held = [h]) (hw : h.who = .thread t) (hk : h.kind.isSome = true) (hg : h.ia / 4096 = g)
    (hlog : ∀ k ∈ s.cores, k.sidelog = []) : exec (.xresolve g) s = .next (State.redo { s.forgetReports g with held := [] } h) := by
  show Host.Outcome.next (State.replayHeld ((s.forgetReports g).wakeLog (4096 * g) 4096) _) = _
  rw [forgetReports_wakeLog hlog, replayHeld_one (s := s.forgetReports g) (p := fun h => h.kind.isSome && h.ia / 4096 == g) hh (by simp [hk, hg]) hw]

theorem xresolve_elsewhere (hh : s.held = [h]) (hg : h.ia / 4096 ≠ g) (hlog : ∀ k ∈ s.cores, k.sidelog = []) :
    exec (.xresolve g) s = .next (s.forgetReports g) := by
  show Host.Outcome.next (State.replayHeld ((s.forgetReports g).wakeLog (4096 * g) 4096) _) = _
  rw [forgetReports_wakeLog hlog, replayHeld_other (s := s.forgetReports g) (p := fun h => h.kind.isSome && h.ia / 4096 == g) hh (by simp [hg])]

end Resolve

/-! ### Migration (R274) -/

section Migration

theorem getD_bytesOfNat {n v i : Nat} (h : i < n) : (bytesOfNat n v).getD i 0 = BitVec.ofNat 8 (v / 2 ^ (8 * i)) := by
  induction n generalizing v i with
  | zero => omega
  | succ n ih =>
    cases i with
    | zero => simp [bytesOfNat]
    | succ i =>
      have hdiv : v / 256 / 2 ^ (8 * i) = v / 2 ^ (8 * (i + 1)) := by
        rw [Nat.div_div_eq_div_mul, show 8 * (i + 1) = 8 + 8 * i from by ring, pow_add, show (2 : Nat) ^ 8 = 256 from rfl]
      rw [bytesOfNat, List.getD_cons_succ, ih (by omega), hdiv]

/-- The leaf's copies, each of 8 bytes, apart from each other. -/
def Apart (copies : List Nat) : Prop := copies.Pairwise fun a b => a + 8 ≤ b

theorem leafCopies_apart (ia k level addr : Nat) : Apart (leafCopies ia k level addr) := by
  rw [Apart, leafCopies, seqFrom_map, List.map_map, List.pairwise_map]
  exact List.pairwise_lt_range.imp fun h => by simp only [Function.comp_apply]; omega

/-- The copy, if any, that a byte belongs to. -/
def copyAt (copies : List Nat) (x : Nat) : Option Nat := copies.find? fun a => decide (a ≤ x) && decide (x < a + 8)

theorem get_leaf_written {copies : List Nat} (ha : Apart copies) (e : DWord) {m : Memory} (w : m.wf = true) (x : Nat) :
    Memory.get (copies.foldl (fun m a => m.write a (bytesOfNat 8 e.toNat)) m) x =
      (copyAt copies x).elim (m.get x) fun a => BitVec.ofNat 8 (e.toNat / 2 ^ (8 * (x - a))) := by
  induction copies generalizing m with
  | nil => rfl
  | cons a l ih =>
    obtain ⟨hfirst, hrest⟩ := List.pairwise_cons.mp ha
    rw [List.foldl_cons, ih hrest (write_wf w a _), get_write w, bytesOfNat_length]
    by_cases hx : a ≤ x ∧ x < a + 8
    · have hnone : copyAt l x = none := List.find?_eq_none.mpr fun b hb => by
        have := hfirst b hb
        simp only [Bool.and_eq_true, decide_eq_true_eq]
        omega
      have hhere : copyAt (a :: l) x = some a := List.find?_cons_of_pos (by simp [hx])
      rw [hnone, hhere, if_pos hx, getD_bytesOfNat (by omega)]
      rfl
    · have helse : copyAt (a :: l) x = copyAt l x := List.find?_cons_of_neg (by simpa using hx)
      rw [helse, if_neg hx]

variable {s : State} {c : Nat}

theorem mig_modMig_self (h : c < s.migs.length) (f : Mig → Mig) : (s.modMig c f).mig c = f (s.mig c) := getAt_setAt_self h

theorem mig_modMig_other {d : Nat} (h : d ≠ c) (f : Mig → Mig) : (s.modMig c f).mig d = s.mig d := getAt_setAt_other h

/-- What the acts of a migration change: one channel, and what the module keeps of the page. -/
def MigrationOnly (c : Nat) (y : Mig) (s s' : State) : Prop :=
  s'.mig c = y ∧ (∀ d, d ≠ c → s'.mig d = s.mig d) ∧
    s' = { s with mem := s'.mem, tlb := s'.tlb, poison := s'.poison, lineIa := s'.lineIa, migs := s'.migs }

theorem copiesOf_apart (page : Nat) : Apart (s.copiesOf page) := by
  rw [State.copiesOf]
  split
  · exact leafCopies_apart _ _ _ _
  · exact List.Pairwise.nil

theorem onlyMig (h : c < s.migs.length) (f : Mig → Mig) : MigrationOnly c (f (s.mig c)) s (s.modMig c f) :=
  ⟨mig_modMig_self h f, fun _ hd => mig_modMig_other hd f, rfl⟩

section Start
variable {dst e : DWord} {l a : Nat} (hstat : (s.mig c).stat ≠ 1)
include hstat

theorem migrationStart_fails {w : Walk} (hw : walkFrom s.mem (bitsOf (s.mig c).src.toNat 0 52) (bitsOf s.xroot.toNat 7 45 * 128) 0 5 = w)
    (hbad : (∃ k l e, w = .fault k l e) ∨ ∃ e l a, w = .leaf e l a ∧ sameSizeLeaf dst l e = false) :
    exec (.migrationStart c dst) s = .next ((s.modMig c fun m => { m with dst }).modMig c fun m => { m with stat := 3 }) := by
  have hwalk : walkFrom (s.modMig c fun m => { m with dst }).mem (bitsOf (s.mig c).src.toNat 0 52)
    (bitsOf (s.modMig c fun m => { m with dst }).xroot.toNat 7 45 * 128) 0 5 = w := hw
  refine congrArg Host.Outcome.next ?_
  simp only [hstat, if_false, hwalk]
  rcases hbad with ⟨k, l, e, rfl⟩ | ⟨e, l, a, rfl, hsize⟩
  · rfl
  · simp only [hsize, Bool.false_eq_true, if_false]

theorem migrationStart_leaf {n : Nat} (hw : walkFrom s.mem (bitsOf (s.mig c).src.toNat 0 52) (bitsOf s.xroot.toNat 7 45 * 128) 0 5 = .leaf e l a)
    (hsize : sameSizeLeaf dst l e = true) (hn : leafSize e = some n) :
    exec (.migrationStart c dst) s =
      .next (((s.modMig c fun m => { m with dst }).putLeaf (leafCopies (bitsOf (s.mig c).src.toNat 0 52) n l a) (e ||| blk) true).modMig c fun m =>
        { m with stat := 1, page := bitsOf (s.mig c).src.toNat 0 52 / 2 ^ n * 2 ^ n, old := e, new := dst }) := by
  have hwalk : walkFrom (s.modMig c fun m => { m with dst }).mem (bitsOf (s.mig c).src.toNat 0 52)
    (bitsOf (s.modMig c fun m => { m with dst }).xroot.toNat 7 45 * 128) 0 5 = .leaf e l a := hw
  refine congrArg Host.Outcome.next ?_
  simp only [hstat, if_false, hwalk, hsize, if_true, hn, Option.getD_some]

end Start

section Done
variable {n : Nat} (hstat : (s.mig c).stat = 1) (hheld : s.held = []) (hlog : ∀ k ∈ s.cores, k.sidelog = []) (hn : leafSize (s.mig c).old = some n)

theorem performPage_idle (hlog : ∀ k ∈ s.cores, k.sidelog = []) (page n : Nat) : s.performPage page n = s := by
  have hnone : (s.cores.filter fun k => k.sidelog.any fun e => decide (page ≤ e.ia) && decide (e.ia < page + n)) = [] :=
    List.filter_eq_nil_iff.mpr fun k hk => by simp [hlog k hk]
  rw [State.performPage, hnone, List.foldl_nil, wakeLog_idle fun k hk => by rw [hlog k hk]; rfl]

/-- Nothing waited for the page. -/
theorem nothing_waited {p : HeldAcc → Bool} (hheld : s.held = []) (hlog : ∀ k ∈ s.cores, k.sidelog = []) (page n : Nat) :
    (s.replayHeld p).performPage page n = s := by
  rw [replayHeld_none hheld, performPage_idle hlog]

include hstat hheld hlog hn

theorem migrationCopyDone_fails {ok : Bool} (hbad : (ok && !s.frameBad (s.mig c).page (s.mig c).old n && !s.frameLost (s.mig c).new) = false) :
    exec (.migrationCopyDone c ok) s =
      .next ((s.putLeaf (s.copiesOf (s.mig c).page) (s.mig c).old false).modMig c fun m => { m with stat := 3 }) := by
  refine congrArg Host.Outcome.next ?_
  simp only [hstat, if_true, State.endMigration, hn, Option.getD_some, hbad, Bool.false_eq_true, if_false]
  exact nothing_waited (s := State.modMig (s.putLeaf ..) ..) hheld hlog _ _

theorem migrationCopyDone_ends (hgood : s.frameBad (s.mig c).page (s.mig c).old n = false)
    (hnew : leafKind (s.mig c).new = 0) :
    exec (.migrationCopyDone c true) s =
      .next (((s.copyFrame (s.mig c).old (s.mig c).new n).putLeaf (s.copiesOf (s.mig c).page) ((s.mig c).new &&& ~~~blk) false).modMig c fun m =>
        { m with stat := 2 }) := by
  have hport : s.frameLost (s.mig c).new = false := by simp only [State.frameLost, hnew]
  refine congrArg Host.Outcome.next ?_
  simp only [hstat, if_true, State.endMigration, hn, Option.getD_some, hgood, hport, Bool.not_false, Bool.and_self]
  have hheld' : (s.copyFrame (s.mig c).old (s.mig c).new n).held = [] := by simp only [State.copyFrame, hnew]; exact hheld
  have hlog' : ∀ k ∈ (s.copyFrame (s.mig c).old (s.mig c).new n).cores, k.sidelog = [] := by simp only [State.copyFrame, hnew]; exact hlog
  exact nothing_waited (s := State.modMig (State.putLeaf ..) ..) hheld' hlog' _ _

end Done

/-- The frame copied inside module memory. -/
theorem copyFrame_home {old new : DWord} {n : Nat} (hold : leafKind old = 0) (hnew : leafKind new = 0) (w : s.mem.wf = true) :
    let s' := s.copyFrame old new n
    s' = { s with mem := s'.mem, poison := s'.poison, lineIa := s'.lineIa } ∧ s'.mem.wf = true ∧
      ∀ x, s'.mem.get x = if leafBase new n ≤ x ∧ x < leafBase new n + 2 ^ n then s.mem.get (leafBase old n + (x - leafBase new n)) else s.mem.get x := by
  have hmem : (s.copyFrame old new n).mem = Memory.copy s.mem (leafBase old n) (2 ^ n) s.mem (leafBase new n) := by
    simp only [State.copyFrame, State.frameMem, hold, hnew]
  refine ⟨by simp only [State.copyFrame, State.frameMem, hold, hnew], ?_, fun x => ?_⟩
  · rw [hmem]; exact copy_wf w _ _ _
  · rw [hmem]; exact get_copy w w _ _ _ _

end Migration

/-! ### The ticks (R286) -/

/-- What a rebase does to a core. -/
def Core.earlier (n : Nat) (k : Core) : Core := { k with slots := k.slots.map fun q => { q with pts := q.pts - n } }

theorem core_rebase (s : State) (n c : Nat) : (s.rebase n).core c = (s.core c).earlier n := by
  have hmap : (fun k : Core => if k.slots.isEmpty then k else { k with slots := k.slots.map fun c => { c with pts := c.pts - n } }) = Core.earlier n := by
    funext k
    cases hs : k.slots with
    | nil => obtain ⟨⟩ := k; simp only at hs; subst hs; rfl
    | cons q qs => simp only [List.isEmpty_cons, Bool.false_eq_true, if_false, Core.earlier, hs]
  simp only [State.core, State.rebase, hmap, List.find?_map]
  have hid : (fun x : Core => x.id == c) ∘ Core.earlier n = fun x => x.id == c := rfl
  rw [hid]
  cases s.cores.find? fun x => x.id == c with
  | none => rfl
  | some k => rfl

/-! ### The clauses -/

section Clauses
variable {s : State}

/-- A report names a kind of a granule once (R271). -/
theorem report_parts (s : State) (hold : Bool) (ctx ia l : Nat) (acc : AccKind) (f : FaultKind) (x : DWord) :
    ∃ r w, s.report hold ctx ia acc f l x = { s with reported := r, work := w } ∧ (s.told ia f = true → w = s.work) ∧
      (s.told ia f = false → w = s.work ++ [.fault ctx (ia / 64 * 64) f acc l x]) := by
  cases htold : s.told ia f with
  | true => exact ⟨_, _, report_told htold, fun _ => rfl, nofun⟩
  | false =>
    obtain ⟨r, hr⟩ := report_untold htold
    exact ⟨r, _, hr, nofun, fun _ => rfl⟩

theorem resolve_held {t : Tid} {h : HeldAcc} {g : Nat} (hh : s.held = [h]) (hw : h.who = .thread t) (hk : h.kind.isSome = true) (hg : h.ia / 4096 = g)
    (hlog : ∀ k ∈ s.cores, k.sidelog = []) :
    let ends := fun (c : Option (Cause × DWord)) =>
      Host.Outcome.next { s.forgetReports g with held := [], compl := s.compl ++ [{ t, xs := [], p := none, cause := c, set := none }] }
    (h.op.bytes ≠ 0 → exec (.xresolve g) s = .next (State.request { s.forgetReports g with held := [] } t h.ia none h.op)) ∧
    (∀ va d, h.op = .fetch va → s.routeAll h.ia false = .to d → exec (.xresolve g) s = ends none) ∧
    exec (.xresolveAbandon g) s = ends (some (.pageFault, BitVec.ofNat 64 (4096 * g))) := by
  refine ⟨fun hb => ?_, fun va d ho hr => ?_, congrArg Host.Outcome.next (abandonGranule_one hh hw hk hg hlog)⟩
  · rw [xresolve_held hh hw hk hg hlog, redo_request hw hb]
  · exact (xresolve_held hh hw hk hg hlog).trans (congrArg Host.Outcome.next (redo_fetch (s := { s.forgetReports g with held := [] }) hw ho hr))

theorem resolve_elsewhere {h : HeldAcc} {g : Nat} (hh : s.held = [h]) (hg : h.ia / 4096 ≠ g) (hlog : ∀ k ∈ s.cores, k.sidelog = []) :
    exec (.xresolve g) s = .next { s.forgetReports g with held := [h] } ∧ exec (.xresolveAbandon g) s = .next { s.forgetReports g with held := [h] } := by
  have hsame : ({ s.forgetReports g with held := [h] } : State) = s.forgetReports g := by rw [← hh]; rfl
  exact ⟨hsame ▸ xresolve_elsewhere hh hg hlog, congrArg Host.Outcome.next (abandonGranule_other hh hg hlog)⟩

theorem resolve_log {k : Core} {e : SideEnt} {w : Eff} {th : Thread} {g : Nat} (hh : s.held = []) (hc : s.cores = [k]) (hl : k.sidelog = [e])
    (ho : e.op = .write w) (hg : e.ia / 4096 = g) (ht : s.thread? e.t = some th) (hr : th.loc = .resident) :
    exec (.xresolve g) s = .next { s.forgetReports g with cores := [{ k with sidelog := [{ e with held := false }] }] } ∧
    ∃ s', exec (.xresolveAbandon g) s = .next s' ∧ LanesDo [e.t] (fun x =>
      { x with next := some (x.next.getD (.pageFault, BitVec.ofNat 64 (4096 * g))) }) { s.forgetReports g with cores := [{ k with sidelog := [] }] } s' := by
  constructor
  · show Host.Outcome.next (State.replayHeld ((s.forgetReports g).wakeLog (4096 * g) 4096) _) = _
    rw [wakeLog_one (s := s.forgetReports g) hc hl hg]
    exact congrArg Host.Outcome.next (replayHeld_none (s := { s.forgetReports g with cores := _ }) hh)
  · refine ⟨_, congrArg Host.Outcome.next (abandonGranule_log hh hc hl ho hg), ?_⟩
    rw [causeFor_resident (s := { s.forgetReports g with cores := _ }) ht hr]
    exact modThread_lane fun _ => rfl

theorem log_store {core ia pa : Nat} {e : SideEnt} {rest : List SideEnt} {data : List Byte} (hlog : (s.core core).sidelog = e :: rest)
    (hh : e.held = false) (hs : ∀ k ∈ s.cores, k.slots = []) (hia : e.ia = ia) :
    (∀ m, e.peer = some m → e.op = .write (.store ia (some m) data) → exec (.sideLogPerform core) s = .next (State.dropLog { s with
      out := s.out ++ [{ t := e.t, core, dest := .peer m ia, op := .write (.store ia (some m) data), seq := s.nextSeq, late := false }]
      nextSeq := s.nextSeq + 1 } core e)) ∧
    (e.peer = none → e.op = .write (.store ia none data) → data.length < 64 → s.mem.wf = true → s.route ia true = .to (.mem pa) →
      ∃ s1 : State, exec (.sideLogPerform core) s = .next (s1.dropLog core e) ∧ LineWritten e.t ia pa data s s1) ∧
    (e.peer = none → e.op = .write (.store ia none data) → ∀ f l x, s.route ia true = .fault f l x →
      ∃ s', exec (.sideLogPerform core) s = .next s' ∧ s' = { s with cores := s'.cores, reported := s'.reported, work := s'.work } ∧
        (s'.core core).sidelog = (e :: rest).map (fun y => if y = e then { y with held := true } else y) ∧
        (s.told ia f = false → s'.work = s.work ++ [.fault (s.ctxOf e.t) (ia / 64 * 64) f .store l x]) ∧ (s.told ia f = true → s'.work = s.work)) := by
  refine ⟨fun m hp ho => ?peer, fun hp ho hn w hr => ?home, fun hp ho f l x hr => ?fault⟩
  case peer => exact congrArg Host.Outcome.next (performLog_done hlog hh hs ho hp rfl)
  case home =>
    have hdo : s.writeDo core e.t (.store ia none data) = (s.writeMem e.t pa ia (.store ia none data), none) := by
      simp only [State.writeDo, Eff.peer, Eff.ia, hr]
    exact ⟨_, congrArg Host.Outcome.next (performLog_done hlog hh hs ho hp hdo), writeMem_store w hn⟩
  case fault =>
    have hdo : s.writeDo core e.t (.store ia none data) = (s, some (some (f, l, x))) := by
      simp only [State.writeDo, Eff.peer, Eff.ia, hr]
    refine ⟨_, congrArg Host.Outcome.next (performLog_faults hlog hh hs ho hp hdo), ?_⟩
    obtain ⟨r, w, heq, htold, hnew⟩ := report_parts s true (s.ctxOf e.t) e.ia l .store f x
    have hwork (R : State) (p : Core → Core) : (R.modCore core p).work = R.work := by
      have hrest := congrArg State.work (modCore_rest R core p)
      exact hrest
    rw [heq, hwork, core_modCore_self _ core _ (by intro; rfl), ← hia]
    refine ⟨?_, congrArg (List.map _) hlog, hnew, htold⟩
    unfold State.modCore
    split <;> rfl

theorem migration_starts {c n l a : Nat} {dst e : DWord} (hc : c < s.migs.length) (hstat : (s.mig c).stat ≠ 1) (w : s.mem.wf = true)
    (hw : walkFrom s.mem (bitsOf (s.mig c).src.toNat 0 52) (bitsOf s.xroot.toNat 7 45 * 128) 0 5 = .leaf e l a)
    (hsize : sameSizeLeaf dst l e = true) (hn : leafSize e = some n) :
    let page := bitsOf (s.mig c).src.toNat 0 52
    ∃ s', exec (.migrationStart c dst) s = .next s' ∧
      MigrationOnly c { s.mig c with dst, stat := 1, page := page / 2 ^ n * 2 ^ n, old := e, new := dst } s s' ∧
      ∀ x, s'.mem.get x = (copyAt (leafCopies page n l a) x).elim (s.mem.get x) fun y => BitVec.ofNat 8 ((e ||| blk).toNat / 2 ^ (8 * (x - y))) := by
  refine ⟨_, migrationStart_leaf hstat hw hsize hn, ⟨?_, fun d hd => ?_, rfl⟩, get_leaf_written (leafCopies_apart _ _ _ _) _ w⟩
  · have hlen : c < (s.modMig c fun m => { m with dst }).migs.length := (length_setAt ..).symm ▸ hc
    refine (mig_modMig_self (s := State.putLeaf ..) hlen _).trans ?_
    exact congrArg (fun m : Mig => ({ m with stat := 1, page := _, old := e, new := dst } : Mig)) (mig_modMig_self hc fun m => { m with dst })
  · exact (mig_modMig_other (s := State.putLeaf ..) hd _).trans (mig_modMig_other hd fun m => { m with dst })

theorem migration_refused {c : Nat} {dst : DWord} {w : Walk} (hc : c < s.migs.length) (hstat : (s.mig c).stat ≠ 1)
    (hw : walkFrom s.mem (bitsOf (s.mig c).src.toNat 0 52) (bitsOf s.xroot.toNat 7 45 * 128) 0 5 = w)
    (hbad : (∃ k l e, w = .fault k l e) ∨ ∃ e l a, w = .leaf e l a ∧ sameSizeLeaf dst l e = false) :
    ∃ s', exec (.migrationStart c dst) s = .next s' ∧ MigrationOnly c { s.mig c with dst, stat := 3 } s s' ∧ s'.mem = s.mem ∧ s'.tlb = s.tlb := by
  have hlen : c < (s.modMig c fun m => { m with dst }).migs.length := (length_setAt ..).symm ▸ hc
  obtain ⟨hmig, hothers, -⟩ := onlyMig hlen fun m => { m with stat := 3 }
  refine ⟨_, migrationStart_fails hstat hw hbad, ⟨hmig.trans ?_, fun d hd => (hothers d hd).trans (mig_modMig_other hd _), rfl⟩, rfl, rfl⟩
  exact congrArg (fun m : Mig => ({ m with stat := 3 } : Mig)) (mig_modMig_self hc fun m => { m with dst })

/-- The last writes of a migration: a leaf into its copies, and the channel. -/
theorem leaf_and_channel {s1 : State} {c : Nat} {copies : List Nat} (hc : c < s.migs.length) (ha : Apart copies) (w : s1.mem.wf = true)
    (h1 : s1 = { s with mem := s1.mem, poison := s1.poison, lineIa := s1.lineIa }) (e : DWord) (f : Mig → Mig) :
    let s' := (s1.putLeaf copies e false).modMig c f
    MigrationOnly c (f (s.mig c)) s s' ∧
      ∀ x, s'.mem.get x = (copyAt copies x).elim (s1.mem.get x) fun y => BitVec.ofNat 8 (e.toNat / 2 ^ (8 * (x - y))) := by
  have hmigs : s1.migs = s.migs := by rw [h1]
  obtain ⟨hmig, hothers, -⟩ := onlyMig (s := s1.putLeaf copies e false) (hmigs.symm ▸ hc : c < s1.migs.length) f
  have hsame (d : Nat) : s1.mig d = s.mig d := congrArg (getAt _ · d) hmigs
  refine ⟨⟨hmig.trans (congrArg f (hsame c)), fun d hd => (hothers d hd).trans (hsame d), ?_⟩, get_leaf_written ha e w⟩
  rw [h1]
  rfl

end Clauses

section Settle

/-- Settles O57: what is held on a granule is one access or one entry of a side log, the copies of a leaf lie apart, and a rebase reaches every core. -/
theorem translationFaultsAndMigration : Obligations.TranslationFaultsAndMigration := by
  unfold Obligations.TranslationFaultsAndMigration
  have hbits (v : Nat) : bitsOf v 0 52 = v % 2 ^ 52 := by rw [bitsOf, pow_zero, Nat.div_one]
  refine ⟨fun s v => ?root, fun s t h g g' hh hw hk hg hne hlog => ?held, fun s k e w th g hh hc hl ho hg ht hr => ?log,
    fun s core ia pa e rest hlog => ?performs, fun s c dst hc => ?migration, fun s n => ?ticks⟩
  case root => exact ⟨⟨_, rfl, xroot_bits v⟩, _, rfl, rfl, fun x => mem_dropTlb_all⟩
  case held =>
    obtain ⟨hasks, hfetch, habandon⟩ := resolve_held hh hw hk hg hlog
    obtain ⟨hother, hothera⟩ := resolve_elsewhere hh (hg ▸ hne.symm) hlog
    exact ⟨fun hb _ => hasks hb, hfetch, habandon, hother, hothera⟩
  case log => exact resolve_log hh hc hl ho hg ht hr
  case performs =>
    refine ⟨fun hheld hs => ⟨fun o ho => congrArg Host.Outcome.next (performLog_request hlog hheld ho), fun data hia => ?_⟩, fun d ho hout => ?_⟩
    · exact log_store hlog hheld hs hia
    · exact congrArg Host.Outcome.next (by rw [performMarker_first hlog ho hout]; rfl)
  case migration =>
    intro m page leaf found leaves
    have hleaf (copies : List Nat) (e : DWord) (other : Nat → Byte) (x : Nat) : leaf copies e other x =
        (copyAt copies x).elim (other x) fun y => BitVec.ofNat 8 (e.toNat / 2 ^ (8 * (x - y))) := by
      show (match copyAt copies x with | some a => BitVec.ofNat 8 (e.toNat / 2 ^ (8 * (x - a))) | none => other x) = _
      cases copyAt copies x <;> rfl
    have hfound : walkFrom s.mem (bitsOf m.src.toNat 0 52) (bitsOf s.xroot.toNat 7 45 * 128) 0 5 = found := by rw [hbits]; rfl
    refine ⟨fun hbusy => ?_, fun hidle ok => ?_, fun hidle hbad => ?_, fun hidle w e l a n hw hsize hn => ?_, fun hbusy hheld hlogs w n hn => ?_⟩
    · exact congrArg Host.Outcome.next (if_pos hbusy)
    · exact congrArg Host.Outcome.next (if_neg hidle)
    · obtain ⟨s', hexec, hm, hmem, htlb⟩ := migration_refused hc hidle hfound hbad
      exact ⟨s', ⟨hexec, hm⟩, hmem, htlb⟩
    · obtain ⟨s', hexec, hm, hmem⟩ := migration_starts hc hidle w (hfound.trans hw) hsize hn
      rw [hbits] at hm hmem
      exact ⟨s', ⟨hexec, hm⟩, fun x => (hmem x).trans (hleaf _ _ _ x).symm⟩
    · have hfails (ok : Bool) (hbad : (ok && !s.frameBad m.page m.old n && !s.frameLost m.new) = false) :
          ∃ s', leaves (.migrationCopyDone c ok) { m with stat := 3 } s' ∧ ∀ x, s'.mem.get x = leaf (s.copiesOf m.page) m.old s.mem.get x := by
        obtain ⟨hm, hmem⟩ := leaf_and_channel hc (copiesOf_apart (s := s) m.page) w rfl m.old fun m => { m with stat := 3 }
        exact ⟨_, ⟨migrationCopyDone_fails hbusy hheld hlogs hn hbad, hm⟩, fun x => (hmem x).trans (hleaf _ _ _ x).symm⟩
      refine ⟨hfails false rfl, fun hframe => hfails true (by rw [hframe]; rfl), fun hold hnew hframe => ?_⟩
      obtain ⟨hsame, hwf, hget⟩ := copyFrame_home (n := n) hold hnew w
      obtain ⟨hm, hmem⟩ := leaf_and_channel hc (copiesOf_apart (s := s) m.page) hwf hsame (m.new &&& ~~~blk) fun m => { m with stat := 2 }
      refine ⟨_, ⟨migrationCopyDone_ends hbusy hheld hlogs hn hframe hnew, hm⟩, fun x => (hmem x).trans ?_⟩
      rw [hget, show blk = 0x40#64 from rfl]
      exact (hleaf _ _ (fun y => if leafBase m.new n ≤ y ∧ y < leafBase m.new n + 2 ^ n then _ else _) x).symm
  case ticks =>
    refine ⟨fun hlow => ?_, fun hhigh => ⟨_, congrArg Host.Outcome.next (if_pos hhigh), rfl, fun k => core_rebase s n k⟩⟩
    exact congrArg Host.Outcome.next (if_neg (Nat.not_le.mpr hlow))

end Settle

end Sys2Proof.Machine
end

section
/-! A pre-emption request that covers one of two teams whose threads have operations of one batch outstanding (R54, R356, R398, R399). -/

namespace Sys2Proof.Machine

open Sys2Proof

/-! ### The counterexample's state -/

/-- An operation of a matrix quarter, with no result of its own. -/
def quarterOp : FlagOp := { flag := some 0, xs := [], ps := [], shadowXs := [], shadowPs := [], fpx := 0, bound := 96, batch := 1 }

/-- A parked lane of the covered team. -/
def coveredLane : Thread := { Thread.initial wordTid 0 8 [] false wordPc 0 with ops := [quarterOp] }

/-- A parked lane of team 1. -/
def uncoveredLane : Thread := { Thread.initial (.thr 0 0 1 0 0) 0 8 [] false wordPc 0 with ops := [quarterOp] }

/-- Both lanes wait for the operations of one batch. An earlier request has asked team 1 already, so that a new one does not cover it. -/
def oneBatch : State :=
  { State.reset with
    ctxs := [wordCtx], grids := [wordGrid], teams := [wordTeam, { wordTeam with num := 1, tslot := 1, preempt := true }]
    threads := [coveredLane, uncoveredLane] }

/-- REQ = 1 and SCOPE the context, on die 0. -/
def requestOnDie0 : DWord := 0x4800000100000000

/-! ### What the request does -/

/-- The covered lane's operation lands before its record is SAVED, and with it every operation of its batch: that of the lane of team 1 too. -/
theorem preemptRequest_oneBatch : ∃ s', exec (.preemptRequest 0 requestOnDie0) oneBatch = .next s' ∧
    s'.thread? uncoveredLane.id = some { uncoveredLane with ops := [] } :=
  ⟨_, rfl, by decide +kernel⟩

/-! ### The refutation -/

/-- Refutes O60, in the clause of a pre-emption request: every thread outside the covered teams is to stay, without a premise about operations outstanding. A covered parked lane's operations complete first (R54), and an operation of a batch completes with all of its batch (R356), whichever team's lanes they are; no step makes a batch that two teams share, but the statement is about every state. -/
theorem not_preemptionAndEngineQueues : ¬ Obligations.PreemptionAndEngineQueues := by
  rintro ⟨hrequest, -⟩
  obtain ⟨-, -, hreq⟩ := hrequest oneBatch 0 requestOnDie0 wordCtx rfl
  obtain ⟨_, _, hexec, -, -, -, -, -, hothers⟩ := hreq (by decide) (by decide)
  have hstays := hothers uncoveredLane.id fun tm htm hasked => by
    obtain ⟨-, -, hfirst, -⟩ := hasked
    rcases List.mem_cons.mp htm with rfl | hlast
    · rfl
    · rw [List.mem_singleton.mp hlast] at hfirst
      cases hfirst
  obtain ⟨_, hexec', hlanded⟩ := preemptRequest_oneBatch
  cases hexec.symm.trans hexec'
  cases hstays.symm.trans hlanded

end Sys2Proof.Machine
end
